-- ==== Sys2Proof/Word.lean ====
section
/-! DEFINITION. The word types of the DW9: the 64-bit instruction and register word (R3, R45),
the byte of memory (R5) and the 6-bit register specifier (R49). -/

namespace Sys2Proof

/-- 64 bits: the size of one instruction and of one scalar register (R3). -/
abbrev Word := BitVec 64

/-- One byte of memory (R5). -/
abbrev Byte := BitVec 8

/-- A scalar register specifier (R49) or a 6-bit register field (R51). -/
abbrev Spec := BitVec 6

end Sys2Proof
end

