-- ==== Sys2Proof/Config.lean ====
section
/-! DEFINITION. What the manual leaves open: constants with no body, so that no proof can lean on a
value of them. Each is applied to the plain data that it may depend on; the log entry of each is named. -/

namespace Sys2Proof

/-- The n-th byte that the hardware leaves unspecified (log 10): bytes of a failed or overlapping copy,
cleartext of another key. -/
opaque Config.freeByte : Nat → Byte

/-- Whether the n-th failed copy or drain has written a 32-byte chunk of its failed rows (R216; log 16). -/
opaque Config.freeBit (n chunk : Nat) : Bool

/-- The stepping's own f32 approximation of VRSQ 0, VRCP 1, VEXP2 2, VLOG2 3 or VTANH 4 (R185; log 11). -/
opaque Config.approxFn (op : Nat) (a : BitVec 32) : BitVec 32

/-- What a 16-byte cipher block of memory written under one memory key reads as under another (R372, R374; log 12): the
arguments are the two keys (domain and epoch), the number of the cipher block and its content. -/
opaque Config.garble (from_ to_ : Nat × Nat) (blk : Nat) (b : BitVec 128) : BitVec 128

/-- The keystream and tag of a sealed image (R370, R373; log 13): key domain and epoch, core, counter
and index of the byte. -/
opaque Config.sealByte (dom epoch core ctr i : Nat) : Byte

/-- The sizes of the sections of a sealed image that the manual gives no layout (R370; log 13), ring descriptors 0,
splice tables 1 and queue bindings 2, each below 1 MiB: core, domain, counter and section. -/
opaque Config.sealSection (core dom ctr i : Nat) : Fin 1048576

/-- The r and s of an attestation signature (R377; log 14): the die, the digest signed and the index. -/
opaque Config.signByte (die : Nat) (digest : List Byte) (i : Nat) : Byte

/-- How far a core's reading of the package reference time stands behind the package's (R93: at most
16 ns between cores; log 15). -/
opaque Config.clockSkew (core cycle : Nat) : Fin 17

/-- The hottest junction of a die in °C at a time (R383, R400; log 17): die and half nanoseconds. -/
opaque Config.junction (die time : Nat) : Byte

/-- Misses of the home L2 slices that a core's accesses cause in a cycle (R395, event 41; log 17): core,
cycle, and the domain, or 256 for all. -/
opaque Config.l2Misses (core cycle dom : Nat) : Nat

end Sys2Proof
end

