-- ==== Sys2Proof/Syntax.lean ====
section
/-! DEFINITION. The steps of the DW9 as terms: one constructor per row of spec/opcode_table.json.
The 162 instructions carry the fields of their format (R52 to R58); the eight actions of a cue carry
the fields of the cue's action (R128); the events carry the numbers of the things they act on. -/

namespace Sys2Proof

/-- Format A (R52), with the common fields E and W of R45. Unused fields of an instruction are zero. -/
structure FmtA where
  e : Bool
  w : BitVec 4
  d : Spec
  a : Spec
  b : Spec
  c : Spec
  flag : BitVec 3
  cond : BitVec 3
  deriving DecidableEq, Repr

/-- Format B (R53). -/
structure FmtB where
  e : Bool
  w : BitVec 4
  d : Spec
  a : Spec
  flag : BitVec 3
  imm : BitVec 32
  deriving DecidableEq, Repr

/-- Format M (R54). -/
structure FmtM where
  e : Bool
  w : BitVec 4
  d : Spec
  a : Spec
  seg : BitVec 3
  scope : BitVec 3
  order : BitVec 2
  size : BitVec 3
  sext : Bool
  off : BitVec 24
  deriving DecidableEq, Repr

/-- Format M2 (R55): format M with a second register and a shorter offset. -/
structure FmtM2 where
  e : Bool
  w : BitVec 4
  d : Spec
  a : Spec
  seg : BitVec 3
  scope : BitVec 3
  order : BitVec 2
  size : BitVec 3
  sext : Bool
  b : Spec
  off : BitVec 18
  deriving DecidableEq, Repr

/-- Format V (R56): `me` is mask enable [15], `sc` is vb scalar [14], `op` the op-specific bits. -/
structure FmtV where
  e : Bool
  w : BitVec 4
  vd : Spec
  va : Spec
  vb : Spec
  vc : Spec
  ty : BitVec 4
  rnd : BitVec 2
  mask : BitVec 2
  me : Bool
  sc : Bool
  op : BitVec 14
  deriving DecidableEq, Repr

/-- Format T (R57). -/
structure FmtT where
  e : Bool
  w : BitVec 4
  d : Spec
  a : Spec
  b : Spec
  id1 : BitVec 4
  id2 : BitVec 4
  id3 : BitVec 4
  scope : BitVec 3
  op : BitVec 15
  deriving DecidableEq, Repr

/-- Format S (R58). -/
structure FmtS where
  e : Bool
  w : BitVec 4
  d : Spec
  a : Spec
  b : Spec
  imm : BitVec 14
  op : BitVec 16
  deriving DecidableEq, Repr

/-- The fields of a cue's 128-bit action (R128) beside its kind, which the constructor names. -/
structure CueAct where
  wordA : BitVec 32
  wordB : BitVec 32
  nset : Byte
  rset : Byte
  prm : BitVec 16
  cnt : BitVec 4
  deriving DecidableEq, Repr

/-- An access that arrives over a Limvon port (R286, R383): a read or write of physical memory at the
home L2, of a window address at the target store, or a management read of a system register. -/
inductive LimvonReq where
  | readPhys (pa n : Nat)
  | writePhys (pa : Nat) (bytes : List Byte)
  | readWindow (ea n : Nat)
  | writeWindow (ea : Nat) (bytes : List Byte)
  | readReg (number index : Nat)
  deriving DecidableEq, Repr

/-- Every step of the opcode table. The steps with no field stand last. -/
inductive Instr where
  /-- R112: Writes A + B to d. -/
  | add (x : FmtA)
  /-- R112: Writes A - B to d. -/
  | sub (x : FmtA)
  /-- R112: Writes the low 64 bits of A × B to d. -/
  | mul (x : FmtA)
  /-- R112: Writes the high 64 bits of the signed 128-bit product to d. -/
  | mulh (x : FmtA)
  /-- R112: Writes the high 64 bits of the unsigned 128-bit product to d. -/
  | mulhn (x : FmtA)
  /-- R113: Writes the signed quotient, truncated toward zero, with fixed results for the edge cases. -/
  | div (x : FmtA)
  /-- R113: Writes the unsigned quotient, with all ones for division by zero. -/
  | divn (x : FmtA)
  /-- R113: Writes the signed remainder, which takes the sign of A. -/
  | rem (x : FmtA)
  /-- R113: Writes the unsigned remainder, with A for division by zero. -/
  | remn (x : FmtA)
  /-- R112: Writes A & B to d. -/
  | and (x : FmtA)
  /-- R112: Writes A | B to d. -/
  | or (x : FmtA)
  /-- R112: Writes A ^ B to d. -/
  | xor (x : FmtA)
  /-- R112: Writes A & ~B to d. -/
  | andn (x : FmtA)
  /-- R112: Writes A | ~B to d. -/
  | orn (x : FmtA)
  /-- R112: Shifts A left by B[5:0]. -/
  | shl (x : FmtA)
  /-- R112: Shifts A right by B[5:0], filling with zeros. -/
  | shr (x : FmtA)
  /-- R112: Shifts A right by B[5:0], filling with copies of the sign bit. -/
  | sar (x : FmtA)
  /-- R112: Rotates A left by B[5:0]. -/
  | rol (x : FmtA)
  /-- R112: Rotates A right by B[5:0]. -/
  | ror (x : FmtA)
  /-- R112: Writes the signed lesser of A and B. -/
  | min (x : FmtA)
  /-- R112: Writes the signed greater of A and B. -/
  | max (x : FmtA)
  /-- R112: Writes the unsigned lesser of A and B. -/
  | minn (x : FmtA)
  /-- R112: Writes the unsigned greater of A and B. -/
  | maxn (x : FmtA)
  /-- R112: Counts the leading zero bits of A. -/
  | clz (x : FmtA)
  /-- R112: Counts the trailing zero bits of A. -/
  | ctz (x : FmtA)
  /-- R112: Counts the one bits of A. -/
  | popc (x : FmtA)
  /-- R112: Reverses the byte order of A. -/
  | bswap (x : FmtA)
  /-- R114: Extracts a bit field of A at position B and width C. -/
  | extr (x : FmtA)
  /-- R114: Inserts A into a bit field of the old value of d. -/
  | ins (x : FmtA)
  /-- R112: Writes the low 64 bits of A × B + C to d. -/
  | madd (x : FmtA)
  /-- R112: Writes A or B to d according to a flag. -/
  | sel (x : FmtA)
  /-- R112: Sets a flag to a signed comparison of A and B. -/
  | cmp (x : FmtA)
  /-- R112: Sets a flag to an unsigned comparison of A and B. -/
  | cmpn (x : FmtA)
  /-- R112: Sets a flag when A & B is nonzero. -/
  | tst (x : FmtA)
  /-- R112: Reads all eight flags into d. -/
  | flagr (x : FmtA)
  /-- R112: Writes all eight flags from A[7:0]. -/
  | flagw (x : FmtA)
  /-- R116: Adds a sign-extended immediate to A. -/
  | addi (x : FmtB)
  /-- R116: ANDs A with a zero-extended immediate. -/
  | andi (x : FmtB)
  /-- R116: ORs A with a zero-extended immediate. -/
  | ori (x : FmtB)
  /-- R116: XORs A with a zero-extended immediate. -/
  | xori (x : FmtB)
  /-- R116: Shifts A left by an immediate amount. -/
  | shli (x : FmtB)
  /-- R116: Shifts A right by an immediate amount, filling with zeros. -/
  | shri (x : FmtB)
  /-- R116: Shifts A right arithmetically by an immediate amount. -/
  | sari (x : FmtB)
  /-- R116: Multiplies A by a sign-extended immediate. -/
  | muli (x : FmtB)
  /-- R116: Sets a flag to a signed comparison of A with an immediate. -/
  | cmpi (x : FmtB)
  /-- R116: Sets a flag to an unsigned comparison of A with an immediate. -/
  | cmpni (x : FmtB)
  /-- R116: Sets a flag when A AND the immediate is nonzero. -/
  | tsti (x : FmtB)
  /-- R116: Loads a sign-extended immediate into d. -/
  | ldi (x : FmtB)
  /-- R116: Replaces the high half of A with the immediate. -/
  | ldih (x : FmtB)
  /-- R270: Checks and issues a scalar load and empties d until the data lands. -/
  | ld (x : FmtM)
  /-- R270: Checks a scalar store and performs it at its place. -/
  | st (x : FmtM)
  /-- R271: Loads 64 contiguous elements into a vector register. -/
  | vld (x : FmtM)
  /-- R271: Stores 64 contiguous elements from a vector register. -/
  | vst (x : FmtM)
  /-- R271: Loads 64 strided elements into a vector register. -/
  | vlds (x : FmtM2)
  /-- R271: Stores 64 strided elements from a vector register. -/
  | vsts (x : FmtM2)
  /-- R271: Gathers 64 elements at per-lane offsets. -/
  | vgth (x : FmtM)
  /-- R271: Scatters 64 elements to per-lane offsets. -/
  | vsct (x : FmtM)
  /-- R272: Prefetches a 32-byte line without trapping. -/
  | pref (x : FmtM)
  /-- R272: Writes a dirty L1 line to the coherence point of its scope. -/
  | wbl (x : FmtM)
  /-- R272: Writes back a line and drops it from the L1. -/
  | invl (x : FmtM)
  /-- R273: Performs an acquire, a release or both at a scope. -/
  | fence (x : FmtM)
  /-- R274: Atomically adds to memory and returns the old value. -/
  | amoadd (x : FmtM)
  /-- R274: Atomically ANDs into memory and returns the old value. -/
  | amoand (x : FmtM)
  /-- R274: Atomically ORs into memory and returns the old value. -/
  | amoor (x : FmtM)
  /-- R274: Atomically XORs into memory and returns the old value. -/
  | amoxor (x : FmtM)
  /-- R274: Atomically writes the signed lesser value. -/
  | amomin (x : FmtM)
  /-- R274: Atomically writes the signed greater value. -/
  | amomax (x : FmtM)
  /-- R274: Atomically writes the unsigned lesser value. -/
  | amominn (x : FmtM)
  /-- R274: Atomically writes the unsigned greater value. -/
  | amomaxn (x : FmtM)
  /-- R274: Atomically swaps the operand into memory. -/
  | amoswp (x : FmtM)
  /-- R274: Atomically writes the FMax of the old f32 value and the operand. -/
  | amofmax (x : FmtM)
  /-- R275: Compares memory with gd and writes gd+1 on a match. -/
  | cas (x : FmtM)
  /-- R275: Performs a 16-byte compare-and-swap using gd to gd+3. -/
  | cas2 (x : FmtM)
  /-- R181: Adds the lanes of two vectors. -/
  | vadd (x : FmtV)
  /-- R181: Subtracts the lanes of two vectors. -/
  | vsub (x : FmtV)
  /-- R181: Multiplies the lanes of two vectors. -/
  | vmul (x : FmtV)
  /-- R182: Computes a × b + c per lane with one rounding. -/
  | vfma (x : FmtV)
  /-- R182: Computes a × b - c per lane with one rounding. -/
  | vfms (x : FmtV)
  /-- R182: Computes -(a × b) + c per lane with one rounding. -/
  | vfnma (x : FmtV)
  /-- R181: Writes the lesser value of each lane pair. -/
  | vmin (x : FmtV)
  /-- R181: Writes the greater value of each lane pair. -/
  | vmax (x : FmtV)
  /-- R183: Writes the absolute value of each lane. -/
  | vabs (x : FmtV)
  /-- R183: Negates each lane. -/
  | vneg (x : FmtV)
  /-- R184: Divides each lane pair with correct rounding. -/
  | vdiv (x : FmtV)
  /-- R184: Takes the correctly rounded square root of each lane. -/
  | vsqrt (x : FmtV)
  /-- R185: Approximates the reciprocal square root of each lane. -/
  | vrsq (x : FmtV)
  /-- R185: Approximates the reciprocal of each lane. -/
  | vrcp (x : FmtV)
  /-- R185: Approximates 2 to the power of each lane. -/
  | vexp2 (x : FmtV)
  /-- R185: Approximates the base-2 logarithm of each lane. -/
  | vlog2 (x : FmtV)
  /-- R185: Approximates the hyperbolic tangent of each lane. -/
  | vtanh (x : FmtV)
  /-- R186: ANDs all 32 bits of each lane pair. -/
  | vand (x : FmtV)
  /-- R186: ORs all 32 bits of each lane pair. -/
  | vor (x : FmtV)
  /-- R186: XORs all 32 bits of each lane pair. -/
  | vxor (x : FmtV)
  /-- R186: Shifts each lane left. -/
  | vshl (x : FmtV)
  /-- R186: Shifts each lane right, filling with zeros. -/
  | vshr (x : FmtV)
  /-- R186: Shifts each lane right arithmetically. -/
  | vsar (x : FmtV)
  /-- R187: Writes a mask bit per lane from a comparison. -/
  | vcmp (x : FmtV)
  /-- R188: Selects each lane from a or b by a mask. -/
  | vsel (x : FmtV)
  /-- R188: Combines or moves masks. -/
  | vmsk (x : FmtV)
  /-- R189: Counts the one bits or the leading zeros of each lane. -/
  | vcnt (x : FmtV)
  /-- R190: Converts each lane between types. -/
  | vcvt (x : FmtV)
  /-- R191: Quantises 64 lanes into one part of SG blocks. -/
  | vqnt (x : FmtV)
  /-- R192: Dequantises one part of SG blocks into 64 lanes. -/
  | vdqt (x : FmtV)
  /-- R193: Broadcasts a scalar or one lane to every lane. -/
  | vbcst (x : FmtV)
  /-- R193: Moves a lane or a mask to g, or g to one lane. -/
  | vmovg (x : FmtV)
  /-- R194: Writes base + i × stride into lane i. -/
  | viota (x : FmtV)
  /-- R194: Permutes the lanes of va by indices. -/
  | vperm (x : FmtV)
  /-- R195: Writes the running sum, max or min over the present lanes. -/
  | vscan (x : FmtV)
  /-- R196: Sums the present lanes into a g register. -/
  | vredadd (x : FmtV)
  /-- R196: Reduces the present lanes to their maximum in g. -/
  | vredmax (x : FmtV)
  /-- R196: Reduces the present lanes to their minimum in g. -/
  | vredmin (x : FmtV)
  /-- R196: Reduces the present lanes to their largest magnitude in g. -/
  | vamax (x : FmtV)
  /-- R197: Selects the K greatest present lanes together with their lane numbers. -/
  | vtopk (x : FmtV)
  /-- R244: Claims operand tiles and queues a multiply-accumulate into an accumulator. -/
  | mma (x : FmtT)
  /-- R244: Queues an MMA that first zeroes the accumulator. -/
  | mmaz (x : FmtT)
  /-- R246: Queues a command that zeroes an accumulator. -/
  | mzero (x : FmtT)
  /-- R247: Queues a drain of an accumulator to memory, with an optional amax update and clear. -/
  | mdrn (x : FmtT)
  /-- R249: Queues a load of an accumulator from an f32 tile. -/
  | mlda (x : FmtT)
  /-- R250: Swaps a ring's slice scale. -/
  | mscl (x : FmtT)
  /-- R222: Checks a shape block and queues a copy command. -/
  | cpy (x : FmtT)
  /-- R222: Queues a copy that carries a follow-on MMA word. -/
  | cpym (x : FmtT)
  /-- R223: Queues a fill of the destination with a pattern. -/
  | cpyf (x : FmtT)
  /-- R225: Initialises a ring descriptor. -/
  | rngini (x : FmtT)
  /-- R226: Pops n ready unclaimed tiles from a ring. -/
  | rngpop (x : FmtT)
  /-- R226: Publishes n thread-written tiles at the ring's tail. -/
  | rngadv (x : FmtT)
  /-- R227: Reads ring state, layout, geometry or the head tag. -/
  | rngq (x : FmtT)
  /-- R228: Registers a thread-owned range entry. -/
  | rlck (x : FmtT)
  /-- R229: Releases and frees a thread-owned range entry. -/
  | rfree (x : FmtT)
  /-- R231: Releases and sends a rewrite of a barrier object. -/
  | barinit (x : FmtT)
  /-- R232: Releases and sends an arrival to a barrier object. -/
  | bararv (x : FmtT)
  /-- R233: Starts a bounded wait for a barrier's phase to pass. -/
  | barwt (x : FmtT)
  /-- R318: Starts a splice running and queues its pairs for sending. -/
  | route (x : FmtT)
  /-- R319: Sends a returned row or a fail notice by tag. -/
  | rtret (x : FmtT)
  /-- R320: Readies a splice table and clears its output tile. -/
  | splini (x : FmtT)
  /-- R321: Reads splice counts, row statuses or the late count. -/
  | splq (x : FmtT)
  /-- R322: Binds a receive queue to the issuing resident program. -/
  | rxbind (x : FmtT)
  /-- R323: Requests the next handed token page of a queue. -/
  | rxtake (x : FmtT)
  /-- R324: Returns a token page to the pool and sends its credits. -/
  | rxfree (x : FmtT)
  /-- R325: Sends an end-of-stream token through a route entry. -/
  | rxeos (x : FmtT)
  /-- R60: Does nothing. -/
  | nop (x : FmtS)
  /-- R145: Stages an entry image, or a disable, in a shadow copy. -/
  | cuew (x : FmtS)
  /-- R146: Commits a set's staged entries at the end of the turn. -/
  | cuecut (x : FmtS)
  /-- R148: Reads a set's cut number, its shape or one entry. -/
  | cuerd (x : FmtS)
  /-- R149: Changes the slot's current cue set. -/
  | cuesel (x : FmtS)
  /-- R117: Writes a counter. -/
  | cntw (x : FmtS)
  /-- R118: Reads a counter. -/
  | cntr (x : FmtS)
  /-- R86: Reads a task record and pushes it onto the domain's deque share. -/
  | spawn (x : FmtS)
  /-- R86: Reads a task record and starts a resident program on a free slot. -/
  | spawnr (x : FmtS)
  /-- R88: Submits a device-built launch from an array of records. -/
  | launch (x : FmtS)
  /-- R89: Parks the slot until a selected port holds a message or a timeout passes. -/
  | park (x : FmtS)
  /-- R90: Drains the slot and offers it to other ready work of the domain. -/
  | yield (x : FmtS)
  /-- R91: Ends the thread once its accesses and commands have drained. -/
  | exit (x : FmtS)
  /-- R92: Enqueues a tagged message for a port of a slot. -/
  | send (x : FmtS)
  /-- R381: Narrows a segment register. -/
  | segw (x : FmtS)
  /-- R382: Reads one word of a segment register. -/
  | segr (x : FmtS)
  /-- R352: Raises a software trap with a code. -/
  | trap (x : FmtS)
  /-- R353: Reads a system register. -/
  | sysr (x : FmtS)
  /-- R353: Writes a system register that has no behaviour of its own. -/
  | sysw (x : FmtS)
  /-- R93: Reads the cycle clock or the package nanosecond clock. -/
  | time (x : FmtS)
  /-- R396: Reads an event counter that the domain owns. -/
  | evtr (x : FmtS)
  /-- R352: Raises breakpoint sub-code 1. -/
  | bkpt (x : FmtS)
  /-- R355: Parks a domain 0 slot so that the core may stop its clock. -/
  | halt (x : FmtS)
  /-- R131: A lookup chooses a NEXT cue and moves to its shot with its set, prm and counter operation. -/
  | next (q : CueAct)
  /-- R132: A lookup chooses a CALL cue, pushes a frame onto the call stack and enters the callee. -/
  | call (q : CueAct)
  /-- R134: A lookup chooses an ICALL cue, checks the function table and pushes a frame. -/
  | icall (q : CueAct)
  /-- R132: A lookup chooses a RET cue and pops a frame to return. -/
  | ret (q : CueAct)
  /-- R366: A lookup chooses a GATE cue and pushes a gate record for the target domain, and the caller waits. -/
  | gate (q : CueAct)
  /-- R367: A service thread's lookup chooses GRET and returns the passed registers to its caller. -/
  | gret (q : CueAct)
  /-- R339: A lookup chooses ERET and leaves the trap handler. -/
  | eret (q : CueAct)
  /-- R131: A lookup chooses a MISS-TRAP cue and raises cue-miss. -/
  | missTrap (q : CueAct)
  /-- R69: A free slot takes the next work of its domain: a deque record, a pending launch record or a stolen record. -/
  | takeWork (core slot : Nat)
  /-- R74: A victim core answers a steal request with its top movable record or with empty. -/
  | stealRequest (thief victim dom : Nat)
  /-- R74: A thief receives a steal answer and either takes the record or asks the next core. -/
  | stealAnswer (thief : Nat)
  /-- R77: The launch unit moves pending records into a core's deque share when it has room. -/
  | pendingMove (core dom : Nat)
  /-- R79: A launch completes at its scope, and its status or completion record is written. -/
  | launchCompletion (id : Nat)
  /-- R91: A draining slot's accesses and commands have retired, so EXIT frees the slot or YIELD goes on. -/
  | drainEnd (core slot : Nat)
  /-- R86: The record read of SPAWN or SPAWNR completes, and the push or start is made and the status filled. -/
  | spawnStatusFill (core i : Nat)
  /-- R80: A task's page fault saves its context into a frame and frees the slot. -/
  | pageFaultSave (core slot : Nat)
  /-- R80: A faulted page becomes present, and a resume record is pushed or the stalled access is retried. -/
  | pageArrival (dom page : Nat)
  /-- R343: After a pre-emption request, the thread saves at the first listed boundary. -/
  | preemptSave (core slot : Nat)
  /-- R343: Q + 65,536 cycles pass without a boundary, and a full save is forced. -/
  | preemptDeadline (core slot : Nat)
  /-- R344: A whole domain is saved, its commands retire and its core state is sealed. -/
  | domainSave (core dom : Nat)
  /-- R78: A parallel launch's record has waited a quantum, and the longest-running task is pre-empted. -/
  | quantumExpiry (core dom : Nat)
  /-- R89: A parked slot's timeout passes, and its status fills. -/
  | parkTimeout (core slot : Nat)
  /-- R92: A sent message is appended to the destination port, or discarded, and the status fills. -/
  | sendDelivery (core slot : Nat)
  /-- R96: The value of a load or atomic lands, and its destination register becomes full. -/
  | loadDataFill (core i : Nat)
  /-- R107: A pending vector, mask or reduction result is written at its due time. -/
  | vectorResultLand (core slot i : Nat)
  /-- R212: A queued copy command starts once its ranges and ring slots allow. -/
  | copyStart (core i : Nat)
  /-- R216: A row of a copy retires or fails. -/
  | copyRowRetire (core i : Nat)
  /-- R217: A copy ends, sets ring tags, frees its entries and fills its status. -/
  | copyComplete (core i : Nat)
  /-- R224: The copy engine issues a CPYM's follow-on MMA to the matrix engine, or discards it. -/
  | followOnIssue (core i : Nat)
  /-- R236: A queued matrix command starts after the earlier commands on its accumulator retire. -/
  | matrixCommandStart (core i : Nat)
  /-- R240: A matrix command retires, pops its tiles, frees its ranges and fills its status. -/
  | matrixCommandRetire (core : Nat)
  /-- R232: A BARARV or BARINIT request reaches the object's store and is applied. -/
  | barrierArrivalApply (i : Nat)
  /-- R232: An arrival's reply reaches the slot and fills d, raising any overrun. -/
  | bararvReply (core i : Nat)
  /-- R233: A waiting BARWT sees the phase or the error bit change and fills d. -/
  | barwtWake (core i : Nat)
  /-- R233: A BARWT's bound passes, and d fills as timed out. -/
  | barwtBoundExpiry (core i : Nat)
  /-- R278: A dirty L1 line writes its written bytes back to the home L2. -/
  | l1WriteBack (core i : Nat)
  /-- R278: A clean L1 line is dropped. -/
  | l1LineDrop (core i : Nat)
  /-- R258: A translation cache miss is searched by the agent, which answers with an entry or a fault. -/
  | translationMiss (cluster dom page : Nat) (write : Bool)
  /-- R260: A write to SHOOT requests the removal of a page's translations. -/
  | shootDown (request : Word)
  /-- R260: Every port and L1 has dropped the page, and the shoot-down completes. -/
  | shootDownComplete (i : Nat)
  /-- R300: The route port sends one pair of a ROUTE, spilling, dropping or stalling as its entry decides. -/
  | pairSend (core i : Nat)
  /-- R305: A routed row arrives at a receive queue and takes a page position, or fails. -/
  | rowArrival (i : Nat)
  /-- R307: A held row's page is supplied or refused, and the row is written or fails. -/
  | faultHoldResolve (core i : Nat) (supplied : Bool)
  /-- R306: The tile walker hands a token page over, writing its header. -/
  | pageHandover (core queue : Nat)
  /-- R306: A queue's page timeout passes since the page's first reservation. -/
  | queueTimeout (core queue : Nat)
  /-- R308: An end-of-stream token arrives and is counted, and it may end the stream. -/
  | eosArrival (i : Nat)
  /-- R298: A credit returns to its route entry. -/
  | creditReturn (i : Nat)
  /-- R312: A return or fail notice arrives and is applied to its splice slot. -/
  | returnApply (i : Nat)
  /-- R319: The splice's acknowledgement reaches the sender and fills RTRET's status. -/
  | rtretAck (i : Nat)
  /-- R313: A splice's last pending slot resolves, and the splice completes. -/
  | spliceComplete (core n : Nat)
  /-- R313: A splice's timeout expires, and pending slots become timed-out. -/
  | spliceTimeout (core n : Nat)
  /-- R314: A reset of a peer package fails its route entries and pending slots. -/
  | peerReset (core package : Nat)
  /-- R392: A reset announcement, or a newer incarnation, from a package is received and reported to the cores. -/
  | resetAnnouncement (package incarnation : Nat)
  /-- R355: Every slot is free or halted and the engines are idle, so the core stops its pipeline clock. -/
  | clockStop (core : Nat)
  /-- R355: A message or a placed thread restarts a stopped core. -/
  | clockRestart (core : Nat)
  /-- R201: A write to L1CFG stops issue so that the bank split can change. -/
  | l1cfgWrite (core : Nat) (value : Word)
  /-- R201: After the engines drain, the L1 is flushed, changed banks are cleared and Lb is set. -/
  | l1Reconfigure (core : Nat)
  /-- R351: A write to PREQ requests pre-emption of slots or of a domain. -/
  | preqWrite (core : Nat) (value : Word)
  /-- R100: Domain 0 writes another domain's h register with turn timing. -/
  | hbankWrite (core dom reg : Nat) (value : Word)
  /-- R164: A write to RSEED reseeds the domain's stochastic generator. -/
  | rseedWrite (core dom : Nat) (value : Word)
  /-- R360: A write to PART0, PART1 or PART2 repartitions the core, or has no effect. -/
  | partWrite (core dom index : Nat) (value : Word)
  /-- R360: A write to PLOCK sets or clears the partition lock. -/
  | plockWrite (core dom : Nat) (value : Word)
  /-- R371: A SEAL write with bit 3 restores a sealed domain image. -/
  | sealRestore (core dom : Nat) (value : Word)
  /-- R372: A KEYC write draws and installs new domain keys. -/
  | keyRefresh (dom : Nat)
  /-- R376: A MEXT write extends the domain measurement with a digest. -/
  | measurementExtend (dom pa : Nat)
  /-- R377: An ATTEST write fills and signs an attestation report. -/
  | attest (core dom pa : Nat)
  /-- R398: A PTCFG write that sets m to 6 or more switches from identity translation to the page table. -/
  | ptcfgWrite (value : Word)
  /-- R385: A host write of a queue's tail word makes its launch unit re-read the tail. -/
  | tailWrite (queue : Nat) (tail : Word)
  /-- R385: The launch unit re-reads a tail and takes records, or reports an overrun. -/
  | tailReread (queue : Nat)
  /-- R386: The unit takes a kind 0 launch record and submits its stages. -/
  | launchRecordTake (queue : Nat)
  /-- R386: The unit takes a kind 1 record, and domain 0 loads a code object. -/
  | loadRecordTake (queue : Nat)
  /-- R400: A die reaches 105 °C or exceeds its power cap, and it throttles. -/
  | throttleStart (die : Nat)
  /-- R400: A further 1 ms over the limit halves the rate again. -/
  | throttleStep (die : Nat)
  /-- R400: The die stands below its limits for 1 ms, and throttling ends. -/
  | throttleEnd (die : Nat)
  /-- R400: A junction reaches 115 °C, and the package resets with cause 3. -/
  | thermalTrip (die : Nat)
  /-- R261: The supervisor refuses a faulted page, so a task resumes and takes the page-fault trap, or a stalled resident takes it. -/
  | pageRefusal (dom page : Nat)
  /-- R286: An access that arrives over a Limvon port from a host or peer is performed at the home L2 or the target store. -/
  | limvonAccess (req : LimvonReq)
  /-- R231: The reply to a BARINIT returns from the object's store and fills d with the object's old bits. -/
  | barinitReply (core i : Nat)
  /-- R325: The destination port has counted an end-of-stream token, and the RXEOS status fills with 0 on the sending slot. -/
  | rxeosAck (i : Nat)
  /-- R297: Domain 0 writes a route entry through RTENT, and a change of capacity or failed resets credit to capacity. -/
  | routeEntryWrite (core entry word : Nat) (value : Word)
  /-- R303: Domain 0 sets a domain's token-page pool through POOL, which marks every page of the pool free. -/
  | tokenPoolWrite (core dom index : Nat) (value : Word)
  /-- R391: A Limvon flit fails its CRC, and the link layer retries it in order and counts the retry in LINK. -/
  | flitCrcFailure (port : Nat)
  /-- R393: A CXL device fails its link, and its pages thereafter answer as uncorrectable data errors. -/
  | cxlLinkFailure (port : Nat)
  /-- R336: A pending deferred event in TPEND is taken at the slot's next issue point. -/
  | deferredEventTaken
  /-- R349: A PTERR write clears the recorded table error. -/
  | pterrWrite
  /-- R397: Power-on runs the reset sequence up to domain 0 firmware. -/
  | powerOnReset
  /-- R397: A host reset request runs the reset sequence. -/
  | hostResetRequest
  deriving DecidableEq, Repr

end Sys2Proof
end

