-- ==== Sys2Proof/Machine/State.lean ====
section
/-! DEFINITION. The state of the DW9 package as plain data: the registers of each thread, the resources
of each core, device memory, the launch units, the packets in flight and the package registers. The
rule of spec/ that gives each piece stands beside it; INVENTORY.md lists them all. -/

namespace Sys2Proof.Machine

/-- What a step stops on. -/
inductive Fault where
  /-- A hardware access to a physical address outside the ranges of R262 (a table, ring or buffer that
  domain 0 placed where no memory is). Raised by the physical reads and writes of Ops. Safe. -/
  | unbacked (pa : Nat)
  deriving DecidableEq, Repr

/-- What a step is refused for. -/
inductive Refusal where
  /-- An instruction whose meaning is not written yet. Raised by Dispatch alone. Safe. -/
  | notModelled (mnemonic : String)
  deriving DecidableEq, Repr

/-- A sparse table: keys strictly rising, no entry equal to the table's default. -/
abbrev Tab (α : Type) := List (Nat × α)

/-- A segment register (R252). The limit has 53 bits: R398 gives s1 the limit 2^52 (log 20). -/
structure Seg where
  dom : Byte := 0
  base : BitVec 52 := 0
  /-- G E A X W R, bits [57:52] of word 1. -/
  rights : BitVec 6 := 0
  limit : BitVec 53 := 0
  deriving DecidableEq, Repr

/-- A port message (R101). -/
structure Msg where
  value : Word
  tag : Byte
  deriving DecidableEq, Repr

/-- The fields of a task record (R70) that a thread keeps: extents, origins and stage. -/
structure Ident where
  ex : Byte := 0
  ey : Byte := 0
  ez : Byte := 0
  ox : BitVec 18 := 0
  oy : BitVec 18 := 0
  oz : BitVec 18 := 0
  stg : BitVec 4 := 0
  deriving DecidableEq, Repr

/-- A physical or window address range, a page or a set number: plain numbers. -/
abbrev Range := Nat × Nat

/-- The states of a slot that holds a thread (R68); `skipping` is `wskip > 0`. -/
inductive Status where
  | running
  | waiting
  /-- PARK or HALT: MASK, the cycle at which the timeout passes, the register that fills (R89). -/
  | parked (mask : BitVec 4) (deadline : Option Nat) (d : Nat)
  /-- R81: an access of a resident program awaits the page of this address. -/
  | stalled (va : Nat) (write : Bool)
  /-- R80: a task's access took a page fault; the save is due. -/
  | faulted (va : Nat) (write : Bool)
  /-- R91: EXIT with this value. -/
  | exiting (v : Word)
  /-- R231, R232: the slot issues nothing until the reply of its barrier request. -/
  | reply
  /-- R366: the caller of a gate: GATE's word A, counter operation and key (R367). -/
  | gateWait (ret : BitVec 32) (cnt : BitVec 4) (key : Word)
  /-- R367: a service thread drains after its GRET: the cue's counter operation, key and cycle. -/
  | returning (cnt : BitVec 4) (key : Word) (cycle : Nat)
  deriving DecidableEq, Repr

/-- A pending result of a class 3 instruction (R107). -/
structure Pending where
  /-- 0–15: v; 16–19: m. -/
  reg : Nat
  due : Nat
  value : BitVec 2048
  /-- The bits that the instruction writes (R174: an absent lane is not written). -/
  keep : BitVec 2048
  deriving DecidableEq, Repr

/-- What a service thread knows of the gate it serves (R366, R367). -/
structure GateLink where
  caller : Nat
  pass : BitVec 32
  deriving DecidableEq, Repr

/-- A thread: the registers of one slot (R95) and its context (R72, R337). -/
structure Thread where
  tid : Nat := 0
  dom : Byte := 0
  /-- The launch it belongs to, and its launch context (R72). -/
  launch : Option Nat := none
  ctx : Nat := 0
  resident : Bool := false
  status : Status := .running
  /-- Word offset of the next word; at a lookup, of the word that ended the shot. -/
  pc : BitVec 32 := 0
  atLookup : Bool := false
  /-- The next word is the first of a shot (R253); the same of the word that TRET names (R339). -/
  first : Bool := true
  retFirst : Bool := false
  /-- The next word was chosen by a lookup whose effects are done (R142): a boundary. -/
  chosen : Bool := false
  /-- Turns still withheld (R47), and the first cycle in which the slot may issue. -/
  wskip : Nat := 0
  holdUntil : Nat := 0
  g : Vector Word 32 := Vector.replicate 32 0
  /-- Bit i: gi is full (R96). -/
  full : BitVec 32 := BitVec.allOnes 32
  f : Byte := 0
  c : Vector (BitVec 32) 4 := Vector.replicate 4 0
  q : Vector (List Msg) 4 := Vector.replicate 4 []
  v : Vector (BitVec 2048) 16 := Vector.replicate 16 0
  m : Vector (BitVec 64) 4 := Vector.replicate 4 0
  pend : List Pending := []
  prm : BitVec 16 := 0
  tag : Byte := 0
  ident : Ident := {}
  seg : Vector Seg 8 := Vector.replicate 8 {}
  /-- R132: the offset of the first byte after the last frame. -/
  csp : Word := 0
  /-- The current cue set, core number. -/
  cset : Nat := 0
  /-- R349, R350: CFG, TCAUSE, TADDR, TDET0, TDET1, TRET, TPEND, HNDL and the breakpoints. -/
  cfg : Word := 0
  tcause : Word := 0
  taddr : Word := 0
  tdet0 : Word := 0
  tdet1 : Word := 0
  tret : Word := 0
  tpend : Word := 0
  hndl : Word := 0xFFFFFFFF
  dbi : Vector Word 4 := Vector.replicate 4 0
  dbw : Vector Word 2 := Vector.replicate 2 0
  /-- R336, R347: per bit of TPEND the cause with sub-code, the address and the details. -/
  events : List (Nat × Word × Word × Word × Word) := []
  /-- R90: a YIELD is in progress, and the cycle of its issue (R82). -/
  yield : Bool := false
  yieldAt : Nat := 0
  /-- R339: the next word's address breakpoint is not compared. -/
  skipBp : Bool := false
  gate : Option GateLink := none
  /-- R343: the cycle in which a pre-emption request reached the slot; whether it is for its domain. -/
  preq : Option Nat := none
  /-- R342, R343: a pre-emption is due at the thread's next issue point, for lack of a free frame; one that waits only
  for the thread's results and accesses (R109, R288) is made as soon as they are there. -/
  saveDue : Bool := false
  saveNow : Bool := false
  /-- R71: the launch whose context the thread has, against which its records are tested (log 28). -/
  home : Option Nat := none
  /-- R261: the page whose refusal the next access finds. -/
  refused : Option Nat := none
  /-- R78: the cycle in which the thread last started. -/
  since : Nat := 0
  deriving DecidableEq, Repr

/-- A message in a send queue (R92), with its sender's domain. -/
structure Sending where
  dst : Word
  msg : Msg
  /-- The status register, and the sender with its word. -/
  d : Nat
  tid : Nat
  dom : Byte
  pc : BitVec 32 := 0
  deriving DecidableEq, Repr

/-- A slot of the reel (R67, R68, R92). -/
structure Slot where
  thread : Option Thread := none
  /-- The cycle in which the slot became free (R69); none for a slot that has held no thread. -/
  freeSince : Option Nat := none
  /-- The send queue of two messages. -/
  sendq : List Sending := []
  deriving DecidableEq, Repr

/-- What a record on a deque or in a pending list starts (R70, R80, R366). -/
inductive RecKind where
  | task (entry : BitVec 32) (cset : Nat) (ident : Ident) (args : List Word)
  /-- A resume record: the frame's physical address and the thread. -/
  | resume (frame tid : Nat)
  | gate (entry : BitVec 32) (cset : Nat) (prm : BitVec 16) (regs : List (Nat × Word)) (link : GateLink)
  deriving DecidableEq, Repr

structure Rec where
  dom : Byte
  kind : RecKind
  launch : Option Nat
  ctx : Nat
  hndl : Word
  nosteal : Bool
  /-- The cycle in which it was pushed (R78). -/
  since : Nat := 0
  /-- The launch whose context it has, and whose cores serve its stage (R71, R74). -/
  home : Option Nat := none
  deriving DecidableEq, Repr

/-- A saved thread (R80, R341): what its 8 KiB frame in device memory does not hold. -/
structure Saved where
  frame : Nat
  thread : Thread
  /-- The slot that it was saved from, and whether a whole-domain save saved it (R344, R371). -/
  slot : Nat := 0
  whole : Bool := false
  /-- The page that it waits for, and its refusal (R261). -/
  page : Option (Nat × Bool) := none
  refused : Bool := false
  /-- The cycle of the save (R89). -/
  savedAt : Nat := 0
  deriving DecidableEq, Repr

/-- An L1 line of 32 bytes (R264): domain, virtual line address, physical address and the bytes that
the core's stores have written (R278). -/
structure Line where
  dom : Byte
  va : Nat
  pa : Nat
  data : BitVec 256
  written : BitVec 32 := 0
  deriving DecidableEq, Repr

/-- A cue-set descriptor (R121). -/
structure CueDesc where
  cut : BitVec 16 := 0
  dom : Byte := 0
  sello : Nat := 0
  selreg : Nat := 0
  count : Nat := 0
  base : Nat := 0
  deriving DecidableEq, Repr

/-- One copy of a cue entry: 32 bytes (R128). -/
structure CueImg where
  value : Word := 0
  mask : Word := 0
  action : BitVec 128 := 0
  deriving DecidableEq, Repr

/-- A cue entry (R122). -/
structure CueEnt where
  live : CueImg := {}
  shadow : CueImg := {}
  valid : Bool := false
  staged : Bool := false
  sdis : Bool := false
  /-- A cut of this turn has taken the staged change (R139); the shadow has been written (R148). -/
  taken : Bool := false
  wrote : Bool := false
  deriving DecidableEq, Repr

/-- A cut that commits at the end of its turn (R139): the set, and each entry's change. -/
structure Cut where
  set : Nat
  changes : List (Nat × Option CueImg)
  deriving DecidableEq, Repr

/-- A ring descriptor (R205) with its slots' tags and its slice scale (R234). -/
structure Ring where
  base : Nat := 0
  tiles : Nat := 0
  layout : Word := 0
  head : Nat := 0
  ready : Nat := 0
  held : Nat := 0
  claims : Nat := 0
  tags : Tab Word := []
  /-- Held slots whose copy has ended, from the first held slot (R206). -/
  ended : List (Nat × Nat) := []
  sigma : BitVec 32 := 0x3F800000
  deriving DecidableEq, Repr

/-- Who owns a range entry (R208). -/
inductive Owner where
  | thread (tid : Nat)
  | command (id : Nat)
  deriving DecidableEq, Repr

/-- A range-table entry (R208). `seq` is its place in the order of registration (R210). -/
structure RangeEnt where
  dom : Byte
  lo : Nat
  hi : Nat
  write : Bool
  owner : Owner
  seq : Nat
  deriving DecidableEq, Repr

/-- Where a command's status goes, and on whose behalf it runs (R96, R98). -/
structure Target where
  id : Nat
  dom : Byte
  tid : Nat
  d : Nat
  pc : BitVec 32
  scope : Nat := 1
  deriving DecidableEq, Repr

/-- A shape block as read at issue (R213). -/
structure Shape where
  src : Word
  dst : Word
  sn : List Nat
  sd : List Int
  dn : List Nat
  dd : List Int
  layout : Word
  ctl : Word
  deriving DecidableEq, Repr

/-- A copy command (R212, R222, R223). -/
structure Copy where
  t : Target
  blk : Shape
  fill : Bool
  follow : Option Word
  /-- The segments' bases and the scales as captured at issue (R215, R224). -/
  sbase : Nat
  dbase : Nat
  sigma : List (BitVec 32)
  /-- The first slot reserved, for a ring (R206). -/
  slot0 : Nat
  started : Bool := false
  rows : Nat
  done : Nat := 0
  cause : Nat := 0
  /-- The status has filled, and the follow-on waits to be issued (R236). -/
  filled : Bool := false
  /-- R24: the destination ring belongs to the command's domain no longer. -/
  lost : Bool := false
  deriving DecidableEq, Repr

/-- The operations of the matrix engine (R244 to R249). -/
inductive MatOp where
  | mma (zero : Bool) (ra rb n a0 b0 : Nat) (sa sb : BitVec 32)
  | zero
  | drain (ea otype mode : Nat) (seed : Word) (amax : Option Nat) (clr : Bool)
  | load (ea : Nat)
  deriving DecidableEq, Repr

structure MatCmd where
  t : Target
  acc : Nat
  op : MatOp
  started : Bool := false
  /-- The quarter cycles of arithmetic that a started MMA has left at the unthrottled rate (R237, R400), and the first
  core cycle in which it may retire, known once none are left. -/
  work : Nat := 0
  ready : Nat := 0
  /-- Rows done, the cause and the code of the status (R217), and the maximum of a drain. -/
  done : Nat := 0
  cause : Nat := 0
  code : Nat := 0
  mx : BitVec 32 := 0
  /-- The words that a load has read (R249), and the memory work of a drain or a load is done: what is left is its
  retirement (R236). -/
  vals : List (BitVec 32) := []
  fin : Bool := false
  /-- R24: a ring of an MMA belongs to the command's domain no longer. -/
  lost : Bool := false
  deriving DecidableEq, Repr

/-- A value on its way to a g register (R96): load, atomic, reduction or status. -/
structure Fill where
  tid : Nat
  d : Nat
  value : Word
  due : Nat := 0
  /-- R273: the word and the address of an uncorrectable error. -/
  error : Option (BitVec 32 × Word) := none
  /-- The command whose range entries are freed at the fill (R319). -/
  frees : Option Nat := none
  /-- R229: the entry that an RFREE has freed, and the commands, of lower numbers, that wait on it until the fill. -/
  holds : Option (RangeEnt × Nat) := none
  /-- R323: the queue of an RXTAKE; those of one thread and queue fill in issue order. -/
  queue : Option Nat := none
  deriving DecidableEq, Repr

/-- A SPAWN or SPAWNR whose record has been read (R86). -/
structure SpawnReq where
  t : Target
  resident : Bool
  valid : Bool
  task : Rec
  deriving DecidableEq, Repr

/-- A barrier request on its way to its object, or its reply (R231, R232). -/
structure BarReq where
  t : Target
  core : Nat
  target : Nat
  off : Nat
  init : Bool
  n : Nat
  value : Word
  reply : Option Word := none
  /-- R336: the debug events that pend once the request has been performed. -/
  events : List (Nat × Word × Word × Word × Word) := []
  deriving DecidableEq, Repr

/-- A waiting BARWT (R233). -/
structure BarWait where
  t : Target
  target : Nat
  off : Nat
  phase : Nat
  deadline : Nat
  deriving DecidableEq, Repr

/-- A slot of a splice (R310): status, weight, transmitting entry. -/
structure SpSlot where
  status : Nat := 0
  weight : BitVec 32 := 0
  entry : Option Nat := none
  deriving DecidableEq, Repr

/-- A splice table (R310): state 0 idle, 1 ready, 2 running. -/
structure Splice where
  state : Nat := 0
  dom : Byte := 0
  out : Nat := 0
  rows : Nat := 0
  cols : Nat := 0
  stype : Nat := 0
  rtype : Nat := 0
  timeout : Nat := 0
  gen : Nat := 0
  late : Nat := 0
  slots : Tab SpSlot := []
  t : Target := { id := 0, dom := 0, tid := 0, d := 0, pc := 0 }
  deadline : Option Nat := none
  /-- The timeout completed the splice (R320, R321). -/
  expired : Bool := false
  deriving DecidableEq, Repr

/-- A ROUTE that sends its pairs (R300, R318): the pairs left (row, k, entry), and the entry that the first
of them tries after a spill, with its hops. The tile is the store address that ROUTE names, in either form of R202. -/
structure RouteCmd where
  t : Target
  splice : Nat
  gen : Nat
  tile : Nat
  entry : Option (Nat × Nat) := none
  /-- That pair waits under STALL for a credit (R300). -/
  stalled : Bool := false
  sent : Nat := 0
  spilled : Nat := 0
  dropped : Nat := 0
  failed : Nat := 0
  pairs : List (Nat × Nat × Nat)
  deriving DecidableEq, Repr

/-- A token page that a queue holds (R304, R306). -/
structure TokPage where
  addr : Nat
  resv : Nat := 0
  rows : Tab Word := []
  since : Nat := 0
  excluded : Bool := false
  /-- The queue's timeout has passed; the page was open when the stream ended (R306). -/
  late : Bool := false
  eos : Bool := false
  deriving DecidableEq, Repr

/-- A receive queue (R302, R305, R306). -/
structure RxQueue where
  dom : Byte
  tid : Nat
  rowbytes : Nat
  senders : Nat
  timeout : Nat
  eosCount : Nat := 0
  ended : Bool := false
  /-- Pages in link order that are not handed over; the last may be open. -/
  pages : List TokPage := []
  handed : List TokPage := []
  taken : List TokPage := []
  /-- RXTAKEs that wait, in issue order. -/
  takes : List Target := []
  deriving DecidableEq, Repr

/-- A row in the fault hold (R307): queue, tag, bytes, page and position (none: excluded). -/
structure HeldRow where
  queue : Nat
  tag : Word
  bytes : List Byte
  page : Nat
  pos : Option Nat
  deriving DecidableEq, Repr

/-- A packet between ports (R300, R308, R312, R319): every packet carries its domain (R362), its
destination package and core, and the incarnation of its source (R392). -/
inductive PktKind where
  | row (queue : Nat) (tag : Word) (bytes : List Byte)
  | eos (queue : Nat) (t : Target) (core : Nat)
  | credit (entry : Nat)
  | ret (tag : Word) (cols rtype : Nat) (bytes : List Byte) (failNote : Bool) (t : Option Target)
      (core : Nat)
  | retAck (t : Target) (code : Nat)
  | eosAck (t : Target)
  deriving DecidableEq, Repr

structure Packet where
  dom : Byte
  package : Nat
  core : Nat
  source : Nat
  incarnation : Nat
  kind : PktKind
  /-- The place in the receiving port's queue of a row that has arrived and waits there (R305). -/
  port : Option Nat := none
  /-- The row of a return that has not been read yet: its store address, in either form of R202, and size (R210, R319). -/
  unread : Option (Nat × Nat) := none
  deriving DecidableEq, Repr

/-- A token-page pool (R303): base, page size, count, and the pages in use. -/
structure Pool where
  base : Nat := 0
  size : Nat := 0
  count : Nat := 0
  used : List Nat := []
  deriving DecidableEq, Repr

/-- A steal in progress (R74): the domain, the cores still to ask, the core asked and its answer. -/
structure Steal where
  dom : Byte
  left : List Nat
  asked : Option Nat := none
  answer : Option (Option Rec) := none
  deriving DecidableEq, Repr

/-- A write of PART0 to PART2 (index 0 to 2), PLOCK (3) or PREQ (4) that takes effect at the end of its turn
(R351, R361). -/
structure PartPend where
  dom : Nat
  index : Nat
  value : Word
  deriving DecidableEq, Repr

/-- A core: its slots and everything its domains share (R19, R23). -/
structure Core where
  cycle : Nat := 0
  slots : Vector Slot 8 := Vector.replicate 8 {}
  /-- R355: the pipeline clock is stopped; R201: from a cycle on issue is stopped for a new Lb. -/
  stopped : Bool := false
  lbPend : Option (Nat × Nat) := none
  lb : Nat := 4
  lines : List Line := []
  dirty : List (Byte × Nat) := []
  store : Tab Byte := []
  h : Vector (Vector Word 16) 8 := Vector.replicate 8 (Vector.replicate 16 0)
  /-- Writes of this turn, in issue order: bank, register, value (R100). -/
  hPend : List (Nat × Nat × Word) := []
  /-- Per domain: the stochastic generator and its seed (R164), PART0–2 and PLOCK (R357), QUANT, FRPOOL,
  POOL. -/
  rng : Tab Word := []
  rseed : Tab Word := []
  part0 : Tab Word := []
  part1 : Tab Word := []
  part2 : Tab Word := []
  plock : Tab Word := []
  partPend : List PartPend := []
  /-- A PTCFG write that takes effect at the end of its turn (R398). -/
  ptPend : Option Word := none
  quant : Tab Word := []
  frBase : Tab Word := []
  frCount : Tab Word := []
  frUsed : List Nat := []
  pool : Tab Pool := []
  /-- SEAL per domain (R370, R371): area, restore failed, sealed, busy, and the seal counter. -/
  sealReg : Tab Word := []
  sealCtr : Tab Nat := []
  /-- The domain that last held each h bank, scratchpad bank, accumulator and ring, plus 1. -/
  hOwner : Tab Nat := []
  bankOwner : Tab Nat := []
  accOwner : Tab Nat := []
  ringOwner : Tab Nat := []
  desc : Tab CueDesc := []
  cue : Tab CueEnt := []
  cuts : List Cut := []
  ring : Vector Ring 16 := Vector.replicate 16 {}
  ranges : Tab RangeEnt := []
  copies : List Copy := []
  /-- R212: 256 times the cycle in which the copy engine has moved every byte of its retired rows. -/
  copied : Nat := 0
  mats : List MatCmd := []
  acc : Tab (BitVec 32) := []
  fills : List Fill := []
  spawns : List SpawnReq := []
  barwts : List BarWait := []
  /-- Deque records from the top to the bottom of each domain's share (R73), the records at the head of
  the pending list (R80). -/
  deque : List Rec := []
  pendHead : List Rec := []
  /-- The steals in progress, at most one for each domain (R74). -/
  steals : List Steal := []
  saved : List Saved := []
  route : Tab (Word × Word) := []
  splice : Tab Splice := []
  routes : List RouteCmd := []
  /-- R300: 64 times the cycle in which the route port has sent every byte of the rows transmitted. -/
  routed : Nat := 0
  rxq : Tab RxQueue := []
  hold : List HeldRow := []
  /-- The cycle in which a queue last took a page, and the queue (R327). -/
  pageTurn : Option (Nat × Nat) := none
  /-- R315: the route entries that a pair has found without a credit, with the cycle: a credit for the entry arrives in
  a later one. -/
  starved : List (Nat × Nat) := []
  preqDom : List Nat := []
  /-- R364: a notice was dropped. -/
  noticeLost : Bool := false
  evsel : Vector Word 8 := Vector.replicate 8 0
  evcnt : Vector Word 8 := Vector.replicate 8 0
  /-- Events of this cycle: code, slot, domain, count (R394, R395). -/
  tally : List (Nat × Option Nat × Nat × Nat) := []
  deriving DecidableEq, Repr

/-- A sealed domain image (R370): the core and domain, the seal counter, the key epoch and the core's state
at the seal, of which a restore takes the domain's part. -/
structure Sealed where
  core : Nat
  dom : Nat
  ctr : Nat
  epoch : Nat
  state : Core
  deriving DecidableEq, Repr

/-- The units of a launch (R76, R88): per stage of a host launch its dimensions, unit shape and cores;
or the live records of a device-built launch, the cores dealt to and the placement's code. -/
inductive Units where
  | host (entry : BitVec 32) (cset : Nat) (args : List Word)
      (stages : List ((Nat × Nat × Nat) × (Nat × Nat × Nat) × List Nat))
  | device (recs : List Rec) (cores : List Nat) (place : Nat)
  deriving DecidableEq, Repr

/-- Who learns of a launch's completion: the issuing thread's d (R88) or a host queue (R388). -/
inductive Requester where
  | thread (core : Nat) (t : Target) (skipped : Nat)
  /-- R390: L and the completion base are those of the queue's entry when its record was taken. -/
  | queue (q index : Nat) (tag : Word) (lg base : Nat)
  deriving DecidableEq, Repr

/-- A launch (R76 to R79). -/
structure Launch where
  id : Nat
  die : Nat
  dom : Byte
  cls : Nat
  scope : Nat
  ctx : Nat
  hndl : Word
  units : Units
  live : Nat
  /-- Units moved out of the pending list of each core. -/
  cursor : Tab Nat := []
  /-- Units and spawned tasks that have not ended. -/
  left : Nat
  err : Bool := false
  /-- When it was submitted, in half nanoseconds (R78). -/
  since : Nat := 0
  req : Requester
  deriving DecidableEq, Repr

/-- A launch context (R72, R120, R134, R365, R386). -/
structure Ctx where
  dom : Byte := 0
  seg : Vector Seg 8 := Vector.replicate 8 {}
  /-- Object set number to core set number (R120). -/
  setMap : Tab Nat := []
  ftBase : Nat := 0
  ftCount : Nat := 0
  /-- R43: the fence-strengthening mode. -/
  strong : Bool := false
  gateBase : Nat := 0
  gateCount : Nat := 0
  /-- The handler word that the last launch record of the context supplied (R337). -/
  hndl : Word := 0xFFFFFFFF
  /-- The pre-emption map (R38): shot, live g, live v, live m and c, flags live. -/
  pmap : List (Nat × BitVec 32 × BitVec 16 × Byte × Bool) := []
  deriving DecidableEq, Repr

/-- What the loader and supervisor in domain 0 choose for the next object of kind 1 (R37, R72, R365; log 31):
the cores, the initial segments, the gate table, and for each set in object order the core number and the first entry on
each core that it prefers, which the loader takes where they are free. -/
structure LoadPlan where
  cores : List Nat := []
  seg : Vector Seg 8 := Vector.replicate 8 {}
  gateBase : Nat := 0
  gateCount : Nat := 0
  sets : List (Nat × Tab Nat) := []
  deriving DecidableEq, Repr

/-- A translation that a cluster's memory port holds (R259). -/
structure Tlb where
  dom : Byte
  big : Bool
  vpn : Nat
  ppn : Nat
  rights : BitVec 4
  mig : Bool
  /-- The entry's address, and whether its dirty bit has been set through this translation (R258). -/
  ent : Nat
  dirtied : Bool
  deriving DecidableEq, Repr

/-- What the order of events that the manual leaves open (R402) has the package do next, and what stands outside it
does (log 3). -/
inductive Move where
  /-- An event of the opcode table. -/
  | event (i : Instr)
  /-- The next cycle of a core. -/
  | cycle (core : Nat)
  /-- Domain 0's firmware programs the decoders of a CXL port: the ranges that they cover from now on (R393; log 34). -/
  | decoder (port : Nat) (ranges : List Range)
  /-- A packet of another package arrives; the i-th packet, for another package, leaves (R300, R392). -/
  | packet (p : Packet)
  | depart (i : Nat)
  /-- The supervisor ends the resident program or the parked thread on a slot (R83, R89), with an exit value (log 41). -/
  | supervisorEnd (core slot : Nat) (value : Word)
  /-- R373: the next packet of core `core` to or from a memory slice or another die fails authentication or comes out
  of sequence; the i-th packet between cores does. -/
  | tamper (core : Nat)
  | discard (i : Nat)
  /-- A Limvon link has trained with a number of lanes (R391). -/
  | train (port lanes : Nat)
  /-- The loader's choices for the next object of kind 1 (R37; log 31). -/
  | plan (p : LoadPlan)
  /-- The management path rewrites the firmware store (R398). -/
  | flash (image : List Byte)
  /-- What the next reset meets (R397): the die whose attestation fails, the stack whose training fails (R12: three a
  die), and the lanes with which each port trains, 0 for none. -/
  | attestation (fails : Option (Fin 4))
  | hbm (fails : Option (Fin 12))
  | lanes (ls : Vector Nat 26)
  deriving DecidableEq, Repr

/-- What a write of KEYC, MEXT, ATTEST or SEAL has asked for, until it is done (R371, R372, R376, R377). -/
inductive DomWork where
  | keys (dom : Nat)
  | extend (core dom pa : Nat)
  | attest (core dom pa : Nat)
  | restore (core dom : Nat) (value : Word)
  deriving DecidableEq, Repr

/-- A request that the supervisor's SHOOT register holds (R260). -/
structure Shoot where
  dom : Nat
  page : Nat
  big : Bool
  all : Bool
  deriving DecidableEq, Repr

/-- The package. -/
structure State where
  cores : Tab Core
  /-- The core whose cycle is next (log 2). -/
  cur : Nat := 0
  mem : List Host.Cell := []
  /-- The key (domain, epoch) of each 256-byte block, and of each 16-byte cipher block that was last written under
  another one (R265, R374). -/
  blockKey : Tab (Nat × Nat) := []
  cipherKey : Tab (Nat × Nat) := []
  /-- Physical ranges that answer as uncorrectable data errors (R273), the ranges of the CXL decoders that domain 0 has
  programmed (R262), with their port, and the ports whose device has failed its link (R393). -/
  badPa : List Range := []
  decoders : List (Nat × Nat × Nat) := []
  cxlFailed : List Nat := []
  tlb : Tab (List Tlb) := []
  ptbase : Word := 0
  ptcfg : Word := 0
  pterr : Word := 0
  shoot : List Shoot := []
  /-- Pages that the supervisor has refused, by domain and 64 KiB page (R261). -/
  refused : List (Nat × Nat) := []
  /-- Page faults reported to the supervisor (R80, R307). -/
  reports : List (Nat × Nat) := []
  ctxs : Tab Ctx := []
  launches : List Launch := []
  /-- Per launch, the cores that serve each of its stages (R71, R74); kept after its completion. -/
  homes : Tab (List (List Nat)) := []
  nextId : Nat := 1
  bars : List BarReq := []
  net : List Packet := []
  /-- Cores whose next packet to or from a memory slice or another die fails authentication (R373). -/
  tampered : List Nat := []
  /-- Queue table register, power cap, per-die junction and throttling, reset cause, links, PKGID. -/
  qtab : Word := 0
  pwrcap : Word := 3200
  therm : Vector Word 4 := Vector.replicate 4 0
  throttle : Vector Nat 4 := Vector.replicate 4 0
  rstinfo : Word := 0
  link : Vector Word 26 := Vector.replicate 26 0
  pkgid : Word := 0
  /-- The newest incarnation seen from each package (R392), and the packages that Limvon has reported as reset and
  that no announcement or packet has shown to be back (R314). -/
  incarnations : Tab Nat := []
  down : List Nat := []
  /-- Queues whose tail is to be re-read, and the tails that the launch units have read (R385). -/
  rereads : List Nat := []
  tails : Tab Word := []
  /-- Interrupts and announcements that have left the package (R389, R392). -/
  irqs : List (Nat × Word) := []
  announced : List (Nat × Nat) := []
  /-- Per domain: key epoch and measurement (R372, R376); the firmware measurement (R375). -/
  epoch : Tab Nat := []
  meas : Tab (List Byte) := []
  fwMeas : List Byte := []
  attested : Tab Bool := []
  /-- What writes of KEYC, MEXT, ATTEST and SEAL have asked for and is not yet done, in the order of the writes. -/
  work : List DomWork := []
  /-- Sealed images beside their bytes in memory (R370). -/
  sealed : List Sealed := []
  loadPlan : LoadPlan := {}
  /-- The firmware store of link die 0 (R398), and what the next reset meets (R397): the die whose attestation fails, the
  stack whose training fails, and the lanes with which each port trains, 0 for none. -/
  firmware : List Byte := []
  attestFails : Option (Fin 4) := none
  hbmFails : Option (Fin 12) := none
  training : Vector Nat 26 := Vector.replicate 26 0
  inReset : Bool := false
  /-- Half nanoseconds since package reset (R93). -/
  halfNs : Nat := 0
  /-- The model's own fields: the order of events (R402), the fetch predictions (R143) and the counter
  of free values (AN OPEN VALUE; logs 3, 4, 10). -/
  agenda : List Move := []
  pred : List Bool := []
  free : Nat := 0
  deriving DecidableEq, Repr

/-- PART0 (R358) of domain 0 at boot (R398): 64 descriptors, cue entries 0 to 1,023, banks 0 to 43,
accumulators a0 to a3, h bank 0 and all eight slots. -/
def bootPart0 : Word := 0x0810_0000_0B00_F0FF

/-- PART1 (R359) of domain 0 at boot (R398): the whole deque, the whole matrix and copy queues, all
receive queues, splice tables and rings, and 32 range entries. -/
def bootPart1 : Word := 0x0811_0100_1001_0020

/-- A core as the boot ROM leaves it (R398): domain 0 holds its partitions. -/
def Core.boot : Core where
  part0 := [(0, bootPart0)]
  part1 := [(0, bootPart1)]
  part2 := [(0, 256)]
  hOwner := [(0, 1)]
  bankOwner := (List.range 44).map fun b => (b, 1)
  accOwner := (List.range 4).map fun a => (a, 1)
  ringOwner := (List.range 16).map fun r => (r, 1)

/-- The launch context of domain 0's firmware (R398). State.reset names no image, so the code section is empty
(log 5). -/
def Ctx.boot : Ctx where
  dom := 0
  seg := #v[{ rights := 0b000101 }, { rights := 0b111011, limit := 0x10_0000_0000_0000 }, {}, {}, {},
    {}, {}, { base := 0x1_0000, rights := 0b000011, limit := 0x1_0000 }]
  setMap := [(0, 0)]

/-- The thread on core 0, slot 0, at boot (R398). -/
def Thread.boot : Thread where
  tid := 0
  ctx := 0
  resident := false
  seg := Ctx.boot.seg
  ident := { ex := 1, ey := 1, ez := 1 }

/-- SHA-384 of the empty firmware image (R375), which State.reset has as the firmware measurement (log 5). -/
def bootMeasurement : List Byte :=
  [0x38, 0xB0, 0x60, 0xA7, 0x51, 0xAC, 0x96, 0x38, 0x4C, 0xD9, 0x32, 0x7E,
    0xB1, 0xB1, 0xE3, 0x6A, 0x21, 0xFD, 0xB7, 0x11, 0x14, 0xBE, 0x07, 0x43,
    0x4C, 0x0C, 0xC7, 0xBF, 0x63, 0xF6, 0xE1, 0xDA, 0x27, 0x4E, 0xDE, 0xBF,
    0xE7, 0x6F, 0x65, 0xFB, 0xD5, 0x1A, 0xD2, 0xF1, 0x48, 0x98, 0xB9, 0x5B]

/-- The machine right after reset: domain 0's firmware is about to issue its first word on core 0, slot
0 (R397, R398). RSTINFO holds cause 1 (power-on) and PKGID incarnation 1 (R383, R392). -/
def State.reset : State where
  cores := [(0, { Core.boot with slots := Core.boot.slots.set 0 { thread := some Thread.boot } })]
  ctxs := [(0, Ctx.boot)]
  rstinfo := 1
  pkgid := 0x1_0000_0000
  announced := [(0, 1)]
  fwMeas := bootMeasurement

end Sys2Proof.Machine
end

