-- ==== Sys2Proof/Decode.lean ====
section
/-! DEFINITION. The decoder: from the 64 bits of a word to an instruction or the sub-code of R65 that
refuses it, total on any word; the reading of a cue's action (R128, R129); and after them the encoder. -/

namespace Sys2Proof

/-! ### The fields of the formats (R45, R52 to R58) -/

/-- Format A (R52). -/
def FmtA.ofWord (w : Word) : FmtA where
  e := w.getLsbD 63
  w := w.extractLsb' 59 4
  d := w.extractLsb' 42 6
  a := w.extractLsb' 36 6
  b := w.extractLsb' 30 6
  c := w.extractLsb' 24 6
  flag := w.extractLsb' 19 3
  cond := w.extractLsb' 16 3

/-- Format B (R53). -/
def FmtB.ofWord (w : Word) : FmtB where
  e := w.getLsbD 63
  w := w.extractLsb' 59 4
  d := w.extractLsb' 42 6
  a := w.extractLsb' 36 6
  flag := w.extractLsb' 33 3
  imm := w.extractLsb' 0 32

/-- Format M (R54). -/
def FmtM.ofWord (w : Word) : FmtM where
  e := w.getLsbD 63
  w := w.extractLsb' 59 4
  d := w.extractLsb' 42 6
  a := w.extractLsb' 36 6
  seg := w.extractLsb' 33 3
  scope := w.extractLsb' 30 3
  order := w.extractLsb' 28 2
  size := w.extractLsb' 25 3
  sext := w.getLsbD 24
  off := w.extractLsb' 0 24

/-- Format M2 (R55). -/
def FmtM2.ofWord (w : Word) : FmtM2 where
  e := w.getLsbD 63
  w := w.extractLsb' 59 4
  d := w.extractLsb' 42 6
  a := w.extractLsb' 36 6
  seg := w.extractLsb' 33 3
  scope := w.extractLsb' 30 3
  order := w.extractLsb' 28 2
  size := w.extractLsb' 25 3
  sext := w.getLsbD 24
  b := w.extractLsb' 18 6
  off := w.extractLsb' 0 18

/-- Format V (R56). -/
def FmtV.ofWord (w : Word) : FmtV where
  e := w.getLsbD 63
  w := w.extractLsb' 59 4
  vd := w.extractLsb' 42 6
  va := w.extractLsb' 36 6
  vb := w.extractLsb' 30 6
  vc := w.extractLsb' 24 6
  ty := w.extractLsb' 20 4
  rnd := w.extractLsb' 18 2
  mask := w.extractLsb' 16 2
  me := w.getLsbD 15
  sc := w.getLsbD 14
  op := w.extractLsb' 0 14

/-- Format T (R57). -/
def FmtT.ofWord (w : Word) : FmtT where
  e := w.getLsbD 63
  w := w.extractLsb' 59 4
  d := w.extractLsb' 42 6
  a := w.extractLsb' 36 6
  b := w.extractLsb' 30 6
  id1 := w.extractLsb' 26 4
  id2 := w.extractLsb' 22 4
  id3 := w.extractLsb' 18 4
  scope := w.extractLsb' 15 3
  op := w.extractLsb' 0 15

/-- Format S (R58). -/
def FmtS.ofWord (w : Word) : FmtS where
  e := w.getLsbD 63
  w := w.extractLsb' 59 4
  d := w.extractLsb' 42 6
  a := w.extractLsb' 36 6
  b := w.extractLsb' 30 6
  imm := w.extractLsb' 16 14
  op := w.extractLsb' 0 16

/-- The common top 16 bits of a word (R45). -/
def packTop (e : Bool) (w : BitVec 4) (cls : BitVec 3) (op : Byte) : Word :=
  (BitVec.ofBool e).setWidth 64 <<< 63 ||| w.setWidth 64 <<< 59 ||| cls.setWidth 64 <<< 56
    ||| op.setWidth 64 <<< 48

/-- The word of format A with class `cls` and opcode `op`; must-be-zero bits are 0. -/
def FmtA.toWord (x : FmtA) (cls : BitVec 3) (op : Byte) : Word :=
  packTop x.e x.w cls op ||| x.d.setWidth 64 <<< 42 ||| x.a.setWidth 64 <<< 36
    ||| x.b.setWidth 64 <<< 30 ||| x.c.setWidth 64 <<< 24 ||| x.flag.setWidth 64 <<< 19
    ||| x.cond.setWidth 64 <<< 16

def FmtB.toWord (x : FmtB) (cls : BitVec 3) (op : Byte) : Word :=
  packTop x.e x.w cls op ||| x.d.setWidth 64 <<< 42 ||| x.a.setWidth 64 <<< 36
    ||| x.flag.setWidth 64 <<< 33 ||| x.imm.setWidth 64

def FmtM.toWord (x : FmtM) (cls : BitVec 3) (op : Byte) : Word :=
  packTop x.e x.w cls op ||| x.d.setWidth 64 <<< 42 ||| x.a.setWidth 64 <<< 36
    ||| x.seg.setWidth 64 <<< 33 ||| x.scope.setWidth 64 <<< 30 ||| x.order.setWidth 64 <<< 28
    ||| x.size.setWidth 64 <<< 25 ||| (BitVec.ofBool x.sext).setWidth 64 <<< 24
    ||| x.off.setWidth 64

def FmtM2.toWord (x : FmtM2) (cls : BitVec 3) (op : Byte) : Word :=
  packTop x.e x.w cls op ||| x.d.setWidth 64 <<< 42 ||| x.a.setWidth 64 <<< 36
    ||| x.seg.setWidth 64 <<< 33 ||| x.scope.setWidth 64 <<< 30 ||| x.order.setWidth 64 <<< 28
    ||| x.size.setWidth 64 <<< 25 ||| (BitVec.ofBool x.sext).setWidth 64 <<< 24
    ||| x.b.setWidth 64 <<< 18 ||| x.off.setWidth 64

def FmtV.toWord (x : FmtV) (cls : BitVec 3) (op : Byte) : Word :=
  packTop x.e x.w cls op ||| x.vd.setWidth 64 <<< 42 ||| x.va.setWidth 64 <<< 36
    ||| x.vb.setWidth 64 <<< 30 ||| x.vc.setWidth 64 <<< 24 ||| x.ty.setWidth 64 <<< 20
    ||| x.rnd.setWidth 64 <<< 18 ||| x.mask.setWidth 64 <<< 16
    ||| (BitVec.ofBool x.me).setWidth 64 <<< 15 ||| (BitVec.ofBool x.sc).setWidth 64 <<< 14
    ||| x.op.setWidth 64

def FmtT.toWord (x : FmtT) (cls : BitVec 3) (op : Byte) : Word :=
  packTop x.e x.w cls op ||| x.d.setWidth 64 <<< 42 ||| x.a.setWidth 64 <<< 36
    ||| x.b.setWidth 64 <<< 30 ||| x.id1.setWidth 64 <<< 26 ||| x.id2.setWidth 64 <<< 22
    ||| x.id3.setWidth 64 <<< 18 ||| x.scope.setWidth 64 <<< 15 ||| x.op.setWidth 64

def FmtS.toWord (x : FmtS) (cls : BitVec 3) (op : Byte) : Word :=
  packTop x.e x.w cls op ||| x.d.setWidth 64 <<< 42 ||| x.a.setWidth 64 <<< 36
    ||| x.b.setWidth 64 <<< 30 ||| x.imm.setWidth 64 <<< 16 ||| x.op.setWidth 64

/-! ### The opcode map (R60): per class, the constructor of each opcode from 0x00 upward -/

/-- Class 0 (R60). -/
def class0 : List (FmtA → Instr) :=
  [.add, .sub, .mul, .mulh, .mulhn, .div, .divn, .rem, .remn, .and, .or, .xor, 
   .andn, .orn, .shl, .shr, .sar, .rol, .ror, .min, .max, .minn, .maxn, .clz, .ctz, 
   .popc, .bswap, .extr, .ins, .madd, .sel, .cmp, .cmpn, .tst, .flagr, .flagw]

/-- Class 1 (R60). -/
def class1 : List (FmtB → Instr) :=
  [.addi, .andi, .ori, .xori, .shli, .shri, .sari, .muli, .cmpi, .cmpni, .tsti, 
   .ldi, .ldih]

/-- Class 3 (R60). -/
def class3 : List (FmtV → Instr) :=
  [.vadd, .vsub, .vmul, .vfma, .vfms, .vfnma, .vmin, .vmax, .vabs, .vneg, .vdiv, 
   .vsqrt, .vrsq, .vrcp, .vexp2, .vlog2, .vtanh, .vand, .vor, .vxor, .vshl, .vshr, 
   .vsar, .vcmp, .vsel, .vmsk, .vcnt, .vcvt, .vqnt, .vdqt, .vbcst, .vmovg, .viota, 
   .vperm, .vscan, .vredadd, .vredmax, .vredmin, .vamax, .vtopk]

/-- Class 4 (R60, R241). -/
def class4 : List (FmtT → Instr) :=
  [.mma, .mmaz, .mzero, .mdrn, .mlda, .mscl]

/-- Class 5 (R60). -/
def class5 : List (FmtT → Instr) :=
  [.cpy, .cpym, .cpyf, .rngini, .rngpop, .rngadv, .rngq, .rlck, .rfree, .barinit, 
   .bararv, .barwt, .route, .rtret, .splini, .splq, .rxbind, .rxtake, .rxfree, 
   .rxeos]

/-- Class 6 (R60). -/
def class6 : List (FmtS → Instr) :=
  [.nop, .cuew, .cuecut, .cuerd, .cuesel, .cntw, .cntr, .spawn, .spawnr, .launch, 
   .park, .yield, .exit, .send, .segw, .segr, .trap, .sysr, .sysw, .time, .evtr, 
   .bkpt, .halt]

/-- Class 2 (R60, R63): formats M and M2 by opcode. -/
def class2 : List (Word → Instr) :=
  [fun w => .ld (.ofWord w),
   fun w => .st (.ofWord w),
   fun w => .vld (.ofWord w),
   fun w => .vst (.ofWord w),
   fun w => .vlds (.ofWord w),
   fun w => .vsts (.ofWord w),
   fun w => .vgth (.ofWord w),
   fun w => .vsct (.ofWord w),
   fun w => .pref (.ofWord w),
   fun w => .wbl (.ofWord w),
   fun w => .invl (.ofWord w),
   fun w => .fence (.ofWord w),
   fun w => .amoadd (.ofWord w),
   fun w => .amoand (.ofWord w),
   fun w => .amoor (.ofWord w),
   fun w => .amoxor (.ofWord w),
   fun w => .amomin (.ofWord w),
   fun w => .amomax (.ofWord w),
   fun w => .amominn (.ofWord w),
   fun w => .amomaxn (.ofWord w),
   fun w => .amoswp (.ofWord w),
   fun w => .amofmax (.ofWord w),
   fun w => .cas (.ofWord w),
   fun w => .cas2 (.ofWord w)]

/-- The constructor that class and opcode select, with its fields read; the sub-codes 1 and 2 of R65. -/
def select (w : Word) : Except Nat Instr :=
  let op := (w.extractLsb' 48 8).toNat
  let found : Option Instr :=
    match (w.extractLsb' 56 3).toNat with
    | 0 => class0[op]?.map (· (.ofWord w))
    | 1 => class1[op]?.map (· (.ofWord w))
    | 2 => class2[op]?.map (· w)
    | 3 => class3[op]?.map (· (.ofWord w))
    | 4 => class4[op]?.map (· (.ofWord w))
    | 5 => class5[op]?.map (· (.ofWord w))
    | 6 => class6[op]?.map (· (.ofWord w))
    | _ => none
  if w.extractLsb' 56 3 = 7 then .error 1
  else match found with
    | none => .error 2
    | some i => .ok i

/-! ### Which fields each instruction uses (R61 to R64 and the entries of the chapters) -/

/-- What R65 checks of a word beside its opcode: the scalar specifiers read (`src`) and written
(`dst`), the conditions that keep every used field off its reserved values (`ok`), and the
conditions that keep every unused field at zero (`zero`). -/
structure Uses where
  src : List Spec := []
  dst : List Spec := []
  ok : List Bool := []
  zero : List Bool := []
  deriving DecidableEq, Repr

/-- A field of format S, T or M2 that names g0 to g31 only. -/
def isG (s : Spec) : Bool := s.toNat < 32

/-- A field that names v0 to v15 (R51). -/
def isV (s : Spec) : Bool := s.toNat < 16

/-- A field that names m0 to m3 (R51). -/
def isM (s : Spec) : Bool := s.toNat < 4

/-- A field that must hold zero. -/
def isZ {n : Nat} (x : BitVec n) : Bool := x == 0

/-- Bits `lo + len - 1` to `lo` of an op-specific field are zero. -/
def zBits {n : Nat} (x : BitVec n) (lo len : Nat) : Bool := x.extractLsb' lo len == 0

/-- Type classes of R178: F, I, S and G. -/
def tyF (t : BitVec 4) : Bool := t.toNat < 3
def tyI (t : BitVec 4) : Bool := 6 ≤ t.toNat && t.toNat < 12
def tyS (t : BitVec 4) : Bool := t == 6 || t == 8 || t == 10
def tyG (t : BitVec 4) : Bool := 3 ≤ t.toNat && t.toNat < 6

/-- The parts of R173 that a format accepts. -/
def partOk (fmt : BitVec 4) (part : Nat) : Bool :=
  if fmt == 3 then part < 3 else if fmt == 4 then part < 5 else part < 8

/-- The system register numbers that R349 and R383 assign. -/
def sysNumberOk (n : BitVec 14) : Bool :=
  n.toNat ∈ [0x000, 0x001, 0x002, 0x003, 0x004, 0x005, 0x006, 0x007, 0x010, 0x011, 0x012, 0x013,
    0x014, 0x015, 0x020, 0x021, 0x022, 0x023, 0x024, 0x025, 0x030, 0x031, 0x040, 0x041, 0x042,
    0x043, 0x050, 0x051, 0x052, 0x053, 0x060, 0x061, 0x070, 0x071, 0x072, 0x073, 0x074, 0x075]

/-! Class 0 (R61) and class 1 (R62). -/

def usesA2 (x : FmtA) : Uses :=
  { src := [x.a, x.b], dst := [x.d], zero := [isZ x.c, isZ x.flag, isZ x.cond] }
def usesA1 (x : FmtA) : Uses :=
  { src := [x.a], dst := [x.d], zero := [isZ x.b, isZ x.c, isZ x.flag, isZ x.cond] }
def usesA3 (x : FmtA) : Uses :=
  { src := [x.a, x.b, x.c], dst := [x.d], zero := [isZ x.flag, isZ x.cond] }
def usesSel (x : FmtA) : Uses :=
  { src := [x.a, x.b], dst := [x.d], zero := [isZ x.c, isZ x.cond] }
def usesCmp (x : FmtA) : Uses := { src := [x.a, x.b], zero := [isZ x.d, isZ x.c] }
def usesTst (x : FmtA) : Uses := { src := [x.a, x.b], zero := [isZ x.d, isZ x.c, isZ x.cond] }
def usesFlagr (x : FmtA) : Uses :=
  { dst := [x.d], zero := [isZ x.a, isZ x.b, isZ x.c, isZ x.flag, isZ x.cond] }
def usesFlagw (x : FmtA) : Uses :=
  { src := [x.a], zero := [isZ x.d, isZ x.b, isZ x.c, isZ x.flag, isZ x.cond] }
def usesB (x : FmtB) : Uses := { src := [x.a], dst := [x.d], zero := [isZ x.flag] }
def usesShiftB (x : FmtB) : Uses :=
  { src := [x.a], dst := [x.d], ok := [x.imm.toNat < 64], zero := [isZ x.flag] }
def usesCmpB (x : FmtB) : Uses := { src := [x.a], zero := [zBits x.d 3 3] }
def usesTstB (x : FmtB) : Uses := { src := [x.a], zero := [isZ x.d] }
def usesLdi (x : FmtB) : Uses := { dst := [x.d], zero := [isZ x.a, isZ x.flag] }

/-! Class 2 (R63). `loads` is the order field of a load, `stores` that of a store. -/

def ordLoad (o : BitVec 2) : Bool := o == 0 || o == 1
def ordStore (o : BitVec 2) : Bool := o == 0 || o == 2
def scopeAny (s : BitVec 3) : Bool := s.toNat < 6
def scopeCore (s : BitVec 3) : Bool := 1 ≤ s.toNat && s.toNat < 6

def usesLd (x : FmtM) : Uses :=
  { src := [x.a], dst := [x.d]
    ok := [isG x.d, x.size.toNat < 4, ordLoad x.order, scopeAny x.scope] }
def usesSt (x : FmtM) : Uses :=
  { src := [x.a, x.d]
    ok := [isG x.d, x.size.toNat < 4, ordStore x.order, scopeAny x.scope], zero := [!x.sext] }
def usesVld (x : FmtM) : Uses :=
  { src := [x.a], ok := [isV x.d, x.size.toNat < 3, ordLoad x.order, scopeAny x.scope] }
def usesVst (x : FmtM) : Uses :=
  { src := [x.a], ok := [isV x.d, x.size.toNat < 3, ordStore x.order, scopeAny x.scope]
    zero := [!x.sext] }
def usesVlds (x : FmtM2) : Uses :=
  { src := [x.a, x.b], ok := [isV x.d, x.size.toNat < 3, ordLoad x.order, scopeAny x.scope] }
def usesVsts (x : FmtM2) : Uses :=
  { src := [x.a, x.b], ok := [isV x.d, x.size.toNat < 3, ordStore x.order, scopeAny x.scope]
    zero := [!x.sext] }
def usesVgth (x : FmtM) : Uses :=
  { ok := [isV x.d, isV x.a, x.size.toNat < 3, ordLoad x.order, scopeAny x.scope] }
def usesVsct (x : FmtM) : Uses :=
  { ok := [isV x.d, isV x.a, x.size.toNat < 3, ordStore x.order, scopeAny x.scope]
    zero := [!x.sext] }
/-- PREF, WBL, INVL: order, which R63 lists as plain in every form, is a field that they do not use (R64; log 42). -/
def usesLine (x : FmtM) : Uses :=
  { src := [x.a], ok := [x.size == 5, scopeCore x.scope], zero := [isZ x.d, isZ x.order, !x.sext] }
def usesFence (x : FmtM) : Uses :=
  { ok := [x.order != 0, scopeAny x.scope]
    zero := [isZ x.d, isZ x.a, isZ x.seg, isZ x.size, isZ x.off, !x.sext] }
def usesAmo (x : FmtM) : Uses :=
  { src := [x.a], dst := [x.d]
    ok := [isG x.d, x.size == 2 || x.size == 3, scopeCore x.scope, !x.sext || x.size == 2] }
def usesAmofmax (x : FmtM) : Uses :=
  { src := [x.a], dst := [x.d], ok := [isG x.d, x.size == 2, scopeCore x.scope], zero := [!x.sext] }
def usesCas (x : FmtM) : Uses :=
  { src := [x.a], dst := [x.d]
    ok := [isG x.d, x.d.toNat % 2 == 0, x.size == 2 || x.size == 3, scopeCore x.scope]
    zero := [!x.sext] }
def usesCas2 (x : FmtM) : Uses :=
  { src := [x.a], dst := [x.d]
    ok := [isG x.d, x.d.toNat % 4 == 0, x.size == 4, scopeCore x.scope], zero := [!x.sext] }

/-! Class 3 (R178, R179). The mask and scalar-vb fields stand apart, as R64 says. -/

/-- [17:16] is zero when mask enable is 0 (R56). -/
def maskOk (x : FmtV) : Bool := x.me || x.mask == 0
/-- The three mask bits of an instruction that accepts no mask (R64). -/
def noMask (x : FmtV) : Bool := !x.me && x.mask == 0

/-- `vb` as a vector register, or as any source specifier when [14] is 1. -/
def vbSrc (x : FmtV) : List Spec := if x.sc then [x.vb] else []
def vbOk (x : FmtV) : Bool := x.sc || isV x.vb

def usesVarith (x : FmtV) : Uses :=
  { src := vbSrc x
    ok := [isV x.vd, isV x.va, vbOk x, tyF x.ty || tyI x.ty, tyF x.ty || x.rnd == 0, maskOk x,
      tyI x.ty || zBits x.op 0 1]
    zero := [isZ x.vc, zBits x.op 1 13] }
def usesVfma (x : FmtV) : Uses :=
  { src := vbSrc x, ok := [isV x.vd, isV x.va, vbOk x, isV x.vc, tyF x.ty, maskOk x]
    zero := [isZ x.op] }
def usesVminmax (x : FmtV) : Uses :=
  { src := vbSrc x, ok := [isV x.vd, isV x.va, vbOk x, tyF x.ty || tyI x.ty, maskOk x]
    zero := [isZ x.vc, isZ x.rnd, isZ x.op] }
def usesVabs (x : FmtV) : Uses :=
  { ok := [isV x.vd, isV x.va, tyF x.ty || tyS x.ty, maskOk x, tyS x.ty || zBits x.op 0 1]
    zero := [isZ x.vb, isZ x.vc, isZ x.rnd, !x.sc, zBits x.op 1 13] }
def usesVdiv (x : FmtV) : Uses :=
  { src := vbSrc x, ok := [isV x.vd, isV x.va, vbOk x, tyF x.ty, maskOk x]
    zero := [isZ x.vc, isZ x.op] }
def usesVsqrt (x : FmtV) : Uses :=
  { ok := [isV x.vd, isV x.va, tyF x.ty, maskOk x], zero := [isZ x.vb, isZ x.vc, !x.sc, isZ x.op] }
def usesVapprox (x : FmtV) : Uses :=
  { ok := [isV x.vd, isV x.va, tyF x.ty, x.ty != 0 || x.rnd == 0, maskOk x]
    zero := [isZ x.vb, isZ x.vc, !x.sc, isZ x.op] }
def usesVlogic (x : FmtV) : Uses :=
  { src := vbSrc x, ok := [isV x.vd, isV x.va, vbOk x, maskOk x]
    zero := [isZ x.vc, isZ x.ty, isZ x.rnd, isZ x.op] }
def usesVcmp (x : FmtV) : Uses :=
  { src := vbSrc x, ok := [isM x.vd, isV x.va, vbOk x, tyF x.ty || tyI x.ty, maskOk x]
    zero := [isZ x.vc, isZ x.rnd, zBits x.op 3 11] }
def usesVsel (x : FmtV) : Uses :=
  { src := vbSrc x, ok := [isV x.vd, isV x.va, vbOk x, maskOk x]
    zero := [isZ x.vc, isZ x.ty, isZ x.rnd, zBits x.op 2 12] }
/-- The fn field of VMSK (R179). -/
def FmtV.fn3 (x : FmtV) : Nat := (x.op.extractLsb' 0 3).toNat
def usesVmsk (x : FmtV) : Uses :=
  { src := vbSrc x
    ok := [isM x.vd, if x.fn3 == 5 then isZ x.va else isM x.va,
      if x.fn3 == 4 then isZ x.vb && !x.sc else x.sc || isM x.vb, x.fn3 < 6, maskOk x]
    zero := [isZ x.vc, isZ x.ty, isZ x.rnd, zBits x.op 3 11] }
def usesVcnt (x : FmtV) : Uses :=
  { ok := [isV x.vd, isV x.va, maskOk x]
    zero := [isZ x.vb, isZ x.vc, isZ x.ty, isZ x.rnd, !x.sc, zBits x.op 1 13] }
/-- The source type of VCVT (R179). -/
def FmtV.from0 (x : FmtV) : BitVec 4 := x.op.extractLsb' 0 4
/-- The source type of VQNT and VDQT, their scl bit and their part (R179). -/
def FmtV.from4 (x : FmtV) : BitVec 4 := x.op.extractLsb' 4 4
def FmtV.scl (x : FmtV) : Bool := x.op.getLsbD 3
def FmtV.part (x : FmtV) : Nat := (x.op.extractLsb' 0 3).toNat
def usesVcvt (x : FmtV) : Uses :=
  { ok := [isV x.vd, isV x.va, tyF x.ty || tyI x.ty, tyF x.from0 || tyI x.from0, maskOk x]
    zero := [isZ x.vb, isZ x.vc, !x.sc, zBits x.op 4 10] }
def usesVqnt (x : FmtV) : Uses :=
  { src := [x.vc]
    ok := [isV x.vd, isV x.va, tyG x.ty, tyF x.from4, partOk x.ty x.part, x.scl || isZ x.vc]
    zero := [isZ x.vb, noMask x, !x.sc, zBits x.op 8 6] }
def usesVdqt (x : FmtV) : Uses :=
  { src := [x.vc]
    ok := [isV x.vd, isV x.va, tyF x.ty, tyG x.from4, partOk x.from4 x.part, x.scl || isZ x.vc,
      maskOk x]
    zero := [isZ x.vb, !x.sc, zBits x.op 8 6] }
/-- The LANE field of VBCST and VMOVG (R179). -/
def FmtV.lane (x : FmtV) : Nat := (x.op.extractLsb' 4 6).toNat
def usesVbcst (x : FmtV) : Uses :=
  let sub1 := x.op.getLsbD 0
  { src := [x.vc]
    ok := [isV x.vd, if sub1 then isV x.va && isZ x.vc else isZ x.va && x.lane == 0, maskOk x]
    zero := [isZ x.vb, isZ x.ty, isZ x.rnd, !x.sc, zBits x.op 10 4, zBits x.op 1 3] }
/-- The sub field of VMOVG (R179). -/
def FmtV.sub2 (x : FmtV) : Nat := (x.op.extractLsb' 0 2).toNat
def usesVmovg (x : FmtV) : Uses :=
  { src := [x.vc]
    dst := if x.sub2 == 0 || x.sub2 == 2 then [x.vd] else []
    ok := [x.sub2 < 3, if x.sub2 == 1 then isV x.vd else isG x.vd,
      if x.sub2 == 0 then isV x.va else if x.sub2 == 2 then isM x.va else isZ x.va,
      x.sub2 == 1 || isZ x.vc, x.sub2 < 2 || x.lane == 0, x.sub2 == 0 || !x.op.getLsbD 2]
    zero := [isZ x.vb, isZ x.ty, isZ x.rnd, noMask x, !x.sc, zBits x.op 10 4, zBits x.op 3 1] }
def usesViota (x : FmtV) : Uses :=
  { src := [x.vc], ok := [isV x.vd, maskOk x]
    zero := [isZ x.va, isZ x.vb, isZ x.ty, isZ x.rnd, !x.sc, zBits x.op 8 6] }
def usesVscan (x : FmtV) : Uses :=
  { ok := [isV x.vd, isV x.va, tyF x.ty || tyI x.ty,
      (tyF x.ty && zBits x.op 0 2) || x.rnd == 0, x.sub2 < 3, maskOk x]
    zero := [isZ x.vb, isZ x.vc, !x.sc, zBits x.op 2 12] }
def usesVredadd (x : FmtV) : Uses :=
  { dst := [x.vd]
    ok := [isG x.vd, isV x.va, tyF x.ty || tyI x.ty, tyF x.ty || x.rnd == 0, maskOk x]
    zero := [isZ x.vb, isZ x.vc, !x.sc, isZ x.op] }
def usesVredmax (x : FmtV) : Uses :=
  { dst := [x.vd], ok := [isG x.vd, isV x.va, tyF x.ty || tyI x.ty, maskOk x]
    zero := [isZ x.vb, isZ x.vc, isZ x.rnd, !x.sc, isZ x.op] }
def usesVamax (x : FmtV) : Uses :=
  { dst := [x.vd], ok := [isG x.vd, isV x.va, tyF x.ty, maskOk x]
    zero := [isZ x.vb, isZ x.vc, isZ x.rnd, !x.sc, isZ x.op] }
def usesVtopk (x : FmtV) : Uses :=
  { ok := [isV x.vd, isV x.va, tyF x.ty || x.ty == 6 || x.ty == 7, maskOk x]
    zero := [isZ x.vb, isZ x.vc, isZ x.rnd, !x.sc, zBits x.op 5 9] }

/-! Class 4 (R241, R242) and class 5 (R220, R316). -/

def isAcc (i : BitVec 4) : Bool := i.toNat < 4

def usesMma (x : FmtT) : Uses :=
  { dst := [x.d], ok := [isG x.d, isAcc x.id1]
    zero := [isZ x.a, isZ x.b, isZ x.scope, zBits x.op 4 11] }
def usesMzero (x : FmtT) : Uses :=
  { dst := [x.d], ok := [isG x.d, isAcc x.id1]
    zero := [isZ x.a, isZ x.b, isZ x.id2, isZ x.id3, isZ x.scope, isZ x.op] }
def usesMdrn (x : FmtT) : Uses :=
  let amax := x.op.getLsbD 5
  { src := [x.a, x.b], dst := [x.d]
    ok := [isG x.d, isAcc x.id1, scopeCore x.scope, x.op.extractLsb' 3 2 != 3,
      amax || (isZ x.b && zBits x.op 6 3)]
    zero := [isZ x.id2, isZ x.id3, zBits x.op 12 3] }
def usesMlda (x : FmtT) : Uses :=
  { src := [x.a], dst := [x.d], ok := [isG x.d, isAcc x.id1, scopeCore x.scope]
    zero := [isZ x.b, isZ x.id2, isZ x.id3, zBits x.op 3 12] }
def usesMscl (x : FmtT) : Uses :=
  { src := [x.a], dst := [x.d], ok := [isG x.d]
    zero := [isZ x.b, isZ x.id2, isZ x.id3, isZ x.scope, isZ x.op] }
def usesCpy (x : FmtT) : Uses :=
  { src := [x.a], dst := [x.d], ok := [isG x.d, scopeAny x.scope]
    zero := [isZ x.b, isZ x.id1, isZ x.id2, isZ x.id3, isZ x.op] }
def usesCpym (x : FmtT) : Uses :=
  { src := [x.a, x.b], dst := [x.d], ok := [isG x.d, scopeAny x.scope]
    zero := [isZ x.id1, isZ x.id2, isZ x.id3, isZ x.op] }
def usesRngini (x : FmtT) : Uses :=
  { src := [x.a, x.b], dst := [x.d], ok := [isG x.d]
    zero := [isZ x.id2, isZ x.id3, isZ x.scope, isZ x.op] }
def usesRngmove (x : FmtT) : Uses :=
  { dst := [x.d], ok := [isG x.d, !zBits x.op 0 8]
    zero := [isZ x.a, isZ x.b, isZ x.id2, isZ x.id3, isZ x.scope, zBits x.op 8 7] }
def usesRngq (x : FmtT) : Uses :=
  { dst := [x.d], ok := [isG x.d]
    zero := [isZ x.a, isZ x.b, isZ x.id2, isZ x.id3, isZ x.scope, zBits x.op 2 13] }
def usesRlck (x : FmtT) : Uses :=
  { src := [x.a, x.b], dst := [x.d], ok := [isG x.d]
    zero := [isZ x.id1, isZ x.id2, isZ x.id3, isZ x.scope, zBits x.op 4 11] }
def usesRfree (x : FmtT) : Uses :=
  { src := [x.a], dst := [x.d], ok := [isG x.d, scopeCore x.scope]
    zero := [isZ x.b, isZ x.id1, isZ x.id2, isZ x.id3, isZ x.op] }
def usesBarinit (x : FmtT) : Uses :=
  { src := [x.a, x.b], dst := [x.d], ok := [isG x.d, scopeCore x.scope]
    zero := [isZ x.id1, isZ x.id2, isZ x.id3, isZ x.op] }
def usesBararv (x : FmtT) : Uses :=
  { src := [x.a], dst := [x.d], ok := [isG x.d, scopeCore x.scope, !zBits x.op 0 3]
    zero := [isZ x.b, isZ x.id1, isZ x.id2, isZ x.id3, zBits x.op 3 12] }
def usesBarwt (x : FmtT) : Uses :=
  { src := [x.a, x.b], dst := [x.d], ok := [isG x.d, scopeCore x.scope]
    zero := [isZ x.id1, isZ x.id2, isZ x.id3, zBits x.op 4 11] }
def usesRoute (x : FmtT) : Uses :=
  { src := [x.a, x.b], dst := [x.d], ok := [isG x.d]
    zero := [isZ x.id2, isZ x.id3, isZ x.scope, isZ x.op] }
def usesRtret (x : FmtT) : Uses :=
  let fail := x.op.getLsbD 7
  { src := [x.a, x.b], dst := [x.d]
    ok := [isG x.d, !fail || (isZ x.a && zBits x.op 0 7)]
    zero := [isZ x.id1, isZ x.id2, isZ x.id3, isZ x.scope, zBits x.op 8 7] }
def usesSplini (x : FmtT) : Uses :=
  { src := [x.a], dst := [x.d], ok := [isG x.d, scopeCore x.scope]
    zero := [isZ x.b, isZ x.id2, isZ x.id3, isZ x.op] }
def usesSplq (x : FmtT) : Uses :=
  let item := (x.op.extractLsb' 0 2).toNat
  { src := [x.b], dst := [x.d]
    ok := [isG x.d, item < 3, item == 1 || isZ x.b]
    zero := [isZ x.a, isZ x.id2, isZ x.id3, isZ x.scope, zBits x.op 2 13] }
def usesRxblock (x : FmtT) : Uses :=
  { src := [x.a], dst := [x.d], ok := [isG x.d]
    zero := [isZ x.b, isZ x.id2, isZ x.id3, isZ x.scope, isZ x.op] }
def usesRxtake (x : FmtT) : Uses :=
  { dst := [x.d], ok := [isG x.d]
    zero := [isZ x.a, isZ x.b, isZ x.id2, isZ x.id3, isZ x.scope, isZ x.op] }
def usesRxeos (x : FmtT) : Uses :=
  { dst := [x.d], ok := [isG x.d]
    zero := [isZ x.a, isZ x.b, isZ x.id3, isZ x.scope, isZ x.op] }

/-! Class 6 (R85, R87, R89 to R93, R117, R118, R144 to R149, R352, R353, R355, R380, R396). -/

def usesNone (x : FmtS) : Uses := { zero := [isZ x.d, isZ x.a, isZ x.b, isZ x.imm, isZ x.op] }
def usesCuew (x : FmtS) : Uses :=
  let dis := x.op.getLsbD 6
  { src := [x.a, x.b], ok := [if dis then isZ x.a else isG x.a && x.a.toNat % 4 == 0]
    zero := [isZ x.d, isZ x.imm, zBits x.op 7 9] }
def usesCuecut (x : FmtS) : Uses :=
  { dst := [x.d], zero := [isZ x.a, isZ x.b, isZ x.imm, zBits x.op 6 10] }
/-- The item of CUERD (R147). -/
def FmtS.item (x : FmtS) : Nat := (x.op.extractLsb' 6 3).toNat
def usesCuerd (x : FmtS) : Uses :=
  let indexed := 1 ≤ x.item && x.item ≤ 5
  { src := [x.b], dst := [x.d]
    ok := [x.item < 7, indexed || isZ x.b, (1 ≤ x.item && x.item ≤ 4) || !x.op.getLsbD 9]
    zero := [isZ x.a, isZ x.imm, zBits x.op 10 6] }
def usesCuesel (x : FmtS) : Uses :=
  let reg := x.op.getLsbD 6
  { src := [x.a], dst := [x.d]
    ok := [if reg then zBits x.op 0 6 else isZ x.a]
    zero := [isZ x.b, isZ x.imm, zBits x.op 7 9] }
def usesCntw (x : FmtS) : Uses := { src := [x.a], zero := [isZ x.d, isZ x.b, zBits x.op 2 14] }
def usesCntr (x : FmtS) : Uses :=
  { dst := [x.d], zero := [isZ x.a, isZ x.b, isZ x.imm, zBits x.op 2 14] }
def usesSpawn (x : FmtS) : Uses :=
  { src := [x.a], dst := [x.d], ok := [isG x.d], zero := [isZ x.b, zBits x.op 3 13] }
/-- The fields of LAUNCH in the op-specific bits (R87). -/
def FmtS.lscope (x : FmtS) : Nat := (x.op.extractLsb' 7 3).toNat
def FmtS.place (x : FmtS) : Nat := (x.op.extractLsb' 5 2).toNat
def FmtS.lclass (x : FmtS) : Nat := (x.op.extractLsb' 3 2).toNat
def usesLaunch (x : FmtS) : Uses :=
  { src := [x.a, x.b], dst := [x.d]
    ok := [isG x.d, x.place < 3, x.lclass < 3, x.place + 1 ≤ x.lscope, x.lscope < 6]
    zero := [zBits x.op 10 6] }
def usesPark (x : FmtS) : Uses :=
  { src := [x.a], dst := [x.d], ok := [isG x.d], zero := [isZ x.b, isZ x.imm, zBits x.op 4 12] }
def usesExit (x : FmtS) : Uses :=
  { src := [x.a], zero := [isZ x.d, isZ x.b, isZ x.imm, isZ x.op] }
def usesSend (x : FmtS) : Uses :=
  { src := [x.a, x.b], dst := [x.d], ok := [isG x.d], zero := [zBits x.imm 8 6, isZ x.op] }
def usesSegw (x : FmtS) : Uses :=
  { src := [x.a, x.b], zero := [isZ x.d, isZ x.imm, zBits x.op 3 13] }
def usesSegr (x : FmtS) : Uses :=
  { dst := [x.d], zero := [isZ x.a, isZ x.b, isZ x.imm, zBits x.op 4 12] }
def usesTrap (x : FmtS) : Uses :=
  { src := [x.a], zero := [isZ x.d, isZ x.b, zBits x.imm 8 6, isZ x.op] }
def usesBkpt (x : FmtS) : Uses :=
  { zero := [isZ x.d, isZ x.a, isZ x.b, zBits x.imm 8 6, isZ x.op] }
def usesSysr (x : FmtS) : Uses :=
  { src := [x.a], dst := [x.d], ok := [sysNumberOk x.imm, x.op.getLsbD 8 || zBits x.op 0 8]
    zero := [isZ x.b, zBits x.op 9 7] }
def usesSysw (x : FmtS) : Uses :=
  { src := [x.a, x.b], ok := [sysNumberOk x.imm, x.op.getLsbD 8 || zBits x.op 0 8]
    zero := [isZ x.d, zBits x.op 9 7] }
def usesTime (x : FmtS) : Uses :=
  { dst := [x.d], ok := [(x.op.extractLsb' 0 2).toNat < 2]
    zero := [isZ x.a, isZ x.b, isZ x.imm, zBits x.op 2 14] }
def usesEvtr (x : FmtS) : Uses :=
  { dst := [x.d], zero := [isZ x.a, isZ x.b, isZ x.imm, zBits x.op 3 13] }

/-! The actions of a cue (R129): the fields marked 0, and the counter operation's index (R130). -/

def cntOk (c : BitVec 4) : Bool := c.extractLsb' 2 2 != 0 || c == 0
def usesNext (q : CueAct) : Uses := { ok := [cntOk q.cnt, isZ q.wordB, isZ q.rset] }
def usesCall (q : CueAct) : Uses := { ok := [cntOk q.cnt] }
def usesRet (q : CueAct) : Uses :=
  { ok := [cntOk q.cnt, isZ q.wordA, isZ q.wordB, isZ q.nset, isZ q.rset, isZ q.prm] }
def usesGate (q : CueAct) : Uses :=
  { ok := [cntOk q.cnt, q.wordB.toNat < 65536, isZ q.nset, isZ q.rset] }
def usesEret (q : CueAct) : Uses :=
  { ok := [isZ q.cnt, isZ q.wordA, isZ q.wordB, isZ q.nset, isZ q.rset, isZ q.prm] }

/-- The events carry the number of a core, slot, die, queue or port: they exist (R12, R16, R384). -/
def coreOk (c : Nat) : Bool := c < 1024
def slotOk (s : Nat) : Bool := s < 8
def domOk (d : Nat) : Bool := d < 256

/-- What R65 (for a cue R129, for an event its numbers) checks of each step. -/
def Instr.uses : Instr → Uses
  | .add x => usesA2 x
  | .sub x => usesA2 x
  | .mul x => usesA2 x
  | .mulh x => usesA2 x
  | .mulhn x => usesA2 x
  | .div x => usesA2 x
  | .divn x => usesA2 x
  | .rem x => usesA2 x
  | .remn x => usesA2 x
  | .and x => usesA2 x
  | .or x => usesA2 x
  | .xor x => usesA2 x
  | .andn x => usesA2 x
  | .orn x => usesA2 x
  | .shl x => usesA2 x
  | .shr x => usesA2 x
  | .sar x => usesA2 x
  | .rol x => usesA2 x
  | .ror x => usesA2 x
  | .min x => usesA2 x
  | .max x => usesA2 x
  | .minn x => usesA2 x
  | .maxn x => usesA2 x
  | .clz x => usesA1 x
  | .ctz x => usesA1 x
  | .popc x => usesA1 x
  | .bswap x => usesA1 x
  | .extr x => usesA3 x
  | .ins x => usesA3 x
  | .madd x => usesA3 x
  | .sel x => usesSel x
  | .cmp x => usesCmp x
  | .cmpn x => usesCmp x
  | .tst x => usesTst x
  | .flagr x => usesFlagr x
  | .flagw x => usesFlagw x
  | .addi x => usesB x
  | .andi x => usesB x
  | .ori x => usesB x
  | .xori x => usesB x
  | .shli x => usesShiftB x
  | .shri x => usesShiftB x
  | .sari x => usesShiftB x
  | .muli x => usesB x
  | .cmpi x => usesCmpB x
  | .cmpni x => usesCmpB x
  | .tsti x => usesTstB x
  | .ldi x => usesLdi x
  | .ldih x => usesB x
  | .ld x => usesLd x
  | .st x => usesSt x
  | .vld x => usesVld x
  | .vst x => usesVst x
  | .vlds x => usesVlds x
  | .vsts x => usesVsts x
  | .vgth x => usesVgth x
  | .vsct x => usesVsct x
  | .pref x => usesLine x
  | .wbl x => usesLine x
  | .invl x => usesLine x
  | .fence x => usesFence x
  | .amoadd x => usesAmo x
  | .amoand x => usesAmo x
  | .amoor x => usesAmo x
  | .amoxor x => usesAmo x
  | .amomin x => usesAmo x
  | .amomax x => usesAmo x
  | .amominn x => usesAmo x
  | .amomaxn x => usesAmo x
  | .amoswp x => usesAmo x
  | .amofmax x => usesAmofmax x
  | .cas x => usesCas x
  | .cas2 x => usesCas2 x
  | .vadd x => usesVarith x
  | .vsub x => usesVarith x
  | .vmul x => usesVarith x
  | .vfma x => usesVfma x
  | .vfms x => usesVfma x
  | .vfnma x => usesVfma x
  | .vmin x => usesVminmax x
  | .vmax x => usesVminmax x
  | .vabs x => usesVabs x
  | .vneg x => usesVabs x
  | .vdiv x => usesVdiv x
  | .vsqrt x => usesVsqrt x
  | .vrsq x => usesVapprox x
  | .vrcp x => usesVapprox x
  | .vexp2 x => usesVapprox x
  | .vlog2 x => usesVapprox x
  | .vtanh x => usesVapprox x
  | .vand x => usesVlogic x
  | .vor x => usesVlogic x
  | .vxor x => usesVlogic x
  | .vshl x => usesVlogic x
  | .vshr x => usesVlogic x
  | .vsar x => usesVlogic x
  | .vcmp x => usesVcmp x
  | .vsel x => usesVsel x
  | .vmsk x => usesVmsk x
  | .vcnt x => usesVcnt x
  | .vcvt x => usesVcvt x
  | .vqnt x => usesVqnt x
  | .vdqt x => usesVdqt x
  | .vbcst x => usesVbcst x
  | .vmovg x => usesVmovg x
  | .viota x => usesViota x
  | .vperm x => usesVlogic x
  | .vscan x => usesVscan x
  | .vredadd x => usesVredadd x
  | .vredmax x => usesVredmax x
  | .vredmin x => usesVredmax x
  | .vamax x => usesVamax x
  | .vtopk x => usesVtopk x
  | .mma x => usesMma x
  | .mmaz x => usesMma x
  | .mzero x => usesMzero x
  | .mdrn x => usesMdrn x
  | .mlda x => usesMlda x
  | .mscl x => usesMscl x
  | .cpy x => usesCpy x
  | .cpym x => usesCpym x
  | .cpyf x => usesCpy x
  | .rngini x => usesRngini x
  | .rngpop x => usesRngmove x
  | .rngadv x => usesRngmove x
  | .rngq x => usesRngq x
  | .rlck x => usesRlck x
  | .rfree x => usesRfree x
  | .barinit x => usesBarinit x
  | .bararv x => usesBararv x
  | .barwt x => usesBarwt x
  | .route x => usesRoute x
  | .rtret x => usesRtret x
  | .splini x => usesSplini x
  | .splq x => usesSplq x
  | .rxbind x => usesRxblock x
  | .rxtake x => usesRxtake x
  | .rxfree x => usesRxblock x
  | .rxeos x => usesRxeos x
  | .nop x => usesNone x
  | .cuew x => usesCuew x
  | .cuecut x => usesCuecut x
  | .cuerd x => usesCuerd x
  | .cuesel x => usesCuesel x
  | .cntw x => usesCntw x
  | .cntr x => usesCntr x
  | .spawn x => usesSpawn x
  | .spawnr x => usesSpawn x
  | .launch x => usesLaunch x
  | .park x => usesPark x
  | .yield x => usesNone x
  | .exit x => usesExit x
  | .send x => usesSend x
  | .segw x => usesSegw x
  | .segr x => usesSegr x
  | .trap x => usesTrap x
  | .sysr x => usesSysr x
  | .sysw x => usesSysw x
  | .time x => usesTime x
  | .evtr x => usesEvtr x
  | .bkpt x => usesBkpt x
  | .halt x => usesNone x
  | .next q => usesNext q
  | .call q => usesCall q
  | .icall q => usesCall q
  | .ret q => usesRet q
  | .gate q => usesGate q
  | .gret q => usesRet q
  | .eret q => usesEret q
  | .missTrap q => usesEret q
  | .deferredEventTaken => {}
  | .takeWork core slot => { ok := [coreOk core, slotOk slot] }
  | .stealRequest thief victim dom => { ok := [coreOk thief, coreOk victim, domOk dom] }
  | .stealAnswer thief => { ok := [coreOk thief] }
  | .pendingMove core dom => { ok := [coreOk core, domOk dom] }
  | .launchCompletion _ => {}
  | .drainEnd core slot => { ok := [coreOk core, slotOk slot] }
  | .spawnStatusFill core _ => { ok := [coreOk core] }
  | .pageFaultSave core slot => { ok := [coreOk core, slotOk slot] }
  | .pageArrival dom _ => { ok := [domOk dom] }
  | .preemptSave core slot => { ok := [coreOk core, slotOk slot] }
  | .preemptDeadline core slot => { ok := [coreOk core, slotOk slot] }
  | .domainSave core dom => { ok := [coreOk core, domOk dom] }
  | .quantumExpiry core dom => { ok := [coreOk core, domOk dom] }
  | .parkTimeout core slot => { ok := [coreOk core, slotOk slot] }
  | .sendDelivery core slot => { ok := [coreOk core, slotOk slot] }
  | .loadDataFill core _ => { ok := [coreOk core] }
  | .vectorResultLand core slot _ => { ok := [coreOk core, slotOk slot] }
  | .copyStart core _ => { ok := [coreOk core] }
  | .copyRowRetire core _ => { ok := [coreOk core] }
  | .copyComplete core _ => { ok := [coreOk core] }
  | .followOnIssue core _ => { ok := [coreOk core] }
  | .matrixCommandStart core _ => { ok := [coreOk core] }
  | .matrixCommandRetire core => { ok := [coreOk core] }
  | .barrierArrivalApply _ => {}
  | .bararvReply core _ => { ok := [coreOk core] }
  | .barwtWake core _ => { ok := [coreOk core] }
  | .barwtBoundExpiry core _ => { ok := [coreOk core] }
  | .l1WriteBack core _ => { ok := [coreOk core] }
  | .l1LineDrop core _ => { ok := [coreOk core] }
  | .translationMiss _ dom _ _ => { ok := [domOk dom] }
  | .shootDown _ => {}
  | .shootDownComplete _ => {}
  | .pairSend core _ => { ok := [coreOk core] }
  | .rowArrival _ => {}
  | .faultHoldResolve core _ _ => { ok := [coreOk core] }
  | .pageHandover core queue => { ok := [coreOk core, decide (queue < 16)] }
  | .queueTimeout core queue => { ok := [coreOk core, decide (queue < 16)] }
  | .eosArrival _ => {}
  | .creditReturn _ => {}
  | .returnApply _ => {}
  | .rtretAck _ => {}
  | .spliceComplete core _ => { ok := [coreOk core] }
  | .spliceTimeout core _ => { ok := [coreOk core] }
  | .peerReset core _ => { ok := [coreOk core] }
  | .resetAnnouncement _ _ => {}
  | .clockStop core => { ok := [coreOk core] }
  | .clockRestart core => { ok := [coreOk core] }
  | .l1cfgWrite core _ => { ok := [coreOk core] }
  | .l1Reconfigure core => { ok := [coreOk core] }
  | .preqWrite core _ => { ok := [coreOk core] }
  | .hbankWrite core dom _ _ => { ok := [coreOk core, domOk dom] }
  | .rseedWrite core dom _ => { ok := [coreOk core, domOk dom] }
  | .partWrite core dom _ _ => { ok := [coreOk core, domOk dom] }
  | .plockWrite core dom _ => { ok := [coreOk core, domOk dom] }
  | .sealRestore core dom _ => { ok := [coreOk core, domOk dom] }
  | .keyRefresh dom => { ok := [domOk dom] }
  | .measurementExtend dom _ => { ok := [domOk dom] }
  | .attest core dom _ => { ok := [coreOk core, domOk dom] }
  | .ptcfgWrite _ => {}
  | .pterrWrite => {}
  | .tailWrite queue _ => { ok := [decide (queue < 8192)] }
  | .tailReread queue => { ok := [decide (queue < 8192)] }
  | .launchRecordTake queue => { ok := [decide (queue < 8192)] }
  | .loadRecordTake queue => { ok := [decide (queue < 8192)] }
  | .throttleStart die => { ok := [decide (die < 4)] }
  | .throttleStep die => { ok := [decide (die < 4)] }
  | .throttleEnd die => { ok := [decide (die < 4)] }
  | .thermalTrip die => { ok := [decide (die < 4)] }
  | .powerOnReset => {}
  | .hostResetRequest => {}
  | .pageRefusal dom _ => { ok := [domOk dom] }
  | .limvonAccess _ => {}
  | .barinitReply core _ => { ok := [coreOk core] }
  | .rxeosAck _ => {}
  | .routeEntryWrite core _ _ _ => { ok := [coreOk core] }
  | .tokenPoolWrite core dom _ _ => { ok := [coreOk core, domOk dom] }
  | .flitCrcFailure port => { ok := [decide (port < 26)] }
  | .cxlLinkFailure port => { ok := [decide (port < 26)] }

/-- R49: a specifier that is illegal in a source field. -/
def badSrc (s : Spec) : Bool := 62 ≤ s.toNat

/-- R49: a specifier that is illegal in a destination field. -/
def badDst (s : Spec) : Bool := 48 ≤ s.toNat

/-- The first of the sub-codes 3 to 5 of R65 that the fields of `i` meet. -/
def Instr.illegal (i : Instr) : Option Nat :=
  let u := i.uses
  if u.src.any badSrc || u.dst.any badDst then some 3
  else if u.ok.all id then if u.zero.all id then none else some 5
  else some 4

/-! ### The encoder -/

/-- The word of an instruction, from the opcode map (R60) and the formats; an action of a cue and an
event have no word. -/
def encode : Instr → Option Word
  | .add x => some (x.toWord 0 0x00)
  | .sub x => some (x.toWord 0 0x01)
  | .mul x => some (x.toWord 0 0x02)
  | .mulh x => some (x.toWord 0 0x03)
  | .mulhn x => some (x.toWord 0 0x04)
  | .div x => some (x.toWord 0 0x05)
  | .divn x => some (x.toWord 0 0x06)
  | .rem x => some (x.toWord 0 0x07)
  | .remn x => some (x.toWord 0 0x08)
  | .and x => some (x.toWord 0 0x09)
  | .or x => some (x.toWord 0 0x0A)
  | .xor x => some (x.toWord 0 0x0B)
  | .andn x => some (x.toWord 0 0x0C)
  | .orn x => some (x.toWord 0 0x0D)
  | .shl x => some (x.toWord 0 0x0E)
  | .shr x => some (x.toWord 0 0x0F)
  | .sar x => some (x.toWord 0 0x10)
  | .rol x => some (x.toWord 0 0x11)
  | .ror x => some (x.toWord 0 0x12)
  | .min x => some (x.toWord 0 0x13)
  | .max x => some (x.toWord 0 0x14)
  | .minn x => some (x.toWord 0 0x15)
  | .maxn x => some (x.toWord 0 0x16)
  | .clz x => some (x.toWord 0 0x17)
  | .ctz x => some (x.toWord 0 0x18)
  | .popc x => some (x.toWord 0 0x19)
  | .bswap x => some (x.toWord 0 0x1A)
  | .extr x => some (x.toWord 0 0x1B)
  | .ins x => some (x.toWord 0 0x1C)
  | .madd x => some (x.toWord 0 0x1D)
  | .sel x => some (x.toWord 0 0x1E)
  | .cmp x => some (x.toWord 0 0x1F)
  | .cmpn x => some (x.toWord 0 0x20)
  | .tst x => some (x.toWord 0 0x21)
  | .flagr x => some (x.toWord 0 0x22)
  | .flagw x => some (x.toWord 0 0x23)
  | .addi x => some (x.toWord 1 0x00)
  | .andi x => some (x.toWord 1 0x01)
  | .ori x => some (x.toWord 1 0x02)
  | .xori x => some (x.toWord 1 0x03)
  | .shli x => some (x.toWord 1 0x04)
  | .shri x => some (x.toWord 1 0x05)
  | .sari x => some (x.toWord 1 0x06)
  | .muli x => some (x.toWord 1 0x07)
  | .cmpi x => some (x.toWord 1 0x08)
  | .cmpni x => some (x.toWord 1 0x09)
  | .tsti x => some (x.toWord 1 0x0A)
  | .ldi x => some (x.toWord 1 0x0B)
  | .ldih x => some (x.toWord 1 0x0C)
  | .ld x => some (x.toWord 2 0x00)
  | .st x => some (x.toWord 2 0x01)
  | .vld x => some (x.toWord 2 0x02)
  | .vst x => some (x.toWord 2 0x03)
  | .vlds x => some (x.toWord 2 0x04)
  | .vsts x => some (x.toWord 2 0x05)
  | .vgth x => some (x.toWord 2 0x06)
  | .vsct x => some (x.toWord 2 0x07)
  | .pref x => some (x.toWord 2 0x08)
  | .wbl x => some (x.toWord 2 0x09)
  | .invl x => some (x.toWord 2 0x0A)
  | .fence x => some (x.toWord 2 0x0B)
  | .amoadd x => some (x.toWord 2 0x0C)
  | .amoand x => some (x.toWord 2 0x0D)
  | .amoor x => some (x.toWord 2 0x0E)
  | .amoxor x => some (x.toWord 2 0x0F)
  | .amomin x => some (x.toWord 2 0x10)
  | .amomax x => some (x.toWord 2 0x11)
  | .amominn x => some (x.toWord 2 0x12)
  | .amomaxn x => some (x.toWord 2 0x13)
  | .amoswp x => some (x.toWord 2 0x14)
  | .amofmax x => some (x.toWord 2 0x15)
  | .cas x => some (x.toWord 2 0x16)
  | .cas2 x => some (x.toWord 2 0x17)
  | .vadd x => some (x.toWord 3 0x00)
  | .vsub x => some (x.toWord 3 0x01)
  | .vmul x => some (x.toWord 3 0x02)
  | .vfma x => some (x.toWord 3 0x03)
  | .vfms x => some (x.toWord 3 0x04)
  | .vfnma x => some (x.toWord 3 0x05)
  | .vmin x => some (x.toWord 3 0x06)
  | .vmax x => some (x.toWord 3 0x07)
  | .vabs x => some (x.toWord 3 0x08)
  | .vneg x => some (x.toWord 3 0x09)
  | .vdiv x => some (x.toWord 3 0x0A)
  | .vsqrt x => some (x.toWord 3 0x0B)
  | .vrsq x => some (x.toWord 3 0x0C)
  | .vrcp x => some (x.toWord 3 0x0D)
  | .vexp2 x => some (x.toWord 3 0x0E)
  | .vlog2 x => some (x.toWord 3 0x0F)
  | .vtanh x => some (x.toWord 3 0x10)
  | .vand x => some (x.toWord 3 0x11)
  | .vor x => some (x.toWord 3 0x12)
  | .vxor x => some (x.toWord 3 0x13)
  | .vshl x => some (x.toWord 3 0x14)
  | .vshr x => some (x.toWord 3 0x15)
  | .vsar x => some (x.toWord 3 0x16)
  | .vcmp x => some (x.toWord 3 0x17)
  | .vsel x => some (x.toWord 3 0x18)
  | .vmsk x => some (x.toWord 3 0x19)
  | .vcnt x => some (x.toWord 3 0x1A)
  | .vcvt x => some (x.toWord 3 0x1B)
  | .vqnt x => some (x.toWord 3 0x1C)
  | .vdqt x => some (x.toWord 3 0x1D)
  | .vbcst x => some (x.toWord 3 0x1E)
  | .vmovg x => some (x.toWord 3 0x1F)
  | .viota x => some (x.toWord 3 0x20)
  | .vperm x => some (x.toWord 3 0x21)
  | .vscan x => some (x.toWord 3 0x22)
  | .vredadd x => some (x.toWord 3 0x23)
  | .vredmax x => some (x.toWord 3 0x24)
  | .vredmin x => some (x.toWord 3 0x25)
  | .vamax x => some (x.toWord 3 0x26)
  | .vtopk x => some (x.toWord 3 0x27)
  | .mma x => some (x.toWord 4 0x00)
  | .mmaz x => some (x.toWord 4 0x01)
  | .mzero x => some (x.toWord 4 0x02)
  | .mdrn x => some (x.toWord 4 0x03)
  | .mlda x => some (x.toWord 4 0x04)
  | .mscl x => some (x.toWord 4 0x05)
  | .cpy x => some (x.toWord 5 0x00)
  | .cpym x => some (x.toWord 5 0x01)
  | .cpyf x => some (x.toWord 5 0x02)
  | .rngini x => some (x.toWord 5 0x03)
  | .rngpop x => some (x.toWord 5 0x04)
  | .rngadv x => some (x.toWord 5 0x05)
  | .rngq x => some (x.toWord 5 0x06)
  | .rlck x => some (x.toWord 5 0x07)
  | .rfree x => some (x.toWord 5 0x08)
  | .barinit x => some (x.toWord 5 0x09)
  | .bararv x => some (x.toWord 5 0x0A)
  | .barwt x => some (x.toWord 5 0x0B)
  | .route x => some (x.toWord 5 0x0C)
  | .rtret x => some (x.toWord 5 0x0D)
  | .splini x => some (x.toWord 5 0x0E)
  | .splq x => some (x.toWord 5 0x0F)
  | .rxbind x => some (x.toWord 5 0x10)
  | .rxtake x => some (x.toWord 5 0x11)
  | .rxfree x => some (x.toWord 5 0x12)
  | .rxeos x => some (x.toWord 5 0x13)
  | .nop x => some (x.toWord 6 0x00)
  | .cuew x => some (x.toWord 6 0x01)
  | .cuecut x => some (x.toWord 6 0x02)
  | .cuerd x => some (x.toWord 6 0x03)
  | .cuesel x => some (x.toWord 6 0x04)
  | .cntw x => some (x.toWord 6 0x05)
  | .cntr x => some (x.toWord 6 0x06)
  | .spawn x => some (x.toWord 6 0x07)
  | .spawnr x => some (x.toWord 6 0x08)
  | .launch x => some (x.toWord 6 0x09)
  | .park x => some (x.toWord 6 0x0A)
  | .yield x => some (x.toWord 6 0x0B)
  | .exit x => some (x.toWord 6 0x0C)
  | .send x => some (x.toWord 6 0x0D)
  | .segw x => some (x.toWord 6 0x0E)
  | .segr x => some (x.toWord 6 0x0F)
  | .trap x => some (x.toWord 6 0x10)
  | .sysr x => some (x.toWord 6 0x11)
  | .sysw x => some (x.toWord 6 0x12)
  | .time x => some (x.toWord 6 0x13)
  | .evtr x => some (x.toWord 6 0x14)
  | .bkpt x => some (x.toWord 6 0x15)
  | .halt x => some (x.toWord 6 0x16)
  | .next _ => none
  | .call _ => none
  | .icall _ => none
  | .ret _ => none
  | .gate _ => none
  | .gret _ => none
  | .eret _ => none
  | .missTrap _ => none
  | .deferredEventTaken => none
  | .takeWork _ _ => none
  | .stealRequest _ _ _ => none
  | .stealAnswer _ => none
  | .pendingMove _ _ => none
  | .launchCompletion _ => none
  | .drainEnd _ _ => none
  | .spawnStatusFill _ _ => none
  | .pageFaultSave _ _ => none
  | .pageArrival _ _ => none
  | .preemptSave _ _ => none
  | .preemptDeadline _ _ => none
  | .domainSave _ _ => none
  | .quantumExpiry _ _ => none
  | .parkTimeout _ _ => none
  | .sendDelivery _ _ => none
  | .loadDataFill _ _ => none
  | .vectorResultLand _ _ _ => none
  | .copyStart _ _ => none
  | .copyRowRetire _ _ => none
  | .copyComplete _ _ => none
  | .followOnIssue _ _ => none
  | .matrixCommandStart _ _ => none
  | .matrixCommandRetire _ => none
  | .barrierArrivalApply _ => none
  | .bararvReply _ _ => none
  | .barwtWake _ _ => none
  | .barwtBoundExpiry _ _ => none
  | .l1WriteBack _ _ => none
  | .l1LineDrop _ _ => none
  | .translationMiss _ _ _ _ => none
  | .shootDown _ => none
  | .shootDownComplete _ => none
  | .pairSend _ _ => none
  | .rowArrival _ => none
  | .faultHoldResolve _ _ _ => none
  | .pageHandover _ _ => none
  | .queueTimeout _ _ => none
  | .eosArrival _ => none
  | .creditReturn _ => none
  | .returnApply _ => none
  | .rtretAck _ => none
  | .spliceComplete _ _ => none
  | .spliceTimeout _ _ => none
  | .peerReset _ _ => none
  | .resetAnnouncement _ _ => none
  | .clockStop _ => none
  | .clockRestart _ => none
  | .l1cfgWrite _ _ => none
  | .l1Reconfigure _ => none
  | .preqWrite _ _ => none
  | .hbankWrite _ _ _ _ => none
  | .rseedWrite _ _ _ => none
  | .partWrite _ _ _ _ => none
  | .plockWrite _ _ _ => none
  | .sealRestore _ _ _ => none
  | .keyRefresh _ => none
  | .measurementExtend _ _ => none
  | .attest _ _ _ => none
  | .ptcfgWrite _ => none
  | .pterrWrite => none
  | .tailWrite _ _ => none
  | .tailReread _ => none
  | .launchRecordTake _ => none
  | .loadRecordTake _ => none
  | .throttleStart _ => none
  | .throttleStep _ => none
  | .throttleEnd _ => none
  | .thermalTrip _ => none
  | .powerOnReset => none
  | .hostResetRequest => none
  | .pageRefusal _ _ => none
  | .limvonAccess _ => none
  | .barinitReply _ _ => none
  | .rxeosAck _ => none
  | .routeEntryWrite _ _ _ _ => none
  | .tokenPoolWrite _ _ _ _ => none
  | .flitCrcFailure _ => none
  | .cxlLinkFailure _ => none

/-! ### The decoder -/

/-- R65, R66: the instruction that the 64 bits of `w` hold, or the sub-code of the first condition
that makes the word illegal. A must-be-zero bit of the format is 0 exactly when the fields read give
the word again. -/
def decode (w : Word) : Except Nat Instr :=
  match select w with
  | .error sub => .error sub
  | .ok i =>
    match i.illegal with
    | some sub => .error sub
    | none => if encode i = some w then .ok i else .error 5

/-- The step that a cue's action names (R129); none for a reserved kind, a nonzero field marked 0 or
nonzero bits [23:0]. -/
def decodeCue (act : BitVec 128) : Option Instr :=
  let q : CueAct :=
    { wordA := act.extractLsb' 96 32, wordB := act.extractLsb' 64 32, nset := act.extractLsb' 56 8
      rset := act.extractLsb' 48 8, prm := act.extractLsb' 32 16, cnt := act.extractLsb' 24 4 }
  let i : Option Instr :=
    match (act.extractLsb' 28 4).toNat with
    | 0 => some (.next q)
    | 1 => some (.call q)
    | 2 => some (.icall q)
    | 3 => some (.ret q)
    | 4 => some (.gate q)
    | 5 => some (.gret q)
    | 6 => some (.eret q)
    | 7 => some (.missTrap q)
    | _ => none
  if act.extractLsb' 0 24 = 0 then i.filter (fun i => i.illegal == none) else none

/-- The 128-bit action of a cue kind and its fields (R128, R129). -/
def encodeCue (kind : BitVec 4) (q : CueAct) : BitVec 128 :=
  q.wordA.setWidth 128 <<< 96 ||| q.wordB.setWidth 128 <<< 64 ||| q.nset.setWidth 128 <<< 56
    ||| q.rset.setWidth 128 <<< 48 ||| q.prm.setWidth 128 <<< 32 ||| kind.setWidth 128 <<< 28
    ||| q.cnt.setWidth 128 <<< 24

/-- The instruction the decoder reads from the `nbits` bits of `w`. Every DW9 instruction is one
64-bit word (R45), so the bits above `nbits` are zero. -/
def decodeTableWord (nbits w : Nat) : Option Instr :=
  match decode (BitVec.ofNat 64 (w % 2 ^ nbits)) with
  | .ok i => some i
  | .error _ => none

end Sys2Proof
end

