-- ==== Sys2Proof/WellFormed.lean ====
section
/-! DEFINITION. When an instruction term is one that a word of the machine can hold (R65), a cue's
action one that the live table can hold (R129), and an event's numbers ones that exist. -/

namespace Sys2Proof

/-- R65, R129: no field breaks a rule of the opcode's entry. -/
def Instr.WellFormed (i : Instr) : Bool := i.illegal.isNone

end Sys2Proof
end

