-- ==== Sys2Proof/Machine/Ops.lean ====
section
/-! DEFINITION. The operations that the meanings share: fields of words, sparse tables, the cores and
their threads, partitions, the fills of g registers, taking a trap (R337, R338) and returning from one
(R339), and the monad of an instruction's effect. -/

namespace Sys2Proof.Machine

/-! ### Fields, bytes and vectors -/

/-- `w[lo + len - 1 : lo]` as a number (R4). -/
def fld {n : Nat} (w : BitVec n) (lo len : Nat) : Nat := (w.extractLsb' lo len).toNat

/-- `w` with the field `[lo + len - 1 : lo]` set to the low bits of `x`. -/
def setFld {n : Nat} (w : BitVec n) (lo len x : Nat) : BitVec n :=
  (w &&& ~~~(BitVec.ofNat n (2 ^ len - 1) <<< lo)) ||| BitVec.ofNat n (x % 2 ^ len) <<< lo

/-- `n` bytes of a value, the lowest first (R5). -/
def leBytes (n v : Nat) : List Byte := (List.range n).map fun i => BitVec.ofNat 8 (v >>> (8 * i))

/-- The value of bytes, the lowest first (R5). -/
def ofLe (bs : List Byte) : Nat := bs.foldr (fun b a => b.toNat + 256 * a) 0

def word (n : Nat) : Word := BitVec.ofNat 64 n

/-- The i-th element, or `d` beyond the end. -/
def rd {α : Type} {n : Nat} (v : Vector α n) (i : Nat) (d : α) : α := if h : i < n then v[i] else d

/-- The i-th element replaced; nothing beyond the end. -/
def wr {α : Type} {n : Nat} (v : Vector α n) (i : Nat) (x : α) : Vector α n := v.setIfInBounds i x

/-! ### Sparse tables -/

/-- The entry of key `k`, or the default `d`. -/
def Tab.get {α : Type} (d : α) : Tab α → Nat → α
  | [], _ => d
  | (j, x) :: r, k => if j = k then x else Tab.get d r k

/-- The table without key `k`. -/
def Tab.erase {α : Type} (t : Tab α) (k : Nat) : Tab α := t.filter fun e => e.1 != k

/-- `(k, v)` placed before the first greater key. -/
def Tab.ins {α : Type} (k : Nat) (v : α) : Tab α → Tab α
  | [] => [(k, v)]
  | (j, x) :: r => if k < j then (k, v) :: (j, x) :: r else (j, x) :: Tab.ins k v r

/-- The table with `v` at `k`, whatever `v` is. -/
def Tab.put {α : Type} (t : Tab α) (k : Nat) (v : α) : Tab α := (t.erase k).ins k v

/-- The table with `v` at `k`; an entry equal to the default `d` is not listed. -/
def Tab.set {α : Type} [DecidableEq α] (d : α) (t : Tab α) (k : Nat) (v : α) : Tab α :=
  if v = d then t.erase k else t.put k v

/-- The canonical form: keys strictly rising, no entry equal to the default. -/
def Tab.wf {α : Type} [DecidableEq α] (d : α) (t : Tab α) : Bool :=
  decide (t.Pairwise fun a b => a.1 < b.1) && t.all fun e => decide (e.2 ≠ d)

/-- The least index of `0 .. n - 1` for which `p` holds. -/
def firstIx (n : Nat) (p : Nat → Bool) : Option Nat := (List.range n).find? p

/-! ### Cores, slots and threads -/

/-- Core `c`; a core that no step has touched is as the boot ROM leaves it (R398), its cycles counted from
reset (R20). -/
def State.core (s : State) (c : Nat) : Core := Tab.get { Core.boot with cycle := s.halfNs } s.cores c

def State.setCore (s : State) (c : Nat) (x : Core) : State := { s with cores := Tab.put s.cores c x }

def State.modCore (s : State) (c : Nat) (f : Core → Core) : State := s.setCore c (f (s.core c))

/-- The slot whose cycle it is (R20). -/
def Core.turnSlot (k : Core) : Nat := k.cycle % 8

/-- The turn of the core's cycle (R3). -/
def Core.turn (k : Core) : Nat := k.cycle / 8

def Core.slot (k : Core) (i : Nat) : Slot := rd k.slots i {}

def Core.threadAt (k : Core) (i : Nat) : Option Thread := (k.slot i).thread

def Core.setSlot (k : Core) (i : Nat) (x : Slot) : Core := { k with slots := wr k.slots i x }

def Core.setThread (k : Core) (i : Nat) (t : Option Thread) : Core :=
  k.setSlot i { k.slot i with thread := t }

def Core.modThread (k : Core) (i : Nat) (f : Thread → Thread) : Core :=
  k.setThread i ((k.threadAt i).map f)

/-- The core whose cycle it is, and the thread on the slot whose cycle it is. -/
def State.me (s : State) : Core := s.core s.cur

def State.thread? (s : State) : Option Thread := s.me.threadAt s.me.turnSlot

def State.thread (s : State) : Thread := s.thread?.getD {}

def State.modMe (s : State) (f : Core → Core) : State := s.modCore s.cur f

def State.modThread (s : State) (f : Thread → Thread) : State :=
  s.modMe fun k => k.modThread k.turnSlot f

/-- Die, cluster in the die, package cluster of a core number (R13, R258). -/
def dieOf (core : Nat) : Nat := core / 256
def clusterOf (core : Nat) : Nat := core / 16

/-- A range-free identity number for a thread, a command or a launch. -/
def State.fresh (s : State) : Nat × State := (s.nextId, { s with nextId := s.nextId + 1 })

/-- The slot of core `k` on which thread `tid` runs. -/
def Core.slotOf (k : Core) (tid : Nat) : Option Nat :=
  firstIx 8 fun i => (k.threadAt i).any fun t => t.tid == tid

/-- The event `code` is counted at the end of the cycle (R394). -/
def Core.count (k : Core) (code : Nat) (slot : Option Nat) (dom n : Nat) : Core :=
  if n = 0 then k else { k with tally := (code, slot, dom, n) :: k.tally }

/-! ### Partitions (R356 to R359) -/

def Core.slotMask (k : Core) (d : Nat) : Nat := fld (Tab.get 0 k.part0 d) 0 8
/-- R356: the domain has a slot on the core. -/
def Core.present (k : Core) (d : Nat) : Bool := k.slotMask d != 0
/-- The domain to which the map gives slot `i` (R67). -/
def Core.slotDom (k : Core) (i : Nat) : Option Nat :=
  ((k.part0.find? fun e => (fld e.2 0 8).testBit i).map (·.1))
def Core.hbank (k : Core) (d : Nat) : Nat := fld (Tab.get 0 k.part0 d) 8 3
def Core.accMask (k : Core) (d : Nat) : Nat := fld (Tab.get 0 k.part0 d) 12 4
def Core.bankBase (k : Core) (d : Nat) : Nat := fld (Tab.get 0 k.part0 d) 16 6
def Core.bankCount (k : Core) (d : Nat) : Nat := fld (Tab.get 0 k.part0 d) 22 6
def Core.cueBase (k : Core) (d : Nat) : Nat := fld (Tab.get 0 k.part0 d) 32 10
def Core.cueCount (k : Core) (d : Nat) : Nat := fld (Tab.get 0 k.part0 d) 42 11
def Core.cueQuota (k : Core) (d : Nat) : Nat := fld (Tab.get 0 k.part0 d) 53 7
def Core.rangeQuota (k : Core) (d : Nat) : Nat := fld (Tab.get 0 k.part1 d) 0 6
def Core.ringBase (k : Core) (d : Nat) : Nat := fld (Tab.get 0 k.part1 d) 8 4
def Core.ringCount (k : Core) (d : Nat) : Nat := fld (Tab.get 0 k.part1 d) 12 5
def Core.splBase (k : Core) (d : Nat) : Nat := fld (Tab.get 0 k.part1 d) 20 4
def Core.splCount (k : Core) (d : Nat) : Nat := fld (Tab.get 0 k.part1 d) 24 5
def Core.rxBase (k : Core) (d : Nat) : Nat := fld (Tab.get 0 k.part1 d) 32 4
def Core.rxCount (k : Core) (d : Nat) : Nat := fld (Tab.get 0 k.part1 d) 36 5
def Core.copyShare (k : Core) (d : Nat) : Nat := fld (Tab.get 0 k.part1 d) 44 5
def Core.matShare (k : Core) (d : Nat) : Nat := fld (Tab.get 0 k.part1 d) 49 4
def Core.dequeShare (k : Core) (d : Nat) : Nat := fld (Tab.get 0 k.part1 d) 53 7
def Core.quantum (k : Core) (d : Nat) : Nat := fld (Tab.get 1048576 k.quant d) 0 32

/-- `i` lies in `base .. base + count - 1`. -/
def inRange (i base count : Nat) : Bool := base ≤ i && i < base + count

def Core.hasRing (k : Core) (d i : Nat) : Bool := inRange i (k.ringBase d) (k.ringCount d)
def Core.hasSplice (k : Core) (d i : Nat) : Bool := inRange i (k.splBase d) (k.splCount d)
def Core.hasQueue (k : Core) (d i : Nat) : Bool := inRange i (k.rxBase d) (k.rxCount d)
def Core.hasAcc (k : Core) (d i : Nat) : Bool := (k.accMask d).testBit i

/-- R344: a save of the whole domain has begun on the core. -/
def Core.saving (k : Core) (d : Byte) : Bool := k.preqDom.contains d.toNat

/-- R74: a sequence of steal requests of the domain that has ended, with a record or with every core empty, starts
again. -/
def Core.askAgain (k : Core) (d : Nat) : Core :=
  { k with steals := k.steals.filter fun x => !(x.left.isEmpty && x.asked.isNone && x.dom.toNat == d) }

/-- R201: L1CFG is about to change the banks: from this cycle on no slot of the core issues and no thread is saved. -/
def Core.l1Stop (k : Core) : Bool := k.lbPend.any fun p => p.2 ≤ k.cycle

/-- No slot of the core issues: its pipeline clock is stopped (R355), or L1CFG is about to change its banks (R201). -/
def Core.shut (k : Core) : Bool := k.stopped || k.l1Stop

/-! ### Rings that a command names (R24, R206) -/

/-- The copy's destination ring, and the same where its slots are still the domain's to take. -/
def Copy.toRing (c : Copy) : Option Nat := if c.blk.ctl.getLsbD 3 then some (fld c.blk.ctl 4 4) else none
def Copy.ring? (c : Copy) : Option Nat := if c.lost then none else c.toRing

/-- The rings that a copy command names: its destination, and those of its follow-on (R225). -/
def Copy.names (c : Copy) (r : Nat) : Bool :=
  c.ring? == some r || c.follow.any fun w => fld w 22 4 == r || fld w 18 4 == r

/-- A matrix command that names a ring. -/
def MatCmd.names (c : MatCmd) (r : Nat) : Bool :=
  match c.op with
  | .mma _ ra rb .. => !c.lost && (ra == r || rb == r)
  | _ => false

/-- R24: ring `r` is now domain `d`'s, or nobody's for none: what another domain's commands hold of it is theirs no
longer (log 22). -/
def Core.loseRing (k : Core) (d : Option Nat) (r : Nat) : Core :=
  { k with
    copies := k.copies.map fun c => if c.toRing == some r && d != some c.t.dom.toNat then { c with lost := true } else c
    mats := k.mats.map fun m => if m.names r && d != some m.t.dom.toNat then { m with lost := true } else m }

/-- R209: the command's entries are freed. -/
def Core.freeRanges (k : Core) (id : Nat) : Core :=
  { k with ranges := k.ranges.filter fun e => e.2.owner != .command id }

/-! ### The effect of an instruction -/

/-- How an instruction's effect can end before its end: a precise trap (R10), a wait that leaves
everything as it was (R68, R97) and that an event of R395 counts, a page fault (R80, R81), or a stop of the
model. -/
inductive Stop where
  | trap (cause sub : Nat) (det0 det1 : Word)
  | wait (code : Nat)
  | pageFault (va : Nat) (write : Bool)
  | stop (f : Fault)
  deriving DecidableEq, Repr

/-- The effect of an instruction on the state. One that stops tells the state in which it stopped: what its
translations have done stands (`State.trail`). -/
abbrev M (α : Type) := StateT State (Except (Stop × State)) α

def raise {α : Type} (cause sub : Nat) (det0 det1 : Word := 0) : M α :=
  fun s => .error (.trap cause sub det0 det1, s)

def waitHere {α : Type} (code : Nat) : M α := fun s => .error (.wait code, s)

/-- A trap unless `b`. -/
def need (b : Bool) (cause sub : Nat) (det0 det1 : Word := 0) : M Unit :=
  if b then pure () else raise cause sub det0 det1

/-- A wait unless `b` (R68). The code is the event of R395 that counts it: 3 for a g register, 4 for a port,
22 for range entries; 255 counts nothing. -/
def waitFor (b : Bool) (code : Nat := 255) : M Unit := if b then pure () else waitHere code

def core : M Core := fun s => .ok (s.me, s)
def modMe (f : Core → Core) : M Unit := fun s => .ok ((), s.modMe f)
def thread : M Thread := fun s => .ok (s.thread, s)
def modThread (f : Thread → Thread) : M Unit := fun s => .ok ((), s.modThread f)
def fresh : M Nat := fun s => .ok (s.nextId, { s with nextId := s.nextId + 1 })

/-- Events of R395 that the instruction's slot causes. -/
def tally (code n : Nat) : M Unit := fun s =>
  .ok ((), s.modMe fun k => k.count code (some k.turnSlot) s.thread.dom.toNat n)

/-! ### Fills (R96, R98) -/

/-- The thread with gd written and full; d = g0 keeps nothing (R49). -/
def Thread.setG (t : Thread) (d : Nat) (v : Word) : Thread :=
  if d = 0 then t else { t with g := wr t.g d v, full := t.full ||| BitVec.ofNat 32 (2 ^ d) }

/-- Empty(d) (R9). -/
def Thread.emptyG (t : Thread) (d : Nat) : Thread :=
  if d = 0 then t else { t with full := t.full &&& ~~~BitVec.ofNat 32 (2 ^ d) }

/-- gd is full; g0 is never empty (R49). -/
def Thread.isFull (t : Thread) (d : Nat) : Bool := d == 0 || t.full.getLsbD d

def emptyG (d : Nat) : M Unit := modThread (·.emptyG d)

/-- Physical bytes written by the hardware, the lowest first (R5). -/
def State.wrRaw (s : State) (pa : Nat) : List Byte → State
  | [] => s
  | b :: bs => { s with mem := Tab.set 0 s.mem pa b }.wrRaw (pa + 1) bs

def State.rdRaw (s : State) (pa n : Nat) : List Byte :=
  (List.range n).map fun i => Tab.get 0 s.mem (pa + i)

/-- A word that the hardware reads in physical memory. -/
def State.rdWord (s : State) (pa : Nat) : Word := word (ofLe (s.rdRaw pa 8))

def State.wrWord (s : State) (pa : Nat) (v : Word) : State := s.wrRaw pa (leBytes 8 v.toNat)

/-- R258: the agent sets accessed, and dirty for a write, in word 2 of the entry. -/
def State.markEntry (s : State) (e : Nat) (write : Bool) : State :=
  s.wrWord (e + 16) (s.rdWord (e + 16) ||| (if write then 3 else 1))

/-- A status on its way to a register (R96): it lands by LOAD_DATA_FILL or at its due cycle. -/
def Core.addFill (k : Core) (f : Fill) : Core := { k with fills := k.fills ++ [f] }

/-! ### Set numbers (R120) -/

def Ctx.coreSet (x : Ctx) (obj : Nat) : Option Nat := (x.setMap.find? (·.1 == obj)).map (·.2)
/-- The object's number of a core set; 0 for a set that the context's map does not hold (log 42). -/
def Ctx.objSet (x : Ctx) (set : Nat) : Nat := ((x.setMap.find? (·.2 == set)).map (·.1)).getD 0
def State.ctx (s : State) (h : Nat) : Ctx := Tab.get {} s.ctxs h

/-! ### Taking a trap and returning from one (R334 to R339) -/

/-- The resume kind of a cause (R334): reissue 0, after 1, lookup 2. -/
def trapKind (cause sub : Nat) : Nat :=
  if cause = 19 || (cause = 20 && sub = 1) then 1 else if 11 ≤ cause && cause ≤ 15 then 2 else 0

/-- R363: the causes that also send a notice to domain 0. -/
def domainFault (cause sub : Nat) : Bool :=
  (cause == 5 && sub == 3) || (cause == 6 && sub == 2) || (cause == 2 && sub == 2) || cause == 13
    || (cause == 17 && (sub == 2 || sub == 8 || sub == 11 || sub == 14 || sub == 17))

/-- A message appended to a port (R101): none when the port is full. -/
def Thread.push (t : Thread) (port : Nat) (x : Msg) : Option Thread :=
  if (rd t.q port []).length < 4 then some { t with q := wr t.q port (rd t.q port [] ++ [x]) } else none

/-- R364: the notice of core `c` to the slot and port that domain 0's PLOCK names; dropped where no
thread of domain 0 is there or the port is full. It reaches the port in the step of what it tells of: the spec gives it
no time (log 43). -/
def State.notice (s : State) (c dom cause sub slot : Nat) (taddr : Word) : State :=
  let k := s.core c
  let dst := Tab.get 0 k.plock 0
  let tc := fld dst 5 10
  let tk := s.core tc
  let i := fld dst 2 3
  let val : Word := word (dom <<< 56 ||| cause <<< 48 ||| sub <<< 40 |||
    (if k.noticeLost then 1 else 0) <<< 39 ||| slot <<< 32 ||| fld taddr 0 32)
  match (tk.threadAt i).filter (·.dom == 0) |>.bind (·.push (fld dst 0 2) ⟨val, 0xD0⟩) with
  | some t => (s.setCore tc (tk.setThread i (some t))).modCore c ({ · with noticeLost := false })
  | none => s.setCore c { k with noticeLost := true }

/-- R364, R373: the packet of an access of core `c` is discarded: domain 0 gets a notice with cause 10. -/
def State.packetLost (s : State) (c dom slot : Nat) (taddr : Word) : State :=
  { s with tampered := s.tampered.erase c }.notice c dom 10 0 slot taddr

/-- R96, R98, R91: the fill of gd of thread `tid` of core `c`: in its slot, in its context frame, or
discarded where the thread has ended. A packet to the frame that fails takes the fill with it (R373; log 35). -/
def State.fillG (s : State) (c tid d : Nat) (v : Word) : State :=
  let k := s.core c
  match k.slotOf tid with
  | some i => s.setCore c (k.modThread i (·.setG d v))
  | none =>
    match k.saved.find? (·.thread.tid == tid) with
    | some f =>
      if d = 0 then s
      else if s.tampered.contains c then s.packetLost c f.thread.dom.toNat 0 0
      else
        let m := ofLe (s.rdRaw (f.frame + 0x200) 8)
        (s.wrRaw (f.frame + 0x100 + 8 * d) (leBytes 8 v.toNat)).wrRaw (f.frame + 0x200) (leBytes 8 (m ||| 2 ^ d))
    | none => s

/-- R337: the trap registers of a thread that takes a trap. `rword` is the thread's word: the trapping
word, or the word that ended the shot. -/
def Thread.trapRegs (t : Thread) (cause sub : Nat) (taddr det0 det1 : Word) (kind set : Nat) : Thread :=
  { t with
    tcause := word (cause ||| sub <<< 8)
    taddr := taddr
    tdet0 := det0
    tdet1 := det1
    tret := t.pc.setWidth 64 ||| t.prm.setWidth 64 <<< 32 ||| word set <<< 48 ||| word kind <<< 54
      ||| 1 <<< 56 ||| (if cause = 20 ∧ sub = 2 then 1 <<< 57 else 0) }

/-- The context of the thread names a handler (R337). -/
def Thread.hasHandler (t : Thread) : Bool := fld t.hndl 0 32 != 0xFFFFFFFF

/-- R338: the thread ends as EXIT with the double trap's value. -/
def Thread.double (t : Thread) (cause sub : Nat) : Thread :=
  { t with status := .exiting (0x8000000000000000 ||| word (cause ||| sub <<< 8)) }

/-- TPEND of pending events: bit `b` for each kind below 6; 6 is a gate's failure, which no bit shows. -/
def pendBits (es : List (Nat × Word × Word × Word × Word)) : Word :=
  es.foldl (fun w e => if e.1 < 6 then w ||| word (2 ^ e.1) else w) 0

def Thread.setEvents (t : Thread) (es : List (Nat × Word × Word × Word × Word)) : Thread :=
  { t with tpend := pendBits es, events := es }

/-- An event recorded in TPEND with its cause, address and details (R336). -/
def Thread.pendEvent (t : Thread) (bit : Nat) (cause sub : Nat) (taddr d0 d1 : Word) : Thread :=
  t.setEvents (t.events ++ [(bit, word (cause ||| sub <<< 8), taddr, d0, d1)])

/-- R337: the thread enters its handler: prm holds the cause, the current set is HNDL's, the next word
is the handler shot, which issues no earlier than two turns after the trap's cycle. -/
def Thread.enter (t : Thread) (cause sub set cycle : Nat) : Thread :=
  { t with
    status := .running
    prm := BitVec.ofNat 16 (cause ||| sub <<< 8)
    cset := set
    pc := BitVec.ofNat 32 (fld t.hndl 0 32)
    atLookup := false
    first := true
    retFirst := t.first
    chosen := false
    yield := false
    skipBp := false
    holdUntil := cycle + 16 }

/-- R337, R338: Take. A trap in a handler, or with no handler, is a double trap. -/
def State.take (s : State) (cause sub : Nat) (taddr det0 det1 : Word) (kind : Nat) : State :=
  let t := s.thread
  let x := s.ctx t.ctx
  let set := (x.coreSet (fld t.hndl 32 6)).getD 0
  let regs := t.trapRegs cause sub taddr det0 det1 kind (x.objSet t.cset)
  let t' := if t.tret.getLsbD 56 then t.double cause sub
    else if t.hasHandler then regs.enter cause sub set s.me.cycle
    else regs.double cause sub
  let s1 := (s.modThread fun _ => { t' with refused := none }).modMe fun k =>
    (k.count 11 (some k.turnSlot) t.dom.toNat 1).count (if cause = 11 then 10 else if cause = 7 then 21 else 255)
      none t.dom.toNat 1
  if domainFault cause sub then s1.notice s.cur t.dom.toNat cause sub s.me.turnSlot taddr else s1

/-- The address of the causing word (R350): words from s0's base. -/
def Thread.taddrNow (t : Thread) : Word := t.pc.setWidth 64

/-- R339: the thread leaves its handler: prm and the current set are those of TRET, inh and sbp clear;
the next word or lookup is the one that the kind names. `lastE` says whether TRET's word has E = 1. -/
def Thread.leave (t : Thread) (set : Nat) (lastE : Bool) : Thread :=
  let kind := fld t.tret 54 2
  let w := BitVec.ofNat 32 (fld t.tret 0 32)
  { t with
    prm := BitVec.ofNat 16 (fld t.tret 32 16)
    cset := set
    skipBp := kind == 0 && t.tret.getLsbD 57
    pc := if kind = 1 ∧ lastE = false then w + 1 else w
    atLookup := kind == 2 || (kind == 1 && lastE)
    first := kind == 0 && t.retFirst
    chosen := false
    tret := setFld (setFld t.tret 56 1 0) 57 1 0 }

/-! ### Page faults (R80, R81) and the runner -/

/-- R80, R81: a page fault of the issuing thread: a task waits for its save, a resident program stalls;
the fault is reported to the supervisor. -/
def State.pageFault (s : State) (va : Nat) (write : Bool) : State :=
  let t := s.thread
  let s1 := s.modThread fun t =>
    { t with status := if t.resident then .stalled va write else .faulted va write }
  { s1 with reports := s1.reports ++ [(t.dom.toNat, va / 65536)] }
    |>.modMe fun k => k.count 19 none t.dom.toNat 1

/-- After its effect an instruction leaves its slot's next W turns unused, and the next word or the
lookup follows (R47, R48). -/
def Thread.advance (e : Bool) (w : BitVec 4) (t : Thread) : Thread :=
  { t with
    pc := if e then t.pc else t.pc + 1
    atLookup := e
    first := false
    wskip := w.toNat
    chosen := false
    skipBp := false }

/-- The state in which the issuing slot is running: where an effect begins. -/
def State.started (s : State) : State := s.modThread fun t => { t with status := .running }

/-- The slot waits: nothing else has changed (R68); an event of R395 counts the cycle. -/
def State.waits (s : State) (code : Nat) : State :=
  (s.modThread fun t => { t with status := .waiting }).modMe fun k =>
    k.count code (some k.turnSlot) s.thread.dom.toNat 1

/-- The translations of the core's port in `a` that `s` does not hold. -/
def State.newXlats (s a : State) : List Tlb :=
  (Tab.get [] a.tlb (clusterOf s.cur)).filter (· ∉ Tab.get [] s.tlb (clusterOf s.cur))

/-- The cycle's events of `s` with the translation misses and the page faults that `a` counts beside them (R395). -/
def Core.missesOf (k a : Core) : Core :=
  { k with tally := (a.tally.take (a.tally.length - k.tally.length)).filter (fun e => e.1 == 18 || e.1 == 19) ++ k.tally }

/-- What the translations of an effect that stopped in `a` leave in the state before it: the table error that a
search has recorded (R256), the translations that the port now holds, with the marks of their entries (R258, R259),
and the misses and page faults counted (R395). -/
def State.trail (s a : State) : State :=
  if a.pterr = s.pterr ∧ a.tlb = s.tlb ∧ a.me.tally = s.me.tally then s
  else
    let s1 := (s.newXlats a).foldl (fun s t => s.markEntry t.ent t.dirtied) s
    { s1 with pterr := a.pterr, tlb := a.tlb }.modMe (·.missesOf a.me)

/-- What becomes of an issue that stops: a trap is taken from the state before it (R10), a wait leaves that
state with the slot waiting (R68). -/
def State.stopped (s : State) : Stop → Host.Outcome State Fault Refusal
  | .trap cause sub d0 d1 =>
    .next (s.started.take cause sub s.started.thread.taddrNow d0 d1
      (if s.started.thread.atLookup then 2 else trapKind cause sub))
  | .wait code => .next (s.waits code)
  | .pageFault va w => .next (s.started.pageFault va w)
  | .stop f => .fault f

/-- The outcome of an effect that began in `s.started`. -/
def State.settle (s : State) : Except (Stop × State) (Unit × State) → Host.Outcome State Fault Refusal
  | .ok (_, s') => .next s'
  | .error (e, a) => (s.trail a).stopped e

def State.perform (s : State) (m : M Unit) : Host.Outcome State Fault Refusal := s.settle (m s.started)

/-- R47, R48: an instruction with fields E and W issues: its effect, then the advance. On a slot with no
thread nothing issues. -/
def State.instr (s : State) (e : Bool) (w : BitVec 4) (m : M Unit) : Host.Outcome State Fault Refusal :=
  match s.thread? with
  | none => .next s
  | some _ => s.perform do
    m
    Machine.modThread fun t => t.advance e w

/-- A lookup's chosen cue, or an event at the slot's issue point: an effect with no advance. -/
def State.atPoint (s : State) (m : M Unit) : Host.Outcome State Fault Refusal :=
  match s.thread? with
  | none => .next s
  | some _ => s.perform m

end Sys2Proof.Machine
end

