-- ==== Sys2Proof/Machine/Operands.lean ====
section
/-! DEFINITION. The operand forms: scalar specifiers as sources and destinations (R49, R50), vector and
mask registers with their pending results (R107, R108). -/

namespace Sys2Proof.Machine

/-! ### Scalar sources (R49, R50) -/

/-- who (R103). -/
def whoWord (dom core slot : Nat) : Word := word (dom <<< 16 ||| core <<< 5 ||| slot <<< 2)

/-- How many of the fields name port `p`. -/
def portUses (ss : List Spec) (p : Nat) : Nat := ss.countP fun s => s.toNat == 48 + p

/-- R49, R50: no g register among the sources is empty, and every port holds the messages named. -/
def Thread.srcReady (t : Thread) (ss : List Spec) : Bool :=
  ss.all (fun s => 32 ≤ s.toNat || t.isFull s.toNat)
    && (List.range 4).all fun p => portUses ss p ≤ (rd t.q p []).length

/-- The value of one source, and the thread after it: a port loses its oldest message and sets tag
(R50, R101). `bank` is the domain's h bank as it stood at the end of the turn before (R100). -/
def Thread.readSrc (t : Thread) (bank : Vector Word 16) (who : Word) (sp : Spec) : Word × Thread :=
  let n := sp.toNat
  if n < 32 then (if n = 0 then 0 else rd t.g n 0, t)
  else if n < 48 then (rd bank (n - 32) 0, t)
  else if n < 52 then
    match rd t.q (n - 48) [] with
    | [] => (0, t)
    | x :: r => (x.value, { t with q := wr t.q (n - 48) r, tag := x.tag })
  else if n = 52 then (t.ident.ex.setWidth 64, t)
  else if n = 53 then (t.ident.ey.setWidth 64, t)
  else if n = 54 then (t.ident.ez.setWidth 64, t)
  else if n = 55 then (t.ident.ox.setWidth 64, t)
  else if n = 56 then (t.ident.oy.setWidth 64, t)
  else if n = 57 then (t.ident.oz.setWidth 64, t)
  else if n = 58 then (t.ident.stg.setWidth 64, t)
  else if n = 59 then (who, t)
  else if n = 60 then (t.prm.setWidth 64, t)
  else (t.tag.setWidth 64, t)

/-- The values of the sources in order (R50); a `tag` behind a port of the same instruction reads the tag of the
message that the port gave (log 36). -/
def Thread.readSrcs (t : Thread) (bank : Vector Word 16) (who : Word) : List Spec → List Word × Thread
  | [] => ([], t)
  | sp :: r =>
    let (v, t1) := t.readSrc bank who sp
    let (vs, t2) := t1.readSrcs bank who r
    (v :: vs, t2)

/-- The h bank that a domain's specifiers reach on a core (R99). -/
def Core.bankOf (k : Core) (dom : Nat) : Vector Word 16 := rd k.h (k.hbank dom) (Vector.replicate 16 0)

/-- Reads the sources: waits until all are ready, then takes their values (R49, R50). -/
def srcs (ss : List Spec) : M (List Word) := fun s =>
  let t := s.thread
  if t.srcReady ss then
    let k := s.me
    let (vs, t') := t.readSrcs (k.bankOf t.dom.toNat) (whoWord t.dom.toNat s.cur k.turnSlot) ss
    .ok (vs, s.modThread fun _ => t')
  else .error (.wait (if ss.all fun x => 32 ≤ x.toNat || t.isFull x.toNat then 4 else 3), s)

/-- The i-th value read. -/
def arg (vs : List Word) (i : Nat) : Word := vs.getD i 0

def src (a : Spec) : M Word := do return arg (← srcs [a]) 0

/-! ### Scalar destinations (R49, R96, R97, R100) -/

/-- R97: the instruction waits while a g register that it writes or empties is empty. -/
def waitDst (d : Spec) : M Unit := do
  let t ← thread
  waitFor (32 ≤ d.toNat || t.isFull d.toNat) 3

/-- A scalar result: g at once, h at the end of the turn in issue order, g0 nothing. -/
def State.write (s : State) (d : Spec) (v : Word) : State :=
  if d.toNat < 32 then s.modThread fun t => t.setG d.toNat v
  else if d.toNat < 48 then
    s.modMe fun k => { k with hPend := k.hPend ++ [(k.hbank s.thread.dom.toNat, d.toNat - 32, v)] }
  else s

def write (d : Spec) (v : Word) : M Unit := fun s => .ok ((), s.write d v)

/-! ### Vector and mask registers (R107, R108, R170) -/

/-- Lane `i` of a vector register (R170). -/
def lane (v : BitVec 2048) (i : Nat) : BitVec 32 := v.extractLsb' (32 * i) 32

/-- The register of 64 lanes. -/
def ofLanes (l : List (BitVec 32)) : BitVec 2048 :=
  l.foldr (fun x a => a <<< 32 ||| x.setWidth 2048) 0

/-- All lanes, lane 0 first. -/
def lanes (v : BitVec 2048) : List (BitVec 32) := (List.range 64).map (lane v)

/-- The bits of the lanes of a mask. -/
def laneBits (m : BitVec 64) : BitVec 2048 :=
  ofLanes ((List.range 64).map fun i => if m.getLsbD i then BitVec.allOnes 32 else 0)

/-- R108: under WCHK a register with a pending result traps its reader or writer. -/
def checkPend (reg : Nat) : M Unit := do
  let t ← thread
  need (!(t.cfg.getLsbD 0 && t.pend.any fun p => p.reg == reg)) 3 0

def readV (r : Spec) : M (BitVec 2048) := do
  checkPend r.toNat
  return rd (← thread).v r.toNat 0

def readM (r : Nat) : M (BitVec 64) := do
  checkPend (16 + r)
  return rd (← thread).m r 0

/-- The contents with the bits outside `keep` kept. -/
def blend (old new keep : BitVec 2048) : BitVec 2048 := (old &&& ~~~keep) ||| (new &&& keep)

/-- A pending result is written (R107): registers 0 to 15 are v, 16 to 19 are m. -/
def Thread.land (t : Thread) (p : Pending) : Thread :=
  if p.reg < 16 then { t with v := wr t.v p.reg (blend (rd t.v p.reg 0) p.value p.keep) }
  else
    let old := (rd t.m (p.reg - 16) 0).setWidth 2048
    { t with m := wr t.m (p.reg - 16) ((blend old p.value p.keep).setWidth 64) }

/-- The pending results that are due by a cycle are written, in issue order: of two that are written in one
cycle the later-issued is kept (R107, R108). -/
def Thread.landDue (t : Thread) (cycle : Nat) : Thread :=
  { (t.pend.filter (·.due ≤ cycle)).foldl Thread.land t with pend := t.pend.filter fun p => !(p.due ≤ cycle) }

/-- A result joins the pending ones. One with no wait is written at the end of this turn, before which the slot
issues nothing more: it is written at once, after every earlier result that is due by then (R107, R108). -/
def Thread.addResult (t : Thread) (wmin : Nat) (p : Pending) : Thread :=
  if wmin = 0 then (t.landDue p.due).land p else { t with pend := t.pend ++ [p] }

/-- R107: the result of a class 3 instruction with minimum wait `wmin` is written at the end of turn t + wmin. -/
def result (wmin reg : Nat) (value keep : BitVec 2048) : M Unit := do
  let k ← core
  modThread (·.addResult wmin { reg, due := 8 * (k.turn + wmin + 1), value, keep })

end Sys2Proof.Machine
end

