-- ==== Sys2Proof/Machine/Flags.lean ====
section
/-! DEFINITION. Sign extension, flags and conditions (R59, R105): the conditions of compares and the writing of flags. -/

namespace Sys2Proof.Machine

/-- R59: the condition `c` of A and B, under a strict order. -/
def condOf (c : Nat) (eq lt : Bool) : Bool :=
  match c with
  | 0 => eq
  | 1 => !eq
  | 2 => lt
  | 3 => lt || eq
  | 4 => !(lt || eq)
  | 5 => !lt
  | 6 => true
  | _ => false

def condS (c : BitVec 3) (a b : Word) : Bool := condOf c.toNat (a == b) (a.slt b)
def condU (c : BitVec 3) (a b : Word) : Bool := condOf c.toNat (a == b) (a.ult b)

/-- Flag `n` of the thread (R105). -/
def Thread.flag (t : Thread) (n : Nat) : Bool := t.f.getLsbD n

/-- The thread with flag `n` written; no other flag changes (R105). -/
def Thread.setFlag (t : Thread) (n : Nat) (b : Bool) : Thread :=
  { t with f := setFld t.f n 1 (if b then 1 else 0) }

def setFlag (n : BitVec 3) (b : Bool) : M Unit := modThread (·.setFlag n.toNat b)

/-- A value of `n` bytes extended to 64 bits. -/
def extend (n : Nat) (sx : Bool) (v : Nat) : Word :=
  if sx then (BitVec.ofNat (8 * n) v).signExtend 64 else word v

end Sys2Proof.Machine
end

