-- ==== Sys2Proof/Machine/Float.lean ====
section
/-! DEFINITION. Number formats (R154 to R168): exact values, their rounding under R162 and R163, the
shared-grain blocks of R158 to R161, FMax and the stochastic generator. -/

namespace Sys2Proof.Machine

/-- An exact value, or a special one: a finite value is n / d with d > 0, and keeps the sign of zero. -/
inductive FV where
  | nan
  | inf (neg : Bool)
  | fin (neg : Bool) (n d : Nat)
  deriving DecidableEq, Repr

/-- A binary format (R154): the bits of its significand with the hidden one, and of its exponent. -/
structure Fmt where
  p : Nat
  e : Nat
  deriving DecidableEq, Repr

def fmtF32 : Fmt := ⟨24, 8⟩
def fmtBf16 : Fmt := ⟨8, 8⟩
def fmtF16 : Fmt := ⟨11, 5⟩

/-- The format of a type code (R56): f32 0, bf16 1, f16 2. -/
def fmtOf (ty : Nat) : Fmt := if ty = 0 then fmtF32 else if ty = 1 then fmtBf16 else fmtF16

def Fmt.bias (f : Fmt) : Nat := 2 ^ (f.e - 1) - 1
/-- The exponent of the least subnormal. -/
def Fmt.emin (f : Fmt) : Int := 2 - (f.bias : Int) - f.p
/-- The bits of +∞, the sign bit and the canonical NaN (R155). -/
def Fmt.infBits (f : Fmt) : Nat := (2 ^ f.e - 1) * 2 ^ (f.p - 1)
def Fmt.signBit (f : Fmt) : Nat := 2 ^ (f.e + f.p - 1)
def Fmt.nanBits (f : Fmt) : Nat := f.infBits + 2 ^ (f.p - 2)

/-- A magnitude n × 2^k. -/
def dyadic (neg : Bool) (n : Nat) (k : Int) : FV :=
  if 0 ≤ k then .fin neg (n * 2 ^ k.toNat) 1 else .fin neg n (2 ^ (-k).toNat)

/-- The value of the bits of a format; a signalling NaN is a NaN (R155). -/
def FV.ofBits (f : Fmt) (b : Nat) : FV :=
  let neg := b / f.signBit % 2 == 1
  let ex := b / 2 ^ (f.p - 1) % 2 ^ f.e
  let fr := b % 2 ^ (f.p - 1)
  if ex = 2 ^ f.e - 1 then (if fr = 0 then .inf neg else .nan)
  else if ex = 0 then dyadic neg fr f.emin
  else dyadic neg (2 ^ (f.p - 1) + fr) (f.emin + ex - 1)

/-! ### Exact operations with the special values of IEEE 754 (R155) -/

def FV.neg : FV → FV
  | .nan => .nan
  | .inf s => .inf !s
  | .fin s n d => .fin (!s) n d

def FV.abs : FV → FV
  | .nan => .nan
  | .inf _ => .inf false
  | .fin _ n d => .fin false n d

def FV.isNeg : FV → Bool
  | .nan => false
  | .inf s => s
  | .fin s _ _ => s

/-- Sum of n1/d1 and n2/d2 with signs; powers of two keep the greater denominator. -/
def addFin (s1 : Bool) (n1 d1 : Nat) (s2 : Bool) (n2 d2 : Nat) : FV :=
  let d := if d2 % d1 = 0 then d2 else if d1 % d2 = 0 then d1 else d1 * d2
  let a : Int := (if s1 then -1 else 1) * (n1 * (d / d1) : Nat)
  let b : Int := (if s2 then -1 else 1) * (n2 * (d / d2) : Nat)
  if a + b = 0 then .fin (s1 && s2) 0 1 else .fin (decide (a + b < 0)) (a + b).natAbs d

def FV.add : FV → FV → FV
  | .nan, _ => .nan
  | _, .nan => .nan
  | .inf s, .inf t => if s = t then .inf s else .nan
  | .inf s, .fin .. => .inf s
  | .fin .., .inf t => .inf t
  | .fin s n d, .fin t m e => addFin s n d t m e

def FV.sub (a b : FV) : FV := a.add b.neg

def FV.mul : FV → FV → FV
  | .nan, _ => .nan
  | _, .nan => .nan
  | .inf s, .inf t => .inf (s != t)
  | .inf s, .fin t n _ => if n = 0 then .nan else .inf (s != t)
  | .fin s n _, .inf t => if n = 0 then .nan else .inf (s != t)
  | .fin s n d, .fin t m e => .fin (s != t) (n * m) (d * e)

def FV.div : FV → FV → FV
  | .nan, _ => .nan
  | _, .nan => .nan
  | .inf _, .inf _ => .nan
  | .inf s, .fin t _ _ => .inf (s != t)
  | .fin s _ _, .inf t => .fin (s != t) 0 1
  | .fin s n d, .fin t m e =>
    if m = 0 then (if n = 0 then .nan else .inf (s != t)) else .fin (s != t) (n * e) (d * m)

/-- The integer square root, bit by bit from the highest down. -/
def isqrt (n : Nat) : Nat :=
  let b := Nat.log2 n / 2
  (List.range (b + 1)).foldl (fun r i => let c := r + 2 ^ (b - i); if c * c ≤ n then c else r) 0

/-- √(n / d) to 100 binary places below its leading bit, with half a unit added where it is inexact:
every rounding of R162 answers as for the exact root. -/
def sqrtFin (n d : Nat) : FV :=
  let s := 100 + Nat.log2 d
  let y := n * 4 ^ s / d
  let q := isqrt y
  if q * q = y ∧ n * 4 ^ s % d = 0 then .fin false q (2 ^ s) else .fin false (2 * q + 1) (2 ^ (s + 1))

def FV.sqrt : FV → FV
  | .nan => .nan
  | .inf s => if s then .nan else .inf false
  | .fin s n d => if n = 0 then .fin s 0 1 else if s then .nan else sqrtFin n d

/-- a < b, on numbers with −0 = +0; false with a NaN. -/
def FV.lt : FV → FV → Bool
  | .nan, _ => false
  | _, .nan => false
  | .inf s, .inf t => s && !t
  | .inf s, .fin .. => s
  | .fin .., .inf t => !t
  | .fin s n d, .fin t m e =>
    decide ((if s then -1 else 1) * ((n * e : Nat) : Int) < (if t then -1 else 1) * ((m * d : Nat) : Int))

def FV.eq (a b : FV) : Bool := a != .nan && b != .nan && !a.lt b && !b.lt a

def FV.isNan (a : FV) : Bool := a == .nan

/-! ### Rounding (R156, R162, R163) -/

/-- ⌊log2 (n / d)⌋ for n, d > 0. -/
def ilog2 (n d : Nat) : Int :=
  let l : Int := (Nat.log2 n : Int) - Nat.log2 d
  if 0 ≤ l then (if n < d * 2 ^ l.toNat then l - 1 else l)
  else if n * 2 ^ (-l).toNat < d then l - 1 else l

/-- N / D rounded to an integer: mode 0 to nearest with ties to even, 1 toward zero, 2 stochastic with
the draw r (R163). -/
def roundNat (mode r n d : Nat) : Nat :=
  let q := n / d
  let m := n % d
  if mode = 0 then (if d < 2 * m ∨ (2 * m = d ∧ q % 2 = 1) then q + 1 else q)
  else if mode = 2 then (if d * 65536 ≤ m * 65536 + r * d then q + 1 else q)
  else q

/-- The bits of a magnitude n / d in a format (R156). -/
def roundMag (f : Fmt) (mode r n d : Nat) : Nat :=
  if n = 0 then 0
  else
    let k := max (ilog2 n d - (f.p - 1 : Nat)) f.emin
    let q := if 0 ≤ k then roundNat mode r n (d * 2 ^ k.toNat) else roundNat mode r (n * 2 ^ (-k).toNat) d
    let b := if q < 2 ^ (f.p - 1) then q
      else (k - f.emin + 1).toNat * 2 ^ (f.p - 1) + (q - 2 ^ (f.p - 1))
    if f.infBits ≤ b then (if mode = 0 then f.infBits else f.infBits - 1) else b

/-- The bits of a value rounded to a format (R155, R156). -/
def FV.round (f : Fmt) (mode r : Nat) : FV → Nat
  | .nan => f.nanBits
  | .inf s => (if s then f.signBit else 0) + f.infBits
  | .fin s n d => (if s then f.signBit else 0) + roundMag f mode r n d

/-- A value rounded to an integer and clamped (R157). -/
def FV.toInt (mode r : Nat) (lo hi : Int) : FV → Int
  | .nan => 0
  | .inf s => if s then lo else hi
  | .fin s n d =>
    let q : Int := roundNat mode r n d
    max lo (min hi (if s then -q else q))

/-- An integer as a value. -/
def FV.ofInt (i : Int) : FV := .fin (decide (i < 0)) i.natAbs 1

/-- The value of an f32 word. -/
def f32 (b : BitVec 32) : FV := .ofBits fmtF32 b.toNat

def toF32 (mode r : Nat) (v : FV) : BitVec 32 := BitVec.ofNat 32 (v.round fmtF32 mode r)

/-- FMax (R166): the canonical NaN if either is NaN, else the greater, with +0 above −0. -/
def fmax (w a : BitVec 32) : BitVec 32 :=
  let x := f32 w
  let y := f32 a
  if x.isNan || y.isNan then 0x7FC00000
  else if x.lt y then a
  else if y.lt x then w
  else if x.isNeg then a else w

/-! ### The stochastic generator (R164) -/

/-- One step of the generator. -/
def xorshift (s : Word) : Word :=
  let a := s ^^^ s <<< 13
  let b := a ^^^ a >>> 7
  b ^^^ b <<< 17

/-- The draw of a state after its step: S[63:48]. -/
def drawOf (s : Word) : Nat := fld s 48 16

/-- `n` draws from a state, and the state after them. -/
def drawList : Nat → Word → List Nat × Word
  | 0, s => ([], s)
  | n + 1, s =>
    let s1 := xorshift s
    let (r, s2) := drawList n s1
    (drawOf s1 :: r, s2)

/-- The generator's state of a domain on a core: seed 1 at reset (R349). -/
def Core.rngOf (k : Core) (d : Nat) : Word := Tab.get 1 k.rng d

/-- R164: draws of the issuing thread's domain, and the state after them; none unless the mode is stochastic. -/
def State.drawn (s : State) (mode n : Nat) : List Nat × State :=
  if mode = 2 then
    let d := s.thread.dom.toNat
    let (r, st) := drawList n (s.me.rngOf d)
    (r, s.modMe fun k => ({ k with rng := Tab.set 1 k.rng d st }).count 30 none d n)
  else ([], s)

def draws (mode n : Nat) : M (List Nat) := fun s => .ok (s.drawn mode n)

/-- The mode in effect for a round field (R162): code 3 is RDEF, CFG [2:1]. -/
def Thread.mode (t : Thread) (rnd : Nat) : Nat := if rnd = 3 then fld t.cfg 1 2 else rnd

def modeOf (rnd : Nat) : M Nat := do return (← thread).mode rnd

/-! ### Shared-grain blocks (R158 to R161) -/

/-- M and the block bytes of an SG format (type codes sg8 3, sg5 4, sg3 5). -/
def sgM (ty : Nat) : Nat := if ty = 3 then 7 else if ty = 4 then 4 else 2
def sgBytes (ty : Nat) : Nat := if ty = 3 then 18 else if ty = 4 then 12 else 8

/-- Element `i` of a block (R159). -/
def sgElem (ty b i : Nat) : FV :=
  let m := sgM ty
  let e := b % 256
  if e = 255 then .nan
  else
    let g := b / 2 ^ (8 + 2 * (i / 4)) % 4
    let mag := b / 2 ^ (16 + (m + 1) * i) % 2 ^ m
    let neg := b / 2 ^ (16 + (m + 1) * i + m) % 2 == 1
    dyadic (neg && mag != 0) mag ((e : Int) - 127 - g - (m - 1 : Nat))

/-- n / d ≤ c × 2^k. -/
def leDyadic (n d c : Nat) (k : Int) : Bool :=
  if 0 ≤ k then n ≤ d * c * 2 ^ k.toNat else n * 2 ^ (-k).toNat ≤ d * c

def ltDyadic (n d c : Nat) (k : Int) : Bool :=
  if 0 ≤ k then n < d * c * 2 ^ k.toNat else n * 2 ^ (-k).toNat < d * c

/-- The magnitude of a value for the choice of E: an infinite one counts as 2^128 (R160). -/
def FV.mag : FV → Nat × Nat
  | .nan => (0, 1)
  | .inf _ => (2 ^ 128, 1)
  | .fin _ n d => (n, d)

/-- The greater of two magnitudes. -/
def magMax (a b : Nat × Nat) : Nat × Nat := if a.1 * b.2 < b.1 * a.2 then b else a

/-- R160, R161: the block of 16 values; `rs` are the draws of its elements. -/
def sgQuant (ty mode : Nat) (ys : List FV) (rs : List Nat) : Nat :=
  let m := sgM ty
  let top := 2 ^ m - 1
  if ys.any FV.isNan then 255
  else
    let a := (ys.map FV.mag).foldl magMax (0, 1)
    let ex : Nat → Int := fun e => (e : Int) - 127 - (m - 1 : Nat)
    let e := if a.1 = 0 then 0
      else ((List.range 255).find? fun e => leDyadic a.1 a.2 top (ex e)).getD 254
    let gs : List Nat := (List.range 4).map fun q =>
      let mq := ((ys.drop (4 * q)).take 4).map FV.mag |>.foldl magMax (0, 1)
      ([3, 2, 1].find? fun (k : Nat) => ltDyadic mq.1 mq.2 top (ex e - (k : Int))).getD 0
    let el : Nat → Nat := fun i =>
      let y := ys.getD i .nan
      let k := ex e - ((gs.getD (i / 4) 0 : Nat) : Int)
      let x := match y with
        | .fin _ n d => if 0 ≤ k then roundNat mode (rs.getD i 0) n (d * 2 ^ k.toNat)
          else roundNat mode (rs.getD i 0) (n * 2 ^ (-k).toNat) d
        | _ => top
      let x := Nat.min x top
      (if x ≠ 0 ∧ y.isNeg then 2 ^ m else 0) + x
    e + ((List.range 4).map fun q => gs.getD q 0 * 2 ^ (8 + 2 * q)).sum
      + ((List.range 16).map fun i => el i * 2 ^ (16 + (m + 1) * i)).sum

end Sys2Proof.Machine
end

