-- ==== Sys2Proof/Machine/Approx.lean ====
section
/-! DEFINITION. The approximations of R185: the stepping's own function of the operand, held to the
bounds and the exact cases of the manual. What decides the bounds is exact arithmetic on rational numbers, with lower and
upper bounds of 2^a, log2 a and tanh a (log 11). -/

namespace Sys2Proof.Machine

/-! ### Values as rational numbers -/

/-- The value of a finite value; 0 of the others. -/
def FV.rat : FV → Rat
  | .nan => 0
  | .inf _ => 0
  | .fin s n d => (if s then -1 else 1) * ((n : Rat) / d)

def FV.isFin : FV → Bool
  | .nan => false
  | .inf _ => false
  | .fin .. => true

/-- The exponent of the spacing of f32 in the binade of 2^k, and the spacing. -/
def ulpExp (k : Int) : Int := max (k - 23) (-149)
def ulpRat (k : Int) : Rat := 2 ^ ulpExp k

/-- The bits of ±m × 2^k for m up to 2^24 and k from -149. -/
def packF32 (neg : Bool) (m : Nat) (k : Int) : BitVec 32 :=
  let s := min (23 - Nat.log2 m) (k + 149).toNat
  BitVec.ofNat 32 ((if neg then 2 ^ 31 else 0)
    + if m = 0 then 0 else (k - s + 149).toNat * 2 ^ 23 + m * 2 ^ s)

/-! ### Bounds of e^z, 2^a and tanh x -/

/-- 30 terms of the series of e^z for 0 ≤ z ≤ 1, and what the rest of them is at most. -/
def expLo (z : Rat) : Rat := ∑ i ∈ Finset.range 30, z ^ i / (i.factorial : Rat)
def expHi (z : Rat) : Rat := expLo z + z ^ 30 * (30 + 1) / ((Nat.factorial 30 : Nat) * 30)

/-- ⌊2^96 ln 2⌋ / 2^96 and the next multiple of 2^-96. -/
def ln2Lo : Rat := 54916777467707473351141471128 / 2 ^ 96
def ln2Hi : Rat := 54916777467707473351141471129 / 2 ^ 96

def exp2Lo (a : Rat) : Rat := 2 ^ ⌊a⌋ * expLo (Int.fract a * ln2Lo)
def exp2Hi (a : Rat) : Rat := 2 ^ ⌊a⌋ * expHi (Int.fract a * ln2Hi)

/-- ⌊2^24 log2 z⌋ for 1 ≤ z < 2, or one less where the bounds of 2^a do not decide: bit after bit below `i`, on top of
`m`. -/
def log2Bits (z : Rat) : Nat → Nat → Nat
  | 0, m => m
  | i + 1, m => log2Bits z i (if exp2Hi ((m + 2 ^ i : Nat) / 2 ^ 24) ≤ z then m + 2 ^ i else m)

/-- Bounds of tanh x for 0 < x < 9: x - x^3 and x where x is small, else from those of e^(2x). -/
def tanhLo (x : Rat) : Rat :=
  if x < 1 / 2 ^ 24 then x - x ^ 3 else let e := expLo (x / 16) ^ 32; (e - 1) / (e + 1)
def tanhHi (x : Rat) : Rat :=
  if x < 1 / 2 ^ 24 then x else let e := expHi (x / 16) ^ 32; (e - 1) / (e + 1)

/-! ### What R185 lets q be where no exact case applies -/

/-- ⌊|log2 x|⌋. -/
def log2Floor (x : Rat) : Int := Int.log 2 (if 1 ≤ x then x else 1 / x)

/-- The bound of VLOG2. -/
def log2Bound (x : Rat) : Rat :=
  if 1 / 2 ≤ x ∧ x ≤ 2 then 1 / 2 ^ 22 else 2 * ulpRat (Int.log 2 (log2Floor x : Rat))

/-- A value between `lo` and `hi` is within `b` of `q`, wherever it lies. -/
def near (lo hi b q : Rat) : Bool := decide (hi ≤ q + b) && decide (q ≤ lo + b)

/-- `q` is within the bound of R185 at the operand `x`. -/
def approxNear (op : Nat) (x q : Rat) : Bool :=
  match op with
  | 0 =>
    let u := ulpRat (Int.log 4 (1 / x))
    decide (0 ≤ q + u) && decide (1 / x ≤ (q + u) ^ 2) && (decide (q ≤ u) || decide ((q - u) ^ 2 ≤ 1 / x))
  | 1 => near (1 / x) (1 / x) (ulpRat (Int.log 2 |1 / x|)) q
  | 2 => near (exp2Lo x) (exp2Hi x) (2 * ulpRat ⌊x⌋) q
  | 3 => decide (|q| ≤ 256) && decide (exp2Hi (q - log2Bound x) ≤ x) && decide (x ≤ exp2Lo (q + log2Bound x))
  | _ => near (tanhLo |x|) (tanhHi |x|) (min (2 * ulpRat (Int.log 2 (tanhLo |x|))) (1 / 2 ^ 24))
      (if x < 0 then -q else q)

/-- A value that is within the bound: its sign, and its magnitude as a multiple of 2^k. -/
def approxBase (op : Nat) (x : Rat) : Bool × Nat × Int :=
  match op with
  | 0 =>
    let k := Int.log 4 (1 / x)
    (false, Nat.sqrt ⌊1 / x / ulpRat k ^ 2⌋₊, ulpExp k)
  | 1 =>
    let k := Int.log 2 |1 / x|
    (decide (x < 0), ⌊|1 / x| / ulpRat k⌋₊, ulpExp k)
  | 2 => (false, ⌊exp2Lo x / ulpRat ⌊x⌋⌋₊, ulpExp ⌊x⌋)
  | 3 =>
    let e := log2Floor x
    let f := log2Bits ((if 1 ≤ x then x else 1 / x) / 2 ^ e) 24 0
    if e = 0 then (decide (x < 1), f, -24)
    else
      let k := Int.log 2 (e : Rat)
      (decide (x < 1), ⌊((e : Rat) + f / 2 ^ 24) / ulpRat k⌋₊, ulpExp k)
  | _ =>
    let k := Int.log 2 (tanhLo |x|)
    (decide (x < 0), ⌊tanhLo |x| / ulpRat k + 1 / 2⌋₊, ulpExp k)

/-! ### The exact cases of R185 -/

/-- f32 words: the canonical NaN, and infinity, zero and one with a sign. -/
def f32Nan : BitVec 32 := 0x7FC00000
def f32Inf (neg : Bool) : BitVec 32 := if neg then 0xFF800000 else 0x7F800000
def f32Zero (neg : Bool) : BitVec 32 := if neg then 0x80000000 else 0
def f32One (neg : Bool) : BitVec 32 := if neg then 0xBF800000 else 0x3F800000

/-- The exact cases on a finite operand `x` with sign `s`; none where only the bound holds. A reciprocal of 2^128 or more, of
which R185 says nothing, is infinite (log 11). -/
def approxCase (op : Nat) (s : Bool) (x : Rat) : Option (BitVec 32) :=
  match op with
  | 0 =>
    if x = 0 then some (f32Inf s) else if x < 0 then some f32Nan
    else if x = 4 ^ Int.log 4 x then some (packF32 false 1 (-Int.log 4 x)) else none
  | 1 =>
    if x = 0 ∨ 2 ^ 128 ≤ |1 / x| then some (f32Inf s)
    else if |x| = 2 ^ Int.log 2 |x| then some (packF32 s 1 (-Int.log 2 |x|)) else none
  | 2 =>
    if 128 ≤ x then some (f32Inf false) else if x < -150 then some (f32Zero false)
    else if x = ⌊x⌋ ∧ -149 ≤ ⌊x⌋ then some (packF32 false 1 ⌊x⌋) else none
  | 3 =>
    if x = 0 then some (f32Inf true) else if x < 0 then some f32Nan
    else if x = 2 ^ Int.log 2 x then some (packF32 (decide (x < 1)) (Int.log 2 x).natAbs 0) else none
  | _ => if x = 0 then some (f32Zero s) else if 9 ≤ |x| then some (f32One s) else none

/-- The special values of R185. -/
def approxSpecial (op : Nat) (v : FV) : Option (BitVec 32) :=
  match v with
  | .nan => some f32Nan
  | .inf s =>
    match op with
    | 0 => some (if s then f32Nan else f32Zero false)
    | 1 => some (f32Zero s)
    | 2 => some (if s then f32Zero false else f32Inf false)
    | 3 => some (if s then f32Nan else f32Inf false)
    | _ => some (f32One s)
  | .fin s _ _ => approxCase op s v.rat

/-- q of R185 for the operand whose f32 bits are `a`: the exact case, or the stepping's own value where
it lies within the bound, or else one that does. -/
def approx (op : Nat) (a : BitVec 32) : BitVec 32 :=
  match approxSpecial op (f32 a) with
  | some v => v
  | none =>
    let x := (f32 a).rat
    let q := Config.approxFn op a
    if (f32 q).isFin && approxNear op x (f32 q).rat then q
    else
      let b := approxBase op x
      packF32 b.1 b.2.1 b.2.2

end Sys2Proof.Machine
end

