-- ==== Sys2Proof/Machine/Memory.lean ====
section
/-! DEFINITION. Memory: physical bytes and keys (R262, R374), the stores of the cores (R199, R202), the
page table and the translation caches (R256 to R263), the L1 (R264, R278), the checks of an access
(R253 to R268), releases and acquires (R280, R281) and the instructions of class 2 (R267 to R276). -/

namespace Sys2Proof.Machine

/-! ### Physical memory -/

/-- The bytes from `a` up to `z` are covered by ranges, of which the walk takes one after another. -/
def covered (rs : List (Nat × Nat × Nat)) (z : Nat) : Nat → Nat → Bool
  | 0, a => z ≤ a
  | fuel + 1, a => z ≤ a || match rs.find? fun r => r.1 ≤ a && a < r.2.1 with
    | some r => covered rs z fuel r.2.1
    | none => false

/-- R262: HBM4E, or a second-tier range of which the decoders of the CXL ports cover every byte. -/
def State.backed (s : State) (pa n : Nat) : Bool :=
  pa + n ≤ 0xC000000000
    || (0x200000000000 ≤ pa && pa + n ≤ 0x280000000000 && covered s.decoders (pa + n) s.decoders.length pa)

/-- The home die of a physical address (R262). -/
def homeDie (pa : Nat) : Nat :=
  (fld (word pa) 8 2 ^^^ fld (word pa) 16 2 ^^^ fld (word pa) 24 2 ^^^ fld (word pa) 32 2
    ^^^ fld (word pa) 40 2)

/-- R393, R273: some byte answers as an uncorrectable data error; so does every byte of a device that has failed its
link. -/
def State.isBad (s : State) (pa n : Nat) : Bool :=
  s.badPa.any (fun r => r.1 < pa + n && pa < r.2)
    || s.decoders.any fun r => s.cxlFailed.contains r.2.2 && (r.1 < pa + n && pa < r.2.1)

/-- No domain has written the block: its bytes stand as the hardware or a host wrote them (log 12). -/
def plainKey : Nat × Nat := (256, 0)

/-- The memory key of domain `d` now (R372). -/
def State.keyOf (s : State) (d : Nat) : Nat × Nat := (d, Tab.get 0 s.epoch d)

/-- The key under which the cipher block of a physical address stands (R374). -/
def State.keyAt (s : State) (pa : Nat) : Nat × Nat :=
  Tab.get (Tab.get plainKey s.blockKey (pa / 256)) s.cipherKey (pa / 16)

/-- What domain `d` reads at a physical address (R265, R287, R374): the byte, or one of a meaningless cipher block where
another domain or an earlier key wrote the block. -/
def State.rdPa (s : State) (d pa : Nat) : Byte :=
  let k := s.keyAt pa
  if k = plainKey ∨ k = s.keyOf d then Tab.get 0 s.mem pa
  else (Config.garble k (s.keyOf d) (pa / 16) (BitVec.ofNat 128 (ofLe (s.rdRaw (pa / 16 * 16) 16)))).extractLsb'
    (8 * (pa % 16)) 8

def State.rdPas (s : State) (d pa n : Nat) : List Byte := (List.range n).map fun i => s.rdPa d (pa + i)

/-- R385: a byte written to the tail word of queue `q` makes its launch unit re-read the tail. -/
def State.noteTail (s : State) (pa : Nat) : State :=
  let o := pa - s.qtab.toNat
  if s.qtab.toNat ≤ pa ∧ o < 0x80000 ∧ o / 8 % 8 = 2 ∧ o / 64 ∉ s.rereads then
    { s with rereads := s.rereads ++ [o / 64] }
  else s

/-- R265, R374: the cipher block of a byte that domain `d` is about to write stands under the domain's key. Of a block
that another key has written the domain's write takes no more than that cipher block; the others stay as they are. -/
def State.rekey (s : State) (d pa : Nat) : State :=
  let k := s.keyAt pa
  if k = s.keyOf d then s
  else if k = plainKey ∧ Tab.get plainKey s.blockKey (pa / 256) = plainKey then
    { s with blockKey := s.blockKey.put (pa / 256) (s.keyOf d) }
  else
    let s2 := s.wrRaw (pa / 16 * 16) (s.rdPas d (pa / 16 * 16) 16)
    { s2 with cipherKey := s2.cipherKey.put (pa / 16) (s.keyOf d) }

/-- Domain `d` writes a byte: the block is written under its key (R265, R374). -/
def State.wrPa (s : State) (d pa : Nat) (b : Byte) : State :=
  let s := (s.noteTail pa).rekey d pa
  { s with mem := Tab.set 0 s.mem pa b }

def State.wrPas (s : State) (d pa : Nat) : List Byte → State
  | [] => s
  | b :: bs => (s.wrPa d pa b).wrPas d (pa + 1) bs

/-- A hardware access to physical memory: a fault where R262 backs nothing. -/
def needBacked (pa n : Nat) : M Unit := fun s =>
  if s.backed pa n then .ok ((), s) else .error (.stop (.unbacked pa), s)

/-! ### The window and the stores (R13, R199, R202) -/

def winLo : Nat := 0x7F8000000000
def winHi : Nat := 0x7F8080000000

/-- Window address of local byte `off` of core `c` (R13, R240). -/
def winAddr (c off : Nat) : Nat := winLo + c * 0x200000 + off

def inWin (a : Nat) : Bool := winLo ≤ a && a < winHi

/-- The 32 KiB blocks that `n ≥ 1` bytes at `x` touch: a block lies in one form of R202 and one bank. -/
def blocks (x n : Nat) : List Nat :=
  (List.range ((x + n - 1) / 32768 - x / 32768 + 1)).map (x / 32768 + ·)

/-- Core and bank of a block; none where R202 finds neither form or an unbacked offset. -/
def blockLoc (me b : Nat) : Option (Nat × Nat) :=
  if b < 48 then some (me, b)
  else if winLo / 32768 ≤ b ∧ b < winHi / 32768 ∧ (b - winLo / 32768) % 64 < 48 then
    some ((b - winLo / 32768) / 64, (b - winLo / 32768) % 64)
  else none

/-- R199, R202: bank `b` of a core is scratchpad of domain `d`, which is present there. -/
def Core.ownsBank (k : Core) (d b : Nat) : Bool :=
  k.present d && b < 48 - k.lb && inRange b (k.bankBase d) (k.bankCount d)

/-- The store check of R202: the sub-code of R230 with which it fails. -/
def State.storeFault (s : State) (d me x n : Nat) : Option Nat :=
  let bs := blocks x n
  if bs.any fun b => (blockLoc me b).isNone then some 1
  else if bs.all fun b => (blockLoc me b).any fun p => (s.core p.1).ownsBank d p.2 then none
  else some 2

/-- Core and offset of a store address that passes the check. -/
def storeLoc (me x : Nat) : Nat × Nat :=
  if x < 0x180000 then (me, x) else ((x - winLo) / 0x200000, (x - winLo) % 0x200000)

def State.rdStore (s : State) (c off n : Nat) : List Byte :=
  (List.range n).map fun i => Tab.get 0 (s.core c).store (off + i)

def Core.wrStore (k : Core) (off : Nat) : List Byte → Core
  | [] => k
  | b :: bs => { k with store := Tab.set 0 k.store off b }.wrStore (off + 1) bs

def State.wrStore (s : State) (c off : Nat) (bs : List Byte) : State :=
  s.modCore c fun k => k.wrStore off bs

/-! ### Translation (R256 to R263) -/

/-- R257: the first group that the search for a page size visits. -/
def hashGroup (m dom v : Nat) (big : Bool) : Nat :=
  let x := (if big then 1 else 0) <<< 44 ||| dom <<< 36 ||| v
  (x ^^^ x >>> 15 ^^^ x >>> 30) % 2 ^ m

/-- R256: a valid entry that breaks a must-be-zero rule. -/
def entryBad (w0 w1 : Word) : Bool :=
  let big := w0.getLsbD 62
  fld w0 60 2 != 0 || fld w0 0 16 != 0 || fld w1 46 18 != 0 || fld w1 6 10 != 0 || fld w1 4 1 != 0
    || (big && (fld w0 16 5 != 0 || fld w1 16 5 != 0))

/-- The entry at `e` read for a page: none; a broken entry; a match. -/
inductive Probe where
  | miss
  | bad
  | hit (t : Tlb)
  deriving DecidableEq, Repr

def State.probe (s : State) (e dom va : Nat) (big : Bool) : Probe :=
  let w0 := s.rdWord e
  let w1 := s.rdWord (e + 8)
  if w0.getLsbD 63 = false then .miss
  else if entryBad w0 w1 then .bad
  else if fld w0 52 8 = dom ∧ w0.getLsbD 62 = big ∧
      (if big then fld w0 21 31 = va / 2 ^ 21 else fld w0 16 36 = va / 2 ^ 16) then
    .hit { dom := BitVec.ofNat 8 dom, big, vpn := fld w0 16 36, ppn := fld w1 16 30
           rights := w1.extractLsb' 0 4, mig := w1.getLsbD 5, ent := e, dirtied := false }
  else .miss

/-- The entries in the order of the search (R257): per page size P groups of eight. A P of 0, with which no group is
searched, or of 9 to 15 is used as written (log 43). -/
def State.searchOrder (s : State) (dom va : Nat) : List (Nat × Bool) :=
  let m := fld s.ptcfg 0 5
  let p := fld s.ptcfg 8 4
  let one := fun big =>
    let g := hashGroup m dom (if big then va / 2 ^ 21 else va / 2 ^ 16) big
    (List.range p).flatMap fun j => (List.range 8).map fun i =>
      (s.ptbase.toNat + ((g + j) % 2 ^ m) * 256 + 32 * i, big)
  one true ++ one false

/-- R257, R256: the first match; a broken entry on the way is recorded in PTERR. A group that R262 does not back reads as
zeros, which is no match (log 44). -/
def State.search (s : State) (dom va : Nat) : List (Nat × Bool) → Option Tlb × State
  | [] => (none, s)
  | (e, big) :: r =>
    match s.probe e dom va big with
    | .hit t => (some t, s)
    | .bad => { s with pterr := 0x8000000000000000 ||| word (e % 2 ^ 46) }.search dom va r
    | .miss => s.search dom va r

def Tlb.covers (t : Tlb) (dom va : Nat) : Bool :=
  t.dom.toNat == dom && (if t.big then t.vpn / 32 == va / 2 ^ 21 else t.vpn == va / 2 ^ 16)

def Tlb.phys (t : Tlb) (va : Nat) : Nat :=
  if t.big then t.ppn / 32 * 2 ^ 21 + va % 2 ^ 21 else t.ppn * 2 ^ 16 + va % 2 ^ 16

/-- R258, R259: a miss of cluster `cl` is searched, and a match that serves the access fills the cache of its port. A
fault leaves the cache unchanged: the match lacks a right of `need` or names no backed memory, or a write finds a page
that moves (R263). -/
def State.lookupPage (s : State) (cl dom va : Nat) (need : BitVec 4) : Option Tlb × State :=
  let write := need.getLsbD 1
  let cache := Tab.get [] s.tlb cl
  match cache.find? (·.covers dom va) with
  | some t =>
    if write && !t.dirtied && !t.mig && need &&& ~~~t.rights = 0 && s.backed (t.phys va) 1 then
      let t' := { t with dirtied := true }
      (some t', { s.markEntry t.ent true with
        tlb := s.tlb.put cl (t' :: cache.filter (· ≠ t)) })
    else (some t, s)
  | none =>
    match s.search dom va (s.searchOrder dom va) with
    | (none, s1) => (none, s1)
    | (some t, s1) =>
      if need &&& ~~~t.rights ≠ 0 || !s1.backed (t.phys va) 1 || write && t.mig then (some t, s1)
      else (some { t with dirtied := write }, { s1.markEntry t.ent write with
        tlb := s1.tlb.put cl ({ t with dirtied := write } :: cache) })

/-- R259, R395: no translation of the address is held at the cluster's port. -/
def State.missesTlb (s : State) (cl dom va : Nat) : Bool :=
  6 ≤ fld s.ptcfg 0 5 && !(Tab.get [] s.tlb cl).any (·.covers dom va)

/-- A translation for `need` at the cluster's port reaches for the page table: it is not held there, it lacks a right that
an entry may have gained, or its dirty bit is to be set (R258, R259). -/
def State.walks (s : State) (cl dom va : Nat) (need : BitVec 4) : Bool :=
  6 ≤ fld s.ptcfg 0 5 && match (Tab.get [] s.tlb cl).find? (·.covers dom va) with
    | none => true
    | some t => need &&& ~~~t.rights != 0 || (need.getLsbD 1 && !t.dirtied && !t.mig && s.backed (t.phys va) 1)

/-- A miss of the translation cache is counted (R395). -/
def State.countMiss (s : State) (c dom va : Nat) : State :=
  if s.missesTlb (clusterOf c) dom va then s.modCore c (·.count 18 none dom 1) else s

/-- The answer to a translation (R261). -/
inductive Xlat where
  | ok (pa : Nat)
  | rights
  | missing
  /-- R398: an identity translation of another domain is refused. -/
  | refused
  deriving DecidableEq, Repr

/-- R259: a translation that the port holds and that lacks a right gives way to a matching entry of the table that
has it: an entry that gains rights needs no action beyond the write. -/
def State.gainRights (s : State) (cl dom va : Nat) (need : BitVec 4) (t : Tlb) : Tlb × State :=
  if need &&& ~~~t.rights = 0 then (t, s)
  else match s.search dom va (s.searchOrder dom va) with
    | (some u, s1) =>
      if need &&& ~~~u.rights = 0 && s1.backed (u.phys va) 1 && !(need.getLsbD 1 && u.mig) then
        let u := { u with dirtied := need.getLsbD 1 }
        (u, { s1.markEntry u.ent u.dirtied with
          tlb := s1.tlb.put cl (u :: (Tab.get [] s1.tlb cl).filter (· ≠ t)) })
      else (t, s1)
    | (none, s1) => (t, s1)

/-- R256 to R263, R398: translates `va` for domain `dom` at the port of cluster `cl`. `need` holds the
rights R, W, X, A in bits 0 to 3. -/
def State.translate (s : State) (cl dom va : Nat) (need : BitVec 4) : Xlat × State :=
  if fld s.ptcfg 0 5 < 6 then
    if dom = 0 then (if s.backed va 1 then .ok va else .rights, s) else (.refused, s)
  else
    let write := need.getLsbD 1
    match s.lookupPage cl dom va need with
    | (none, s1) => (.missing, s1)
    | (some t0, s0) =>
      let (t, s1) := s0.gainRights cl dom va need t0
      if need &&& ~~~t.rights ≠ 0 then (.rights, s1)
      else if s1.backed (t.phys va) 1 = false then (.rights, s1)
      else if write && t.mig then (.missing, s1)
      else (.ok (t.phys va), s1)

/-! ### The L1 and the home L2 (R264, R278) -/

def lineOf (va : Nat) : Nat := va / 32 * 32

def Core.lineAt (k : Core) (dom : Byte) (va : Nat) : Option Line :=
  k.lines.find? fun l => l.dom == dom && l.va == lineOf va

/-- Byte `i` of a line. -/
def Line.byte (l : Line) (i : Nat) : Byte := l.data.extractLsb' (8 * i) 8

/-- The written bytes of a line reach the home L2 (R278). -/
def State.flushLine (s : State) (l : Line) : State :=
  (List.range 32).foldl (fun s i =>
    if l.written.getLsbD i then s.wrPa l.dom.toNat (l.pa + i) (l.byte i) else s) s

/-- The lines of core `c` with one replaced or, for none, dropped. -/
def Core.putLine (k : Core) (l : Line) (l' : Option Line) : Core :=
  { k with lines := (k.lines.filter fun x => x.dom != l.dom || x.va != l.va) ++ l'.toList }

/-- R278: a line is written back: its bytes reach the home L2, it leaves the dirty list and stays
clean, or is dropped. A packet that fails takes the bytes with it (R373; log 35). -/
def State.writeBack (s : State) (c : Nat) (l : Line) (keep : Bool) : State :=
  (if s.tampered.contains c && l.written != 0 then s.packetLost c l.dom.toNat 0 0 else s.flushLine l).modCore c fun k =>
    let k := k.putLine l (if keep then some { l with written := 0 } else none)
    let k := { k with dirty := k.dirty.filter (· != (l.dom, l.va)) }
    if l.written = 0 then k else k.count 14 none l.dom.toNat 1

/-- The line of `va` of a domain is written back and kept or dropped, where the L1 holds it. -/
def State.flushVa (s : State) (c : Nat) (dom : Byte) (va : Nat) (keep : Bool) : State :=
  match (s.core c).lineAt dom va with
  | some l => if keep && l.written == 0 then s else s.writeBack c l keep
  | none => s

/-- Every line of a domain that overlaps `[lo, hi)` is written back, and dropped unless `keep`. -/
def State.flushRange (s : State) (c : Nat) (dom : Byte) (lo hi : Nat) (keep : Bool) : State :=
  ((s.core c).lines.filter fun l => l.dom == dom && lo < l.va + 32 && l.va < hi).foldl
    (fun s l => s.flushVa c dom l.va keep) s

/-- R278: a miss fills the line from the home L2. A full L1 first loses its oldest line (R264; log 9). -/
def State.fillLine (s : State) (c : Nat) (dom : Byte) (va pa : Nat) : Line × State :=
  match (s.core c).lineAt dom va with
  | some l => (l, s)
  | none =>
    let s := s.modCore c fun k => k.count 13 none dom.toNat 1
    let s := match (s.core c).lines with
      | l :: r => if (s.core c).lb * 1024 ≤ r.length + 1 then s.writeBack c l false else s
      | [] => s
    let bs := s.rdPas dom.toNat (lineOf pa) 32
    let l : Line := { dom, va := lineOf va, pa := lineOf pa, data := BitVec.ofNat 256 (ofLe bs) }
    (l, s.modCore c fun k => k.putLine l (some l))

/-- R264: a store makes the line dirty; the 65th dirty line first writes back the oldest. -/
def State.dirtyLine (s : State) (c : Nat) (dom : Byte) (va : Nat) : State :=
  let k := s.core c
  if (dom, lineOf va) ∈ k.dirty then s
  else
    let s := if k.dirty.length < 64 then s
      else match k.dirty with
        | [] => s
        | (d, a) :: _ => s.flushVa c d a true
    s.modCore c fun k => { k with dirty := k.dirty ++ [(dom, lineOf va)] }

/-- A byte read in the L1. -/
def State.rdL1 (s : State) (c : Nat) (dom : Byte) (va pa : Nat) : Byte × State :=
  let (l, s) := s.fillLine c dom va pa
  (l.byte (va % 32), s)

/-- A byte written in the L1. -/
def State.wrL1 (s : State) (c : Nat) (dom : Byte) (va pa : Nat) (b : Byte) : State :=
  let (_, s) := s.fillLine c dom va pa
  let s := s.dirtyLine c dom va
  match (s.core c).lineAt dom va with
  | none => s
  | some l =>
    s.modCore c fun k => k.putLine l (some { l with
      data := setFld l.data (8 * (va % 32)) 8 b.toNat
      written := l.written ||| BitVec.ofNat 32 (2 ^ (va % 32)) })

/-! ### Checked accesses (R253, R254, R268) -/

/-- One element that passed its checks: address, size, and physical addresses of its first byte and of
the page of its last. -/
structure Lane where
  ea : Nat
  n : Nat
  pa : Nat := 0
  pa2 : Nat := 0
  /-- R373: the search of the page table for the element has lost its packet. -/
  lost : Bool := false
  deriving DecidableEq, Repr

def Lane.win (l : Lane) : Bool := inWin l.ea

/-- Physical address of byte `i`. -/
def Lane.phys (l : Lane) (i : Nat) : Nat :=
  if (l.ea + i) / 65536 = l.ea / 65536 then l.pa + i else l.pa2 + (l.ea + i) % 65536

/-- Rights of R252 in the order of word 1: R 1, W 2, X 4, A 8, E 16. -/
abbrev Need := BitVec 6

def needR : Need := 1
def needW : Need := 2
def needRW : Need := 3
def needX : Need := 4
def needRWA : Need := 11
def needE : Need := 16

/-- R253: SegCheck of `n` bytes at `off`: the address, or the sub-code and the detail. -/
def segCheck (sg : Seg) (dom : Byte) (off n : Nat) (nd : Need) : Except (Nat × Nat) Nat :=
  if sg.dom ≠ dom then .error (3, off)
  else if off + n > sg.limit.toNat then .error (1, off)
  else if nd &&& ~~~sg.rights ≠ 0 then .error (2, off)
  else
    let ea := sg.base.toNat + off
    let meets := 0 < n && ea < winHi && winLo < ea + n
    let inside := winLo ≤ ea && ea + n ≤ winHi
    if meets && (!sg.rights.getLsbD 5 || !inside) then .error (4, ea) else .ok ea

/-- R211: the entry of core `k` that an access of thread `tid` hits: of several, the lowest-numbered (log 42). -/
def Core.rangeHit (k : Core) (dom : Byte) (tid ea n : Nat) (write : Bool) : Option Nat :=
  (k.ranges.find? fun e => e.2.dom == dom && e.2.owner != .thread tid && (e.2.lo < ea + n && ea < e.2.hi)
    && (e.2.write || write)).map (·.1)

/-- The segment trap with its detail (R253, R350; log 21). -/
def segTrap {α : Type} (seg : Nat) (e : Nat × Nat) : M α := raise 5 e.1 (word e.2) (word seg)

/-- SegCheck of one access of the issuing thread. -/
def segOf (seg off n : Nat) (nd : Need) : M Nat := do
  let t ← thread
  match segCheck (rd t.seg seg {}) t.dom off n nd with
  | .ok ea => pure ea
  | .error e => segTrap seg e

/-- The store check of a store address or window access (R202, R255): core and offset. -/
def storeCheck (x n : Nat) : M (Nat × Nat) := fun s =>
  match s.storeFault s.thread.dom.toNat s.cur x n with
  | some sub => .error (.trap 6 sub (word x) 0, s)
  | none => .ok (storeLoc s.cur x, s)

/-- R211: the range-hit trap, with the address and the entry index. -/
def noRangeHit (ea n : Nat) (write : Bool) : M Unit := do
  let t ← thread
  match (← core).rangeHit t.dom t.tid ea n write with
  | some i => raise 7 0 (word ea) (word i)
  | none => pure ()

def xlate (va : Nat) (nd : Need) : M Xlat := fun s =>
  let (r, s1) := (s.countMiss s.cur s.thread.dom.toNat va).translate (clusterOf s.cur) s.thread.dom.toNat va (nd.setWidth 4)
  .ok (r, s1)

/-- The pages of an element: its first byte, and the page of its last where that differs. -/
def Lane.vas (l : Lane) : List Nat :=
  if l.ea / 65536 = (l.ea + l.n - 1) / 65536 then [l.ea] else [l.ea, (l.ea + l.n - 1) / 65536 * 65536]

/-- A trap of the translation of an address (R261). -/
def pageTrap {α : Type} (cause va : Nat) : M α := raise cause 0 (word va)

/-- Translates addresses in order: their physical addresses, and the first with no entry (R268). -/
def xlateVas (nd : Need) : List Nat → M (List Nat × Option Nat)
  | [] => pure ([], none)
  | va :: r => do
    match ← xlate va nd with
    | .ok pa =>
      let (ps, m) ← xlateVas nd r
      return (pa :: ps, m)
    | .rights => pageTrap 9 va
    | .refused =>
      tally 19 1
      pageTrap 8 va
    | .missing =>
      let (ps, _) ← xlateVas nd r
      return (0 :: ps, some va)

/-- R373: the element's translation reaches for the page table, and a packet of the search fails: the access is lost
(log 35). -/
def walkLost (l : Lane) (nd : Need) : M Bool := fun s =>
  let t := s.thread
  if s.tampered.contains s.cur && !l.win && l.vas.any (s.walks (clusterOf s.cur) t.dom.toNat · (nd.setWidth 4)) then
    .ok (true, s.packetLost s.cur t.dom.toNat s.me.turnSlot t.taddrNow)
  else .ok (false, s)

/-- Translates the lanes of `n` bytes at the addresses, in order; a window address needs no translation. -/
def xlateLanes (nd : Need) (n : Nat) : List Nat → M (List Lane × Option Nat)
  | [] => pure ([], none)
  | ea :: r => do
    let l : Lane := { ea, n }
    let lost ← walkLost l nd
    let (ps, m) ← xlateVas nd (if l.win || lost then [] else l.vas)
    let (ls, m') ← xlateLanes nd n r
    return ({ l with pa := ps.getD 0 0, pa2 := ps.getD 1 0, lost } :: ls, m.or m')

/-- R261: no entry covers the page: the page-fault trap where the supervisor refused it, else a save
or a stall. -/
def missingPage {α : Type} (va : Nat) (write : Bool) : M α := do
  let t ← thread
  if t.refused = some (va / 65536) then pageTrap 8 va
  else fun s => .error (.pageFault va write, s)

/-- A request of thread `tid` of core `c` is on its way to a barrier object of store `tc` (any, for none). -/
def State.toObject (s : State) (c tid : Nat) (tc : Option Nat) : Bool :=
  s.bars.any fun b => b.core == c && b.t.tid == tid && b.reply.isNone && tc.all (· == b.target)

/-- R279: an access waits for a BARINIT of its slot that has not reached the store that it touches. -/
def afterInit (ls : List Lane) : M Unit := fun s =>
  if ls.any fun l => l.win && s.toObject s.cur s.thread.tid (some (storeLoc s.cur l.ea).1) then .error (.wait 255, s)
  else .ok ((), s)

/-- R279, R280: an ordered access or a release waits for every access that its slot issued earlier. -/
def afterAll : M Unit := fun s =>
  if s.toObject s.cur s.thread.tid none then .error (.wait 255, s) else .ok ((), s)

/-- An access of the issuing thread by a store address is one through the window where it has that form (R202, R395). -/
def countWindow (x : Nat) : M Unit := fun s =>
  .ok ((), s.modMe fun k => k.count 17 none s.thread.dom.toNat (if inWin x then 1 else 0))

/-- A store address at which a thread reads or writes `n` bytes: the store check (R202), the alignment with the trap
for its lack, R211 on the window interval, and the order after a BARINIT of the slot (R279). An address in window form
counts as a window access (R395; log 33). -/
def threadStore (x n al cause sub : Nat) (write : Bool) : M (Nat × Nat) := do
  let p ← storeCheck x n
  need (p.2 % al == 0) cause sub (if cause = 6 then word x else 0)
  noRangeHit (winAddr p.1 p.2) n write
  afterInit [{ ea := winAddr p.1 p.2, n }]
  countWindow x
  pure p

/-- R254, R350: the misaligned-address trap, whose detail is the address that the offset gives (log 21). -/
def alignedAt (seg off al : Nat) : M Unit := do
  let t ← thread
  need (off % al == 0) 4 0 ((rd t.seg seg {}).base.setWidth 64 + word off)

/-- R268: the lanes of an access, checked in order: alignment of every lane, segment of every lane,
store check, range table, translation. -/
def access (seg : Nat) (offs : List Nat) (n al : Nat) (nd : Need) : M (List Lane) := do
  offs.forM fun o => alignedAt seg o al
  let eas ← offs.mapM fun o => segOf seg o n nd
  (eas.filter inWin).forM fun ea => do let _ ← storeCheck ea n
  eas.forM fun ea => noRangeHit ea n (nd.getLsbD 1)
  let (ls, miss) ← xlateLanes nd n eas
  match miss with
  | some va => missingPage va (nd.getLsbD 1)
  | none =>
    afterInit ls
    return ls

/-! ### Performing accesses (R269, R278) -/

/-- The lines of an element. -/
def Lane.lines (l : Lane) : List Nat :=
  (List.range (lineOf (l.ea + l.n - 1) / 32 - lineOf l.ea / 32 + 1)).map fun i => lineOf l.ea + 32 * i

/-- An L1 access is counted for each line that an element touches (R395; log 33). -/
def State.countL1 (s : State) (c : Nat) (dom : Byte) (l : Lane) : State :=
  s.modCore c fun k => k.count 12 none dom.toNat l.lines.length

/-- The bytes of an element at its place: the target store, the L1 (scope slot or core) or the home L2
after the core's dirty bytes of the line. -/
def State.load (s : State) (c : Nat) (dom : Byte) (scope : Nat) (l : Lane) : List Byte × State :=
  if l.win then
    let (tc, off) := storeLoc c l.ea
    (s.rdStore tc off l.n, s.modCore c fun k => k.count 17 none dom.toNat 1)
  else if scope ≤ 1 then
    (List.range l.n).foldl (fun (bs, s) i =>
      let (b, s) := s.rdL1 c dom (l.ea + i) (l.phys i)
      (bs ++ [b], s)) ([], s.countL1 c dom l)
  else
    let s := l.lines.foldl (fun s va => s.flushVa c dom va true) s
    ((List.range l.n).map fun i => s.rdPa dom.toNat (l.phys i), s)

/-- The element's lines that the core's L1 does not hold: their addresses. -/
def State.missing (s : State) (c : Nat) (dom : Byte) (l : Lane) : List Nat :=
  l.lines.filter fun va => ((s.core c).lineAt dom va).isNone

/-- Some line that the access would fill from memory answers as an uncorrectable error (R393). -/
def State.fillBad (s : State) (c : Nat) (dom : Byte) (l : Lane) : Bool :=
  (List.range l.n).any fun i =>
    (s.missing c dom l).contains (lineOf (l.ea + i)) && s.isBad (lineOf (l.phys i)) 32

/-- The bytes of an element stored at its place (R269, R278): beside the L1 where the line cannot be filled. -/
def State.storeBytes (s : State) (c : Nat) (dom : Byte) (scope : Nat) (l : Lane) (bs : List Byte) : State :=
  if l.win then
    let (tc, off) := storeLoc c l.ea
    s.wrStore tc off bs
  else if scope ≤ 1 && !s.fillBad c dom l then
    (List.range l.n).foldl (fun s i => s.wrL1 c dom (l.ea + i) (l.phys i) (bs.getD i 0)) s
  else
    let s := l.lines.foldl (fun s va => s.flushVa c dom va false) s
    (List.range l.n).foldl (fun s i => s.wrPa dom.toNat (l.phys i) (bs.getD i 0)) s

/-- A store of an element, counted as a window access or as accesses of the L1 (R395). -/
def State.storeTo (s : State) (c : Nat) (dom : Byte) (scope : Nat) (l : Lane) (bs : List Byte) : State :=
  let counted := if l.win then s.modCore c fun k => k.count 17 none dom.toNat 1
    else if scope ≤ 1 && !s.fillBad c dom l then s.countL1 c dom l else s
  counted.storeBytes c dom scope l bs

/-- R273: what a load or atomic reads has an uncorrectable error: a line that its L1 has to fill, or a byte at the
home L2. -/
def State.laneBad (s : State) (c : Nat) (dom : Byte) (scope : Nat) (l : Lane) : Bool :=
  !l.win && (if scope ≤ 1 then s.fillBad c dom l else (List.range l.n).any fun i => s.isBad (l.phys i) 1)

/-- R373: the access needs a packet to a memory slice or to another die. -/
def State.leaves (s : State) (c : Nat) (dom : Byte) (scope : Nat) (l : Lane) : Bool :=
  if l.win then dieOf (storeLoc c l.ea).1 != dieOf c else 2 ≤ scope || !(s.missing c dom l).isEmpty

/-- A packet of an access of the issuing thread fails (R373). -/
def packetFails (scope : Nat) (l : Lane) : M Bool := fun s =>
  let t := s.thread
  if l.lost then .ok (true, s)
  else if s.tampered.contains s.cur && s.leaves s.cur t.dom scope l then
    .ok (true, s.packetLost s.cur t.dom.toNat s.me.turnSlot t.taddrNow)
  else .ok (false, s)

/-- The bytes of an element, or zeros and true where the data has an uncorrectable error (R273, R373). -/
def load (scope : Nat) (l : Lane) : M (List Byte × Bool) := do
  let lost ← packetFails scope l
  fun s =>
    if lost || s.laneBad s.cur s.thread.dom scope l then .ok ((List.replicate l.n 0, true), s)
    else let (bs, s1) := s.load s.cur s.thread.dom scope l; .ok ((bs, false), s1)

/-- A data error of the issuing instruction is pending (R273, R336). -/
def pendError (ea : Nat) : M Unit := modThread fun t => t.pendEvent 0 10 0 t.taddrNow (word ea) 0

/-- A store whose packet fails is discarded; a store never raises the data-error trap (R273, R276, R373; log 35). -/
def store (scope : Nat) (l : Lane) (bs : List Byte) : M Unit := do
  if ← packetFails scope l then pure ()
  else modify fun s => s.storeTo s.cur s.thread.dom scope l bs

/-! ### Release and acquire (R280, R281) -/

/-- R280: at cluster or wider every entry of the dirty list is written back, whichever domain listed it; `dom` is
the domain that releases (R395). -/
def State.release (s : State) (c dom scope : Nat) : State :=
  if scope < 2 then s
  else
    let s := s.modCore c fun k => k.count 15 none dom 1
    (s.core c).dirty.foldl (fun s e => s.flushVa c e.1 e.2 true) s

/-- R281: at cluster or wider every line of the domain is written back and dropped. -/
def State.acquire (s : State) (c : Nat) (dom : Byte) (scope : Nat) : State :=
  if scope < 2 then s
  else
    let n := ((s.core c).lines.filter (·.dom == dom)).length
    (((s.core c).lines.filter (·.dom == dom)).foldl (fun s l => s.flushVa c dom l.va false) s).modCore c
      fun k => k.count 16 none dom.toNat n

/-- Release(scope) of the issuing slot, after its earlier accesses (R280). -/
def release (scope : Nat) : M Unit := do
  afterAll
  modify fun s => s.release s.cur s.thread.dom.toNat scope
def acquire (scope : Nat) : M Unit := fun s => .ok ((), s.acquire s.cur s.thread.dom scope)

/-- R43, R269: the order and scope of a load or store under the fence-strengthening mode. -/
def effOrder (strong isLoad : Bool) (order : BitVec 2) (scope : BitVec 3) : Nat × Nat :=
  if strong && order == 0 then (if isLoad then 1 else 2, Nat.max scope.toNat 2)
  else (order.toNat, scope.toNat)

def ordering (isLoad : Bool) (order : BitVec 2) (scope : BitVec 3) : M (Nat × Nat) := fun s =>
  .ok (effOrder (s.ctx s.thread.ctx).strong isLoad order scope, s)

/-- Release before, acquire after (R269); an ordered access follows every earlier one of its slot (R279). -/
def before (o : Nat × Nat) : M Unit :=
  if o.1 / 2 % 2 = 1 then release o.2 else if o.1 % 2 = 1 then afterAll else pure ()
def after (o : Nat × Nat) : M Unit := if o.1 % 2 = 1 then acquire o.2 else pure ()

/-! ### Watchpoints (R346) -/

/-- DBW `i` watches a byte of an access of a kind (read 1, write 2, both 3). -/
def watchHit (w : Word) (kind lo n : Nat) : Option Nat :=
  let lg := Nat.min (fld w 56 5) 16
  let a := fld w 0 52 / 2 ^ lg * 2 ^ lg
  let k := fld w 61 2
  if w.getLsbD 63 && k &&& kind != 0 && (a < lo + n && lo < a + 2 ^ lg) then some (Nat.max a lo)
  else none

/-- The bit of TPEND that records a debug event: its own, or bit 5 once a save of the thread's domain has begun
(R347). -/
def debugBit (bit : Nat) (saving : Bool) : Nat := if saving then 5 else bit

/-- R346: DBW `i` of a thread outside a handler, if the lanes of an access touch what it watches. -/
def Thread.watchOne (t : Thread) (saving : Bool) (kind : Nat) (ls : List Lane) (i : Nat) : Thread :=
  if t.tret.getLsbD 56 then t
  else match ls.findSome? fun l => watchHit (rd t.dbw i 0) kind l.ea l.n with
    | some a => t.pendEvent (debugBit 3 saving) 21 i t.taddrNow (word a) 0
    | none => t

/-- R346: the watchpoints that the lanes of a performed access touch. -/
def Thread.watchAll (t : Thread) (saving : Bool) (kind : Nat) (ls : List Lane) : Thread :=
  (t.watchOne saving kind ls 0).watchOne saving kind ls 1

def watch (kind : Nat) (ls : List Lane) : M Unit := fun s =>
  .ok ((), s.modThread fun t => t.watchAll (s.me.saving t.dom) kind ls)

/-- R346: with STEP each issued instruction pends a step event (log 19). -/
def Thread.stepEvent (before : Thread) (saving : Bool) (t : Thread) : Thread :=
  if before.cfg.getLsbD 3 && !before.tret.getLsbD 56 then
    t.pendEvent (debugBit 4 saving) 22 0 before.taddrNow 0 0
  else t

/-! ### Loads and stores (R270, R271) -/

/-- The size in bytes of a size code (R27). -/
def sizeOf (c : BitVec 3) : Nat := 2 ^ c.toNat

/-- The offset Src(a) + SExt(off), as an unsigned 64-bit number (R253). -/
def offset (a : Word) (off : Word) : Nat := (a + off).toNat

/-- The value of a load or atomic is on its way to gd (R96); an uncorrectable error makes it 0 and
pends the data-error trap at the fill (R273). -/
def sendFill (d : Nat) (v : Word) (bad : Bool) (ea : Nat) : M Unit := do
  let t ← thread
  emptyG d
  modMe fun k => k.addFill
    { tid := t.tid, d, value := if bad then 0 else v
      error := if bad then some (t.pc, word ea) else none }

/-- LD (R270). -/
def execLd (x : FmtM) (s : State) : Host.Outcome State Fault Refusal :=
  s.instr x.e x.w do
    waitDst x.d
    let a ← src x.a
    let n := sizeOf x.size
    let o ← ordering true x.order x.scope
    let ls ← access x.seg.toNat [offset a (x.off.signExtend 64)] n n needR
    for l in ls do
      before o
      let (bs, bad) ← load o.2 l
      sendFill x.d.toNat (extend n x.sext (ofLe bs)) bad l.ea
    watch 1 ls
    after o

/-- ST (R270). -/
def execSt (x : FmtM) (s : State) : Host.Outcome State Fault Refusal :=
  s.instr x.e x.w do
    let vs ← srcs [x.a, x.d]
    let n := sizeOf x.size
    let o ← ordering false x.order x.scope
    let ls ← access x.seg.toNat [offset (arg vs 0) (x.off.signExtend 64)] n n needW
    before o
    for l in ls do
      store o.2 l (leBytes n (arg vs 1).toNat)
    watch 2 ls

/-- The 64 offsets of a vector access, each reduced to 64 bits (R271). -/
def offsets (f : Nat → Word) : List Nat := (List.range 64).map fun i => (f i).toNat

/-- The lanes of a vector load, and the first lane that has an uncorrectable error (R271, R273). -/
def loadLanes (n : Nat) (sx : Bool) (scope : Nat) : List Lane → M (List (BitVec 32) × Option Nat)
  | [] => pure ([], none)
  | l :: r => do
    let (bs, bad) ← load scope l
    let (v, bads) ← loadLanes n sx scope r
    return ((extend n sx (ofLe bs)).setWidth 32 :: v, if bad then some l.ea else bads)

/-- The lanes of a vector store, lane 0 first (R271). -/
def storeLanes (n : Nat) (scope : Nat) (v : BitVec 2048) : Nat → List Lane → M Unit
  | _, [] => pure ()
  | i, l :: r => do
    store scope l (leBytes n (lane v i).toNat)
    storeLanes n scope v (i + 1) r

/-- R271: a vector load of elements at the offsets. The lanes land in the issue cycle (log 6). -/
def vload (d : Spec) (seg : BitVec 3) (size : BitVec 3) (sx : Bool) (order : BitVec 2)
    (scope : BitVec 3) (offs : List Nat) : M Unit := do
  let n := sizeOf size
  let o ← ordering true order scope
  let ls ← access seg.toNat offs n n needR
  before o
  let (v, bad) ← loadLanes n sx o.2 ls
  result 0 d.toNat (if bad.isSome then 0 else ofLanes v) (BitVec.allOnes 2048)
  watch 1 ls
  match bad with
  | some ea => pendError ea
  | none => pure ()
  after o

/-- R271: a vector store; a higher lane's bytes remain. -/
def vstore (d : Spec) (seg : BitVec 3) (size : BitVec 3) (order : BitVec 2) (scope : BitVec 3)
    (offs : List Nat) : M Unit := do
  let v ← readV d
  let n := sizeOf size
  let o ← ordering false order scope
  let ls ← access seg.toNat offs n n needW
  before o
  storeLanes n o.2 v 0 ls
  watch 2 ls

/-- VLD (R271). -/
def execVld (x : FmtM) (s : State) : Host.Outcome State Fault Refusal :=
  s.instr x.e x.w do
    checkPend x.d.toNat
    let a ← src x.a
    vload x.d x.seg x.size x.sext x.order x.scope
      (offsets fun i => a + x.off.signExtend 64 + word (i * sizeOf x.size))

/-- VST (R271). -/
def execVst (x : FmtM) (s : State) : Host.Outcome State Fault Refusal :=
  s.instr x.e x.w do
    checkPend x.d.toNat
    let a ← src x.a
    vstore x.d x.seg x.size x.order x.scope
      (offsets fun i => a + x.off.signExtend 64 + word (i * sizeOf x.size))

/-- VLDS (R271). -/
def execVlds (x : FmtM2) (s : State) : Host.Outcome State Fault Refusal :=
  s.instr x.e x.w do
    checkPend x.d.toNat
    let vs ← srcs [x.a, x.b]
    vload x.d x.seg x.size x.sext x.order x.scope
      (offsets fun i => arg vs 0 + x.off.signExtend 64 + word i * arg vs 1)

/-- VSTS (R271). -/
def execVsts (x : FmtM2) (s : State) : Host.Outcome State Fault Refusal :=
  s.instr x.e x.w do
    checkPend x.d.toNat
    let vs ← srcs [x.a, x.b]
    vstore x.d x.seg x.size x.order x.scope
      (offsets fun i => arg vs 0 + x.off.signExtend 64 + word i * arg vs 1)

/-- VGTH (R271): va is read at issue. -/
def execVgth (x : FmtM) (s : State) : Host.Outcome State Fault Refusal :=
  s.instr x.e x.w do
    checkPend x.d.toNat
    let va ← readV x.a
    vload x.d x.seg x.size x.sext x.order x.scope
      (offsets fun i => (lane va i).signExtend 64 + x.off.signExtend 64)

/-- VSCT (R271). -/
def execVsct (x : FmtM) (s : State) : Host.Outcome State Fault Refusal :=
  s.instr x.e x.w do
    checkPend x.d.toNat
    let va ← readV x.a
    vstore x.d x.seg x.size x.order x.scope
      (offsets fun i => (lane va i).signExtend 64 + x.off.signExtend 64)

/-- A block of `n` bytes that the thread reads at a store: none where its packet from another die fails, and then gd
fills with 0 and the thread has a data error (R273, R373). -/
def blockAt (d : Nat) (p : Nat × Nat) (n : Nat) : M (Option (List Byte)) := do
  let l : Lane := { ea := winAddr p.1 p.2, n }
  if ← packetFails 1 l then
    sendFill d 0 true l.ea
    return none
  else
    watch 1 [l]
    return some ((← get).rdStore p.1 p.2 n)

/-! ### Line operations and FENCE (R272, R273) -/

/-- R272: the segment check of the whole aligned 32-byte line that holds the byte at `off`: its address,
or the sub-code and detail. The detail is the computed offset, or the line's where the line lies past the limit or lacks
the right (log 44). -/
def lineCheck (sg : Seg) (dom : Byte) (off : Nat) : Except (Nat × Nat) Nat :=
  if sg.dom ≠ dom then .error (3, off)
  else
    let ea := (sg.base.toNat + off) % 2 ^ 64
    if off < ea % 32 then .error (1, off)
    else segCheck sg dom (off - ea % 32) 32 needR

/-- The checks of WBL and INVL (R276): segment, store, range table; the line's address. -/
def lineAccess (x : FmtM) (a : Word) : M Nat := do
  let t ← thread
  match lineCheck (rd t.seg x.seg.toNat {}) t.dom (offset a (x.off.signExtend 64)) with
  | .error e => segTrap x.seg.toNat e
  | .ok ea =>
    if inWin ea then let _ ← storeCheck ea 32
    noRangeHit ea 32 false
    return ea

/-- PREF (R272): never traps; a check that fails, or a missing translation, makes it do nothing. -/
def execPref (x : FmtM) (s : State) : Host.Outcome State Fault Refusal :=
  s.instr x.e x.w do
    let a ← src x.a
    let s0 ← get
    let t := s0.thread
    match lineCheck (rd t.seg x.seg.toNat {}) t.dom (offset a (x.off.signExtend 64)) with
    | .error _ => pure ()
    | .ok ea =>
      if inWin ea || (s0.me.rangeHit t.dom t.tid ea 32 false).isSome then pure ()
      else if ← walkLost { ea, n := 1 } needR then pure ()
      else
        match ← xlate ea needR with
        | .ok pa =>
          let l : Lane := { ea := lineOf ea, n := 32, pa := lineOf pa }
          let lost ← packetFails x.scope.toNat l
          modify fun s => if lost || x.scope ≠ 1 || s.fillBad s.cur t.dom l then s
            else (s.fillLine s.cur t.dom ea pa).2
        | _ => pure ()

/-- WBL (R272): scope core does nothing. -/
def execWbl (x : FmtM) (s : State) : Host.Outcome State Fault Refusal :=
  s.instr x.e x.w do
    let a ← src x.a
    let ea ← lineAccess x a
    if inWin ea || x.scope = 1 then pure ()
    else modify fun s => s.flushVa s.cur s.thread.dom ea true

/-- INVL (R272). -/
def execInvl (x : FmtM) (s : State) : Host.Outcome State Fault Refusal :=
  s.instr x.e x.w do
    let a ← src x.a
    let ea ← lineAccess x a
    if inWin ea then pure ()
    else modify fun s => s.flushVa s.cur s.thread.dom ea false

/-- FENCE (R273). -/
def execFence (x : FmtM) (s : State) : Host.Outcome State Fault Refusal :=
  s.instr x.e x.w do
    before (x.order.toNat, x.scope.toNat)
    after (x.order.toNat, x.scope.toNat)

/-! ### Atomics (R274, R275) -/

/-- The bytes of an atomic at its coherence point; outside the window at cluster or wider the core's
copy is written back and dropped first (R274). -/
def State.atomRead (s : State) (c : Nat) (dom : Byte) (scope : Nat) (l : Lane) : List Byte × State :=
  if l.win || scope ≤ 1 then s.load c dom scope l
  else
    let s := l.lines.foldl (fun s va => s.flushVa c dom va false) s
    ((List.range l.n).map fun i => s.rdPa dom.toNat (l.phys i), s)

/-- One indivisible step: the new bytes are `f old`, none for no write; the old value returns, or 0 and true where
the data has an uncorrectable error, and then nothing is written (R273; log 44), and a watchpoint of its kind sees it
(R346). It is one access (R395). -/
def atomic (scope : Nat) (l : Lane) (f : Nat → Option Nat) : M (Nat × Bool) := do
  let lost ← packetFails scope l
  let s ← get
  let dom := s.thread.dom
  if lost || s.laneBad s.cur dom scope l then
    watch 1 [l]
    return (0, true)
  else
    let (bs, s1) := s.atomRead s.cur dom scope l
    let old := ofLe bs
    let s2 := s1.modMe fun k => k.count 20 none dom.toNat 1
    match f old with
    | some v =>
      set (s2.storeBytes s2.cur dom scope l (leBytes l.n v))
      watch 3 [l]
    | none =>
      set s2
      watch 1 [l]
    return (old, false)

/-- R274: the shared effect of the atomics that write f(old, A). -/
def amo (x : FmtM) (f : Nat → Nat → Nat → Nat) : M Unit := do
  let vs ← srcs [x.a, x.d]
  let n := sizeOf x.size
  let o := (x.order.toNat, x.scope.toNat)
  let ls ← access x.seg.toNat [offset (arg vs 0) (x.off.signExtend 64)] n n needRWA
  before o
  for l in ls do
    let (old, bad) ← atomic o.2 l fun old => some (f n old ((arg vs 1).toNat % 2 ^ (8 * n)))
    sendFill x.d.toNat (extend n x.sext old) bad l.ea
  after o

/-- The value of `n` bytes read as signed. -/
def asInt (n v : Nat) : Int := (BitVec.ofNat (8 * n) v).toInt

/-- AMOADD (R274). -/
def execAmoadd (x : FmtM) (s : State) : Host.Outcome State Fault Refusal :=
  s.instr x.e x.w (amo x fun _ old a => old + a)

/-- AMOAND (R274). -/
def execAmoand (x : FmtM) (s : State) : Host.Outcome State Fault Refusal :=
  s.instr x.e x.w (amo x fun _ old a => old &&& a)

/-- AMOOR (R274). -/
def execAmoor (x : FmtM) (s : State) : Host.Outcome State Fault Refusal :=
  s.instr x.e x.w (amo x fun _ old a => old ||| a)

/-- AMOXOR (R274). -/
def execAmoxor (x : FmtM) (s : State) : Host.Outcome State Fault Refusal :=
  s.instr x.e x.w (amo x fun _ old a => old ^^^ a)

/-- AMOMIN (R274): signed. -/
def execAmomin (x : FmtM) (s : State) : Host.Outcome State Fault Refusal :=
  s.instr x.e x.w (amo x fun n old a => if asInt n a < asInt n old then a else old)

/-- AMOMAX (R274): signed. -/
def execAmomax (x : FmtM) (s : State) : Host.Outcome State Fault Refusal :=
  s.instr x.e x.w (amo x fun n old a => if asInt n old < asInt n a then a else old)

/-- AMOMINN (R274): unsigned. -/
def execAmominn (x : FmtM) (s : State) : Host.Outcome State Fault Refusal :=
  s.instr x.e x.w (amo x fun _ old a => Nat.min old a)

/-- AMOMAXN (R274): unsigned. -/
def execAmomaxn (x : FmtM) (s : State) : Host.Outcome State Fault Refusal :=
  s.instr x.e x.w (amo x fun _ old a => Nat.max old a)

/-- AMOSWP (R274). -/
def execAmoswp (x : FmtM) (s : State) : Host.Outcome State Fault Refusal :=
  s.instr x.e x.w (amo x fun _ _ a => a)

/-- AMOFMAX (R274, R166): A may carry any sign. -/
def execAmofmax (x : FmtM) (s : State) : Host.Outcome State Fault Refusal :=
  s.instr x.e x.w (amo x fun _ old a => (fmax (BitVec.ofNat 32 old) (BitVec.ofNat 32 a)).toNat)

/-- gd, gd+1, … as 6-bit specifiers. -/
def gNext (d : Spec) (i : Nat) : Spec := d + BitVec.ofNat 6 i

/-- CAS (R275): gd is expected, gd+1 the new value; gd receives the old one. -/
def execCas (x : FmtM) (s : State) : Host.Outcome State Fault Refusal :=
  s.instr x.e x.w do
    let vs ← srcs [x.a, x.d, gNext x.d 1]
    let n := sizeOf x.size
    let o := (x.order.toNat, x.scope.toNat)
    let ls ← access x.seg.toNat [offset (arg vs 0) (x.off.signExtend 64)] n n needRWA
    before o
    for l in ls do
      let (old, bad) ← atomic o.2 l fun old =>
        if old = (arg vs 1).toNat % 2 ^ (8 * n) then some (arg vs 2).toNat else none
      sendFill x.d.toNat (word old) bad l.ea
    after o

/-- CAS2 (R275): gd+1 : gd is expected, gd+3 : gd+2 the new value. -/
def execCas2 (x : FmtM) (s : State) : Host.Outcome State Fault Refusal :=
  s.instr x.e x.w do
    let vs ← srcs [x.a, x.d, gNext x.d 1, gNext x.d 2, gNext x.d 3]
    let o := (x.order.toNat, x.scope.toNat)
    let ls ← access x.seg.toNat [offset (arg vs 0) (x.off.signExtend 64)] 16 16 needRWA
    before o
    for l in ls do
      let (old, bad) ← atomic o.2 l fun old =>
        if old = (arg vs 1).toNat + 2 ^ 64 * (arg vs 2).toNat then
          some ((arg vs 3).toNat + 2 ^ 64 * (arg vs 4).toNat) else none
      sendFill x.d.toNat (word old) bad l.ea
      sendFill (gNext x.d 1).toNat (word (old / 2 ^ 64)) false l.ea
    after o

end Sys2Proof.Machine
end

