-- ==== Sys2Proof/Machine/Cue.lean ====
section
/-! DEFINITION. Cue tables: the key and the match (R124 to R127), the actions of a chosen cue (R130 to
R136, R339, R366, R367), the instructions CUEW, CUECUT, CUERD and CUESEL (R144 to R149) and the commit of
cuts (R139, R141). -/

namespace Sys2Proof.Machine

/-! ### Fetching a word through s0 (R131, R253) -/

/-- The bytes of an element that the core reads as it holds them: at the target store, in the L1 where it holds the
line, else at the home L2 (log 8). -/
def State.peek (s : State) (c : Nat) (dom : Byte) (l : Lane) : List Byte :=
  if l.win then let p := storeLoc c l.ea; s.rdStore p.1 p.2 l.n
  else (List.range l.n).map fun i =>
    match (s.core c).lineAt dom (l.ea + i) with
    | some x => x.byte ((l.ea + i) % 32)
    | none => s.rdPa dom.toNat (l.phys i)

/-- A byte of the element that the L1 does not hold answers as an uncorrectable error (R393). -/
def State.peekBad (s : State) (c : Nat) (dom : Byte) (l : Lane) : Bool :=
  !l.win && (List.range l.n).any fun i =>
    (s.missing c dom l).contains (lineOf (l.ea + i)) && s.isBad (l.phys i) 1

/-- Reads the 8-byte word `pc` of s0 with rights `nd`, under the checks of every access (R211, R253, R255, R261): none
where its packet fails or its data has an error, which then is pending (R273, R373; log 35). -/
def fetchAt (pc : Nat) (nd : Need) : M (Option Word) := do
  let ea ← segOf 0 (8 * pc) 8 nd
  if inWin ea then let _ ← storeCheck ea 8
  noRangeHit ea 8 false
  let (ls, miss) ← xlateLanes nd 8 [ea]
  match miss with
  | some va => missingPage va false
  | none =>
    let l := ls.headD { ea, n := 8 }
    afterInit [l]
    let lost ← packetFails 0 l
    let s ← get
    let dom := s.thread.dom
    if lost || s.peekBad s.cur dom l then
      pendError ea
      return none
    else return some (word (ofLe (s.peek s.cur dom l)))

/-- The word at offset `pc` of s0 is read through the window (R395): a word that issues, and one that a lookup reads, is
one access (log 33). -/
def Thread.wordWin (t : Thread) (pc : Nat) : Bool := inWin ((rd t.seg 0 {}).base.toNat + 8 * pc)

/-- The next word of the issuing thread: the first word of a shot needs X of s0, the others no right (R253). -/
def fetch : M (Option Word) := do
  let t ← thread
  fetchAt t.pc.toNat (if t.first then needX else 0)

/-! ### The key and the match (R124, R127) -/

/-- The descriptor of core set `n` (R121). -/
def Core.descOf (k : Core) (n : Nat) : CueDesc := Tab.get {} k.desc n
def Core.cueAt (k : Core) (i : Nat) : CueEnt := Tab.get {} k.cue i

/-- R124: the key in the lookup cycle. -/
def Thread.key (t : Thread) (d : CueDesc) (slot : Nat) : Word :=
  let sel := if d.selreg = 0 then 0 else fld (rd t.g d.selreg 0) d.sello 16
  let z := ((List.range 4).map fun i => if rd t.c i 0 = 0 then 2 ^ i else 0).sum
  word (sel <<< 48 ||| t.tag.toNat <<< 40 ||| t.f.toNat <<< 32 ||| z <<< 28 ||| slot <<< 20
    ||| t.ident.stg.toNat <<< 16 ||| t.prm.toNat)

/-- The key of the issuing thread's current set. -/
def State.lookupKey (s : State) : Word :=
  s.thread.key (s.me.descOf s.thread.cset) s.me.turnSlot

/-- R125: the selector register is full. -/
def State.selFull (s : State) : Bool := s.thread.isFull (s.me.descOf s.thread.cset).selreg

/-- R127: an entry matches a key. -/
def CueEnt.hits (e : CueEnt) (key : Word) : Bool :=
  e.valid && ((key ^^^ e.live.value) &&& e.live.mask) == 0

/-- The lowest-indexed valid entry of a set that matches (R127). -/
def Core.winner (k : Core) (set : Nat) (key : Word) : Option CueEnt :=
  let d := k.descOf set
  ((List.range d.count).map fun i => k.cueAt (d.base + i)).find? (·.hits key)

/-- The detail of a lookup's trap (R350). -/
def lookupDet (set : Nat) (badframe explicit : Bool) : Word :=
  word (set ||| (if badframe then 256 else 0) ||| (if explicit then 512 else 0))

/-! ### What a chosen cue does (R130 to R134) -/

/-- R130: the counter operation. -/
def Thread.counterOp (t : Thread) (cnt : BitVec 4) (key : Word) : Thread :=
  let n := fld cnt 0 2
  match fld cnt 2 2 with
  | 1 => { t with c := wr t.c n (rd t.c n 0 - 1) }
  | 2 => { t with c := wr t.c n (BitVec.ofNat 32 (fld key 48 16)) }
  | 3 => { t with c := wr t.c n 0 }
  | _ => t

/-- The thread goes on at shot `ns` with prm and set as the cue gives them (R131). -/
def Thread.goto (t : Thread) (ns : BitVec 32) (nset : Nat) (np : BitVec 16) : Thread :=
  { t with pc := ns, cset := nset, prm := np, atLookup := false, first := true, chosen := true }

/-- The lookup of the issuing thread: its key, after a wait on the selector (R125). -/
def keyNow : M Word := fun s => if s.selFull then .ok (s.lookupKey, s) else .error (.wait 3, s)

/-- A lookup's trap with the key and the set in its detail (R136, R350). -/
def lookupTrap {α : Type} (cause sub : Nat) (badframe explicit : Bool) : M α := do
  let s ← get
  raise cause sub s.lookupKey (lookupDet s.thread.cset badframe explicit)

/-- The end of a chosen cue: the counter operation, then prm, set and shot. -/
def finishCue (q : CueAct) (key : Word) (ns : BitVec 32) (nset : Nat) (np : BitVec 16) : M Unit :=
  modThread fun t => (t.counterOp q.cnt key).goto ns nset np

/-- R136, R350: the detail of any trap of an access that a lookup makes is the key and the core set number. -/
def inLookup {α : Type} (m : M α) : M α := fun s =>
  match m s with
  | .error (.trap cause sub _ _, a) => .error (.trap cause sub s.lookupKey (lookupDet s.thread.cset false false), a)
  | r => r

/-- The access of a call frame in s7 (R132, R136, R211): rights R and W, plain, scope slot. It stays plain under
the fence-strengthening mode, and the traps that R136 does not list are taken (log 37). -/
def frameAccess (off : Nat) (nd : Need) : M (List Lane) := inLookup do
  let _ ← segOf 7 off 16 needRW
  let ea ← segOf 7 off 16 nd
  if inWin ea then let _ ← storeCheck ea 16
  noRangeHit ea 16 (nd.getLsbD 1)
  let (ls, miss) ← xlateLanes nd 16 [ea]
  match miss with
  | some va => missingPage va (nd.getLsbD 1)
  | none =>
    afterInit ls
    return ls

/-- Push (R132, R133). -/
def pushFrame (shot : BitVec 32) (set : Byte) (prm : BitVec 16) : M Unit := do
  let t ← thread
  if (rd t.seg 7 {}).limit.toNat < t.csp.toNat + 16 then lookupTrap 14 0 false false
  let ls ← frameAccess t.csp.toNat needW
  for l in ls do
    store 0 l (leBytes 16 (shot.toNat ||| set.toNat <<< 32 ||| prm.toNat <<< 48))
  watch 2 ls
  modThread fun t => { t with csp := t.csp + 16 }

/-- A set of the thread's domain (R132). -/
def Core.ownSet (k : Core) (dom : Byte) (set : Nat) : Bool :=
  set < 64 && (k.descOf set).count != 0 && (k.descOf set).dom == dom

/-- NEXT (R131). -/
def execNext (q : CueAct) (s : State) : Host.Outcome State Fault Refusal :=
  s.atPoint do
    let key ← keyNow
    finishCue q key q.wordA q.nset.toNat q.prm

/-- CALL (R131 to R133). -/
def execCall (q : CueAct) (s : State) : Host.Outcome State Fault Refusal :=
  s.atPoint do
    let key ← keyNow
    pushFrame q.wordB q.rset (← thread).prm
    finishCue q key q.wordA q.nset.toNat q.prm

/-- ICALL (R134): the index is key[63:48]. A table word that meets a data error leaves the thread at its lookup,
with the event pending (R273). -/
def execIcall (q : CueAct) (s : State) : Host.Outcome State Fault Refusal :=
  s.atPoint do
    let key ← keyNow
    let t ← thread
    let x := (← get).ctx t.ctx
    let k := fld key 48 16
    if x.ftCount ≤ k then lookupTrap 12 1 false false
    match ← inLookup (fetchAt (x.ftBase + k) needX) with
    | none => pure ()
    | some fe =>
      countWindow ((rd t.seg 0 {}).base.toNat + 8 * (x.ftBase + k))
      if fld fe 32 32 ≠ q.wordB.toNat then lookupTrap 12 2 false false
      pushFrame q.wordA q.rset t.prm
      finishCue q key (fe.extractLsb' 0 32) q.nset.toNat q.prm

/-- RET (R131 to R133). A frame that meets a data error leaves the thread at its lookup, with the event pending
(R273). -/
def execRet (q : CueAct) (s : State) : Host.Outcome State Fault Refusal :=
  s.atPoint do
    let key ← keyNow
    let t ← thread
    if t.csp = 0 then lookupTrap 15 0 false false
    let ls ← frameAccess (t.csp - 16).toNat needR
    for l in ls do
      let (bs, bad) ← load 0 l
      if bad then pendError l.ea else
      let fr := ofLe bs
      watch 1 [l]
      let set := fr / 2 ^ 32 % 256
      if (← core).ownSet t.dom set then pure () else lookupTrap 11 0 true false
      modThread fun t => { t with csp := t.csp - 16 }
      finishCue q key (BitVec.ofNat 32 fr) set (BitVec.ofNat 16 (fr / 2 ^ 48))

/-- MISS-TRAP (R131): explicit = 1. -/
def execMissTrap (_ : CueAct) (s : State) : Host.Outcome State Fault Refusal :=
  s.atPoint do
    let _ ← keyNow
    lookupTrap 11 1 false true

/-- No valid entry matches: the cue-miss trap (R127, R136). So it is with a phase that no cue of the set names: the set
`arr` of R292 has none for the phase that its last row reaches (log 43). -/
def State.cueMiss (s : State) : Host.Outcome State Fault Refusal :=
  s.atPoint do
    let _ ← keyNow
    lookupTrap 11 0 false false

/-- ERET (R339): in a thread that runs no handler it is a cue-miss with badframe (R135). -/
def execEret (_ : CueAct) (s : State) : Host.Outcome State Fault Refusal :=
  s.atPoint do
    let _ ← keyNow
    let s0 ← get
    let t := s0.thread
    if t.tret.getLsbD 56 then
      let set := ((s0.ctx t.ctx).coreSet (fld t.tret 48 6)).getD 0
      let lastE := match fetchAt (fld t.tret 0 32) 0 s0 with
        | .ok (some w, _) => w.getLsbD 63
        | _ => false
      if fld t.tret 54 2 = 1 then countWindow ((rd t.seg 0 {}).base.toNat + 8 * fld t.tret 0 32)
      modThread fun t => t.leave set lastE
    else lookupTrap 11 0 true false

/-! ### Gates (R365 to R367) -/

/-- R73, R24: the domain's share of the core's deque is full, or the 64 records of the deque are (R19); a domain that is
not present has no share. -/
def Core.shareFull (k : Core) (d : Nat) : Bool :=
  !k.present d || k.dequeShare d ≤ (k.deque.filter fun r => r.dom.toNat == d).length || 64 ≤ k.deque.length

/-- A record at the bottom of its share or, where that is full, at the head of the core's pending list (R80). -/
def Core.pushResume (k : Core) (r : Rec) : Core :=
  if k.shareFull r.dom.toNat then { k with pendHead := r :: k.pendHead } else { k with deque := k.deque ++ [r] }

/-- R90: a record behind every record of its share or, where that is full, at the head of the core's pending list
(log 18). -/
def Core.pushTop (k : Core) (r : Rec) : Core :=
  if k.shareFull r.dom.toNat then { k with pendHead := r :: k.pendHead } else { k with deque := r :: k.deque }

/-- R73: a push at the bottom of the share. -/
def Core.pushBottom (k : Core) (r : Rec) : Core := { k with deque := k.deque ++ [r] }

/-- The four words of a gate table entry (R365). -/
def State.gateEntry (s : State) (x : Ctx) (k : Nat) : Option (Word × Word × Word) :=
  let w := fun i => s.rdWord (x.gateBase + 32 * k + 8 * i)
  if x.gateCount ≤ k then none
  else if (w 0).getLsbD 63 && fld (w 0) 56 7 == 0 && fld (w 0) 38 10 == 0 && !(w 1).getLsbD 0
      && fld (w 2) 32 32 == 0 && w 3 == 0 then some (w 0, w 1, w 2)
  else none

/-- The full registers of a pass mask. -/
def passRegs (m : BitVec 32) : List Nat := (List.range 32).filter fun i => i ≠ 0 && m.getLsbD i

/-- The entry of a gate is read in memory (R365): its packet may fail, and then the thread has a data error (R273,
R373; log 35). -/
def gateRead (x : Ctx) (k : Nat) : M Bool := do
  if x.gateCount ≤ k then return false
  let e : Lane := { ea := x.gateBase + 32 * k, n := 32 }
  if ← packetFails 2 e then
    pendError e.ea
    return true
  else return false

/-- GATE (R366). A lookup that waits for the pass registers is performed anew, with a fresh key and cut, in the slot's
next issue cycle (log 41). An entry that meets a data error leaves the thread at its lookup, with the event pending
(R273). -/
def execGate (q : CueAct) (s : State) : Host.Outcome State Fault Refusal :=
  s.atPoint do
    let key ← keyNow
    if ← gateRead ((← get).ctx (← thread).ctx) q.wordB.toNat then return
    let s0 ← get
    let t := s0.thread
    match s0.gateEntry (s0.ctx t.ctx) q.wordB.toNat with
    | none => lookupTrap 13 1 false false
    | some (w0, w1, w2) =>
      let tdom := fld w0 48 8
      if s0.me.present tdom then pure () else lookupTrap 13 2 false false
      if s0.me.shareFull tdom then lookupTrap 13 3 false false
      let pass := w1.extractLsb' 0 32
      waitFor ((passRegs pass).all t.isFull) 3
      release 0
      modMe fun k => k.pushBottom
        { dom := BitVec.ofNat 8 tdom, launch := none, ctx := fld w2 0 32
          hndl := (s0.ctx (fld w2 0 32)).hndl
          nosteal := true, since := k.cycle
          kind := .gate (w0.extractLsb' 0 32) (fld w0 32 6) q.prm
            ((passRegs pass).map fun i => (i, rd t.g i 0)) ⟨t.tid, pass⟩ }
      modThread fun t => { t with status := .gateWait q.wordA q.cnt key }

/-- GRET (R367): the service thread drains, and DRAIN_END returns to the caller. A lookup that waits is performed anew
(log 41). -/
def execGret (q : CueAct) (s : State) : Host.Outcome State Fault Refusal :=
  s.atPoint do
    let key ← keyNow
    let t ← thread
    match t.gate with
    | none => lookupTrap 13 4 false false
    | some g =>
      waitFor ((passRegs g.pass).all t.isFull) 3
      let k ← core
      modThread fun t => { t with status := .returning q.cnt key k.cycle }

/-! ### CUEW, CUECUT, CUERD and CUESEL (R144 to R149) -/

/-- SetMap(n) of the issuing thread: the map holds only sets of the context's domain, so none that domain 0 has since freed
or given away (R120; log 44). -/
def State.mapped (s : State) (n : Nat) : Option Nat :=
  ((s.ctx s.thread.ctx).coreSet n).filter (s.me.ownSet s.thread.dom)

/-- SetMap(n), or the cue-access trap (R150). -/
def setMap (n : Nat) : M Nat := do
  let s ← get
  match s.mapped n with
  | some c => return c
  | none => raise 16 1

/-- Whether a kind uses its next-set and return-set fields (R129). -/
def usesNset (kind : Nat) : Bool := kind < 3
def usesRset (kind : Nat) : Bool := kind == 1 || kind == 2

/-- The action with its used set fields replaced (R145, R148). -/
def mapSets (a : BitVec 128) (f : Nat → Nat) : BitVec 128 :=
  let kind := fld a 28 4
  let a := if usesNset kind then setFld a 56 8 (f (fld a 56 8)) else a
  if usesRset kind then setFld a 48 8 (f (fld a 48 8)) else a

def Core.putCue (k : Core) (i : Nat) (e : CueEnt) : Core := { k with cue := Tab.set {} k.cue i e }

/-- CUEW's dis and set fields (R144). -/
def cueSet (x : FmtS) : Nat := fld x.op 0 6

/-- CUEW (R145). -/
def execCuew (x : FmtS) (s : State) : Host.Outcome State Fault Refusal :=
  s.instr x.e x.w do
    let dis := x.op.getLsbD 6
    let vs ← srcs (if dis then [x.b] else if x.a = 0 then [0, 0, 0, 0, x.b]
      else [x.a, x.a + 1, x.a + 2, x.a + 3, x.b])
    let i := (vs.getLastD 0).toNat
    let cs ← setMap (cueSet x)
    let d := (← core).descOf cs
    need (i < d.count) 16 2
    if dis then
      modMe fun k => k.putCue (d.base + i)
        { k.cueAt (d.base + i) with sdis := true, staged := true, taken := false }
    else
      let act : BitVec 128 := (arg vs 3).setWidth 128 <<< 64 ||| (arg vs 2).setWidth 128
      need (decodeCue act).isSome 16 3
      let kind := fld act 28 4
      let s ← get
      need (!usesNset kind || (s.mapped (fld act 56 8)).isSome) 16 4
      need (!usesRset kind || (s.mapped (fld act 48 8)).isSome) 16 4
      let img : CueImg := ⟨arg vs 0, arg vs 1, mapSets act fun o => (s.mapped o).getD 0⟩
      modMe fun k => k.putCue (d.base + i)
        { k.cueAt (d.base + i) with
          shadow := img, sdis := false, staged := true, taken := false, wrote := true }

/-- The staged entries of a set, as the changes of a cut (R139). -/
def Core.stagedOf (k : Core) (d : CueDesc) : List (Nat × Option CueImg) :=
  ((List.range d.count).map (d.base + ·)).filterMap fun i =>
    let e := k.cueAt i
    if e.staged then some (i, if e.sdis then none else some e.shadow) else none

/-- CUECUT (R146): d receives the cut number after this commit. -/
def execCuecut (x : FmtS) (s : State) : Host.Outcome State Fault Refusal :=
  s.instr x.e x.w do
    waitDst x.d
    let cs ← setMap (cueSet x)
    let k ← core
    let d := k.descOf cs
    let ch := k.stagedOf d
    modMe fun k => { k with
      cuts := k.cuts ++ [⟨cs, ch⟩]
      cue := ch.foldl (fun t c => Tab.set {} t c.1 { Tab.get {} t c.1 with taken := true }) k.cue }
    tally 9 1
    write x.d ((d.cut + BitVec.ofNat 16 ((k.cuts.filter (·.set == cs)).length + 1)).setWidth 64)

/-- A committed change of one entry (R139). -/
def CueEnt.commit (e : CueEnt) (c : Option CueImg) : CueEnt :=
  let e := match c with
    | none => { e with valid := false }
    | some i => { e with live := i, valid := true }
  if e.taken then { e with staged := false, sdis := false, taken := false } else e

/-- The cuts of a turn commit at its end, in issue order (R139, R141). -/
def Core.commitCuts (k : Core) : Core :=
  let k := k.cuts.foldl (fun k c =>
    { k with
      cue := c.changes.foldl (fun t ch => Tab.set {} t ch.1 ((Tab.get {} t ch.1).commit ch.2)) k.cue
      desc := Tab.set {} k.desc c.set { k.descOf c.set with cut := (k.descOf c.set).cut + 1 } }) k
  { k with cuts := [] }

/-- CUERD (R148). -/
def execCuerd (x : FmtS) (s : State) : Host.Outcome State Fault Refusal :=
  s.instr x.e x.w do
    waitDst x.d
    let indexed := 1 ≤ x.item ∧ x.item ≤ 5
    let vs ← srcs (if indexed then [x.b] else [])
    let cs ← setMap (cueSet x)
    let k ← core
    let d := k.descOf cs
    let i := (arg vs 0).toNat
    if indexed then need (i < d.count) 16 2
    let e := k.cueAt (d.base + i)
    let img := if x.op.getLsbD 9 then e.shadow else e.live
    let x' := (← get).ctx (← thread).ctx
    let act := if x.op.getLsbD 9 && !e.wrote then 0 else mapSets img.action x'.objSet
    write x.d (match x.item with
      | 0 => d.cut.setWidth 64
      | 1 => img.value
      | 2 => img.mask
      | 3 => act.extractLsb' 0 64
      | 4 => act.extractLsb' 64 64
      | 5 => word ((if e.valid then 1 else 0) + (if e.staged then 2 else 0) + (if e.sdis then 4 else 0))
      | _ => word (d.count ||| d.selreg <<< 16 ||| d.sello <<< 24 ||| cs <<< 32))

/-- CUESEL (R149). -/
def execCuesel (x : FmtS) (s : State) : Host.Outcome State Fault Refusal :=
  s.instr x.e x.w do
    waitDst x.d
    let n ← if x.op.getLsbD 6 then do
        let a ← src x.a
        pure (fld a 0 6)
      else pure (cueSet x)
    let cs ← setMap n
    let old := ((← get).ctx (← thread).ctx).objSet (← thread).cset
    write x.d (word old)
    modThread fun t => { t with cset := cs }

end Sys2Proof.Machine
end

