-- ==== Sys2Proof/Machine/Slot.lean ====
section
/-! DEFINITION. Threads, slots, deques and launches (R67 to R93): task records, context frames (R340), the
start, save and end of a thread, the instructions SPAWN, SPAWNR, LAUNCH, PARK, YIELD, EXIT, SEND and TIME,
and the events of the scheduler. -/

namespace Sys2Proof.Machine

/-! ### Task records (R70, R71) -/

/-- A record as 64 bytes in memory hold it. -/
structure RawTask where
  bits : Nat
  deriving DecidableEq, Repr

def RawTask.f (r : RawTask) (byte lo len : Nat) : Nat := r.bits / 2 ^ (8 * byte + lo) % 2 ^ len

def RawTask.ident (r : RawTask) : Ident where
  ez := BitVec.ofNat 8 (r.f 6 70 8)
  ey := BitVec.ofNat 8 (r.f 6 62 8)
  ex := BitVec.ofNat 8 (r.f 6 54 8)
  oz := BitVec.ofNat 18 (r.f 6 36 18)
  oy := BitVec.ofNat 18 (r.f 6 18 18)
  ox := BitVec.ofNat 18 (r.f 6 0 18)
  stg := BitVec.ofNat 4 (r.f 5 0 4)

/-- Some extent is 0 (R71). -/
def Ident.empty (i : Ident) : Bool := i.ex == 0 || i.ey == 0 || i.ez == 0

def RawTask.mbz (r : RawTask) : Bool := r.f 4 6 2 == 0 && r.f 5 5 3 == 0 && r.f 6 78 2 == 0

def RawTask.kind (r : RawTask) : RecKind :=
  .task (BitVec.ofNat 32 (r.f 0 0 32)) (r.f 4 0 6) r.ident
    ((List.range 6).map fun i => word (r.f (0x10 + 8 * i) 0 64))

/-- R71: the set lies on the core, belongs to the domain and lies wholly in its cue-entry range. -/
def Core.setValid (k : Core) (dom set : Nat) : Bool :=
  let d := k.descOf set
  d.count != 0 && d.dom.toNat == dom && k.cueBase dom ≤ d.base
    && d.base + d.count ≤ k.cueBase dom + k.cueCount dom

/-- The cores of a placement: the issuing core, its cluster or its die (R88). -/
def placeCores (me place : Nat) : List Nat :=
  match place with
  | 0 => [me]
  | 1 => (List.range 16).map (clusterOf me * 16 + ·)
  | _ => (List.range 256).map (dieOf me * 256 + ·)

/-- The cores that serve stage `st` of a launch: the stage's own (R76), or every core of the placement, dealt to or not
(R88). -/
def Launch.stageCores (l : Launch) (st : Nat) : List Nat :=
  match l.units with
  | .host _ _ _ stages => (stages[st]?.map (·.2.2)).getD []
  | .device _ _ place =>
    match l.req with
    | .thread core _ _ => placeCores core place
    | .queue .. => []

/-- The cores on which a task of the launch may have run (R74, R79): those of its stages, and every core of the
placement, which may have stolen a unit. -/
def Launch.servers (l : Launch) : List Nat :=
  match l.units with
  | .host _ _ _ stages => (stages.flatMap (·.2.2)).dedup
  | .device _ _ _ => l.stageCores 0

def State.launch? (s : State) (id : Nat) : Option Launch := s.launches.find? (·.id == id)

def State.modLaunch (s : State) (id : Nat) (f : Launch → Launch) : State :=
  { s with launches := s.launches.map fun l => if l.id == id then f l else l }

/-- R71, without the stage: what makes a record invalid on the issuing core. -/
def State.recordOk (s : State) (r : RawTask) (t : Thread) : Bool :=
  r.mbz && 8 * r.f 0 0 32 < (rd (s.ctx t.ctx).seg 0 {}).limit.toNat
    && s.me.setValid (s.ctx t.ctx).dom.toNat (r.f 4 0 6)

/-- The cores that serve a stage of a launch, whether or not it has completed (R71, R74). -/
def State.homeCores (s : State) (home st : Nat) : List Nat := (Tab.get [] s.homes home).getD st []

/-- The stage is served by a core of the launch whose context the thread has (R71; log 28). -/
def State.stageOk (s : State) (r : RawTask) (t : Thread) : Bool :=
  match t.home with
  | some h => !(s.homeCores h (r.f 5 0 4)).isEmpty
  | none => true

/-- The launch's cores by stage are on record (R71, R74). -/
def State.addLaunch (s : State) (l : Launch) : State :=
  { s with launches := s.launches ++ [l], homes := s.homes.put l.id ((List.range 16).map l.stageCores) }

/-! ### Context frames (R340) -/

/-- s_k as two words (R252). -/
def Seg.w0 (g : Seg) : Word := g.base.setWidth 64 ||| g.dom.setWidth 64 <<< 56
def Seg.w1 (g : Seg) : Word := word (g.limit.toNat % 2 ^ 52) ||| g.rights.setWidth 64 <<< 52

/-- A segment register read from two words; a limit of 2^52 bytes stays one (log 20). -/
def segOfWords (w0 w1 : Word) (old : Seg) : Seg where
  dom := w0.extractLsb' 56 8
  base := w0.extractLsb' 0 52
  rights := w1.extractLsb' 52 6
  limit := if fld w1 0 52 = 0 ∧ old.limit.toNat = 2 ^ 52 then old.limit
    else (w1.extractLsb' 0 52).setWidth 53

/-- The state of a frame (R340, R369). -/
def Status.code : Status → Nat
  | .waiting => 1
  | .reply => 1
  | .parked .. => 2
  | .gateWait .. => 3
  | _ => 0

/-- The live masks of a save: shot, g, v, m and c, flags (R38). -/
abbrev Live := Nat × BitVec 32 × BitVec 16 × Byte × Bool

def liveAll (pc : Nat) : Live := (pc, 0xFFFFFFFE, 0xFFFF, 0xFF, true)

/-- The resume word and kind: a caller in gate-wait resumes at GATE's word A (R369). -/
def Thread.resumeAt (t : Thread) : BitVec 32 × Nat :=
  match t.status with
  | .gateWait ret _ _ => (ret, 2)
  | _ => (t.pc, if t.atLookup then 2 else 0)

/-- What a save writes, by offset: the bytes that R340 does not name are 0, dead registers are left out. A PARK with more
than 2^32 - 1 cycles left is saved with 2^32 - 1, the most that the frame's field holds (log 41). -/
def Thread.frame (t : Thread) (core slot cycle : Nat) (full : Bool) (lv : Live) : List (Nat × List Byte) :=
  let (shot, lg, lvv, lmc, lf) := lv
  let (rw, kind) := t.resumeAt
  let park := match t.status with
    | .parked mask deadline d =>
      ((deadline.map fun x => Nat.max 1 (Nat.min (x + 1 - cycle) 0xFFFFFFFF)).getD 0)
        ||| mask.toNat <<< 32 ||| d <<< 36
    | _ => 0
  let zero := fun (n : Nat) => List.replicate n (0 : Byte)
  let ws : List (Nat × Word) := [(0x000, word (1 ||| (if full then 256 else 0) ||| t.dom.toNat <<< 16 ||| core <<< 24 ||| slot <<< 34)),
   (0x008, word (shot % 2 ^ 32 ||| lg.toNat <<< 32)),
   (0x010, word (lvv.toNat ||| lmc.toNat <<< 16 ||| (if lf then 1 else 0) <<< 24)),
   (0x018, word (rw.toNat ||| kind <<< 32 ||| (t.wskip % 16) <<< 36 ||| (t.cset % 64) <<< 40
      ||| t.prm.toNat <<< 48)),
   (0x020, t.csp),
   (0x028, word (t.tag.toNat ||| (if lf then t.f.toNat else 0) <<< 8 ||| t.status.code <<< 16)),
   (0x030, word park)]
  ++ ([t.cfg, t.tcause, t.taddr, t.tdet0, t.tdet1, t.tret, t.tpend].zipIdx.map fun (w, i) =>
      (0x050 + 8 * i, w))
  ++ ((t.dbi.toList ++ t.dbw.toList).zipIdx.map fun (w, i) => (0x088 + 8 * i, w))
  ++ [(0x0B8, word (((List.range 4).map fun i => (rd t.q i []).length <<< (3 * i)).sum))]
  ++ ([t.ident.ex.toNat, t.ident.ey.toNat, t.ident.ez.toNat, t.ident.ox.toNat, t.ident.oy.toNat,
      t.ident.oz.toNat, t.ident.stg.toNat].zipIdx.map fun (w, i) => (0x0C0 + 8 * i, word w))
  ++ [(0x100, 0)]
  ++ (((List.range 32).filter lg.getLsbD).map fun i => (0x100 + 8 * i, rd t.g i 0))
  ++ [(0x200, t.full.setWidth 64)]
  ++ (t.seg.toList.zipIdx.flatMap fun (g, i) => [(0x300 + 16 * i, g.w0), (0x308 + 16 * i, g.w1)])
  ++ ((List.range 4).flatMap fun i => (List.range 4).flatMap fun j =>
      let m := (rd t.q i []).getD j ⟨0, 0⟩
      [(0x400 + 64 * i + 16 * j, m.value), (0x408 + 64 * i + 16 * j, m.tag.setWidth 64)])
  ++ (((List.range 4).filter lmc.getLsbD).map fun i => (0x500 + 8 * i, rd t.m i 0))
  ++ (((List.range 16).filter lvv.getLsbD).flatMap fun i =>
      (List.range 32).map fun j => (0x1000 + 256 * i + 8 * j, (rd t.v i 0).extractLsb' (64 * j) 64))
  (ws.map fun w => (w.1, leBytes 8 w.2.toNat))
  ++ (((List.range 4).filter fun i => lmc.getLsbD (4 + i)).map fun i => (0x040 + 4 * i, leBytes 4 (rd t.c i 0).toNat))
  ++ [(0x038, zero 8), (0x0F8, zero 8), (0x208, zero 0xF8), (0x380, zero 0x80), (0x520, zero 0xAE0)]

/-- Core `c` writes the frame under the domain's memory key (R370, R374). A packet that fails takes the bytes with it
(R373; log 35). -/
def State.writeFrame (s : State) (c : Nat) (dom : Byte) (pa : Nat) (ws : List (Nat × List Byte)) : State :=
  if s.tampered.contains c then s.packetLost c dom.toNat 0 0
  else ws.foldl (fun s w => s.wrPas dom.toNat (pa + w.1) w.2) s

/-- CFG as a write or a frame leaves it: reserved bits are 0, and RDEF 3 is 0 (R350). -/
def cfgStored (v : Word) : Word := if fld v 1 2 = 3 then setFld (v &&& 0xF) 1 2 0 else v &&& 0xF

/-- The bits that a breakpoint and a watchpoint register hold (R6, R349). -/
def dbiMask : Word := 0x8000_0000_FFFF_FFFF
def dbwMask : Word := 0xFF0F_FFFF_FFFF_FFFF

/-- A thread restored from its frame; what a frame does not hold comes from `h`, and reserved bits read as zero (R6,
R39, R341). The time since the cycle of the save counts toward a PARK's timeout (R89). A caller in gate-wait goes on
waiting, its word the one that ended the shot (R337, R369). -/
def State.readFrame (s : State) (h : Thread) (pa cycle : Nat) : Thread :=
  let w : Nat → Word := fun o => word (ofLe (s.rdPas h.dom.toNat (pa + o) 8))
  let lg := (w 0x008).extractLsb' 32 32
  let lvv := (w 0x010).extractLsb' 0 16
  let lmc : Byte := (w 0x010).extractLsb' 16 8
  let lf := (w 0x010).getLsbD 24
  let r := w 0x018
  let st := w 0x028
  let p := w 0x030
  let kind := fld r 32 2
  let cnt := fun i => fld (w 0x0B8) (3 * i) 3
  let gs : Vector Word 32 := Vector.ofFn fun i => if i.val ≠ 0 && lg.getLsbD i then w (0x100 + 8 * i) else 0
  { h with
    status := match fld st 16 2 with
      | 2 => .parked (p.extractLsb' 32 4) (if fld p 0 32 = 0 then none else some (cycle + fld p 0 32 - 1))
          (fld p 36 6)
      | 3 => match h.status with
        | .gateWait _ cnt key => .gateWait (r.extractLsb' 0 32) cnt key
        | x => x
      | _ => .running
    pc := if fld st 16 2 = 3 then h.pc else r.extractLsb' 0 32
    atLookup := kind == 2 && fld st 16 2 != 3 || fld st 16 2 == 3
    chosen := false
    yield := false
    wskip := fld r 36 4
    prm := r.extractLsb' 48 16
    cset := fld r 40 6
    csp := w 0x020
    tag := st.extractLsb' 0 8
    f := if lf then st.extractLsb' 8 8 else 0
    c := Vector.ofFn fun i => if lmc.getLsbD (4 + i) then
      (w (0x040 + 8 * (i / 2))).extractLsb' (32 * (i % 2)) 32 else 0
    cfg := cfgStored (w 0x050), tcause := w 0x058 &&& 0xFFFF, taddr := w 0x060 &&& 0xFFFFFFFF
    tdet0 := w 0x068, tdet1 := w 0x070, tret := w 0x078 &&& 0x3FFFFFFFFFFFFFF, tpend := w 0x080 &&& 0x3F
    dbi := Vector.ofFn fun i => w (0x088 + 8 * i) &&& dbiMask
    dbw := Vector.ofFn fun i => w (0x0A8 + 8 * i) &&& dbwMask
    ident := { ex := (w 0x0C0).setWidth 8, ey := (w 0x0C8).setWidth 8, ez := (w 0x0D0).setWidth 8
               ox := (w 0x0D8).setWidth 18, oy := (w 0x0E0).setWidth 18, oz := (w 0x0E8).setWidth 18
               stg := (w 0x0F0).setWidth 4 }
    g := gs
    full := (w 0x200).setWidth 32 ||| ~~~lg
    seg := Vector.ofFn fun i => segOfWords (w (0x300 + 16 * i)) (w (0x308 + 16 * i)) (rd h.seg i {})
    q := Vector.ofFn fun i => (List.range (cnt i)).map fun j =>
      (⟨w (0x400 + 64 * i + 16 * j), (w (0x408 + 64 * i + 16 * j)).setWidth 8⟩ : Msg)
    m := Vector.ofFn fun i => if lmc.getLsbD i then w (0x500 + 8 * i) else 0
    v := Vector.ofFn fun i => if lvv.getLsbD i then
      BitVec.ofNat 2048 (ofLe (s.rdPas h.dom.toNat (pa + 0x1000 + 256 * i) 256)) else 0 }

/-- The thread of a frame as core `c` reads it. A packet that fails makes every field read as 0, and the thread has a
data error (R273, R373; log 35). -/
def State.restored (s : State) (c : Nat) (f : Saved) (pa : Nat) : Thread × State :=
  if s.tampered.contains c then
    (({ s with mem := [], blockKey := [], cipherKey := [] }.readFrame f.thread pa f.savedAt).pendEvent 0 10 0
      f.thread.taddrNow (word pa) 0, s.packetLost c f.thread.dom.toNat 0 0)
  else (s.readFrame f.thread pa f.savedAt, s)

/-- A free frame of the domain's pool on the core (R342). -/
def Core.freeFrame (k : Core) (d : Nat) : Option Nat :=
  let base := (Tab.get 0 k.frBase d).toNat
  (firstIx (Tab.get 0 k.frCount d).toNat fun i => !k.frUsed.contains (base + 8192 * i)).map
    fun i => base + 8192 * i

/-- The domain's sequence of steal requests ends (R74). -/
def Core.dropSteal (k : Core) (d : Nat) : Core := { k with steals := k.steals.filter (·.dom.toNat != d) }

/-- The slot's thread leaves it: nothing of it stays on the slot (R110). Its domain gains a free slot. -/
def Core.clearSlot (k : Core) (i : Nat) : Core :=
  let k' := k.setSlot i { k.slot i with thread := none, freeSince := some k.cycle }
  match k.threadAt i with
  | some t => k'.askAgain t.dom.toNat
  | none => k'

/-- R344, R370, R371: no thread of the domain starts on the core: it is being saved, or sealed (log 24). -/
def Core.frozen (k : Core) (d : Nat) : Bool := k.preqDom.contains d || (Tab.get 0 k.sealReg d).getLsbD 1

/-- R347: a pending debug event of a thread that its domain's save takes goes to bit 5, with its cause and
details in TCAUSE, TADDR and the TDET words. In a handler, whose own cause these registers hold, only an event that
has arisen since the save began does so: it stands in bit 5 since it arose (`debugBit`; log 24). -/
def Thread.sealDebug (t : Thread) : Thread :=
  match (t.events.find? (·.1 == 5)).or (t.events.find? fun e => e.1 == 3 || e.1 == 4) with
  | some (b, c, a, d0, d1) =>
    if t.tret.getLsbD 56 && b != 5 then t
    else { t with tcause := c, taddr := a, tdet0 := d0, tdet1 := d1 }.setEvents
      (t.events.map fun e => if e = (b, c, a, d0, d1) then (5, c, a, d0, d1) else e)
  | none => t

/-- R80, R341: the thread on slot `i` is saved into frame `pa`. -/
def State.saveThread (s : State) (c i pa : Nat) (full : Bool) (lv : Live) (page : Option (Nat × Bool)) :
    State :=
  let k := s.core c
  match k.threadAt i with
  | none => s
  | some t0 =>
    let whole := k.saving t0.dom
    let t := if whole then t0.sealDebug else t0
    let s := s.writeFrame c t.dom pa (t.frame c i k.cycle full lv)
    let sv : Saved :=
      { frame := pa, thread := { t with preq := none, saveDue := false, saveNow := false }, slot := i, whole, page, savedAt := k.cycle }
    s.modCore c fun k =>
      let k := k.clearSlot i
      { k with frUsed := pa :: k.frUsed, saved := k.saved ++ [sv] }.count 39 none t.dom.toNat 1

/-- A steal that every core has answered empty is tried again when the domain gains a record (R74). -/
def State.wakeSteals (s : State) (d : Nat) : State :=
  { s with cores := s.cores.map fun (c, k) => (c, k.askAgain d) }

/-- The record that `t` holds at the head of a core's pending list and `s` did not is one that the domain has gained
(R74, R80). -/
def State.pended (s t : State) (d : Nat) : State :=
  if t.cores.any fun e => (s.core e.1).pendHead.length < e.2.pendHead.length then t.wakeSteals d else t

def resumeRec (t : Thread) (frame cycle : Nat) : Rec :=
  { dom := t.dom, kind := .resume frame t.tid, launch := t.launch, ctx := t.ctx, hndl := t.hndl
    nosteal := true, since := cycle, home := t.home }

/-- A save that is not for a page: the thread's resume record goes behind the share or, where that is full, to the
head of the pending list (log 18), unless its whole domain is saved (R90, R343, R344, R371). -/
def State.saveAway (s : State) (c i pa : Nat) (full : Bool) (lv : Live) : State :=
  match (s.core c).threadAt i with
  | none => s
  | some t =>
    let s1 := s.saveThread c i pa full lv none
    if (s.core c).saving t.dom then s1
    else s.pended (s1.modCore c fun k => k.pushTop (resumeRec t pa k.cycle)) t.dom.toNat

/-! ### Starting a thread (R69, R72) -/

/-- The first cycle in which work taken by slot `i` may issue (R69). -/
def Core.startCycle (k : Core) (i : Nat) : Nat :=
  match (k.slot i).freeSince with
  | some n => 8 * (n / 8 + 2)
  | none => 0

/-- The thread that a task or gate record starts (R72, R366). -/
def State.newThread (s : State) (r : Rec) (resident : Bool) (tid cycle start : Nat) : Thread :=
  let x := s.ctx r.ctx
  let t : Thread :=
    { tid, dom := r.dom, launch := r.launch, ctx := r.ctx, resident, seg := x.seg, hndl := r.hndl
      holdUntil := start, since := cycle, home := r.home }
  match r.kind with
  | .task entry cset ident args =>
    { t with
      pc := entry, cset, ident
      g := Vector.ofFn fun i => if 1 ≤ i.val ∧ i.val ≤ 6 then args.getD (i - 1) 0 else 0 }
  | .gate entry cset prm regs link =>
    { t with
      pc := entry, cset, prm, gate := some link
      g := Vector.ofFn fun i => ((regs.find? (·.1 == i.val)).map (·.2)).getD 0 }
  | .resume .. => t

/-- A record starts on slot `i` of core `c`: a new thread, after Acquire(die) where the record is a task's (R283), or a
resumed one (R341, R342). -/
def State.startRec (s : State) (c i : Nat) (r : Rec) (resident : Bool) : State :=
  let k := s.core c
  let start := k.startCycle i
  let place := fun (k : Core) t =>
    { k.setThread i (some t) with
      steals := k.steals.filter fun x => x.dom != r.dom || x.asked.isSome || x.left.isEmpty }
  match r.kind with
  | .resume pa tid =>
    match k.saved.find? (·.thread.tid == tid) with
    | none => s
    | some f =>
      let (t0, s) := s.restored c f pa
      let t := { t0 with
        holdUntil := start, since := k.cycle
        status := if s.bars.any (fun b => b.core == c && b.t.tid == tid && !b.init) then .reply else t0.status
        refused := if f.refused then f.page.map (·.1) else none }
      s.modCore c fun k =>
        { place k t with
          saved := k.saved.filter (·.thread.tid != tid)
          frUsed := k.frUsed.filter (· != pa) }
  | _ =>
    let (tid, s) := s.fresh
    let t := s.newThread r resident tid k.cycle start
    let s := match r.kind with
      | .task .. => s.acquire c r.dom 3
      | _ => s
    s.modCore c fun k => place k t

/-- The lowest-numbered free slot of a domain (R69). -/
def Core.freeSlot (k : Core) (d : Nat) : Option Nat :=
  firstIx 8 fun i => (k.threadAt i).isNone && k.slotDom i == some d

/-! ### Units of a launch (R76, R88) -/

/-- Unit `i` of a host stage (R76). -/
def hostUnit (dims tile : Nat × Nat × Nat) (stage i : Nat) : Ident :=
  let up := fun a b => (a + b - 1) / b
  let nx := up dims.1 tile.1
  let ny := up dims.2.1 tile.2.1
  let ox := i % nx * tile.1
  let oy := i / nx % ny * tile.2.1
  let oz := i / nx / ny * tile.2.2
  { ox := BitVec.ofNat 18 ox, oy := BitVec.ofNat 18 oy, oz := BitVec.ofNat 18 oz
    ex := BitVec.ofNat 8 (Nat.min tile.1 (dims.1 - ox))
    ey := BitVec.ofNat 8 (Nat.min tile.2.1 (dims.2.1 - oy))
    ez := BitVec.ofNat 8 (Nat.min tile.2.2 (dims.2.2 - oz))
    stg := BitVec.ofNat 4 stage }

/-- The units of a host stage. -/
def stageUnits (dims tile : Nat × Nat × Nat) : Nat :=
  let up := fun a b => (a + b - 1) / b
  up dims.1 tile.1 * up dims.2.1 tile.2.1 * up dims.2.2 tile.2.2

/-- Of `n` units dealt over `k` positions, how many fall to position `p`. -/
def dealt (n k p : Nat) : Nat := if p < n then (n - p + k - 1) / k else 0

/-- The j-th unit of a core in a list of host stages: stage, and unit number. R76 orders the units of one stage; the stages
follow each other in their order (log 44). -/
def hostNth (c : Nat) : List ((Nat × Nat × Nat) × (Nat × Nat × Nat) × List Nat) → Nat → Nat →
    Option (Nat × Nat × (Nat × Nat × Nat) × (Nat × Nat × Nat))
  | [], _, _ => none
  | (dims, tile, cores) :: r, stage, j =>
    match cores.findIdx? (· == c) with
    | none => hostNth c r (stage + 1) j
    | some p =>
      let n := dealt (stageUnits dims tile) cores.length p
      if j < n then some (stage, p + j * cores.length, dims, tile) else hostNth c r (stage + 1) (j - n)

/-- The next pending record of a launch for core `c` (R76, R77). -/
def Launch.next (l : Launch) (c : Nat) : Option Rec :=
  let j := Tab.get 0 l.cursor c
  match l.units with
  | .device recs cores _ =>
    match cores.findIdx? (· == c) with
    | none => none
    | some p => recs[p + j * cores.length]?
  | .host entry cset args stages =>
    (hostNth c stages 0 j).map fun (stage, i, dims, tile) =>
      { dom := l.dom, kind := .task entry cset (hostUnit dims tile stage i) args, launch := some l.id
        ctx := l.ctx, hndl := l.hndl, nosteal := false, home := some l.id }

def Launch.take (l : Launch) (c : Nat) : Launch :=
  { l with cursor := Tab.set 0 l.cursor c (Tab.get 0 l.cursor c + 1) }

/-- The first launch of domain `d`, not concurrent, that holds a pending record for core `c` (R77): of several launches
the one that was submitted earliest (log 40). The units of a concurrent launch, which start together and by no core's
taking, are not among the pending records of R69, R74 and R90 (log 42). -/
def State.pendingLaunch (s : State) (c d : Nat) : Option (Launch × Rec) :=
  s.launches.findSome? fun l =>
    if l.dom.toNat == d && l.cls != 2 then (l.next c).map fun r => (l, r) else none

/-- The bottom record of a domain's share, and the deque without it. -/
def Core.popBottom (k : Core) (d : Nat) : Option (Rec × Core) :=
  match k.deque.reverse.find? (·.dom.toNat == d) with
  | none => none
  | some r =>
    let rev := k.deque.reverse
    let i := (rev.findIdx? (·.dom.toNat == d)).getD 0
    some (r, { k with deque := (rev.eraseIdx i).reverse })

/-- R69: the work of the first two sources for a slot of domain `d` on core `c`. -/
def State.nextWork (s : State) (c d : Nat) : Option (Rec × State) :=
  let k := s.core c
  match k.popBottom d with
  | some (r, k') => some (r, s.setCore c k')
  | none =>
    match k.pendHead.find? (·.dom.toNat == d) with
    | some r => some (r, s.setCore c { k with pendHead := k.pendHead.erase r })
    | none =>
      match s.pendingLaunch c d with
      | some (l, r) => some (r, s.modLaunch l.id (·.take c))
      | none => none

/-! ### The end of a thread (R91, R302, R367) -/

/-- The thread of package `own` whose RTRET awaits its answer: the return, or the answer, is on its way (R319). -/
def Packet.waiter (p : Packet) (own : Nat) : Option Nat :=
  match p.kind with
  | .ret _ _ _ _ _ t _ => if p.source = own then t.map (·.tid) else none
  | .retAck t _ => if p.package = own then some t.tid else none
  | .eos .. => none
  | .row .. => none
  | .credit _ => none
  | .eosAck _ => none

/-- R91: every access and engine command of the thread has retired; an RTRET retires at its answer (R209, R241, R319). A
BARWT, an RXTAKE or an RXEOS that has not yet filled its d does not count (log 44). -/
def State.drained (s : State) (c tid : Nat) : Bool :=
  let k := s.core c
  k.copies.all (·.t.tid != tid) && k.mats.all (·.t.tid != tid) && k.routes.all (·.t.tid != tid)
    && k.spawns.all (·.t.tid != tid) && k.fills.all (·.tid != tid) && (s.bars.all fun b => b.core != c || b.t.tid != tid)
    && s.net.all fun p => p.waiter (fld s.pkgid 0 19) != some tid

/-- R109, R288: a save of the thread may write its frame: no result is pending, every access that it issued has been
performed, and no write of L1CFG keeps the core from saving threads (R201). -/
def State.saveReady (s : State) (c : Nat) (t : Thread) : Bool :=
  t.pend.isEmpty && !s.toObject c t.tid none && !(s.core c).l1Stop

/-- A packet that leaves core `c` for a core of a package (R392). -/
def State.sendPkt (s : State) (dom : Byte) (package dst : Nat) (kind : PktKind)
    (unread : Option (Nat × Nat) := none) : State :=
  { s with net := s.net ++ [{ dom, package, core := dst, source := fld s.pkgid 0 19
                              incarnation := fld s.pkgid 32 16, kind, unread }] }

/-- One credit for a row travels back to the entry that its tag names (R298, R301). -/
def State.sendCredit (s : State) (dom : Byte) (tag : Word) : State :=
  s.sendPkt dom (fld tag 32 19) (fld tag 22 10) (.credit (fld tag 51 8))

/-- A fail notice for a row travels to its splice (R302, R307). -/
def State.sendFail (s : State) (dom : Byte) (tag : Word) : State :=
  s.sendPkt dom (fld tag 32 19) (fld tag 22 10) (.ret tag 0 0 [] true none 0)

/-- A row fails at the receiver: a fail notice, and its credit returned (R302, R307). -/
def State.rowFails (s : State) (dom : Byte) (tag : Word) : State := (s.sendFail dom tag).sendCredit dom tag

/-- R302: queue `n` of core `c` is unbound: its pages return to the pool, every unfreed row's credit is
returned, and its held rows fail. -/
def State.unbindQueue (s : State) (c n : Nat) (q : RxQueue) : State :=
  let pages := q.pages ++ q.handed ++ q.taken
  let s := pages.foldl (fun s p => p.rows.foldl (fun s r => s.sendCredit q.dom r.2) s) s
  let held := (s.core c).hold.filter fun h => h.queue == n
  let s := held.foldl (fun s h => s.rowFails q.dom h.tag) s
  s.modCore c fun k =>
    let d := q.dom.toNat
    let pool := Tab.get {} k.pool d
    let used := pool.used.filter fun u => !pages.any fun p => p.addr == u
    { k with
      rxq := k.rxq.erase n
      hold := k.hold.filter fun h => h.queue != n
      pool := Tab.set {} k.pool d { pool with used } }

/-- R302: the queues of a thread that ends are unbound. -/
def State.unbind (s : State) (c tid : Nat) : State :=
  ((s.core c).rxq.filter fun q => q.2.tid == tid).foldl (fun s q => s.unbindQueue c q.1 q.2) s

/-- The launch of a thread loses one unit; a nonzero exit value sets its err (R79, R91). -/
def State.unitEnded (s : State) (launch : Option Nat) (v : Word) : State :=
  match launch with
  | none => s
  | some id => s.modLaunch id fun l => { l with left := l.left - 1, err := l.err || v != 0 }

/-- R367: the caller of a gate, found on its slot or saved, goes on with `f`; registers of a saved
caller are filled in its frame. -/
def State.modCaller (s : State) (c tid : Nat) (f : Thread → Thread) : State :=
  let k := s.core c
  match k.slotOf tid with
  | some i => s.setCore c (k.modThread i f)
  | none => s.setCore c { k with saved := k.saved.map fun x =>
      if x.thread.tid == tid then { x with thread := f x.thread } else x }

/-- The words of a saved thread's frame that an event changes: TPEND, and once a save of its domain has begun TCAUSE,
TADDR and the TDET words, which hold a debug event's cause and detail (R336, R347). -/
def Thread.pendWords (t : Thread) (saving : Bool) : List (Nat × List Byte) :=
  let debug : List (Nat × Word) := [(0x058, t.tcause), (0x060, t.taddr), (0x068, t.tdet0), (0x070, t.tdet1)]
  let ws : List (Nat × Word) := if saving then debug ++ [(0x080, t.tpend)] else [(0x080, t.tpend)]
  ws.map fun w => (w.1, leBytes 8 w.2.toNat)

/-- An event pends for a thread, in its slot or in its frame (R336, R347). Where the frame's packet fails the event is lost
with it (R373; log 35). -/
def State.pendOn (s : State) (c tid : Nat) (f : Thread → Thread) : State :=
  let k := s.core c
  match k.slotOf tid with
  | some _ => s.modCaller c tid f
  | none =>
    match k.saved.find? (·.thread.tid == tid) with
    | none => s
    | some x =>
      if s.tampered.contains c then
        (s.modCaller c tid fun t => { t with status := (f t).status }).packetLost c x.thread.dom.toNat 0 0
      else
        let g := fun t => if k.saving t.dom then (f t).sealDebug else f t
        (s.modCaller c tid g).writeFrame c x.thread.dom x.frame ((g x.thread).pendWords (k.saving x.thread.dom))

/-- R367: a service that ended without GRET: the caller takes the gate trap, sub-code 5, as a trap of its lookup,
also in its handler (R338). -/
def State.gateFails (s : State) (c : Nat) (g : GateLink) : State :=
  s.pendOn c g.caller fun t =>
    match t.status with
    | .gateWait _ _ key =>
      { t with status := .running }.pendEvent 6 13 5 t.taddrNow key (lookupDet t.cset false false)
    | _ => t

/-- R91: the thread on slot `i` has ended with value `v`; `byGret` for a service that returned. -/
def State.endThread (s : State) (c i : Nat) (v : Word) (byGret : Bool) : State :=
  match (s.core c).threadAt i with
  | none => s
  | some t =>
    let s := s.unitEnded t.launch v
    let s := s.unbind c t.tid
    let s := match t.gate with
      | some g => if byGret then s else s.gateFails c g
      | none => s
    s.modCore c fun k =>
      { k.clearSlot i with ranges := k.ranges.filter fun e => e.2.owner != .thread t.tid }

/-! ### Instructions (R86 to R93) -/

/-- The offset of a record: Src(a) + SExt(imm14) × 64 (R86). -/
def recOff (x : FmtS) (a : Word) : Nat := (a + x.imm.signExtend 64 * 64).toNat

def targetOf (d : Nat) (scope : Nat := 1) : M Target := do
  let id ← fresh
  let t ← thread
  return { id, dom := t.dom, tid := t.tid, d, pc := t.pc, scope }

/-- SPAWN and SPAWNR (R86): the record is read at issue, then Release(die) (R283). A record whose data has an
uncorrectable error reads as zeros, and pends the data-error trap (R273; log 35). The read meets the checks of every access
(R211, R255, R261) beside the traps that R94 lists (log 44). -/
def spawn (x : FmtS) (resident : Bool) : M Unit := do
  waitDst x.d
  let a ← src x.a
  let ls ← access (fld x.op 0 3) [recOff x a] 64 64 needR
  for l in ls do
    let (bs, bad) ← load 1 l
    if bad then pendError l.ea
    let r : RawTask := ⟨ofLe bs⟩
    watch 1 [l]
    release 3
    let s ← get
    let t := s.thread
    let tg ← targetOf x.d.toNat
    emptyG x.d.toNat
    modMe fun k => { k with spawns := k.spawns ++ [
      { t := tg, resident
        valid := s.recordOk r t && s.stageOk r t && !r.ident.empty
        task := { dom := t.dom, kind := r.kind, launch := t.launch, ctx := t.ctx, hndl := t.hndl
                  nosteal := r.f 5 4 1 == 1, home := t.home } }] }

/-- SPAWN (R86). -/
def execSpawn (x : FmtS) (s : State) : Host.Outcome State Fault Refusal := s.instr x.e x.w (spawn x false)

/-- SPAWNR (R86). -/
def execSpawnr (x : FmtS) (s : State) : Host.Outcome State Fault Refusal := s.instr x.e x.w (spawn x true)

/-- The cores of a placement that the domain holds, in the dealing order of R88. -/
def State.placement (s : State) (d place cls : Nat) : List Nat :=
  let me := s.cur
  let ok := (placeCores me place).filter fun c => (s.core c).present d && (cls == 2 || (s.core c).dequeShare d != 0)
  ok.filter (me ≤ ·) ++ ok.filter (· < me)

/-- The slots of a domain on a core. -/
def Core.slotsOf (k : Core) (d : Nat) : Nat := (List.range 8).countP fun i => (k.slotMask d).testBit i

/-- R78: the launch is rejected at submission. -/
def State.rejects (s : State) (d cls : Nat) (cores : List Nat) (n : Nat) : Bool :=
  n != 0 && (cores.isEmpty || (cls == 2 && cores.zipIdx.any fun (c, p) =>
    (s.core c).slotsOf d - (if c = s.cur then 1 else 0) < dealt n cores.length p))

/-- R77: the die's launch unit holds the domain's quota, or its 256 launches; a LAUNCH receives status 5 for either
(log 40). -/
def State.quotaFull (s : State) (die d : Nat) : Bool :=
  let held := s.launches.filter (·.die == die)
  let quota := fld (Tab.get 0 (s.core (die * 256)).part2 d) 0 9
  256 ≤ held.length || quota ≤ (held.filter (·.dom.toNat == d)).length

/-- LAUNCH (R88). Its reads meet the checks of every access (R211, R255, R261) beside the traps that R94 lists (log 44). -/
def execLaunch (x : FmtS) (s : State) : Host.Outcome State Fault Refusal :=
  s.instr x.e x.w do
    waitDst x.d
    let vs ← srcs [x.a, x.b]
    let n := (arg vs 1).toNat
    let off := recOff x (arg vs 0)
    alignedAt (fld x.op 0 3) off 64
    let _ ← segOf (fld x.op 0 3) off (n * 64) needR
    let tg ← targetOf x.d.toNat x.lscope
    emptyG x.d.toNat
    release x.lscope
    let t ← thread
    let done : Nat → M Unit := fun code => modMe fun k =>
      k.addFill { tid := t.tid, d := x.d.toNat, value := word code }
    if 65535 < n then done 4
    else if n = 0 then done 0
    else
      let ls ← access (fld x.op 0 3) ((List.range n).map fun i => off + 64 * i) 64 64 needR
      let raws ← ls.mapM fun l => do
        let (bs, bad) ← load x.lscope l
        if bad then pendError l.ea
        return (⟨ofLe bs⟩ : RawTask)
      watch 1 ls
      let s ← get
      let live := raws.filter fun r => !r.ident.empty
      let cores := s.placement t.dom.toNat x.place x.lclass
      if raws.any fun r => !s.recordOk r t then done 3
      else if s.quotaFull (dieOf s.cur) t.dom.toNat then done 5
      else if s.rejects t.dom.toNat x.lclass cores live.length then done 4
      else
        let l : Launch :=
          { id := tg.id, die := dieOf s.cur, dom := t.dom, cls := x.lclass, scope := x.lscope
            ctx := t.ctx, hndl := t.hndl, live := live.length, left := live.length, since := s.halfNs
            units := .device (live.map fun r =>
              { dom := t.dom, kind := r.kind, launch := some tg.id, ctx := t.ctx, hndl := t.hndl
                nosteal := r.f 5 4 1 == 1, home := some tg.id }) cores x.place
            req := .thread s.cur tg (n - live.length) }
        set ((s.addLaunch l).wakeSteals t.dom.toNat)

/-- R89: the ports of a mask that hold a message. -/
def Thread.readyPorts (t : Thread) (mask : BitVec 4) : Nat :=
  ((List.range 4).map fun i =>
    if mask.getLsbD i && !(rd t.q i []).isEmpty then 2 ^ i else 0).sum

/-- R89: a parked thread whose wake condition holds goes on, and its d fills. The timeout comes with the end of the cycle in
which its last cycle has passed: a PARK of 256 cycles issued in cycle 124 wakes in cycle 380. -/
def Thread.wake (t : Thread) (cycle : Nat) : Thread :=
  match t.status with
  | .parked mask deadline d =>
    let ports := t.readyPorts mask
    let late := deadline.any (· < cycle)
    if ports ≠ 0 ∨ late then
      { t with status := .running }.setG d (word (ports ||| (if late then 256 else 0)))
    else t
  | _ => t

/-- PARK (R89): the timeout counts from the issue cycle. -/
def execPark (x : FmtS) (s : State) : Host.Outcome State Fault Refusal :=
  s.instr x.e x.w do
    waitDst x.d
    let v ← src x.a
    let k ← core
    emptyG x.d.toNat
    modThread fun t => { t with
      status := .parked (x.op.extractLsb' 0 4) (if v = 0 then none else some (k.cycle + v.toNat))
        x.d.toNat }
    modThread fun t => t.wake k.cycle

/-- YIELD (R90): no effect in a resident program beyond its wait count. -/
def execYield (x : FmtS) (s : State) : Host.Outcome State Fault Refusal :=
  s.instr x.e x.w do
    let k ← core
    modThread fun t => { t with yield := !t.resident, yieldAt := k.cycle }

/-- EXIT (R91): the slot drains; E and W have no effect. -/
def execExit (x : FmtS) (s : State) : Host.Outcome State Fault Refusal :=
  s.atPoint do
    let v ← src x.a
    modThread fun t => { t with status := .exiting v }

/-- SEND (R92): waits while the send queue holds two messages. -/
def execSend (x : FmtS) (s : State) : Host.Outcome State Fault Refusal :=
  s.instr x.e x.w do
    waitDst x.d
    let k ← core
    waitFor ((k.slot k.turnSlot).sendq.length < 2)
    let vs ← srcs [x.a, x.b]
    let t ← thread
    emptyG x.d.toNat
    let entry : Sending :=
      { dst := arg vs 0, msg := ⟨arg vs 1, x.imm.extractLsb' 0 8⟩, d := x.d.toNat, tid := t.tid, dom := t.dom, pc := t.pc }
    modMe fun k =>
      let sl := k.slot k.turnSlot
      k.setSlot k.turnSlot { sl with sendq := sl.sendq ++ [entry] }

/-- TIME (R93): the core's cycle number, or the package reference time as this core reads it. -/
def execTime (x : FmtS) (s : State) : Host.Outcome State Fault Refusal :=
  s.instr x.e x.w do
    waitDst x.d
    let s ← get
    let k := s.me
    write x.d (if fld x.op 0 2 = 0 then word k.cycle
      else word (s.halfNs / 2 - (Config.clockSkew s.cur k.cycle).val))

/-! ### Events of the scheduler -/

abbrev Out := Host.Outcome State Fault Refusal

/-- TAKE_WORK (R69): the lowest-numbered free slot of its domain takes the next work. -/
def execTakeWork (c i : Nat) (s : State) : Out :=
  let k := s.core c
  match k.slotDom i with
  | none => .next s
  | some d =>
    if k.freeSlot d = some i && !k.frozen d then
      match s.nextWork c d with
      | some (r, s1) => .next (s1.startRec c i r false)
      | none => .next s
    else .next s

/-- The cores that a thief asks, in the order of R74. -/
def stealOrder (c : Nat) : List Nat :=
  let cl := clusterOf c
  let own := (List.range 15).map fun i => cl * 16 + (c % 16 + 1 + i) % 16
  let others := (List.range 15).flatMap fun j =>
    let cl' := dieOf c * 16 + (cl % 16 + 1 + j) % 16
    (List.range 16).map (cl' * 16 + ·)
  own ++ others

/-- A record of a victim's share that a thief may take (R74). -/
def State.movable (s : State) (thief : Nat) (r : Rec) : Bool :=
  !r.nosteal && match r.kind, r.home with
    | .task _ _ ident _, some h => (s.homeCores h ident.stg.toNat).contains thief
    | _, _ => false

/-- The domain's sequence of steal requests on a core (R74). -/
def Core.stealOf (k : Core) (d : Nat) : Option Steal := k.steals.find? (·.dom.toNat == d)
def Core.setSteal (k : Core) (st : Steal) : Core :=
  { k with steals := (k.dropSteal st.dom.toNat).steals ++ [st] }

/-- R74: the core may steal for the domain. -/
def State.maySteal (s : State) (c d : Nat) : Bool :=
  let k := s.core c
  (k.freeSlot d).isSome && !k.frozen d && (k.deque.all fun r => r.dom.toNat != d)
    && (k.pendHead.all fun r => r.dom.toNat != d) && (s.pendingLaunch c d).isNone

/-- The cores still to ask: those that hold no share of the domain are passed over (R74). -/
def State.stealLeft (s : State) (d : Nat) (l : List Nat) : List Nat :=
  l.dropWhile fun v => !((s.core v).present d && (s.core v).dequeShare d != 0)

/-- STEAL_REQUEST (R74): the next core in the thief's order answers with its top movable record or
with empty. -/
def execStealRequest (thief victim dom : Nat) (s : State) : Out :=
  let k := s.core thief
  let st := (k.stealOf dom).getD { dom := BitVec.ofNat 8 dom, left := stealOrder thief }
  let left := s.stealLeft dom st.left
  if s.maySteal thief dom && st.asked.isNone && left.head? == some victim then
    let v := s.core victim
    match v.deque.find? fun r => r.dom.toNat == dom && s.movable thief r with
    | some r =>
      .next ((s.setCore victim { v with deque := v.deque.erase r }).modCore thief fun k =>
        k.setSteal { st with left := left.drop 1, asked := some victim, answer := some (some r) })
    | none =>
      .next (s.modCore thief fun k =>
        k.setSteal { st with left := left.drop 1, asked := some victim, answer := some none })
  else .next s

/-- STEAL_ANSWER (R74): the thief takes the record, or goes on to the next core; a sequence that work of its own
has overtaken ends. With a record the thief stops asking, until its domain gains a pending record or a free slot
(`Core.askAgain`). With no slot free any more, or once a save of the domain has begun (R344), the record goes to the
thief's share, or to the head of its pending list (log 18). -/
def execStealAnswer (thief : Nat) (s : State) : Out :=
  let k := s.core thief
  match k.steals.find? (·.answer.isSome) with
  | none => .next s
  | some st =>
    match st.answer with
    | none => .next s
    | some none =>
      let st' := { st with left := s.stealLeft st.dom.toNat st.left, asked := none, answer := none }
      .next (s.setCore thief (if s.maySteal thief st.dom.toNat then k.setSteal st' else k.dropSteal st.dom.toNat))
    | some (some r) =>
      let s1 := s.setCore thief (k.setSteal { dom := st.dom, left := [] })
      match (k.freeSlot st.dom.toNat).filter fun _ => !k.frozen st.dom.toNat with
      | some i => .next (s1.startRec thief i r false)
      | none => .next (s.pended (s1.modCore thief (·.pushResume r)) st.dom.toNat)

/-- R78: every unit of a concurrent launch that is dealt to each core finds a free slot there. -/
def State.concReady (s : State) (l : Launch) (cores : List Nat) : Bool :=
  cores.all fun c =>
    let n := (List.range 9).countP fun j => (Launch.next { l with cursor := [(c, j)] } c).isSome
    let free := (List.range 8).countP fun i =>
      ((s.core c).threadAt i).isNone && (s.core c).slotDom i == some l.dom.toNat
    n = 0 || (n ≤ free && !(s.core c).frozen l.dom.toNat)

/-- The cores that a launch deals to. -/
def Launch.cores (l : Launch) : List Nat :=
  match l.units with
  | .host _ _ _ stages => (stages.flatMap (·.2.2)).dedup
  | .device _ cores _ => cores

/-- Places the units of a concurrent launch directly on slots (R78). -/
def State.placeAll (s : State) (id : Nat) (cores : List Nat) : State :=
  cores.foldl (fun s c => (List.range 8).foldl (fun s _ =>
    match (s.launch? id).bind (·.next c) with
    | none => s
    | some r =>
      match (s.core c).freeSlot r.dom.toNat with
      | some i => (s.modLaunch id (·.take c)).startRec c i r false
      | none => s) s) s

/-- PENDING_MOVE (R77, R78, R80): the record at the head of the core's pending list moves into its share while that
has room, at its bottom (R77 names no end; log 44); a concurrent launch whose every unit can start is placed, the earliest submitted first (log 40). -/
def execPendingMove (c d : Nat) (s : State) : Out :=
  let k := s.core c
  match s.launches.find? fun l =>
    l.dom.toNat == d && l.cls == 2 && l.cursor.isEmpty && l.live != 0 && s.concReady l l.cores with
  | some l => .next (s.placeAll l.id l.cores)
  | none =>
    if k.shareFull d then .next s
    else match k.pendHead.find? (·.dom.toNat == d) with
      | some r => .next (s.setCore c ({ k with pendHead := k.pendHead.erase r }.pushBottom r))
      | none =>
        match s.pendingLaunch c d with
        | some (l, r) =>
          .next ((s.modLaunch l.id (·.take c)).modCore c fun k => k.pushBottom { r with since := k.cycle })
        | none => .next s

/-- The counter operations of GATE and GRET on a caller that returns (R367). -/
def Thread.returned (t : Thread) (regs : List (Nat × Word)) (cnt : BitVec 4) (key : Word) (start : Nat) :
    Thread :=
  match t.status with
  | .gateWait ret gcnt gkey =>
    let t := regs.foldl (fun (t : Thread) r => t.setG r.1 r.2) t
    let t := (t.counterOp gcnt gkey).counterOp cnt key
    { t with status := .running, pc := ret, atLookup := false, first := true, chosen := true, holdUntil := start }
  | _ => t

/-- What GRET changes in the frame of a saved caller (R369): resume word and kind, state, counters, the passed
registers and their full bits; TPEND, where the frame's packet has failed (R373). -/
def gateFields (regs : List Nat) : List Nat :=
  [0x018, 0x028, 0x040, 0x044, 0x048, 0x04C, 0x080, 0x200] ++ regs.map fun r => 0x100 + 8 * r

/-- R367, R369: the caller of a gate receives the passed registers, in its slot or in its frame; its next word issues
no earlier than its cycle two turns after the GRET lookup's. -/
def State.gateReturn (s : State) (c : Nat) (g : GateLink) (svc : Thread) (cnt : BitVec 4) (key : Word)
    (cycle : Nat) : State :=
  let regs := (passRegs g.pass).map fun i => (i, rd svc.g i 0)
  let k := s.core c
  match k.slotOf g.caller with
  | some i => s.setCore c (k.modThread i (·.returned regs cnt key (8 * (cycle / 8 + 2))))
  | none =>
    match k.saved.find? (·.thread.tid == g.caller) with
    | none => s
    | some f =>
      let (t0, s) := s.restored c f f.frame
      let t := { t0 with status := f.thread.status }.returned regs cnt key 0
      let fields := gateFields (regs.map (·.1))
      let s := s.writeFrame c t.dom f.frame
        ((t.frame c f.slot f.savedAt true (liveAll t.pc.toNat)).filter fun e => fields.contains e.1)
      s.modCore c fun k => { k with saved := k.saved.map fun x =>
        if x.thread.tid == g.caller then
          { x with thread := { x.thread with status := .running, first := true, tpend := t.tpend, events := t.events } }
        else x }

/-- DRAIN_END (R82, R90, R91, R367): a drained EXIT or GRET frees the slot; a drained YIELD whose lookup is done
saves the thread where the domain has ready work or a pre-emption request has reached the thread meanwhile, once its
results have landed (R109). With no free frame the thread goes on with no save (log 18). -/
def execDrainEnd (c i : Nat) (s : State) : Out :=
  let k := s.core c
  match k.threadAt i with
  | none => .next s
  | some t =>
    if s.drained c t.tid then
      match t.status with
      | .exiting v => .next (s.endThread c i v false)
      | .returning cnt key cycle =>
        let s1 := match t.gate with
          | some g => s.gateReturn c g t cnt key cycle
          | none => s
        .next (s1.endThread c i 0 true)
      | _ =>
        if t.yield && !t.atLookup then
          let asked := t.preq.any (t.yieldAt ≤ ·)
          let go := fun due => s.modCore c fun k => k.modThread i fun t => { t with yield := false, saveDue := due }
          if (s.nextWork c t.dom.toNat).isSome || asked then
            if s.saveReady c t then
              match k.freeFrame t.dom.toNat with
              | some pa => .next ((go false).saveAway c i pa true (liveAll t.pc.toNat))
              | none => .next (go (asked || t.saveDue))
            else .next s
          else .next (go t.saveDue)
        else .next s
    else .next s

/-- SPAWN_STATUS_FILL (R86): the push or the start is made and the status fills. -/
def execSpawnStatusFill (c i : Nat) (s : State) : Out :=
  let k := s.core c
  match k.spawns[i]? with
  | none => .next s
  | some r => if r.resident && k.frozen r.t.dom.toNat then .next s else
    let s := s.setCore c { k with spawns := k.spawns.eraseIdx i }
    let fill := fun (s : State) (code : Nat) => s.fillG c r.t.tid r.t.d (word code)
    let d := r.t.dom.toNat
    if !r.valid then .next (fill s 3)
    else if r.resident then
      match k.freeSlot d with
      | none => .next (fill s 2)
      | some j => .next (fill (s.startRec c j { r.task with launch := none } true) 0)
    else if k.shareFull d then .next (fill s 1)
    else
      let s := match r.task.launch with
        | some id => s.modLaunch id fun l => { l with left := l.left + 1 }
        | none => s
      .next (fill (s.modCore c fun k => k.pushBottom { r.task with since := k.cycle }) 0)

/-- Every core that the state lists, with `f` applied. -/
def State.allCores (s : State) (f : Nat → Core → Core) : State :=
  { s with cores := s.cores.map fun (c, k) => (c, f c k) }

/-- A stalled thread that waits for the page goes on (R81, R261); one that waits with a write goes on only where
`write` is answered (R263). -/
def Thread.pageAnswer (dom page : Nat) (refused write : Bool) (t : Thread) : Thread :=
  match t.status with
  | .stalled va w =>
    if t.dom.toNat == dom && va / 65536 == page && (write || !w) then
      { t with status := .running, refused := if refused then some page else t.refused }
    else t
  | _ => t

/-- A saved thread waits for the page. -/
def Saved.awaits (dom page : Nat) (write : Bool) (f : Saved) : Bool :=
  f.thread.dom.toNat == dom && f.page.any (fun p => p.1 == page && (write || !p.2)) && !f.refused

/-- A saved thread whose page has been supplied, or refused (R80, R261). -/
def Saved.answer (dom page : Nat) (refused write : Bool) (f : Saved) : Saved :=
  if !f.awaits dom page write then f else if refused then { f with refused := true } else { f with page := none }

/-- The threads and saved threads of a domain that wait for a page go on (R80, R81, R261). -/
def Core.pageAnswer (dom page : Nat) (refused write : Bool) (k : Core) : Core :=
  let slots := k.slots.map fun sl => { sl with thread := sl.thread.map (·.pageAnswer dom page refused write) }
  let due := k.saved.filter (·.awaits dom page write)
  let k := { k with slots, saved := k.saved.map (·.answer dom page refused write) }
  due.foldl (fun k (f : Saved) =>
    if f.whole then k else k.pushResume (resumeRec f.thread f.frame k.cycle)) k

/-- What has become of a page while a fault on it was on its way to its save: refused (R261), or present, and then whether
writes go on too (R80, R263). -/
def State.pageNow (s : State) (dom page : Nat) : Option (Bool × Bool) :=
  match (s.search dom (page * 65536) (s.searchOrder dom (page * 65536))).1 with
  | some e => some (false, !e.mig)
  | none => if s.refused.contains (dom, page) && !s.reports.contains (dom, page) then some (true, true) else none

/-- PAGE_FAULT_SAVE (R80, R82, R342): a task is saved, or stalls where no frame is free. A page that has been supplied or
refused meanwhile lets it go on. -/
def execPageFaultSave (c i : Nat) (s : State) : Out :=
  let k := s.core c
  match k.threadAt i with
  | some t =>
    match t.status with
    | .faulted va w =>
      if s.saveReady c t then
        let page := va / 65536
        let d := t.dom.toNat
        let s1 := match k.freeFrame d with
          | some pa => s.saveThread c i pa true (liveAll t.pc.toNat) (some (page, w))
          | none => s.setCore c (k.modThread i fun t => { t with status := .stalled va w })
        match s.pageNow d page with
        | some (refused, write) => .next (s1.pended (s1.modCore c (·.pageAnswer d page refused write)) d)
        | none => .next s1
      else .next s
    | _ => .next s
  | none => .next s

/-- PAGE_ARRIVAL (R80, R81, R263): the page has an entry; while it migrates, only reads go on. -/
def execPageArrival (dom page : Nat) (s : State) : Out :=
  let va := page * 65536
  match (s.search dom va (s.searchOrder dom va)).1 with
  | some e =>
    let s1 := s.pended (s.allCores fun _ k => k.pageAnswer dom page false (!e.mig)) dom
    if e.mig then .next s1
    else .next { s1 with
      refused := s.refused.filter (· != (dom, page))
      reports := s.reports.filter (· != (dom, page)) }
  | none => .next s

/-- PAGE_REFUSAL (R261): the supervisor refuses a page that was reported. -/
def execPageRefusal (dom page : Nat) (s : State) : Out :=
  if s.reports.contains (dom, page) then
    .next { s.pended (s.allCores fun _ k => k.pageAnswer dom page true true) dom with
      refused := (dom, page) :: s.refused.filter (· != (dom, page))
      reports := s.reports.filter (· != (dom, page)) }
  else .next s

/-- The map entry of the thread's next shot, at a boundary: its first word is still to issue (R38). The save that ends a
YIELD is a full one (R82, R90). -/
def State.boundary (s : State) (t : Thread) : Option Live :=
  if t.chosen && !t.yield && (t.status == .running || t.status == .waiting) then
    (s.ctx t.ctx).pmap.find? (·.1 == t.pc.toNat)
  else none

/-- The pending event that comes first: a gate's failure, which is a trap of the GATE lookup in progress (R367), then
the lowest bit of TPEND, the oldest of that bit (R335). In a handler only the former is taken; debug events are held
back once a save of the domain has begun (R347). -/
def Thread.nextEvent (t : Thread) (hold : Bool) : Option (Nat × Word × Word × Word × Word) :=
  let es := if t.tret.getLsbD 56 then t.events.filter (·.1 == 6)
    else if hold then t.events.filter fun e => e.1 < 3 || e.1 == 6 else t.events
  ([6, 0, 1, 2, 3, 4, 5].find? fun b => es.any fun e => e.1 == b).bind fun b => es.find? fun e => e.1 == b

/-- No deferred event is to be taken before the thread's next word or lookup (R335, R336). -/
def Core.quietEvents (k : Core) (t : Thread) : Bool := (t.nextEvent (k.saving t.dom)).isNone

/-- The cycle is an issue point of the slot that takes no deferred event (R201, R335, R345). After a YIELD that is its
lookup, once the slot has drained (R90). -/
def State.quietPoint (s : State) (c i : Nat) (t : Thread) : Bool :=
  let k := s.core c
  k.turnSlot == i && t.wskip == 0 && t.holdUntil ≤ k.cycle && (!t.yield || (t.atLookup && s.drained c t.tid))
    && !k.shut && k.quietEvents t

/-- A save that is due may be made now (R342): at an issue point, which a caller that waits at a gate has too (R366), and
a parked or stalled thread has not (R335). -/
def State.fullPoint (s : State) (c i : Nat) (t : Thread) : Bool :=
  match t.status with
  | .running | .waiting | .reply => s.quietPoint c i t
  | .gateWait .. => (s.core c).turnSlot == i && t.holdUntil ≤ (s.core c).cycle
  | _ => false

/-- The thread on slot `i` is saved fully for a pre-emption; one that is stalled goes on waiting for its page. -/
def State.saveFull (s : State) (c i pa : Nat) (t : Thread) : State :=
  match t.status with
  | .stalled va w => s.saveThread c i pa true (liveAll t.pc.toNat) (some (va / 65536, w))
  | _ => s.saveAway c i pa true (liveAll t.pc.toNat)

/-- A pre-emption that finds no free frame is due at the thread's next issue point after one frees (R342). -/
def Core.owe (k : Core) (i : Nat) : Core := k.modThread i fun t => { t with saveDue := true }

/-- A save of the deadline that finds accesses or results of its thread on their way, or a write of L1CFG under way, is made
once they are there and it is done (R109, R201, R288). -/
def Core.oweNow (k : Core) (i : Nat) : Core := k.modThread i fun t => { t with saveNow := true }

/-- PREEMPT_SAVE (R342, R343): a requested thread saves at a listed boundary once its results have landed (R109), or
at its first issue point after a frame has become free where there was none. -/
def execPreemptSave (c i : Nat) (s : State) : Out :=
  let k := s.core c
  match k.threadAt i with
  | some t =>
    match t.preq with
    | none => .next s
    | some q =>
      if k.cycle < q then .next s
      else match s.boundary t, k.freeFrame t.dom.toNat with
        | some lv, some pa => if s.saveReady c t then .next (s.saveAway c i pa false lv) else .next s
        | some _, none => .next (s.setCore c (k.owe i))
        | none, some pa =>
          if (t.saveDue || t.saveNow) && s.fullPoint c i t && s.saveReady c t then .next (s.saveFull c i pa t) else .next s
        | none, none => .next s
  | none => .next s

/-- The thread is saved fully for the deadline at cycle `q + 65,536` (R343): from then on at an issue point that is a
lookup point and takes no deferred event (R345), and in that cycle when it waits, a BARARV's reply included (R232), is
parked, stalled or at a gate. -/
def State.deadlinePoint (s : State) (c i q : Nat) (t : Thread) : Bool :=
  let k := s.core c
  let now := k.cycle == q + 65536 || t.saveNow
  let quiet := k.turnSlot != i || s.quietPoint c i t
  match t.status with
  | .running => t.atLookup && s.quietPoint c i t
  | .waiting | .reply => (t.atLookup && s.quietPoint c i t) || (now && quiet)
  | .parked .. | .stalled .. | .gateWait .. => now
  | _ => false

/-- PREEMPT_DEADLINE (R343): Q + 65,536 has passed, and the thread saves fully; a save that cannot be made at once is
due (R109, R201, R288, R342). Whether the thread still waits is found when the event happens (`State.happens`). -/
def execPreemptDeadline (c i : Nat) (s : State) : Out :=
  let k := s.core c
  match k.threadAt i with
  | some t =>
    match t.preq with
    | none => .next s
    | some q =>
      if q + 65536 ≤ k.cycle && s.deadlinePoint c i q t then
        match k.freeFrame t.dom.toNat with
        | some pa => if s.saveReady c t then .next (s.saveFull c i pa t) else .next (s.setCore c (k.oweNow i))
        | none => .next (s.setCore c (k.owe i))
      else .next s
  | none => .next s

/-- The slot's next word or lookup is held back: a save is due there that waits for its thread's results and
accesses (R109, R201, R288). -/
def State.heldForSave (s : State) (c i : Nat) : Bool :=
  let k := s.core c
  (k.threadAt i).any fun t => !s.saveReady c t && (k.freeFrame t.dom.toNat).isSome && t.preq.any fun q =>
    q ≤ k.cycle && ((s.boundary t).isSome
      || (k.quietEvents t && (t.saveDue || t.saveNow || (q + 65536 ≤ k.cycle && t.atLookup))))

/-- The tasks of a launch on a core, with the cycles of their last starts. -/
def Core.tasksOf (k : Core) (id : Nat) : List (Nat × Nat) :=
  (List.range 8).filterMap fun i => (k.threadAt i).bind fun t =>
    if t.launch == some id && !t.resident then some (t.since, i) else none

/-- The pre-emption request of a launch's longest-running task on the core (R78), of several that started in one cycle
the one on the lowest slot (log 40); a request that stands adds nothing (R343). -/
def Core.preemptLongest (k : Core) (id : Nat) : Core :=
  match (k.tasksOf id).foldl (fun (a : Option (Nat × Nat)) x =>
      match a with
      | none => some x
      | some y => if x.1 < y.1 then some x else some y) none with
  | none => k
  | some (_, i) => k.modThread i fun t => { t with preq := t.preq.or (some k.cycle) }

/-- QUANTUM_EXPIRY (R78): each parallel launch of which a record has waited the domain's quantum with no free slot
has its longest-running task on the core pre-empted at its next map point. A pending unit waits from its launch's
submission, and a record of the share from its push (log 38). -/
def execQuantumExpiry (c d : Nat) (s : State) : Out :=
  let k := s.core c
  let late := fun (l : Launch) => l.cls == 1 && l.dom.toNat == d &&
    ((k.deque ++ k.pendHead).any (fun r => r.launch == some l.id && r.since + k.quantum d ≤ k.cycle)
      || ((l.next c).isSome && l.since + k.quantum d ≤ s.halfNs))
  if (k.freeSlot d).isSome then .next s
  else .next (s.setCore c ((s.launches.filter late).foldl (fun k l => k.preemptLongest l.id) k))

/-- PARK_TIMEOUT (R89). -/
def execParkTimeout (c i : Nat) (s : State) : Out :=
  .next (s.modCore c fun k => k.modThread i fun t => t.wake k.cycle)

/-- R83, R89: the supervisor ends the resident program or the parked thread on the slot, which drains as after an EXIT with
the value `v` (log 41). -/
def State.supervisorEnds (s : State) (c i : Nat) (v : Word) : State :=
  s.modCore c fun k => k.modThread i fun t => match t.status with
    | .exiting _ => t
    | .parked .. => { t with status := .exiting v }
    | _ => if t.resident then { t with status := .exiting v } else t

/-- SEND_DELIVERY (R92): the oldest message of the slot's send queue is appended or discarded; a full
port holds it back. One whose packet to another die fails is discarded: d fills with 0, and the thread has a data error
(R273, R373; log 35). -/
def execSendDelivery (c i : Nat) (s : State) : Out :=
  let k := s.core c
  match (k.slot i).sendq with
  | [] => .next s
  | m :: rest =>
    let s1 := s.setCore c (k.setSlot i { k.slot i with sendq := rest })
    if fld m.dst 15 49 ≠ 0 then .next (s1.fillG c m.tid m.d 2)
    else
      let tc := fld m.dst 5 10
      let ti := fld m.dst 2 3
      if s.tampered.contains c && dieOf tc != dieOf c then
        .next (((s1.packetLost c m.dom.toNat i (m.pc.setWidth 64)).fillG c m.tid m.d 0).pendOn c m.tid fun t =>
          t.pendEvent 0 10 0 (m.pc.setWidth 64) m.dst 0)
      else
      match (s.core tc).threadAt ti with
      | none => .next (s1.fillG c m.tid m.d 1)
      | some t =>
        if t.dom ≠ m.dom then .next (s1.fillG c m.tid m.d 1)
        else
          match t.push (fld m.dst 0 2) m.msg with
          | none => .next s
          | some t' =>
            .next ((s1.modCore tc fun k => k.setThread ti (some (t'.wake k.cycle))).fillG c m.tid m.d 0)

/-- The i-th value on its way may land: it is due, and an RXTAKE's value follows those of the earlier RXTAKEs of its thread
and queue (R323). -/
def Core.fillReady (k : Core) (i : Nat) (f : Fill) : Bool :=
  f.due ≤ k.cycle && (f.queue.isNone || (k.fills.take i).all fun x => x.queue != f.queue || x.tid != f.tid)

/-- LOAD_DATA_FILL (R96, R98, R273): the i-th value on its way lands; an error pends data-error. The range entry of a
refused RTRET is freed (R319). -/
def execLoadDataFill (c i : Nat) (s : State) : Out :=
  let k := s.core c
  match k.fills[i]? with
  | none => .next s
  | some f =>
    if !k.fillReady i f then .next s
    else
      let free := fun (k : Core) => match f.frees with
        | some id => k.freeRanges id
        | none => k
      let s1 := (s.setCore c (free { k with fills := k.fills.eraseIdx i })).fillG c f.tid f.d f.value
      match f.error with
      | none => .next s1
      | some (pc, ea) =>
        .next (s1.pendOn c f.tid fun t => t.pendEvent 0 10 0 (pc.setWidth 64) ea 0)

/-- VECTOR_RESULT_LAND (R107): the i-th pending result of a slot is written at its due time. -/
def execVectorResultLand (c slot i : Nat) (s : State) : Out :=
  .next (s.modCore c fun k => k.modThread slot fun t =>
    match t.pend[i]? with
    | some p => if p.due ≤ k.cycle then { t.land p with pend := t.pend.eraseIdx i } else t
    | none => t)

end Sys2Proof.Machine
end

