-- ==== Sys2Proof/Machine/System.lean ====
section
/-! DEFINITION. System registers (R348 to R354, R357, R383), SEGW and SEGR (R380 to R382), TRAP and BKPT
(R352), HALT (R355), EVTR (R396), and the events of partitions, seals, keys, attestation, the page table's
registers, shoot-downs, the clock and the L1. -/

namespace Sys2Proof.Machine

/-! ### SEGW and SEGR (R380 to R382) -/

/-- The segment field K of SEGW and SEGR. -/
def segField (x : FmtS) : Nat := fld x.op 0 3

/-- SEGW (R381). -/
def execSegw (x : FmtS) (s : State) : Out :=
  s.instr x.e x.w do
    let vs ← srcs [x.a, x.b]
    let t ← thread
    let o := rd t.seg (segField x) {}
    let nb := fld (arg vs 0) 0 52
    let nl := fld (arg vs 1) 0 52
    let nr := (arg vs 1).extractLsb' 52 6
    if o.dom ≠ t.dom then segTrap (segField x) (3, nb)
    if 2 ^ 52 < nb + nl then segTrap (segField x) (1, nb)
    if t.dom ≠ 0 then
      if nb < o.base.toNat || o.base.toNat + o.limit.toNat < nb + nl then segTrap (segField x) (1, nb)
      if nr &&& ~~~o.rights ≠ 0 then segTrap (segField x) (2, nb)
    let g : Seg := ⟨o.dom, BitVec.ofNat 52 nb, nr, BitVec.ofNat 53 nl⟩
    modThread fun t => { t with seg := wr t.seg (segField x) g }

/-- SEGR (R382): a limit of 2^52 reads as its low 52 bits (log 20). -/
def execSegr (x : FmtS) (s : State) : Out :=
  s.instr x.e x.w do
    waitDst x.d
    let g := rd (← thread).seg (segField x) {}
    write x.d (if x.op.getLsbD 3 then g.w1 else g.w0)

/-! ### TRAP, BKPT, HALT and EVTR -/

/-- TRAP (R352). -/
def execTrap (x : FmtS) (s : State) : Out :=
  s.instr x.e x.w do
    let a ← src x.a
    raise 19 (fld x.imm 0 8) a

/-- BKPT (R352). -/
def execBkpt (x : FmtS) (s : State) : Out :=
  s.instr x.e x.w (raise 20 1 (word (fld x.imm 0 8)))

/-- HALT (R355): PARK with MASK 0b1111 and no timeout, in domain 0 only. -/
def execHalt (x : FmtS) (s : State) : Out :=
  s.instr x.e x.w do
    need ((← thread).dom == 0) 2 1
    let k ← core
    modThread fun t => { t with status := .parked 0xF none 0 }.wake k.cycle

/-- EVTR (R396). -/
def execEvtr (x : FmtS) (s : State) : Out :=
  s.instr x.e x.w do
    waitDst x.d
    let k ← core
    let t ← thread
    let n := fld x.op 0 3
    let own := t.dom == 0 || fld (rd k.evsel n 0) 48 8 == t.dom.toNat
    write x.d (if own then rd k.evcnt n 0 else BitVec.allOnes 64)

/-! ### Deferred events (R335, R336) -/

/-- R335: the slot's cycle is an issue point of its thread. -/
def State.issuePoint (s : State) : Bool :=
  let k := s.me
  match s.thread? with
  | none => false
  | some t => (t.status = .running || t.status = .waiting || t.status = .reply) && t.wskip == 0 && t.holdUntil ≤ k.cycle
      && (!t.yield || (t.atLookup && s.drained s.cur t.tid))
      && !k.shut

/-- The event due at this issue point. -/
def State.dueEvent (s : State) : Option (Nat × Word × Word × Word × Word) :=
  match s.thread? with
  | none => none
  | some t =>
    if s.issuePoint then t.nextEvent (s.me.saving t.dom) else none

/-- The thread still awaits the reply of its BARARV in the handler that it has entered, whose word is held back too
(R232). -/
def Thread.keepReply (was : Status) (t : Thread) : Thread :=
  match was, t.status with
  | .reply, .running => { t with status := .reply }
  | _, _ => t

/-- DEFERRED_EVENT_TAKEN (R336): the resume point is the word or the lookup of this issue point. The failure of a
gate is a trap of the lookup (R367). -/
def execDeferredEventTaken (s : State) : Out :=
  match s.dueEvent with
  | none => .next s
  | some e =>
    let (b, c, a, d0, d1) := e
    let kind := if s.thread.atLookup || b == 6 then 2 else 0
    .next (((s.modThread fun t => t.setEvents (t.events.erase e)).take (fld c 0 8) (fld c 8 8) a d0 d1 kind).modThread
      (·.keepReply s.thread.status))

/-! ### Partition registers (R356 to R361) -/

/-- Two ranges of `base`, `count` meet. -/
def meets (a b : Nat × Nat) : Bool := a.1 < b.1 + b.2 && b.1 < a.1 + a.2 && a.2 != 0 && b.2 != 0

/-- The domains for which a core holds a PART0 or PART1 value. -/
def Core.domains (k : Core) : List Nat := ((k.part0 ++ k.part1).map (·.1)).dedup

/-- The shares that two present domains may not both hold (R360). -/
def Core.apart (k : Core) (d e : Nat) : Bool :=
  k.slotMask d &&& k.slotMask e == 0 && k.accMask d &&& k.accMask e == 0 && k.hbank d != k.hbank e
    && !meets (k.bankBase d, k.bankCount d) (k.bankBase e, k.bankCount e)
    && !meets (k.cueBase d, k.cueCount d) (k.cueBase e, k.cueCount e)
    && !meets (k.ringBase d, k.ringCount d) (k.ringBase e, k.ringCount e)
    && !meets (k.splBase d, k.splCount d) (k.splBase e, k.splCount e)
    && !meets (k.rxBase d, k.rxCount d) (k.rxBase e, k.rxCount e)

/-- The ranges and quotas of a domain lie within their resources (R358 to R360). -/
def Core.fits (k : Core) (d : Nat) : Bool :=
  k.bankBase d + k.bankCount d ≤ 48 - k.lb && k.cueBase d + k.cueCount d ≤ 1024 && k.cueQuota d ≤ 64
    && k.ringBase d + k.ringCount d ≤ 16 && k.splBase d + k.splCount d ≤ 16 && k.rxBase d + k.rxCount d ≤ 16
    && k.rangeQuota d ≤ 32 && k.dequeShare d ≤ 64 && k.copyShare d ≤ 16 && k.matShare d ≤ 8

/-- R360: nothing forbids the partitions that `k` would have after a write for domain `d`. -/
def Core.partOk (k : Core) (d : Nat) : Bool :=
  let ps := k.domains.filter k.present
  let sum := fun (f : Core → Nat → Nat) => (ps.map (f k)).sum
  ps.all (fun a => ps.all fun b => a == b || k.apart a b) && k.fits d
    && sum Core.dequeShare ≤ 64 && sum Core.copyShare ≤ 16 && sum Core.matShare ≤ 8
    && ps.all (fun a => 4 ≤ k.rangeQuota a)
    && k.desc.all fun e => e.2.count == 0 || e.2.dom.toNat != d
      || (k.cueBase d ≤ e.2.base && e.2.base + e.2.count ≤ k.cueBase d + k.cueCount d)

/-- Bytes `[lo, hi)` of the store read as zero. -/
def Core.clearStore (k : Core) (lo hi : Nat) : Core :=
  { k with store := k.store.filter fun e => e.1 < lo || hi ≤ e.1 }

/-- R99, R164: the domain's h bank is given to it. -/
def Core.giveBank (k : Core) (d : Nat) : Core :=
  let b := k.hbank d
  let k := if Tab.get 0 k.hOwner b = d + 1 then k
    else { k with h := wr k.h b (Vector.replicate 16 0), hOwner := k.hOwner.put b (d + 1) }
  let seed := Tab.get 1 k.rseed d
  { k with rng := Tab.set 1 k.rng d (if seed = 0 then 1 else seed) }

/-- R200, R235, R361: what passes to a domain that did not last hold it is cleared. A ready or running splice whose
table passes on is dropped: its SPLINI's d is never filled and its output's range entry never freed (R310 and R361 are
silent; log 44). -/
def Core.giveRest (k : Core) (d : Nat) : Core :=
  let k := (List.range (k.bankCount d)).foldl (fun k i =>
    let b := k.bankBase d + i
    if Tab.get 0 k.bankOwner b = d + 1 then k
    else { k.clearStore (b * 32768) (b * 32768 + 32768) with bankOwner := k.bankOwner.put b (d + 1) }) k
  let k := (List.range 4).foldl (fun (k : Core) a =>
    if !k.hasAcc d a || Tab.get 0 k.accOwner a = d + 1 then k
    else { k with
      acc := k.acc.filter fun e => e.1 / 4096 != a
      accOwner := k.accOwner.put a (d + 1) }) k
  let k := (List.range (k.ringCount d)).foldl (fun (k : Core) i =>
    let r := k.ringBase d + i
    if Tab.get 0 k.ringOwner r = d + 1 then k
    else { k.loseRing (some d) r with ring := wr k.ring r {}, ringOwner := k.ringOwner.put r (d + 1) }) k
  { k with splice := k.splice.filter fun e => !(k.hasSplice d e.1 && e.2.dom.toNat != d) }

/-- R200: a domain that leaves the core takes its rings, range entries and queued copies with it, and its banks with
the barrier objects in them. A ring's slice scale goes with the ring, and is 1.0 again also where the same domain comes
back (log 43); an MMA that reads of the ring finds it gone (R24; log 22). -/
def Core.discard (k : Core) (old : Core) (d : Nat) : Core :=
  let k := ((List.range 16).filter (old.hasRing d)).foldl (fun k r => k.loseRing none r) k
  { k.clearStore (old.bankBase d * 32768) ((old.bankBase d + old.bankCount d) * 32768) with
    barwts := k.barwts.filter fun b => b.t.dom.toNat != d
    ring := Vector.ofFn fun (i : Fin 16) => if old.hasRing d i then {} else rd k.ring i {}
    ranges := k.ranges.filter fun e => e.2.dom.toNat != d
    copies := k.copies.filter fun c => c.t.dom.toNat != d }

/-- The bits that PART0, PART1, PART2 hold (R357 to R359). -/
def partMask (idx : Nat) : Word :=
  match idx with
  | 0 => 0x0FFF_FFFF_0FFF_F7FF
  | 1 => 0x0FFF_F1FF_1FF1_FF3F
  | _ => 0x1FF

/-- The domain's slots that hold no thread. -/
def Core.freeSlots (k : Core) (d : Nat) : Nat := (List.range 8).countP fun i => (k.slotMask d).testBit i && (k.threadAt i).isNone

/-- R360, R361: a write of PART0, PART1 or PART2 takes effect, or has no effect. A domain that gains a free slot asks
again (R74). A share that falls below the records queued in it keeps them, as does the share of a domain that leaves
the core (log 22). -/
def Core.partWrite (k : Core) (d idx : Nat) (v : Word) : Core :=
  let v := v &&& partMask idx
  if (Tab.get 0 k.plock d).getLsbD 63 then k
  else if idx = 2 then { k with part2 := Tab.set 0 k.part2 d v }
  else
    let k' := if idx = 0 then { k with part0 := Tab.set 0 k.part0 d v }
      else { k with part1 := Tab.set 0 k.part1 d v }
    let kept := (List.range 8).all fun i =>
      (k'.slotMask d).testBit i || !(k.slotMask d).testBit i || (k.threadAt i).isNone
    if !(kept && k'.partOk d) then k
    else if !k'.present d then (if k.present d then k'.discard k d else k')
    else
      let k' := if k.freeSlots d < k'.freeSlots d then k'.askAgain d else k'
      let k' := if k.present d && k.hbank d = k'.hbank d then k' else k'.giveBank d
      k'.giveRest d

/-- R360: a write of PLOCK; clearing lock needs every slot of the domain free. -/
def Core.plockWrite (k : Core) (d : Nat) (v : Word) : Core :=
  let v := v &&& 0x8000_0000_0000_7FFF
  let free := (List.range 8).all fun i => !(k.slotMask d).testBit i || (k.threadAt i).isNone
  if (Tab.get 0 k.plock d).getLsbD 63 && !v.getLsbD 63 && !free then k
  else { k with plock := Tab.set 0 k.plock d v }

/-! ### L1CFG, PREQ and HBANK -/

/-- R201: the value that a write of L1CFG names is allowed. -/
def Core.lbOk (k : Core) (v : Word) : Bool :=
  let n := fld v 0 5
  4 ≤ n && n ≤ 16 && (k.domains.filter k.present).all fun d =>
    k.bankCount d == 0 || k.bankBase d + k.bankCount d ≤ 48 - n

/-- R201, step 1: from the end of the turn no slot of the core issues. The value is checked at the write: a PART0 write
of the same turn, which takes effect at its end, is not seen (log 42). Of two allowed writes in one turn the second
replaces the first (log 43). -/
def Core.l1cfgWrite (k : Core) (v : Word) : Core :=
  if k.lbOk v then { k with lbPend := some (fld v 0 5, 8 * (k.turn + 1)) } else k

/-- R343: a request reaches a slot, once. -/
def Core.request (k : Core) (i : Nat) : Core :=
  k.modThread i fun t => { t with preq := t.preq.or (some k.cycle) }

/-- R351: the request of a write of PREQ is sent. -/
def Core.preqWrite (k : Core) (v : Word) : Core :=
  if v.getLsbD 63 then
    let d := fld v 40 8
    let k := (List.range 8).foldl (fun (k : Core) i =>
      if (k.threadAt i).any (·.dom.toNat == d) then k.request i else k) k
    { k with preqDom := if k.preqDom.contains d then k.preqDom else k.preqDom ++ [d] }
  else (List.range 8).foldl (fun (k : Core) i => if v.getLsbD i then k.request i else k) k

/-- The mask of slots whose request is outstanding (R351). -/
def Core.preqMask (k : Core) : Nat :=
  ((List.range 8).map fun i => if (k.threadAt i).any (·.preq.isSome) then 2 ^ i else 0).sum

/-- R100, R349: HBANK, with the turn timing of an h write. -/
def Core.hbankWrite (k : Core) (d reg : Nat) (v : Word) : Core :=
  { k with hPend := k.hPend ++ [(k.hbank d, reg, v)] }

/-- R164: RSEED, which sets the generator too; a seed of 0 is stored as 1. -/
def Core.rseedWrite (k : Core) (d : Nat) (v : Word) : Core :=
  let v := if v = 0 then 1 else v
  { k with rseed := Tab.set 1 k.rseed d v, rng := Tab.set 1 k.rng d v }

/-! ### Route entries and pools (R297, R303) -/

/-- R297: a write of a word of a route entry. -/
def Core.routeWrite (k : Core) (e i : Nat) (v : Word) : Core :=
  let (w0, w1) := Tab.get (0, 0) k.route e
  if i = 1 then { k with route := Tab.set (0, 0) k.route e (w0, v &&& 0x1_FFFF_FFFF) }
  else
    let v := if fld v 52 2 = 3 then setFld v 52 2 0 else v
    let credit := if fld v 28 16 ≠ fld w0 28 16 ∨ v.getLsbD 54 ≠ w0.getLsbD 54 then fld v 28 16
      else fld w0 12 16
    let w := setFld (v &&& 0xFFFF_FFFF_F000_0000) 12 16 credit
    { k with route := Tab.set (0, 0) k.route e (w, w1) }

/-- R303: a write of POOL, which marks every page of the pool free. A count above 4,096 is stored as 4,096 and one of 0
as 0, and the low bits of base and size are dropped (log 43). -/
def Core.poolWrite (k : Core) (d i : Nat) (v : Word) : Core :=
  let p := Tab.get {} k.pool d
  let p := match i with
    | 0 => { p with base := v.toNat / 65536 * 65536 }
    | 1 => { p with size := v.toNat / 256 * 256 }
    | _ => { p with count := Nat.min v.toNat 4096 }
  { k with pool := Tab.set {} k.pool d { p with used := [] } }

/-! ### Keys, measurements and attestation (R372 to R377) -/

/-- R372, R376: new keys of a domain, whose measurement starts again. -/
def State.refreshKeys (s : State) (d : Nat) : State :=
  { s with epoch := Tab.set 0 s.epoch d (Tab.get 0 s.epoch d + 1), meas := s.meas.erase d }

/-- A domain's measurement: 48 zero bytes at the start of an epoch (R376). -/
def State.measOf (s : State) (d : Nat) : List Byte := Tab.get (List.replicate 48 0) s.meas d

/-- R376: the measurement extended with the digest at a physical address, which core `c` has named; not extended where the
packet of the digest fails (R373; log 35). -/
def State.extendMeas (s : State) (c d pa : Nat) : State :=
  if s.tampered.contains c then s.packetLost c d 0 0 else { s with meas := s.meas.put d (sha384 (s.measOf d ++ s.rdRaw pa 48)) }

/-- The bytes 0x00 to 0x9F of a report (R377). -/
def State.reportHead (s : State) (die d pa : Nat) : List Byte :=
  leBytes 4 1 ++ leBytes 4 (fld s.pkgid 0 19) ++ [BitVec.ofNat 8 die, BitVec.ofNat 8 d, 0xB0, 0x12]
    ++ leBytes 4 (Tab.get 0 s.epoch d) ++ s.rdRaw (pa + 16) 48 ++ s.fwMeas ++ s.measOf d

/-- R377: the report of domain `d` at `pa`, signed by the die of core `c`. Where a packet of the buffer fails it is not
complete (R373; log 35). -/
def State.attestAt (s : State) (c d pa : Nat) : State :=
  if s.tampered.contains c then s.packetLost c d 0 0 else
  let die := dieOf c
  let head := s.reportHead die d pa
  let dig := sha384 head
  let s := s.wrRaw pa (head ++ (List.range 96).map (Config.signByte die dig))
  { s with attested := Tab.set false s.attested d true }

/-! ### Sealing a domain (R344, R370, R371) -/

/-- The 256-byte header (R370). -/
def sealHeader (core dom ctr len : Nat) (tag : List Byte) : List Byte :=
  leBytes 4 1 ++ leBytes 2 core ++ [BitVec.ofNat 8 dom, 0] ++ leBytes 8 ctr ++ leBytes 8 len ++ tag
    ++ List.replicate 216 0

/-- The sizes of the sections in the order of R344: h bank, generator, accumulators, slice scales, ring descriptors,
splice tables, queue bindings, banks. The three that the manual gives no layout have open sizes (log 13). -/
def Sealed.sections (z : Sealed) : List Nat :=
  let k := z.state
  let d := z.dom
  [128, 8, 16384 * ((List.range 4).filter (k.hasAcc d)).length, 4 * k.ringCount d,
    Config.sealSection z.core d z.ctr 0, Config.sealSection z.core d z.ctr 1, Config.sealSection z.core d z.ctr 2,
    32768 * k.bankCount d]

/-- R370: the length of the image: the header and the sections, each padded to 256 bytes. -/
def Sealed.length (z : Sealed) : Nat := 256 + (z.sections.map fun n => (n + 255) / 256 * 256).sum

/-- The bytes of a sealed image: header, then sections, both under the cipher's keystream. -/
def Sealed.bytes (z : Sealed) : List Byte :=
  let n := z.length - 256
  let f := Config.sealByte z.dom z.epoch z.core z.ctr
  sealHeader z.core z.dom z.ctr (256 + n) ((List.range 16).map f) ++ (List.range n).map fun i => f (16 + i)

/-- R344: every thread of the domain is off its slots and its commands have retired. -/
def Core.quiet (k : Core) (d : Nat) : Bool :=
  (List.range 8).all (fun i => (k.threadAt i).all fun t => t.dom.toNat != d)
    && k.copies.all (fun c => c.t.dom.toNat != d) && k.mats.all (fun c => c.t.dom.toNat != d)
    && k.routes.all fun c => c.t.dom.toNat != d

/-- The area of a domain's SEAL register. -/
def sealArea (w : Word) : Nat := fld w 16 36 * 65536

/-- The image that a save of the domain writes now (R370). -/
def State.sealImage (s : State) (c d : Nat) : Sealed :=
  { core := c, dom := d, ctr := Tab.get 0 (s.core c).sealCtr d + 1, epoch := Tab.get 0 s.epoch d, state := s.core c }

/-- The range entries of the output tiles of a domain's splices (R310). -/
def Core.outRanges (k : Core) (d : Nat) : List RangeEnt :=
  (k.ranges.map (·.2)).filter fun e => e.dom.toNat == d &&
    k.splice.any fun p => p.2.dom.toNat == d && e.owner == .command p.2.t.id

/-- The image reaches its area; a packet that fails takes it with it (R373; log 35). -/
def State.sealWritten (s : State) (c d pa : Nat) (bs : List Byte) : State :=
  if s.tampered.contains c then s.packetLost c d 0 0 else s.wrRaw pa bs

/-- The rows of the fault hold whose queue belongs to the domain (R307). -/
def Core.heldRows (k : Core) (d : Nat) : List HeldRow :=
  k.hold.filter fun h => k.rxq.any fun q => q.1 == h.queue && q.2.dom.toNat == d

/-- R344, R370: the domain's image is written to its seal area, and its queue bindings, its splices and the entries of
their output tiles leave the core with it (log 24), as do the rows of its queues in the fault hold, of which R307 and
R344 say nothing (log 44). -/
def State.sealDomain (s : State) (c d : Nat) : State :=
  let k := s.core c
  let reg := Tab.get 0 k.sealReg d
  let z := s.sealImage c d
  let outs := k.outRanges d
  let s := (s.sealWritten c d (sealArea reg) z.bytes).modCore c fun k => { k with
    sealCtr := Tab.set 0 k.sealCtr d z.ctr
    ranges := k.ranges.filter fun e => !outs.contains e.2
    sealReg := Tab.set 0 k.sealReg d (setFld reg 1 1 1)
    preqDom := k.preqDom.filter (· != d)
    rxq := k.rxq.filter fun q => q.2.dom.toNat != d
    hold := k.hold.filter fun h => !(k.heldRows d).contains h
    splice := k.splice.filter fun e => e.2.dom.toNat != d }
  { s with sealed := s.sealed ++ [z] }

/-- Entries that a domain holds. -/
def Core.rangesOf (k : Core) (d : Nat) : Nat := (k.ranges.filter fun e => e.2.dom.toNat == d).length

/-- R209: `n` more entries fit the domain's quota and the table. -/
def Core.rangeRoom (k : Core) (d n : Nat) : Bool :=
  k.rangesOf d + n ≤ k.rangeQuota d && k.ranges.length + n ≤ 32

/-- An entry registered at the lowest free index (R209). -/
def Core.addRange (k : Core) (e : RangeEnt) : Core :=
  match firstIx 32 fun i => k.ranges.all fun x => x.1 != i with
  | some i => { k with ranges := k.ranges.put i e }
  | none => k

/-- The domain's part of a sealed core state, loaded into `k`, within what the domain holds there (R24, R344, R371):
nothing where it is not present, and no range entry beyond its quota (log 24). A held row comes back with its queue, and
is lost where the domain has that queue no longer or the hold's eight entries are full (log 44). -/
def Core.restoreFrom (k z : Core) (d : Nat) : Core :=
  if !k.present d then k else
  let k := ((z.outRanges d).filter fun e => z.splice.any fun p => e.owner == .command p.2.t.id
    && k.hasSplice d p.1).foldl (fun k e => if k.rangeRoom d 1 then k.addRange e else k) k
  let banks := (List.range 48).filter fun b => k.ownsBank d b
  let inBank := fun (e : Nat × Byte) => banks.contains (e.1 / 32768)
  { k with
    h := wr k.h (k.hbank d) (z.bankOf d)
    rng := Tab.set 1 k.rng d (z.rngOf d)
    acc := (z.acc.filter fun e => k.hasAcc d (e.1 / 4096)).foldl (fun t e => Tab.set 0 t e.1 e.2)
      (k.acc.filter fun e => !k.hasAcc d (e.1 / 4096))
    ring := Vector.ofFn fun (i : Fin 16) => rd (if k.hasRing d i then z.ring else k.ring) i {}
    splice := (z.splice.filter fun e => e.2.dom.toNat == d && k.hasSplice d e.1).foldl
      (fun t e => Tab.put t e.1 e.2) k.splice
    rxq := (z.rxq.filter fun e => e.2.dom.toNat == d && k.hasQueue d e.1).foldl (fun t e => Tab.put t e.1 e.2) k.rxq
    hold := (k.hold ++ (z.heldRows d).filter fun h => k.hasQueue d h.queue).take 8
    store := (z.store.filter inBank).foldl (fun t e => Tab.set 0 t e.1 e.2)
      (k.store.filter fun e => !inBank e) }

/-- The threads that a whole-domain save left without a resume record, by the slot saved from (R371). -/
def Core.savedWhole (k : Core) (d : Nat) : List Saved :=
  (List.range 8).flatMap fun i => k.saved.filter fun f => f.whole && f.thread.dom.toNat == d && f.slot == i

/-- What the checks of a restore read of an image (R371): the header up to the tag, and the sections. -/
def sealChecked (bs : List Byte) : List Byte := bs.take 0x28 ++ bs.drop 0x100

/-- R371: a restore from the seal area that `v` names, or its failure, also where the packet of the image fails (R373; log
35); each saved thread has a resume record again, whether or not its page is there. -/
def State.restoreDomain (s : State) (c d : Nat) (v : Word) : State :=
  let lost := s.tampered.contains c
  let s := if lost then s.packetLost c d 0 0 else s
  let k := s.core c
  let reg := Tab.get 0 k.sealReg d
  let good := fun (z : Sealed) => z.core == c && z.dom == d && z.ctr == Tab.get 0 k.sealCtr d
    && z.epoch == Tab.get 0 s.epoch d && decide (sealChecked (s.rdRaw (sealArea v) z.bytes.length) = sealChecked z.bytes)
  match if lost then none else s.sealed.find? good with
  | none => s.setCore c { k with sealReg := Tab.set 0 k.sealReg d (setFld reg 2 1 1) }
  | some z =>
    let k1 := k.restoreFrom z.state d
    let k2 := (k.savedWhole d).foldl (fun (k : Core) f => k.pushResume (resumeRec f.thread f.frame k.cycle)) k1
    let saved := k2.saved.map fun f =>
      if f.whole && f.thread.dom.toNat == d then { f with whole := false, page := if f.refused then f.page else none }
      else f
    s.pended (s.setCore c { k2 with sealReg := Tab.set 0 k.sealReg d (setFld reg 1 2 0), saved }) d

/-- The work that a write of a domain's register has asked for joins what is not done: the manual gives it no time
(R402). -/
def State.ask (s : State) (w : DomWork) : State := { s with work := s.work ++ [w] }

/-- A write of SEAL: the area, and a restore, which takes its time, where bit 3 asks for it (R371). -/
def State.sealWrite (s : State) (c d : Nat) (v : Word) : State :=
  let s := s.modCore c fun k =>
    { k with sealReg := Tab.set 0 k.sealReg d (setFld (Tab.get 0 k.sealReg d) 16 36 (fld v 16 36)) }
  if v.getLsbD 3 then s.ask (.restore c d v) else s

/-- Work of the same register: its requests are done in the order of their writes (log 24). -/
def DomWork.like : DomWork → DomWork → Bool
  | .keys d, .keys e => d == e
  | .extend _ d _, .extend _ e _ => d == e
  | .attest _ d _, .attest _ e _ => d == e
  | .restore c d _, .restore b e _ => c == b && d == e
  | _, _ => false

/-- What has been asked for and is not done keeps the busy bit of its register at 1 (R357, R371, R372, R376, R377). -/
def State.busy (s : State) (w : DomWork) : Bool := s.work.any w.like

/-- The state without the work, where it is the next of its register. -/
def State.takeWork (s : State) (w : DomWork) : Option State :=
  if s.work.find? w.like = some w then some { s with work := s.work.erase w } else none

/-! ### The package's registers -/

/-- R398, R349: PTCFG; a change of m takes effect on every translation that begins after it. An m of 25 to 31, and a
PTBASE that is no multiple of 2^(m+8), are stored and used as written (R256; log 43). -/
def State.ptcfgWrite (s : State) (v : Word) : State := { s with ptcfg := v &&& 0xF1F }

/-- R260: a request to SHOOT. -/
def State.shootWrite (s : State) (v : Word) : State :=
  { s with shoot := s.shoot ++ [{ dom := fld v 56 8, page := fld v 16 36, big := v.getLsbD 1
                                  all := v.getLsbD 0 }] }

/-- A page of 64 KiB that a request covers. -/
def Shoot.covers (r : Shoot) (dom vpn : Nat) : Bool :=
  r.dom == dom && (r.all || (if r.big then r.page / 32 == vpn / 32 else r.page == vpn))

/-- A translation that a request removes. -/
def Shoot.drops (r : Shoot) (t : Tlb) : Bool :=
  t.dom.toNat == r.dom && (r.all || (t.big == r.big && (if r.big then t.vpn / 32 == r.page / 32
    else t.vpn == r.page)))

/-- R260: the steps of a shoot-down: every port drops the translation, every core writes back and drops
its lines of the page and domain. -/
def State.shootNow (s : State) (r : Shoot) : State :=
  let s := { s with tlb := s.tlb.map fun (e : Nat × List Tlb) => (e.1, e.2.filter fun t => !r.drops t) }
  (s.cores.map (·.1)).foldl (fun s c =>
    ((s.core c).lines.filter fun l => r.covers l.dom.toNat (l.va / 65536)).foldl
      (fun s l => s.flushVa c l.dom l.va false) s) s

/-! ### The register file of SYSR and SYSW (R348, R349, R357, R383) -/

/-- Who holds a register. -/
inductive RegHeld where
  | slot
  | domain
  | core
  | package
  deriving DecidableEq, Repr

/-- What R349 and R383 fix of a register: holder, number of indices, whether only domain 0 reads it, and
who writes it: 0 nobody, 1 domain 0 only, 2 its own domain. -/
structure RegInfo where
  held : RegHeld
  count : Nat
  sup : Bool
  wr : Nat
  deriving DecidableEq, Repr

def regInfo (n : Nat) : RegInfo :=
  match n with
  | 0x000 | 0x005 | 0x010 | 0x011 | 0x012 | 0x013 | 0x014 | 0x015 => ⟨.slot, 1, false, 2⟩
  | 0x001 | 0x002 | 0x003 | 0x004 | 0x006 | 0x007 => ⟨.slot, 1, false, 0⟩
  | 0x020 => ⟨.domain, 1, false, 1⟩
  | 0x021 => ⟨.domain, 1, false, 2⟩
  | 0x022 => ⟨.domain, 16, true, 1⟩
  | 0x023 => ⟨.domain, 2, true, 1⟩
  | 0x024 => ⟨.domain, 3, true, 1⟩
  | 0x025 => ⟨.domain, 14, true, 1⟩
  | 0x030 | 0x031 => ⟨.core, 1, true, 1⟩
  | 0x040 => ⟨.core, 64, true, 1⟩
  | 0x041 => ⟨.core, 4096, true, 0⟩
  | 0x042 => ⟨.core, 64, true, 1⟩
  | 0x043 => ⟨.core, 512, true, 1⟩
  | 0x060 | 0x061 => ⟨.core, 8, true, 1⟩
  | 0x072 => ⟨.package, 4, true, 0⟩
  | 0x073 => ⟨.package, 1, true, 0⟩
  | 0x074 => ⟨.package, 26, true, 0⟩
  | _ => ⟨.package, 1, true, 1⟩

/-- What a SYSR or SYSW reaches: the number, the index, the slot and the domain. -/
structure RegRef where
  num : Nat
  idx : Nat
  slot : Nat
  dom : Nat
  deriving DecidableEq, Repr

/-- x and the target of op (R353). -/
def crossOf (x : FmtS) : Bool := x.op.getLsbD 8
def targetField (x : FmtS) : Nat := fld x.op 0 8

/-- R354, sub-code 2: the register, or x, is not the domain's to use. -/
def privFault2 (x : FmtS) (dom : Byte) : Bool :=
  let r := regInfo x.imm.toNat
  (dom != 0 && (r.sup || crossOf x)) || (crossOf x && (r.held == .core || r.held == .package))

/-- R354, sub-code 3: an index or a target that does not exist. PART reaches every domain (log 22). -/
def privFault3 (x : FmtS) (k : Core) (idx : Nat) : Bool :=
  let r := regInfo x.imm.toNat
  r.count ≤ idx || (crossOf x && r.held == .slot && 8 ≤ targetField x)
    || (crossOf x && r.held == .domain && x.imm != 0x025 && !k.present (targetField x))

/-- The register that a SYSR or SYSW names, after the checks of R354 that both share. Index 0 is one that every register
has: with it only the target of the word is checked. -/
def regRef (x : FmtS) (idx : Word) : M RegRef := do
  let t ← thread
  let k ← core
  need (!privFault3 x k idx.toNat) 2 3
  return { num := x.imm.toNat, idx := idx.toNat
           slot := if crossOf x then targetField x else k.turnSlot
           dom := if crossOf x then targetField x else t.dom.toNat }

/-- A register of a slot (R350); a slot with no thread reads as at reset (R348). -/
def Thread.readReg (t : Thread) (n : Nat) : Word :=
  match n with
  | 0x000 => t.cfg
  | 0x001 => t.tcause
  | 0x002 => t.taddr
  | 0x003 => t.tdet0
  | 0x004 => t.tdet1
  | 0x005 => t.tret
  | 0x006 => t.tpend
  | 0x007 => t.hndl
  | 0x014 => rd t.dbw 0 0
  | 0x015 => rd t.dbw 1 0
  | _ => rd t.dbi (n - 0x010) 0

/-- A word of a cue-set descriptor (R121). -/
def CueDesc.word (d : CueDesc) : Word :=
  d.cut.setWidth 64 <<< 48 ||| d.dom.setWidth 64 <<< 40 ||| Machine.word (d.sello <<< 32 ||| d.selreg <<< 27
    ||| d.count <<< 16 ||| d.base)

/-- R225, R227: geometry and state of a ring. -/
def Ring.geom (r : Ring) : Word := word (r.base ||| r.tiles <<< 24)
def Ring.state (r : Ring) : Word :=
  word (r.head ||| r.ready <<< 8 ||| r.held <<< 16 ||| r.claims <<< 24 ||| r.tiles <<< 32)

/-- A register of a domain on core `c` (R349, R357). -/
def State.readDom (s : State) (c : Nat) (r : RegRef) : Word :=
  let k := s.core c
  let d := r.dom
  match r.num with
  | 0x020 => Tab.get 1048576 k.quant d
  | 0x021 => Tab.get 1 k.rseed d
  | 0x022 => rd (k.bankOf d) r.idx 0
  | 0x023 => if r.idx = 0 then Tab.get 0 k.frBase d else Tab.get 0 k.frCount d
  | 0x024 =>
    let p := Tab.get {} k.pool d
    word (if r.idx = 0 then p.base else if r.idx = 1 then p.size else p.count)
  | _ =>
    match r.idx with
    | 0 => Tab.get 0 k.part0 d
    | 1 => Tab.get 0 k.part1 d
    | 2 => Tab.get 0 k.part2 d
    | 3 => Tab.get 0 k.plock d
    | 4 => setFld (Tab.get 0 k.sealReg d) 0 1 (if s.busy (.restore c d 0) then 1 else 0)
    | 5 => setFld (word (Tab.get 0 s.epoch d % 2 ^ 32) <<< 32) 1 1 (if s.busy (.keys d) then 1 else 0)
    | 12 => if s.busy (.extend 0 d 0) then 1 else 0
    | 13 => (if s.busy (.attest c d 0) then 1 else 0) ||| if Tab.get false s.attested d then 2 else 0
    | i => word (ofLe (((s.measOf d).drop (8 * (i - 6))).take 8))

/-- A register of the core (R349, R383). -/
def Core.readReg (k : Core) (r : RegRef) : Word :=
  match r.num with
  | 0x030 => word k.preqMask
  | 0x031 => word k.lb
  | 0x040 => (k.descOf r.idx).word
  | 0x041 =>
    let e := (k.cueAt (r.idx / 4)).live
    match r.idx % 4 with
    | 0 => e.value
    | 1 => e.mask
    | 2 => e.action.extractLsb' 0 64
    | _ => e.action.extractLsb' 64 64
  | 0x042 =>
    let g := rd k.ring (r.idx / 4) {}
    match r.idx % 4 with
    | 0 => g.geom
    | 1 => g.layout
    | 2 => g.state
    | _ => g.sigma.setWidth 64
  | 0x043 =>
    let e := Tab.get (0, 0) k.route (r.idx / 2)
    if r.idx % 2 = 0 then e.1 else e.2
  | 0x060 => rd k.evsel r.idx 0
  | _ => rd k.evcnt r.idx 0

/-- A register of the package (R349, R383). -/
def State.readPkg (s : State) (num idx : Nat) : Word :=
  match num with
  | 0x050 => s.ptbase
  | 0x051 => s.ptcfg
  | 0x052 => s.pterr
  | 0x053 => if s.shoot.isEmpty then 0 else 1
  | 0x070 => s.qtab
  | 0x071 => s.pwrcap
  | 0x072 => setFld (rd s.therm idx 0) 0 8 (if s.halfNs = 0 then 0 else (Config.junction idx s.halfNs).toNat)
  | 0x073 => s.rstinfo
  | 0x074 => rd s.link idx 0
  | _ => s.pkgid

/-- R353: the value of a register. -/
def State.readReg (s : State) (c : Nat) (r : RegRef) : Word :=
  match (regInfo r.num).held with
  | .slot => (((s.core c).threadAt r.slot).getD {}).readReg r.num
  | .domain => s.readDom c r
  | .core => (s.core c).readReg r
  | .package => s.readPkg r.num r.idx

/-- SYSR (R353, R354). The privilege trap comes before a wait wherever what is known shows it (R335). -/
def execSysr (x : FmtS) (s : State) : Out :=
  s.instr x.e x.w do
    need (!privFault2 x (← thread).dom) 2 2
    let _ ← regRef x 0
    let a ← src x.a
    let r ← regRef x a
    waitDst x.d
    let s ← get
    write x.d (s.readReg s.cur r)

/-- R350: a write of a slot's register; reserved and read-only fields stay. -/
def Thread.writeReg (t : Thread) (n : Nat) (v : Word) : Thread :=
  match n with
  | 0x000 => { t with cfg := cfgStored v }
  | 0x005 =>
    let r := setFld t.tret 57 1 (fld v 57 1)
    { t with tret := if fld v 54 2 = 3 then r else setFld r 54 2 (fld v 54 2) }
  | 0x014 => { t with dbw := wr t.dbw 0 (v &&& dbwMask) }
  | 0x015 => { t with dbw := wr t.dbw 1 (v &&& dbwMask) }
  | _ => { t with dbi := wr t.dbi (n - 0x010) (v &&& dbiMask) }

/-- R121: a descriptor as domain 0 writes it; cut is read only. A count above 1,024 is stored as 1,024 (log 41). A set that
does not lie in its domain's range, or runs past entry 1,023, is stored as written; a write of count 0 is the one way in
which a set is reclaimed (log 42). -/
def CueDesc.write (d : CueDesc) (v : Word) : CueDesc :=
  { d with
    dom := v.extractLsb' 40 8
    sello := Nat.min (fld v 32 6) 48
    selreg := fld v 27 5
    count := Nat.min (fld v 16 11) 1024
    base := fld v 0 10 }

/-- A ring descriptor as domain 0 writes it (R349): word 2 is read only. A base that is no multiple of 256 and a layout
word that is not valid are stored as written (log 42). -/
def Ring.write (r : Ring) (i : Nat) (v : Word) : Ring :=
  match i with
  | 0 => { r with base := fld v 0 21, tiles := fld v 24 8 }
  | 1 => { r with layout := v }
  | 3 => { r with sigma := v.extractLsb' 0 32 }
  | _ => r

/-- A write that takes effect at the end of its turn (R351, R361). -/
def Core.writeLater (k : Core) (d i : Nat) (v : Word) : Core := { k with partPend := k.partPend ++ [⟨d, i, v⟩] }

/-- A write of a register of a domain on core `c` (R349, R357). PART0 to PART2 and PLOCK wait for the end of the
turn (R361). -/
def State.writeDom (s : State) (c : Nat) (r : RegRef) (v : Word) : State :=
  let d := r.dom
  match r.num with
  | 0x020 => s.modCore c fun k =>
      { k with quant := Tab.set 1048576 k.quant d (word (Nat.max 65536 (fld v 0 32))) }
  | 0x021 => s.modCore c (·.rseedWrite d v)
  | 0x022 => s.modCore c (·.hbankWrite d r.idx v)
  | 0x023 => s.modCore c fun k =>
      if r.idx = 0 then { k with frBase := Tab.set 0 k.frBase d (word (v.toNat / 8192 * 8192)) }
      else { k with frCount := Tab.set 0 k.frCount d (v &&& 0xFFFF) }
  | 0x024 => s.modCore c (·.poolWrite d r.idx v)
  | _ =>
    match r.idx with
    | 4 => s.sealWrite c d v
    | 5 => if v.getLsbD 0 then s.ask (.keys d) else s
    | 12 => s.ask (.extend c d v.toNat)
    | 13 => { s with attested := Tab.set false s.attested d false }.ask (.attest c d (v.toNat / 256 * 256))
    | i => s.modCore c (·.writeLater d i v)

/-- A write of a register of the core (R349, R383). -/
def Core.writeReg (k : Core) (r : RegRef) (v : Word) : Core :=
  match r.num with
  | 0x030 => k.writeLater 0 4 v
  | 0x031 => k.l1cfgWrite v
  | 0x040 => { k with desc := Tab.set {} k.desc r.idx ((k.descOf r.idx).write v) }
  | 0x042 => { k with ring := wr k.ring (r.idx / 4) ((rd k.ring (r.idx / 4) {}).write (r.idx % 4) v) }
  | 0x043 => k.routeWrite (r.idx / 2) (r.idx % 2) v
  | 0x060 => { k with evsel := wr k.evsel r.idx (v &&& 0x80FF_FF80_0000_FFFF) }
  | _ => { k with evcnt := wr k.evcnt r.idx (v &&& 0x8000_FFFF_FFFF_FFFF) }

/-- A write of a register of the package (R349, R383). PTCFG waits for the end of the turn (R398). -/
def State.writePkg (s : State) (c num : Nat) (v : Word) : State :=
  match num with
  | 0x050 => { s with ptbase := v &&& 0x3FFF_FFFF_FFFF }
  | 0x051 => s.modCore c fun k => { k with ptPend := some v }
  | 0x052 => { s with pterr := 0 }
  | 0x053 => s.shootWrite v
  | 0x070 => { s with qtab := v &&& 0x3FFF_FFF8_0000 }
  | 0x071 => { s with pwrcap := word (Nat.max 800 (Nat.min v.toNat 3200)) }
  | _ => { s with pkgid := setFld s.pkgid 0 19 (fld v 0 19) }

/-- The physical bytes that a write makes the hardware read or write (R370, R371, R376, R377). -/
def regBytes (r : RegRef) (v : Word) : Nat × Nat :=
  if r.num ≠ 0x025 then (0, 0)
  else if r.idx = 12 then (v.toNat, 48)
  else if r.idx = 13 then (v.toNat / 256 * 256, 256)
  else (0, 0)

/-- R353: a register is written. A slot that holds no thread discards it (R348). -/
def State.writeReg (s : State) (c : Nat) (r : RegRef) (v : Word) : State :=
  match (regInfo r.num).held with
  | .slot => s.modCore c fun k => k.modThread r.slot (·.writeReg r.num v)
  | .domain => s.writeDom c r v
  | .core => s.modCore c (·.writeReg r v)
  | .package => s.writePkg c r.num v

/-- R354: no SYSW of the domain writes the register. -/
def readOnly (n : Nat) (dom : Byte) : Bool := (regInfo n).wr == 0 || ((regInfo n).wr == 1 && dom != 0)

/-- R354, sub-code 4: the register is wholly read only to the writer, or locked (R360). -/
def privFault4 (k : Core) (dom : Byte) (r : RegRef) : Bool :=
  readOnly r.num dom || (r.num == 0x025 && 6 ≤ r.idx && r.idx < 12)
    || (r.num == 0x025 && r.idx < 3 && (Tab.get 0 k.plock r.dom).getLsbD 63)

/-- SYSW (R353, R354). The privilege trap comes before a wait wherever what is known shows it: a register or a target that
the word alone puts out of reach, and a register that no SYSW of the domain writes, also where the index is not there
yet (R335). -/
def execSysw (x : FmtS) (s : State) : Out :=
  s.instr x.e x.w do
    need (!privFault2 x (← thread).dom) 2 2
    let _ ← regRef x 0
    let t ← thread
    need (t.srcReady [x.a] || !readOnly x.imm.toNat t.dom) 2 4
    let a ← src x.a
    let r ← regRef x a
    need (!privFault4 (← core) (← thread).dom r) 2 4
    let b ← src x.b
    let (pa, n) := regBytes r b
    needBacked pa n
    modify fun s => s.writeReg s.cur r b

/-! ### The events of registers -/

/-- L1CFG_WRITE (R201). -/
def execL1cfgWrite (c : Nat) (v : Word) (s : State) : Out := .next (s.modCore c (·.l1cfgWrite v))

/-- Every engine command of the core has retired (R201, R355). -/
def Core.idle (k : Core) : Bool := k.copies.isEmpty && k.mats.isEmpty && k.routes.isEmpty

/-- R201, R200: the L1 is flushed, banks that change role read as zero, and Lb is set. -/
def State.setLb (s : State) (c lb : Nat) : State :=
  let s := (s.core c).lines.foldl (fun s l => s.flushVa c l.dom l.va false) s
  s.modCore c fun k =>
    let lo := 48 - Nat.max k.lb lb
    let hi := 48 - Nat.min k.lb lb
    let k := { k with lb, lbPend := none, dirty := [] }
    let k := { k with bankOwner := k.bankOwner.filter fun e => !(lo ≤ e.1 && e.1 < hi) }
    k.clearStore (lo * 32768) (hi * 32768)

/-- L1_RECONFIGURE (R201). -/
def execL1Reconfigure (c : Nat) (s : State) : Out :=
  let k := s.core c
  match k.lbPend with
  | some (lb, from_) => if from_ ≤ k.cycle && k.idle then .next (s.setLb c lb) else .next s
  | none => .next s

/-- PREQ_WRITE (R351). -/
def execPreqWrite (c : Nat) (v : Word) (s : State) : Out := .next (s.modCore c (·.preqWrite v))

/-- HBANK_WRITE (R100). -/
def execHbankWrite (c d reg : Nat) (v : Word) (s : State) : Out := .next (s.modCore c (·.hbankWrite d reg v))

/-- RSEED_WRITE (R164). -/
def execRseedWrite (c d : Nat) (v : Word) (s : State) : Out := .next (s.modCore c (·.rseedWrite d v))

/-- R24: queue number `n` lies in the range of a present domain that is not `dom`. -/
def Core.queuePassed (k : Core) (dom n : Nat) : Bool := k.domains.any fun d => d != dom && k.present d && k.hasQueue d n

/-- R24: a receive queue of core `c`, before a write `old`, whose number has passed to the range of another present domain
is unbound as at its thread's end (R302): its waiting RXTAKEs receive 0 (log 22). -/
def State.dropQueues (s : State) (c : Nat) (old : Core) : State :=
  let k := s.core c
  let passed := k.rxq.filter fun q => k.queuePassed q.2.dom.toNat q.1 && !old.queuePassed q.2.dom.toNat q.1
  passed.foldl (fun s q =>
    q.2.takes.foldl (fun s t => s.modCore c (·.addFill { tid := t.tid, d := t.d, value := 0, queue := some q.1 }))
      (s.unbindQueue c q.1 q.2)) s

/-- PART_WRITE (R24, R360, R361). -/
def execPartWrite (c d idx : Nat) (v : Word) (s : State) : Out :=
  .next ((s.modCore c (·.partWrite d idx v)).dropQueues c (s.core c))

/-- PLOCK_WRITE (R360). -/
def execPlockWrite (c d : Nat) (v : Word) (s : State) : Out := .next (s.modCore c (·.plockWrite d v))

/-- DOMAIN_SAVE (R288, R344, R370). -/
def execDomainSave (c d : Nat) (s : State) : Out :=
  let k := s.core c
  if !(k.preqDom.contains d && k.quiet d && s.bars.all fun b => b.core != c || b.t.dom.toNat != d) then .next s
  else if s.backed (sealArea (Tab.get 0 k.sealReg d)) (s.sealImage c d).length then .next (s.sealDomain c d)
  else .fault (.unbacked (sealArea (Tab.get 0 k.sealReg d)))

/-- Work that a write has asked for is done; nothing happens where none has. -/
def State.done (s : State) (w : DomWork) (f : State → Out) : Out :=
  match s.takeWork w with
  | some s1 => f s1
  | none => .next s

/-- SEAL_RESTORE (R371): the restore that a write of SEAL with value `v` has asked for ends. -/
def execSealRestore (c d : Nat) (v : Word) (s : State) : Out :=
  s.done (.restore c d v) fun s => .next (s.restoreDomain c d v)

/-- KEY_REFRESH (R372): every die holds the new keys that a write of KEYC has asked for. -/
def execKeyRefresh (d : Nat) (s : State) : Out := s.done (.keys d) fun s => .next (s.refreshKeys d)

/-- The core whose write of MEXT is the next one of domain `d`. -/
def State.extender (s : State) (d : Nat) : Nat :=
  match s.work.find? (DomWork.extend 0 d 0).like with
  | some (.extend c _ _) => c
  | _ => 0

/-- MEASUREMENT_EXTEND (R376): the measurement that a write of MEXT extends. -/
def execMeasurementExtend (d pa : Nat) (s : State) : Out :=
  let c := s.extender d
  s.done (.extend c d pa) fun s => if s.backed pa 48 then .next (s.extendMeas c d pa) else .fault (.unbacked pa)

/-- ATTEST (R377): the report that a write of ATTEST has asked for is complete. -/
def execAttest (c d pa : Nat) (s : State) : Out :=
  s.done (.attest c d pa) fun s =>
    if s.backed pa 256 then .next (s.attestAt c d pa) else .fault (.unbacked pa)

/-- PTCFG_WRITE (R398). -/
def execPtcfgWrite (v : Word) (s : State) : Out := .next (s.ptcfgWrite v)

/-- PTERR_WRITE (R349). -/
def execPterrWrite (s : State) : Out := .next { s with pterr := 0 }

/-- SHOOT_DOWN (R260). -/
def execShootDown (v : Word) (s : State) : Out := .next (s.shootWrite v)

/-- SHOOT_DOWN_COMPLETE (R260). -/
def execShootDownComplete (i : Nat) (s : State) : Out :=
  match s.shoot[i]? with
  | some r => .next { s.shootNow r with shoot := s.shoot.eraseIdx i }
  | none => .next s

/-- TRANSLATION_MISS (R258): the agent searches, and a match fills the cluster's cache. A packet of the search that fails
leaves the cache as it is (R373; log 35). -/
def execTranslationMiss (cl d page : Nat) (write : Bool) (s : State) : Out :=
  if fld s.ptcfg 0 5 < 6 then .next s
  else match s.tampered.find? fun c => clusterOf c == cl && s.walks cl d (page * 65536) (if write then 2 else 0) with
    | some c => .next (s.packetLost c d 0 0)
    | none => .next (s.lookupPage cl d (page * 65536) (if write then 2 else 0)).2

/-- R355: the slot is free, or parked as HALT parks it. -/
def haltParked (t : Option Thread) : Bool :=
  t.all fun t => t.status == .parked 0xF none 0

/-- R355: the core may stop its clock. -/
def Core.mayStop (k : Core) : Bool :=
  (List.range 8).all (fun i => haltParked (k.threadAt i)) && k.idle
    && k.splice.all (fun e => e.2.state != 2) && k.rxq.all fun q => q.2.pages.isEmpty

/-- CLOCK_STOP (R355). -/
def execClockStop (c : Nat) (s : State) : Out :=
  if (s.core c).mayStop then .next (s.modCore c fun k => { k with stopped := true }) else .next s

/-- R355: a message has reached a port, or a thread stands on a slot. -/
def Core.mustRun (k : Core) : Bool :=
  (List.range 8).any fun i => (k.threadAt i).any fun t =>
    !haltParked (some t) || t.readyPorts 0xF != 0

/-- CLOCK_RESTART (R355). -/
def execClockRestart (c : Nat) (s : State) : Out :=
  if (s.core c).mustRun then .next (s.modCore c fun k => { k with stopped := false }) else .next s

/-- L1_WRITE_BACK (R278): a dirty line writes its written bytes back and stays clean. -/
def execL1WriteBack (c i : Nat) (s : State) : Out :=
  match (s.core c).lines[i]? with
  | some l => .next (if l.written = 0 then s else s.writeBack c l true)
  | none => .next s

/-- L1_LINE_DROP (R278): a clean line is dropped. -/
def execL1LineDrop (c i : Nat) (s : State) : Out :=
  match (s.core c).lines[i]? with
  | some l => .next (if l.written = 0 then s.modCore c (·.putLine l none) else s)
  | none => .next s

end Sys2Proof.Machine
end

