-- ==== Sys2Proof/Machine/Copy.lean ====
section
/-! DEFINITION. The engines' accesses (R261, R278, R284), the range table (R208 to R211), layouts and rings
(R203 to R207), the copy engine (R212 to R217, R222 to R224), the ring, range and barrier instructions of
class 5 (R225 to R233) and their events. -/

namespace Sys2Proof.Machine

/-! ### Engine accesses (R216, R261, R278) -/

/-- The answer to an engine's access: done, a page to wait for, or a cause of R216. -/
inductive Eng (α : Type) where
  | ok (x : α) (s : State)
  | wait (page : Nat) (s : State)
  | fail (cause : Nat) (s : State)

/-- Translates one address for an engine of core `c`: cause 1 where the supervisor refused the page (R261). A row that
waits for a page is one miss; a refused identity translation is a page fault (R395). A packet of the search that fails
is cause 3 (R373). -/
def State.engXlate (s : State) (c d va : Nat) (nd : BitVec 4) : Eng Nat :=
  if s.tampered.contains c && s.walks (clusterOf c) d va nd then .fail 3 (s.packetLost c d 0 0)
  else match (if s.reports.contains (d, va / 65536) then s else s.countMiss c d va).translate (clusterOf c) d va nd with
  | (.ok pa, s1) => .ok pa s1
  | (.rights, s1) => .fail 2 s1
  | (.refused, s1) => .fail 1 (s1.modCore c (·.count 19 none d 1))
  | (.missing, s1) => if s.refused.contains (d, va / 65536) then .fail 1 s1 else .wait (va / 65536) s1

/-- The physical addresses of the bytes of an element. -/
def State.engPhys (s : State) (c d va n : Nat) (nd : BitVec 4) : Eng (List Nat) :=
  let l : Lane := { ea := va, n }
  match s.engXlate c d va nd with
  | .wait p s => .wait p s
  | .fail e s => .fail e s
  | .ok pa s1 =>
    let last := (va + n - 1) / 65536 * 65536
    if last ≤ va then .ok ((List.range n).map fun i => pa + i) s1
    else match s1.engXlate c d last nd with
      | .wait p s => .wait p s
      | .fail e s => .fail e s
      | .ok pa2 s2 => .ok ((List.range n).map ({ l with pa, pa2 } : Lane).phys) s2

/-- R216, causes 4 and 5: a window address fails the store check. -/
def State.engStore (s : State) (c d va n : Nat) : Option Nat :=
  (s.storeFault d c va n).map fun sub => if sub = 1 then 5 else 4

/-- R373: the packet of an engine's access fails: it leaves for a memory slice or for another die. The notice names
slot 0 and no address (log 35). -/
def State.engLost (s : State) (c d va : Nat) : Option State :=
  if s.tampered.contains c && (!inWin va || dieOf (storeLoc c va).1 != dieOf c) then some (s.packetLost c d 0 0)
  else none

/-- An engine of core `c` reads an element for domain `d`: at its store, or at the home L2. -/
def State.engRead (s : State) (c d va n : Nat) : Eng (List Byte) :=
  if inWin va then
    match s.engStore c d va n, s.engLost c d va with
    | some e, _ => .fail e s
    | none, some s1 => .fail 3 s1
    | none, none => let p := storeLoc c va; .ok (s.rdStore p.1 p.2 n) s
  else
    match s.engPhys c d va n 1 with
    | .wait p s => .wait p s
    | .fail e s => .fail e s
    | .ok ps s1 =>
      match s1.engLost c d va with
      | some s2 => .fail 3 s2
      | none => if ps.any fun pa => s1.isBad pa 1 then .fail 3 s1 else .ok (ps.map (s1.rdPa d)) s1

/-- An engine writes the bytes of an element; `pick` says which of them. Memory whose device has failed refuses a
write as it does a read (R328, R393). -/
def State.engWrite (s : State) (c d va : Nat) (bs : List Byte) (pick : Nat → Bool) : Eng Unit :=
  if inWin va then
    match s.engStore c d va bs.length, s.engLost c d va with
    | some e, _ => .fail e s
    | none, some s1 => .fail 3 s1
    | none, none =>
      let p := storeLoc c va
      .ok () (bs.zipIdx.foldl (fun s b =>
        if pick (va + b.2) then s.wrStore p.1 (p.2 + b.2) [b.1] else s) s)
  else
    match s.engPhys c d va bs.length 2 with
    | .wait p s => .wait p s
    | .fail e s => .fail e s
    | .ok ps s1 =>
      match s1.engLost c d va with
      | some s2 => .fail 3 s2
      | none =>
        if ps.any fun pa => s1.isBad pa 1 then .fail 3 s1
        else .ok () ((bs.zip ps).zipIdx.foldl (fun s b =>
          if pick (va + b.2) then s.wrPa d b.1.2 b.1.1 else s) s1)

/-- R261: a page fault of an engine or a queue of core `c` is counted (R395) and reported to the supervisor, once. -/
def State.report (s : State) (c d page : Nat) : State :=
  if s.reports.contains (d, page) then s
  else { s with reports := s.reports ++ [(d, page)] }.modCore c (·.count 19 none d 1)

/-- Window accesses of an engine of core `c` are counted, one for each element (R395; log 33). -/
def State.countWin (s : State) (c d n : Nat) : State := s.modCore c (·.count 17 none d n)

/-- R284: before a command's first access, the issuing core's L1 lines of its read ranges are written
back, and those of its write ranges are written back and dropped. -/
def State.engIssue (s : State) (c : Nat) (dom : Byte) (rs : List (Nat × Nat × Bool)) : State :=
  rs.foldl (fun s r => s.flushRange c dom r.1 r.2.1 (!r.2.2)) s

/-- R284: a command of the issuing slot issues: after the slot's earlier accesses. -/
def engStart (rs : List (Nat × Nat × Bool)) : M Unit := do
  afterAll
  modify fun s => s.engIssue s.cur s.thread.dom rs

/-! ### The range table (R208 to R210) -/

/-- A command's ranges (lo, hi, write), registered in order (R209). -/
def Core.addRanges (k : Core) (t : Target) (rs : List (Nat × Nat × Bool)) : Core :=
  rs.foldl (fun k r => k.addRange ⟨t.dom, r.1, r.2.1, r.2.2, .command t.id, t.id⟩) k

/-- R210: two entries conflict. -/
def RangeEnt.meets (o m : RangeEnt) : Bool := o.dom == m.dom && o.lo < m.hi && m.lo < o.hi && (o.write || m.write)

/-- R210: an entry registered earlier by another owner conflicts with one of the command's; R229: or an entry that an
RFREE whose d has not filled has freed while the command waited on it. -/
def Core.rangeHeld (k : Core) (id : Nat) : Bool :=
  k.ranges.any fun m => m.2.owner == .command id
    && (k.ranges.any (fun o => o.2.owner != .command id && o.2.seq < m.2.seq && o.2.meets m.2)
      || k.fills.any fun f => f.holds.any fun h => h.1.seq < m.2.seq && m.2.seq < h.2 && h.1.meets m.2)

/-- R96, R245: gd of thread `tid` of core `c` becomes empty, in its slot or in its frame. -/
def State.emptyAt (s : State) (c tid d : Nat) : State :=
  let k := s.core c
  match k.slotOf tid with
  | some i => s.setCore c (k.modThread i (·.emptyG d))
  | none =>
    match k.saved.find? (·.thread.tid == tid) with
    | some f =>
      if d = 0 then s
      else
        let m := ofLe (s.rdRaw (f.frame + 0x200) 8)
        s.writeFrame c f.thread.dom f.frame [(0x200, leBytes 8 (if m.testBit d then m - 2 ^ d else m))]
    | none => s

/-- The thread of a command has not ended: it stands on a slot or is saved. -/
def Core.alive (k : Core) (tid : Nat) : Bool :=
  (k.slotOf tid).isSome || k.saved.any (·.thread.tid == tid)

/-! ### Layouts (R203, R204) -/

def layRows (l : Word) : Nat := fld l 24 12
def layBytes (l : Word) : Nat := fld l 8 16
def laySpan (l : Word) : Nat := 16 * 2 ^ fld l 4 3
def layFmt (l : Word) : Nat := fld l 0 4
/-- The tile size tb. -/
def tileBytes (l : Word) : Nat := layBytes l * layRows l

/-- R203: a valid layout word. -/
def layoutOk (l : Word) : Bool :=
  fld l 36 28 == 0 && fld l 7 1 == 0 && layRows l != 0 && layBytes l % 8 == 0 && 8 ≤ layBytes l
    && layBytes l ≤ 32768 && layFmt l < 14 && tileBytes l ≤ 0x100000 && tileBytes l % 256 == 0
    && tileBytes l % laySpan l == 0

/-- R204: the physical offset of linear offset `l`. -/
def swizzle (lay : Word) (l : Nat) : Nat :=
  let s := laySpan lay
  let key := l / s % (s / 16)
  let q := l % s / 16
  l - l % s + (q ^^^ key) * 16 + l % 16

/-! ### Rings (R205 to R207, R225 to R227) -/

def Core.ringAt (k : Core) (r : Nat) : Ring := rd k.ring r {}

def Core.setRing (k : Core) (r : Nat) (g : Ring) : Core := { k with ring := wr k.ring r g }

/-- R205: the ring lies in the domain's range, or sub-code 2. -/
def ringOf (r : Nat) : M Ring := do
  let k ← core
  need (k.hasRing (← thread).dom.toNat r) 17 2
  return k.ringAt r

/-- The slots that a copy to a ring takes. -/
def Copy.slots (c : Copy) : Nat := fld c.blk.ctl 19 8

/-- A queued, unstarted copy names the ring as destination. -/
def Core.ringQueued (k : Core) (r : Nat) : Bool := k.copies.any fun c => !c.started && c.ring? == some r

/-- A queued command of the domain names the ring (R225). -/
def Core.ringNamed (k : Core) (dom : Byte) (r : Nat) : Bool :=
  k.copies.any (fun c => c.t.dom == dom && c.names r) || k.mats.any fun c => c.t.dom == dom && c.names r

/-- RNGINI (R225). -/
def execRngini (x : FmtT) (s : State) : Out :=
  s.instr x.e x.w do
    waitDst x.d
    let vs ← srcs [x.a, x.b]
    let r := x.id1.toNat
    let g ← ringOf r
    let k ← core
    need (g.held == 0 && g.claims == 0 && !k.ringNamed (← thread).dom r) 17 3
    let base := fld (arg vs 0) 0 21
    let tiles := fld (arg vs 0) 24 8
    need (base % 256 == 0 && fld (arg vs 0) 21 3 == 0 && tiles != 0 && fld (arg vs 0) 32 32 == 0
      && layoutOk (arg vs 1)) 17 6
    let tb := tileBytes (arg vs 1)
    let _ ← storeCheck base (tiles * tb)
    modMe (·.setRing r { base, tiles, layout := arg vs 1, sigma := g.sigma })
    write x.d (word tb)

/-- RNGPOP (R226). -/
def execRngpop (x : FmtT) (s : State) : Out :=
  s.instr x.e x.w do
    waitDst x.d
    let r := x.id1.toNat
    let g ← ringOf r
    need (g.tiles != 0) 17 3
    let n := fld x.op 0 8
    if g.claims = 0 && n ≤ g.ready then
      modMe (·.setRing r { g with head := (g.head + n) % g.tiles, ready := g.ready - n })
      write x.d (word n)
    else write x.d 0

/-- The slots from `i` on, with their tags set. -/
def Ring.setTags (g : Ring) (i n : Nat) (tag : Word) : Ring :=
  { g with tags := (List.range n).foldl (fun t j => Tab.set 0 t ((i + j) % g.tiles) tag) g.tags }

/-- RNGADV (R226). -/
def execRngadv (x : FmtT) (s : State) : Out :=
  s.instr x.e x.w do
    waitDst x.d
    let r := x.id1.toNat
    let g ← ringOf r
    need (g.tiles != 0) 17 3
    let n := fld x.op 0 8
    if g.ready + g.held + n ≤ g.tiles && g.held = 0 && !(← core).ringQueued r then
      modMe (·.setRing r { g.setTags (g.head + g.ready) n g.layout with ready := g.ready + n })
      write x.d (word n)
    else write x.d 0

/-- RNGQ (R227). -/
def execRngq (x : FmtT) (s : State) : Out :=
  s.instr x.e x.w do
    waitDst x.d
    let g ← ringOf x.id1.toNat
    write x.d (match fld x.op 0 2 with
      | 0 => g.state
      | 1 => g.layout
      | 2 => g.geom
      | _ => if g.ready = 0 then 0 else Tab.get 0 g.tags g.head)

/-- R206: the copy that reserved from slot `i` has ended: its slots take their tag, and held slots become
ready in reservation order. -/
def Ring.readyRun : List (Nat × Nat) → Nat → Nat → List (Nat × Nat) × Nat
  | es, _, 0 => (es, 0)
  | es, i, fuel + 1 =>
    match es.find? (·.1 == i) with
    | none => (es, 0)
    | some (j, n) =>
      let (es', m) := Ring.readyRun (es.filter (· != (j, n))) (i + n) fuel
      (es', n + m)

def Ring.finish (g : Ring) (i n : Nat) (tag : Word) : Ring :=
  let g := g.setTags i n tag
  -- held slots are numbered from the first held slot, wrapping at the ring's end
  let at_ := (g.head + g.ready) % g.tiles
  let pos := fun j => (j + g.tiles - at_) % g.tiles
  let es := (g.ended ++ [(i % g.tiles, n)]).map fun e => (pos e.1, e.2)
  let (rest, m) := Ring.readyRun es 0 256
  { g with
    ready := g.ready + m
    held := g.held - m
    ended := rest.map fun e => ((e.1 + at_) % g.tiles, e.2) }

/-- R207, R240: a retiring engine command pops `n` tiles. -/
def Ring.pop (g : Ring) (n : Nat) : Ring :=
  { g with claims := g.claims - n, ready := g.ready - n, head := (g.head + n) % g.tiles }

/-- The store offset of linear offset `l` from ring slot `i` on (R204, R215). -/
def Ring.place (g : Ring) (i l : Nat) : Nat :=
  let tb := tileBytes g.layout
  g.base + (i + l / tb) % g.tiles * tb + swizzle g.layout (l % tb)

/-- The window interval of `n` ring slots from slot `i`; the whole ring where they wrap (R206, R240). -/
def Ring.span (g : Ring) (core i n : Nat) : Nat × Nat :=
  let tb := tileBytes g.layout
  let i := i % g.tiles
  if i + n ≤ g.tiles then (winAddr core (g.base + i * tb), winAddr core (g.base + (i + n) * tb))
  else (winAddr core g.base, winAddr core (g.base + g.tiles * tb))

/-! ### Shape blocks (R213 to R215, R223) -/

/-- A field of `n` bytes at byte `o` of a block. -/
def blkF (b : List Byte) (o n : Nat) : Nat := ofLe ((b.drop o).take n)

def blkExt (b : List Byte) (o : Nat) : List Nat := (List.range 6).map fun i => blkF b (o + 4 * i) 4
def blkStr (b : List Byte) (o : Nat) : List Int :=
  (List.range 6).map fun i => (BitVec.ofNat 32 (blkF b (o + 4 * i) 4)).toInt

/-- R213. -/
def Shape.ofBytes (b : List Byte) : Shape where
  src := word (blkF b 0 8)
  dst := word (blkF b 8 8)
  sn := blkExt b 0x10
  sd := blkStr b 0x28
  dn := blkExt b 0x40
  dd := blkStr b 0x58
  layout := word (blkF b 0x70 8)
  ctl := word (blkF b 0x78 8)

def Shape.t (b : Shape) : Nat := fld b.ctl 19 8
def Shape.dtype (b : Shape) : Nat := fld b.ctl 17 2
def Shape.stype (b : Shape) : Nat := fld b.ctl 15 2
def Shape.conv (b : Shape) : Bool := b.ctl.getLsbD 14
def Shape.dseg (b : Shape) : Nat := fld b.ctl 11 3
def Shape.sseg (b : Shape) : Nat := fld b.ctl 8 3
def Shape.ring (b : Shape) : Nat := fld b.ctl 4 4
def Shape.dring (b : Shape) : Bool := b.ctl.getLsbD 3
/-- Element sizes of the source and of the destination (R214). -/
def Shape.ses (b : Shape) : Nat := 2 ^ fld b.ctl 0 3
def Shape.des (b : Shape) : Nat := if b.conv then (if b.dtype = 0 then 4 else 2) else b.ses

/-- R215: the offset of element `e` over extents and strides. -/
def elemOff (off : Int) : List Nat → List Int → Nat → Int
  | n :: ns, d :: ds, e => elemOff (off + (e % n : Nat) * d) ns ds (e / n)
  | _, _, _ => off

/-- R215: the bounding interval of a side: its low offset and its end. -/
def boundOf (off : Word) (ns : List Nat) (ds : List Int) (es : Nat) : Int × Int :=
  let term := fun (p : Nat × Int) => ((p.1 : Int) - 1) * p.2
  let ts := (ns.zip ds).map term
  (off.toNat + (ts.map fun t => min 0 t).sum, off.toNat + (ts.map fun t => max 0 t).sum + es)

/-- Extents from 1 to 16,777,215. -/
def extOk (ns : List Nat) : Bool := ns.all fun n => 1 ≤ n && n ≤ 16777215

/-- Every offset and stride is a multiple of the element size. -/
def sideOk (off : Word) (ds : List Int) (es : Nat) : Bool := off.toNat % es == 0 && ds.all fun d => d % es == 0

/-- The destination of a block: a ring of the domain, or a segment (R214). A ring destination may have an offset other
than 0: R213 gives it 0, R214 asks for none (log 42). -/
def Shape.dstOk (b : Shape) (k : Core) (d : Nat) : Bool :=
  if b.dring then
    let g := k.ringAt b.ring
    let (lo, hi) := boundOf b.dst b.dn b.dd b.des
    b.dseg == 0 && k.hasRing d b.ring && g.tiles != 0 && 1 ≤ b.t && b.t ≤ g.tiles && b.layout == g.layout
      && decide (0 ≤ lo) && decide (hi ≤ (b.t * tileBytes g.layout : Nat))
  else b.layout == 0 && b.t == 0 && b.ring == 0

/-- R214, R223: a valid shape block. R214 bounds the rows by the source's extents alone, so that a fill may have more than
16,777,214 rows; the fields of its status then hold their count modulo their width (log 43). -/
def Shape.valid (b : Shape) (k : Core) (d : Nat) (fill : Bool) : Bool :=
  fld b.ctl 27 37 == 0 && extOk b.dn && sideOk b.dst b.dd b.des && b.dstOk k d &&
  if fill then
    b.sn.all (· == 0) && b.sd.all (· == 0) && b.sseg == 0 && !b.conv && b.stype == 0 && b.dtype == 0
      && !b.dring && fld b.ctl 0 3 < 4
  else
    let n := b.sn.prod
    extOk b.sn && n == b.dn.prod && n / b.sn.headD 1 ≤ 16777214 && fld b.ctl 0 3 < 6
      && sideOk b.src b.sd b.ses
      && (if b.conv then b.stype < 3 && b.dtype < 3 && b.stype != b.dtype
            && b.ses == (if b.stype = 0 then 4 else 2)
          else b.stype == 0 && b.dtype == 0)

/-- Elements of a row, and rows (R216, R223). -/
def Shape.rowLen (b : Shape) (fill : Bool) : Nat := (if fill then b.dn else b.sn).headD 1
def Shape.rows (b : Shape) (fill : Bool) : Nat := (if fill then b.dn else b.sn).prod / b.rowLen fill

/-! ### CPY, CPYM and CPYF (R222 to R224) -/

/-- R224: a valid follow-on word. -/
def followOk (w : Word) : Bool :=
  match decode w with
  | .ok (.mma x) => !x.e && x.w == 0
  | .ok (.mmaz x) => !x.e && x.w == 0
  | _ => false

/-- SegCheck of one side of a command (R215): the bounding interval's address. -/
def sideCheck (seg : Nat) (b : Int × Int) (nd : Need) : M Nat :=
  segOf seg (BitVec.ofInt 64 b.1).toNat (b.2 - b.1).toNat nd

/-- Entries of the copy queue that a domain holds (R212). -/
def Core.copiesOf (k : Core) (d : Nat) : Nat := (k.copies.filter fun c => c.t.dom.toNat == d).length

/-- R212, R24: the domain's share of the 16 entries has room, and so has the queue. -/
def Core.copyRoom (k : Core) (d : Nat) : Bool := k.copiesOf d < k.copyShare d && k.copies.length < 16

/-- R206: the first slot of a new copy to a ring: after the tail and every earlier copy not yet started. -/
def Core.ringTail (k : Core) (r : Nat) : Nat :=
  let g := k.ringAt r
  let q := ((k.copies.filter fun c => !c.started && c.ring? == some r).map (·.slots)).sum
  (g.head + g.ready + g.held + q) % g.tiles

/-- R222: the shared effect of the three copy commands. A block whose packet fails queues no command (log 35). -/
def copyCmd (x : FmtT) (fill followed : Bool) : M Unit := do
  waitDst x.d
  let vs ← srcs (if followed then [x.a, x.b] else [x.a])
  let fd : Spec := if followed then (arg vs 1).extractLsb' 42 6 else 0
  waitDst fd
  let p ← threadStore (arg vs 0).toNat 128 128 6 3 false
  let some bs ← blockAt x.d.toNat p 128 | pure ()
  let b := Shape.ofBytes bs
  let t ← thread
  let k ← core
  let d := t.dom.toNat
  need (b.valid k d fill) 17 1
  need (!followed || followOk (arg vs 1)) 17 4
  let sbd := boundOf b.src b.sn b.sd b.ses
  let dbd := boundOf b.dst b.dn b.dd b.des
  let sea ← if fill then pure 0 else sideCheck b.sseg sbd (needR ||| needE)
  let dea ← if b.dring then pure 0 else sideCheck b.dseg dbd (needW ||| needE)
  waitFor (k.copyRoom d)
  waitFor (k.rangeRoom d (if fill then 1 else 2)) 22
  let slot0 := k.ringTail b.ring
  let me := (← get).cur
  let dst := if b.dring then (k.ringAt b.ring).span me slot0 b.t
    else (dea, dea + (dbd.2 - dbd.1).toNat)
  let rs := (if fill then [] else [(sea, sea + (sbd.2 - sbd.1).toNat, false)]) ++ [(dst.1, dst.2, true)]
  let tg ← targetOf x.d.toNat x.scope.toNat
  engStart rs
  emptyG x.d.toNat
  emptyG fd.toNat
  let cmd : Copy :=
    { t := tg, blk := b, fill, follow := if followed then some (arg vs 1) else none
      sbase := sea - sbd.1.toNat, dbase := dea - dbd.1.toNat
      sigma := k.ring.toList.map (·.sigma), slot0, rows := b.rows fill }
  modMe fun k => { k.addRanges tg rs with copies := k.copies ++ [cmd] }

/-- CPY (R222). -/
def execCpy (x : FmtT) (s : State) : Out := s.instr x.e x.w (copyCmd x false false)

/-- CPYM (R222, R224). -/
def execCpym (x : FmtT) (s : State) : Out := s.instr x.e x.w (copyCmd x false true)

/-- CPYF (R223). -/
def execCpyf (x : FmtT) (s : State) : Out := s.instr x.e x.w (copyCmd x true false)

/-! ### The copy engine (R212, R215 to R217) -/

/-- R24: the copy's destination ring is not its domain's any more: the copy takes no slot of it, and its rows fail (log
22). -/
def Core.copyLost (k : Core) (c : Copy) : Bool :=
  c.lost || c.toRing.any fun r => !k.hasRing c.t.dom.toNat r

/-- R212: the queued copy may start. -/
def Core.copyReady (k : Core) (i : Nat) : Bool :=
  match k.copies[i]? with
  | none => false
  | some c =>
    !c.started && (k.copies.filter fun x => x.started && !x.filled).length < 4 && !k.rangeHeld c.t.id &&
    match c.toRing with
    | none => true
    | some r =>
      let g := k.ringAt r
      k.copyLost c || g.ready + g.held + c.slots ≤ g.tiles
        && (k.copies.take i).all fun x => x.started || x.ring? != some r

/-- COPY_START (R212, R206): ring slots are reserved, in a ring that is still the domain's (R24). -/
def execCopyStart (c i : Nat) (s : State) : Out :=
  let k := s.core c
  match k.copies[i]? with
  | none => .next s
  | some cp =>
    if !k.copyReady i then .next s
    else
      let lost := k.copyLost cp
      let k := { k with copies := k.copies.set i { cp with started := true, lost } }
      .next (s.setCore c (match if lost then none else cp.toRing with
        | none => k
        | some r =>
          let g := k.ringAt r
          k.setRing r { g with held := g.held + cp.slots }))

/-- The address of source element `e`. -/
def Copy.srcAt (cp : Copy) (e : Nat) : Nat := (cp.sbase + elemOff cp.blk.src.toNat cp.blk.sn cp.blk.sd e).toNat

/-- The offset of destination element `e`, and its address in its segment. -/
def Copy.dstOff (cp : Copy) (e : Nat) : Nat := (elemOff cp.blk.dst.toNat cp.blk.dn cp.blk.dd e).toNat
def Copy.dstAt (cp : Copy) (e : Nat) : Nat := cp.dbase + cp.dstOff e

/-- The address of byte `i` of destination element `e`: in its segment, or in the ring of core `c`. -/
def Copy.dstByte (cp : Copy) (c : Nat) (k : Core) (e i : Nat) : Nat :=
  match cp.toRing with
  | none => cp.dstAt e + i
  | some r => winAddr c ((k.ringAt r).place cp.slot0 (cp.dstOff e + i))

def Copy.dstBytes (cp : Copy) (c : Nat) (k : Core) (e : Nat) : List Nat :=
  (List.range cp.blk.des).map (cp.dstByte c k e)

/-- The interval that holds every byte of the source, and the same of the destination. -/
def Copy.srcSpan (cp : Copy) : Nat × Nat :=
  let b := boundOf cp.blk.src cp.blk.sn cp.blk.sd cp.blk.ses
  ((cp.sbase + b.1).toNat, (cp.sbase + b.2).toNat)
def Copy.dstSpan (cp : Copy) (c : Nat) (k : Core) : Nat × Nat :=
  let b := boundOf cp.blk.dst cp.blk.dn cp.blk.dd cp.blk.des
  match cp.toRing with
  | none => ((cp.dbase + b.1).toNat, (cp.dbase + b.2).toNat)
  | some r => let g := k.ringAt r; (winAddr c g.base, winAddr c (g.base + g.tiles * tileBytes g.layout))

/-- R215: some source and destination bytes of the copy are the same, and element `e` touches one. -/
def Copy.overlaps (cp : Copy) (c : Nat) (k : Core) (e : Nat) : Bool :=
  let src := fun f a => cp.srcAt f ≤ a && a < cp.srcAt f + cp.blk.ses
  !cp.fill && cp.srcSpan.1 < (cp.dstSpan c k).2 && (cp.dstSpan c k).1 < cp.srcSpan.2
    && (List.range cp.blk.sn.prod).any fun f =>
      (cp.dstBytes c k f).any (src e) || (cp.dstBytes c k e).any (src f)

/-- The bytes that destination element `e` receives (R215, R223): converted with RNE, the fill's pattern,
or unspecified bytes where the copy overlaps itself (log 16). -/
def State.copyBytes (s : State) (c : Nat) (cp : Copy) (e : Nat) : Eng (List Byte) :=
  let b := cp.blk
  if cp.fill then .ok (leBytes b.des b.src.toNat) s
  else
    match s.engRead c cp.t.dom.toNat (cp.srcAt e) b.ses with
    | .wait p s => .wait p s
    | .fail x s => .fail x s
    | .ok bs s =>
      if cp.overlaps c (s.core c) e then
        .ok ((List.range b.des).map fun i => Config.freeByte (s.free + i)) { s with free := s.free + b.des }
      else if b.conv then
        .ok (leBytes b.des ((FV.ofBits (fmtOf b.stype) (ofLe bs)).round (fmtOf b.dtype) 0 0)) s
      else .ok bs s

/-- R216: why the copy cannot write element `e` into its ring: an offset that is not backed before one outside the domain's
banks. -/
def State.ringStop (s : State) (c : Nat) (cp : Copy) (g : Ring) (e : Nat) : Option Nat :=
  let at_ := fun b => g.place cp.slot0 (cp.dstOff e + b)
  if (List.range cp.blk.des).any fun b => 0x180000 ≤ at_ b then some 5
  else if (List.range cp.blk.des).any fun b => (s.engStore c cp.t.dom.toNat (winAddr c (at_ b)) 1).isSome then some 4
  else none

/-- R215, R204: the bytes are written at their place: the ring's slot, swizzled, or the segment. A ring that has passed to
another domain takes none (R24; log 22). -/
def State.copyPut (s : State) (c : Nat) (cp : Copy) (e : Nat) (bs : List Byte) (pick : Nat → Bool) : Eng Unit :=
  match cp.toRing with
  | none => s.engWrite c cp.t.dom.toNat (cp.dstAt e) bs pick
  | some r =>
    let g := (s.core c).ringAt r
    match if cp.lost then some 4 else s.ringStop c cp g e with
    | some x => .fail x s
    | none => .ok () (bs.zipIdx.foldl (fun s b =>
      let off := g.place cp.slot0 (cp.dstOff e + b.2)
      if pick (winAddr c off) then s.wrStore c off [b.1] else s) s)

/-- Elements `es` are copied, up to a wait or a failure. -/
def State.copyElems (s : State) (c : Nat) (cp : Copy) (pick : Nat → Bool) : List Nat → Eng Unit
  | [] => .ok () s
  | e :: es =>
    match s.copyBytes c cp e with
    | .wait p s => .wait p s
    | .fail x s => .fail x s
    | .ok bs s1 =>
      match s1.copyPut c cp e bs pick with
      | .wait p s => .wait p s
      | .fail x s => .fail x s
      | .ok _ s2 => s2.copyElems c cp pick es

/-- The elements of row `r`. -/
def Copy.row (cp : Copy) (r : Nat) : List Nat :=
  let n := cp.blk.rowLen cp.fill
  (List.range n).map (r * n + ·)

/-- Nothing keeps the copy from element `e`. -/
def State.elemOk (s : State) (c : Nat) (cp : Copy) (e : Nat) : Bool :=
  match s.copyElems c cp (fun _ => false) [e] with
  | .ok _ _ => true
  | .wait _ _ => false
  | .fail _ _ => false

/-- R216: after the failure of row `r`, each chunk of it and of the rows in flight behind it holds its old
bytes or bytes of the copy: which, is open (log 16). A chunk of an element that failed keeps its old bytes. -/
def State.copyRest (s : State) (c : Nat) (cp : Copy) (r : Nat) : State :=
  let n := s.free
  let es := ((List.range 8).filter fun j => r + j < cp.rows).flatMap fun j => cp.row (r + j)
  let torn := (es.filter fun e => !s.elemOk c cp e).flatMap fun e => (cp.dstBytes c (s.core c) e).map (· / 32)
  es.foldl (fun s e =>
    match s.copyElems c cp (fun a => Config.freeBit n (a / 32) && !torn.contains (a / 32)) [e] with
    | .ok _ s' => s'
    | .wait _ _ => s
    | .fail _ _ => s) { s with free := n + 1 }

/-- R212: the engine moves up to 256 bytes per cycle; a row is begun while the cycle has room left. -/
def Core.copyFree (k : Core) : Bool := k.copied < 256 * (k.cycle + 1)

/-- R212: every byte of the retired rows has moved by the end of this cycle. -/
def Core.copyCaughtUp (k : Core) : Bool := k.copied ≤ 256 * (k.cycle + 1)

/-- The elements of row `r` that the copy reads and writes through the window (R395). -/
def Copy.windows (cp : Copy) (r : Nat) : Nat :=
  (cp.row r).countP (fun e => !cp.fill && inWin (cp.srcAt e))
    + (cp.row r).countP fun e => cp.toRing.isNone && inWin (cp.dstAt e)

/-- R212: the bytes of a row that the engine moves: those that it reads or those that it writes, whichever are more. -/
def Copy.moved (cp : Copy) : Nat :=
  cp.blk.rowLen cp.fill * Nat.max (if cp.fill then 0 else cp.blk.ses) cp.blk.des

/-- COPY_ROW_RETIRE (R216): the next row of a started copy is done, waits for a page, or fails. Every element of the
row is first tried without a write, so that a row that waits or fails leaves its bytes as they were. -/
def execCopyRowRetire (c i : Nat) (s : State) : Out :=
  match (s.core c).copies[i]? with
  | none => .next s
  | some cp =>
    if !(cp.started && !cp.filled && cp.cause == 0 && cp.done < cp.rows && (s.core c).copyFree) then .next s
    else
      let d := cp.t.dom.toNat
      let put := fun (s : State) (cp : Copy) => s.modCore c fun k => { k with copies := k.copies.set i cp }
      match s.copyElems c cp (fun _ => false) (cp.row cp.done) with
      | .ok _ s0 =>
        let s1 := match s0.copyElems c cp (fun _ => true) (cp.row cp.done) with
          | .ok _ s1 => s1
          | .wait _ s1 => s1
          | .fail _ s1 => s1
        let bytes := cp.blk.rowLen cp.fill * cp.blk.des
        .next ((put s1 { cp with done := cp.done + 1 }).modCore c fun k =>
          ({ k with copied := Nat.max k.copied (256 * k.cycle) + cp.moved }.count 23 none d bytes).count 17 none d
            (cp.windows cp.done))
      | .wait p s1 => .next (s1.report c d p)
      | .fail x s1 =>
        .next ((put (s1.copyRest c cp cp.done) { cp with cause := x }).modCore c fun k => k.count 24 none d (cp.rows - cp.done))

/-- R217: a status of rows: D, rows done, cause and code, each modulo its width (log 43). -/
def rowStatus (done cause code : Nat) (failed : Bool) : Word :=
  word ((if failed then done else 0xFFFFFF) <<< 40 ||| (done % 2 ^ 24) <<< 16 ||| cause <<< 8 ||| code)

/-- The copy has ended (R216). -/
def Copy.ended (cp : Copy) : Bool := cp.started && !cp.filled && (cp.cause != 0 || cp.done == cp.rows)

/-- COPY_COMPLETE (R206, R217, R222): tags, the L1 lines that the writes cover, entries and status. -/
def execCopyComplete (c i : Nat) (s : State) : Out :=
  match (s.core c).copies[i]? with
  | none => .next s
  | some cp =>
    if !(cp.ended && (s.core c).copyCaughtUp) then .next s
    else
      let good := cp.cause == 0
      let dst := (s.core c).ranges.filter fun e => e.2.owner == .command cp.t.id && e.2.write
      let s := dst.foldl (fun s e => s.flushRange c cp.t.dom e.2.lo e.2.hi false) s
      let s := s.modCore c fun k =>
        let k := match cp.ring? with
          | none => k
          | some r =>
            k.setRing r ((k.ringAt r).finish cp.slot0 cp.slots (if good then cp.blk.layout else 0))
        let k := k.freeRanges cp.t.id
        { k with copies := if good && cp.follow.isSome then k.copies.set i { cp with filled := true }
          else k.copies.eraseIdx i }
      let s := s.fillG c cp.t.tid cp.t.d
        (rowStatus cp.done cp.cause (if good then 0 else 1) (!good))
      match cp.follow with
      | some w => .next (if good then s else s.fillG c cp.t.tid (fld w 42 6) 2)
      | none => .next s

/-! ### RLCK and RFREE (R228, R229) -/

/-- RLCK (R228). Of several free entries it takes the lowest-numbered (log 43). -/
def execRlck (x : FmtT) (s : State) : Out :=
  s.instr x.e x.w do
    waitDst x.d
    let vs ← srcs [x.a, x.b]
    let n := (arg vs 1).toNat
    if n = 0 || 2 ^ 32 < n then write x.d 0xFFFF_FFFF_FFFF_FFFE
    else
      let w := x.op.getLsbD 3
      let ea ← segOf (fld x.op 0 3) (arg vs 0).toNat n (if w then needRW else needR)
      let t ← thread
      let k ← core
      if k.rangeRoom t.dom.toNat 5 then
        let id ← fresh
        let i := (firstIx 32 fun i => k.ranges.all fun e => e.1 != i).getD 0
        modMe fun k => k.addRange ⟨t.dom, ea, ea + n, w, .thread t.tid, id⟩
        write x.d (word i)
      else write x.d 0xFFFF_FFFF_FFFF_FFFF

/-- RFREE (R229): the entry is freed, and d fills at a time that the manual leaves open (R402); what waits on the entry
starts no earlier. -/
def execRfree (x : FmtT) (s : State) : Out :=
  s.instr x.e x.w do
    waitDst x.d
    let a ← src x.a
    let t ← thread
    let k ← core
    need (k.ranges.any fun e => e.1 == a.toNat && e.2.owner == .thread t.tid) 17 5
    release x.scope.toNat
    let id ← fresh
    let freed := (k.ranges.find? (·.1 == a.toNat)).map (·.2)
    emptyG x.d.toNat
    modMe fun k => Core.addFill { k with ranges := k.ranges.erase a.toNat }
      { tid := t.tid, d := x.d.toNat, value := 0, holds := freed.map fun e => (e, id) }

/-! ### Barriers (R218, R219, R231 to R233) -/

/-- The object's store and offset after the checks of R230 and R211. -/
def barrierAt (a : Word) (write : Bool) : M (Nat × Nat) := threadStore a.toNat 16 16 6 3 write

/-- The 16 bytes of the object at `p`, as an access. -/
def objectLane (p : Nat × Nat) : Lane := { ea := winAddr p.1 p.2, n := 16 }

/-- A request to the object at `p` leaves: false where its packet to another die's store fails; then d fills with 0 and
the thread has a data error (R273, R373). -/
def barrierSent (d : Nat) (p : Nat × Nat) : M Bool := do
  if ← packetFails 1 (objectLane p) then
    sendFill d 0 true (objectLane p).ea
    return false
  else return true

/-- R336, R346: the debug events of a BARINIT's or BARARV's request to the object at `p`, which pend once it has been
performed: its watchpoints and its step event. Whether a handler keeps them from arising is seen then
(`Thread.performed`). -/
def Thread.requestEvents (t : Thread) (p : Nat × Nat) : List (Nat × Word × Word × Word × Word) :=
  let t := { t with tret := 0 }
  (t.stepEvent false (t.watchAll false 3 [objectLane p])).events.drop t.events.length

/-- BARINIT (R231). -/
def execBarinit (x : FmtT) (s : State) : Out :=
  s.instr x.e x.w do
    waitDst x.d
    let vs ← srcs [x.a, x.b]
    let p ← barrierAt (arg vs 0) true
    let v := arg vs 1
    need (fld v 0 16 != 0 && fld v 16 8 != 0 && fld v 28 36 == 0) 17 7
    let tg ← targetOf x.d.toNat x.scope.toNat
    release x.scope.toNat
    if ← barrierSent x.d.toNat p then
      emptyG x.d.toNat
      modify fun s => { s with bars := s.bars ++
        [{ t := tg, core := s.cur, target := p.1, off := p.2, init := true, n := 0, value := v
           events := s.thread.requestEvents p }] }

/-- BARARV (R232): the slot issues nothing until the reply arrives. -/
def execBararv (x : FmtT) (s : State) : Out :=
  s.instr x.e x.w do
    waitDst x.d
    let a ← src x.a
    let p ← barrierAt a true
    let tg ← targetOf x.d.toNat x.scope.toNat
    release x.scope.toNat
    if ← barrierSent x.d.toNat p then
      emptyG x.d.toNat
      modThread fun t => { t with status := .reply }
      modify fun s => { s with bars := s.bars ++
        [{ t := tg, core := s.cur, target := p.1, off := p.2, init := false, n := fld x.op 0 3, value := 0
           events := s.thread.requestEvents p }] }

/-- R219: an arrival of count `n` at an object's low 64 bits: the new bits and the reply. -/
def arrive (o : Word) (n : Nat) : Word × Word :=
  let p := fld o 32 4
  let arrived := fld o 0 16 + n * fld o 40 8
  if fld o 16 16 < arrived then (setFld o 36 1 1, word (p ||| 1 <<< 9))
  else if arrived = fld o 16 16 then
    (setFld (setFld o 0 16 0) 32 4 (p + 1), word (p ||| 1 <<< 8))
  else (setFld o 0 16 arrived, word (p ||| arrived <<< 16))

/-- The 128 bits that BARINIT writes (R218, R231). -/
def barrierInit (v : Word) : Word := word (fld v 16 8 <<< 40 ||| fld v 24 4 <<< 32 ||| fld v 0 16 <<< 16)

/-- BARRIER_ARRIVAL_APPLY (R231, R232): a request is applied at the object's store. A domain that has left the bank
meanwhile finds no object there: nothing is written, and the reply is open (R200, R202; log 10). -/
def execBarrierArrivalApply (i : Nat) (s : State) : Out :=
  match s.bars[i]? with
  | none => .next s
  | some r =>
    if r.reply.isSome then .next s
    else if !(s.core r.target).ownsBank r.t.dom.toNat (r.off / 32768) then
      let v := ofLe ((List.range 4).map fun j => Config.freeByte (s.free + j))
      .next { s with free := s.free + 4, bars := s.bars.set i { r with reply := some (word (v % 2 ^ 9)) } }
    else
      let o := word (ofLe (s.rdStore r.target r.off 8))
      if r.init then
        let s1 := s.wrStore r.target r.off (leBytes 8 (barrierInit r.value).toNat ++ List.replicate 8 0)
        .next { s1 with bars := s.bars.set i { r with reply := some o } }
      else
        let (o', v) := arrive o r.n
        let s1 := (s.wrStore r.target r.off (leBytes 8 o'.toNat)).modCore r.core
          fun k => k.count 38 none r.t.dom.toNat 1
        .next { s1 with bars := s.bars.set i { r with reply := some v } }

/-- R373: the reply from another die's store fails: it carries 0, the thread has a data error, and the core sends a
notice (log 35). -/
def State.takeReply (s : State) (c : Nat) (r : BarReq) (v : Word) : State × Word :=
  match s.engLost c r.t.dom.toNat (winAddr r.target r.off) with
  | some s1 => (s1.pendOn c r.t.tid fun t =>
      t.pendEvent 0 10 0 (r.t.pc.setWidth 64) (word (winAddr r.target r.off)) 0, 0)
  | none => (s, v)

/-- The debug events of a request that has been performed pend (R336, R347), unless a handler runs (R346). -/
def Thread.performed (t : Thread) (saving : Bool) (r : BarReq) : Thread :=
  if t.tret.getLsbD 56 then t else t.setEvents (t.events ++ r.events.map fun e => (debugBit e.1 saving, e.2))

/-- BARARV_REPLY (R232): d fills, the slot goes on, and an overrun pends its trap, beside the debug events of the
BARARV (R336). -/
def execBararvReply (c i : Nat) (s : State) : Out :=
  match s.bars[i]? with
  | none => .next s
  | some r =>
    match r.reply with
    | none => .next s
    | some v =>
      if r.init || r.core ≠ c then .next s
      else
        let (s, v) := { s with bars := s.bars.eraseIdx i }.takeReply c r v
        .next ((s.fillG c r.t.tid r.t.d v).pendOn c r.t.tid fun t =>
          let t := if t.status = .reply then { t with status := .running } else t
          (if v.getLsbD 9 then t.pendEvent 2 18 0 (r.t.pc.setWidth 64) v 0 else t).performed
            ((s.core c).saving t.dom) r)

/-- BARINIT_REPLY (R231): d fills with the object's old bits, and the debug events of the BARINIT pend (R336). -/
def execBarinitReply (c i : Nat) (s : State) : Out :=
  match s.bars[i]? with
  | none => .next s
  | some r =>
    match r.reply with
    | none => .next s
    | some v =>
      if !r.init || r.core ≠ c then .next s
      else
        let (s, v) := { s with bars := s.bars.eraseIdx i }.takeReply c r v
        let s1 := s.fillG c r.t.tid r.t.d v
        .next (if r.events.isEmpty then s1 else s1.pendOn c r.t.tid fun t => t.performed ((s.core c).saving t.dom) r)

/-- The object of a waiting BARWT still stands in a bank of its domain (R200). -/
def State.objectThere (s : State) (w : BarWait) : Bool := (s.core w.target).ownsBank w.t.dom.toNat (w.off / 32768)

/-- What a waiting BARWT reads of its object: phase and error (R233). An object that has been discarded with its bank
(R200) reads as an open value (log 10), never as the bytes that the bank now holds. -/
def State.barrierNow (s : State) (w : BarWait) : Nat × Nat :=
  if s.objectThere w then
    let o := word (ofLe (s.rdStore w.target w.off 8))
    (fld o 32 4, fld o 36 1)
  else (fld (Config.freeByte s.free) 0 4, fld (Config.freeByte s.free) 4 1)

/-- R233: the wait ends with d filled; the phase that passed without an error acquires first. -/
def State.barwtEnd (s : State) (c : Nat) (w : BarWait) (late : Bool) : State :=
  let (ph, er) := s.barrierNow w
  let s := if s.objectThere w then s else { s with free := s.free + 1 }
  let s := if ph ≠ w.phase ∧ er = 0 then s.acquire c w.t.dom w.t.scope else s
  s.fillG c w.t.tid w.t.d (word (ph ||| (if late then 256 else 0) ||| er <<< 9))

/-- The phase has passed or the error bit is set. -/
def State.barwtDone (s : State) (w : BarWait) : Bool :=
  let (ph, er) := s.barrierNow w
  ph != w.phase || er == 1

/-- BARWT (R233): it tests at once, and waits within its bound. -/
def execBarwt (x : FmtT) (s : State) : Out :=
  s.instr x.e x.w do
    waitDst x.d
    let vs ← srcs [x.a, x.b]
    let p ← barrierAt (arg vs 0) false
    let tg ← targetOf x.d.toNat x.scope.toNat
    let k ← core
    let bound := fld (arg vs 1) 0 32
    if !(← barrierSent x.d.toNat p) then return
    watch 1 [objectLane p]
    emptyG x.d.toNat
    let w : BarWait := { t := tg, target := p.1, off := p.2, phase := fld x.op 0 4, deadline := k.cycle + bound }
    let s ← get
    if s.barwtDone w then set (s.barwtEnd s.cur w false)
    else if bound = 0 then set (s.barwtEnd s.cur w true)
    else modMe fun k => { k with barwts := k.barwts ++ [w] }

/-- BARWT_WAKE (R233). -/
def execBarwtWake (c i : Nat) (s : State) : Out :=
  match (s.core c).barwts[i]? with
  | none => .next s
  | some w =>
    if s.barwtDone w then
      .next ((s.modCore c fun k => { k with barwts := k.barwts.eraseIdx i }).barwtEnd c w false)
    else .next s

/-- BARWT_BOUND_EXPIRY (R233): a phase that has passed is reported as passed. -/
def execBarwtBoundExpiry (c i : Nat) (s : State) : Out :=
  match (s.core c).barwts[i]? with
  | none => .next s
  | some w =>
    if w.deadline ≤ (s.core c).cycle then
      .next ((s.modCore c fun k => { k with barwts := k.barwts.eraseIdx i }).barwtEnd c w (!s.barwtDone w))
    else .next s

end Sys2Proof.Machine
end

