-- ==== Sys2Proof/Machine/Matrix.lean ====
section
/-! DEFINITION. The matrix engine (R234 to R250): MMA, MMAZ, MZERO, MDRN, MLDA, MSCL, the follow-on of a
CPYM (R224, R245), and the events of its queue. -/

namespace Sys2Proof.Machine

/-! ### Checks and claims (R235 to R240, R244) -/

/-- R235: the accumulator belongs to the domain, or sub-code 8. -/
def accOf (a : Nat) : M Unit := do need ((← core).hasAcc (← thread).dom.toNat a) 17 8

/-- Entries of the matrix queue that a domain holds (R236). -/
def Core.matsOf (k : Core) (d : Nat) : Nat := (k.mats.filter fun c => c.t.dom.toNat == d).length

/-- R236, R24: the domain's share of the 8 entries has room, and so has the queue. -/
def Core.matRoom (k : Core) (d : Nat) : Bool := k.matsOf d < k.matShare d && k.mats.length < 8

/-- The unit of rowbytes that R237 gives a fmt; none for a fmt that no operand has. -/
def mmaUnit (fmt : Nat) : Option Nat :=
  match fmt with
  | 1 => some 32
  | 3 => some 72
  | 4 => some 24
  | 5 => some 8
  | _ => none

/-- Bytes per 16 elements (R237). -/
def blockBytes (fmt : Nat) : Nat := if fmt = 1 then 32 else sgBytes fmt

/-- R237, R238: the rings can serve as the operands of an MMA of `n` tiles. -/
def operandOk (a b : Ring) (same : Bool) (n : Nat) : Bool :=
  layRows a.layout == 64 && layRows b.layout == 64 && layFmt a.layout == layFmt b.layout
    && layBytes a.layout == layBytes b.layout
    && (mmaUnit (layFmt a.layout)).any (fun u => layBytes a.layout % u == 0)
    && (if same then 2 * n ≤ a.tiles else n ≤ a.tiles && n ≤ b.tiles)

/-- The fields of MMA and MMAZ (R241). -/
structure MmaWord where
  d : Nat
  acc : Nat
  ra : Nat
  rb : Nat
  n : Nat
  deriving DecidableEq, Repr

def mmaOf (x : FmtT) : MmaWord := ⟨x.d.toNat, x.id1.toNat, x.id2.toNat, x.id3.toNat, fld x.op 0 4 + 1⟩

/-- The checks that come before any wait (R244): the sub-code of the first that fails. -/
def Core.mmaCheck (k : Core) (d : Nat) (w : MmaWord) : Option Nat :=
  let a := k.ringAt w.ra
  let b := k.ringAt w.rb
  if !k.hasAcc d w.acc then some 8
  else if !(k.hasRing d w.ra && k.hasRing d w.rb) then some 2
  else if a.tiles == 0 || b.tiles == 0 then some 3
  else if !operandOk a b (w.ra == w.rb) w.n then some 9
  else none

/-- The first claimed slot of each ring (R238). -/
def Core.claimAt (k : Core) (w : MmaWord) : Nat × Nat :=
  let a := k.ringAt w.ra
  let b := k.ringAt w.rb
  ((a.head + a.claims) % a.tiles, (b.head + b.claims + if w.ra = w.rb then w.n else 0) % b.tiles)

/-- R236, R238, R209: a queue entry, unclaimed ready tiles and range entries are there. -/
def Core.mmaReady (k : Core) (d : Nat) (w : MmaWord) : Bool :=
  let a := k.ringAt w.ra
  let b := k.ringAt w.rb
  let tiles := if w.ra = w.rb then 2 * w.n ≤ a.ready - a.claims
    else w.n ≤ a.ready - a.claims && w.n ≤ b.ready - b.claims
  k.matRoom d && tiles && k.rangeRoom d (if w.ra = w.rb then 1 else 2)

/-- The event of R395 that counts a wait of an MMA: one for range entries only where they lack. -/
def Core.rangeWait (k : Core) (d n : Nat) : Nat := if k.rangeRoom d n then 255 else 22

/-- R239: every claimed tile's tag equals its ring's layout. -/
def Core.tagsOk (k : Core) (w : MmaWord) : Bool :=
  let ok := fun (g : Ring) i => (List.range w.n).all fun j => Tab.get 0 g.tags ((i + j) % g.tiles) == g.layout
  let (a0, b0) := k.claimAt w
  ok (k.ringAt w.ra) a0 && ok (k.ringAt w.rb) b0

/-- R240: the read ranges of the claimed slots; one for a ring that serves as both operands (log 25). -/
def Core.mmaRanges (k : Core) (core : Nat) (w : MmaWord) : List (Nat × Nat × Bool) :=
  let (a0, b0) := k.claimAt w
  let a := (k.ringAt w.ra).span core a0 (if w.ra = w.rb then 2 * w.n else w.n)
  let b := (k.ringAt w.rb).span core b0 w.n
  (a.1, a.2, false) :: if w.ra = w.rb then [] else [(b.1, b.2, false)]

/-- R238: claims rise by n on each ring. -/
def Core.claim (k : Core) (w : MmaWord) : Core :=
  let k := k.setRing w.ra { k.ringAt w.ra with claims := (k.ringAt w.ra).claims + w.n }
  k.setRing w.rb { k.ringAt w.rb with claims := (k.ringAt w.rb).claims + w.n }

/-- R244: the command enters the queue with its claims, ranges and scales. -/
def Core.mmaEnter (k : Core) (core : Nat) (t : Target) (w : MmaWord) (zero : Bool) (sa sb : BitVec 32) : Core :=
  let (a0, b0) := k.claimAt w
  let k' := (k.addRanges t (k.mmaRanges core w)).claim w
  { k' with mats := k'.mats ++ [{ t, acc := w.acc, op := .mma zero w.ra w.rb w.n a0 b0 sa sb }] }

/-- R244: MMA and MMAZ as a slot issues them. -/
def mma (x : FmtT) (zero : Bool) : M Unit := do
  waitDst x.d
  let w := mmaOf x
  let k ← core
  let t ← thread
  match k.mmaCheck t.dom.toNat w with
  | some sub => raise 17 sub
  | none => pure ()
  waitFor (k.mmaReady t.dom.toNat w) (k.rangeWait t.dom.toNat (if w.ra = w.rb then 1 else 2))
  need (k.tagsOk w) 17 10
  afterAll
  let tg ← targetOf x.d.toNat
  emptyG x.d.toNat
  modify fun s => s.modMe fun k => k.mmaEnter s.cur tg w zero (k.ringAt w.ra).sigma (k.ringAt w.rb).sigma

/-- MMA (R244). -/
def execMma (x : FmtT) (s : State) : Out := s.instr x.e x.w (mma x false)

/-- MMAZ (R244). -/
def execMmaz (x : FmtT) (s : State) : Out := s.instr x.e x.w (mma x true)

/-- MZERO (R246). -/
def execMzero (x : FmtT) (s : State) : Out :=
  s.instr x.e x.w do
    waitDst x.d
    accOf x.id1.toNat
    let k ← core
    waitFor (k.matRoom (← thread).dom.toNat)
    afterAll
    let tg ← targetOf x.d.toNat
    emptyG x.d.toNat
    modMe fun k => { k with mats := k.mats ++ [{ t := tg, acc := x.id1.toNat, op := .zero }] }

/-- MDRN (R247). -/
def execMdrn (x : FmtT) (s : State) : Out :=
  s.instr x.e x.w do
    waitDst x.d
    let amax := x.op.getLsbD 5
    let vs ← srcs (if amax then [x.a, x.b] else [x.a])
    accOf x.id1.toNat
    let otype := fld x.op 3 2
    let es := if otype = 0 then 4 else 2
    alignedAt (fld x.op 0 3) (arg vs 0).toNat es
    let ea ← segOf (fld x.op 0 3) (arg vs 0).toNat (4096 * es) (needW ||| needE)
    if amax then alignedAt (fld x.op 6 3) (arg vs 1).toNat 4
    let am ← if amax then do
        let a ← segOf (fld x.op 6 3) (arg vs 1).toNat 4 (needRW ||| needE)
        pure (some a)
      else pure none
    let t ← thread
    let d := t.dom.toNat
    let k ← core
    waitFor (k.matRoom d)
    waitFor (k.rangeRoom d (if amax then 2 else 1)) 22
    let mode ← modeOf (fld x.op 9 2)
    let seed := k.rngOf d
    let _ ← draws mode 4096
    let tg ← targetOf x.d.toNat x.scope.toNat
    let rs := (ea, ea + 4096 * es, true) :: (am.toList.map fun a => (a, a + 4, true))
    engStart rs
    emptyG x.d.toNat
    let c : MatCmd := { t := tg, acc := x.id1.toNat, op := .drain ea otype mode seed am (x.op.getLsbD 11) }
    modMe fun k => { k.addRanges tg rs with mats := k.mats ++ [c] }

/-- MLDA (R249). -/
def execMlda (x : FmtT) (s : State) : Out :=
  s.instr x.e x.w do
    waitDst x.d
    let a ← src x.a
    accOf x.id1.toNat
    alignedAt (fld x.op 0 3) a.toNat 4
    let ea ← segOf (fld x.op 0 3) a.toNat 16384 (needR ||| needE)
    let t ← thread
    let k ← core
    waitFor (k.matRoom t.dom.toNat)
    waitFor (k.rangeRoom t.dom.toNat 1) 22
    let tg ← targetOf x.d.toNat x.scope.toNat
    let rs := [(ea, ea + 16384, false)]
    engStart rs
    emptyG x.d.toNat
    modMe fun k => { k.addRanges tg rs with mats := k.mats ++ [{ t := tg, acc := x.id1.toNat, op := .load ea }] }

/-- MSCL (R250). -/
def execMscl (x : FmtT) (s : State) : Out :=
  s.instr x.e x.w do
    waitDst x.d
    let a ← src x.a
    let g ← ringOf x.id1.toNat
    modMe (·.setRing x.id1.toNat { g with sigma := a.setWidth 32 })
    write x.d (g.sigma.setWidth 64)

/-! ### The engine (R236, R240, R244 to R249) -/

/-- An MMA or MMAZ. -/
def MatOp.isMma : MatOp → Bool
  | .mma .. => true
  | _ => false

/-- R236, R210: the queued command may start; an MMA also needs the multipliers, of which R18 gives the engine one
set, so that the arithmetic of two MMAs never overlaps (log 39). -/
def Core.matReady (k : Core) (i : Nat) : Bool :=
  match k.mats[i]? with
  | none => false
  | some c => !c.started && ((k.mats.take i).all fun x => x.acc != c.acc) && !k.rangeHeld c.t.id
      && (!c.op.isMma || k.mats.all fun x => !(x.started && x.op.isMma) || x.work == 0)

/-- R237: the arithmetic of a command, in quarter cycles at the unthrottled rate. No time is given for the commands
that are no MMA. -/
def Core.matTime (k : Core) (m : MatCmd) : Nat :=
  match m.op with
  | .mma _ ra _ n .. =>
    let g := k.ringAt ra
    let blocks := n * layBytes g.layout / blockBytes (layFmt g.layout)
    let each := if layFmt g.layout = 1 then 32 else if layFmt g.layout = 3 then 16 else 8
    if m.lost then 0 else 4 * (blocks * each)
  | _ => 0

/-- R237, R400: a cycle of a started command's arithmetic: four quarter cycles of work, halved by throttling and halved
again. The command may retire 8 cycles after the last of them. -/
def MatCmd.run (m : MatCmd) (throttle cycle : Nat) : MatCmd :=
  if m.started && m.work != 0 then
    let left := m.work - 4 / 2 ^ throttle
    { m with work := left, ready := if left = 0 then cycle + 9 else m.ready }
  else m

/-- The matrix engine's cycle (R237, R400). -/
def Core.runMats (k : Core) (throttle : Nat) : Core := { k with mats := k.mats.map (·.run throttle k.cycle) }

/-- Element (i, j) of an accumulator. -/
def accIx (a i j : Nat) : Nat := a * 4096 + 64 * i + j

def Core.accAt (k : Core) (a i j : Nat) : BitVec 32 := Tab.get 0 k.acc (accIx a i j)

/-- Every element of accumulator `a` replaced (R246). -/
def Core.setAcc (k : Core) (a : Nat) (f : Nat → Nat → BitVec 32) : Core :=
  let rest := k.acc.filter fun e => e.1 / 4096 != a
  { k with acc := (List.range 4096).foldl (fun t e => Tab.set 0 t (a * 4096 + e) (f (e / 64) (e % 64))) rest }

/-- Byte `l` of the tile in slot `i` of a ring, with the swizzle undone (R204, R240). -/
def Core.tileByte (k : Core) (g : Ring) (i l : Nat) : Byte :=
  Tab.get 0 k.store (g.base + i % g.tiles * tileBytes g.layout + swizzle g.layout l)

/-- Element `e` of K-block `b` of row `r` of a tile, as an exact value (R159, R237). -/
def Core.operand (k : Core) (g : Ring) (slot r b e : Nat) : FV :=
  let fmt := layFmt g.layout
  let n := blockBytes fmt
  let blk := ofLe ((List.range n).map fun j => k.tileByte g slot (r * layBytes g.layout + b * n + j))
  if fmt = 1 then .ofBits fmtBf16 (blk / 2 ^ (16 * e) % 65536) else sgElem fmt blk e

/-- The sum of a list of products, from the first (R167). -/
def sumFV : List FV → FV
  | [] => .fin false 0 1
  | x :: r => r.foldl FV.add x

/-- R167: one K-block added into an element. -/
def mmaStep (acc sa sb : BitVec 32) (xs ys : List FV) : BitVec 32 :=
  let s := sumFV (List.zipWith FV.mul xs ys)
  toF32 0 0 ((f32 acc).add (((f32 sa).mul (f32 sb)).mul s))

/-- The element after every K-block of `n` tiles, in increasing K. -/
def Core.mmaElem (k : Core) (ga gb : Ring) (n a0 b0 : Nat) (sa sb acc : BitVec 32) (i j : Nat) : BitVec 32 :=
  let per := layBytes ga.layout / blockBytes (layFmt ga.layout)
  (List.range (n * per)).foldl (fun acc q =>
    let el := fun g s r => (List.range 16).map fun e => k.operand g (s + q / per) r (q % per) e
    mmaStep acc sa sb (el ga a0 i) (el gb b0 j)) acc

/-- The progress of a command that moves rows: its next state, or that it waits. -/
inductive Rows where
  | done (m : MatCmd) (s : State)
  | wait (m : MatCmd) (s : State)

/-- The bytes of a row of a drain (R247). -/
def Core.drainRow (k : Core) (a i otype mode : Nat) (ds : List Nat) : List (BitVec 32 × List Byte) :=
  (List.range 64).map fun j =>
    let v := k.accAt a i j
    let es := if otype = 0 then 4 else 2
    let b := if otype = 0 then v.toNat else (f32 v).round (fmtOf otype) mode (ds.getD (64 * i + j) 0)
    -- the rounded value, read as f32
    (if otype = 0 then v else toF32 0 0 (.ofBits (fmtOf otype) b), leBytes es b)

/-- The elements of a row written at consecutive addresses. -/
def State.putRow (s : State) (c d ea : Nat) (pick : Nat → Bool) : List (List Byte) → Eng Unit
  | [] => .ok () s
  | bs :: r =>
    match s.engWrite c d ea bs pick with
    | .wait p s => .wait p s
    | .fail x s => .fail x s
    | .ok _ s => s.putRow c d (ea + bs.length) pick r

/-- R247: the next row of a drain; one that waits or fails has written nothing. -/
def State.drainRow (s : State) (c : Nat) (m : MatCmd) (ea otype mode : Nat) (ds : List Nat) : Rows :=
  let es := if otype = 0 then 4 else 2
  let d := m.t.dom.toNat
  let row := fun r => (s.core c).drainRow m.acc r otype mode ds
  let at_ := fun r => ea + 64 * r * es
  match s.putRow c d (at_ m.done) (fun _ => false) ((row m.done).map (·.2)) with
  | .ok _ s0 =>
    let s1 := match s0.putRow c d (at_ m.done) (fun _ => true) ((row m.done).map (·.2)) with
      | .ok _ s1 => s1
      | .wait _ s1 => s1
      | .fail _ s1 => s1
    let mx := (row m.done).foldl (fun mx v => fmax mx (v.1 &&& 0x7FFFFFFF)) m.mx
    .done { m with done := m.done + 1, mx }
      ((s1.modCore c fun k => k.count 28 none d 1).countWin c d (if inWin (at_ m.done) then 64 else 0))
  | .wait p s1 => .wait m (s1.report c d p)
  | .fail x s1 =>
    -- R216: which chunks of the failed rows were written is open (log 16)
    let n := s1.free
    let es := ((List.range 8).filter fun j => m.done + j < 64).flatMap fun j =>
      ((row (m.done + j)).map (·.2)).zipIdx.map fun e => (at_ (m.done + j) + es * e.2, e.1)
    let one := fun (s : State) (e : Nat × List Byte) pick => s.engWrite c d e.1 e.2 pick
    let torn := (es.filter fun e =>
      match one s1 e fun _ => false with
      | .ok _ _ => false
      | .wait _ _ => true
      | .fail _ _ => true).map (·.1 / 32)
    let s2 := es.foldl (fun s e =>
      match one s e fun a => Config.freeBit n (a / 32) && !torn.contains (a / 32) with
      | .ok _ s' => s'
      | .wait _ _ => s
      | .fail _ _ => s) { s1 with free := n + 1 }
    .done { m with cause := x, code := 1, fin := true } s2

/-- R247: the amax update of a drain whose every row is done: one AtomicFMax, one access of its word (R395). -/
def State.amax (s : State) (c : Nat) (m : MatCmd) (ea : Nat) : Rows :=
  let d := m.t.dom.toNat
  match s.engRead c d ea 4 with
  | .wait p s1 => .wait m (s1.report c d p)
  | .fail x s1 => .done { m with cause := x, code := 3, fin := true } s1
  | .ok bs s1 =>
    match s1.engWrite c d ea (leBytes 4 (fmax (BitVec.ofNat 32 (ofLe bs)) m.mx).toNat) (fun _ => true) with
    | .wait p s2 => .wait m (s2.report c d p)
    | .fail x s2 => .done { m with cause := x, code := 3, fin := true } s2
    | .ok _ s2 => .done { m with fin := true } ((s2.modCore c (·.count 20 none d 1)).countWin c d (if inWin ea then 1 else 0))

/-- R249: the next row of a load. The words read before a page that is waited out are kept (log 43). -/
def State.loadRow (s : State) (c : Nat) (m : MatCmd) (ea : Nat) : Nat → Rows
  | 0 => .done m s
  | fuel + 1 =>
    let d := m.t.dom.toNat
    match s.engRead c d (ea + 4 * m.vals.length) 4 with
    | .wait p s1 => .wait m (s1.report c d p)
    | .fail x s1 => .done { m with cause := x, code := 1, fin := true } s1
    | .ok bs s1 =>
      let vals := m.vals ++ [BitVec.ofNat 32 (ofLe bs)]
      (s1.countWin c d (if inWin ea then 1 else 0)).loadRow c { m with vals, done := vals.length / 64 } ea fuel

/-- A drain or a load: a command that moves rows. -/
def MatOp.moves : MatOp → Bool
  | .drain .. => true
  | .load _ => true
  | .mma .. => false
  | .zero => false

/-- The draws of a drain (R247). -/
def MatCmd.draws (m : MatCmd) : List Nat :=
  match m.op with
  | .drain _ _ mode seed _ _ => if mode = 2 then (drawList 4096 seed).1 else []
  | _ => []

/-- R236: a unit of the memory work of a drain or a load: its next row, or the amax update after the last. -/
def State.matUnit (s : State) (c : Nat) (m : MatCmd) (ds : List Nat) : Rows :=
  if m.fin then .done m s
  else match m.op with
  | .drain ea otype mode _ am _ =>
    if m.done < 64 then s.drainRow c m ea otype mode ds
    else match am with
      | some a => s.amax c m a
      | none => .done { m with fin := true } s
  | .load ea => if m.vals.length < 4096 then s.loadRow c m ea (64 - m.vals.length % 64) else .done { m with fin := true } s
  | _ => .done m s

/-- The memory work of a drain or a load, to a wait or its end. -/
def State.matUnits (s : State) (c : Nat) (m : MatCmd) (ds : List Nat) : Nat → Rows
  | 0 => .done m s
  | fuel + 1 =>
    if m.fin then .done m s
    else match s.matUnit c m ds with
      | .wait m s => .wait m s
      | .done m s => s.matUnits c m ds fuel

/-- What a command changes beside its rows (R244 to R249): an MMA's sums, a cleared or loaded accumulator. Operand bytes
in a bank that the domain has left read as zero (R362), and an MMA whose ring has passed to another domain finds no tile
(R24; log 22). The operands are read here, at the retirement: no rule gives the instant (log 44). -/
def State.matEnd (s : State) (c : Nat) (m : MatCmd) : State :=
  let k := s.core c
  match m.op with
  | .mma zero ra rb n a0 b0 sa sb =>
    let ga := k.ringAt ra
    let gb := k.ringAt rb
    let mine := { k with store := k.store.filter fun e => k.ownsBank m.t.dom.toNat (e.1 / 32768) }
    let n := if m.lost then 0 else n
    let f := fun i j => mine.mmaElem ga gb n a0 b0 sa sb (if zero then 0 else k.accAt m.acc i j) i j
    let per := layBytes ga.layout / blockBytes (layFmt ga.layout)
    s.setCore c ((k.setAcc m.acc f).count 25 none m.t.dom.toNat (n * per))
  | .zero => s.setCore c (k.setAcc m.acc fun _ _ => 0)
  | .drain _ _ _ _ _ clr => if clr && m.code == 0 then s.setCore c (k.setAcc m.acc fun _ _ => 0) else s
  | .load _ =>
    let canon := fun (v : BitVec 32) => if (f32 v).isNan then 0x7FC00000 else v
    if m.code = 0 then s.setCore c (k.setAcc m.acc fun i j => canon (m.vals.getD (64 * i + j) 0)) else s

/-- The rest of a command's work, at its retirement (R244 to R249). -/
def State.matRun (s : State) (c : Nat) (m : MatCmd) : Rows :=
  match if m.op.moves then s.matUnits c m m.draws 66 else .done m s with
  | .wait m s => .wait m s
  | .done m s => .done m (s.matEnd c m)

/-- R235: the command's accumulator has passed to another domain. -/
def Core.accLost (k : Core) (m : MatCmd) : Bool :=
  let o := Tab.get 0 k.accOwner m.acc
  o != 0 && o != m.t.dom.toNat + 1

/-- Work `f` of a command; one whose accumulator has passed to another domain finds zeros there and leaves the other
domain's elements as they are (R235; log 39). -/
def State.matWork (s : State) (c : Nat) (m : MatCmd) (f : State → Rows) : Rows :=
  let k := s.core c
  if k.accLost m then
    let mine := fun (s : State) => s.modCore c ({ · with acc := k.acc })
    match f (s.setCore c { k with acc := k.acc.filter fun e => e.1 / 4096 != m.acc }) with
    | .done m s => .done m (mine s)
    | .wait m s => .wait m (mine s)
  else f s

/-- MATRIX_COMMAND_START (R236): a command that may start starts; a drain or a load that has started does a unit of its
work, also while earlier commands on other accumulators have not retired. -/
def execMatrixCommandStart (c i : Nat) (s : State) : Out :=
  let k := s.core c
  match k.mats[i]? with
  | none => .next s
  | some m =>
    let put := fun (s : State) (m : MatCmd) => s.modCore c fun k => { k with mats := k.mats.set i m }
    if k.matReady i then .next (put s { m with started := true, work := k.matTime m })
    else if m.started && m.op.moves && !m.fin then
      match s.matWork c m (·.matUnit c m m.draws) with
      | .done m s1 => .next (put s1 m)
      | .wait m s1 => .next (put s1 m)
    else .next s

/-- The status of a retired command (R217, R245, R246); an MMA whose ring has passed to another domain has added no tile
(R24; log 22). -/
def MatCmd.status (m : MatCmd) : Word :=
  match m.op with
  | .mma _ _ _ n .. => word ((if m.lost then 0 else n) <<< 16)
  | .zero => 0
  | _ => rowStatus m.done m.cause m.code (m.code == 1)

/-- R240: an MMA pops its tiles from each ring, where the rings are still its domain's (R24). -/
def Core.popTiles (k : Core) (m : MatCmd) : Core :=
  match m.op with
  | .mma _ ra rb n .. =>
    if m.lost then k
    else
      let k := k.setRing ra ((k.ringAt ra).pop n)
      k.setRing rb ((k.ringAt rb).pop n)
  | _ => k

/-- MATRIX_COMMAND_RETIRE (R236, R240): the oldest command does what is left of its work, pops its tiles, frees its ranges
and fills its status, once the time of R237 has passed; it waits while a page is missing. -/
def execMatrixCommandRetire (c : Nat) (s : State) : Out :=
  match (s.core c).mats with
  | [] => .next s
  | m :: rest =>
    if !(m.started && m.work == 0 && m.ready ≤ (s.core c).cycle) then .next s
    else
      match s.matWork c m (·.matRun c m) with
      | .wait m' s1 => .next (s1.modCore c fun k => { k with mats := m' :: rest })
      | .done m' s1 =>
        let dst := (s1.core c).ranges.filter fun e => e.2.owner == .command m.t.id && e.2.write
        let s2 := dst.foldl (fun s e => s.flushRange c m.t.dom e.2.lo e.2.hi false) s1
        .next ((s2.modCore c fun k =>
          { (k.popTiles m').freeRanges m.t.id with mats := rest }).fillG c m.t.tid m.t.d m'.status)

/-- FOLLOW_ON_ISSUE (R224, R245): the copy engine issues the follow-on, or discards it. It issues as if the slot issued
it: after the slot's earlier accesses (R284). -/
def execFollowOnIssue (c i : Nat) (s : State) : Out :=
  let k := s.core c
  match k.copies[i]? with
  | none => .next s
  | some cp =>
    match cp.filled, cp.follow with
    | true, some w =>
      let gone := s.modCore c fun k => { k with copies := k.copies.eraseIdx i }
      let x := FmtT.ofWord w
      let mw := mmaOf x
      let d := cp.t.dom.toNat
      let discard := fun sub =>
        (gone.fillG c cp.t.tid mw.d (word (3 ||| sub <<< 8))).pendOn c cp.t.tid fun t =>
          t.pendEvent 1 17 sub (cp.t.pc.setWidth 64) w 0
      if !k.alive cp.t.tid then .next gone
      else
        match k.mmaCheck d mw with
        | some sub => .next (discard sub)
        | none =>
          if !k.mmaReady d mw || s.toObject c cp.t.tid none then .next s
          else if !k.tagsOk mw then .next (discard 10)
          else
            let sg := fun r => cp.sigma.getD r 0x3F800000
            let (id, s1) := (gone.emptyAt c cp.t.tid mw.d).fresh
            let t : Target := { cp.t with id, d := mw.d, scope := 0 }
            .next (s1.modCore c fun k =>
              k.mmaEnter c t mw (fld w 48 8 == 1) (sg mw.ra) (sg mw.rb))
    | _, _ => .next s

end Sys2Proof.Machine
end

