-- ==== Sys2Proof/Machine/Route.lean ====
section
/-! DEFINITION. ROUTE and its fabric (R297 to R326): route entries, splices, receive queues, token pages,
the packets between route ports, and the instructions and events of chapter 17. -/

namespace Sys2Proof.Machine

/-! ### Route entries (R297) -/

def Core.routeAt (k : Core) (e : Nat) : Word × Word := Tab.get (0, 0) k.route e

def rtDom (w : Word × Word) : Nat := fld w.1 56 8
def rtValid (w : Word × Word) : Bool := w.1.getLsbD 55
def rtFailed (w : Word × Word) : Bool := w.1.getLsbD 54
def rtPolicy (w : Word × Word) : Nat := fld w.1 52 2
def rtSpill (w : Word × Word) : Nat := fld w.1 44 8
def rtCapacity (w : Word × Word) : Nat := fld w.1 28 16
def rtCredit (w : Word × Word) : Nat := fld w.1 12 16
def rtPackage (w : Word × Word) : Nat := fld w.2 14 19
/-- Die, cluster and core as a core number. -/
def rtCore (w : Word × Word) : Nat := fld w.2 4 10
def rtQueue (w : Word × Word) : Nat := fld w.2 0 4

/-- The entry with its credit set. -/
def Core.setCredit (k : Core) (e n : Nat) : Core :=
  let w := k.routeAt e
  { k with route := Tab.set (0, 0) k.route e (setFld w.1 12 16 n, w.2) }

/-- ROUTE_ENTRY_WRITE (R297). -/
def execRouteEntryWrite (c e i : Nat) (v : Word) (s : State) : Out := .next (s.modCore c (·.routeWrite e i v))

/-- TOKEN_POOL_WRITE (R303). -/
def execTokenPoolWrite (c d i : Nat) (v : Word) (s : State) : Out := .next (s.modCore c (·.poolWrite d i v))

/-! ### Splices (R310 to R313) -/

def Core.spliceAt (k : Core) (n : Nat) : Splice := Tab.get {} k.splice n
def Core.setSplice (k : Core) (n : Nat) (p : Splice) : Core := { k with splice := k.splice.put n p }

/-- Slot (r, k) of a splice. -/
def Splice.slot (p : Splice) (r k : Nat) : SpSlot := Tab.get {} p.slots (4 * r + k)
def Splice.setSlot (p : Splice) (r k : Nat) (x : SpSlot) : Splice :=
  { p with slots := Tab.set {} p.slots (4 * r + k) x }
def Splice.setStatus (p : Splice) (r k st : Nat) : Splice := p.setSlot r k { p.slot r k with status := st }

/-- Slots with one of the statuses. -/
def Splice.count (p : Splice) (sts : List Nat) : Nat := (p.slots.filter fun e => sts.contains e.2.status).length

/-- SPLINI's status with a code (R320). -/
def Splice.report (p : Splice) (code : Nat) : Word :=
  word (p.count [2] <<< 52 ||| p.count [3] <<< 40 ||| p.count [4, 7] <<< 28 ||| p.count [5] <<< 16 ||| code)

def elSize (ty : Nat) : Nat := if ty = 0 then 4 else 2

/-- R313: the splice completes: its range entry is freed, and SPLINI's d fills. -/
def State.spliceEnd (s : State) (c n code : Nat) : State :=
  let p := (s.core c).spliceAt n
  (s.modCore c fun k =>
    (k.freeRanges p.t.id).setSplice n { p with state := 0, deadline := none }).fillG c p.t.tid p.t.d
      (p.report code)

/-- The splice is running and no slot is pending (R313). -/
def Splice.over (p : Splice) : Bool := p.state == 2 && p.count [1] == 0

/-- SPLICE_COMPLETE (R313). -/
def execSpliceComplete (c n : Nat) (s : State) : Out :=
  if ((s.core c).spliceAt n).over then .next (s.spliceEnd c n 0) else .next s

/-- R313: pending slots become timed-out. A timeout has its effect after the cycle in which it expires, since a return
of that cycle is applied first (R315). -/
def State.timeOut (s : State) (c n : Nat) : State :=
  let p := (s.core c).spliceAt n
  if p.state == 2 && p.deadline.any (· < (s.core c).cycle) then
    if p.over then s.spliceEnd c n 0
    else
      let slots := p.slots.map fun e => if e.2.status = 1 then (e.1, { e.2 with status := 5 }) else e
      (s.modCore c (·.setSplice n { p with slots, expired := true })).spliceEnd c n 1
  else s

/-- The timeouts of a core's splices that have expired in an earlier cycle have had their effect before what reaches
the splices now (R315). -/
def State.expire (s : State) (c : Nat) : State := ((s.core c).splice.map (·.1)).foldl (fun s n => s.timeOut c n) s

/-- SPLICE_TIMEOUT (R313). -/
def execSpliceTimeout (c n : Nat) (s : State) : Out := .next (s.timeOut c n)

/-- R311, sub-code 11. -/
def spliceOf (n : Nat) : M Splice := do
  need ((← core).hasSplice (← thread).dom.toNat n) 17 11
  return (← core).spliceAt n

/-- The fields of the 32-byte splice block (R310). -/
def Splice.ofBytes (b : List Byte) : Splice where
  out := blkF b 0 8
  rows := blkF b 8 2
  cols := blkF b 10 2
  stype := blkF b 12 1 % 4
  rtype := blkF b 12 1 / 4 % 4
  timeout := blkF b 16 4

/-- R310: the block is valid, and its output lies in the domain's banks of this core. -/
def State.spliceOk (s : State) (b : List Byte) (d : Nat) : Bool :=
  let p := Splice.ofBytes b
  let n := p.rows * p.cols * 4
  blkF b 12 1 / 16 == 0 && blkF b 13 3 == 0 && blkF b 20 12 == 0 && p.stype < 2 && p.rtype < 2
    && 1 ≤ p.rows && p.rows ≤ 256 && 16 ≤ p.cols && p.cols ≤ 1024 && p.cols % 16 == 0
    && p.cols * elSize p.stype ≤ 2048 && p.out % 4 == 0
    && (s.storeFault d s.cur p.out n).isNone && (storeLoc s.cur p.out).1 == s.cur

/-- R210: an entry of the domain conflicts with a range that is about to be registered, or one that an RFREE has freed
and whose d has not filled (R229). -/
def Core.rangeClash (k : Core) (dom : Byte) (lo hi : Nat) (write : Bool) : Bool :=
  let meets := fun (o : RangeEnt) => o.dom == dom && o.lo < hi && lo < o.hi && (o.write || write)
  k.ranges.any (fun o => meets o.2) || k.fills.any fun f => f.holds.any fun h => meets h.1

/-- SPLINI (R320). -/
def execSplini (x : FmtT) (s : State) : Out :=
  s.instr x.e x.w do
    waitDst x.d
    let a ← src x.a
    let n := x.id1.toNat
    let old ← spliceOf n
    need (old.state != 2) 17 12
    let me := (← get).cur
    if old.state = 1 then
      modify fun s => (s.modCore me (·.freeRanges old.t.id)).fillG me old.t.tid old.t.d 3
    let bp ← threadStore a.toNat 32 32 17 18 false
    let some b ← blockAt x.d.toNat bp 32 | pure ()
    let s0 ← get
    let t ← thread
    let d := t.dom.toNat
    need (s0.spliceOk b d) 17 13
    let p := Splice.ofBytes b
    let o := (storeLoc me p.out).2
    let lo := winAddr me o
    let hi := lo + p.rows * p.cols * 4
    release x.scope.toNat
    waitFor (s0.me.rangeRoom d 1 && !s0.me.rangeClash t.dom lo hi true) 22
    waitDst x.d
    let tg ← targetOf x.d.toNat x.scope.toNat
    modMe fun k => ((k.addRanges tg [(lo, hi, true)]).clearStore o (o + p.rows * p.cols * 4)).setSplice n
      { p with state := 1, dom := t.dom, out := o, gen := (old.gen + 1) % 256, t := tg }
    emptyG x.d.toNat

/-- SPLQ (R321). -/
def execSplq (x : FmtT) (s : State) : Out :=
  s.instr x.e x.w do
    waitDst x.d
    let item := fld x.op 0 2
    let vs ← srcs (if item = 1 then [x.b] else [])
    let p ← spliceOf x.id1.toNat
    let r := (arg vs 0).toNat
    write x.d (match item with
      | 0 => p.report (if p.state = 0 then (if p.expired then 1 else 0) else 2)
      | 1 => if p.rows ≤ r then 0
        else word ((List.range 4).map fun k => (p.slot r k).status <<< (4 * k)).sum
      | _ => word (p.late % 2 ^ 32 ||| p.gen <<< 32))

/-! ### ROUTE (R299, R300, R318) -/

/-- R299: a must-be-zero bit of a record is 1. -/
def pairBad (w : Word) : Bool := fld w 41 23 != 0 || (!w.getLsbD 40 && w != 0)

/-- The pairs of a routing array: row, k and the pair's word. -/
def routePairs (rows : Nat) (b : List Byte) : List (Nat × Nat × Word) :=
  (List.range (4 * rows)).map fun i => (i / 4, i % 4, word (blkF b (8 * i) 8))

/-- R318: every pair is resolved: the tile's range entry is freed and d fills. -/
def State.routeEnd (s : State) (c i : Nat) : State :=
  match (s.core c).routes[i]? with
  | none => s
  | some r =>
    (s.modCore c fun k => { k.freeRanges r.t.id with routes := k.routes.eraseIdx i }).fillG c r.t.tid r.t.d
      (word (r.sent <<< 48 ||| r.spilled <<< 32 ||| r.dropped <<< 16 ||| r.failed))

/-- ROUTE (R318). -/
def execRoute (x : FmtT) (s : State) : Out :=
  s.instr x.e x.w do
    waitDst x.d
    let vs ← srcs [x.a, x.b]
    let n := x.id1.toNat
    let p ← spliceOf n
    need (p.state == 1) 17 12
    let rb := p.cols * elSize p.stype
    let (tc, t) ← storeCheck (arg vs 0).toNat (p.rows * rb)
    let _ ← storeCheck (arg vs 1).toNat (p.rows * 32)
    need (t % 32 == 0) 17 18
    let vp ← threadStore (arg vs 1).toNat (p.rows * 32) 32 17 18 false
    let some recs ← blockAt x.d.toNat vp (p.rows * 32) | pure ()
    let ps := routePairs p.rows recs
    need (!ps.any fun q => pairBad q.2.2) 17 19
    let th ← thread
    let k ← core
    waitFor (k.rangeRoom th.dom.toNat 1) 22
    afterAll
    let tg ← targetOf x.d.toNat
    emptyG x.d.toNat
    let live := ps.filter fun q => q.2.2.getLsbD 40
    let p' := live.foldl (fun (p : Splice) q =>
      p.setSlot q.1 q.2.1 { status := 1, weight := q.2.2.extractLsb' 0 32 }) { p with slots := [] }
    let deadline := if p.timeout = 0 then none else some (k.cycle + p.timeout)
    let cmd : RouteCmd :=
      { t := tg, splice := n, gen := p.gen, tile := (arg vs 0).toNat
        pairs := live.map fun q => (q.1, q.2.1, fld q.2.2 32 8) }
    let lo := winAddr tc t
    modMe fun k => { (k.addRanges tg [(lo, lo + p.rows * rb, false)]).setSplice n
      { p' with state := 2, deadline } with routes := k.routes ++ [cmd] }
    if live.isEmpty then
      modify fun s => (s.spliceEnd s.cur n 0).routeEnd s.cur (s.me.routes.length - 1)

/-- The tag of a transmitted row (R301). -/
def routeTag (e pkg core n k row gen : Nat) : Word :=
  word (e <<< 51 ||| pkg <<< 32 ||| core <<< 22 ||| n <<< 18 ||| k <<< 16 ||| row <<< 8 ||| gen)

/-- The bytes of a row in the domain's banks at a window address; zeros where it has left a bank (R362). -/
def State.rowBytes (s : State) (c d x n : Nat) : List Byte :=
  if (s.storeFault d c x n).isSome then List.replicate n 0
  else let p := storeLoc c x; s.rdStore p.1 p.2 n

/-- R300: the route port sends 64 bytes a cycle; a row is begun while the cycle has room left. -/
def Core.routeRoom (k : Core) : Bool := k.routed < 64 * (k.cycle + 1)

/-- R373: the packet of a row at a store address fails: it is one from another die's store. -/
def State.rowLost (s : State) (c d x : Nat) : Option State := if inWin x then s.engLost c d x else none

/-- R315: in this cycle a pair has found the entry without a credit: one that returns now arrives in a later cycle. -/
def Core.starve (k : Core) (e : Nat) : Core :=
  { k with starved := (e, k.cycle) :: k.starved.filter (·.2 == k.cycle) }

/-- The splice is the one that the ROUTE found: its table has passed to no other domain (R24) and no later SPLINI has
taken it (R318). -/
def Splice.isOf (p : Splice) (cmd : RouteCmd) : Bool := p.dom == cmd.t.dom && p.gen == cmd.gen && p.t.id ≤ cmd.t.id

/-- PAIR_SEND (R300): the port deals with the next pair of a ROUTE, once no earlier range holds the command back
(R210). A pair whose splice times out in this cycle is left to the timeout (R315), and one whose row does not come from
another die's store fails (R373). -/
def execPairSend (c i : Nat) (s : State) : Out :=
  let k := s.core c
  match k.routes[i]? with
  | none => .next s
  | some cmd =>
    match cmd.pairs with
    | [] => .next (s.routeEnd c i)
    | (r, kk, e0) :: rest =>
      let p := k.spliceAt cmd.splice
      let put := fun (k : Core) (cmd : RouteCmd) => { k with routes := k.routes.set i cmd }
      let next := { cmd with pairs := rest, entry := none, stalled := false }
      let dom := cmd.t.dom
      if !p.isOf cmd ∨ p.state ≠ 2 ∨ (p.slot r kk).status ≠ 1 then
        .next (s.setCore c (put k { next with failed := cmd.failed + 1 }))
      else if k.rangeHeld cmd.t.id || p.deadline.any (· ≤ k.cycle) then .next s
      else
        let (e, hops) := cmd.entry.getD (e0, 0)
        let w := k.routeAt e
        let resolve := fun (st : Nat) (cmd : RouteCmd) =>
          s.setCore c (put (k.setSplice cmd.splice (p.setStatus r kk st)) cmd)
        if cmd.stalled && rtCredit w == 0 then .next s
        else if !rtValid w || rtDom w != dom.toNat then .next (resolve 4 { next with failed := cmd.failed + 1 })
        else if rtFailed w then .next (resolve 7 { next with failed := cmd.failed + 1 })
        else if rtCredit w ≠ 0 then
          if !k.routeRoom then .next s else
          let rb := p.cols * elSize p.stype
          match s.rowLost c dom.toNat (cmd.tile + r * rb) with
          | some s1 => .next (s1.setCore c (put ((s1.core c).setSplice cmd.splice (p.setStatus r kk 4))
              { next with failed := cmd.failed + 1 }))
          | none =>
          let bytes := s.rowBytes c dom.toNat (cmd.tile + r * rb) rb
          let tag := routeTag e (fld s.pkgid 0 19) c cmd.splice kk r p.gen
          let k0 := { k with routed := Nat.max k.routed (64 * k.cycle) + rb }
          let k1 := (k0.setCredit e (rtCredit w - 1)).setSplice cmd.splice
            (p.setSlot r kk { p.slot r kk with entry := some e })
          .next ((s.setCore c (((put k1 { next with sent := cmd.sent + 1 }).count 31 none dom.toNat 1).count 17 none
              dom.toNat (if inWin cmd.tile then 1 else 0))).sendPkt
            dom (rtPackage w) (rtCore w) (.row (rtQueue w) tag bytes))
        else
          match rtPolicy w with
          | 1 =>
            let k := k.starve e
            let cmd1 := if hops = 0 then { cmd with spilled := cmd.spilled + 1 } else cmd
            let k1 := if hops = 0 then k.count 33 none dom.toNat 1 else k
            if hops = 3 then
              .next (s.setCore c ((put (k.setSplice cmd.splice (p.setStatus r kk 3))
                { next with dropped := cmd.dropped + 1 }).count 32 none dom.toNat 1))
            else .next (s.setCore c (put k1 { cmd1 with entry := some (rtSpill w, hops + 1) }))
          | 2 => .next (s.setCore c (put k { cmd with stalled := true }))
          | _ => .next ((resolve 3 { next with dropped := cmd.dropped + 1 }).modCore c
              fun k => (k.starve e).count 32 none dom.toNat 1)

/-! ### Packets (R300, R362, R392) -/

/-- The stream in whose order a row or a token arrives: its sender's package and core, and its queue's package, core
and number (R300). -/
def Packet.stream (p : Packet) : Option (Nat × Nat × Nat × Nat × Nat) :=
  match p.kind with
  | .row q tag _ => some (p.source, fld tag 22 10, p.package, p.core, q)
  | .eos q _ c => some (p.source, c, p.package, p.core, q)
  | _ => none

/-- R300: no earlier packet of its stream is still on its way. -/
def State.inTurn (s : State) (i : Nat) : Bool :=
  match s.net[i]? with
  | none => false
  | some p => p.stream.isNone || (s.net.take i).all fun x => x.stream != p.stream

/-- R314: what a core does when a package has reset. -/
def Core.peerReset (k : Core) (pkg : Nat) : Core :=
  let hit := (List.range 256).filter fun e => rtPackage (k.routeAt e) == pkg
  let k := hit.foldl (fun (k : Core) e =>
    let w := k.routeAt e
    let w0 := setFld (setFld w.1 54 1 1) 12 16 (rtCapacity w)
    { k with route := Tab.set (0, 0) k.route e (w0, w.2) }) k
  let fix := fun (x : SpSlot) =>
    if x.status = 1 ∧ x.entry.any hit.contains then { x with status := 7 } else x
  { k with splice := k.splice.map fun e =>
      (e.1, { e.2 with slots := e.2.slots.map fun (x : Nat × SpSlot) => (x.1, fix x.2) }) }

/-- R319: an RTRET on its way to an unreachable package fills its status with 3. -/
def State.unreachable (s : State) (c pkg : Nat) : State :=
  let lost := fun (p : Packet) => p.package == pkg && p.package != fld s.pkgid 0 19 && match p.kind with
    | .ret _ _ _ _ _ (some _) x => x == c
    | _ => false
  let dead := s.net.filter lost
  dead.foldl (fun s p => match p.kind with
    | .ret _ _ _ _ _ (some t) _ => (s.modCore c (·.freeRanges t.id)).fillG c t.tid t.d 3
    | _ => s) { s with net := s.net.filter fun p => !lost p }

/-- R314: no announcement or packet of the package has come since it was reported as reset. -/
def State.goneDown (s : State) (pkg : Nat) : State :=
  { s with down := if s.down.contains pkg then s.down else pkg :: s.down }
def State.isBack (s : State) (pkg : Nat) : State := { s with down := s.down.filter (· != pkg) }

/-- PEER_RESET (R314): a return to the package is answered with code 3 until it is back (log 27). -/
def execPeerReset (c pkg : Nat) (s : State) : Out :=
  .next ((((s.expire c).modCore c (·.peerReset pkg)).unreachable c pkg).goneDown pkg)

/-- R392, R314: a package is found to have reset, and every core learns of it; those that the state does not list too
where their entries, all zero, name the package. -/
def State.peerResetAll (s : State) (pkg : Nat) : State :=
  (if pkg = 0 then List.range 1024 else s.cores.map (·.1)).foldl
    (fun s c => ((s.expire c).modCore c (·.peerReset pkg)).unreachable c pkg) s

/-- RESET_ANNOUNCEMENT (R392): it is reported to every core, unless it is older than the incarnation last seen; a packet that
came before it has recorded its incarnation without a report. -/
def execResetAnnouncement (pkg inc : Nat) (s : State) : Out :=
  if Tab.get 0 s.incarnations pkg ≤ inc then
    .next (({ s with incarnations := s.incarnations.put pkg inc }.peerResetAll pkg).isBack pkg)
  else .next s

/-- R392: a packet from a package is accepted: none where its incarnation is older than the newest seen. -/
def State.accept (s : State) (p : Packet) : Option State :=
  if p.source = fld s.pkgid 0 19 then (if p.incarnation = fld s.pkgid 32 16 then some s else none)
  else
    match s.incarnations.find? (·.1 == p.source) with
    | none => some ({ s with incarnations := s.incarnations.put p.source p.incarnation }.isBack p.source)
    | some (_, n) =>
      if p.incarnation < n then none
      else if n < p.incarnation then
        some (({ s with incarnations := s.incarnations.put p.source p.incarnation }.peerResetAll p.source).isBack p.source)
      else some (s.isBack p.source)

/-- The i-th packet, for this package, taken off the fabric: none where it is not to be had, and the state
without it where it is discarded. -/
def State.takePkt (s : State) (i : Nat) : Option (Packet × Option State) :=
  match s.net[i]? with
  | none => none
  | some p =>
    if p.package ≠ fld s.pkgid 0 19 then none
    else some (p, { s with net := s.net.eraseIdx i }.accept p)

/-- Without the i-th packet. -/
def State.dropPkt (s : State) (i : Nat) : State := { s with net := s.net.eraseIdx i }

/-- A packet of another package arrives at a port of this one (R300, R392). -/
def State.receive (s : State) (p : Packet) : State :=
  if p.source = fld s.pkgid 0 19 then s else { s with net := s.net ++ [{ p with port := none, unread := none }] }

/-- The i-th packet, for another package, leaves. The return of an RTRET stands until its answer (R319). -/
def State.depart (s : State) (i : Nat) : State :=
  match s.net[i]? with
  | some p =>
    let held := match p.kind with
      | .ret _ _ _ _ _ t _ => t.isSome
      | _ => false
    if p.package ≠ fld s.pkgid 0 19 && p.unread.isNone && !held then s.dropPkt i else s
  | none => s

/-- The core that a packet between cores has left, where the packet names it (R301, R319, R325). -/
def Packet.sender (p : Packet) : Option Nat :=
  match p.kind with
  | .row _ tag _ => some (fld tag 22 10)
  | .eos _ _ core => some core
  | .ret _ _ _ _ _ t core => t.map fun _ => core
  | .credit _ => none
  | .retAck .. => none
  | .eosAck _ => none

/-- R373: the i-th packet, between dies of the package, fails authentication: its row fails, its return is a fail
notice, anything else that it carries is lost; the core sends a notice (log 35). -/
def State.discardPkt (s : State) (i : Nat) : State :=
  match s.net[i]? with
  | none => s
  | some p =>
    let own := fld s.pkgid 0 19
    if p.source ≠ own || p.package ≠ own || p.sender.any (fun c => dieOf c = dieOf p.core) then s
    else
      let s1 := match p.kind with
        | .row _ tag _ => (s.dropPkt i).rowFails p.dom tag
        | .ret tag _ _ _ _ t core =>
          { s with net := s.net.set i { p with kind := .ret tag 0 0 [] true t core, unread := none } }
        | _ => s.dropPkt i
      s1.notice p.core p.dom.toNat 10 0 0 0

/-- R373: the next packet between core `c` and a memory slice, or another die's store, fails authentication. -/
def State.tamper (s : State) (c : Nat) : State :=
  if s.tampered.contains c then s else { s with tampered := s.tampered ++ [c] }

/-! ### Receive queues and token pages (R302 to R308) -/

def Core.queueAt (k : Core) (n : Nat) : Option RxQueue := (k.rxq.find? (·.1 == n)).map (·.2)
def Core.setQueue (k : Core) (n : Nat) (q : RxQueue) : Core := { k with rxq := k.rxq.put n q }

/-- A free page of a pool. -/
def Pool.free (p : Pool) : Option Nat :=
  (firstIx p.count fun i => !p.used.contains (p.base + i * p.size)).map fun i => p.base + i * p.size

def Pool.freeCount (p : Pool) : Nat :=
  (List.range p.count).countP fun i => !p.used.contains (p.base + i * p.size)

/-- The queue with page `a` changed. -/
def RxQueue.modPage (q : RxQueue) (a : Nat) (f : TokPage → TokPage) : RxQueue :=
  { q with pages := q.pages.map fun p => if p.addr = a then f p else p }

/-- R327: in one cycle the queues of a core take pages in increasing queue number. -/
def Core.pageTurnOk (k : Core) (n : Nat) : Bool := k.pageTurn.all fun t => t.1 != k.cycle || t.2 ≤ n

/-- A free page becomes the open page, and its first reservation starts its timeout. One that a held row opens after the
stream has ended is the open page of the ended stream (R306; log 27). -/
def Core.openPage (k : Core) (n : Nat) (q : RxQueue) : Option (Nat × Nat × Core) :=
  let d := q.dom.toNat
  let pool := Tab.get {} k.pool d
  if !k.pageTurnOk n then none
  else pool.free.map fun a =>
    let k := { k with pageTurn := some (k.cycle, n) }
    let k1 := k.setQueue n { q with pages := q.pages ++ [{ addr := a, resv := 1, since := k.cycle, eos := q.ended }] }
    (a, 0, { k1 with pool := Tab.set {} k1.pool d { pool with used := a :: pool.used } })

/-- R305: the queue takes a position: page and number, with the pool where a new page opens; none where
the pool has no free page. A page whose handover waits is still the open page (R328). -/
def Core.reserve (k : Core) (n : Nat) (q : RxQueue) : Option (Nat × Nat × Core) :=
  match q.pages.getLast? with
  | some p =>
    if p.resv < 32 then
      some (p.addr, p.resv, k.setQueue n (q.modPage p.addr fun p => { p with resv := p.resv + 1 }))
    else k.openPage n q
  | none => k.openPage n q
/-- The address of position `i` of a page. -/
def rowAt (page i rowbytes : Nat) : Nat := page + 0x200 + i * rowbytes

/-- R305, R307: a row is written at its position, held at a page fault, or fails. -/
def State.placeRow (s : State) (c n : Nat) (q : RxQueue) (tag : Word) (bytes : List Byte) (page i : Nat) :
    State :=
  match s.engWrite c q.dom.toNat (rowAt page i q.rowbytes) bytes (fun _ => true) with
  | .ok _ s1 => s1.modCore c fun k =>
      match k.queueAt n with
      | some q => k.setQueue n (q.modPage page fun p => { p with rows := Tab.put p.rows i tag })
      | none => k
  | .wait p s1 => (s1.report c q.dom.toNat p).modCore c fun k =>
      ({ k with hold := k.hold ++ [(⟨n, tag, bytes, page, some i⟩ : HeldRow)] }).count 37 none q.dom.toNat 1
  | .fail _ s1 => (s1.rowFails q.dom tag).modCore c fun k =>
      match k.queueAt n with
      | some q => k.setQueue n (q.modPage page fun p => { p with excluded := true })
      | none => k

/-- The i-th packet's row waits in its receiving port, behind those that wait there (R305). -/
def State.portWait (s : State) (i : Nat) (p : Packet) : State :=
  if p.port.isSome then s
  else { s with net := s.net.set i { p with port := some s.nextId }, nextId := s.nextId + 1 }

/-- A row waits in the packet's receiving port before it (R305). -/
def State.portAhead (s : State) (p : Packet) : Bool :=
  s.net.any fun x => x.package == p.package && x.core == p.core && x.port.any fun n => p.port.all (n < ·)

/-- ROW_ARRIVAL (R302, R305): a row that the port cannot take waits there, and the rows behind it too. One for a queue
that is not its domain's any more fails (R24; log 22). -/
def execRowArrival (i : Nat) (s : State) : Out :=
  if !s.inTurn i then .next s
  else
    match s.takePkt i with
    | none => .next s
    | some (_, none) => .next (s.dropPkt i)
    | some (p, some s1) =>
      match p.kind with
      | .row n tag bytes =>
        let k := s1.core p.core
        if s.portAhead p || 8 ≤ k.hold.length then .next (s.portWait i p)
        else
          match k.queueAt n with
          | none => .next (s1.rowFails p.dom tag)
          | some q =>
            if q.dom ≠ p.dom ∨ q.ended ∨ q.rowbytes ≠ bytes.length ∨ k.hasQueue q.dom.toNat n = false then .next (s1.rowFails p.dom tag)
            else
              match k.reserve n q with
              | none => .next (s.portWait i p)
              | some (page, j, k') => .next ((s1.setCore p.core k').placeRow p.core n q tag bytes page j)
      | _ => .next s

/-- FAULT_HOLD_RESOLVE (R307): the held row is written, takes a new position, or fails. -/
def execFaultHoldResolve (c i : Nat) (supplied : Bool) (s : State) : Out :=
  let k := s.core c
  match k.hold[i]? with
  | none => .next s
  | some h =>
    match k.queueAt h.queue with
    | none => .next s
    | some q =>
      let gone := s.modCore c fun k => { k with hold := k.hold.eraseIdx i }
      let test := s.engWrite c q.dom.toNat (rowAt h.page (h.pos.getD 0) q.rowbytes) h.bytes (fun _ => false)
      match test, supplied with
      | .ok _ _, true =>
        match h.pos with
        | some j => .next (gone.placeRow c h.queue q h.tag h.bytes h.page j)
        | none =>
          match (gone.core c).reserve h.queue q with
          | none => .next s
          | some (page, j, k') => .next ((gone.setCore c k').placeRow c h.queue q h.tag h.bytes page j)
      | .fail _ s1, _ =>
        let s2 := s1.modCore c fun k => { k with hold := k.hold.eraseIdx i }
        let s3 := s2.rowFails q.dom h.tag
        if h.pos.isNone then .next s3
        else .next (s3.modCore c (·.setQueue h.queue (q.modPage h.page fun p => { p with excluded := true })))
      | _, _ => .next s

/-- The 512 header bytes of a page (R304). -/
def TokPage.header (p : TokPage) (next : Nat) (excluded : Bool) : List Byte :=
  let mask := (p.rows.map fun r => 2 ^ r.1).sum
  let n := p.rows.length
  let flags := (if n < 32 then 1 else 0) + (if p.eos then 2 else 0) + (if excluded then 4 else 0)
  leBytes 8 next ++ leBytes 4 mask ++ leBytes 4 (2 ^ p.resv - 1) ++ [BitVec.ofNat 8 n, BitVec.ofNat 8 flags]
    ++ List.replicate 46 0
    ++ ((List.range 32).flatMap fun i => leBytes 8 (Tab.get 0 p.rows i).toNat) ++ List.replicate 192 0

/-- The value of an RXTAKE of queue `n` is on its way to its register: the manual gives it no time (R402), but the order of
issue (R323). -/
def State.takeLater (s : State) (c n : Nat) (t : Target) (v : Word) : State :=
  s.modCore c (·.addFill { tid := t.tid, d := t.d, value := v, queue := some n })

/-- R323: waiting RXTAKEs fill in issue order, with successive handed pages, or with 0 at the end of the
stream. -/
def State.serveTakes (s : State) (c n : Nat) : Nat → State
  | 0 => s
  | fuel + 1 =>
    let k := s.core c
    match k.queueAt n with
    | none => s
    | some q =>
      match q.takes, q.handed with
      | t :: ts, p :: ps =>
        let size := (Tab.get {} k.pool q.dom.toNat).size
        let s := s.setCore c (k.setQueue n { q with takes := ts, handed := ps, taken := q.taken ++ [p] })
        ((s.flushRange c q.dom p.addr (p.addr + size) false).takeLater c n t (word p.addr)).serveTakes c n fuel
      | t :: ts, [] =>
        if q.ended && q.pages.isEmpty then
          ((s.setCore c (k.setQueue n { q with takes := ts })).takeLater c n t 0).serveTakes c n fuel
        else s
      | [], _ => s

/-- The waiting RXTAKEs of a queue are served. -/
def State.serve (s : State) (c n : Nat) : State :=
  s.serveTakes c n ((((s.core c).queueAt n).map (·.takes.length)).getD 0)

/-- R306: the queue's first page may be handed over. -/
def Core.handReady (k : Core) (n : Nat) (p : TokPage) : Bool :=
  p.late || p.eos || (p.resv == 32 && k.hold.all fun h => h.queue != n || h.page != p.addr || h.pos.isNone)

/-- R328: the header of the queue's first page cannot be written: every row reserved in the page fails, and
the page returns to the pool without being handed over. -/
def State.dropPage (s : State) (c n : Nat) (q : RxQueue) (p : TokPage) (rest : List TokPage) : State :=
  let inPage := fun (h : HeldRow) => h.queue == n && h.page == p.addr && h.pos.isSome
  let s1 := p.rows.foldl (fun s r => s.rowFails q.dom r.2) s
  let s2 := ((s.core c).hold.filter inPage).foldl (fun s h => s.rowFails q.dom h.tag) s1
  (s2.modCore c fun k =>
    let k := k.setQueue n { q with pages := rest }
    let d := q.dom.toNat
    let pool := Tab.get {} k.pool d
    { k with
      hold := k.hold.filter fun h => !inPage h
      pool := Tab.set {} k.pool d { pool with used := pool.used.filter (· != p.addr) } }).serve c n

/-- A held row whose page has been handed over: its position is excluded, and it keeps the page address from
which position 0 is the place that it could not be written to (R307). -/
def HeldRow.exclude (h : HeldRow) (rowbytes : Nat) : HeldRow :=
  { h with pos := none, page := h.page + h.pos.getD 0 * rowbytes }

/-- A held row can be written at its position now (R307, R328). -/
def State.holdFree (s : State) (c : Nat) (q : RxQueue) (h : HeldRow) : Bool :=
  match s.engWrite c q.dom.toNat (rowAt h.page (h.pos.getD 0) q.rowbytes) h.bytes (fun _ => false) with
  | .ok _ _ => true
  | .wait _ _ => false
  | .fail _ _ => false

/-- PAGE_HANDOVER (R306, R328): the tile walker writes the header and hands the page over; a held row of the page that
can be written is written first. -/
def execPageHandover (c n : Nat) (s : State) : Out :=
  let k := s.core c
  match k.queueAt n with
  | none => .next s
  | some q =>
    match q.pages with
    | [] => .next s
    | p :: rest =>
      if !k.handReady n p then .next s
      else
        let out := fun (h : HeldRow) => h.queue == n && h.page == p.addr && h.pos.isSome
        if k.hold.any fun h => out h && s.holdFree c q h then .next s else
        let ex := p.excluded || k.hold.any out
        let next := (rest.head?.map (·.addr)).getD 0
        let hand := fun (s : State) => (s.modCore c fun k =>
          let k := k.setQueue n { q with pages := rest, handed := q.handed ++ [p] }
          ({ k with hold := k.hold.map fun h => if out h then h.exclude q.rowbytes else h }).count 36 none
            q.dom.toNat 1).serve c n
        match s.engWrite c q.dom.toNat p.addr (p.header next ex) (fun _ => true) with
        | .ok _ s1 => .next (hand s1)
        | .wait pg s1 => .next (s1.report c q.dom.toNat pg)
        | .fail _ s1 => .next (s1.dropPage c n q p rest)

/-- QUEUE_TIMEOUT (R306). As a splice's, a timeout has its effect after the cycle in which it passes: a row or a final
end-of-stream token of that cycle comes first (R315). -/
def execQueueTimeout (c n : Nat) (s : State) : Out :=
  let k := s.core c
  match k.queueAt n with
  | none => .next s
  | some q =>
    match q.pages with
    | [] => .next s
    | p :: rest =>
      if q.timeout ≠ 0 ∧ p.since + q.timeout < k.cycle then
        .next (s.setCore c (k.setQueue n { q with pages := { p with late := true } :: rest }))
      else .next s

/-- The queue with its open page marked at the end of the stream (R308). -/
def RxQueue.finish (q : RxQueue) : RxQueue :=
  let pages := match q.pages.getLast? with
    | some p => q.pages.dropLast ++ [{ p with eos := true }]
    | none => []
  { q with ended := true, pages }

/-- EOS_ARRIVAL (R308): the token is counted, and its sender learns of it. One for a queue that is not bound, that is
another domain's or whose stream has ended is not counted, and is acknowledged with 0 too (log 27). -/
def execEosArrival (i : Nat) (s : State) : Out :=
  if !s.inTurn i then .next s
  else
    match s.takePkt i with
    | none => .next s
    | some (_, none) => .next (s.dropPkt i)
    | some (p, some s1) =>
      match p.kind with
      | .eos n t core =>
        let s2 := match (s1.core p.core).queueAt n with
          | some q =>
            if q.dom = p.dom ∧ !q.ended then
              let q := { q with eosCount := q.eosCount + 1 }
              let q := if q.senders ≠ 0 ∧ q.eosCount = q.senders then q.finish else q
              (s1.modCore p.core (·.setQueue n q)).serve p.core n
            else s1
          | none => s1
        .next (s2.sendPkt p.dom p.source core (.eosAck t))
      | _ => .next s

/-- CREDIT_RETURN (R297, R298): a credit above capacity is discarded. In a cycle in which a pair has gone without a credit of
the entry none arrives, since one that does is applied first (R315). -/
def execCreditReturn (i : Nat) (s : State) : Out :=
  match s.takePkt i with
  | none => .next s
  | some (_, none) => .next (s.dropPkt i)
  | some (p, some s1) =>
    match p.kind with
    | .credit e =>
      let w := (s1.core p.core).routeAt e
      if (s1.core p.core).starved.contains (e, (s1.core p.core).cycle) then .next s
      else if rtCredit w < rtCapacity w then .next (s1.modCore p.core (·.setCredit e (rtCredit w + 1)))
      else .next s1
    | _ => .next s

/-! ### Returns (R312, R319) -/

/-- R312: each column of the returned row is added into the output. -/
def State.addRow (s : State) (c : Nat) (p : Splice) (r : Nat) (w : BitVec 32) (rtype : Nat) (bytes : List Byte) :
    State :=
  let es := elSize rtype
  (List.range p.cols).foldl (fun s j =>
    let off := p.out + (r * p.cols + j) * 4
    if !(s.core c).ownsBank p.dom.toNat (off / 32768) then s else
    let old := BitVec.ofNat 32 (ofLe (s.rdStore c off 4))
    let v := FV.ofBits (fmtOf rtype) (blkF bytes (j * es) es)
    s.wrStore c off (leBytes 4 (toF32 0 0 ((f32 old).add ((f32 w).mul v))).toNat)) s

/-- The domain that holds splice table `n` of the core (R310). -/
def Core.spliceDom (k : Core) (n : Nat) : Option Nat := k.domains.find? fun d => k.present d && k.hasSplice d n

/-- R312: a return is applied to its slot: the new state and RTRET's code. -/
def State.applyReturn (s : State) (c : Nat) (dom : Byte) (tag : Word) (cols rtype : Nat) (bytes : List Byte)
    (fail : Bool) : State × Nat :=
  let k := s.core c
  let n := fld tag 18 4
  let r := fld tag 8 8
  let kk := fld tag 16 2
  let p := k.spliceAt n
  let sl := p.slot r kk
  let put := fun (p : Splice) (code : Nat) => (s.setCore c ((k.setSplice n p).count code none dom.toNat 1))
  if k.spliceDom n ≠ some dom.toNat then (s, 1)
  else if fld tag 0 8 ≠ p.gen ∨ (sl.status ≠ 1 ∧ sl.status ≠ 5) then (put { p with late := p.late + 1 } 35, 1)
  else if sl.status = 5 then (put { p.setStatus r kk 6 with late := p.late + 1 } 35, 1)
  else if fail then (put (p.setStatus r kk 4) 34, 4)
  else if cols ≠ p.cols ∨ rtype ≠ p.rtype then (put (p.setStatus r kk 4) 34, 2)
  else ((put (p.setStatus r kk 2) 34).addRow c p r sl.weight rtype bytes, 0)

/-- R210, R319: the port reads the row of the i-th packet, a return, once no earlier range holds the command back. A
row that does not come from another die's store makes it a fail notice (R373). -/
def State.readReturn (s : State) (i : Nat) (p : Packet) (x n : Nat) : State :=
  match p.kind with
  | .ret tag cols rtype _ fail (some t) c =>
    if (s.core c).rangeHeld t.id then s
    else
      match s.rowLost c p.dom.toNat x with
      | some s1 => { s1 with net := s1.net.set i { p with kind := .ret tag 0 0 [] true (some t) c, unread := none } }
      | none =>
        let kind := .ret tag cols rtype (s.rowBytes c p.dom.toNat x n) fail (some t) c
        { s with net := s.net.set i { p with kind, unread := none } }.countWin c p.dom.toNat (if inWin x then 1 else 0)
  | _ => s

/-- RETURN_APPLY (R312): the row of the return leaves its core, then the return is applied, and the sender of an
RTRET is answered. -/
def execReturnApply (i : Nat) (s : State) : Out :=
  match s.net[i]?.bind fun p => p.unread.map fun x => (p, x) with
  | some (p, x) => .next (s.readReturn i p x.1 x.2)
  | none =>
  let s := match s.net[i]? with
    | some p => s.expire p.core
    | none => s
  match s.takePkt i with
  | none => .next s
  | some (_, none) => .next (s.dropPkt i)
  | some (p, some s1) =>
    match p.kind with
    | .ret tag cols rtype bytes fail t core =>
      let (s2, code) := s1.applyReturn p.core p.dom tag cols rtype bytes fail
      match t with
      | some t => .next (s2.sendPkt p.dom p.source core (.retAck t code))
      | none => .next s2
    | _ => .next s

/-- The packet is the return of an RTRET (R319). -/
def Packet.isRet (p : Packet) (id : Nat) : Bool :=
  match p.kind with
  | .ret _ _ _ _ _ (some t) _ => t.id == id
  | _ => false

/-- RTRET_ACK (R319): the row's range entry is freed and d fills. A return to another package stands on the fabric
until then. -/
def execRtretAck (i : Nat) (s : State) : Out :=
  match s.takePkt i with
  | none => .next s
  | some (_, none) => .next (s.dropPkt i)
  | some (p, some s1) =>
    match p.kind with
    | .retAck t code =>
      let s1 := { s1 with net := s1.net.filter fun x => !x.isRet t.id }
      .next ((s1.modCore p.core (·.freeRanges t.id)).fillG p.core t.tid t.d (word code))
    | _ => .next s

/-- RXEOS_ACK (R325). -/
def execRxeosAck (i : Nat) (s : State) : Out :=
  match s.takePkt i with
  | none => .next s
  | some (_, none) => .next (s.dropPkt i)
  | some (p, some s1) =>
    match p.kind with
    | .eosAck t => .next (s1.fillG p.core t.tid t.d 0)
    | _ => .next s

/-- RTRET (R319). To a package that is unreachable nothing is sent: d fills with 3, and the row's entry is freed then. -/
def execRtret (x : FmtT) (s : State) : Out :=
  s.instr x.e x.w do
    waitDst x.d
    let fail := x.op.getLsbD 7
    let vs ← srcs (if fail then [x.b] else [x.a, x.b])
    let tag := vs.getLastD 0
    need (fld tag 59 5 == 0) 17 19
    let rtype := fld x.op 6 1
    let cols := 16 * (fld x.op 0 6 + 1)
    let t ← thread
    let me := (← get).cur
    let n := cols * elSize rtype
    let lost := (← get).down.contains (fld tag 32 19)
    if fail then
      afterAll
      if lost then sendFill x.d.toNat 3 false 0 else
      let tg ← targetOf x.d.toNat
      emptyG x.d.toNat
      modify fun s => s.sendPkt t.dom (fld tag 32 19) (fld tag 22 10) (.ret tag 0 0 [] true (some tg) me)
    else
      let (rc, off) ← storeCheck (arg vs 0).toNat n
      need (off % 32 == 0) 17 18
      waitFor ((← core).rangeRoom t.dom.toNat 1) 22
      afterAll
      let tg ← targetOf x.d.toNat
      emptyG x.d.toNat
      let lo := winAddr rc off
      modMe (·.addRanges tg [(lo, lo + n, false)])
      if lost then modMe fun k => k.addFill { tid := t.tid, d := x.d.toNat, value := 3, frees := some tg.id } else
      modify fun s => s.sendPkt t.dom (fld tag 32 19) (fld tag 22 10) (.ret tag cols rtype [] false (some tg) me)
        (some ((arg vs 0).toNat, n))

/-! ### RXBIND, RXTAKE, RXFREE and RXEOS (R322 to R325) -/

/-- Queues of a domain that are bound on the core. -/
def Core.boundOf (k : Core) (d : Nat) : Nat := (k.rxq.filter fun q => q.2.dom.toNat == d).length

/-- R322: the queue block is valid, and the pool suits it. -/
def Core.queueOk (k : Core) (d : Nat) (b : List Byte) : Bool :=
  let rb := blkF b 0 2
  let pool := Tab.get {} k.pool d
  32 ≤ rb && rb ≤ 2048 && rb % 32 == 0 && blkF b 8 24 == 0 && 512 + 32 * rb ≤ pool.size
    && 2 * (k.boundOf d + 1) ≤ pool.count

/-- RXBIND (R322). -/
def execRxbind (x : FmtT) (s : State) : Out :=
  s.instr x.e x.w do
    waitDst x.d
    let a ← src x.a
    let t ← thread
    let d := t.dom.toNat
    let n := x.id1.toNat
    let k ← core
    need t.resident 17 20
    need (k.hasQueue d n) 17 14
    need (k.queueAt n).isNone 17 15
    let bp ← threadStore a.toNat 32 32 17 18 false
    let some b ← blockAt x.d.toNat bp 32 | pure ()
    need (k.queueOk d b) 17 16
    let q : RxQueue := { dom := t.dom, tid := t.tid, rowbytes := blkF b 0 2, senders := blkF b 2 2, timeout := blkF b 4 4 }
    modMe (·.setQueue n q)
    write x.d (word (Tab.get {} k.pool d).freeCount)

/-- The queue, bound to the issuing thread (R323): sub-codes 14 and 15. -/
def queueOf (n : Nat) : M RxQueue := do
  let k ← core
  let t ← thread
  need (k.hasQueue t.dom.toNat n) 17 14
  match k.queueAt n with
  | some q => need (q.tid == t.tid) 17 15; return q
  | none => raise 17 15

/-- RXTAKE (R323). -/
def execRxtake (x : FmtT) (s : State) : Out :=
  s.instr x.e x.w do
    waitDst x.d
    let n := x.id1.toNat
    let q ← queueOf n
    let tg ← targetOf x.d.toNat
    emptyG x.d.toNat
    modMe (·.setQueue n { q with takes := q.takes ++ [tg] })
    modify fun s => s.serve s.cur n

/-- RXFREE (R324): the page returns to the pool, each of its rows returns a credit, and d fills (R402). -/
def execRxfree (x : FmtT) (s : State) : Out :=
  s.instr x.e x.w do
    waitDst x.d
    let a ← src x.a
    let n := x.id1.toNat
    let q ← queueOf n
    match q.taken.find? (·.addr == a.toNat) with
    | none => raise 17 21
    | some p =>
      let d := q.dom.toNat
      let pool := Tab.get {} (← core).pool d
      modify fun s => s.flushRange s.cur q.dom p.addr (p.addr + pool.size) false
      let taken := q.taken.filter (·.addr != p.addr)
      let used := pool.used.filter (· != p.addr)
      modMe fun k => { k.setQueue n { q with taken } with pool := Tab.set {} k.pool d { pool with used } }
      modify fun s => p.rows.foldl (fun s r => s.sendCredit q.dom r.2) s
      emptyG x.d.toNat
      modMe fun k => k.addFill { tid := q.tid, d := x.d.toNat, value := 0 }

/-- RXEOS (R325). -/
def execRxeos (x : FmtT) (s : State) : Out :=
  s.instr x.e x.w do
    waitDst x.d
    let t ← thread
    let e := x.id2.toNat * 16 + x.id1.toNat
    let w := (← core).routeAt e
    need (rtValid w && rtDom w == t.dom.toNat) 17 17
    if rtFailed w then sendFill x.d.toNat 1 false 0
    else
      let tg ← targetOf x.d.toNat
      emptyG x.d.toNat
      modify fun s => s.sendPkt t.dom (rtPackage w) (rtCore w) (.eos (rtQueue w) tg s.cur)

end Sys2Proof.Machine
end

