-- ==== Sys2Proof/Machine/Host.lean ====
section
/-! DEFINITION. The host's side (R383 to R400): code objects (R35 to R44) and their load, work queues and
completion records, launch completion (R79, R88, R388), the reset sequence, throttling, Limvon and CXL. -/

namespace Sys2Proof.Machine

/-! ### Code objects (R35 to R43) -/

/-- A check of a load: it passes, or the offset of the field that failed (R44). -/
abbrev Chk (α : Type) := Except Nat α

def must (b : Bool) (off : Nat) : Chk Unit := if b then .ok () else .error off

def zeroAt (b : List Byte) (o n : Nat) : Bool := ((b.drop o).take n).all (· == 0)

/-- A section: type, offset and size (R36), and where its table entry stands. -/
structure Section where
  ty : Nat
  off : Nat
  size : Nat
  ent : Nat
  deriving DecidableEq, Repr

/-- A cue set of an object (R37): number, selector, entries and the place of its header. -/
structure ObjSet where
  num : Nat
  selreg : Nat
  sello : Nat
  ents : List CueImg
  pos : Nat
  deriving DecidableEq, Repr

/-- What a load takes from an object; the places of the code's and the data's table entries. -/
structure CodeObj where
  strong : Bool
  codeOff : Nat
  codeEnt : Nat
  dataEnt : Nat
  code : List Byte
  data : List Byte
  sets : List ObjSet
  ft : List Byte
  pmap : List (Nat × BitVec 32 × BitVec 16 × Byte × Bool)
  deriving DecidableEq, Repr

/-- The header (R35, R42, R43): the offset of the section table and the number of sections. A total size that is not
the load record's fails at 0x18, and a section table that runs past the object at 0x10 (log 31). -/
def objHeader (b : List Byte) (size : Nat) : Chk (Nat × Nat) := do
  must (64 ≤ b.length && blkF b 0 4 == 0x4F435744) 0
  must (blkF b 4 2 == 64) 4
  must (3 ≤ blkF b 6 2 && blkF b 6 2 ≤ 7) 6
  must (blkF b 8 1 == 1) 8
  must (blkF b 9 1 ≤ 2) 9
  must (blkF b 10 1 == 1 || blkF b 10 1 == 2) 10
  must (zeroAt b 11 5) 11
  must (blkF b 16 8 + 24 * blkF b 6 2 ≤ size) 16
  must (blkF b 24 8 == size) 24
  must (zeroAt b 32 32) 32
  return (blkF b 16 8, blkF b 6 2)

/-- One entry of the section table (R36). -/
def objSection (b : List Byte) (total e : Nat) (before : List Section) : Chk Section := do
  let s : Section := ⟨blkF b e 4, blkF b (e + 8) 8, blkF b (e + 16) 8, e⟩
  must (1 ≤ s.ty && s.ty ≤ 7 && before.all fun x => x.ty != s.ty) e
  must (zeroAt b (e + 4) 4) (e + 4)
  let al := if s.ty = 1 then 8 else if s.ty = 2 then 32 else 1
  must (s.off % al == 0 && s.off + s.size ≤ total
    && before.all fun x => s.off + s.size ≤ x.off || x.off + x.size ≤ s.off || s.size == 0 || x.size == 0) (e + 8)
  must (s.size % al == 0) (e + 16)
  return s

/-- The section table (R36). -/
def objSections (b : List Byte) (total e : Nat) (before : List Section) : Nat → Chk (List Section)
  | 0 => .ok before
  | n + 1 => do
    let s ← objSection b total e before
    objSections b total (e + 24) (before ++ [s]) n

/-- The bytes of a section; empty where the object has none. -/
def sectionOf (b : List Byte) (ss : List Section) (ty : Nat) : List Byte × Nat :=
  match ss.find? (·.ty == ty) with
  | some s => ((b.drop s.off).take s.size, s.off)
  | none => ([], 0)

def imgOf (b : List Byte) (o : Nat) : CueImg := ⟨word (blkF b o 8), word (blkF b (o + 8) 8), BitVec.ofNat 128 (blkF b (o + 16) 16)⟩

/-- The cue sets of section 3 (R37), after those of the numbers `seen`. `p` is the section's place in the object. A
selector position above 48 is stored as 48 (R121). -/
def objSets (b : List Byte) (p o : Nat) (seen : List Nat) : Nat → Chk (List ObjSet)
  | 0 => .ok []
  | fuel + 1 =>
    if b.length ≤ o then .ok []
    else do
      let n := blkF b (o + 4) 2
      must (o + 16 ≤ b.length && blkF b o 1 < 64 && !seen.contains (blkF b o 1)) (p + o)
      must (blkF b (o + 1) 1 < 32) (p + o + 1)
      must (zeroAt b (o + 3) 1) (p + o + 3)
      must (1 ≤ n && o + 16 + 32 * n ≤ b.length) (p + o + 4)
      must (zeroAt b (o + 6) 10) (p + o + 6)
      let ents := (List.range n).map fun i => imgOf b (o + 16 + 32 * i)
      match firstIx n fun i => (decodeCue (imgOf b (o + 16 + 32 * i)).action).isNone with
      | some i => .error (p + o + 32 + 32 * i)
      | none => pure ()
      let rest ← objSets b p (o + 16 + 32 * n) (blkF b o 1 :: seen) fuel
      return ⟨blkF b o 1, blkF b (o + 1) 1, Nat.min (blkF b (o + 2) 1) 48, ents, p + o⟩ :: rest

/-- The used set fields of every action name sets of the object (R37, R129): the place of the first that does not, where
the load fails. R145 has such a failure for CUEW alone (log 31). -/
def setsNamed (sets : List ObjSet) (s : ObjSet) : Option Nat :=
  let known := fun n => sets.any fun x => x.num == n
  s.ents.zipIdx.findSome? fun (e, i) =>
    let kind := fld e.action 28 4
    let at_ := s.pos + 32 + 32 * i
    if usesNset kind && !known (fld e.action 56 8) then some (at_ + 7)
    else if usesRset kind && !known (fld e.action 48 8) then some (at_ + 6)
    else none

/-- The pre-emption map (R38), against the code's words: the first word of a shot is word 0 or one behind a word with
E = 1 (log 31). -/
def objPmap (b code : List Byte) (p : Nat) (prev : Option Nat) (o : Nat) : Nat →
    Chk (List (Nat × BitVec 32 × BitVec 16 × Byte × Bool))
  | 0 => .ok []
  | fuel + 1 =>
    if b.length ≤ o then .ok []
    else do
      let shot := blkF b o 4
      let first := shot == 0 || (word (blkF code (8 * (shot - 1)) 8)).getLsbD 63
      must (o + 16 ≤ b.length && prev.all (· < shot) && 8 * shot < code.length && first) (p + o)
      must (blkF b (o + 4) 4 % 2 == 0) (p + o + 4)
      must (blkF b (o + 11) 1 < 2) (p + o + 11)
      must (zeroAt b (o + 12) 4) (p + o + 12)
      let rest ← objPmap b code p (some shot) (o + 16) fuel
      return (shot, BitVec.ofNat 32 (blkF b (o + 4) 4), BitVec.ofNat 16 (blkF b (o + 8) 2),
        BitVec.ofNat 8 (blkF b (o + 10) 1), blkF b (o + 11) 1 == 1) :: rest

/-- The checks of R35 to R38, R40, R42 and R43 on an object of `size` bytes. A required section that is missing fails
at the section count, offset 6, and a section of entries that is no whole number of them fails too: R36 names neither
(log 31). -/
def objParse (b : List Byte) (size : Nat) : Chk CodeObj := do
  let (t, n) ← objHeader b size
  let ss ← objSections b size t [] n
  must ([1, 3, 6].all fun ty => ss.any (·.ty == ty)) 6
  let (code, codeOff) := sectionOf b ss 1
  let (cues, cuePos) := sectionOf b ss 3
  let (ft, _) := sectionOf b ss 4
  let (gates, gatePos) := sectionOf b ss 5
  let (pm, pmPos) := sectionOf b ss 6
  let (graph, graphPos) := sectionOf b ss 7
  let ent := fun ty => ((ss.find? (·.ty == ty)).map (·.ent)).getD 0
  let sets ← objSets cues cuePos 0 [] 65
  match sets.findSome? (setsNamed sets) with
  | some o => .error o
  | none => pure ()
  must (ft.length % 8 == 0) (ent 4 + 16)
  must (gates.length % 16 == 0) (ent 5 + 16)
  match firstIx (gates.length / 16) fun i => !zeroAt gates (16 * i + 10) 6 with
  | some i => .error (gatePos + 16 * i + 10)
  | none => pure ()
  let pmap ← objPmap pm code pmPos none 0 (pm.length + 1)
  must (!(ss.any (·.ty == 7)) || 16 + 16 * blkF graph 0 4 + 16 * blkF graph 4 4 ≤ graph.length) graphPos
  return { strong := blkF b 10 1 == 1, codeOff, codeEnt := ent 1, dataEnt := ent 2, code
           data := (sectionOf b ss 2).1, sets, ft, pmap }

/-! ### Placing an object (R37, R44, R134) -/

/-- A set fits at descriptor `cs` and first entry `base` of a core (R37, R120, R123). -/
def Core.setFits (k : Core) (d : Nat) (s : ObjSet) (cs base : Nat) : Bool :=
  let n := s.ents.length
  cs < 64 && (k.descOf cs).count == 0 && (k.desc.filter fun e => e.2.count != 0 && e.2.dom.toNat == d).length < k.cueQuota d
    && k.cueBase d ≤ base && base + n ≤ k.cueBase d + k.cueCount d
    && k.desc.all fun e => e.2.count == 0 || e.2.base + e.2.count ≤ base || base + n ≤ e.2.base

/-- One set written into a core (R37, R121, R122); `f` maps object numbers to core numbers. The entries' shadow copies are
cleared and count as never written, whatever an earlier set's CUEWs had left there (R148; log 43). -/
def Core.loadSet (k : Core) (d : Nat) (f : Nat → Nat) (s : ObjSet) (cs base : Nat) : Core :=
  let desc : CueDesc :=
    { dom := BitVec.ofNat 8 d, sello := s.sello, selreg := s.selreg, count := s.ents.length, base }
  { k with
    desc := Tab.set {} k.desc cs desc
    cue := s.ents.zipIdx.foldl (fun t e =>
      Tab.set {} t (base + e.2) { live := { e.1 with action := mapSets e.1.action f }, valid := true }) k.cue }

/-- The first entry of a set on a core at descriptor `cs`: the one that is preferred where it is free, else the lowest
run of free entries, which begins at the domain's first entry or behind a set. -/
def Core.firstEntry (k : Core) (d : Nat) (s : ObjSet) (cs : Nat) (want : Option Nat) : Option Nat :=
  let starts := k.cueBase d :: (k.desc.map fun e => e.2.base + e.2.count)
  (want.filter (k.setFits d s cs ·)).or (starts.filter (k.setFits d s cs ·)).min?

/-- A place of a set on every core of the load: its core number and its first entry on each. -/
abbrev Place := Nat × Tab Nat

/-- R37: the loader's place for a set, one core number for every core: the preferred one, else the lowest that is
free (log 31); none where no descriptor or no run of entries is. -/
def State.placeOf (s : State) (d : Nat) (cores : List Nat) (x : ObjSet) (want : Option Place) : Option Place :=
  ((want.map (·.1)).toList ++ List.range 64).findSome? fun cs =>
    (cores.mapM fun c =>
      ((s.core c).firstEntry d x cs ((want.bind fun w => w.2.find? (·.1 == c)).map (·.2))).map fun b => (c, b)).map
        fun bs => (cs, bs)

/-- The sets at their places on every core of the load; `f` maps object numbers to core numbers (R37). -/
def State.loadSetsOn (s : State) (d : Nat) (f : Nat → Nat) (cores : List Nat) (sets : List (ObjSet × Place)) : State :=
  cores.foldl (fun s c => s.modCore c fun k =>
    sets.foldl (fun k p => k.loadSet d f p.1 p.2.1 (Tab.get 0 p.2.2 c)) k) s

/-- R37: the places of an object's sets, in order, or the header of the first that fits nowhere. -/
def State.placeSets (s : State) (d : Nat) (cores : List Nat) : List (ObjSet × Option Place) → Chk (List (ObjSet × Place))
  | [] => .ok []
  | (x, want) :: r =>
    match s.placeOf d cores x want with
    | none => .error x.pos
    | some p => do
      let ps ← (s.loadSetsOn d id cores [(x, p)]).placeSets d cores r
      return (x, p) :: ps

/-- R134: the words of the code, and the bytes of the function table behind them. -/
def CodeObj.image (o : CodeObj) : List Byte := o.code ++ o.ft

/-- The launch context of an object (R43, R72, R134, R365). -/
def CodeObj.ctx (o : CodeObj) (dom : Byte) (seg : Vector Seg 8) (map : List (Nat × Nat)) (gb gn : Nat) : Ctx where
  dom
  seg
  setMap := map
  ftBase := o.code.length / 8
  ftCount := o.ft.length / 8
  strong := o.strong
  gateBase := gb
  gateCount := gn
  pmap := o.pmap

/-- Bytes written at device-virtual addresses of a domain; none where one has no translation to backed memory. -/
def State.loadBytes (s : State) (d va : Nat) : List Byte → Option State
  | [] => some s
  | b :: bs =>
    match (s.translate 0 d va 0).1 with
    | .ok pa => (s.wrPa d pa b).loadBytes d (va + 1) bs
    | _ => none

/-- R36, R134: bytes placed in a segment from offset `off` on; the load fails at the section's entry where they do not
lie in the segment, or its base and limit pass 2^52 (R252), or the domain has no memory there. -/
def State.loadSeg (s : State) (d : Nat) (g : Seg) (off : Nat) (bs : List Byte) (ent : Nat) : Chk State := do
  must (off + bs.length ≤ g.limit.toNat || bs.isEmpty) (ent + 16)
  match s.loadBytes d (g.base.toNat + off) bs with
  | some s1 => return s1
  | none => .error (ent + 8)

/-- R252: the loader keeps base + limit within the address space. -/
def segsOk (v : Vector Seg 8) : Bool := v.toList.all fun g => g.base.toNat + g.limit.toNat ≤ 2 ^ 52

/-- R35 to R44: an object is loaded for a domain as the plan prefers: the new context, or the failure. The code stands
where s0 points, and the data at offset `off` of s1. Segments of the plan that pass 2^52 fail the load at the code
section's entry (log 31). -/
def State.loadObject (s : State) (d : Nat) (o : CodeObj) (plan : LoadPlan) (off h : Nat) : Chk State := do
  must (segsOk plan.seg) o.codeEnt
  let seg := plan.seg.map fun g => { g with dom := BitVec.ofNat 8 d }
  let sets ← s.placeSets d plan.cores (o.sets.zipIdx.map fun x => (x.1, plan.sets[x.2]?))
  let map := sets.map fun p => (p.1.num, p.2.1)
  let f := fun n => ((map.find? (·.1 == n)).map (·.2)).getD 0
  let s1 := s.loadSetsOn d f plan.cores sets
  let s2 ← s1.loadSeg d (rd seg 0 {}) 0 o.image o.codeEnt
  let s3 ← s2.loadSeg d (rd seg 1 {}) off o.data o.dataEnt
  return { s3 with ctxs := s3.ctxs.put h (o.ctx (BitVec.ofNat 8 d) seg map plan.gateBase plan.gateCount) }

/-! ### Host work queues (R384 to R389) -/

/-- The entry of a queue. -/
def State.queuePa (s : State) (q : Nat) : Nat := s.qtab.toNat + 64 * q

/-- The fields of a queue's table entry. -/
structure HostQ where
  base : Nat
  /-- L, and the records that the rings hold. -/
  lg : Nat
  size : Nat
  dom : Nat
  enable : Bool
  irq : Bool
  head : Nat
  cbase : Nat
  done : Nat
  endpoint : Nat
  vector : Nat
  deriving DecidableEq, Repr

/-- R384: the entry; none where its must-be-zero bytes or L are invalid. -/
def State.hostQ (s : State) (q : Nat) : Option HostQ :=
  let b := s.rdRaw (s.queuePa q) 64
  let l := blkF b 8 1
  if 1 ≤ l && l ≤ 16 && blkF b 10 1 < 4 && zeroAt b 11 5 && blkF b 0x30 4 < 2 ^ 19 && zeroAt b 0x38 8 then
    some { base := blkF b 0 8, lg := l, size := 2 ^ l, dom := blkF b 9 1, enable := blkF b 10 1 % 2 == 1
           irq := blkF b 10 1 / 2 == 1, head := blkF b 0x18 8, cbase := blkF b 0x20 8, done := blkF b 0x28 8
           endpoint := blkF b 0x30 4, vector := blkF b 0x34 4 }
  else none

/-- The queue's table entry lies in backed memory. -/
def State.queueBacked (s : State) (q : Nat) : Bool := q < 8192 && s.backed (s.queuePa q) 64

/-- R388: the bytes of a completion record. An offset of 65,536 or more, which its two bytes do not hold, is reported modulo
2^16 (log 42). -/
def completionBytes (i code off handle units : Nat) (tag : Word) : List Byte :=
  leBytes 8 i ++ [BitVec.ofNat 8 code, 0] ++ leBytes 2 off ++ leBytes 4 handle ++ leBytes 4 units
    ++ leBytes 4 0 ++ leBytes 8 tag.toNat

/-- R388, R389: the completion record of record `i`, in the ring of 2^`lg` records at `base` that the entry named when
the record was taken (R390), then done, then the interrupt that the entry asks for. -/
def State.complete (s : State) (q i code off handle units : Nat) (tag : Word) (lg base : Nat) : Out :=
  let pa := base + 32 * (i % 2 ^ lg)
  if !s.backed pa 32 then .fault (.unbacked pa)
  else if !s.queueBacked q then .fault (.unbacked (s.queuePa q))
  else
    let s := s.wrRaw pa (completionBytes i code off handle units tag)
    let b := s.rdRaw (s.queuePa q) 64
    let done := (blkF b 0x28 8 + 1) % 2 ^ 64
    let s := s.wrWord (s.queuePa q + 0x28) (word done)
    if blkF b 10 1 / 2 % 2 = 1 then
      .next { s with irqs := s.irqs ++
        [(blkF b 0x30 4 % 2 ^ 19, word (q <<< 48 ||| (done % 65536) <<< 32 ||| blkF b 0x34 4))] }
    else .next s

/-- TAIL_WRITE (R385): a host writes a queue's tail. -/
def execTailWrite (q : Nat) (tail : Word) (s : State) : Out :=
  if !s.queueBacked q then .fault (.unbacked (s.queuePa q))
  else
    let s := s.wrWord (s.queuePa q + 0x10) tail
    .next { s with rereads := if q ∈ s.rereads then s.rereads else s.rereads ++ [q] }

/-- TAIL_REREAD (R385). An entry that is not valid takes nothing, and its tail is read once it is (R384). -/
def execTailReread (q : Nat) (s : State) : Out :=
  if q ∉ s.rereads then .next s
  else if !s.queueBacked q then .fault (.unbacked (s.queuePa q))
  else
      match s.hostQ q with
      | none => .next s
      | some e =>
        let s := { s with rereads := s.rereads.filter (· != q) }
        let tail := (s.rdWord (s.queuePa q + 0x10)).toNat
        if tail < e.head then .next s
        else if e.size < tail - e.head then
          let b := Tab.get 0 s.mem (s.queuePa q + 10)
          (s.wrRaw (s.queuePa q + 10) [b &&& 0xFE]).complete q e.head 5 0 0 0 0 e.lg e.cbase
        else .next { s with tails := Tab.set 0 s.tails q (word tail) }

/-- R385: the launch unit of the queue may take its next record: the entry and the record's index. -/
def State.takeReady (s : State) (q : Nat) : Option HostQ :=
  (s.hostQ q).filter fun e => s.queueBacked q && e.enable && e.head < (Tab.get 0 s.tails q).toNat
    && !s.quotaFull (q % 4) e.dom

/-- The address of the record at the head of a queue. -/
def HostQ.recordPa (e : HostQ) : Nat := e.base + 256 * (e.head % e.size)

/-- A launch of the queue has no completion record yet. -/
def State.outstanding (s : State) (q : Nat) : Bool :=
  s.launches.any fun l => match l.req with
    | .queue q' .. => q' == q
    | .thread .. => false

/-- The bytes of record `i` of a queue. -/
def State.recordOf (s : State) (e : HostQ) : List Byte := s.rdRaw e.recordPa 256

/-- R385: the record at the head may be taken now. -/
def State.recordReady (s : State) (q : Nat) (b : List Byte) : Bool := !((blkF b 0 1).testBit 6 && s.outstanding q)

/-- R385: head is raised. -/
def State.raiseHead (s : State) (q : Nat) (e : HostQ) : State := s.wrWord (s.queuePa q + 0x18) (word (e.head + 1))

/-- The first of the checks that fails: its offset. -/
def firstBad : List (Bool × Nat) → Option Nat
  | [] => none
  | (b, o) :: r => if b then firstBad r else some o

/-- R386: the first invalid field of a launch record of kind 0; an entry shot beyond the code and a set that
the context does not map are invalid (R71; log 32). -/
def launchBad (s : State) (d : Nat) (b : List Byte) : Option Nat :=
  let h := blkF b 8 4
  let x := s.ctx h
  let hnd := blkF b 0x10 4 != 0xFFFFFFFF
  firstBad [
    (blkF b 0 1 % 16 == 0 && blkF b 0 1 / 16 % 4 < 3 && blkF b 0 1 < 128, 0),
    (blkF b 1 1 < 16, 1), (zeroAt b 2 6, 2),
    (s.ctxs.any (fun e => e.1 == h) && x.dom.toNat == d, 8), (zeroAt b 0xC 4, 0xC),
    (blkF b 0x14 1 < 64 && (!hnd || (x.coreSet (blkF b 0x14 1)).isSome), 0x14), (zeroAt b 0x15 3, 0x15),
    (8 * blkF b 0x18 4 < (rd x.seg 0 {}).limit.toNat, 0x18),
    (blkF b 0x1C 1 < 64 && (x.coreSet (blkF b 0x1C 1)).isSome, 0x1C), (zeroAt b 0x1D 3, 0x1D),
    (blkF b 0x50 8 % 32 == 0 && s.backed (blkF b 0x50 8) (32 * (blkF b 1 1 + 1)), 0x50), (zeroAt b 0x60 160, 0x60)]

/-- A stage of a launch record (R387): dimensions, unit shape and cores. -/
abbrev Stage := (Nat × Nat × Nat) × (Nat × Nat × Nat) × List Nat

/-- R387: the i-th stage: its values, or the offset of its first invalid field. A dimension above 262,144, whose
origins R76 would have rejected at submission, is an invalid field (log 32). -/
def State.stageAt (s : State) (arr i : Nat) : Chk Stage := do
  let b := s.rdRaw (arr + 32 * i) 32
  let dim := fun o => 1 ≤ blkF b o 4 && blkF b o 4 ≤ 262144
  let o := 32 * i
  must (dim 0) o
  must (dim 4) (o + 4)
  must (dim 8) (o + 8)
  must (blkF b 12 1 != 0) (o + 12)
  must (blkF b 13 1 != 0) (o + 13)
  must (blkF b 14 1 != 0) (o + 14)
  must (zeroAt b 15 1) (o + 15)
  must (blkF b 16 8 % 2 == 0 && s.backed (blkF b 16 8) (2 * blkF b 0x18 2)) (o + 16)
  must (1 ≤ blkF b 0x18 2 && blkF b 0x18 2 ≤ 1024) (o + 0x18)
  must (zeroAt b 0x1A 6) (o + 0x1A)
  let n := blkF b 0x18 2
  let l := s.rdRaw (blkF b 16 8) (2 * n)
  let cores := (List.range n).map fun j => blkF l (2 * j) 2
  match firstIx n fun j => 1024 ≤ cores.getD j 0 || (j != 0 && cores.getD j 0 ≤ cores.getD (j - 1) 0) with
  | some j => .error (2 * j)
  | none => return ((blkF b 0 4, blkF b 4 4, blkF b 8 4), (blkF b 12 1, blkF b 13 1, blkF b 14 1), cores)

/-- The stages of a record, in order. -/
def State.stagesAt (s : State) (arr i : Nat) : Nat → Chk (List Stage)
  | 0 => .ok []
  | n + 1 => do
    let x ← s.stageAt arr i
    let r ← s.stagesAt arr (i + 1) n
    return x :: r

/-- Units of all stages that fall to core `c`. -/
def unitsOn (stages : List Stage) (c : Nat) : Nat :=
  (stages.map fun st => match st.2.2.findIdx? (· == c) with
    | some p => dealt (stageUnits st.1 st.2.1) st.2.2.length p
    | none => 0).sum

/-- R78, R387: the launch is rejected at submission. -/
def State.hostRejects (s : State) (d cls : Nat) (stages : List Stage) : Bool :=
  (stages.flatMap (·.2.2)).dedup.any fun c =>
    let n := unitsOn stages c
    n != 0 && (if cls = 2 then (s.core c).slotsOf d < n
      else (s.core c).slotsOf d == 0 || (s.core c).dequeShare d == 0)

/-- R386: a valid launch is submitted. -/
def State.submit (s : State) (q : Nat) (e : HostQ) (b : List Byte) (stages : List Stage) : State :=
  let d := e.dom
  let h := blkF b 8 4
  let x := s.ctx h
  let set := blkF b 0x14 1
  let hndl := word (blkF b 0x10 4 ||| (set % 64) <<< 32)
  let total := (stages.map fun st => stageUnits st.1 st.2.1).sum
  let (id, s) := s.fresh
  let l : Launch :=
    { id, die := q % 4, dom := BitVec.ofNat 8 d, cls := blkF b 0 1 / 16 % 4, scope := 5, ctx := h, hndl
      units := .host (BitVec.ofNat 32 (blkF b 0x18 4)) ((x.coreSet (blkF b 0x1C 1)).getD 0)
        ((List.range 6).map fun j => word (blkF b (0x20 + 8 * j) 8)) stages
      live := total, left := total, since := s.halfNs, req := .queue q e.head (word (blkF b 0x58 8)) e.lg e.cbase }
  ({ s with ctxs := s.ctxs.put h { x with hndl } }.addLaunch l).wakeSteals d

/-- LAUNCH_RECORD_TAKE (R385, R386, R387): the record at the head of a queue that is not of kind 1. -/
def execLaunchRecordTake (q : Nat) (s : State) : Out :=
  match s.takeReady q with
  | none => .next s
  | some e =>
    let b := s.recordOf e
    if !s.backed e.recordPa 256 then .fault (.unbacked e.recordPa)
    else if !s.recordReady q b || blkF b 0 1 % 16 == 1 then .next s
    else
      let i := e.head
      let s1 := s.raiseHead q e
      let tag := word (blkF b 0x58 8)
      match launchBad s e.dom b with
      | some o => s1.complete q i 3 o 0 0 tag e.lg e.cbase
      | none =>
        match s.stagesAt (blkF b 0x50 8) 0 (blkF b 1 1 + 1) with
        | .error o => s1.complete q i 3 o 0 0 tag e.lg e.cbase
        | .ok stages =>
          if s.hostRejects e.dom (blkF b 0 1 / 16 % 4) stages then s1.complete q i 2 0 0 0 tag e.lg e.cbase
          else .next (s1.submit q e b stages)

/-- The fields of R386's table that a record of kind 1 leaves zero: offset and bytes. -/
def loadZeros : List (Nat × Nat) :=
  [(1, 1), (2, 6), (0xC, 4), (0x10, 4), (0x14, 1), (0x15, 3), (0x18, 4), (0x1C, 1), (0x1D, 3), (0x20, 48)]

/-- The first invalid field of a record of kind 1 (R386, R388; log 32). -/
def loadBad (s : State) (b : List Byte) : Option Nat :=
  firstBad ((blkF b 0 1 == 1, 0) :: (loadZeros.map fun f => (zeroAt b f.1 f.2, f.1))
    ++ [(s.backed (blkF b 0x50 8) (blkF b 8 4), 0x50), (zeroAt b 0x58 8, 0x58), (zeroAt b 0x60 160, 0x60)])

/-- LOAD_RECORD_TAKE (R386, R35 to R44): domain 0 loads a code object for the queue's domain as its plan
says, extends the domain's measurement (R376) and builds the launch context. The load, the measurement and the completion
record come in the step of the take: the spec gives them no time (log 43). -/
def execLoadRecordTake (q : Nat) (s : State) : Out :=
  match s.takeReady q with
  | none => .next s
  | some e =>
    let b := s.recordOf e
    if !s.backed e.recordPa 256 then .fault (.unbacked e.recordPa)
    else if !s.recordReady q b || blkF b 0 1 % 16 != 1 then .next s
    else
      let i := e.head
      let s1 := s.raiseHead q e
      let tag := word (blkF b 0x58 8)
      match loadBad s b with
      | some o => s1.complete q i 3 o 0 0 tag e.lg e.cbase
      | none =>
        let size := blkF b 8 4
        let obj := s.rdRaw (blkF b 0x50 8) size
        match objParse obj size with
        | .error o => s1.complete q i 4 o 0 0 tag e.lg e.cbase
        | .ok o =>
          let (h, s2) := s1.fresh
          match s2.loadObject e.dom o s.loadPlan 0 h with
          | .error o => s1.complete q i 4 o 0 0 tag e.lg e.cbase
          | .ok s3 =>
            { s3 with meas := s3.meas.put e.dom (sha384 (s3.measOf e.dom ++ sha384 obj)) }.complete q i 0 0 h 0 tag
              e.lg e.cbase

/-! ### Launch completion (R79, R88, R388) -/

/-- R79: every unit and every spawned task of the launch has ended. -/
def Launch.over (l : Launch) : Bool := l.left == 0

/-- LAUNCH_COMPLETION (R79): the phase boundary at the launch's scope, a release on every core where a task may have run
(R283), then the requester learns of it. A core that no step has touched has nothing to release. -/
def execLaunchCompletion (id : Nat) (s : State) : Out :=
  match s.launch? id with
  | none => .next s
  | some l =>
    if !l.over then .next s
    else
      let s := { s with launches := s.launches.filter (·.id != id) }
      let s := (l.servers.filter fun c => s.cores.any (·.1 == c)).foldl (fun s c => s.release c l.dom.toNat l.scope) s
      match l.req with
      | .thread c t skipped =>
        .next ((s.acquire c t.dom l.scope).fillG c t.tid t.d
          (word ((if l.err then 256 else 0) ||| skipped <<< 16 ||| l.live <<< 32)))
      | .queue q i tag lg base => s.complete q i (if l.err then 1 else 0) 0 0 l.live tag lg base

/-! ### Reset (R397, R398) -/

/-- The places at which the boot ROM loads the firmware (R398): the sets at core numbers equal to their
object numbers, one after another from entry 0. -/
def bootSets : List ObjSet → Nat → List (Nat × Tab Nat)
  | [], _ => []
  | s :: r, base => (s.num, [(0, base)]) :: bootSets r (base + s.ents.length)

/-- The first 64 KiB boundary at or after an address. -/
def up64K (a : Nat) : Nat := (a + 65535) / 65536 * 65536

/-- R398: the place of the firmware's data section, and so its offset in s1. -/
def bootData (o : CodeObj) : Nat := up64K (o.codeOff + o.image.length)

/-- R398: the plan of the boot ROM. -/
def bootPlan (o : CodeObj) : LoadPlan :=
  let stack := up64K (bootData o + o.data.length)
  { cores := [0], sets := bootSets o.sets 0
    seg := #v[{ base := BitVec.ofNat 52 o.codeOff, limit := BitVec.ofNat 53 o.image.length, rights := 0b000101 },
      { rights := 0b111011, limit := 0x10_0000_0000_0000 }, {}, {}, {}, {}, {},
      { base := BitVec.ofNat 52 stack, rights := 0b000011, limit := 0x1_0000 }] }

/-- The package before step 4: what outlives a reset, and the cause that RSTINFO records. The CXL decoders hold
nothing until the firmware programs them (R393; log 34). -/
def State.cleared (s : State) (cause die : Nat) : State :=
  { State.reset with
    firmware := s.firmware, attestFails := s.attestFails, hbmFails := s.hbmFails, training := s.training, decoders := []
    net := s.net, irqs := s.irqs, announced := s.announced, loadPlan := s.loadPlan
    agenda := s.agenda, pred := s.pred, free := s.free
    pkgid := word (((fld s.pkgid 32 16 + 1) % 65536) <<< 32)
    rstinfo := word (cause ||| die <<< 8)
    fwMeas := if s.firmware.isEmpty then bootMeasurement else sha384 s.firmware }

/-- The package held in reset (R397): no thread stands on it. -/
def State.held (s : State) : State := { s with cores := [], ctxs := [], inReset := true }

/-- Step 5: the announcement (R392). -/
def State.announce (s : State) : State :=
  { s with announced := s.announced ++ [(fld s.pkgid 0 19, fld s.pkgid 32 16)] }

/-- R398: the firmware image is copied to physical address 0 and loaded. -/
def State.boot (s : State) : Chk State := do
  let o ← objParse s.firmware s.firmware.length
  let s1 ← (s.wrPas 0 0 s.firmware).loadObject 0 o (bootPlan o) (bootData o) 0
  let x := s1.ctx 0
  return (s1.modCore 0 fun k => k.modThread 0 fun t => { t with seg := x.seg, cset := (x.coreSet 0).getD 0 })

/-- R391: a Limvon port has trained, with 8 lanes or with 4; a CXL port, 18 to 25, with the lanes that its LINK field
can show (log 34). -/
def State.trained (s : State) (port lanes : Nat) : State :=
  if port < 18 && (lanes == 4 || lanes == 8) || 18 ≤ port && port < 26 && lanes != 0 then
    { s with
      link := wr s.link port (setFld (setFld (rd s.link port 0) 0 1 1) 1 4 lanes)
      cxlFailed := s.cxlFailed.filter (· != port) }
  else s

/-- R397, step 3: every Limvon and CXL port trains its lanes. A port that does not train stays down, which fails no
step (log 34). -/
def State.trainLinks (s : State) : State := (List.range 26).foldl (fun s p => s.trained p (rd s.training p 0)) s

/-- R397: the steps of the reset sequence, with the cause recorded where all succeed, and else the failing die, to which
three stacks each belong (R12, R383). -/
def State.resetSequence (s : State) (cause : Nat) : State :=
  match s.attestFails with
  | some die => (s.cleared 4 die.val).held
  | none =>
    match s.hbmFails with
    | some stack => (s.cleared 5 (stack.val / 3)).held
    | none =>
      match (s.cleared cause 0).trainLinks.boot with
      | .error _ => (s.cleared 6 0).trainLinks.held
      | .ok s1 => s1.announce

/-- POWER_ON_RESET (R397). -/
def execPowerOnReset (s : State) : Out := .next (s.resetSequence 1)

/-- HOST_RESET_REQUEST (R397). -/
def execHostResetRequest (s : State) : Out := .next (s.resetSequence 2)

/-! ### Throttling (R400) -/

/-- THROTTLE_START: the die runs at half rate. -/
def execThrottleStart (die : Nat) (s : State) : Out :=
  .next { s with throttle := wr s.throttle die 1, therm := wr s.therm die (setFld (rd s.therm die 0) 8 1 1) }

/-- THROTTLE_STEP: the rate is halved again, down to a quarter. -/
def execThrottleStep (die : Nat) (s : State) : Out :=
  .next { s with throttle := wr s.throttle die (if rd s.throttle die 0 = 0 then 0 else 2) }

/-- THROTTLE_END. -/
def execThrottleEnd (die : Nat) (s : State) : Out :=
  .next { s with throttle := wr s.throttle die 0, therm := wr s.therm die (setFld (rd s.therm die 0) 8 1 0) }

/-- THERMAL_TRIP: the package resets with cause 3, and THERM keeps that the die has tripped (log 17). -/
def execThermalTrip (die : Nat) (s : State) : Out :=
  let s1 := s.resetSequence 3
  .next { s1 with therm := wr s1.therm die (setFld (rd s1.therm die 0) 9 1 1) }

/-! ### Limvon and CXL (R286, R391, R393) -/

/-- Window bytes that stand in scratchpad banks of their core. -/
def State.winBacked (s : State) (ea n : Nat) : Bool :=
  inWin ea && inWin (ea + n - 1) && (blocks ea n).all fun b =>
    (blockLoc 0 b).any fun p => p.2 < 48 - (s.core p.1).lb

/-- LIMVON_ACCESS (R286, R383): a read changes nothing on the package. -/
def execLimvonAccess (req : LimvonReq) (s : State) : Out :=
  match req with
  | .readPhys pa n => if s.backed pa n then .next s else .fault (.unbacked pa)
  | .writePhys pa bs =>
    if s.backed pa bs.length then
      .next ((List.range bs.length).foldl (fun s i => s.noteTail (pa + i)) (s.wrRaw pa bs))
    else .fault (.unbacked pa)
  | .readWindow ea n => if s.winBacked ea n then .next s else .fault (.unbacked ea)
  | .writeWindow ea bs =>
    if s.winBacked ea bs.length then
      let p := storeLoc 0 ea
      .next (s.wrStore p.1 p.2 bs)
    else .fault (.unbacked ea)
  | .readReg _ _ => .next s

/-- R393: domain 0's firmware programs the decoders of a CXL port, 18 to 25, anew: those ranges of the second tier that it
names (R262; log 34). -/
def State.setDecoder (s : State) (port : Nat) (ranges : List Range) : State :=
  if 18 ≤ port && port ≤ 25 then
    let ok := ranges.filter fun r => 0x200000000000 ≤ r.1 && r.1 < r.2 && r.2 ≤ 0x280000000000
    { s with decoders := s.decoders.filter (fun r => r.2.2 != port) ++ ok.map fun r => (r.1, r.2, port) }
  else s

/-- FLIT_CRC_FAILURE (R391, R383): the retry is counted, saturating, for the Limvon ports and the CXL ports alike. -/
def execFlitCrcFailure (port : Nat) (s : State) : Out :=
  let w := rd s.link port 0
  .next (if port < 26 then
    { s with link := wr s.link port (setFld w 32 32 (Nat.min (fld w 32 32 + 1) 0xFFFFFFFF)) } else s)

/-- CXL_LINK_FAILURE (R393): the device's pages, those of a decoder that is programmed later included, answer as
uncorrectable data errors until the link trains again; the port, 18 to 25, is down. -/
def execCxlLinkFailure (port : Nat) (s : State) : Out :=
  .next { s with
    cxlFailed := if s.cxlFailed.contains port then s.cxlFailed else port :: s.cxlFailed
    link := wr s.link port (setFld (rd s.link port 0) 0 5 0) }

end Sys2Proof.Machine
end

