-- ==== Sys2Proof/Machine/Scalar.lean ====
section
/-! DEFINITION. The scalar instructions: class 0 (R112 to R114), class 1 (R116), the counters (R117,
R118) and NOP (R60). -/

namespace Sys2Proof.Machine

/-! ### The values of R112 to R114 -/

def aluMulh (a b : Word) : Word := BitVec.ofInt 64 ((a.toInt * b.toInt) / 2 ^ 64)
def aluMulhn (a b : Word) : Word := word ((a.toNat * b.toNat) / 2 ^ 64)

/-- R113: the quotient truncated toward zero; B = 0 gives all ones, -2^63 / -1 gives -2^63. -/
def aluDiv (a b : Word) : Word := if b = 0 then BitVec.allOnes 64 else BitVec.ofInt 64 (a.toInt.tdiv b.toInt)
def aluDivn (a b : Word) : Word := if b = 0 then BitVec.allOnes 64 else word (a.toNat / b.toNat)
def aluRem (a b : Word) : Word := if b = 0 then a else BitVec.ofInt 64 (a.toInt.tmod b.toInt)
def aluRemn (a b : Word) : Word := if b = 0 then a else word (a.toNat % b.toNat)

/-- The shift or rotate amount B[5:0]. -/
def amt (b : Word) : Nat := fld b 0 6

def aluShl (a b : Word) : Word := a <<< amt b
def aluShr (a b : Word) : Word := a >>> amt b
def aluSar (a b : Word) : Word := a.sshiftRight (amt b)
def aluRol (a b : Word) : Word := a.rotateLeft (amt b)
def aluRor (a b : Word) : Word := a.rotateRight (amt b)
def aluMin (a b : Word) : Word := if a.slt b then a else b
def aluMax (a b : Word) : Word := if a.slt b then b else a
def aluMinn (a b : Word) : Word := if a.ult b then a else b
def aluMaxn (a b : Word) : Word := if a.ult b then b else a

/-- The bits of a word, the lowest first. -/
def bitsOf {n : Nat} (a : BitVec n) : List Bool := (List.range n).map a.getLsbD

/-- Leading and trailing zero bits and one bits of a vector of bits. -/
def clzOf {n : Nat} (a : BitVec n) : Nat := ((bitsOf a).reverse.takeWhile (!·)).length
def ctzOf {n : Nat} (a : BitVec n) : Nat := ((bitsOf a).takeWhile (!·)).length
def popOf {n : Nat} (a : BitVec n) : Nat := (bitsOf a).countP id

def aluClz (a : Word) : Word := word (clzOf a)
def aluCtz (a : Word) : Word := word (ctzOf a)
def aluPopc (a : Word) : Word := word (popOf a)
def aluBswap (a : Word) : Word := word (ofLe (leBytes 8 a.toNat).reverse)

/-- R114. -/
def aluExtr (a b c : Word) : Word :=
  (a >>> amt b) &&& word (2 ^ Nat.min c.toNat 64 - 1)
def aluIns (a b c old : Word) : Word :=
  let m : Word := word (2 ^ Nat.min c.toNat 64 - 1) <<< amt b
  (old &&& ~~~m) ||| ((a <<< amt b) &&& m)

/-! ### Shapes -/

/-- Two sources and a scalar result (R111). -/
def alu2 (x : FmtA) (f : Word → Word → Word) : M Unit := do
  waitDst x.d
  let vs ← srcs [x.a, x.b]
  write x.d (f (arg vs 0) (arg vs 1))

def alu1 (x : FmtA) (f : Word → Word) : M Unit := do
  waitDst x.d
  let vs ← srcs [x.a]
  write x.d (f (arg vs 0))

def alu3 (x : FmtA) (f : Word → Word → Word → Word) : M Unit := do
  waitDst x.d
  let vs ← srcs [x.a, x.b, x.c]
  write x.d (f (arg vs 0) (arg vs 1) (arg vs 2))

/-- One source, an immediate and a scalar result (R116). -/
def aluImm (x : FmtB) (f : Word → Word) : M Unit := do
  waitDst x.d
  let vs ← srcs [x.a]
  write x.d (f (arg vs 0))

/-- SExt(imm32, 64) and ZExt(imm32, 64) (R116). -/
def immS (x : FmtB) : Word := x.imm.signExtend 64
def immZ (x : FmtB) : Word := x.imm.setWidth 64

/-- The condition of CMPI and CMPNI: d[2:0] (R116). -/
def condB (x : FmtB) : BitVec 3 := x.d.extractLsb' 0 3

/-! ### The instructions -/

/-- ADD (R112). -/
def execAdd (x : FmtA) (s : State) : Host.Outcome State Fault Refusal :=
  s.instr x.e x.w (alu2 x ((· + ·)))

/-- SUB (R112). -/
def execSub (x : FmtA) (s : State) : Host.Outcome State Fault Refusal :=
  s.instr x.e x.w (alu2 x ((· - ·)))

/-- MUL (R112). -/
def execMul (x : FmtA) (s : State) : Host.Outcome State Fault Refusal :=
  s.instr x.e x.w (alu2 x ((· * ·)))

/-- MULH (R112). -/
def execMulh (x : FmtA) (s : State) : Host.Outcome State Fault Refusal :=
  s.instr x.e x.w (alu2 x (aluMulh))

/-- MULHN (R112). -/
def execMulhn (x : FmtA) (s : State) : Host.Outcome State Fault Refusal :=
  s.instr x.e x.w (alu2 x (aluMulhn))

/-- DIV (R113). -/
def execDiv (x : FmtA) (s : State) : Host.Outcome State Fault Refusal :=
  s.instr x.e x.w (alu2 x (aluDiv))

/-- DIVN (R113). -/
def execDivn (x : FmtA) (s : State) : Host.Outcome State Fault Refusal :=
  s.instr x.e x.w (alu2 x (aluDivn))

/-- REM (R113). -/
def execRem (x : FmtA) (s : State) : Host.Outcome State Fault Refusal :=
  s.instr x.e x.w (alu2 x (aluRem))

/-- REMN (R113). -/
def execRemn (x : FmtA) (s : State) : Host.Outcome State Fault Refusal :=
  s.instr x.e x.w (alu2 x (aluRemn))

/-- AND (R112). -/
def execAnd (x : FmtA) (s : State) : Host.Outcome State Fault Refusal :=
  s.instr x.e x.w (alu2 x ((· &&& ·)))

/-- OR (R112). -/
def execOr (x : FmtA) (s : State) : Host.Outcome State Fault Refusal :=
  s.instr x.e x.w (alu2 x ((· ||| ·)))

/-- XOR (R112). -/
def execXor (x : FmtA) (s : State) : Host.Outcome State Fault Refusal :=
  s.instr x.e x.w (alu2 x ((· ^^^ ·)))

/-- ANDN (R112). -/
def execAndn (x : FmtA) (s : State) : Host.Outcome State Fault Refusal :=
  s.instr x.e x.w (alu2 x (fun a b => a &&& ~~~b))

/-- ORN (R112). -/
def execOrn (x : FmtA) (s : State) : Host.Outcome State Fault Refusal :=
  s.instr x.e x.w (alu2 x (fun a b => a ||| ~~~b))

/-- SHL (R112). -/
def execShl (x : FmtA) (s : State) : Host.Outcome State Fault Refusal :=
  s.instr x.e x.w (alu2 x (aluShl))

/-- SHR (R112). -/
def execShr (x : FmtA) (s : State) : Host.Outcome State Fault Refusal :=
  s.instr x.e x.w (alu2 x (aluShr))

/-- SAR (R112). -/
def execSar (x : FmtA) (s : State) : Host.Outcome State Fault Refusal :=
  s.instr x.e x.w (alu2 x (aluSar))

/-- ROL (R112). -/
def execRol (x : FmtA) (s : State) : Host.Outcome State Fault Refusal :=
  s.instr x.e x.w (alu2 x (aluRol))

/-- ROR (R112). -/
def execRor (x : FmtA) (s : State) : Host.Outcome State Fault Refusal :=
  s.instr x.e x.w (alu2 x (aluRor))

/-- MIN (R112). -/
def execMin (x : FmtA) (s : State) : Host.Outcome State Fault Refusal :=
  s.instr x.e x.w (alu2 x (aluMin))

/-- MAX (R112). -/
def execMax (x : FmtA) (s : State) : Host.Outcome State Fault Refusal :=
  s.instr x.e x.w (alu2 x (aluMax))

/-- MINN (R112). -/
def execMinn (x : FmtA) (s : State) : Host.Outcome State Fault Refusal :=
  s.instr x.e x.w (alu2 x (aluMinn))

/-- MAXN (R112). -/
def execMaxn (x : FmtA) (s : State) : Host.Outcome State Fault Refusal :=
  s.instr x.e x.w (alu2 x (aluMaxn))

/-- CLZ (R112). -/
def execClz (x : FmtA) (s : State) : Host.Outcome State Fault Refusal :=
  s.instr x.e x.w (alu1 x aluClz)

/-- CTZ (R112). -/
def execCtz (x : FmtA) (s : State) : Host.Outcome State Fault Refusal :=
  s.instr x.e x.w (alu1 x aluCtz)

/-- POPC (R112). -/
def execPopc (x : FmtA) (s : State) : Host.Outcome State Fault Refusal :=
  s.instr x.e x.w (alu1 x aluPopc)

/-- BSWAP (R112). -/
def execBswap (x : FmtA) (s : State) : Host.Outcome State Fault Refusal :=
  s.instr x.e x.w (alu1 x aluBswap)

/-- EXTR (R112, R114). -/
def execExtr (x : FmtA) (s : State) : Host.Outcome State Fault Refusal :=
  s.instr x.e x.w (alu3 x (aluExtr))

/-- MADD (R112, R114). -/
def execMadd (x : FmtA) (s : State) : Host.Outcome State Fault Refusal :=
  s.instr x.e x.w (alu3 x (fun a b c => a * b + c))

/-- INS (R114): d is read after c, and waits while empty (R97). -/
def execIns (x : FmtA) (s : State) : Host.Outcome State Fault Refusal :=
  s.instr x.e x.w do
    waitDst x.d
    let vs ← srcs [x.a, x.b, x.c, x.d]
    write x.d (aluIns (arg vs 0) (arg vs 1) (arg vs 2) (arg vs 3))

/-- SEL (R112). -/
def execSel (x : FmtA) (s : State) : Host.Outcome State Fault Refusal :=
  s.instr x.e x.w (alu2 x (if s.thread.flag x.flag.toNat then fun a _ => a else fun _ b => b))

/-- CMP (R112): signed. -/
def execCmp (x : FmtA) (s : State) : Host.Outcome State Fault Refusal :=
  s.instr x.e x.w do
    let vs ← srcs [x.a, x.b]
    setFlag x.flag (condS x.cond (arg vs 0) (arg vs 1))

/-- CMPN (R112): unsigned. -/
def execCmpn (x : FmtA) (s : State) : Host.Outcome State Fault Refusal :=
  s.instr x.e x.w do
    let vs ← srcs [x.a, x.b]
    setFlag x.flag (condU x.cond (arg vs 0) (arg vs 1))

/-- TST (R112). -/
def execTst (x : FmtA) (s : State) : Host.Outcome State Fault Refusal :=
  s.instr x.e x.w do
    let vs ← srcs [x.a, x.b]
    setFlag x.flag (arg vs 0 &&& arg vs 1 != 0)

/-- FLAGR (R112). -/
def execFlagr (x : FmtA) (s : State) : Host.Outcome State Fault Refusal :=
  s.instr x.e x.w do
    waitDst x.d
    write x.d ((← thread).f.setWidth 64)

/-- FLAGW (R112). -/
def execFlagw (x : FmtA) (s : State) : Host.Outcome State Fault Refusal :=
  s.instr x.e x.w do
    let vs ← srcs [x.a]
    modThread fun t => { t with f := (arg vs 0).setWidth 8 }

/-- ADDI (R116). -/
def execAddi (x : FmtB) (s : State) : Host.Outcome State Fault Refusal :=
  s.instr x.e x.w (aluImm x ((· + immS x)))

/-- ANDI (R116). -/
def execAndi (x : FmtB) (s : State) : Host.Outcome State Fault Refusal :=
  s.instr x.e x.w (aluImm x ((· &&& (immZ x))))

/-- ORI (R116). -/
def execOri (x : FmtB) (s : State) : Host.Outcome State Fault Refusal :=
  s.instr x.e x.w (aluImm x ((· ||| (immZ x))))

/-- XORI (R116). -/
def execXori (x : FmtB) (s : State) : Host.Outcome State Fault Refusal :=
  s.instr x.e x.w (aluImm x ((· ^^^ (immZ x))))

/-- SHLI (R116). -/
def execShli (x : FmtB) (s : State) : Host.Outcome State Fault Refusal :=
  s.instr x.e x.w (aluImm x ((aluShl · (immZ x))))

/-- SHRI (R116). -/
def execShri (x : FmtB) (s : State) : Host.Outcome State Fault Refusal :=
  s.instr x.e x.w (aluImm x ((aluShr · (immZ x))))

/-- SARI (R116). -/
def execSari (x : FmtB) (s : State) : Host.Outcome State Fault Refusal :=
  s.instr x.e x.w (aluImm x ((aluSar · (immZ x))))

/-- MULI (R116). -/
def execMuli (x : FmtB) (s : State) : Host.Outcome State Fault Refusal :=
  s.instr x.e x.w (aluImm x ((· * (immS x))))

/-- LDIH (R116). -/
def execLdih (x : FmtB) (s : State) : Host.Outcome State Fault Refusal :=
  s.instr x.e x.w (aluImm x (fun a => (a &&& 0xFFFFFFFF) ||| (immZ x) <<< 32))

/-- LDI (R116). -/
def execLdi (x : FmtB) (s : State) : Host.Outcome State Fault Refusal :=
  s.instr x.e x.w do
    waitDst x.d
    write x.d (immS x)

/-- CMPI (R116). -/
def execCmpi (x : FmtB) (s : State) : Host.Outcome State Fault Refusal :=
  s.instr x.e x.w do
    let vs ← srcs [x.a]
    setFlag x.flag (condS (condB x) (arg vs 0) (immS x))

/-- CMPNI (R116). -/
def execCmpni (x : FmtB) (s : State) : Host.Outcome State Fault Refusal :=
  s.instr x.e x.w do
    let vs ← srcs [x.a]
    setFlag x.flag (condU (condB x) (arg vs 0) (immZ x))

/-- TSTI (R116). -/
def execTsti (x : FmtB) (s : State) : Host.Outcome State Fault Refusal :=
  s.instr x.e x.w do
    let vs ← srcs [x.a]
    setFlag x.flag (arg vs 0 &&& (immZ x) != 0)

/-- NOP (R60): does nothing. -/
def execNop (x : FmtS) (s : State) : Host.Outcome State Fault Refusal :=
  s.instr x.e x.w (pure ())

/-- The counter that the op-specific bits [1:0] name (R117, R118). -/
def cntN (x : FmtS) : Nat := (x.op.extractLsb' 0 2).toNat

/-- CNTW (R117). -/
def execCntw (x : FmtS) (s : State) : Host.Outcome State Fault Refusal :=
  s.instr x.e x.w do
    let vs ← srcs [x.a]
    modThread fun t => { t with c := wr t.c (cntN x) ((arg vs 0 + x.imm.setWidth 64).setWidth 32) }

/-- CNTR (R118). -/
def execCntr (x : FmtS) (s : State) : Host.Outcome State Fault Refusal :=
  s.instr x.e x.w do
    waitDst x.d
    write x.d ((rd (← thread).c (cntN x) 0).setWidth 64)

end Sys2Proof.Machine
end

