-- ==== Sys2Proof/Machine/Vector.lean ====
section
/-! DEFINITION. The vector unit: the instructions of class 3 (R170 to R197). -/

namespace Sys2Proof.Machine

/-! ### Elements (R172, R175, R178) -/

/-- Bits of an integer type, and whether it is signed: i32 6, n32 7, i16 8, n16 9, i8 10, n8 11. -/
def intW (ty : Nat) : Nat := if ty < 8 then 32 else if ty < 10 then 16 else 8
def intSigned (ty : Nat) : Bool := ty % 2 == 0
def isF (ty : Nat) : Bool := ty < 3

def intLo (ty : Nat) : Int := if intSigned ty then -(2 ^ (intW ty - 1) : Nat) else 0
def intHi (ty : Nat) : Int := if intSigned ty then (2 ^ (intW ty - 1) : Nat) - 1 else (2 ^ intW ty : Nat) - 1

/-- A lane read as an F type, and as an I type. -/
def elemF (ty : Nat) (x : BitVec 32) : FV := .ofBits (fmtOf ty) x.toNat
def elemI (ty : Nat) (x : BitVec 32) : Int :=
  let b := BitVec.ofNat (intW ty) x.toNat
  if intSigned ty then b.toInt else b.toNat

/-- The whole lane that an element of an I type writes: the low bits, filled by R172. -/
def laneI (ty : Nat) (i : Int) : BitVec 32 :=
  let b := BitVec.ofInt (intW ty) i
  if intSigned ty then b.signExtend 32 else b.setWidth 32

/-- The whole lane that an element of an F type writes. -/
def laneF (ty mode r : Nat) (v : FV) : BitVec 32 := BitVec.ofNat 32 (v.round (fmtOf ty) mode r)

/-- SAT to the range of an I type. -/
def clampI (ty : Nat) (i : Int) : Int := max (intLo ty) (min (intHi ty) i)

/-- The integer result reduced, or clamped with sat (R181, R183). -/
def intRes (ty : Nat) (sat : Bool) (i : Int) : BitVec 32 := laneI ty (if sat then clampI ty i else i)

/-- What a masked lane-by-lane instruction reads (R174, R175). -/
structure VIn where
  a : BitVec 2048 := 0
  b : BitVec 2048 := 0
  c : BitVec 2048 := 0
  m : BitVec 64 := BitVec.allOnes 64
  deriving DecidableEq, Repr

def VIn.la (v : VIn) (i : Nat) : BitVec 32 := lane v.a i
def VIn.lb (v : VIn) (i : Nat) : BitVec 32 := lane v.b i
def VIn.lc (v : VIn) (i : Nat) : BitVec 32 := lane v.c i

/-- The enabling mask: all lanes when mask enable is 0. -/
def maskIn (x : FmtV) : M (BitVec 64) :=
  if x.me then readM x.mask.toNat else pure (BitVec.allOnes 64)

/-- Reads va, vb (a register, or a scalar in every lane), vc and the mask; the destination is checked
for a pending result before the instruction waits on a scalar (R108, R335). -/
def vin (x : FmtV) (useA useB useC : Bool) (dst : Option Nat) : M VIn := do
  match dst with
  | some r => checkPend r
  | none => pure ()
  let a ← if useA then readV x.va else pure 0
  let b ← if useB && !x.sc then readV x.vb else pure 0
  let c ← if useC then readV x.vc else pure 0
  let m ← maskIn x
  if useB && x.sc then
    let s ← src x.vb
    return { a, b := ofLanes (List.replicate 64 (s.setWidth 32)), c, m }
  return { a, b, c, m }

/-- Lane by lane: `f i` is lane i of the result; masked lanes are kept (R174). -/
def vmap (x : FmtV) (wmin : Nat) (m : BitVec 64) (f : Nat → BitVec 32) : M Unit :=
  result wmin x.vd.toNat (ofLanes ((List.range 64).map f))
    (if x.me then laneBits m else BitVec.allOnes 2048)

/-- A result of an F type per lane, rounded once under the mode in effect, with one draw per lane. -/
def vmapF (x : FmtV) (ty wmin : Nat) (m : BitVec 64) (f : Nat → FV) : M Unit := do
  let mode ← modeOf x.rnd.toNat
  let rs ← draws mode 64
  vmap x wmin m fun i => laneF ty mode (rs.getD i 0) (f i)




/-- VADD, VSUB, VMUL (R181). -/
def varith (x : FmtV) (f : FV → FV → FV) (g : Int → Int → Int) : M Unit := do
  let v ← vin x true true false (some x.vd.toNat)
  if isF x.ty.toNat then
    vmapF x x.ty.toNat 1 v.m fun i => f (elemF x.ty.toNat (v.la i)) (elemF x.ty.toNat (v.lb i))
  else
    vmap x 1 v.m fun i => intRes x.ty.toNat (x.op.getLsbD 0)
      (g (elemI x.ty.toNat (v.la i)) (elemI x.ty.toNat (v.lb i)))

/-- VADD (R181). -/
def execVadd (x : FmtV) (s : State) : Host.Outcome State Fault Refusal :=
  s.instr x.e x.w (varith x FV.add (· + ·))

/-- VSUB (R181). -/
def execVsub (x : FmtV) (s : State) : Host.Outcome State Fault Refusal :=
  s.instr x.e x.w (varith x FV.sub (· - ·))

/-- VMUL (R181). -/
def execVmul (x : FmtV) (s : State) : Host.Outcome State Fault Refusal :=
  s.instr x.e x.w (varith x FV.mul (· * ·))

/-- VFMA, VFMS, VFNMA (R182). -/
def vfused (x : FmtV) (f : FV → FV → FV → FV) : M Unit := do
  let v ← vin x true true true (some x.vd.toNat)
  let ty := x.ty.toNat
  vmapF x ty 2 v.m fun i => f (elemF ty (v.la i)) (elemF ty (v.lb i)) (elemF ty (v.lc i))

/-- VFMA (R182). -/
def execVfma (x : FmtV) (s : State) : Host.Outcome State Fault Refusal :=
  s.instr x.e x.w (vfused x fun a b c => (a.mul b).add c)

/-- VFMS (R182). -/
def execVfms (x : FmtV) (s : State) : Host.Outcome State Fault Refusal :=
  s.instr x.e x.w (vfused x fun a b c => (a.mul b).sub c)

/-- VFNMA (R182). -/
def execVfnma (x : FmtV) (s : State) : Host.Outcome State Fault Refusal :=
  s.instr x.e x.w (vfused x fun a b c => (a.mul b).neg.add c)

/-- a below b, with −0 below +0 (R168, R181). -/
def FV.below (a b : FV) : Bool := a.lt b || (!b.lt a && a.isNeg && !b.isNeg)

/-- The lane of the lesser or greater element (R181): a NaN gives the canonical NaN. -/
def minmaxLane (ty : Nat) (greater : Bool) (a b : BitVec 32) : BitVec 32 :=
  if isF ty then
    let x := elemF ty a
    let y := elemF ty b
    if x.isNan || y.isNan then laneF ty 0 0 .nan
    else laneF ty 0 0 (if x.below y != greater then x else y)
  else
    let x := elemI ty a
    let y := elemI ty b
    laneI ty (if decide (x < y) != greater then x else y)

/-- VMIN (R181). -/
def execVmin (x : FmtV) (s : State) : Host.Outcome State Fault Refusal :=
  s.instr x.e x.w do
    let v ← vin x true true false (some x.vd.toNat)
    vmap x 1 v.m fun i => minmaxLane x.ty.toNat false (v.la i) (v.lb i)

/-- VMAX (R181). -/
def execVmax (x : FmtV) (s : State) : Host.Outcome State Fault Refusal :=
  s.instr x.e x.w do
    let v ← vin x true true false (some x.vd.toNat)
    vmap x 1 v.m fun i => minmaxLane x.ty.toNat true (v.la i) (v.lb i)

/-- VABS and VNEG (R183). -/
def vsign (x : FmtV) (f : FV → FV) (g : Int → Int) : M Unit := do
  let v ← vin x true false false (some x.vd.toNat)
  let ty := x.ty.toNat
  vmap x 0 v.m fun i =>
    if isF ty then laneF ty 0 0 (f (elemF ty (v.la i)))
    else intRes ty (x.op.getLsbD 0) (g (elemI ty (v.la i)))

/-- VABS (R183). -/
def execVabs (x : FmtV) (s : State) : Host.Outcome State Fault Refusal :=
  s.instr x.e x.w (vsign x FV.abs fun i => i.natAbs)

/-- VNEG (R183). -/
def execVneg (x : FmtV) (s : State) : Host.Outcome State Fault Refusal :=
  s.instr x.e x.w (vsign x FV.neg fun i => -i)

/-- VDIV (R184). -/
def execVdiv (x : FmtV) (s : State) : Host.Outcome State Fault Refusal :=
  s.instr x.e x.w do
    let v ← vin x true true false (some x.vd.toNat)
    vmapF x x.ty.toNat 5 v.m fun i => (elemF x.ty.toNat (v.la i)).div (elemF x.ty.toNat (v.lb i))

/-- VSQRT (R184). -/
def execVsqrt (x : FmtV) (s : State) : Host.Outcome State Fault Refusal :=
  s.instr x.e x.w do
    let v ← vin x true false false (some x.vd.toNat)
    vmapF x x.ty.toNat 5 v.m fun i => (elemF x.ty.toNat (v.la i)).sqrt

/-- VRSQ to VTANH (R185): the f32 approximation, rounded to the type. -/
def vapprox (x : FmtV) (op : Nat) : M Unit := do
  let v ← vin x true false false (some x.vd.toNat)
  let ty := x.ty.toNat
  let q := fun i => approx op (if ty = 0 then v.la i else toF32 0 0 (elemF ty (v.la i)))
  if ty = 0 then vmap x 3 v.m q else vmapF x ty 3 v.m fun i => f32 (q i)

/-- VRSQ (R185). -/
def execVrsq (x : FmtV) (s : State) : Host.Outcome State Fault Refusal := s.instr x.e x.w (vapprox x 0)

/-- VRCP (R185). -/
def execVrcp (x : FmtV) (s : State) : Host.Outcome State Fault Refusal := s.instr x.e x.w (vapprox x 1)

/-- VEXP2 (R185). -/
def execVexp2 (x : FmtV) (s : State) : Host.Outcome State Fault Refusal := s.instr x.e x.w (vapprox x 2)

/-- VLOG2 (R185). -/
def execVlog2 (x : FmtV) (s : State) : Host.Outcome State Fault Refusal := s.instr x.e x.w (vapprox x 3)

/-- VTANH (R185). -/
def execVtanh (x : FmtV) (s : State) : Host.Outcome State Fault Refusal := s.instr x.e x.w (vapprox x 4)

/-- The untyped lane operations (R186). -/
def vbits (x : FmtV) (wmin : Nat) (f : BitVec 32 → BitVec 32 → BitVec 32) : M Unit := do
  let v ← vin x true true false (some x.vd.toNat)
  vmap x wmin v.m fun i => f (v.la i) (v.lb i)

/-- VAND (R186). -/
def execVand (x : FmtV) (s : State) : Host.Outcome State Fault Refusal :=
  s.instr x.e x.w (vbits x 0 (· &&& ·))

/-- VOR (R186). -/
def execVor (x : FmtV) (s : State) : Host.Outcome State Fault Refusal :=
  s.instr x.e x.w (vbits x 0 (· ||| ·))

/-- VXOR (R186). -/
def execVxor (x : FmtV) (s : State) : Host.Outcome State Fault Refusal :=
  s.instr x.e x.w (vbits x 0 (· ^^^ ·))

/-- VSHL (R186). -/
def execVshl (x : FmtV) (s : State) : Host.Outcome State Fault Refusal :=
  s.instr x.e x.w (vbits x 0 fun a b => a <<< fld b 0 5)

/-- VSHR (R186). -/
def execVshr (x : FmtV) (s : State) : Host.Outcome State Fault Refusal :=
  s.instr x.e x.w (vbits x 0 fun a b => a >>> fld b 0 5)

/-- VSAR (R186). -/
def execVsar (x : FmtV) (s : State) : Host.Outcome State Fault Refusal :=
  s.instr x.e x.w (vbits x 0 fun a b => a.sshiftRight (fld b 0 5))

/-- The mask of the lanes for which `f` holds. -/
def maskOf (f : Nat → Bool) : BitVec 64 :=
  (List.range 64).foldl (fun a i => if f i then a ||| BitVec.ofNat 64 (2 ^ i) else a) 0

/-- A mask result: bit i of the enabling mask governs bit i (R174). -/
def maskRes (x : FmtV) (wmin : Nat) (m r : BitVec 64) : M Unit :=
  result wmin (16 + x.vd.toNat) (r.setWidth 2048)
    ((if x.me then m else BitVec.allOnes 64).setWidth 2048)

/-- VCMP's condition per lane (R187): a NaN makes only ne and always true. -/
def cmpLane (ty c : Nat) (a b : BitVec 32) : Bool :=
  if isF ty then
    let x := elemF ty a
    let y := elemF ty b
    if x.isNan || y.isNan then c == 1 || c == 6 else condOf c (x.eq y) (x.lt y)
  else condOf c (elemI ty a == elemI ty b) (decide (elemI ty a < elemI ty b))

/-- VCMP (R187). -/
def execVcmp (x : FmtV) (s : State) : Host.Outcome State Fault Refusal :=
  s.instr x.e x.w do
    let v ← vin x true true false (some (16 + x.vd.toNat))
    maskRes x 1 v.m (maskOf fun i => cmpLane x.ty.toNat (fld x.op 0 3) (v.la i) (v.lb i))

/-- VSEL (R188). -/
def execVsel (x : FmtV) (s : State) : Host.Outcome State Fault Refusal :=
  s.instr x.e x.w do
    let sel ← readM (fld x.op 0 2)
    let v ← vin x true true false (some x.vd.toNat)
    vmap x 0 v.m fun i => if sel.getLsbD i then v.la i else v.lb i

/-- The function of VMSK (R188). -/
def mskFn (fn : Nat) (a b : BitVec 64) : BitVec 64 :=
  match fn with
  | 0 => a &&& b
  | 1 => a ||| b
  | 2 => a ^^^ b
  | 3 => a &&& ~~~b
  | 4 => ~~~a
  | _ => b

/-- VMSK (R188). -/
def execVmsk (x : FmtV) (s : State) : Host.Outcome State Fault Refusal :=
  s.instr x.e x.w do
    let fn := fld x.op 0 3
    checkPend (16 + x.vd.toNat)
    let a ← if fn = 5 then pure 0 else readM x.va.toNat
    let b ← if fn = 4 || x.sc then pure 0 else readM x.vb.toNat
    let m ← maskIn x
    let b ← if fn ≠ 4 && x.sc then src x.vb else pure b
    maskRes x 0 m (mskFn fn a b)

/-- VCNT (R189). -/
def execVcnt (x : FmtV) (s : State) : Host.Outcome State Fault Refusal :=
  s.instr x.e x.w do
    let v ← vin x true false false (some x.vd.toNat)
    vmap x 1 v.m fun i =>
      BitVec.ofNat 32 (if x.op.getLsbD 0 then clzOf (v.la i) else popOf (v.la i))

/-- Whether a VCVT draws (R190): between F and I, to a narrower F type, or between bf16 and f16. -/
def cvtRounds (fromTy toTy : Nat) : Bool :=
  (isF fromTy != isF toTy) || (isF fromTy && isF toTy && toTy != 0 && fromTy != toTy)

/-- One lane of VCVT (R156, R157, R190): a wider I type takes the element sign- or zero-extended as its source type
says; one of the same width saturates, as a narrower one does (log 39). -/
def cvtLane (fromTy toTy mode r : Nat) (a : BitVec 32) : BitVec 32 :=
  if isF fromTy then
    if isF toTy then laneF toTy mode r (elemF fromTy a)
    else laneI toTy ((elemF fromTy a).toInt mode r (intLo toTy) (intHi toTy))
  else if isF toTy then laneF toTy mode r (FV.ofInt (elemI fromTy a))
  else if intW fromTy < intW toTy then laneI toTy (elemI fromTy a)
  else laneI toTy (clampI toTy (elemI fromTy a))

/-- VCVT (R190). -/
def execVcvt (x : FmtV) (s : State) : Host.Outcome State Fault Refusal :=
  s.instr x.e x.w do
    let v ← vin x true false false (some x.vd.toNat)
    let fromTy := x.from0.toNat
    let mode ← modeOf x.rnd.toNat
    let rs ← if cvtRounds fromTy x.ty.toNat then draws mode 64 else pure []
    vmap x 2 v.m fun i => cvtLane fromTy x.ty.toNat mode (rs.getD i 0) (v.la i)

/-- σ of VQNT and VDQT: Src(g)[31:0], or 1.0 without scl (R191). -/
def sigmaIn (x : FmtV) : M FV := do
  if x.scl then return f32 ((← src x.vc).setWidth 32) else return .fin false 1 1

/-- VQNT (R191). -/
def execVqnt (x : FmtV) (s : State) : Host.Outcome State Fault Refusal :=
  s.instr x.e x.w do
    checkPend x.vd.toNat
    let a ← readV x.va
    let sg ← sigmaIn x
    let ty := x.ty.toNat
    let mode ← modeOf x.rnd.toNat
    let rs ← draws mode 64
    let bb := sgBytes ty
    let blk := fun k => sgQuant ty mode
      ((List.range 16).map fun p => (elemF x.from4.toNat (lane a (16 * k + p))).div sg)
      ((rs.drop (16 * k)).take 16)
    let bits := ((List.range 4).map fun k => blk k * 2 ^ (8 * bb * k)).sum
    let at_ := 8 * (x.part * 4 * bb)
    result 3 x.vd.toNat (BitVec.ofNat 2048 bits <<< at_)
      (BitVec.ofNat 2048 (2 ^ (8 * 4 * bb) - 1) <<< at_)

/-- VDQT (R192). -/
def execVdqt (x : FmtV) (s : State) : Host.Outcome State Fault Refusal :=
  s.instr x.e x.w do
    let v ← vin x true false false (some x.vd.toNat)
    let sg ← sigmaIn x
    let fmt := x.from4.toNat
    let bb := sgBytes fmt
    vmapF x x.ty.toNat 2 v.m fun i =>
      let b := (v.a.extractLsb' (8 * (x.part * 4 * bb + i / 16 * bb)) (8 * bb)).toNat
      sg.mul (sgElem fmt b (i % 16))

/-- VBCST (R193). -/
def execVbcst (x : FmtV) (s : State) : Host.Outcome State Fault Refusal :=
  s.instr x.e x.w do
    let sub1 := x.op.getLsbD 0
    let v ← vin x sub1 false false (some x.vd.toNat)
    let g ← if sub1 then pure 0 else src x.vc
    let r := if sub1 then v.la x.lane else g.setWidth 32
    vmap x 0 v.m fun _ => r

/-- VMOVG (R193): sub 0 and 2 fill gD before the slot's next issue cycle; sub 1 writes one lane. -/
def execVmovg (x : FmtV) (s : State) : Host.Outcome State Fault Refusal :=
  s.instr x.e x.w do
    match x.sub2 with
    | 0 =>
      let a ← readV x.va
      waitDst x.vd
      write x.vd (extend 4 (x.op.getLsbD 2) (lane a x.lane).toNat)
    | 1 =>
      checkPend x.vd.toNat
      let g ← src x.vc
      result 0 x.vd.toNat ((g.setWidth 32).setWidth 2048 <<< (32 * x.lane))
        ((BitVec.allOnes 32).setWidth 2048 <<< (32 * x.lane))
    | _ =>
      let m ← readM x.va.toNat
      waitDst x.vd
      write x.vd m

/-- VIOTA (R194). -/
def execViota (x : FmtV) (s : State) : Host.Outcome State Fault Refusal :=
  s.instr x.e x.w do
    let v ← vin x false false false (some x.vd.toNat)
    let g ← src x.vc
    vmap x 0 v.m fun i => (g + word (i * fld x.op 0 8)).setWidth 32

/-- VPERM (R194). -/
def execVperm (x : FmtV) (s : State) : Host.Outcome State Fault Refusal :=
  s.instr x.e x.w (do
    let v ← vin x true true false (some x.vd.toNat)
    vmap x 1 v.m fun i => v.la (fld (v.lb i) 0 6))

/-! ### Scans, reductions and selection (R168, R195 to R197) -/

/-- VSCAN add on F types: the running sum in f32, and the lanes written (R195). -/
def scanAddF (ty mode : Nat) (a : BitVec 2048) (m : BitVec 64) :
    List Nat → Option FV → List Nat → List (BitVec 32)
  | [], _, _ => []
  | i :: r, sum, rs =>
    if m.getLsbD i then
      let v := elemF ty (lane a i)
      let (acc, rs) := match sum with
        | none => (v, rs)
        | some p => (f32 (toF32 mode (rs.headD 0) (p.add v)), rs.drop 1)
      if ty = 0 then toF32 0 0 acc :: scanAddF ty mode a m r (some acc) rs
      else laneF ty mode (rs.headD 0) acc :: scanAddF ty mode a m r (some acc) (rs.drop 1)
    else 0 :: scanAddF ty mode a m r sum rs

/-- The scans that keep a running lane. -/
def scanLane (f : BitVec 32 → BitVec 32 → BitVec 32) (a : BitVec 2048) (m : BitVec 64) :
    List Nat → Option (BitVec 32) → List (BitVec 32)
  | [], _ => []
  | i :: r, acc =>
    if m.getLsbD i then
      let v := match acc with
        | none => lane a i
        | some p => f p (lane a i)
      v :: scanLane f a m r (some v)
    else 0 :: scanLane f a m r acc

/-- The lane of one element written as its type: a NaN becomes canonical, R172's fill above it. -/
def normLane (ty : Nat) (a : BitVec 32) : BitVec 32 :=
  if isF ty then laneF ty 0 0 (elemF ty a) else laneI ty (elemI ty a)

/-- VSCAN (R195). -/
def execVscan (x : FmtV) (s : State) : Host.Outcome State Fault Refusal :=
  s.instr x.e x.w do
    let v ← vin x true false false (some x.vd.toNat)
    let ty := x.ty.toNat
    let fn := fld x.op 0 2
    let n := popOf v.m
    let mode ← modeOf x.rnd.toNat
    let rs ← if fn = 0 ∧ isF ty then draws mode (if ty = 0 then n - 1 else if n = 0 then 0 else 2 * n - 1)
      else pure []
    let out := if fn = 0 then
        if isF ty then scanAddF ty mode v.a v.m (List.range 64) none rs
        else scanLane (fun p q => laneI ty (elemI ty p + elemI ty q)) v.a v.m (List.range 64) none
      else scanLane (fun p q => minmaxLane ty (fn == 1) p q) v.a v.m (List.range 64) none
    vmap x 2 v.m fun i => normLane ty (out.getD i 0)

/-- One level of the pairwise tree of R168; the draws pass along. -/
def treeLevel (mode : Nat) : List (Option FV) → List Nat → List (Option FV) × List Nat
  | some a :: some b :: r, rs =>
    let (t, rs') := treeLevel mode r (rs.drop 1)
    (some (f32 (toF32 mode (rs.headD 0) (a.add b))) :: t, rs')
  | some a :: none :: r, rs => let (t, rs') := treeLevel mode r rs; (some a :: t, rs')
  | none :: b :: r, rs => let (t, rs') := treeLevel mode r rs; (b :: t, rs')
  | [a], rs => ([a], rs)
  | [], rs => ([], rs)

/-- The pairwise tree over 64 lanes: six levels (R168). -/
def treeSum (mode : Nat) (l : List (Option FV)) (rs : List Nat) : FV :=
  let (l, _) := (List.range 6).foldl (fun (p : List (Option FV) × List Nat) _ =>
    treeLevel mode p.1 p.2) (l, rs)
  (l.headD none).getD (.fin false 0 1)

/-- The fill of a reduction (R196): gD is empty until the last cycle of turn t + `turns`. -/
def reduceFill (d : Spec) (turns : Nat) (v : Word) : M Unit := do
  let t ← thread
  let k ← core
  emptyG d.toNat
  modMe fun k' => k'.addFill
    { tid := t.tid, d := d.toNat, value := v, due := 8 * (k.turn + turns + 1) }

/-- The lanes that a reduction's mask makes present. -/
def present (v : VIn) : List (BitVec 32) :=
  ((List.range 64).filter fun i => v.m.getLsbD i).map v.la

/-- VREDADD (R196). -/
def execVredadd (x : FmtV) (s : State) : Host.Outcome State Fault Refusal :=
  s.instr x.e x.w do
    let v ← vin x true false false none
    waitDst x.vd
    let ty := x.ty.toNat
    if isF ty then
      let mode ← modeOf x.rnd.toNat
      let rs ← draws mode (popOf v.m - 1)
      let l := (List.range 64).map fun i => if v.m.getLsbD i then some (elemF ty (v.la i)) else none
      reduceFill x.vd 2 ((toF32 0 0 (treeSum mode l rs)).setWidth 64)
    else
      reduceFill x.vd 2 (BitVec.ofInt 64 ((present v).map (elemI ty)).sum)

/-- VREDMAX and VREDMIN (R168, R196). -/
def vredm (x : FmtV) (greater : Bool) : M Unit := do
  let v ← vin x true false false none
  waitDst x.vd
  let ty := x.ty.toNat
  let ls := present v
  if isF ty then
    let fs := ls.map (elemF ty)
    let r := if fs.any FV.isNan then .nan
      else fs.foldl (fun a b => if a.below b == greater then b else a) (.inf greater)
    reduceFill x.vd 1 ((toF32 0 0 r).setWidth 64)
  else
    let r := (ls.map (elemI ty)).foldl (fun a b => if decide (a < b) == greater then b else a)
      (if greater then intLo ty else intHi ty)
    reduceFill x.vd 1 (BitVec.ofInt 64 r)

/-- VREDMAX (R196). -/
def execVredmax (x : FmtV) (s : State) : Host.Outcome State Fault Refusal := s.instr x.e x.w (vredm x true)

/-- VREDMIN (R196). -/
def execVredmin (x : FmtV) (s : State) : Host.Outcome State Fault Refusal := s.instr x.e x.w (vredm x false)

/-- VAMAX (R168, R196). -/
def execVamax (x : FmtV) (s : State) : Host.Outcome State Fault Refusal :=
  s.instr x.e x.w do
    let v ← vin x true false false none
    waitDst x.vd
    let fs := (present v).map fun a => (elemF x.ty.toNat a).abs
    let r := if fs.any FV.isNan then .nan
      else fs.foldl (fun a b => if a.lt b then b else a) (.fin false 0 1)
    reduceFill x.vd 1 ((toF32 0 0 r).setWidth 64)

/-- a is selected after b: smaller, with +0 above −0 (R197). -/
def topBelow (ty : Nat) (a b : BitVec 32) : Bool :=
  if isF ty then (elemF ty a).below (elemF ty b) else decide (elemI ty a < elemI ty b)

/-- Insertion behind every element that is not smaller: descending, equal values in lane order. -/
def topInsert (ty : Nat) (e : Nat × BitVec 32) : List (Nat × BitVec 32) → List (Nat × BitVec 32)
  | [] => [e]
  | h :: r => if topBelow ty h.2 e.2 then e :: h :: r else h :: topInsert ty e r

/-- VTOPK (R197). -/
def execVtopk (x : FmtV) (s : State) : Host.Outcome State Fault Refusal :=
  s.instr x.e x.w do
    let v ← vin x true false false (some x.vd.toNat)
    let ty := x.ty.toNat
    let k := fld x.op 0 5 + 1
    let cand := ((List.range 64).filter fun i =>
      v.m.getLsbD i && !(isF ty && (elemF ty (v.la i)).isNan)).map fun i => (i, v.la i)
    let top := (cand.foldl (fun l e => topInsert ty e l) []).take k
    let out := fun i =>
      if i < k then
        match top[i]? with
        | some e => normLane ty e.2
        | none => if isF ty then laneF ty 0 0 .nan else 0
      else if 32 ≤ i ∧ i < 32 + k then
        match top[i - 32]? with
        | some e => BitVec.ofNat 32 e.1
        | none => 0xFFFFFFFF
      else 0
    result 4 x.vd.toNat (ofLanes ((List.range 64).map out)) (BitVec.allOnes 2048)

end Sys2Proof.Machine
end

