-- ==== Sys2Proof/Machine/Dispatch.lean ====
section
/-! DEFINITION. The meaning of every step of the opcode table: one arm per constructor. -/

namespace Sys2Proof.Machine

def exec (i : Instr) (s : State) : Host.Outcome State Fault Refusal :=
  match i with
  | .add x => Sys2Proof.Machine.execAdd x s
  | .sub x => Sys2Proof.Machine.execSub x s
  | .mul x => Sys2Proof.Machine.execMul x s
  | .mulh x => Sys2Proof.Machine.execMulh x s
  | .mulhn x => Sys2Proof.Machine.execMulhn x s
  | .div x => Sys2Proof.Machine.execDiv x s
  | .divn x => Sys2Proof.Machine.execDivn x s
  | .rem x => Sys2Proof.Machine.execRem x s
  | .remn x => Sys2Proof.Machine.execRemn x s
  | .and x => Sys2Proof.Machine.execAnd x s
  | .or x => Sys2Proof.Machine.execOr x s
  | .xor x => Sys2Proof.Machine.execXor x s
  | .andn x => Sys2Proof.Machine.execAndn x s
  | .orn x => Sys2Proof.Machine.execOrn x s
  | .shl x => Sys2Proof.Machine.execShl x s
  | .shr x => Sys2Proof.Machine.execShr x s
  | .sar x => Sys2Proof.Machine.execSar x s
  | .rol x => Sys2Proof.Machine.execRol x s
  | .ror x => Sys2Proof.Machine.execRor x s
  | .min x => Sys2Proof.Machine.execMin x s
  | .max x => Sys2Proof.Machine.execMax x s
  | .minn x => Sys2Proof.Machine.execMinn x s
  | .maxn x => Sys2Proof.Machine.execMaxn x s
  | .clz x => Sys2Proof.Machine.execClz x s
  | .ctz x => Sys2Proof.Machine.execCtz x s
  | .popc x => Sys2Proof.Machine.execPopc x s
  | .bswap x => Sys2Proof.Machine.execBswap x s
  | .extr x => Sys2Proof.Machine.execExtr x s
  | .ins x => Sys2Proof.Machine.execIns x s
  | .madd x => Sys2Proof.Machine.execMadd x s
  | .sel x => Sys2Proof.Machine.execSel x s
  | .cmp x => Sys2Proof.Machine.execCmp x s
  | .cmpn x => Sys2Proof.Machine.execCmpn x s
  | .tst x => Sys2Proof.Machine.execTst x s
  | .flagr x => Sys2Proof.Machine.execFlagr x s
  | .flagw x => Sys2Proof.Machine.execFlagw x s
  | .addi x => Sys2Proof.Machine.execAddi x s
  | .andi x => Sys2Proof.Machine.execAndi x s
  | .ori x => Sys2Proof.Machine.execOri x s
  | .xori x => Sys2Proof.Machine.execXori x s
  | .shli x => Sys2Proof.Machine.execShli x s
  | .shri x => Sys2Proof.Machine.execShri x s
  | .sari x => Sys2Proof.Machine.execSari x s
  | .muli x => Sys2Proof.Machine.execMuli x s
  | .cmpi x => Sys2Proof.Machine.execCmpi x s
  | .cmpni x => Sys2Proof.Machine.execCmpni x s
  | .tsti x => Sys2Proof.Machine.execTsti x s
  | .ldi x => Sys2Proof.Machine.execLdi x s
  | .ldih x => Sys2Proof.Machine.execLdih x s
  | .ld x => Sys2Proof.Machine.execLd x s
  | .st x => Sys2Proof.Machine.execSt x s
  | .vld x => Sys2Proof.Machine.execVld x s
  | .vst x => Sys2Proof.Machine.execVst x s
  | .vlds x => Sys2Proof.Machine.execVlds x s
  | .vsts x => Sys2Proof.Machine.execVsts x s
  | .vgth x => Sys2Proof.Machine.execVgth x s
  | .vsct x => Sys2Proof.Machine.execVsct x s
  | .pref x => Sys2Proof.Machine.execPref x s
  | .wbl x => Sys2Proof.Machine.execWbl x s
  | .invl x => Sys2Proof.Machine.execInvl x s
  | .fence x => Sys2Proof.Machine.execFence x s
  | .amoadd x => Sys2Proof.Machine.execAmoadd x s
  | .amoand x => Sys2Proof.Machine.execAmoand x s
  | .amoor x => Sys2Proof.Machine.execAmoor x s
  | .amoxor x => Sys2Proof.Machine.execAmoxor x s
  | .amomin x => Sys2Proof.Machine.execAmomin x s
  | .amomax x => Sys2Proof.Machine.execAmomax x s
  | .amominn x => Sys2Proof.Machine.execAmominn x s
  | .amomaxn x => Sys2Proof.Machine.execAmomaxn x s
  | .amoswp x => Sys2Proof.Machine.execAmoswp x s
  | .amofmax x => Sys2Proof.Machine.execAmofmax x s
  | .cas x => Sys2Proof.Machine.execCas x s
  | .cas2 x => Sys2Proof.Machine.execCas2 x s
  | .vadd x => Sys2Proof.Machine.execVadd x s
  | .vsub x => Sys2Proof.Machine.execVsub x s
  | .vmul x => Sys2Proof.Machine.execVmul x s
  | .vfma x => Sys2Proof.Machine.execVfma x s
  | .vfms x => Sys2Proof.Machine.execVfms x s
  | .vfnma x => Sys2Proof.Machine.execVfnma x s
  | .vmin x => Sys2Proof.Machine.execVmin x s
  | .vmax x => Sys2Proof.Machine.execVmax x s
  | .vabs x => Sys2Proof.Machine.execVabs x s
  | .vneg x => Sys2Proof.Machine.execVneg x s
  | .vdiv x => Sys2Proof.Machine.execVdiv x s
  | .vsqrt x => Sys2Proof.Machine.execVsqrt x s
  | .vrsq x => Sys2Proof.Machine.execVrsq x s
  | .vrcp x => Sys2Proof.Machine.execVrcp x s
  | .vexp2 x => Sys2Proof.Machine.execVexp2 x s
  | .vlog2 x => Sys2Proof.Machine.execVlog2 x s
  | .vtanh x => Sys2Proof.Machine.execVtanh x s
  | .vand x => Sys2Proof.Machine.execVand x s
  | .vor x => Sys2Proof.Machine.execVor x s
  | .vxor x => Sys2Proof.Machine.execVxor x s
  | .vshl x => Sys2Proof.Machine.execVshl x s
  | .vshr x => Sys2Proof.Machine.execVshr x s
  | .vsar x => Sys2Proof.Machine.execVsar x s
  | .vcmp x => Sys2Proof.Machine.execVcmp x s
  | .vsel x => Sys2Proof.Machine.execVsel x s
  | .vmsk x => Sys2Proof.Machine.execVmsk x s
  | .vcnt x => Sys2Proof.Machine.execVcnt x s
  | .vcvt x => Sys2Proof.Machine.execVcvt x s
  | .vqnt x => Sys2Proof.Machine.execVqnt x s
  | .vdqt x => Sys2Proof.Machine.execVdqt x s
  | .vbcst x => Sys2Proof.Machine.execVbcst x s
  | .vmovg x => Sys2Proof.Machine.execVmovg x s
  | .viota x => Sys2Proof.Machine.execViota x s
  | .vperm x => Sys2Proof.Machine.execVperm x s
  | .vscan x => Sys2Proof.Machine.execVscan x s
  | .vredadd x => Sys2Proof.Machine.execVredadd x s
  | .vredmax x => Sys2Proof.Machine.execVredmax x s
  | .vredmin x => Sys2Proof.Machine.execVredmin x s
  | .vamax x => Sys2Proof.Machine.execVamax x s
  | .vtopk x => Sys2Proof.Machine.execVtopk x s
  | .mma x => Sys2Proof.Machine.execMma x s
  | .mmaz x => Sys2Proof.Machine.execMmaz x s
  | .mzero x => Sys2Proof.Machine.execMzero x s
  | .mdrn x => Sys2Proof.Machine.execMdrn x s
  | .mlda x => Sys2Proof.Machine.execMlda x s
  | .mscl x => Sys2Proof.Machine.execMscl x s
  | .cpy x => Sys2Proof.Machine.execCpy x s
  | .cpym x => Sys2Proof.Machine.execCpym x s
  | .cpyf x => Sys2Proof.Machine.execCpyf x s
  | .rngini x => Sys2Proof.Machine.execRngini x s
  | .rngpop x => Sys2Proof.Machine.execRngpop x s
  | .rngadv x => Sys2Proof.Machine.execRngadv x s
  | .rngq x => Sys2Proof.Machine.execRngq x s
  | .rlck x => Sys2Proof.Machine.execRlck x s
  | .rfree x => Sys2Proof.Machine.execRfree x s
  | .barinit x => Sys2Proof.Machine.execBarinit x s
  | .bararv x => Sys2Proof.Machine.execBararv x s
  | .barwt x => Sys2Proof.Machine.execBarwt x s
  | .route x => Sys2Proof.Machine.execRoute x s
  | .rtret x => Sys2Proof.Machine.execRtret x s
  | .splini x => Sys2Proof.Machine.execSplini x s
  | .splq x => Sys2Proof.Machine.execSplq x s
  | .rxbind x => Sys2Proof.Machine.execRxbind x s
  | .rxtake x => Sys2Proof.Machine.execRxtake x s
  | .rxfree x => Sys2Proof.Machine.execRxfree x s
  | .rxeos x => Sys2Proof.Machine.execRxeos x s
  | .nop x => Sys2Proof.Machine.execNop x s
  | .cuew x => Sys2Proof.Machine.execCuew x s
  | .cuecut x => Sys2Proof.Machine.execCuecut x s
  | .cuerd x => Sys2Proof.Machine.execCuerd x s
  | .cuesel x => Sys2Proof.Machine.execCuesel x s
  | .cntw x => Sys2Proof.Machine.execCntw x s
  | .cntr x => Sys2Proof.Machine.execCntr x s
  | .spawn x => Sys2Proof.Machine.execSpawn x s
  | .spawnr x => Sys2Proof.Machine.execSpawnr x s
  | .launch x => Sys2Proof.Machine.execLaunch x s
  | .park x => Sys2Proof.Machine.execPark x s
  | .yield x => Sys2Proof.Machine.execYield x s
  | .exit x => Sys2Proof.Machine.execExit x s
  | .send x => Sys2Proof.Machine.execSend x s
  | .segw x => Sys2Proof.Machine.execSegw x s
  | .segr x => Sys2Proof.Machine.execSegr x s
  | .trap x => Sys2Proof.Machine.execTrap x s
  | .sysr x => Sys2Proof.Machine.execSysr x s
  | .sysw x => Sys2Proof.Machine.execSysw x s
  | .time x => Sys2Proof.Machine.execTime x s
  | .evtr x => Sys2Proof.Machine.execEvtr x s
  | .bkpt x => Sys2Proof.Machine.execBkpt x s
  | .halt x => Sys2Proof.Machine.execHalt x s
  | .next q => Sys2Proof.Machine.execNext q s
  | .call q => Sys2Proof.Machine.execCall q s
  | .icall q => Sys2Proof.Machine.execIcall q s
  | .ret q => Sys2Proof.Machine.execRet q s
  | .gate q => Sys2Proof.Machine.execGate q s
  | .gret q => Sys2Proof.Machine.execGret q s
  | .eret q => Sys2Proof.Machine.execEret q s
  | .missTrap q => Sys2Proof.Machine.execMissTrap q s
  | .deferredEventTaken => Sys2Proof.Machine.execDeferredEventTaken s
  | .takeWork core slot => Sys2Proof.Machine.execTakeWork core slot s
  | .stealRequest thief victim dom => Sys2Proof.Machine.execStealRequest thief victim dom s
  | .stealAnswer thief => Sys2Proof.Machine.execStealAnswer thief s
  | .pendingMove core dom => Sys2Proof.Machine.execPendingMove core dom s
  | .launchCompletion id => Sys2Proof.Machine.execLaunchCompletion id s
  | .drainEnd core slot => Sys2Proof.Machine.execDrainEnd core slot s
  | .spawnStatusFill core n => Sys2Proof.Machine.execSpawnStatusFill core n s
  | .pageFaultSave core slot => Sys2Proof.Machine.execPageFaultSave core slot s
  | .pageArrival dom page => Sys2Proof.Machine.execPageArrival dom page s
  | .preemptSave core slot => Sys2Proof.Machine.execPreemptSave core slot s
  | .preemptDeadline core slot => Sys2Proof.Machine.execPreemptDeadline core slot s
  | .domainSave core dom => Sys2Proof.Machine.execDomainSave core dom s
  | .quantumExpiry core dom => Sys2Proof.Machine.execQuantumExpiry core dom s
  | .parkTimeout core slot => Sys2Proof.Machine.execParkTimeout core slot s
  | .sendDelivery core slot => Sys2Proof.Machine.execSendDelivery core slot s
  | .loadDataFill core n => Sys2Proof.Machine.execLoadDataFill core n s
  | .vectorResultLand core slot n => Sys2Proof.Machine.execVectorResultLand core slot n s
  | .copyStart core n => Sys2Proof.Machine.execCopyStart core n s
  | .copyRowRetire core n => Sys2Proof.Machine.execCopyRowRetire core n s
  | .copyComplete core n => Sys2Proof.Machine.execCopyComplete core n s
  | .followOnIssue core n => Sys2Proof.Machine.execFollowOnIssue core n s
  | .matrixCommandStart core n => Sys2Proof.Machine.execMatrixCommandStart core n s
  | .matrixCommandRetire core => Sys2Proof.Machine.execMatrixCommandRetire core s
  | .barrierArrivalApply n => Sys2Proof.Machine.execBarrierArrivalApply n s
  | .bararvReply core n => Sys2Proof.Machine.execBararvReply core n s
  | .barwtWake core n => Sys2Proof.Machine.execBarwtWake core n s
  | .barwtBoundExpiry core n => Sys2Proof.Machine.execBarwtBoundExpiry core n s
  | .l1WriteBack core n => Sys2Proof.Machine.execL1WriteBack core n s
  | .l1LineDrop core n => Sys2Proof.Machine.execL1LineDrop core n s
  | .translationMiss cluster dom page write => Sys2Proof.Machine.execTranslationMiss cluster dom page write s
  | .shootDown request => Sys2Proof.Machine.execShootDown request s
  | .shootDownComplete n => Sys2Proof.Machine.execShootDownComplete n s
  | .pairSend core n => Sys2Proof.Machine.execPairSend core n s
  | .rowArrival n => Sys2Proof.Machine.execRowArrival n s
  | .faultHoldResolve core n supplied => Sys2Proof.Machine.execFaultHoldResolve core n supplied s
  | .pageHandover core queue => Sys2Proof.Machine.execPageHandover core queue s
  | .queueTimeout core queue => Sys2Proof.Machine.execQueueTimeout core queue s
  | .eosArrival n => Sys2Proof.Machine.execEosArrival n s
  | .creditReturn n => Sys2Proof.Machine.execCreditReturn n s
  | .returnApply n => Sys2Proof.Machine.execReturnApply n s
  | .rtretAck n => Sys2Proof.Machine.execRtretAck n s
  | .spliceComplete core n => Sys2Proof.Machine.execSpliceComplete core n s
  | .spliceTimeout core n => Sys2Proof.Machine.execSpliceTimeout core n s
  | .peerReset core package => Sys2Proof.Machine.execPeerReset core package s
  | .resetAnnouncement package incarnation => Sys2Proof.Machine.execResetAnnouncement package incarnation s
  | .clockStop core => Sys2Proof.Machine.execClockStop core s
  | .clockRestart core => Sys2Proof.Machine.execClockRestart core s
  | .l1cfgWrite core value => Sys2Proof.Machine.execL1cfgWrite core value s
  | .l1Reconfigure core => Sys2Proof.Machine.execL1Reconfigure core s
  | .preqWrite core value => Sys2Proof.Machine.execPreqWrite core value s
  | .hbankWrite core dom reg value => Sys2Proof.Machine.execHbankWrite core dom reg value s
  | .rseedWrite core dom value => Sys2Proof.Machine.execRseedWrite core dom value s
  | .partWrite core dom index value => Sys2Proof.Machine.execPartWrite core dom index value s
  | .plockWrite core dom value => Sys2Proof.Machine.execPlockWrite core dom value s
  | .sealRestore core dom value => Sys2Proof.Machine.execSealRestore core dom value s
  | .keyRefresh dom => Sys2Proof.Machine.execKeyRefresh dom s
  | .measurementExtend dom pa => Sys2Proof.Machine.execMeasurementExtend dom pa s
  | .attest core dom pa => Sys2Proof.Machine.execAttest core dom pa s
  | .ptcfgWrite value => Sys2Proof.Machine.execPtcfgWrite value s
  | .pterrWrite => Sys2Proof.Machine.execPterrWrite s
  | .tailWrite queue tail => Sys2Proof.Machine.execTailWrite queue tail s
  | .tailReread queue => Sys2Proof.Machine.execTailReread queue s
  | .launchRecordTake queue => Sys2Proof.Machine.execLaunchRecordTake queue s
  | .loadRecordTake queue => Sys2Proof.Machine.execLoadRecordTake queue s
  | .throttleStart die => Sys2Proof.Machine.execThrottleStart die s
  | .throttleStep die => Sys2Proof.Machine.execThrottleStep die s
  | .throttleEnd die => Sys2Proof.Machine.execThrottleEnd die s
  | .thermalTrip die => Sys2Proof.Machine.execThermalTrip die s
  | .powerOnReset => Sys2Proof.Machine.execPowerOnReset s
  | .hostResetRequest => Sys2Proof.Machine.execHostResetRequest s
  | .pageRefusal dom page => Sys2Proof.Machine.execPageRefusal dom page s
  | .limvonAccess req => Sys2Proof.Machine.execLimvonAccess req s
  | .barinitReply core n => Sys2Proof.Machine.execBarinitReply core n s
  | .rxeosAck n => Sys2Proof.Machine.execRxeosAck n s
  | .routeEntryWrite core entry word value => Sys2Proof.Machine.execRouteEntryWrite core entry word value s
  | .tokenPoolWrite core dom index value => Sys2Proof.Machine.execTokenPoolWrite core dom index value s
  | .flitCrcFailure port => Sys2Proof.Machine.execFlitCrcFailure port s
  | .cxlLinkFailure port => Sys2Proof.Machine.execCxlLinkFailure port s

end Sys2Proof.Machine
end

