-- ==== Sys2Proof/Machine/Issue.lean ====
section
/-! DEFINITION. What happens in a cycle of a core (R20, R21, R335): the word that the slot issues, the
lookup, the end of the cycle and of the turn; and the events that are due between cycles (R402; log 3). -/

namespace Sys2Proof.Machine

/-- The rows of the opcode table that no word and no cue holds. -/
def isEvent (i : Instr) : Bool :=
  match i with
  | .add _ => false
  | .sub _ => false
  | .mul _ => false
  | .mulh _ => false
  | .mulhn _ => false
  | .div _ => false
  | .divn _ => false
  | .rem _ => false
  | .remn _ => false
  | .and _ => false
  | .or _ => false
  | .xor _ => false
  | .andn _ => false
  | .orn _ => false
  | .shl _ => false
  | .shr _ => false
  | .sar _ => false
  | .rol _ => false
  | .ror _ => false
  | .min _ => false
  | .max _ => false
  | .minn _ => false
  | .maxn _ => false
  | .clz _ => false
  | .ctz _ => false
  | .popc _ => false
  | .bswap _ => false
  | .extr _ => false
  | .ins _ => false
  | .madd _ => false
  | .sel _ => false
  | .cmp _ => false
  | .cmpn _ => false
  | .tst _ => false
  | .flagr _ => false
  | .flagw _ => false
  | .addi _ => false
  | .andi _ => false
  | .ori _ => false
  | .xori _ => false
  | .shli _ => false
  | .shri _ => false
  | .sari _ => false
  | .muli _ => false
  | .cmpi _ => false
  | .cmpni _ => false
  | .tsti _ => false
  | .ldi _ => false
  | .ldih _ => false
  | .ld _ => false
  | .st _ => false
  | .vld _ => false
  | .vst _ => false
  | .vlds _ => false
  | .vsts _ => false
  | .vgth _ => false
  | .vsct _ => false
  | .pref _ => false
  | .wbl _ => false
  | .invl _ => false
  | .fence _ => false
  | .amoadd _ => false
  | .amoand _ => false
  | .amoor _ => false
  | .amoxor _ => false
  | .amomin _ => false
  | .amomax _ => false
  | .amominn _ => false
  | .amomaxn _ => false
  | .amoswp _ => false
  | .amofmax _ => false
  | .cas _ => false
  | .cas2 _ => false
  | .vadd _ => false
  | .vsub _ => false
  | .vmul _ => false
  | .vfma _ => false
  | .vfms _ => false
  | .vfnma _ => false
  | .vmin _ => false
  | .vmax _ => false
  | .vabs _ => false
  | .vneg _ => false
  | .vdiv _ => false
  | .vsqrt _ => false
  | .vrsq _ => false
  | .vrcp _ => false
  | .vexp2 _ => false
  | .vlog2 _ => false
  | .vtanh _ => false
  | .vand _ => false
  | .vor _ => false
  | .vxor _ => false
  | .vshl _ => false
  | .vshr _ => false
  | .vsar _ => false
  | .vcmp _ => false
  | .vsel _ => false
  | .vmsk _ => false
  | .vcnt _ => false
  | .vcvt _ => false
  | .vqnt _ => false
  | .vdqt _ => false
  | .vbcst _ => false
  | .vmovg _ => false
  | .viota _ => false
  | .vperm _ => false
  | .vscan _ => false
  | .vredadd _ => false
  | .vredmax _ => false
  | .vredmin _ => false
  | .vamax _ => false
  | .vtopk _ => false
  | .mma _ => false
  | .mmaz _ => false
  | .mzero _ => false
  | .mdrn _ => false
  | .mlda _ => false
  | .mscl _ => false
  | .cpy _ => false
  | .cpym _ => false
  | .cpyf _ => false
  | .rngini _ => false
  | .rngpop _ => false
  | .rngadv _ => false
  | .rngq _ => false
  | .rlck _ => false
  | .rfree _ => false
  | .barinit _ => false
  | .bararv _ => false
  | .barwt _ => false
  | .route _ => false
  | .rtret _ => false
  | .splini _ => false
  | .splq _ => false
  | .rxbind _ => false
  | .rxtake _ => false
  | .rxfree _ => false
  | .rxeos _ => false
  | .nop _ => false
  | .cuew _ => false
  | .cuecut _ => false
  | .cuerd _ => false
  | .cuesel _ => false
  | .cntw _ => false
  | .cntr _ => false
  | .spawn _ => false
  | .spawnr _ => false
  | .launch _ => false
  | .park _ => false
  | .yield _ => false
  | .exit _ => false
  | .send _ => false
  | .segw _ => false
  | .segr _ => false
  | .trap _ => false
  | .sysr _ => false
  | .sysw _ => false
  | .time _ => false
  | .evtr _ => false
  | .bkpt _ => false
  | .halt _ => false
  | .next _ => false
  | .call _ => false
  | .icall _ => false
  | .ret _ => false
  | .gate _ => false
  | .gret _ => false
  | .eret _ => false
  | .missTrap _ => false
  | .deferredEventTaken => true
  | .takeWork _ _ => true
  | .stealRequest _ _ _ => true
  | .stealAnswer _ => true
  | .pendingMove _ _ => true
  | .launchCompletion _ => true
  | .drainEnd _ _ => true
  | .spawnStatusFill _ _ => true
  | .pageFaultSave _ _ => true
  | .pageArrival _ _ => true
  | .preemptSave _ _ => true
  | .preemptDeadline _ _ => true
  | .domainSave _ _ => true
  | .quantumExpiry _ _ => true
  | .parkTimeout _ _ => true
  | .sendDelivery _ _ => true
  | .loadDataFill _ _ => true
  | .vectorResultLand _ _ _ => true
  | .copyStart _ _ => true
  | .copyRowRetire _ _ => true
  | .copyComplete _ _ => true
  | .followOnIssue _ _ => true
  | .matrixCommandStart _ _ => true
  | .matrixCommandRetire _ => true
  | .barrierArrivalApply _ => true
  | .bararvReply _ _ => true
  | .barwtWake _ _ => true
  | .barwtBoundExpiry _ _ => true
  | .l1WriteBack _ _ => true
  | .l1LineDrop _ _ => true
  | .translationMiss _ _ _ _ => true
  | .shootDown _ => true
  | .shootDownComplete _ => true
  | .pairSend _ _ => true
  | .rowArrival _ => true
  | .faultHoldResolve _ _ _ => true
  | .pageHandover _ _ => true
  | .queueTimeout _ _ => true
  | .eosArrival _ => true
  | .creditReturn _ => true
  | .returnApply _ => true
  | .rtretAck _ => true
  | .spliceComplete _ _ => true
  | .spliceTimeout _ _ => true
  | .peerReset _ _ => true
  | .resetAnnouncement _ _ => true
  | .clockStop _ => true
  | .clockRestart _ => true
  | .l1cfgWrite _ _ => true
  | .l1Reconfigure _ => true
  | .preqWrite _ _ => true
  | .hbankWrite _ _ _ _ => true
  | .rseedWrite _ _ _ => true
  | .partWrite _ _ _ _ => true
  | .plockWrite _ _ _ => true
  | .sealRestore _ _ _ => true
  | .keyRefresh _ => true
  | .measurementExtend _ _ => true
  | .attest _ _ _ => true
  | .ptcfgWrite _ => true
  | .pterrWrite => true
  | .tailWrite _ _ => true
  | .tailReread _ => true
  | .launchRecordTake _ => true
  | .loadRecordTake _ => true
  | .throttleStart _ => true
  | .throttleStep _ => true
  | .throttleEnd _ => true
  | .thermalTrip _ => true
  | .powerOnReset => true
  | .hostResetRequest => true
  | .pageRefusal _ _ => true
  | .limvonAccess _ => true
  | .barinitReply _ _ => true
  | .rxeosAck _ => true
  | .routeEntryWrite _ _ _ _ => true
  | .tokenPoolWrite _ _ _ _ => true
  | .flitCrcFailure _ => true
  | .cxlLinkFailure _ => true

/-! ### Event counters (R394, R395) -/

/-- An event of a cycle counts under a selection. -/
def evMatch (sel : Word) (e : Nat × Option Nat × Nat × Nat) : Bool :=
  let code := fld sel 0 8
  let bySlot := (1 ≤ code && code ≤ 6) || code == 11
  e.1 == code && code < 42 && (!bySlot || e.2.1.any fun i => (fld sel 8 8).testBit i)
    && (!sel.getLsbD 39 || e.2.2.1 == fld sel 40 8)

/-- The events that count cycles of an engine: at most once a cycle, however many domains they stand for. -/
def onceACycle (code : Nat) : Bool := code == 26 || code == 27 || code == 40

/-- How much a counter gains in a cycle. Misses of the home L2 are open (log 17). -/
def evCount (core cycle : Nat) (sel : Word) (tally : List (Nat × Option Nat × Nat × Nat)) : Nat :=
  if fld sel 0 8 = 41 then Config.l2Misses core cycle (if sel.getLsbD 39 then fld sel 40 8 else 256)
  else
    let n := ((tally.filter (evMatch sel)).map fun e => e.2.2.2).sum
    if onceACycle (fld sel 0 8) then Nat.min n 1 else n

/-- R394: a count beyond 48 bits wraps and sets overflow. -/
def bump (w : Word) (n : Nat) : Word :=
  let v := fld w 0 48 + n
  setFld (if 2 ^ 48 ≤ v then setFld w 63 1 1 else w) 0 48 v

/-- The events of the cycle reach the counters (R394). -/
def Core.flushTally (k : Core) (c : Nat) : Core :=
  { k with
    tally := []
    evcnt := Vector.ofFn fun (i : Fin 8) =>
      let sel := rd k.evsel i 0
      let n := rd k.evcnt i 0
      if sel.getLsbD 63 then bump n (evCount c k.cycle sel k.tally) else n }

/-- The domains of a core's started matrix commands, and of its started engine commands (R394). -/
def Core.matDoms (k : Core) : List Nat := ((k.mats.filter (·.started)).map (·.t.dom.toNat)).dedup
def Core.engineDoms (k : Core) : List Nat :=
  (k.matDoms ++ (k.copies.filter (·.started)).map (·.t.dom.toNat)).dedup

/-- The events that every cycle of a core causes by its engines (R395): for each domain whose command takes part. -/
def State.countCycle (s : State) (c : Nat) (k : Core) : Core :=
  let each := fun code (ds : List Nat) (k : Core) => ds.foldl (fun k d => k.count code none d 1) k
  each 40 (if rd s.throttle (dieOf c) 0 = 0 then [] else k.engineDoms)
    (each 27 (if k.mats.length < 8 then [] else (k.mats.map (·.t.dom.toNat)).dedup)
      (each 26 k.matDoms (k.count 0 none ((k.slotDom k.turnSlot).getD 256) 1)))

/-! ### The end of a cycle -/

/-- R100: the writes of a turn reach the h banks in issue order. -/
def Core.landH (k : Core) : Core :=
  { k with
    hPend := []
    h := k.hPend.foldl (fun h w => wr h w.1 (wr (rd h w.1 (Vector.replicate 16 0)) w.2.1 w.2.2)) k.h }

/-- A write of PART0 to PART2, PLOCK or PREQ takes effect (R351, R361). -/
def Core.landPart (k : Core) (p : PartPend) : Core :=
  match p.index with
  | 3 => k.plockWrite p.dom p.value
  | 4 => k.preqWrite p.value
  | i => k.partWrite p.dom i p.value

/-- R351, R361: the partition writes and requests of a turn take effect in order. -/
def Core.landParts (k : Core) : Core := k.partPend.foldl Core.landPart { k with partPend := [] }

/-- The results of every slot that are due are written (R107). -/
def Core.landResults (k : Core) : Core :=
  (List.range 8).foldl (fun k i => k.modThread i (·.landDue k.cycle)) k

/-- The end of a turn, in the cycle after it (R100, R107, R139, R361). -/
def Core.endTurn (k : Core) : Core := (k.landResults.landH.commitCuts).landParts

/-- R398: a PTCFG write of the turn takes effect. -/
def State.landPtcfg (s : State) (c : Nat) : State :=
  match (s.core c).ptPend with
  | some v => (s.modCore c fun k => { k with ptPend := none }).ptcfgWrite v
  | none => s

/-- The core has still to run its cycle of this half nanosecond (R20). -/
def State.cycleDue (s : State) (c : Nat) : Bool := (s.core c).cycle ≤ s.halfNs

/-- The core whose cycle comes next, in core order from the current one; after every core's cycle, half a nanosecond
has passed (R20; log 2). -/
def State.nextCore (s : State) : State :=
  let cs := s.cores.map (·.1)
  let left := cs.filter s.cycleDue
  match (left.find? (s.cur < ·)).or left.head? with
  | some c => { s with cur := c }
  | none => { s with cur := cs.headD 0, halfNs := s.halfNs + 1 }

/-- The cycle of the current core ends. -/
def State.tick (s : State) : State :=
  let c := s.cur
  let k := ((s.countCycle c s.me).flushTally c).runMats (rd s.throttle (dieOf c) 0)
  let k := { k with cycle := k.cycle + 1 }
  let last := k.cycle % 8 == 0
  let s1 := s.setCore c (if last then k.endTurn else k)
  (if last then (s1.dropQueues c s.me).landPtcfg c else s1).nextCore

/-- The cycle is counted under a code, and as one that issued or passed unused. -/
def State.passes (s : State) (code : Nat) (issued : Bool) : State :=
  let d := ((s.thread?.map fun t => t.dom.toNat).or (s.me.slotDom s.me.turnSlot)).getD 256
  (s.modMe fun k => (k.count code (some k.turnSlot) d 1).count (if issued then 1 else 2) (some k.turnSlot) d 1).tick

/-- The outcome of an effect, followed by the end of its cycle, unused by any word. -/
def endCycle (o : Out) : Out :=
  match o with
  | .next s => .next (s.passes 255 false)
  | .fault f => .fault f
  | .refused r => .refused r

/-! ### Issuing a word (R335, R346) -/

/-- R346: an enabled breakpoint names the next word. -/
def State.breakAt (s : State) : Bool :=
  let t := s.thread
  !t.skipBp && !t.tret.getLsbD 56 && (List.range 4).any fun i =>
    (rd t.dbi i 0).getLsbD 63 && fld (rd t.dbi i 0) 0 32 == t.pc.toNat

/-- R347: a breakpoint that arises after a save of the domain has begun. -/
def Thread.recordBreak (t : Thread) : Thread :=
  { t with skipBp := true }.pendEvent 5 20 2 t.taddrNow 0 0

/-- The instruction has issued: it neither waits nor faults nor trapped (R10, R68). -/
def issuedBy (i : Instr) (before : Thread) (after : Option Thread) : Bool :=
  match after with
  | none => true
  | some t =>
    match t.status with
    | .waiting => false
    | .stalled .. => false
    | .faulted .. => false
    | .exiting _ => match i with
      | .exit _ => true
      | _ => false
    | _ => t.tret.getLsbD 56 == before.tret.getLsbD 56

/-- The instruction is a BARINIT or a BARARV whose request is on its way: it has not been performed (R336). -/
def State.underWay (s : State) (i : Instr) : Bool :=
  match i with
  | .barinit _ => s.bars.getLast?.any fun b => b.init && b.t.id + 1 == s.nextId
  | _ => s.thread.status == .reply

/-- The step event of an instruction that has issued. A BARINIT's and a BARARV's come with their replies
(`Thread.requestEvents`). -/
def State.stepped (s : State) (i : Instr) (before : Thread) : State :=
  if s.underWay i then s else s.modThread (before.stepEvent (s.me.saving before.dom))

/-- The word at offset `pc` of a thread's s0 has been read through the window (R395; log 33). -/
def State.countFetch (s : State) (t : Thread) : State :=
  s.modMe fun k => k.count 17 none t.dom.toNat (if t.wordWin t.pc.toNat then 1 else 0)

/-- What follows an instruction's effect in its cycle: its step event, its counts and the cycle's end. -/
def State.finish (i : Instr) (w : Word) (before : Thread) (s : State) : State :=
  if issuedBy i before s.thread? then
    ((s.stepped i before).countFetch before).passes (if fld w 56 3 = 3 then 29 else 255) true
  else s.passes 255 false

/-- An instruction whose word has been fetched runs. -/
def State.run (s : State) (i : Instr) (w : Word) : Out :=
  match exec i s with
  | .next s1 => .next (s1.finish i w s.thread)
  | .fault f => .fault f
  | .refused r => .refused r

/-- The next word of the slot's thread: breakpoint, fetch, decode, effect (R335). -/
def State.issueWord (s : State) : Out :=
  let hit := s.breakAt
  if hit && !s.me.saving s.thread.dom then endCycle (s.perform (raise 20 2))
  else
    let s := if hit then s.modThread (·.recordBreak) else s
    match fetch s.started with
    | .error e => endCycle (s.settle (.error e))
    | .ok (none, s1) => endCycle (.next s1)
    | .ok (some w, s1) =>
      match decode w with
      | .error sub => endCycle (s1.perform (raise 1 sub w))
      | .ok i => s1.run i w

/-! ### The lookup (R126, R127, R143) -/

/-- The cue that a lookup chooses has its effect, or the lookup traps or waits. -/
def State.chosenCue (s : State) : Out :=
  match (s.me.winner s.thread.cset s.lookupKey).bind fun e => decodeCue e.live.action with
  | some q => exec q s
  | none => s.cueMiss

/-! ### A word or lookup that a BARARV's reply holds back (R232, R335) -/

/-- An instruction whose effect is a trap or the end of its thread: it has that effect when it issues. -/
def endsItself (i : Instr) : Bool :=
  match i with
  | .trap _ => true
  | .bkpt _ => true
  | .exit _ => true
  | _ => false

/-- A word or lookup that a thread has tried has ended in a trap. -/
def Thread.trapped (before : Thread) (after : Option Thread) : Bool :=
  after.any fun t => match t.status with
    | .exiting _ => true
    | _ => t.tret.getLsbD 56 && !before.tret.getLsbD 56

/-- The outcome of a try at a held word or lookup: the trap that it ends in, in whose handler the reply is still awaited,
or an unused cycle. -/
def State.heldOutcome (s : State) (o : Out) : Out :=
  match o with
  | .next t =>
    if s.thread.trapped t.thread? then .next ((t.modThread (·.keepReply s.thread.status)).passes 255 false)
    else .next (s.passes 255 false)
  | .fault _ => .next (s.passes 255 false)
  | .refused _ => .next (s.passes 255 false)

/-- What the next word of the slot's thread, or its lookup, would do now; nothing for an instruction that `skip` names. -/
def State.tries (s : State) (skip : Instr → Bool) : Out :=
  if s.thread.atLookup then s.chosenCue
  else if s.breakAt && !s.me.saving s.thread.dom then s.perform (raise 20 2)
  else
    match fetch s.started with
    | .error e => s.settle (.error e)
    | .ok (none, s1) => .next s1
    | .ok (some w, s1) =>
      match decode w with
      | .error sub => s1.perform (raise 1 sub w)
      | .ok i => if skip i then .next s else exec i s1

/-- R335: an issue point of a thread that awaits the reply of its BARARV: the traps of its next word, or of its lookup, are
taken; nothing else of it happens. -/
def State.heldPoint (s : State) : Out := s.heldOutcome (s.tries endsItself)

/-- The thread has a word to issue in the lookup cycle. -/
def State.wordFollows (s : State) : Bool :=
  match s.thread? with
  | none => false
  | some t => t.status == .running && !t.atLookup && !t.yield && t.holdUntil ≤ s.me.cycle

/-- The chosen shot's first word issues in this cycle, or 8 cycles later where it does not lie in the buffer
(R126, R143; log 4). -/
def State.enterShot (s : State) : Out :=
  match s.pred with
  | false :: r =>
    .next (({ s with pred := r }.modThread fun t => { t with holdUntil := s.me.cycle + 8 }).passes 8 false)
  | true :: r => { s with pred := r }.issueWord
  | [] => s.issueWord

/-- A lookup point: the lookup, a save at a listed boundary (R343), then the chosen shot. -/
def State.lookup (s : State) : Out :=
  match s.chosenCue with
  | .next s1 =>
    let s1 := if s1.thread?.any (·.status == .waiting) then s1
      else s1.modMe fun k => k.count 7 none s.thread.dom.toNat 1
    if s1.wordFollows then
      match execPreemptSave s1.cur s1.me.turnSlot s1 with
      | .next s2 =>
        if s2.thread?.isNone || s2.heldForSave s2.cur s2.me.turnSlot then .next (s2.passes 255 false) else s2.enterShot
      | .fault f => .fault f
      | .refused r => .refused r
    else .next (s1.passes 255 false)
  | .fault f => .fault f
  | .refused r => .refused r

/-! ### A cycle (R20, R21, R68) -/

/-- The slot of the cycle holds no thread, or one that does not issue yet. -/
def State.closed (s : State) : Bool :=
  match s.thread? with
  | none => true
  | some t => s.me.cycle < t.holdUntil

/-- R90: the thread of a YIELD drains, and does nothing until its lookup. -/
def State.yielding (s : State) : Bool :=
  s.thread.yield && !(s.thread.atLookup && s.drained s.cur s.thread.tid)

/-- The next cycle of the current core. The turns of a wait count pass also while the whole core issues nothing (R47), but
not before the first cycle in which the slot may issue (R69): a restored wait is counted from then on (log 42). -/
def State.cycle (s : State) : Out :=
  let t := s.thread
  if s.closed then .next (s.passes 255 false)
  else if 0 < t.wskip then .next ((s.modThread fun t => { t with wskip := t.wskip - 1 }).passes 5 false)
  else
    if s.me.shut then .next (s.passes (if t.status.code = 2 then 6 else 255) false) else
    match t.status with
    | .parked .. => .next (s.passes 6 false)
    | .reply =>
      if s.yielding || s.heldForSave s.cur s.me.turnSlot then .next (s.passes 255 false)
      else if s.dueEvent.isSome then endCycle (exec .deferredEventTaken s)
      else s.heldPoint
    | .running | .waiting =>
      if s.yielding || s.heldForSave s.cur s.me.turnSlot then .next (s.passes 255 false)
      else if s.dueEvent.isSome then endCycle (exec .deferredEventTaken s)
      else if t.atLookup then s.lookup
      else s.issueWord
    | _ => .next (s.passes 255 false)

/-! ### The deadline of a pre-emption (R68, R343, R345) -/

/-- The package in the cycle of core `c` that would be slot `j`'s in this turn. -/
def State.inTurnOf (s : State) (c j : Nat) : State :=
  { s with cur := c }.modCore c fun k => { k with cycle := k.cycle / 8 * 8 + j }

/-- R68: the thread on slot `j` waits where its next word or lookup finds what it needs empty, whether or not it has had a
cycle to find so, and it runs where it does not. -/
def State.awake (s : State) (c j : Nat) : State :=
  match (s.inTurnOf c j).tries fun _ => false with
  | .next u =>
    s.modCore c (·.modThread j fun t => if t.status = .waiting ∨ t.status = .running then
      { t with status := if u.thread.status = .waiting then .waiting else .running } else t)
  | _ => s

/-- R345: in the slot's own issue cycle the trap of a word that a BARARV's reply holds back comes before the deadline. -/
def State.trapFirst (s : State) (c j : Nat) : Bool :=
  let k := s.core c
  k.turnSlot == j && (k.threadAt j).any (fun t => t.status == .reply && !t.atLookup) &&
    match { s with cur := c }.tries endsItself with
    | .next u => { s with cur := c }.thread.trapped u.thread?
    | _ => false

/-- The deadline of the thread on slot `j` has passed, and it waits for what its next word needs or for a reply; in the
cycle of the deadline one that runs may wait by then (R343), unless it skips turns, drains or takes an event first. -/
def Core.waitsPast (k : Core) (j : Nat) : Bool :=
  (k.threadAt j).any fun t => t.preq.any fun q =>
    match t.status with
    | .waiting | .reply => q + 65536 ≤ k.cycle
    | .running => q + 65536 == k.cycle && t.wskip == 0 && !t.yield && t.holdUntil ≤ k.cycle && k.quietEvents t
    | _ => false

/-- An event happens: its effect. At its deadline a thread that waits is first seen as it stands now (R68, R345). -/
def State.happens (s : State) (i : Instr) : Out :=
  match i with
  | .preemptDeadline c j =>
    if !(s.core c).waitsPast j then exec i s
    else if s.trapFirst c j then .next s
    else exec i (s.awake c j)
  | i => exec i s

/-! ### The events that are due (R402; log 3) -/

/-- An event whose effect now is not empty. -/
def State.effective (s : State) (i : Instr) : Bool :=
  match s.happens i with
  | .next t => decide (t ≠ s)
  | _ => true

/-- The cores that the state lists, and those that launches deal to. -/
def State.active (s : State) : List Nat := (s.cores.map (·.1) ++ s.launches.flatMap (·.cores)).dedup

/-- 0, 1, … below the length of a list. -/
def idx {α : Type} (l : List α) : List Nat := List.range l.length

/-- What a packet does on its arrival. -/
def arrival (i : Nat) (p : Packet) : Instr :=
  match p.kind with
  | .row .. => .rowArrival i
  | .eos .. => .eosArrival i
  | .credit _ => .creditReturn i
  | .ret .. => .returnApply i
  | .retAck .. => .rtretAck i
  | .eosAck _ => .rxeosAck i

/-- What a barrier request does next. -/
def barMove (i : Nat) (b : BarReq) : Instr :=
  if b.reply.isNone then .barrierArrivalApply i
  else if b.init then .barinitReply b.core i else .bararvReply b.core i

/-- The event that ends the work of a register. -/
def DomWork.move : DomWork → Instr
  | .keys d => .keyRefresh d
  | .extend _ d pa => .measurementExtend d pa
  | .attest c d pa => .attest c d pa
  | .restore c d v => .sealRestore c d v

/-- The package's events, in the order in which the model takes them. -/
def State.packageMoves (s : State) : List Instr :=
  s.work.map DomWork.move
    ++ (idx s.shoot).map .shootDownComplete
    ++ s.rereads.map .tailReread
    ++ (s.tails.flatMap fun e => [.launchRecordTake e.1, .loadRecordTake e.1])
    ++ s.bars.zipIdx.map (fun b => barMove b.2 b.1)
    ++ s.net.zipIdx.map (fun p => arrival p.2 p.1)
    ++ s.launches.map (fun l => .launchCompletion l.id)
    ++ s.reports.map fun r => .pageArrival r.1 r.2

/-- The events of a slot's thread. -/
def Core.threadMoves (k : Core) (c i : Nat) : List Instr :=
  match k.threadAt i with
  | none => []
  | some t =>
    (idx t.pend).map (fun j => .vectorResultLand c i j)
      ++ (match t.status with
        | .faulted .. => [.pageFaultSave c i]
        | .exiting _ => [.drainEnd c i]
        | .returning .. => [.drainEnd c i]
        | _ => if t.yield then [.drainEnd c i] else [])
      ++ if t.preq.isSome then [.preemptSave c i, .preemptDeadline c i] else []

/-- The events of a core's slots, engines and queues. A splice's timeout comes before its unsent pairs (R315). -/
def Core.moves (k : Core) (c : Nat) : List Instr :=
  (idx k.fills).map (fun i => .loadDataFill c i)
    ++ (idx k.spawns).map (fun i => .spawnStatusFill c i)
    ++ (List.range 8).flatMap (fun i => if (k.slot i).sendq.isEmpty then [] else [.sendDelivery c i])
    ++ (List.range 8).flatMap (fun i => k.threadMoves c i)
    ++ (idx k.barwts).flatMap (fun i => [.barwtWake c i, .barwtBoundExpiry c i])
    ++ k.splice.flatMap (fun p => [.spliceComplete c p.1, .spliceTimeout c p.1])
    ++ (idx k.routes).map (fun i => .pairSend c i)
    ++ (idx k.hold).map (fun i => .faultHoldResolve c i true)
    ++ k.rxq.flatMap (fun q => [.pageHandover c q.1, .queueTimeout c q.1])
    ++ (idx k.copies).flatMap (fun i => [.followOnIssue c i, .copyStart c i, .copyRowRetire c i, .copyComplete c i])
    ++ (idx k.mats).map (fun i => .matrixCommandStart c i)
    ++ (if k.mats.isEmpty then [] else [.matrixCommandRetire c])
    ++ k.preqDom.map (fun d => .domainSave c d)
    ++ (if k.lbPend.isSome then [.l1Reconfigure c] else [])
    ++ if k.stopped then [.clockRestart c] else []

/-- Some core of the die holds a record that the thief may take. -/
def State.spoils (s : State) (thief d : Nat) : Bool :=
  s.cores.any fun e => e.1 != thief && dieOf e.1 == dieOf thief
    && e.2.deque.any fun r => r.dom.toNat == d && s.movable thief r

/-- The steal that a core makes for a domain (R74). -/
def State.stealMoves (s : State) (c d : Nat) : List Instr :=
  let st := (s.core c).stealOf d
  if st.any (·.answer.isSome) then [.stealAnswer c]
  else if s.spoils c d && s.maySteal c d then
    match s.stealLeft d ((st.map (·.left)).getD (stealOrder c)) with
    | v :: _ => [.stealRequest c v d]
    | [] => []
  else []

/-- The work that a core takes for a domain (R69, R77, R78, R80). -/
def State.workMoves (s : State) (c d : Nat) : List Instr :=
  (if s.launches.isEmpty && (s.core c).pendHead.isEmpty then [] else [.pendingMove c d, .quantumExpiry c d])
    ++ (match (s.core c).freeSlot d with
      | some i => if (s.nextWork c d).isSome then [.takeWork c i] else []
      | none => [])

/-- The domains present on a core (R356). -/
def Core.presentDoms (k : Core) : List Nat := (k.part0.map (·.1)).filter k.present

def State.coreMoves (s : State) (c : Nat) : List Instr :=
  (s.core c).moves c ++ (s.core c).presentDoms.flatMap (s.workMoves c)

/-- The steals of a core, after every other event (R74). -/
def State.coreSteals (s : State) (c : Nat) : List Instr :=
  (s.core c).presentDoms.flatMap (s.stealMoves c)

/-- A core whose clock runs stops it where nothing is left to do (R355). -/
def State.clockStops (s : State) : List Instr :=
  (s.cores.filter fun e => !e.2.stopped && e.2.mayStop).map fun e => .clockStop e.1

/-- The timeouts of PARK that the current core's last cycle has brought: before its next cycle, once every other core has
had its own, so that a message of the timeout's cycle is reported with it (R89). -/
def State.parkMoves (s : State) : List Instr := (List.range 8).map (.parkTimeout s.cur)

/-- The first event that is due and whose effect is not empty. -/
def State.due (s : State) : Option Instr :=
  (s.packageMoves ++ s.active.flatMap s.coreMoves ++ s.parkMoves ++ s.active.flatMap s.coreSteals ++ s.clockStops).find? s.effective

/-- The events of a core that the spec gives a cycle of their own, and that its next cycle does not overtake: bounds and
deadlines that have passed (R89, R233, R306, R313, R343), reductions that are due (R196), saves whose boundary or
issue point it is (R39, R342), and the restart of a stopped clock (R355). -/
def Core.timedMoves (k : Core) (c : Nat) : List Instr :=
  k.splice.flatMap (fun p => [.spliceComplete c p.1, .spliceTimeout c p.1])
    ++ (idx k.barwts).map (fun i => .barwtBoundExpiry c i)
    ++ (List.range 8).flatMap (fun i => [.parkTimeout c i, .preemptDeadline c i, .preemptSave c i])
    ++ ((idx k.fills).filter fun i => k.fills[i]?.any (0 < ·.due)).map (fun i => .loadDataFill c i)
    ++ k.rxq.map (fun q => .queueTimeout c q.1)
    ++ if k.stopped then [.clockRestart c] else []

/-- What comes before a move of the agenda. -/
def State.prompt (s : State) (m : Move) : Option Instr :=
  match m with
  | .cycle c => if s.inReset then none else ((s.core c).timedMoves c).find? s.effective
  | _ => none

end Sys2Proof.Machine
end

