-- ==== Sys2Proof/Machine/Step.lean ====
section
/-! DEFINITION. A step of the package: the next move of the agenda, else the first event that is due, else
the next cycle of the current core (R402; logs 2 and 3). -/

namespace Sys2Proof.Machine

/-- R397: in reset only a reset and a management read are answered. -/
def inResetTakes (i : Instr) : Bool :=
  match i with
  | .hostResetRequest => true
  | .powerOnReset => true
  | .limvonAccess (.readReg _ _) => true
  | _ => false

/-- A move of the agenda: an event of the table has its effect, a core has its next cycle where it has not yet had it
(R20), or what stands outside the package happens. -/
def State.move (s : State) (m : Move) : Host.Outcome State Fault Refusal :=
  match m with
  | .event i => if isEvent i && (!s.inReset || inResetTakes i) then s.happens i else .next s
  | .cycle c => if s.inReset || !s.cycleDue c then .next s else { s with cur := c }.cycle
  | .decoder port ranges => .next (if s.inReset then s else s.setDecoder port ranges)
  | .packet p => .next (if s.inReset then s else s.receive p)
  | .depart i => .next (if s.inReset then s else s.depart i)
  | .supervisorEnd c i v => .next (if s.inReset then s else s.supervisorEnds c i v)
  | .tamper c => .next (if s.inReset then s else s.tamper c)
  | .discard i => .next (if s.inReset then s else s.discardPkt i)
  | .train port lanes => .next (if s.inReset then s else s.trained port lanes)
  | .plan p => .next { s with loadPlan := p }
  | .flash image => .next { s with firmware := image }
  | .attestation fails => .next { s with attestFails := fails }
  | .hbm fails => .next { s with hbmFails := fails }
  | .lanes ls => .next { s with training := ls }

/-- A step: a bound that passes before the next move of the agenda, that move, or what is due with no agenda. -/
def step (s : State) : Host.Outcome State Fault Refusal :=
  match s.agenda with
  | m :: r =>
    match s.prompt m with
    | some i => s.happens i
    | none => { s with agenda := r }.move m
  | [] =>
    if s.inReset then .next s
    else match s.due with
      | some i => s.happens i
      | none => s.cycle

/-- The state whose next step fetches the word `w` and runs it: the word stands at the physical address of
the next word of the slot whose cycle it is, and s0 covers it with right X. -/
def State.withFetchWord (s : State) (_nbits w : Nat) : State :=
  let t := s.thread
  let g := rd t.seg 0 {}
  let need := 8 * t.pc.toNat + 8
  let g' : Seg :=
    { g with dom := t.dom, rights := g.rights ||| 0b000100, limit := if g.limit.toNat < need then BitVec.ofNat 53 need else g.limit }
  let s1 := { s with agenda := [] }.modThread fun t => { t with seg := wr t.seg 0 g' }
  let va := g.base.toNat + 8 * t.pc.toNat
  let pa := match (s1.translate (clusterOf s.cur) t.dom.toNat va 4).1 with
    | .ok pa => pa
    | _ => va
  s1.wrRaw pa (leBytes 8 w)

end Sys2Proof.Machine
end

