-- ==== Sys2Proof/Safety.lean ====
section
/-! DEFINITION. The terms of the claims: the invariant of a run, what an instruction reads and may change,
and the outcomes of an instruction that issues. -/

namespace Sys2Proof.Machine

/-! ### The invariant -/

/-- Device memory in its one canonical form: addresses strictly rising, no entry equal to what an unlisted
address reads as. -/
def Memory.wf (m : List Host.Cell) : Bool := Tab.wf 0 m

/-- What every step keeps: the memory of the package is in canonical form. -/
def State.Inv (s : State) : Prop := Memory.wf s.mem = true

/-! ### Reading operands -/

/-- The operands that the specifiers name, in order, and the thread after they have been read (R49, R50). -/
def State.reading (s : State) (ss : List Spec) : List Word × Thread :=
  let u := s.started
  u.thread.readSrcs (u.me.bankOf u.thread.dom.toNat) (whoWord u.thread.dom.toNat u.cur u.me.turnSlot) ss

/-- The `i`-th operand. -/
def State.operand (s : State) (ss : List Spec) (i : Nat) : Word := arg (s.reading ss).1 i

/-- The state after the operands have been read: ports have lost the messages read (R50, R101). -/
def State.taken (s : State) (ss : List Spec) : State := s.started.modThread fun _ => (s.reading ss).2

/-- A thread is on the slot whose cycle it is, and no operand makes it wait (R50, R68). -/
def State.canRead (s : State) (ss : List Spec) : Prop :=
  s.thread?.isSome = true ∧ s.started.thread.srcReady ss = true

/-- The destination does not make the slot wait (R97). -/
def State.canWrite (s : State) (d : Spec) : Prop := 32 ≤ d.toNat ∨ s.started.thread.isFull d.toNat = true

/-- Nothing holds the thread's accesses back or loses them: every barrier request that it has sent has reached its
object (R279, R280), and the core's next packet authenticates (R373). -/
def State.clear (s : State) : Prop := s.toObject s.cur s.thread.tid none = false ∧ s.cur ∉ s.tampered

/-! ### Outcomes -/

abbrev Result := Host.Outcome State Fault Refusal

/-- The instruction has issued from `s` with its effect done: the next word or the lookup follows, after W
turns (R47, R48). -/
def State.goesOn (s : State) (e : Bool) (w : BitVec 4) : Result := .next (s.modThread (·.advance e w))

/-- A scalar result: the operands have been read, d holds `v`, and the thread goes on (R111, R116). -/
def State.scalarResult (s : State) (ss : List Spec) (d : Spec) (e : Bool) (w : BitVec 4) (v : Word) : Result :=
  ((s.taken ss).write d v).goesOn e w

/-- A flag result: flag `n` holds `b` (R105). -/
def State.flagResult (s : State) (ss : List Spec) (n : BitVec 3) (e : Bool) (w : BitVec 4) (b : Bool) : Result :=
  ((s.taken ss).modThread (·.setFlag n.toNat b)).goesOn e w

/-! ### Frames -/

/-- Between two states only the core whose cycle it is differs. -/
def OnlyThisCore (s t : State) : Prop :=
  t = { s with cores := t.cores } ∧ ∀ c, c ≠ s.cur → t.core c = s.core c

/-- Beyond the slot whose cycle it is, only writes to h registers of this turn and counts of events differ. -/
def OnlyThisSlot (s t : State) : Prop :=
  OnlyThisCore s t ∧ t.me = { s.me with slots := t.me.slots, hPend := t.me.hPend, tally := t.me.tally }
    ∧ ∀ i, i ≠ s.me.turnSlot → t.me.slot i = s.me.slot i

/-- What a scalar instruction leaves alone in its thread: everything but the next word and its place in the shot, the
wait, the ports it reads and the tag, g register `d` (none at 32 and above), the flags of `fs` and counter `cs`. -/
def ScalarThreadFrame (d : Nat) (fs : Byte) (cs : Option Nat) (a b : Thread) : Prop :=
  b = { a with status := b.status, pc := b.pc, atLookup := b.atLookup, first := b.first, chosen := b.chosen,
               wskip := b.wskip, skipBp := b.skipBp, q := b.q, tag := b.tag, g := b.g, full := b.full, f := b.f,
               c := b.c }
    ∧ (∀ i, i < 32 → i ≠ d → rd b.g i 0 = rd a.g i 0 ∧ b.isFull i = a.isFull i)
    ∧ (b.f &&& ~~~fs = a.f &&& ~~~fs) ∧ ∀ n, cs ≠ some n → rd b.c n 0 = rd a.c n 0

/-! ### Class 3 (R107, R108, R174) -/

/-- What an instruction of class 3 writes under the number vd: a v register, a mask or a g register. -/
inductive Dest where
  | v
  | m
  | g
  deriving DecidableEq, Repr

/-- Under WCHK none of the registers (0 to 15 a v register, 16 to 19 a mask) has a pending result (R108). -/
def State.noPending (s : State) (regs : List Nat) : Prop :=
  s.thread.cfg.getLsbD 0 = false ∨ ∀ p ∈ s.thread.pend, p.reg ∉ regs

/-- A vector register of the issuing thread, and a mask. -/
def State.vreg (s : State) (r : Nat) : BitVec 2048 := rd s.thread.v r 0
def State.mreg (s : State) (r : Nat) : BitVec 64 := rd s.thread.m r 0

/-- The enabling mask's register, where mask enable is 1. -/
def maskRegs (x : FmtV) : List Nat := if x.me then [16 + x.mask.toNat] else []

/-- Lane `i` is enabled (R174). -/
def State.laneOn (s : State) (x : FmtV) (i : Nat) : Bool := !x.me || (s.mreg x.mask.toNat).getLsbD i

/-- The scalar source of b, where vb is one (R171). -/
def scalarB (x : FmtV) : List Spec := if x.sc then [x.vb] else []

/-- Lane `i` of a, of b and of c: b may be a scalar in every lane. -/
def State.laneA (s : State) (x : FmtV) (i : Nat) : BitVec 32 := lane (s.vreg x.va.toNat) i
def State.laneB (s : State) (x : FmtV) (i : Nat) : BitVec 32 :=
  if x.sc then (s.operand [x.vb] 0).setWidth 32 else lane (s.vreg x.vb.toNat) i
def State.laneC (s : State) (x : FmtV) (i : Nat) : BitVec 32 := lane (s.vreg x.vc.toNat) i

/-- The instruction can read a, its mask and nothing else, and write v register vd. -/
def State.canV1 (s : State) (x : FmtV) : Prop :=
  s.thread?.isSome = true ∧ s.noPending (x.vd.toNat :: x.va.toNat :: maskRegs x)

/-- The instruction can read a, b and its mask, and write v register vd. -/
def State.canV2 (s : State) (x : FmtV) : Prop :=
  s.canRead (scalarB x)
    ∧ s.noPending (x.vd.toNat :: x.va.toNat :: maskRegs x ++ if x.sc then [] else [x.vb.toNat])

/-- The state `t` follows from `u`, in which the operands have been read, when the result of an instruction that
issued in `s` is pending or has landed and the thread goes on: lane `i` of v register vd is `f i` where it is enabled
and stays as it is elsewhere, from the end of turn t + Wmin on (R107, R174). -/
def VectorResult (s u : State) (x : FmtV) (wmin : Nat) (f : Nat → BitVec 32) (r : Result) : Prop :=
  ∃ p : Pending, p.reg = x.vd.toNat ∧ p.due = 8 * (s.me.turn + wmin + 1)
    ∧ (∀ old i, i < 64 → lane (blend old p.value p.keep) i = if s.laneOn x i then f i else lane old i)
    ∧ r = (u.modThread (·.addResult wmin p)).goesOn x.e x.w

/-- The same for mask vd: bit `i` is `f i` where lane `i` is enabled. -/
def MaskResult (s u : State) (x : FmtV) (wmin : Nat) (f : Nat → Bool) (r : Result) : Prop :=
  ∃ p : Pending, p.reg = 16 + x.vd.toNat ∧ p.due = 8 * (s.me.turn + wmin + 1)
    ∧ (∀ (old : BitVec 64) i, i < 64 → ((blend (old.setWidth 2048) p.value p.keep).setWidth 64).getLsbD i =
        if s.laneOn x i then f i else old.getLsbD i)
    ∧ r = (u.modThread (·.addResult wmin p)).goesOn x.e x.w

/-- A reduction's outcome from `u`: gd is empty, and `v` fills it in the last cycle of turn t + `turns` (R196). -/
def ReductionResult (s u : State) (x : FmtV) (turns : Nat) (v : Word) (r : Result) : Prop :=
  r = ((u.modThread (·.emptyG x.vd.toNat)).modMe fun k => k.addFill
    { tid := s.thread.tid, d := x.vd.toNat, value := v, due := 8 * (s.me.turn + turns + 1) }).goesOn x.e x.w

/-- The lanes that the mask makes present, in lane order. -/
def State.presentLanes (s : State) (x : FmtV) : List (BitVec 32) :=
  ((List.range 64).filter (s.laneOn x)).map (s.laneA x)

/-! ### Class 2 (R253 to R276) -/

/-- The translation of one address for the issuing thread, and the state after it; none where it fails (R256 to R263). -/
def State.physOf (s : State) (nd : Need) (va : Nat) : Option (Nat × State) :=
  match (s.countMiss s.cur s.thread.dom.toNat va).translate (clusterOf s.cur) s.thread.dom.toNat va (nd.setWidth 4) with
  | (.ok pa, s1) => some (pa, s1)
  | _ => none

/-- Translations in order, each in the state that the one before leaves. -/
def State.physAll (s : State) (nd : Need) : List Nat → Option (List Nat × State)
  | [] => some ([], s)
  | va :: r =>
    match s.physOf nd va with
    | none => none
    | some (pa, s1) => (s1.physAll nd r).map fun p => (pa :: p.1, p.2)

/-- The elements of `n` bytes at the addresses with their physical places; a window address has none. -/
def State.lanesAt (s : State) (nd : Need) (n : Nat) : List Nat → Option (List Lane × State)
  | [] => some ([], s)
  | ea :: r =>
    let l : Lane := { ea, n }
    match s.physAll nd (if inWin ea then [] else l.vas) with
    | none => none
    | some (ps, s1) =>
      (s1.lanesAt nd n r).map fun p => ({ l with pa := ps.getD 0 0, pa2 := ps.getD 1 0 } :: p.1, p.2)

/-- R268: the elements of an access whose offsets pass every check: alignment, segment, store check, range table and
translation; with the state after the translations. -/
def State.reach (s : State) (seg : Nat) (offs : List Nat) (n al : Nat) (nd : Need) : Option (List Lane × State) :=
  let t := s.thread
  let eas := offs.map fun o => (rd t.seg seg {}).base.toNat + o
  if (∀ o ∈ offs, o % al = 0)
      ∧ (∀ o ∈ offs, segCheck (rd t.seg seg {}) t.dom o n nd = .ok ((rd t.seg seg {}).base.toNat + o))
      ∧ (∀ ea ∈ eas, inWin ea = true → s.storeFault t.dom.toNat s.cur ea n = none)
      ∧ (∀ ea ∈ eas, s.me.rangeHit t.dom t.tid ea n (nd.getLsbD 1) = none)
  then s.lanesAt nd n eas
  else none

/-- R261, R268: what the pages of an access answer together, and the state after their translations: cause 9 where an
entry lacks a right and cause 8 where a page is refused at once, at the first such page; cause 0, at the first page
with no entry, where no page answers so; none where every page translates. -/
def State.pageStop (s : State) (nd : Need) : List Nat → Option (Nat × Nat) × State
  | [] => (none, s)
  | va :: r =>
    match (s.countMiss s.cur s.thread.dom.toNat va).translate (clusterOf s.cur) s.thread.dom.toNat va
        (nd.setWidth 4) with
    | (.ok _, s1) => s1.pageStop nd r
    | (.rights, s1) => (some (9, va), s1)
    | (.refused, s1) => (some (8, va), s1)
    | (.missing, s1) =>
      match s1.pageStop nd r with
      | (some (c, v), s2) => (some (if c = 0 then (0, va) else (c, v)), s2)
      | (none, s2) => (some (0, va), s2)

/-- R254, R268, R276, R350: how an access of `n` bytes at each of the offsets, made from `u` (`s` with its operands
read), stops where a check fails: the traps in their order, each at the lowest lane that fails, with its sub-code and
details; then the page-rights or page-fault trap; and where a page is missing the wait for it, which is reported. The pages are those that the search finds where the core's
next packet authenticates (R373). -/
def AccessStops (s u : State) (seg : Nat) (offs : List Nat) (n al : Nat) (nd : Need) (r : Result) : Prop :=
  let t := u.thread
  let sg := rd t.seg seg {}
  let eas := offs.map fun o => sg.base.toNat + o
  let failing (o : Nat) : Option (Nat × Nat) :=
    match segCheck sg t.dom o n nd with
    | .ok _ => none
    | .error e => some e
  let outside (ea : Nat) : Option (Nat × Nat) := (u.storeFault t.dom.toNat u.cur ea n).map fun sub => (ea, sub)
  let hit (ea : Nat) : Option (Nat × Nat) := (u.me.rangeHit t.dom t.tid ea n (nd.getLsbD 1)).map fun i => (ea, i)
  let trap (v : State) (c b : Nat) (d0 d1 : Word) : Result := .next (v.started.take c b (t.pc.setWidth 64) d0 d1 0)
  (∀ o, offs.find? (fun o => decide (o % al ≠ 0)) = some o → r = trap s 4 0 (sg.base.setWidth 64 + word o) 0)
  ∧ ((∀ o ∈ offs, o % al = 0) →
    (∀ sub d, offs.findSome? failing = some (sub, d) → r = trap s 5 sub (word d) (word seg))
    ∧ ((∀ o ∈ offs, failing o = none) →
      (∀ ea sub, (eas.filter inWin).findSome? outside = some (ea, sub) → r = trap s 6 sub (word ea) 0)
      ∧ ((∀ ea ∈ eas, inWin ea = true → outside ea = none) →
        (∀ ea i, eas.findSome? hit = some (ea, i) → r = trap s 7 0 (word ea) (word i))
        ∧ ((∀ ea ∈ eas, hit ea = none) → u.cur ∉ u.tampered →
          ∀ c va s1, u.pageStop nd (eas.flatMap fun ea => if inWin ea then [] else Lane.vas { ea, n })
              = (some (c, va), s1) →
            (c ≠ 0 → r = trap (s.trail s1) c 0 (word va) 0)
            ∧ (c = 0 → t.refused = some (va / 65536) → r = trap (s.trail s1) 8 0 (word va) 0)
            ∧ (c = 0 → t.refused ≠ some (va / 65536) → ∃ v b, r = .next v ∧ v.thread? = some b
              ∧ b = { s.thread with status := if s.thread.resident then .stalled va (nd.getLsbD 1)
                                              else .faulted va (nd.getLsbD 1) }
              ∧ v.reports = s.reports ++ [(t.dom.toNat, va / 65536)])))))

/-- A watchpoint of the thread pends its event (R346). -/
def State.watched (s : State) (kind : Nat) (ls : List Lane) : State :=
  s.modThread fun t => t.watchAll (s.me.saving t.dom) kind ls

/-- Release(scope) of the issuing slot (R280). -/
def State.released (s : State) (scope : Nat) : State := s.release s.cur s.thread.dom.toNat scope

/-- Release before, and acquire after, an access of an order and scope (R269). -/
def State.releasing (s : State) (o : Nat × Nat) : State := if o.1 / 2 % 2 = 1 then s.released o.2 else s
def State.acquiring (s : State) (o : Nat × Nat) : State :=
  if o.1 % 2 = 1 then s.acquire s.cur s.thread.dom o.2 else s

/-- The order and scope in effect for a load or store (R43, R269). -/
def State.orderOf (s : State) (isLoad : Bool) (order : BitVec 2) (scope : BitVec 3) : Nat × Nat :=
  effOrder (s.ctx s.thread.ctx).strong isLoad order scope

/-- gd is empty and `v` is on its way to it (R96); 0 and the data error where the element has one (R273). -/
def State.onItsWay (s : State) (d : Spec) (v : Word) (bad : Bool) (ea : Nat) : State :=
  (s.modThread (·.emptyG d.toNat)).modMe fun k => k.addFill
    { tid := s.thread.tid, d := d.toNat, value := if bad then 0 else v
      error := if bad then some (s.thread.pc, word ea) else none }

/-- The elements of a vector load one after the other: the lanes, extended to 32 bits, the first element with an
uncorrectable error, whose lane is 0, and the state after them (R271, R273). -/
def State.loadAll (s : State) (n : Nat) (sx : Bool) (scope : Nat) :
    List Lane → (List (BitVec 32) × Option Nat) × State
  | [] => (([], none), s)
  | l :: r =>
    if s.laneBad s.cur s.thread.dom scope l then
      let p := s.loadAll n sx scope r
      ((0 :: p.1.1, some l.ea), p.2)
    else
      let q := s.load s.cur s.thread.dom scope l
      let p := q.2.loadAll n sx scope r
      (((extend n sx (ofLe q.1)).setWidth 32 :: p.1.1, p.1.2), p.2)

/-- An element of `n` bytes that the issuing thread reads at its place: zeros, and nothing done, where it has an
uncorrectable error (R273). -/
def State.element (s : State) (scope : Nat) (l : Lane) : List Byte × State :=
  if s.laneBad s.cur s.thread.dom scope l then (List.replicate l.n 0, s) else s.load s.cur s.thread.dom scope l

/-- The task records at the places of a LAUNCH, read in order, and the state after them (R88, R273). -/
def State.recordsAt (s : State) (scope : Nat) : List Lane → List RawTask × State
  | [] => ([], s)
  | l :: r =>
    let q := s.element scope l
    let u := if s.laneBad s.cur s.thread.dom scope l then
        q.2.modThread fun t => t.pendEvent 0 10 0 t.taddrNow (word l.ea) 0 else q.2
    let p := u.recordsAt scope r
    (⟨ofLe q.1⟩ :: p.1, p.2)

/-- Where an element at `ea` is bad, its data error is pending (R273, R336). -/
def State.erring (s : State) (bad : Bool) (ea : Nat) : State :=
  if bad then s.modThread fun t => t.pendEvent 0 10 0 t.taddrNow (word ea) 0 else s

/-- v register `r` holds `v` at the end of this turn, after the results that are due by then (R107, R108). -/
def State.landed (s : State) (r : Nat) (v : BitVec 2048) : State :=
  s.modThread (·.addResult 0 { reg := r, due := 8 * (s.me.turn + 0 + 1), value := v, keep := BitVec.allOnes 2048 })

/-- The end of a vector load: vd holds the lanes, or 0 with the data error pending where an element had one; the
watchpoints; the acquire (R269, R271, R273, R346). -/
def State.vectorLoaded (s : State) (d : Spec) (n : Nat) (sx : Bool) (o : Nat × Nat) (ls : List Lane) : State :=
  let q := s.loadAll n sx o.2 ls
  let u := (q.2.landed d.toNat (if q.1.2.isSome then 0 else ofLanes q.1.1)).watched 1 ls
  (u.erring q.1.2.isSome (q.1.2.getD 0)).acquiring o

/-- The elements of a vector store, lane 0 first: a higher lane's bytes remain (R271). -/
def State.storeAll (s : State) (n : Nat) (scope : Nat) (v : BitVec 2048) : Nat → List Lane → State
  | _, [] => s
  | i, l :: r =>
    (s.storeTo s.cur s.thread.dom scope l ((List.range n).map fun j => (lane v i).extractLsb' (8 * j) 8)).storeAll
      n scope v (i + 1) r

/-- Byte `pa` of device memory is one of the elements' bytes. -/
def inLanes (ls : List Lane) (pa : Nat) : Prop := ∃ l ∈ ls, l.win = false ∧ ∃ i, i < l.n ∧ l.phys i = pa

/-- Byte `pa` is the place that a line of the issuing core's L1 gives one of the elements' bytes. -/
def inHeld (s : State) (dom : Byte) (ls : List Lane) (pa : Nat) : Prop :=
  ∃ l ∈ ls, l.win = false ∧ ∃ i, i < l.n ∧
    ∃ x ∈ s.me.lines, x.dom = dom ∧ x.va = lineOf (l.ea + i) ∧ x.pa + (l.ea + i) % 32 = pa

/-- Byte `off` of the store of core `c` is one of the window elements' bytes. -/
def inWindow (me : Nat) (ls : List Lane) (c off : Nat) : Prop :=
  ∃ l ∈ ls, l.win = true ∧ (storeLoc me l.ea).1 = c ∧ (storeLoc me l.ea).2 ≤ off ∧ off < (storeLoc me l.ea).2 + l.n

/-- No line of the issuing core's L1 has written bytes in the 256-byte block of `pa`. -/
abbrev State.settled (s : State) (pa : Nat) : Prop :=
  ∀ l ∈ s.me.lines, l.written ≠ 0 → l.pa / 256 ≠ pa / 256 ∧ (l.pa + 31) / 256 ≠ pa / 256

/-- No unfinished business of the issuing core touches the 256-byte block of `pa`: no line of its L1 with written
bytes, no entry of the page table and none that its cluster's port holds. -/
def State.undisturbed (s : State) (pa : Nat) : Prop :=
  s.settled pa
    ∧ (pa < s.ptbase.toNat ∨ s.ptbase.toNat + 2 ^ (fld s.ptcfg 0 5 + 8) ≤ pa)
    ∧ ∀ e ∈ Tab.get [] s.tlb (clusterOf s.cur), pa < e.ent + 16 ∨ e.ent + 24 ≤ pa

/-! ### Commands of class 4 and 5 (R96, R202, R253) -/

/-- The identity under which a command that the issuing thread issues in `u` runs. -/
def State.commandOf (u : State) (d : Spec) (scope : Nat) : Target :=
  { id := u.nextId, dom := u.thread.dom, tid := u.thread.tid, d := d.toNat, pc := u.thread.pc, scope }

/-- One identity number has been used. -/
def State.withId (u : State) : State := { u with nextId := u.nextId + 1 }

/-- gd is empty: it waits for the status (R9). -/
def State.emptied (u : State) (d : Spec) : State := u.modThread (·.emptyG d.toNat)

/-- gd of the issuing thread is empty; g0 never is (R49). -/
def State.awaits (t : State) (d : Spec) : Prop :=
  d.toNat ≠ 0 → d.toNat < 32 → ∃ b, t.thread? = some b ∧ b.isFull d.toNat = false

/-- R253: the segment check of the issuing thread gives the address. -/
def State.segAt (u : State) (seg off n : Nat) (nd : Need) (ea : Nat) : Prop :=
  segCheck (rd u.thread.seg seg {}) u.thread.dom off n nd = .ok ea

/-- R395: an access by the store address `x` has been counted, where that is a window address. -/
def State.counted (u : State) (x : Nat) : State :=
  u.modMe fun k => k.count 17 none u.thread.dom.toNat (if inWin x then 1 else 0)

/-- R202, R211: `n` bytes at store address `x` are the domain's, and (where asked) no range entry of another thread
forbids reading them (or writing). -/
def State.storeAt (u : State) (x n : Nat) : Prop := u.storeFault u.thread.dom.toNat u.cur x n = none
def State.storeFree (u : State) (x n : Nat) (write : Bool) : Prop :=
  let p := storeLoc u.cur x
  u.storeAt x n ∧ u.me.rangeHit u.thread.dom u.thread.tid (winAddr p.1 p.2) n write = none

/-- A trap taken at the instruction's own word, with nothing else of it done (R10, R337). -/
def State.trapped (s : State) (cause sub : Nat) (d0 : Word := 0) : Result :=
  .next (s.started.take cause sub (s.thread.pc.setWidth 64) d0 0 0)

/-- R202: core and offset of the byte that a store address names; none where it has neither form or is not backed. -/
def storeByte (me x : Nat) : Option (Nat × Nat) :=
  if x < 0x180000 then some (me, x)
  else if winLo ≤ x ∧ x < winHi ∧ (x - winLo) % 0x200000 < 0x180000 then
    some ((x - winLo) / 0x200000, (x - winLo) % 0x200000)
  else none

/-- R202, R230: the store check of `n` bytes at store address `A`, made on core `me` for domain `d`, fails with `sub`: 1
where a byte names none of a store, else 2 where a byte lies in no scratchpad bank of the domain. -/
def State.storeStop (s : State) (d me A n sub : Nat) : Prop :=
  (sub = 1 ∧ ∃ i, i < n ∧ storeByte me (A + i) = none)
    ∨ (sub = 2 ∧ (∀ i, i < n → storeByte me (A + i) ≠ none)
      ∧ ∃ i c off, i < n ∧ storeByte me (A + i) = some (c, off) ∧ (s.core c).ownsBank d (off / 32768) = false)

/-- R202, R211, R230, R326: how an instruction that issued in `s` and reads (or writes) `n` bytes at store address `A`, a
multiple of `al`, stops in its checks: store-access, the trap for a wrong alignment, range-hit against the entries of `k`. -/
def BlockStops (s u : State) (k : Core) (A n al cause sub : Nat) (write : Bool) (r : Result) : Prop :=
  let t := u.thread
  let p := storeLoc s.cur A
  (∀ b, u.storeStop t.dom.toNat s.cur A n b → r = s.trapped 6 b (word A))
    ∧ (u.storeAt A n → p.2 % al ≠ 0 → r = s.trapped cause sub (if cause = 6 then word A else 0))
    ∧ (u.storeAt A n → p.2 % al = 0 → ∀ i, k.rangeHit t.dom t.tid (winAddr p.1 p.2) n write = some i →
      r = .next (s.started.take 7 0 (s.thread.pc.setWidth 64) (word (winAddr p.1 p.2)) (word i) 0))

/-! ### The bytes that engines move (R215, R247, R249, R305) -/

/-- The place of the byte at `va` for an engine of core `c` and domain `d` with rights `nd`: byte `off` of the store of
core `k` as `(k + 1, off)`, byte `pa` of device memory as `(0, pa)`. None where the engine cannot have it at once, with
nothing else of the machine changed: no right to it, a translation still to be made, an uncorrectable error. -/
def State.spot (s : State) (c d va : Nat) (nd : BitVec 4) : Option (Nat × Nat) :=
  if inWin va then
    if s.storeFault d c va 1 = none then some ((storeLoc c va).1 + 1, (storeLoc c va).2) else none
  else match s.engXlate c d va nd with
    | .ok pa s1 => if s1 = s ∧ s.isBad pa 1 = false then some (0, pa) else none
    | .wait _ _ => none
    | .fail _ _ => none

/-- What domain `d` reads there. -/
def State.spotByte (s : State) (d : Nat) (p : Nat × Nat) : Byte :=
  if p.1 = 0 then s.rdPa d p.2 else Tab.get 0 (s.core (p.1 - 1)).store p.2

/-- The `n` bytes from `va` on, all in the window or all outside it, stand at the places `f 0`, `f 1`, …. -/
def State.spots (s : State) (c d va n : Nat) (nd : BitVec 4) (f : Nat → Nat × Nat) : Prop :=
  ∀ i, i < n → s.spot c d (va + i) nd = some (f i) ∧ inWin (va + i) = inWin va

/-- `f` gives different places to different numbers below `n`. -/
def Distinct (n : Nat) (f : Nat → Nat × Nat) : Prop := ∀ i j, i < n → j < n → f i = f j → i = j

/-- What domain `d` reads in `t`: at the places `f 0` to `f (n - 1)` the bytes of `v`, elsewhere what it reads in `s`. -/
def Moved (s t : State) (d n : Nat) (f : Nat → Nat × Nat) (v : Nat → Byte) : Prop :=
  (∀ i, i < n → t.spotByte d (f i) = v i)
    ∧ ∀ p, (∀ i, i < n → f i ≠ p) → t.spotByte d p = s.spotByte d p

/-! ### Fills by events (R96) -/

/-- Thread `tid` stands on a slot of core `c`, and `d` is one of its registers g1 to g31. -/
def State.onSlot (s : State) (c tid d : Nat) : Prop := (∃ i, (s.core c).slotOf tid = some i) ∧ 0 < d ∧ d < 32

/-- gd of thread `tid` of core `c` holds `v` and is full. -/
def State.got (t : State) (c tid d : Nat) (v : Word) : Prop :=
  ∃ i b, (t.core c).slotOf tid = some i ∧ (t.core c).threadAt i = some b ∧ rd b.g d 0 = v ∧ b.isFull d = true


/-! ### Rounding (R156, R162, R163) -/

/-- The magnitude whose bits in the format are `b`. -/
def Fmt.mag (f : Fmt) (b : Nat) : ℚ := (FV.ofBits f b).rat

/-- `b` is the greatest finite magnitude of the format that is no greater than `y`. -/
def Fmt.below (f : Fmt) (y : ℚ) (b : Nat) : Prop :=
  b < f.infBits ∧ f.mag b ≤ y ∧ ∀ c, c < f.infBits → f.mag c ≤ y → f.mag c ≤ f.mag b

/-- The bits `b` are those of the exact magnitude `y` rounded to the format: in mode 0 to a nearest finite value, of two to
the one whose last bit is 0, or to infinity from the middle between the greatest finite value and the next power of 2 on;
in mode 1 toward zero; in mode 2 with the draw `r`, which carries `y` over the spacing above the value toward zero or does
not, and never to infinity. -/
def RoundsTo (f : Fmt) (mode r : Nat) (y : ℚ) (b : Nat) : Prop :=
  match mode with
  | 0 =>
    let top := f.mag (f.infBits - 1)
    if top + (top - f.mag (f.infBits - 2)) / 2 ≤ y then b = f.infBits
    else b < f.infBits ∧ ∀ c, c < f.infBits → c ≠ b →
      |y - f.mag b| < |y - f.mag c| ∨ (|y - f.mag b| = |y - f.mag c| ∧ b % 2 = 0)
  | 1 => f.below y b
  | _ => ∃ z, f.below y z ∧
      b = if z + 1 < f.infBits ∧ f.mag (z + 1) ≤ y + r / 65536 * (f.mag (z + 1) - f.mag z) then z + 1 else z

/-! ### The approximations (R185) -/

/-- `q` is within `n` ulps of `y`: an ulp is the spacing of f32 at the exact result (R185). -/
def WithinUlps (n : Nat) (q y : ℝ) : Prop := |q - y| ≤ n * 2 ^ max (Int.log 2 |y| - 23) (-149)

/-- The bound of R185 on an approximation `q` of the operation at `x`. -/
def ApproxOk (op : Nat) (x q : ℝ) : Prop :=
  match op with
  | 0 => WithinUlps 1 q (1 / √x)
  | 1 => WithinUlps 1 q (1 / x)
  | 2 => WithinUlps 2 q (2 ^ x)
  | 3 => if 1 / 2 ≤ x ∧ x ≤ 2 then |q - Real.logb 2 x| ≤ 1 / 2 ^ 22 else WithinUlps 2 q (Real.logb 2 x)
  | _ => WithinUlps 2 q (Real.tanh x) ∧ |q - Real.tanh x| ≤ 1 / 2 ^ 24

/-! ### Partitions (R356 to R361) -/

/-- Slot, accumulator, bank, cue entry, ring, splice or queue number `j` is in the parts of both domains. -/
def Core.sharing (k : Core) (a b j : Nat) : Prop :=
  ((k.slotMask a).testBit j = true ∧ (k.slotMask b).testBit j = true) ∨ (k.hasAcc a j = true ∧ k.hasAcc b j = true)
    ∨ (inRange j (k.bankBase a) (k.bankCount a) = true ∧ inRange j (k.bankBase b) (k.bankCount b) = true)
    ∨ (inRange j (k.cueBase a) (k.cueCount a) = true ∧ inRange j (k.cueBase b) (k.cueCount b) = true)
    ∨ (k.hasRing a j = true ∧ k.hasRing b j = true) ∨ (k.hasSplice a j = true ∧ k.hasSplice b j = true)
    ∨ (k.hasQueue a j = true ∧ k.hasQueue b j = true)

/-- R360, R361: a write of PART0 or PART1 of domain `d`, after which core `k` would have the parts of `k'`, has no effect:
two present domains would share something, a range or a share of `d` would be too large, the shares of the present
domains would be together, a range quota too small, a cue set outside, or a slot that leaves `d` holds a thread. -/
def Core.writeRefused (k k' : Core) (d : Nat) : Prop :=
  (∃ a b, a ≠ b ∧ k'.present a = true ∧ k'.present b = true ∧ (k'.hbank a = k'.hbank b ∨ ∃ j, k'.sharing a b j))
    ∨ (48 - k.lb < k'.bankBase d + k'.bankCount d ∨ 1024 < k'.cueBase d + k'.cueCount d
      ∨ 16 < k'.ringBase d + k'.ringCount d ∨ 16 < k'.splBase d + k'.splCount d ∨ 16 < k'.rxBase d + k'.rxCount d)
    ∨ (64 < k'.cueQuota d ∨ 32 < k'.rangeQuota d ∨ 64 < k'.dequeShare d ∨ 16 < k'.copyShare d ∨ 8 < k'.matShare d)
    ∨ (∃ ds : List Nat, ds.Nodup ∧ (∀ a ∈ ds, k'.present a = true)
      ∧ (64 < (ds.map k'.dequeShare).sum ∨ 16 < (ds.map k'.copyShare).sum ∨ 8 < (ds.map k'.matShare).sum))
    ∨ (∃ a, k'.present a = true ∧ k'.rangeQuota a < 4)
    ∨ (∃ e ∈ k.desc, e.2.count ≠ 0 ∧ e.2.dom.toNat = d
      ∧ (e.2.base < k'.cueBase d ∨ k'.cueBase d + k'.cueCount d < e.2.base + e.2.count))
    ∨ ∃ j, j < 8 ∧ (k.slotMask d).testBit j = true ∧ (k'.slotMask d).testBit j = false ∧ (k.threadAt j).isSome = true

end Sys2Proof.Machine
end

