-- ==== Sys2Proof/Certificates/Slice0/Obligations.lean ====
section
/-! DEFINITION. The statements for the provers, family by family in the order of the opcode table. Each
docstring names the rules that its statement formalises; the terms stand in Sys2Proof/Safety.lean. -/

open Sys2Proof Sys2Proof.Machine

/-! ### Class 0 and class 1 (R111 to R116) -/

/-- R112, R113: every two-source instruction of class 0 completes and writes to d the value that the table of
R112 gives, for all operands. -/
def Obligations.ScalarTwoSources : Prop :=
  ∀ (x : FmtA) (s : State), s.canRead [x.a, x.b] → s.canWrite x.d →
    let A := s.operand [x.a, x.b] 0
    let B := s.operand [x.a, x.b] 1
    let n := (B.extractLsb' 0 6).toNat
    let gives := s.scalarResult [x.a, x.b] x.d x.e x.w
    exec (.add x) s = gives (A + B) ∧ exec (.sub x) s = gives (A - B)
    ∧ exec (.mul x) s = gives (A * B)
    ∧ exec (.mulh x) s = gives ((A.signExtend 128 * B.signExtend 128).extractLsb' 64 64)
    ∧ exec (.mulhn x) s = gives ((A.setWidth 128 * B.setWidth 128).extractLsb' 64 64)
    ∧ exec (.div x) s = gives (if B = 0 then BitVec.allOnes 64 else A.sdiv B)
    ∧ exec (.divn x) s = gives (if B = 0 then BitVec.allOnes 64 else A / B)
    ∧ exec (.rem x) s = gives (if B = 0 then A else A.srem B)
    ∧ exec (.remn x) s = gives (if B = 0 then A else A % B)
    ∧ exec (.and x) s = gives (A &&& B) ∧ exec (.or x) s = gives (A ||| B)
    ∧ exec (.xor x) s = gives (A ^^^ B) ∧ exec (.andn x) s = gives (A &&& ~~~B)
    ∧ exec (.orn x) s = gives (A ||| ~~~B)
    ∧ exec (.shl x) s = gives (A <<< n) ∧ exec (.shr x) s = gives (A >>> n)
    ∧ exec (.sar x) s = gives (A.sshiftRight n)
    ∧ exec (.rol x) s = gives (A <<< n ||| A >>> (64 - n))
    ∧ exec (.ror x) s = gives (A >>> n ||| A <<< (64 - n))
    ∧ exec (.min x) s = gives (if A.toInt ≤ B.toInt then A else B)
    ∧ exec (.max x) s = gives (if A.toInt ≤ B.toInt then B else A)
    ∧ exec (.minn x) s = gives (if A.toNat ≤ B.toNat then A else B)
    ∧ exec (.maxn x) s = gives (if A.toNat ≤ B.toNat then B else A)
    ∧ exec (.sel x) s = gives (if s.thread.f.getLsbD x.flag.toNat then A else B)

/-- R112: the one-source instructions complete: the counts of zero and one bits, and the reversal of the bytes. -/
def Obligations.ScalarOneSource : Prop :=
  ∀ (x : FmtA) (s : State), s.canRead [x.a] → s.canWrite x.d →
    let A := s.operand [x.a] 0
    let gives := s.scalarResult [x.a] x.d x.e x.w
    exec (.clz x) s = gives (if A = 0 then 64 else BitVec.ofNat 64 (63 - A.toNat.log2))
    ∧ (∃ n, n ≤ 64 ∧ exec (.ctz x) s = gives (BitVec.ofNat 64 n) ∧ (∀ i, i < n → A.getLsbD i = false)
        ∧ (n < 64 → A.getLsbD n = true))
    ∧ exec (.popc x) s = gives (BitVec.ofNat 64 ((List.range 64).map fun i => (A.getLsbD i).toNat).sum)
    ∧ ∃ v : Word, exec (.bswap x) s = gives v
        ∧ ∀ i, i < 8 → v.extractLsb' (8 * i) 8 = A.extractLsb' (8 * (7 - i)) 8

/-- R112, R114: EXTR, INS and MADD complete; INS reads the old value of d after c. -/
def Obligations.ScalarThreeSources : Prop :=
  (∀ (x : FmtA) (s : State), s.canRead [x.a, x.b, x.c] → s.canWrite x.d →
    let A := s.operand [x.a, x.b, x.c] 0
    let B := s.operand [x.a, x.b, x.c] 1
    let C := s.operand [x.a, x.b, x.c] 2
    let gives := s.scalarResult [x.a, x.b, x.c] x.d x.e x.w
    exec (.madd x) s = gives (A * B + C)
    ∧ ∃ v : Word, exec (.extr x) s = gives v ∧ ∀ i, i < 64 → v.getLsbD i =
        (decide (i < C.toNat) && A.getLsbD (i + (B.extractLsb' 0 6).toNat)))
  ∧ ∀ (x : FmtA) (s : State), s.canRead [x.a, x.b, x.c, x.d] → s.canWrite x.d →
    let ss := [x.a, x.b, x.c, x.d]
    let A := s.operand ss 0
    let n := ((s.operand ss 1).extractLsb' 0 6).toNat
    let C := (s.operand ss 2).toNat
    let old := s.operand ss 3
    ∃ v : Word, exec (.ins x) s = s.scalarResult ss x.d x.e x.w v
      ∧ ∀ i, i < 64 → v.getLsbD i = if n ≤ i ∧ i < n + Nat.min C 64 then A.getLsbD (i - n) else old.getLsbD i

/-- R59, R112, R116: CMP, CMPN, TST and their immediate forms complete and write the one flag that they name
under the condition of R59, signed or unsigned. -/
def Obligations.Comparisons : Prop :=
  let holds (c : BitVec 3) (eq lt : Bool) : Bool :=
    match c.toNat with
    | 0 => eq
    | 1 => !eq
    | 2 => lt
    | 3 => lt || eq
    | 4 => !lt && !eq
    | 5 => !lt
    | 6 => true
    | _ => false
  (∀ (x : FmtA) (s : State), s.canRead [x.a, x.b] →
    let A := s.operand [x.a, x.b] 0
    let B := s.operand [x.a, x.b] 1
    let gives := s.flagResult [x.a, x.b] x.flag x.e x.w
    exec (.cmp x) s = gives (holds x.cond (A == B) (decide (A.toInt < B.toInt)))
    ∧ exec (.cmpn x) s = gives (holds x.cond (A == B) (decide (A.toNat < B.toNat)))
    ∧ exec (.tst x) s = gives (A &&& B != 0))
  ∧ ∀ (x : FmtB) (s : State), s.canRead [x.a] →
    let A := s.operand [x.a] 0
    let c := x.d.extractLsb' 0 3
    let gives := s.flagResult [x.a] x.flag x.e x.w
    exec (.cmpi x) s = gives (holds c (A == x.imm.signExtend 64) (decide (A.toInt < x.imm.toInt)))
    ∧ exec (.cmpni x) s = gives (holds c (A == x.imm.setWidth 64) (decide (A.toNat < x.imm.toNat)))
    ∧ exec (.tsti x) s = gives (A &&& x.imm.setWidth 64 != 0)

/-- R116: the class 1 instructions with a result complete and write it. -/
def Obligations.ScalarImmediates : Prop :=
  (∀ (x : FmtB) (s : State), s.canRead [x.a] → s.canWrite x.d →
    let A := s.operand [x.a] 0
    let S : Word := x.imm.signExtend 64
    let Z : Word := x.imm.setWidth 64
    let n := (x.imm.extractLsb' 0 6).toNat
    let gives := s.scalarResult [x.a] x.d x.e x.w
    exec (.addi x) s = gives (A + S) ∧ exec (.muli x) s = gives (A * S)
    ∧ exec (.andi x) s = gives (A &&& Z) ∧ exec (.ori x) s = gives (A ||| Z)
    ∧ exec (.xori x) s = gives (A ^^^ Z) ∧ exec (.shli x) s = gives (A <<< n)
    ∧ exec (.shri x) s = gives (A >>> n) ∧ exec (.sari x) s = gives (A.sshiftRight n)
    ∧ exec (.ldih x) s = gives (x.imm ++ A.extractLsb' 0 32))
  ∧ ∀ (x : FmtB) (s : State), s.canRead [] → s.canWrite x.d →
    exec (.ldi x) s = s.scalarResult [] x.d x.e x.w (x.imm.signExtend 64)

/-- R60, R112, R117, R118: NOP, FLAGR, FLAGW, CNTW and CNTR complete. -/
def Obligations.FlagsAndCounters : Prop :=
  (∀ (x : FmtA) (s : State), s.canRead [] → s.canWrite x.d →
    exec (.flagr x) s = s.scalarResult [] x.d x.e x.w (s.thread.f.setWidth 64))
  ∧ (∀ (x : FmtA) (s : State), s.canRead [x.a] →
    exec (.flagw x) s = ((s.taken [x.a]).modThread fun t =>
      { t with f := (s.operand [x.a] 0).setWidth 8 }).goesOn x.e x.w)
  ∧ (∀ (x : FmtS) (s : State), s.canRead [x.a] →
    exec (.cntw x) s = ((s.taken [x.a]).modThread fun t =>
      { t with c := wr t.c (x.op.extractLsb' 0 2).toNat
                ((s.operand [x.a] 0 + x.imm.setWidth 64).setWidth 32) }).goesOn x.e x.w)
  ∧ (∀ (x : FmtS) (s : State), s.canRead [] → s.canWrite x.d →
    exec (.cntr x) s = s.scalarResult [] x.d x.e x.w
      ((rd s.thread.c (x.op.extractLsb' 0 2).toNat 0).setWidth 64))
  ∧ ∀ (x : FmtS) (s : State), s.canRead [] → exec (.nop x) s = s.started.goesOn x.e x.w

/-- R49, R50, R96, R97, R100, R105, R112, R116: the frame of classes 0 and 1 and of CNTW, CNTR and NOP. Whatever the
outcome, only the issuing slot, its domain's pending h writes and the counts of events change: a write of h register
d - 32 may be added to the pending ones, and none where d is no h register; in the thread only what the instruction names
changes: g register d, or the named flag, or all flags (FLAGW), or the named counter (CNTW). -/
def Obligations.ScalarFrame : Prop :=
  ∀ (i : Instr) (s t : State) (a : Thread), s.thread? = some a → exec i s = .next t →
    let keeps (d : Nat) (fs : Byte) (cs : Option Nat) : Prop :=
      OnlyThisSlot s t ∧ (∃ b, t.thread? = some b ∧ ScalarThreadFrame d fs cs a b)
        ∧ (t.me.hPend = s.me.hPend
          ∨ 32 ≤ d ∧ d < 48 ∧ ∃ v, t.me.hPend = s.me.hPend ++ [(s.me.hbank a.dom.toNat, d - 32, v)])
    let one (n : BitVec 3) : Byte := BitVec.ofNat 8 (2 ^ n.toNat)
    match i with
    | .add x | .sub x | .mul x | .mulh x | .mulhn x | .div x | .divn x | .rem x | .remn x | .and x | .or x
    | .xor x | .andn x | .orn x | .shl x | .shr x | .sar x | .rol x | .ror x | .min x | .max x | .minn x
    | .maxn x | .clz x | .ctz x | .popc x | .bswap x | .extr x | .ins x | .madd x | .sel x | .flagr x =>
      keeps x.d.toNat 0 none
    | .addi x | .andi x | .ori x | .xori x | .shli x | .shri x | .sari x | .muli x | .ldi x | .ldih x =>
      keeps x.d.toNat 0 none
    | .cmp x | .cmpn x | .tst x => keeps 64 (one x.flag) none
    | .cmpi x | .cmpni x | .tsti x => keeps 64 (one x.flag) none
    | .flagw _ => keeps 64 0xFF none
    | .cntw x => keeps 64 0 (some (x.op.extractLsb' 0 2).toNat)
    | .cntr x => keeps x.d.toNat 0 none
    | .nop _ => keeps 64 0 none
    | _ => True

/-- R50, R68, R97, R111, R114: every instruction of classes 0 and 1, and CNTW and CNTR, one of whose sources is not there,
or whose destination is empty, makes its slot wait: the thread's registers, its next word and memory stay as they are. -/
def Obligations.ScalarWaits : Prop :=
  ∀ (s : State) (a : Thread), s.thread? = some a →
    let waits (i : Instr) : Prop := ∃ t b, exec i s = .next t ∧ t.thread? = some b
      ∧ b = { a with status := .waiting } ∧ OnlyThisSlot s t ∧ t.me.hPend = s.me.hPend
    let lacks (ss : List Spec) : Prop := s.started.thread.srcReady ss = false
    (∀ x : FmtA,
      (lacks [x.a, x.b] ∨ ¬ s.canWrite x.d →
        (waits (.add x) ∧ waits (.sub x) ∧ waits (.mul x) ∧ waits (.mulh x) ∧ waits (.mulhn x) ∧ waits (.div x)
          ∧ waits (.divn x) ∧ waits (.rem x) ∧ waits (.remn x) ∧ waits (.and x) ∧ waits (.or x) ∧ waits (.xor x))
        ∧ waits (.andn x) ∧ waits (.orn x) ∧ waits (.shl x) ∧ waits (.shr x) ∧ waits (.sar x) ∧ waits (.rol x)
        ∧ waits (.ror x) ∧ waits (.min x) ∧ waits (.max x) ∧ waits (.minn x) ∧ waits (.maxn x) ∧ waits (.sel x))
      ∧ (lacks [x.a] ∨ ¬ s.canWrite x.d →
        waits (.clz x) ∧ waits (.ctz x) ∧ waits (.popc x) ∧ waits (.bswap x))
      ∧ (lacks [x.a, x.b, x.c] ∨ ¬ s.canWrite x.d → waits (.extr x) ∧ waits (.madd x))
      ∧ (lacks [x.a, x.b, x.c, x.d] ∨ ¬ s.canWrite x.d → waits (.ins x))
      ∧ (lacks [x.a, x.b] → waits (.cmp x) ∧ waits (.cmpn x) ∧ waits (.tst x))
      ∧ (lacks [x.a] → waits (.flagw x)) ∧ (¬ s.canWrite x.d → waits (.flagr x)))
    ∧ (∀ x : FmtB,
      (lacks [x.a] ∨ ¬ s.canWrite x.d →
        waits (.addi x) ∧ waits (.muli x) ∧ waits (.andi x) ∧ waits (.ori x) ∧ waits (.xori x) ∧ waits (.shli x)
        ∧ waits (.shri x) ∧ waits (.sari x) ∧ waits (.ldih x))
      ∧ (¬ s.canWrite x.d → waits (.ldi x))
      ∧ (lacks [x.a] → waits (.cmpi x) ∧ waits (.cmpni x) ∧ waits (.tsti x)))
    ∧ ∀ x : FmtS, (lacks [x.a] → waits (.cntw x)) ∧ (¬ s.canWrite x.d → waits (.cntr x))

/-- R49, R50, R99 to R104: what each scalar source reads, after the sources that stand before it: g0 is 0, a g register
its value, an h register that of the domain's bank, a port its oldest message, which it loses and whose tag `tag` then
holds, the identity, prm and tag their values, who its layout; no other register changes. And what a write of a scalar
destination does: g0 keeps nothing, another g register holds the value and
is full, an h register of the domain's bank waits for the end of the turn; there each h register takes the turn's latest
write to it, and one that no instruction of the turn wrote keeps its value.
(It rests on the model's choices: log entry 36.) -/
def Obligations.ScalarOperands : Prop :=
  (∀ (s : State) (a : Thread) (ss : List Spec) (sp : Spec), s.thread? = some a →
    let u := (s.taken ss).thread
    let v := s.operand (ss ++ [sp]) ss.length
    let u' := (s.taken (ss ++ [sp])).thread
    let n := sp.toNat
    (ss = [] → u = { a with status := .running })
    ∧ (n < 48 ∨ 52 ≤ n → u' = u)
    ∧ (n = 0 → v = 0) ∧ (0 < n → n < 32 → v = rd a.g n 0)
    ∧ (32 ≤ n → n < 48 → v = rd (rd s.me.h (s.me.hbank a.dom.toNat) (Vector.replicate 16 0)) (n - 32) 0)
    ∧ (48 ≤ n → n < 52 → ∀ m rest, rd u.q (n - 48) [] = m :: rest →
        v = m.value ∧ u'.tag = m.tag ∧ rd u'.q (n - 48) [] = rest
        ∧ (∀ p, p < 4 → p ≠ n - 48 → rd u'.q p [] = rd u.q p []) ∧ u' = { u with q := u'.q, tag := u'.tag })
    ∧ (n = 52 → v.toNat = a.ident.ex.toNat) ∧ (n = 53 → v.toNat = a.ident.ey.toNat)
    ∧ (n = 54 → v.toNat = a.ident.ez.toNat) ∧ (n = 55 → v.toNat = a.ident.ox.toNat)
    ∧ (n = 56 → v.toNat = a.ident.oy.toNat) ∧ (n = 57 → v.toNat = a.ident.oz.toNat)
    ∧ (n = 58 → v.toNat = a.ident.stg.toNat)
    ∧ (n = 59 → s.cur < 1024 → fld v 0 2 = 0 ∧ fld v 2 3 = s.me.turnSlot ∧ fld v 5 10 = s.cur ∧ fld v 15 1 = 0
        ∧ fld v 16 8 = a.dom.toNat ∧ fld v 24 40 = 0)
    ∧ (n = 60 → v.toNat = a.prm.toNat) ∧ (n = 61 → v.toNat = u.tag.toNat))
  ∧
  (∀ (s : State) (a : Thread) (d : Spec) (v : Word), s.thread? = some a →
    (d.toNat = 0 → s.write d v = s.modThread id)
    ∧ (0 < d.toNat → d.toNat < 32 → ∃ b, (s.write d v).thread? = some b ∧ rd b.g d.toNat 0 = v
        ∧ b.isFull d.toNat = true)
    ∧ (32 ≤ d.toNat → d.toNat < 48 → (s.write d v).me.hPend =
        s.me.hPend ++ [(s.me.hbank a.dom.toNat, d.toNat - 32, v)] ∧ (s.write d v).me.h = s.me.h))
  ∧ ∀ (k : Core) (b r : Nat), b < 8 → r < 16 →
    rd (rd k.landH.h b (Vector.replicate 16 0)) r 0 =
      (((k.hPend.filter fun w => w.1 == b && w.2.1 == r).getLast?).map fun w => w.2.2).getD
        (rd (rd k.h b (Vector.replicate 16 0)) r 0)
    ∧ k.landH.hPend = []

/-! ### Class 3: the vector unit (R170 to R197) -/

/-- R181, R183, R186, R188, R189, R194: the lane-by-lane instructions that never round complete: each enabled lane
gets the value of its rule, at the end of turn t + Wmin, and every other lane is kept (R107, R174). -/
def Obligations.VectorLanes : Prop :=
  ∀ (x : FmtV) (s : State),
    let u2 := s.taken (scalarB x)
    let a := s.laneA x
    let b := s.laneB x
    let n (i : Nat) := ((b i).extractLsb' 0 5).toNat
    (s.canV2 x →
      VectorResult s u2 x 0 (fun i => a i &&& b i) (exec (.vand x) s)
      ∧ VectorResult s u2 x 0 (fun i => a i ||| b i) (exec (.vor x) s)
      ∧ VectorResult s u2 x 0 (fun i => a i ^^^ b i) (exec (.vxor x) s)
      ∧ VectorResult s u2 x 0 (fun i => a i <<< n i) (exec (.vshl x) s)
      ∧ VectorResult s u2 x 0 (fun i => a i >>> n i) (exec (.vshr x) s)
      ∧ VectorResult s u2 x 0 (fun i => (a i).sshiftRight (n i)) (exec (.vsar x) s)
      ∧ (∃ f g : Nat → BitVec 32, VectorResult s u2 x 1 f (exec (.vmin x) s) ∧ VectorResult s u2 x 1 g (exec (.vmax x) s)
        ∧ ∀ i, i < 64 →
          let ty := x.ty.toNat
          (6 ≤ ty → ty < 12 →
            let p := elemI ty (a i)
            let q := elemI ty (b i)
            f i = laneI ty (min p q) ∧ elemI ty (f i) = min p q ∧ g i = laneI ty (max p q) ∧ elemI ty (g i) = max p q)
          ∧ (ty < 3 →
            let p := elemF ty (a i)
            let q := elemF ty (b i)
            let below := p.lt q || (!q.lt p && p.isNeg && !q.isNeg)
            f i = laneF ty 0 0 (elemF ty (f i)) ∧ g i = laneF ty 0 0 (elemF ty (g i))
            ∧ (p.isNan = true ∨ q.isNan = true → f i = laneF ty 0 0 .nan ∧ g i = laneF ty 0 0 .nan)
            ∧ (p.isNan = false → q.isNan = false →
              elemF ty (f i) = (if below then p else q) ∧ elemF ty (g i) = (if below then q else p))))
      ∧ VectorResult s u2 x 1 (fun i => a ((b i).extractLsb' 0 6).toNat) (exec (.vperm x) s)
      ∧ (s.noPending [16 + (x.op.extractLsb' 0 2).toNat] →
          VectorResult s u2 x 0 (fun i => if (s.mreg (x.op.extractLsb' 0 2).toNat).getLsbD i then a i else b i)
            (exec (.vsel x) s)))
    ∧ (s.canV1 x →
      VectorResult s s.started x 1 (fun i => BitVec.ofNat 32
          (if x.op.getLsbD 0 then (if a i = 0 then 32 else 31 - (a i).toNat.log2)
           else ((List.range 32).map fun j => ((a i).getLsbD j).toNat).sum)) (exec (.vcnt x) s)
      ∧ (6 ≤ x.ty.toNat → x.ty.toNat < 12 →
          VectorResult s s.started x 0 (fun i => intRes x.ty.toNat (x.op.getLsbD 0) (elemI x.ty.toNat (a i)).natAbs)
            (exec (.vabs x) s)
          ∧ VectorResult s s.started x 0 (fun i => intRes x.ty.toNat (x.op.getLsbD 0) (-elemI x.ty.toNat (a i)))
            (exec (.vneg x) s))
      ∧ (x.ty.toNat < 3 →
          VectorResult s s.started x 0 (fun i => laneF x.ty.toNat 0 0 (elemF x.ty.toNat (a i)).abs) (exec (.vabs x) s)
          ∧ VectorResult s s.started x 0 (fun i => laneF x.ty.toNat 0 0 (elemF x.ty.toNat (a i)).neg)
            (exec (.vneg x) s)))

/-- R172, R181: on integer types the element of VADD, VSUB and VMUL is the exact result reduced to the type, or
clamped to its range with sat; the lane holds it extended as R172 says. -/
def Obligations.VectorIntegerArithmetic : Prop :=
  ∀ (x : FmtV) (s : State), s.canV2 x → 6 ≤ x.ty.toNat → x.ty.toNat < 12 →
    let ty := x.ty.toNat
    let sat := x.op.getLsbD 0
    let a (i : Nat) := elemI ty (s.laneA x i)
    let b (i : Nat) := elemI ty (s.laneB x i)
    let u := s.taken (scalarB x)
    ∃ f g h : Nat → BitVec 32,
      VectorResult s u x 1 f (exec (.vadd x) s) ∧ VectorResult s u x 1 g (exec (.vsub x) s)
      ∧ VectorResult s u x 1 h (exec (.vmul x) s)
      ∧ ∀ i, i < 64 →
        (sat = true → elemI ty (f i) = max (intLo ty) (min (intHi ty) (a i + b i))
          ∧ elemI ty (g i) = max (intLo ty) (min (intHi ty) (a i - b i))
          ∧ elemI ty (h i) = max (intLo ty) (min (intHi ty) (a i * b i)))
        ∧ (sat = false → (2 ^ intW ty : Int) ∣ elemI ty (f i) - (a i + b i)
          ∧ (2 ^ intW ty : Int) ∣ elemI ty (g i) - (a i - b i)
          ∧ (2 ^ intW ty : Int) ∣ elemI ty (h i) - a i * b i)
        ∧ (f i = if intSigned ty then ((f i).setWidth (intW ty)).signExtend 32 else ((f i).setWidth (intW ty)).setWidth 32)

/-- R155, R156, R162, R163, R181, R182, R184, R185: on floating types VADD to VFNMA, VDIV and VSQRT complete: each lane is
the exact result rounded once under the mode in effect, with one draw per lane of the domain's generator when it is
stochastic: to the nearest value with ties to the even one, toward zero, or up where the draw carries it to the next value. VRSQ, VRCP,
VEXP2, VLOG2 and VTANH complete too. -/
def Obligations.VectorFloatArithmetic : Prop :=
  (∀ ty md r (neg : Bool) n d, ty < 3 → md < 3 → r < 65536 → 0 < d →
    let f := fmtOf ty
    laneF ty md r .nan = BitVec.ofNat 32 f.nanBits
    ∧ laneF ty md r (.inf neg) = BitVec.ofNat 32 ((if neg then f.signBit else 0) + f.infBits)
    ∧ ∃ b, laneF ty md r (.fin neg n d) = BitVec.ofNat 32 ((if neg then f.signBit else 0) + b)
      ∧ RoundsTo f md r (n / d) b)
  ∧ ∀ (x : FmtV) (s : State), x.ty.toNat < 3 →
    let ty := x.ty.toNat
    let md := s.thread.mode x.rnd.toNat
    let a (i : Nat) := elemF ty (s.laneA x i)
    let b (i : Nat) := elemF ty (s.laneB x i)
    let c (i : Nat) := elemF ty (s.laneC x i)
    let u2 := s.taken (scalarB x)
    let rounded (u : State) (v : Nat → FV) (i : Nat) := laneF ty md ((u.drawn md 64).1.getD i 0) (v i)
    (s.canV2 x →
      let r (v : Nat → FV) (wmin : Nat) := VectorResult s (u2.drawn md 64).2 x wmin (rounded u2 v)
      r (fun i => (a i).add (b i)) 1 (exec (.vadd x) s) ∧ r (fun i => (a i).sub (b i)) 1 (exec (.vsub x) s)
      ∧ r (fun i => (a i).mul (b i)) 1 (exec (.vmul x) s) ∧ r (fun i => (a i).div (b i)) 5 (exec (.vdiv x) s)
      ∧ (s.noPending [x.vc.toNat] →
          r (fun i => ((a i).mul (b i)).add (c i)) 2 (exec (.vfma x) s)
          ∧ r (fun i => ((a i).mul (b i)).sub (c i)) 2 (exec (.vfms x) s)
          ∧ r (fun i => ((a i).mul (b i)).neg.add (c i)) 2 (exec (.vfnma x) s)))
    ∧ (s.canV1 x →
      VectorResult s (s.started.drawn md 64).2 x 5 (rounded s.started fun i => (a i).sqrt) (exec (.vsqrt x) s)
      ∧ ∀ i ∈ [Instr.vrsq x, .vrcp x, .vexp2 x, .vlog2 x, .vtanh x], ∃ f : Nat → BitVec 32,
        VectorResult s (if ty = 0 then s.started else (s.started.drawn md 64).2) x 3 f (exec i s))

/-- R185: VRSQ, VRCP, VEXP2, VLOG2 and VTANH complete: each lane is the f32 approximation q of its operand, for bf16 and
f16 rounded to the type with one draw per lane where it is stochastic. q is one function of the operand, the same in every
lane, slot and core; it is within the bound of the table, and exact in its exact cases and at its special values. -/
def Obligations.VectorApproximations : Prop :=
  ∃ q : Nat → BitVec 32 → BitVec 32,
    (∀ op a, op < 5 → (f32 a).isNan = true → q op a = 0x7FC00000)
    ∧ (∀ e ∈ ([(0, 0, 0x7F800000), (0, 0x80000000, 0xFF800000), (0, 0x7F800000, 0), (0, 0xFF800000, 0x7FC00000),
        (1, 0, 0x7F800000), (1, 0x80000000, 0xFF800000), (1, 0x7F800000, 0), (1, 0xFF800000, 0x80000000),
        (2, 0xFF800000, 0), (2, 0x7F800000, 0x7F800000),
        (3, 0, 0xFF800000), (3, 0x80000000, 0xFF800000), (3, 0x7F800000, 0x7F800000), (3, 0xFF800000, 0x7FC00000),
        (3, 0x3F800000, 0),
        (4, 0, 0), (4, 0x80000000, 0x80000000), (4, 0x7F800000, 0x3F800000), (4, 0xFF800000, 0xBF800000)] :
        List (Nat × BitVec 32 × BitVec 32)), q e.1 e.2.1 = e.2.2)
    ∧ (∀ a, (f32 a).isFin = true →
      let x := (f32 a).rat
      let value (op : Nat) := (f32 (q op a)).rat
      let near (op : Nat) : Prop := (f32 (q op a)).isFin = true ∧ ApproxOk op x (value op)
      let exactly (op : Nat) (y : ℚ) : Prop := (f32 (q op a)).isFin = true ∧ value op = y
      ((0 < x → near 0) ∧ (x < 0 → q 0 a = 0x7FC00000) ∧ ∀ n : Int, x = 4 ^ n → exactly 0 (2 ^ (-n)))
      ∧ ((x ≠ 0 → |1 / x| < 2 ^ 128 → near 1) ∧ ∀ n : Int, -127 ≤ n → x = 2 ^ n → exactly 1 (2 ^ (-n)))
      ∧ ((x < 128 → near 2) ∧ (128 ≤ x → q 2 a = 0x7F800000) ∧ (x < -150 → q 2 a = 0)
        ∧ ∀ n : Int, -149 ≤ n → n < 128 → x = n → exactly 2 (2 ^ n))
      ∧ ((0 < x → near 3) ∧ (x < 0 → q 3 a = 0x7FC00000) ∧ ∀ n : Int, x = 2 ^ n → exactly 3 n)
      ∧ near 4 ∧ (9 ≤ x → q 4 a = 0x3F800000) ∧ (x ≤ -9 → q 4 a = 0xBF800000))
    ∧ ∀ (x : FmtV) (s : State), s.canV1 x → x.ty.toNat < 3 →
      let ty := x.ty.toNat
      let md := s.thread.mode x.rnd.toNat
      let a (i : Nat) := if ty = 0 then s.laneA x i else toF32 0 0 (elemF ty (s.laneA x i))
      let gives (op : Nat) (i : Instr) : Prop :=
        if ty = 0 then VectorResult s s.started x 3 (fun i => q op (a i)) (exec i s)
        else VectorResult s (s.started.drawn md 64).2 x 3
          (fun i => laneF ty md ((s.started.drawn md 64).1.getD i 0) (f32 (q op (a i)))) (exec i s)
      gives 0 (.vrsq x) ∧ gives 1 (.vrcp x) ∧ gives 2 (.vexp2 x) ∧ gives 3 (.vlog2 x) ∧ gives 4 (.vtanh x)

/-- R187, R188: VCMP and VMSK complete and write the mask bits of the enabled lanes. A NaN operand makes only `ne`
and `always` true. -/
def Obligations.VectorMasks : Prop :=
  (∀ (x : FmtV) (s : State), s.canRead (scalarB x) →
    s.noPending ((16 + x.vd.toNat) :: x.va.toNat :: maskRegs x ++ if x.sc then [] else [x.vb.toNat]) →
    let ty := x.ty.toNat
    let c := (x.op.extractLsb' 0 3).toNat
    let a := s.laneA x
    let b := s.laneB x
    ∃ f : Nat → Bool, MaskResult s (s.taken (scalarB x)) x 1 f (exec (.vcmp x) s)
      ∧ ∀ i, i < 64 →
        (6 ≤ ty → ty < 12 → f i = condOf c (decide (elemI ty (a i) = elemI ty (b i)))
          (decide (elemI ty (a i) < elemI ty (b i))))
        ∧ (ty < 3 → (elemF ty (a i)).isNan = true ∨ (elemF ty (b i)).isNan = true → f i = (c == 1 || c == 6))
        ∧ (ty < 3 → (elemF ty (a i)).isNan = false → (elemF ty (b i)).isNan = false →
            f i = condOf c ((elemF ty (a i)).eq (elemF ty (b i))) ((elemF ty (a i)).lt (elemF ty (b i)))))
  ∧ ∀ (x : FmtV) (s : State),
    let fn := (x.op.extractLsb' 0 3).toNat
    let sc := if fn ≠ 4 ∧ x.sc = true then [x.vb] else []
    let a : BitVec 64 := if fn = 5 then 0 else s.mreg x.va.toNat
    let b : BitVec 64 := if fn = 4 then 0 else if x.sc then s.operand [x.vb] 0 else s.mreg x.vb.toNat
    s.canRead sc → fn < 6 →
    s.noPending ((16 + x.vd.toNat) :: maskRegs x ++ (if fn = 5 then [] else [16 + x.va.toNat])
      ++ if fn = 4 ∨ x.sc = true then [] else [16 + x.vb.toNat]) →
    MaskResult s (s.taken sc) x 0 (fun i => match fn with
      | 0 => a.getLsbD i && b.getLsbD i
      | 1 => a.getLsbD i || b.getLsbD i
      | 2 => a.getLsbD i != b.getLsbD i
      | 3 => a.getLsbD i && !b.getLsbD i
      | 4 => !a.getLsbD i
      | _ => b.getLsbD i) (exec (.vmsk x) s)

/-- R156, R157, R190, R191, R192: VCVT, VQNT and VDQT complete. VCVT draws only where it rounds. From a floating type to an
integer one a NaN gives 0, an infinity the end of the range, and another value is rounded to an integer and clamped; from
an integer to a floating type the value is rounded once; between integer types a wider one takes the element extended as
its source says, and a narrower one, or one of the same width, is clamped; between floating types a value is rounded once,
which to a wider one is exact; the same type copies the element; a NaN becomes the canonical one. VQNT writes the block
bytes of one part and no other byte of vd; VDQT multiplies each element by the slice scale and rounds once.
(It rests on the model's choices: log entry 39, that integer types of one width clamp.) -/
def Obligations.VectorConversions : Prop :=
  ∀ (x : FmtV) (s : State),
    let ty := x.ty.toNat
    let md := s.thread.mode x.rnd.toNat
    let sc := if x.scl then [x.vc] else []
    let sg : FV := if x.scl then f32 ((s.operand [x.vc] 0).setWidth 32) else .fin false 1 1
    (s.canV1 x →
      let fr := x.from0.toNat
      let isI (t : Nat) : Prop := 6 ≤ t ∧ t < 12
      let rounds : Prop := (fr < 3 ∧ isI ty) ∨ (isI fr ∧ ty < 3) ∨ (fr < 3 ∧ ty < 3 ∧ ty ≠ 0 ∧ fr ≠ ty)
      let d : List Nat × State := if rounds then s.started.drawn md 64 else ([], s.started)
      fr < 3 ∨ isI fr → ty < 3 ∨ isI ty →
      ∃ f : Nat → BitVec 32, VectorResult s d.2 x 2 f (exec (.vcvt x) s) ∧ ∀ i, i < 64 →
        let a := s.laneA x i
        let r := d.1.getD i 0
        let clamp (v : Int) : Int := max (intLo ty) (min (intHi ty) v)
        let near (n d : Nat) : Nat :=
          if md = 0 then (if d < 2 * (n % d) ∨ (2 * (n % d) = d ∧ n / d % 2 = 1) then n / d + 1 else n / d)
          else if md = 2 ∧ d * 65536 ≤ n % d * 65536 + r * d then n / d + 1 else n / d
        let filled : Prop :=
          f i = if intSigned ty then ((f i).setWidth (intW ty)).signExtend 32 else ((f i).setWidth (intW ty)).setWidth 32
        (fr < 3 → isI ty → filled
          ∧ (elemF fr a = .nan → elemI ty (f i) = 0)
          ∧ (∀ neg, elemF fr a = .inf neg → elemI ty (f i) = if neg then intLo ty else intHi ty)
          ∧ ∀ neg n d, elemF fr a = .fin neg n d →
              elemI ty (f i) = clamp (if neg then -(near n d : Int) else near n d))
        ∧ (isI fr → ty < 3 → f i = laneF ty md r (.fin (decide (elemI fr a < 0)) (elemI fr a).natAbs 1))
        ∧ (isI fr → isI ty → filled
          ∧ (intW fr < intW ty → (f i).setWidth (intW ty) =
              if intSigned fr then (a.setWidth (intW fr)).signExtend (intW ty) else (a.setWidth (intW fr)).setWidth (intW ty))
          ∧ (intW ty ≤ intW fr → elemI ty (f i) = clamp (elemI fr a)))
        ∧ (fr < 3 → ty < 3 →
          ((elemF fr a).isNan = true → f i = if ty = 0 then 0x7FC00000 else if ty = 1 then 0x7FC0 else 0x7E00)
          ∧ (fr = ty → (elemF fr a).isNan = false → f i = if ty = 0 then a else (a.setWidth 16).setWidth 32)
          ∧ (fr ≠ ty → ty = 0 → (elemF fr a).isNan = false →
              (elemF 0 (f i)).eq (elemF fr a) = true ∧ (elemF 0 (f i)).isNeg = (elemF fr a).isNeg)
          ∧ (fr ≠ ty → ty ≠ 0 → f i = laneF ty md r (elemF fr a)
            ∧ ∀ neg n d, elemF fr a = .fin neg n d → md ≠ 0 → ∃ n' d', elemF ty (f i) = .fin neg n' d')))
    ∧ (s.canRead sc → s.noPending [x.vd.toNat, x.va.toNat] →
      let rs := ((s.taken sc).drawn md 64).1
      let n := 4 * sgBytes ty
      ∃ p : Pending, p.reg = x.vd.toNat ∧ p.due = 8 * (s.me.turn + 4)
        ∧ exec (.vqnt x) s = (((s.taken sc).drawn md 64).2.modThread fun b =>
            { b with pend := b.pend ++ [p] }).goesOn x.e x.w
        ∧ (∀ old, ∀ j, j < 256 → (j < x.part * n ∨ x.part * n + n ≤ j) →
            (blend old p.value p.keep).extractLsb' (8 * j) 8 = old.extractLsb' (8 * j) 8)
        ∧ (3 ≤ ty → ty < 6 → x.part * n + n ≤ 256 → ∀ old, ∀ k, k < 4 →
            ((blend old p.value p.keep).extractLsb' (8 * (x.part * n + sgBytes ty * k)) (8 * sgBytes ty)).toNat
              = sgQuant ty md ((List.range 16).map fun j =>
                  (elemF x.from4.toNat (s.laneA x (16 * k + j))).div sg) ((rs.drop (16 * k)).take 16)))
    ∧ (s.canRead sc → s.noPending (x.vd.toNat :: x.va.toNat :: maskRegs x) →
      let bb := sgBytes x.from4.toNat
      VectorResult s ((s.taken sc).drawn md 64).2 x 2
        (fun i => laneF ty md (((s.taken sc).drawn md 64).1.getD i 0)
          (sg.mul (sgElem x.from4.toNat
            ((s.vreg x.va.toNat).extractLsb' (8 * (x.part * 4 * bb + i / 16 * bb)) (8 * bb)).toNat (i % 16))))
        (exec (.vdqt x) s))

/-- R193, R194: VBCST, VMOVG and VIOTA complete, in every subform. -/
def Obligations.VectorMoves : Prop :=
  ∀ (x : FmtV) (s : State),
    (x.op.getLsbD 0 = false → s.canRead [x.vc] → s.noPending (x.vd.toNat :: maskRegs x) →
      VectorResult s (s.taken [x.vc]) x 0 (fun _ => (s.operand [x.vc] 0).setWidth 32) (exec (.vbcst x) s))
    ∧ (x.op.getLsbD 0 = true → s.canV1 x →
      VectorResult s s.started x 0 (fun _ => s.laneA x (x.op.extractLsb' 4 6).toNat) (exec (.vbcst x) s))
    ∧ (s.canRead [x.vc] → s.noPending (x.vd.toNat :: maskRegs x) →
      VectorResult s (s.taken [x.vc]) x 0 (fun i => (s.operand [x.vc] 0
        + BitVec.ofNat 64 (i * (x.op.extractLsb' 0 8).toNat)).setWidth 32) (exec (.viota x) s))
    ∧ (let sub := (x.op.extractLsb' 0 2).toNat
       let ln := (x.op.extractLsb' 4 6).toNat
       (sub = 0 → s.canRead [] → s.canWrite x.vd → s.noPending [x.va.toNat] →
          exec (.vmovg x) s = s.scalarResult [] x.vd x.e x.w
            (if x.op.getLsbD 2 then (s.laneA x ln).signExtend 64 else (s.laneA x ln).setWidth 64))
       ∧ (sub = 2 → s.canRead [] → s.canWrite x.vd → s.noPending [16 + x.va.toNat] →
          exec (.vmovg x) s = s.scalarResult [] x.vd x.e x.w (s.mreg x.va.toNat))
       ∧ (sub = 1 → s.canRead [x.vc] → s.noPending [x.vd.toNat] →
          ∃ p : Pending, p.reg = x.vd.toNat ∧ p.due = 8 * (s.me.turn + 1)
            ∧ exec (.vmovg x) s = ((s.taken [x.vc]).modThread (·.addResult 0 p)).goesOn x.e x.w
            ∧ ∀ old i, i < 64 → lane (blend old p.value p.keep) i =
                if i = ln then (s.operand [x.vc] 0).setWidth 32 else lane old i))

/-- R168, R195, R197: VSCAN and VTOPK complete on every type. The lane of an add scan holds the sum of the present lanes
up to it, modulo an integer type, or the running f32 sum, rounded once per lane, and that of a maximum or minimum scan is
the extremum, or a NaN where one is present. VTOPK's entries are the K greatest elements of present lanes, NaNs left out,
in descending order, of equal elements the one of the lower lane first, each with its lane number; where fewer can be
selected the rest are the canonical NaN, or 0, and 0xFFFFFFFF, and every other lane is 0. -/
def Obligations.VectorScanAndSelect : Prop :=
  ∀ (x : FmtV) (s : State), s.canV1 x →
    let ty := x.ty.toNat
    let upTo (i : Nat) := ((List.range (i + 1)).filter (s.laneOn x)).map fun j => elemI ty (s.laneA x j)
    let fn := (x.op.extractLsb' 0 2).toNat
    let here := (s.presentLanes x).length
    let md := s.thread.mode x.rnd.toNat
    let k := (x.op.extractLsb' 0 5).toNat + 1
    let below (p q : FV) : Bool := p.lt q || (!q.lt p && p.isNeg && !q.isNeg)
    let eF (j : Nat) : FV := elemF ty (s.laneA x j)
    let eI (j : Nat) : Int := elemI ty (s.laneA x j)
    (∃ f : Nat → BitVec 32,
      VectorResult s (if fn = 0 ∧ ty < 3 then
        (s.started.drawn md (if ty = 0 then here - 1 else if here = 0 then 0 else 2 * here - 1)).2 else s.started)
        x 2 f (exec (.vscan x) s)
      ∧ (6 ≤ ty → ty < 12 → ∀ i, i < 64 → s.laneOn x i = true →
        (fn = 0 → (2 ^ intW ty : Int) ∣ elemI ty (f i) - (upTo i).sum)
        ∧ (fn = 1 → elemI ty (f i) ∈ upTo i ∧ ∀ v ∈ upTo i, v ≤ elemI ty (f i))
        ∧ (fn = 2 → elemI ty (f i) ∈ upTo i ∧ ∀ v ∈ upTo i, elemI ty (f i) ≤ v))
      ∧ (ty < 3 → fn = 0 →
        let ps := (List.range 64).filter (s.laneOn x)
        let rs := (s.started.drawn md (if ty = 0 then here - 1 else if here = 0 then 0 else 2 * here - 1)).1
        ∃ sum : Nat → FV, (∀ j, ps[0]? = some j → sum 0 = eF j)
          ∧ (∀ m j, ps[m + 1]? = some j →
              sum (m + 1) = f32 (toF32 md (rs.getD (if ty = 0 then m else 2 * m + 1) 0) ((sum m).add (eF j))))
          ∧ ∀ m j, ps[m]? = some j → elemF ty (f j) =
              if ty = 0 then sum m else elemF ty (laneF ty md (rs.getD (2 * m) 0) (sum m)))
      ∧ (ty < 3 → fn = 1 ∨ fn = 2 → ∀ i, i < 64 → s.laneOn x i = true →
        let vs := ((List.range (i + 1)).filter (s.laneOn x)).map eF
        ((∃ v ∈ vs, v.isNan = true) → elemF ty (f i) = .nan)
        ∧ ((∀ v ∈ vs, v.isNan = false) → elemF ty (f i) ∈ vs
          ∧ ∀ v ∈ vs, (fn = 1 → below (elemF ty (f i)) v = false) ∧ (fn = 2 → below v (elemF ty (f i)) = false))))
    ∧ ∃ p : Pending, p.reg = x.vd.toNat ∧ p.due = 8 * (s.me.turn + 5) ∧ p.keep = BitVec.allOnes 2048
      ∧ exec (.vtopk x) s = (s.started.modThread fun b => { b with pend := b.pend ++ [p] }).goesOn x.e x.w
      ∧ (∀ i, i < 64 → (k ≤ i ∧ i < 32) ∨ 32 + k ≤ i → lane p.value i = 0)
      ∧ (ty < 3 ∨ (6 ≤ ty ∧ ty < 12) →
        let float : Bool := decide (ty < 3)
        let above (j j' : Nat) : Bool := if float then below (eF j') (eF j) else decide (eI j' < eI j)
        let mayTake (j : Nat) : Bool := s.laneOn x j && !(float && (eF j).isNan)
        let n := ((List.range 64).filter mayTake).length
        let at_ (i : Nat) : Nat := (lane p.value (32 + i)).toNat
        (∀ i, i < k → i < n → at_ i < 64 ∧ mayTake (at_ i) = true
          ∧ (float = true → elemF ty (lane p.value i) = eF (at_ i))
          ∧ (float = false → elemI ty (lane p.value i) = eI (at_ i)))
        ∧ (∀ i, i < k → n ≤ i → lane p.value i = (if float then laneF ty 0 0 .nan else 0)
          ∧ lane p.value (32 + i) = 0xFFFFFFFF)
        ∧ (∀ i j, i < j → j < k → j < n → at_ i ≠ at_ j ∧ above (at_ j) (at_ i) = false
          ∧ (above (at_ i) (at_ j) = false → at_ i < at_ j))
        ∧ ∀ j, j < 64 → mayTake j = true →
          (∃ i, i < k ∧ i < n ∧ at_ i = j)
          ∨ ∀ i, i < k → i < n → above j (at_ i) = false ∧ (above (at_ i) j = false → at_ i < j))

/-- R168, R196: the reductions complete: gd is emptied and filled two turns later (VREDADD) or one (the others). On
integer types the value is the exact sum, or the extremum of the present lanes; on floating types it is the f32 sum of
the pairwise tree, or the greatest or least element with −0 below +0, or the greatest magnitude, of which a NaN gives the
canonical NaN and no present lane the value of R196. -/
def Obligations.VectorReductions : Prop :=
  ∀ (x : FmtV) (s : State), s.canRead [] → s.canWrite x.vd → s.noPending (x.va.toNat :: maskRegs x) →
    let ty := x.ty.toNat
    let vs := (s.presentLanes x).map (elemI ty)
    (6 ≤ ty → ty < 12 →
      ReductionResult s s.started x 2 (BitVec.ofInt 64 vs.sum) (exec (.vredadd x) s)
      ∧ (∃ m : Int, ReductionResult s s.started x 1 (BitVec.ofInt 64 m) (exec (.vredmax x) s)
          ∧ (∀ v ∈ vs, v ≤ m) ∧ (vs = [] → m = intLo ty) ∧ (vs ≠ [] → m ∈ vs))
      ∧ ∃ m : Int, ReductionResult s s.started x 1 (BitVec.ofInt 64 m) (exec (.vredmin x) s)
          ∧ (∀ v ∈ vs, m ≤ v) ∧ (vs = [] → m = intHi ty) ∧ (vs ≠ [] → m ∈ vs))
    ∧ (ty < 3 →
      let md := s.thread.mode x.rnd.toNat
      let d := s.started.drawn md ((s.presentLanes x).length - 1)
      ReductionResult s d.2 x 2 ((toF32 0 0 (treeSum md ((List.range 64).map fun i =>
          if s.laneOn x i then some (elemF ty (s.laneA x i)) else none) d.1)).setWidth 64) (exec (.vredadd x) s)
      ∧
      let fs := (s.presentLanes x).map (elemF ty)
      let below (p q : FV) : Bool := p.lt q || (!q.lt p && p.isNeg && !q.isNeg)
      let gives (i : Instr) (none_ : BitVec 32) (of : FV → FV) (best : FV → FV → Prop) : Prop :=
        ∃ v : BitVec 32, ReductionResult s s.started x 1 (v.setWidth 64) (exec i s)
          ∧ ((∃ a ∈ fs, a.isNan = true) → v = 0x7FC00000) ∧ (fs = [] → v = none_)
          ∧ (fs ≠ [] → (∀ a ∈ fs, a.isNan = false) → ∃ m ∈ fs, v = toF32 0 0 (of m) ∧ ∀ a ∈ fs, best m a)
      gives (.vredmax x) 0xFF800000 id (fun m a => below m a = false)
      ∧ gives (.vredmin x) 0x7F800000 id (fun m a => below a m = false)
      ∧ gives (.vamax x) 0 FV.abs (fun m a => m.abs.lt a.abs = false))

/-- R107, R108, R170: pending results. A result that lands writes the bits that its instruction writes in the named v
register or mask, and no other register changes. Under WCHK an instruction of class 3, or a vector load or store, that
reads or writes a v register or a mask with a pending result takes the undersized-wait trap at its own word and does nothing
else. -/
def Obligations.PendingResults : Prop :=
  (∀ (t : Thread) (p : Pending), p.reg < 20 →
    (t.land p) = { t with v := (t.land p).v, m := (t.land p).m }
    ∧ (∀ r, r < 16 → rd (t.land p).v r 0 =
        if r = p.reg then (rd t.v r 0 &&& ~~~p.keep) ||| (p.value &&& p.keep) else rd t.v r 0)
    ∧ ∀ r, r < 4 → rd (t.land p).m r 0 =
        if 16 + r = p.reg then (rd t.m r 0 &&& ~~~(p.keep.setWidth 64)) ||| (p.value.setWidth 64 &&& p.keep.setWidth 64)
        else rd t.m r 0)
  ∧ ∀ (s : State) (a : Thread), s.thread? = some a → a.cfg.getLsbD 0 = true → a.atLookup = false →
    let traps (i : Instr) : Prop := exec i s = .next (s.started.take 3 0 (a.pc.setWidth 64) 0 0 0)
    let pends (r : Nat) : Prop := ∃ p ∈ a.pend, p.reg = r
    (∀ x : FmtV,
      let d := pends x.vd.toNat
      let va := pends x.va.toNat
      let vb := x.sc = false ∧ pends x.vb.toNat
      let mask := x.me = true ∧ pends (16 + x.mask.toNat)
      let fn := (x.op.extractLsb' 0 3).toNat
      (d ∨ va ∨ mask →
        traps (.vabs x) ∧ traps (.vneg x) ∧ traps (.vsqrt x) ∧ traps (.vrsq x) ∧ traps (.vrcp x) ∧ traps (.vexp2 x)
        ∧ traps (.vlog2 x) ∧ traps (.vtanh x) ∧ traps (.vcnt x) ∧ traps (.vcvt x) ∧ traps (.vdqt x)
        ∧ traps (.vscan x) ∧ traps (.vtopk x))
      ∧ (d ∨ va ∨ vb ∨ mask →
        (traps (.vadd x) ∧ traps (.vsub x) ∧ traps (.vmul x) ∧ traps (.vmin x) ∧ traps (.vmax x) ∧ traps (.vdiv x)
          ∧ traps (.vand x) ∧ traps (.vor x) ∧ traps (.vxor x))
        ∧ traps (.vshl x) ∧ traps (.vshr x) ∧ traps (.vsar x) ∧ traps (.vperm x))
      ∧ (d ∨ va ∨ vb ∨ pends x.vc.toNat ∨ mask → traps (.vfma x) ∧ traps (.vfms x) ∧ traps (.vfnma x))
      ∧ (d ∨ va ∨ vb ∨ pends (16 + (x.op.extractLsb' 0 2).toNat) ∨ mask → traps (.vsel x))
      ∧ (pends (16 + x.vd.toNat) ∨ va ∨ vb ∨ mask → traps (.vcmp x))
      ∧ (pends (16 + x.vd.toNat) ∨ (fn ≠ 5 ∧ pends (16 + x.va.toNat))
          ∨ (fn ≠ 4 ∧ x.sc = false ∧ pends (16 + x.vb.toNat)) ∨ mask → traps (.vmsk x))
      ∧ (va ∨ mask → traps (.vredadd x) ∧ traps (.vredmax x) ∧ traps (.vredmin x) ∧ traps (.vamax x))
      ∧ (d ∨ va → traps (.vqnt x))
      ∧ (d ∨ mask ∨ (x.op.getLsbD 0 = true ∧ va) → traps (.vbcst x))
      ∧ (d ∨ mask → traps (.viota x))
      ∧ ((x.op.extractLsb' 0 2 = 0#2 → va → traps (.vmovg x)) ∧ (x.op.extractLsb' 0 2 = 1#2 → d → traps (.vmovg x))
        ∧ (x.op.extractLsb' 0 2 = 2#2 → pends (16 + x.va.toNat) → traps (.vmovg x))))
    ∧ (∀ x : FmtM, (pends x.d.toNat → traps (.vld x) ∧ traps (.vst x))
      ∧ (pends x.d.toNat ∨ pends x.a.toNat → traps (.vgth x) ∧ traps (.vsct x)))
    ∧ ∀ x : FmtM2, pends x.d.toNat → traps (.vlds x) ∧ traps (.vsts x)

/-- R107, R174, R196: the frame of class 3. Unless the undersized-wait trap of R108 is taken, only the issuing slot, its
domain's generator, the fills and the counts of events differ; in the thread only the named destination, its pending
results with the registers in which those due by the end of this turn have landed, the ports read and the next word. -/
def Obligations.VectorFrame : Prop :=
  ∀ (x : FmtV) (s t : State) (a : Thread), s.thread? = some a →
    let keeps (i : Instr) (dst : Dest) : Prop := i.WellFormed = true → exec i s = .next t →
      (∃ k, t = s.started.take 3 0 (a.pc.setWidth 64) 0 0 k)
      ∨ (OnlyThisCore s t
        ∧ t.me = { s.me with slots := t.me.slots, rng := t.me.rng, fills := t.me.fills, tally := t.me.tally }
        ∧ (∀ d, d ≠ a.dom.toNat → t.me.rngOf d = s.me.rngOf d)
        ∧ (∀ j, j ≠ s.me.turnSlot → t.me.slot j = s.me.slot j)
        ∧ ∃ b, t.thread? = some b
          ∧ b = { a with status := b.status, pc := b.pc, atLookup := b.atLookup, first := b.first,
                         chosen := b.chosen, wskip := b.wskip, skipBp := b.skipBp, q := b.q, tag := b.tag, g := b.g, full := b.full,
                         v := b.v, m := b.m, pend := b.pend }
          ∧ (∀ r, r < 32 → (dst = .g → r ≠ x.vd.toNat) → rd b.g r 0 = rd a.g r 0 ∧ b.isFull r = a.isFull r)
          ∧ (∀ r, r < 16 → (dst = .v → r ≠ x.vd.toNat) →
              rd b.v r 0 = rd a.v r 0 ∨ rd b.v r 0 = rd (a.landDue (8 * (s.me.turn + 1))).v r 0)
          ∧ (∀ r, r < 4 → (dst = .m → r ≠ x.vd.toNat) →
              rd b.m r 0 = rd a.m r 0 ∨ rd b.m r 0 = rd (a.landDue (8 * (s.me.turn + 1))).m r 0))
    (keeps (.vadd x) .v ∧ keeps (.vsub x) .v ∧ keeps (.vmul x) .v ∧ keeps (.vfma x) .v
      ∧ keeps (.vfms x) .v ∧ keeps (.vfnma x) .v ∧ keeps (.vmin x) .v ∧ keeps (.vmax x) .v
      ∧ keeps (.vabs x) .v ∧ keeps (.vneg x) .v ∧ keeps (.vdiv x) .v ∧ keeps (.vsqrt x) .v)
    ∧ (keeps (.vrsq x) .v ∧ keeps (.vrcp x) .v ∧ keeps (.vexp2 x) .v ∧ keeps (.vlog2 x) .v
      ∧ keeps (.vtanh x) .v ∧ keeps (.vand x) .v ∧ keeps (.vor x) .v ∧ keeps (.vxor x) .v
      ∧ keeps (.vshl x) .v ∧ keeps (.vshr x) .v ∧ keeps (.vsar x) .v ∧ keeps (.vcmp x) .m
      ∧ keeps (.vsel x) .v ∧ keeps (.vmsk x) .m ∧ keeps (.vcnt x) .v)
    ∧ (keeps (.vcvt x) .v ∧ keeps (.vqnt x) .v ∧ keeps (.vdqt x) .v ∧ keeps (.vbcst x) .v
      ∧ keeps (.viota x) .v ∧ keeps (.vperm x) .v ∧ keeps (.vscan x) .v ∧ keeps (.vtopk x) .v)
    ∧ (keeps (.vmovg x) (if x.op.extractLsb' 0 2 = 1#2 then .v else .g)
      ∧ keeps (.vredadd x) .g ∧ keeps (.vredmax x) .g ∧ keeps (.vredmin x) .g ∧ keeps (.vamax x) .g)

/-! ### Class 2: device memory and the window (R253 to R281) -/

/-- R96, R269, R270: a load whose checks pass completes: gd is emptied, the value of its bytes, extended, is on its way
to gd, and an acquire form acquires after it. An element with an uncorrectable error gives 0 and the error (R273).
(It rests on the model's choices: log entries 33 and 35.) -/
def Obligations.Load : Prop :=
  ∀ (x : FmtM) (s s1 : State) (l : Lane), s.canRead [x.a] → s.canWrite x.d → s.clear →
    let n := 2 ^ x.size.toNat
    let o := (s.taken [x.a]).orderOf true x.order x.scope
    o.1 < 2 →
    (s.taken [x.a]).reach x.seg.toNat [(s.operand [x.a] 0 + x.off.signExtend 64).toNat] n n needR = some ([l], s1) →
    let bad := s1.laneBad s1.cur s1.thread.dom o.2 l
    let r := s1.element o.2 l
    let v : Word := if x.sext then (BitVec.ofNat (8 * n) (ofLe r.1)).signExtend 64 else word (ofLe r.1)
    exec (.ld x) s = (((r.2.onItsWay x.d v bad l.ea).watched 1 [l]).acquiring o).goesOn x.e x.w

/-- R269, R270: a store whose checks pass completes: a release form releases before it, and the low bytes of d are
stored at its place, the lowest at the lowest address.
(It rests on the model's choices: log entries 33 and 35.) -/
def Obligations.Store : Prop :=
  ∀ (x : FmtM) (s s1 : State) (l : Lane), s.canRead [x.a, x.d] → s.clear →
    let ss := [x.a, x.d]
    let n := 2 ^ x.size.toNat
    let o := (s.taken ss).orderOf false x.order x.scope
    (s.taken ss).reach x.seg.toNat [(s.operand ss 0 + x.off.signExtend 64).toNat] n n needW = some ([l], s1) →
    let s2 := s1.releasing o
    exec (.st x) s = ((s2.storeTo s2.cur s2.thread.dom o.2 l
      ((List.range n).map fun i => (s.operand ss 1).extractLsb' (8 * i) 8)).watched 2 [l]).goesOn x.e x.w

/-- R5, R202, R278: what has been stored is read back: through the window by every core, at cluster or wider by every
core of the domain, and at core scope by the storing core. -/
def Obligations.LoadAfterStore : Prop :=
  ∀ (s : State) (c c' scope scope' : Nat) (dom : Byte) (l : Lane) (bs : List Byte), bs.length = l.n →
    (l.win = true → (∃ k, k < 1024 ∧ winLo + k * 0x200000 ≤ l.ea ∧ l.ea + l.n ≤ winLo + (k + 1) * 0x200000) →
      ((s.storeTo c dom scope l bs).load c' dom scope' l).1 = bs)
    ∧ (l.win = false → 2 ≤ scope → 2 ≤ scope' → l.ea / 65536 = (l.ea + l.n - 1) / 65536 →
      (∀ x ∈ (s.core c').lines, c' ≠ c → x.written = 0) →
      ((s.storeTo c dom scope l bs).load c' dom scope' l).1 = bs)
    ∧ (l.win = false → scope ≤ 1 → scope' ≤ 1 → l.n ≤ 32 → lineOf l.ea = lineOf (l.ea + l.n - 1) →
      s.fillBad c dom l = false → ((s.storeTo c dom scope l bs).load c dom scope' l).1 = bs)

/-- R262, R265, R374: a byte of device memory that a domain writes reads back under its key, and every other byte that
the domain reads is as before.
(It rests on the model's choices: log entry 12.) -/
def Obligations.DomainByteWrite : Prop :=
  ∀ (s : State) (d pa a : Nat) (b : Byte),
    (s.wrPa d pa b).rdPa d a = if a = pa then b else s.rdPa d a

/-- R269, R271, R273: vector loads whose checks pass complete: lane i of vd holds the element at the i-th offset,
extended, unless an element has an uncorrectable error; the offsets are contiguous, strided, or the lanes of va.
(It rests on the model's choices: log entries 6 and 35.) -/
def Obligations.VectorLoads : Prop :=
  (∀ (x : FmtM) (s s1 : State) (ls : List Lane), s.canRead [x.a] → s.clear → s.noPending [x.d.toNat] →
    x.d.toNat < 16 →
    let n := 2 ^ x.size.toNat
    let o := (s.taken [x.a]).orderOf true x.order x.scope
    o.1 < 2 →
    (s.taken [x.a]).reach x.seg.toNat ((List.range 64).map fun i =>
      (s.operand [x.a] 0 + x.off.signExtend 64 + word (i * n)).toNat) n n needR = some (ls, s1) →
    exec (.vld x) s = (s1.vectorLoaded x.d n x.sext o ls).goesOn x.e x.w)
  ∧ (∀ (x : FmtM2) (s s1 : State) (ls : List Lane), s.canRead [x.a, x.b] → s.clear → s.noPending [x.d.toNat] →
    x.d.toNat < 16 →
    let n := 2 ^ x.size.toNat
    let ss := [x.a, x.b]
    let o := (s.taken ss).orderOf true x.order x.scope
    o.1 < 2 →
    (s.taken ss).reach x.seg.toNat ((List.range 64).map fun i =>
      (s.operand ss 0 + x.off.signExtend 64 + word i * s.operand ss 1).toNat) n n needR = some (ls, s1) →
    exec (.vlds x) s = (s1.vectorLoaded x.d n x.sext o ls).goesOn x.e x.w)
  ∧ ∀ (x : FmtM) (s s1 : State) (ls : List Lane), s.canRead [] → s.clear → s.noPending [x.d.toNat, x.a.toNat] →
    x.d.toNat < 16 →
    let n := 2 ^ x.size.toNat
    let o := s.started.orderOf true x.order x.scope
    o.1 < 2 →
    s.started.reach x.seg.toNat ((List.range 64).map fun i =>
      ((lane (s.vreg x.a.toNat) i).signExtend 64 + x.off.signExtend 64).toNat) n n needR = some (ls, s1) →
    exec (.vgth x) s = (s1.vectorLoaded x.d n x.sext o ls).goesOn x.e x.w

/-- R269, R271: vector stores whose checks pass complete: after the release of a release form the low bytes of each
lane of vd are stored at its offset, lane 0 first, so that a higher lane's bytes remain.
(It rests on the model's choices: log entry 35.) -/
def Obligations.VectorStores : Prop :=
  let stored (s1 : State) (n : Nat) (o : Nat × Nat) (v : BitVec 2048) (ls : List Lane) : State :=
    ((s1.releasing o).storeAll n o.2 v 0 ls).watched 2 ls
  (∀ (x : FmtM) (s s1 : State) (ls : List Lane), s.canRead [x.a] → s.clear → s.noPending [x.d.toNat] →
    let n := 2 ^ x.size.toNat
    let o := (s.taken [x.a]).orderOf false x.order x.scope
    (s.taken [x.a]).reach x.seg.toNat ((List.range 64).map fun i =>
      (s.operand [x.a] 0 + x.off.signExtend 64 + word (i * n)).toNat) n n needW = some (ls, s1) →
    exec (.vst x) s = (stored s1 n o (s.vreg x.d.toNat) ls).goesOn x.e x.w)
  ∧ (∀ (x : FmtM2) (s s1 : State) (ls : List Lane), s.canRead [x.a, x.b] → s.clear → s.noPending [x.d.toNat] →
    let n := 2 ^ x.size.toNat
    let ss := [x.a, x.b]
    let o := (s.taken ss).orderOf false x.order x.scope
    (s.taken ss).reach x.seg.toNat ((List.range 64).map fun i =>
      (s.operand ss 0 + x.off.signExtend 64 + word i * s.operand ss 1).toNat) n n needW = some (ls, s1) →
    exec (.vsts x) s = (stored s1 n o (s.vreg x.d.toNat) ls).goesOn x.e x.w)
  ∧ ∀ (x : FmtM) (s s1 : State) (ls : List Lane), s.canRead [] → s.clear → s.noPending [x.d.toNat, x.a.toNat] →
    let n := 2 ^ x.size.toNat
    let o := s.started.orderOf false x.order x.scope
    s.started.reach x.seg.toNat ((List.range 64).map fun i =>
      ((lane (s.vreg x.a.toNat) i).signExtend 64 + x.off.signExtend 64).toNat) n n needW = some (ls, s1) →
    exec (.vsct x) s = (stored s1 n o (s.vreg x.d.toNat) ls).goesOn x.e x.w

/-- R274, R275: the atomics complete where their checks pass: in one step the old value is read at the coherence point,
the new one is written there (CAS and CAS2: only where the old one is the expected one), and the old value is on its way
to gd; a release form releases before, an acquire form acquires after. Where the data has an uncorrectable error nothing
is written, and 0 and the error are on their way (R273).
(It rests on the model's choices: log entry 35.) -/
def Obligations.Atomics : Prop :=
  (∀ (x : FmtM) (s s1 : State) (l : Lane), s.canRead [x.a, x.d] → s.clear →
    let ss := [x.a, x.d]
    let n := 2 ^ x.size.toNat
    let o := (x.order.toNat, x.scope.toNat)
    (s.taken ss).reach x.seg.toNat [(s.operand ss 0 + x.off.signExtend 64).toNat] n n needRWA = some ([l], s1) →
    let A := (s.operand ss 1).toNat % 2 ^ (8 * n)
    let s2 := s1.releasing o
    let r := s2.atomRead s2.cur s2.thread.dom o.2 l
    let old := ofLe r.1
    let ints (v : Nat) := (BitVec.ofNat (8 * n) v).toInt
    let bad := s2.laneBad s2.cur s2.thread.dom o.2 l
    let gives (new : Nat) : Result :=
      let u := (r.2.modMe fun k => k.count 20 none s2.thread.dom.toNat 1).storeBytes s2.cur s2.thread.dom o.2 l (leBytes n new)
      ((if bad then (s2.watched 1 [l]).onItsWay x.d 0 true l.ea
        else (u.watched 3 [l]).onItsWay x.d (extend n x.sext old) false l.ea).acquiring o).goesOn x.e x.w
    exec (.amoadd x) s = gives (old + A) ∧ exec (.amoand x) s = gives (old &&& A)
    ∧ exec (.amoor x) s = gives (old ||| A) ∧ exec (.amoxor x) s = gives (old ^^^ A)
    ∧ exec (.amomin x) s = gives (if ints A < ints old then A else old)
    ∧ exec (.amomax x) s = gives (if ints old < ints A then A else old)
    ∧ exec (.amominn x) s = gives (Nat.min old A) ∧ exec (.amomaxn x) s = gives (Nat.max old A)
    ∧ exec (.amoswp x) s = gives A
    ∧ (x.size.toNat = 2 →
        exec (.amofmax x) s = gives (fmax (BitVec.ofNat 32 old) (BitVec.ofNat 32 A)).toNat))
  ∧ (∀ (x : FmtM) (s s1 : State) (l : Lane), s.canRead [x.a, x.d, x.d + 1] → s.clear →
    let ss := [x.a, x.d, x.d + 1]
    let n := 2 ^ x.size.toNat
    let o := (x.order.toNat, x.scope.toNat)
    (s.taken ss).reach x.seg.toNat [(s.operand ss 0 + x.off.signExtend 64).toNat] n n needRWA = some ([l], s1) →
    let s2 := s1.releasing o
    let r := s2.atomRead s2.cur s2.thread.dom o.2 l
    let old := ofLe r.1
    let u := r.2.modMe fun k => k.count 20 none s2.thread.dom.toNat 1
    let u := if old = (s.operand ss 1).toNat % 2 ^ (8 * n) then
        (u.storeBytes s2.cur s2.thread.dom o.2 l (leBytes n (s.operand ss 2).toNat)).watched 3 [l]
      else u.watched 1 [l]
    exec (.cas x) s =
      ((if s2.laneBad s2.cur s2.thread.dom o.2 l then (s2.watched 1 [l]).onItsWay x.d 0 true l.ea
        else u.onItsWay x.d (word old) false l.ea).acquiring o).goesOn x.e x.w)
  ∧ ∀ (x : FmtM) (s s1 : State) (l : Lane), s.canRead [x.a, x.d, x.d + 1, x.d + 2, x.d + 3] → s.clear →
    let ss := [x.a, x.d, x.d + 1, x.d + 2, x.d + 3]
    let o := (x.order.toNat, x.scope.toNat)
    (s.taken ss).reach x.seg.toNat [(s.operand ss 0 + x.off.signExtend 64).toNat] 16 16 needRWA = some ([l], s1) →
    let s2 := s1.releasing o
    let r := s2.atomRead s2.cur s2.thread.dom o.2 l
    let old := ofLe r.1
    let u := r.2.modMe fun k => k.count 20 none s2.thread.dom.toNat 1
    let u := if old = (s.operand ss 1).toNat + 2 ^ 64 * (s.operand ss 2).toNat then
        (u.storeBytes s2.cur s2.thread.dom o.2 l
          (leBytes 16 ((s.operand ss 3).toNat + 2 ^ 64 * (s.operand ss 4).toNat))).watched 3 [l]
      else u.watched 1 [l]
    exec (.cas2 x) s =
      ((if s2.laneBad s2.cur s2.thread.dom o.2 l then
          ((s2.watched 1 [l]).onItsWay x.d 0 true l.ea).onItsWay (x.d + 1) 0 false l.ea
        else (u.onItsWay x.d (word old) false l.ea).onItsWay (x.d + 1) (word (old / 2 ^ 64)) false l.ea).acquiring
          o).goesOn x.e x.w

/-- R272, R276: PREF always completes and never traps: where a check fails it does nothing, and otherwise nothing differs
but the lines of the issuing core's L1, into which scope core brings the line, with what a line that gives way writes
back, and the translation caches with the marks of the entries used. WBL and INVL complete where their checks pass: the
line of the issuing core's L1 is written back, and INVL drops it. -/
def Obligations.LineOperations : Prop :=
  ∀ (x : FmtM) (s : State), s.canRead [x.a] →
    let u := s.taken [x.a]
    let t := u.thread
    let off := (s.operand [x.a] 0 + x.off.signExtend 64).toNat
    let checked := lineCheck (rd t.seg x.seg.toNat {}) t.dom off
    (∃ v, exec (.pref x) s = v.goesOn x.e x.w ∧ (checked.isOk = false → v = u)
      ∧ (∀ ea, checked = .ok ea → inWin ea = true ∨ u.me.rangeHit t.dom t.tid ea 32 false ≠ none → v = u)
      ∧ (s.cur ∉ s.tampered → OnlyThisCore u { v with mem := u.mem, blockKey := u.blockKey, cipherKey := u.cipherKey,
                                                      tlb := u.tlb, pterr := u.pterr, rereads := u.rereads }
        ∧ v.me = { u.me with lines := v.me.lines, dirty := v.me.dirty, tally := v.me.tally }
        ∧ (∀ cl, cl ≠ clusterOf s.cur → Tab.get [] v.tlb cl = Tab.get [] u.tlb cl)
        ∧ (x.scope ≠ 1 → v.me.lines = u.me.lines ∧ v.me.dirty = u.me.dirty)
        ∧ ∀ ea pa u1, checked = .ok ea → inWin ea = false → u.me.rangeHit t.dom t.tid ea 32 false = none →
          u.physOf needR ea = some (pa, u1) → x.scope = 1 →
          u1.fillBad u.cur t.dom { ea := lineOf ea, n := 32, pa := lineOf pa } = false →
          ∃ l, v.me.lineAt t.dom ea = some l))
    ∧ ∀ ea, checked = .ok ea → (inWin ea = true → u.storeFault t.dom.toNat u.cur ea 32 = none) →
      u.me.rangeHit t.dom t.tid ea 32 false = none →
      exec (.wbl x) s = (if inWin ea = true ∨ x.scope = 1 then u else u.flushVa u.cur t.dom ea true).goesOn x.e x.w
      ∧ exec (.invl x) s = (if inWin ea = true then u else u.flushVa u.cur t.dom ea false).goesOn x.e x.w

/-- R273, R280, R281: FENCE completes, for every order and scope, where no barrier request of the thread is still on its
way: the release, then the acquire, that its order names, and the thread goes on to its next word or its lookup. After an
acquire at cluster or wider the L1 holds no line of the domain, and after a release there the dirty list has no line
with written bytes. -/
def Obligations.Fences : Prop :=
  ∀ (x : FmtM) (s : State) (a : Thread), s.thread? = some a → s.clear →
    let o := (x.order.toNat, x.scope.toNat)
    (∃ t b, exec (.fence x) s = .next t ∧ t.thread? = some b ∧ b.wskip = x.w.toNat ∧ b.atLookup = x.e
      ∧ (x.e = false → b.pc = a.pc + 1) ∧ b.status = .running ∧ b.g = a.g ∧ b.full = a.full ∧ b.f = a.f
      ∧ t = ((s.started.releasing o).acquiring o).modThread (·.advance x.e x.w))
    ∧ (2 ≤ x.scope.toNat → ∀ (u : State) (c d : Nat) (dom : Byte),
        ((∀ l ∈ (u.core c).lines, l.va % 32 = 0) →
          ∀ l ∈ ((u.acquire c dom x.scope.toNat).core c).lines, l.dom ≠ dom)
        ∧ ∀ e ∈ (u.core c).dirty, ∀ l, ((u.release c d x.scope.toNat).core c).lineAt e.1 e.2 = some l → l.written = 0)

/-- R10, R202, R211, R253, R254, R255, R261, R268, R276, R350: every load, store and atomic stops where its checks stop
it: misaligned-address, segment, store-access, range-hit, page-rights or page-fault in that order, at the lowest lane
that fails, with the sub-code and details of the check, and nothing else of it done; a missing page makes the thread
wait and is reported. WBL and INVL take the segment, store-access and range-hit traps. The segment check gives its four
sub-codes and the store check its two, for all operands.
(It rests on the model's choices: log entries 21 and 42.) -/
def Obligations.AccessTraps : Prop :=
  (∀ (s : State) (a : Thread), s.thread? = some a → a.atLookup = false →
    (∀ x : FmtM,
      let n := 2 ^ x.size.toNat
      let S : Word := x.off.signExtend 64
      let stops (ss : List Spec) (offs : List Word) (n : Nat) (nd : Need) (i : Instr) : Prop :=
        AccessStops s (s.taken ss) x.seg.toNat (offs.map (·.toNat)) n n nd (exec i s)
      let lane64 (f : Nat → Word) : List Word := (List.range 64).map f
      (s.canRead [x.a] → s.canWrite x.d → stops [x.a] [s.operand [x.a] 0 + S] n needR (.ld x))
      ∧ (s.canRead [x.a, x.d] →
        let at1 := stops [x.a, x.d] [s.operand [x.a, x.d] 0 + S] n
        at1 needW (.st x)
        ∧ at1 needRWA (.amoadd x) ∧ at1 needRWA (.amoand x) ∧ at1 needRWA (.amoor x) ∧ at1 needRWA (.amoxor x)
        ∧ at1 needRWA (.amomin x) ∧ at1 needRWA (.amomax x) ∧ at1 needRWA (.amominn x) ∧ at1 needRWA (.amomaxn x)
        ∧ at1 needRWA (.amoswp x) ∧ at1 needRWA (.amofmax x))
      ∧ (let ss := [x.a, x.d, x.d + 1]
        s.canRead ss → stops ss [s.operand ss 0 + S] n needRWA (.cas x))
      ∧ (let ss := [x.a, x.d, x.d + 1, x.d + 2, x.d + 3]
        s.canRead ss → stops ss [s.operand ss 0 + S] 16 needRWA (.cas2 x))
      ∧ (s.canRead [x.a] → s.noPending [x.d.toNat] →
        let offs := lane64 fun j => s.operand [x.a] 0 + S + word (j * n)
        stops [x.a] offs n needR (.vld x) ∧ stops [x.a] offs n needW (.vst x))
      ∧ (s.noPending [x.d.toNat, x.a.toNat] →
        let offs := lane64 fun j => (lane (s.vreg x.a.toNat) j).signExtend 64 + S
        AccessStops s s.started x.seg.toNat (offs.map (·.toNat)) n n needR (exec (.vgth x) s)
        ∧ AccessStops s s.started x.seg.toNat (offs.map (·.toNat)) n n needW (exec (.vsct x) s)))
    ∧ (∀ x : FmtM2, s.canRead [x.a, x.b] → s.noPending [x.d.toNat] →
      let n := 2 ^ x.size.toNat
      let ss := [x.a, x.b]
      let offs := (List.range 64).map fun j =>
        (s.operand ss 0 + x.off.signExtend 64 + word j * s.operand ss 1).toNat
      AccessStops s (s.taken ss) x.seg.toNat offs n n needR (exec (.vlds x) s)
      ∧ AccessStops s (s.taken ss) x.seg.toNat offs n n needW (exec (.vsts x) s))
    ∧ ∀ x : FmtM, s.canRead [x.a] →
      let u := s.taken [x.a]
      let trap (c b : Nat) (d0 d1 : Word) (i : Instr) : Prop :=
        exec i s = .next (s.started.take c b (a.pc.setWidth 64) d0 d1 0)
      let both (c b : Nat) (d0 d1 : Word) : Prop := trap c b d0 d1 (.wbl x) ∧ trap c b d0 d1 (.invl x)
      let checked := lineCheck (rd a.seg x.seg.toNat {}) a.dom (s.operand [x.a] 0 + x.off.signExtend 64).toNat
      (∀ sub d, checked = .error (sub, d) → both 5 sub (word d) (word x.seg.toNat))
      ∧ ∀ ea, checked = .ok ea →
        (∀ sub, inWin ea = true → u.storeFault a.dom.toNat u.cur ea 32 = some sub → both 6 sub (word ea) 0)
        ∧ ((inWin ea = true → u.storeFault a.dom.toNat u.cur ea 32 = none) →
          ∀ j, u.me.rangeHit a.dom a.tid ea 32 false = some j → both 7 0 (word ea) (word j)))
  ∧ (∀ (sg : Seg) (dom : Byte) (off n : Nat) (nd : Need), 0 < n →
    let ea := sg.base.toNat + off
    let meets := ea < winHi ∧ winLo < ea + n ∧ (sg.rights.getLsbD 5 = false ∨ ¬ (winLo ≤ ea ∧ ea + n ≤ winHi))
    let lacking := ∃ j, j < 6 ∧ nd.getLsbD j = true ∧ sg.rights.getLsbD j = false
    (sg.dom ≠ dom → segCheck sg dom off n nd = .error (3, off))
    ∧ (sg.dom = dom → sg.limit.toNat < off + n → segCheck sg dom off n nd = .error (1, off))
    ∧ (sg.dom = dom → off + n ≤ sg.limit.toNat →
      (lacking → segCheck sg dom off n nd = .error (2, off))
      ∧ (¬ lacking → (meets → segCheck sg dom off n nd = .error (4, ea)) ∧ (¬ meets → segCheck sg dom off n nd = .ok ea))))
  ∧ ∀ (s : State) (d me x n : Nat), 0 < n →
    let place (y : Nat) : Option (Nat × Nat) :=
      if y < 0x180000 then some (me, y)
      else if winLo ≤ y ∧ y < winHi ∧ (y - winLo) % 0x200000 < 0x180000 then
        some ((y - winLo) / 0x200000, (y - winLo) % 0x200000)
      else none
    let owned (y : Nat) : Prop := ∀ c off, place y = some (c, off) →
      let k := s.core c
      k.present d = true ∧ off < 32768 * (48 - k.lb) ∧ 32768 * k.bankBase d ≤ off
        ∧ off < 32768 * (k.bankBase d + k.bankCount d)
    ((∃ j, j < n ∧ place (x + j) = none) → s.storeFault d me x n = some 1)
    ∧ ((∀ j, j < n → place (x + j) ≠ none) →
      ((∃ j, j < n ∧ ¬ owned (x + j)) → s.storeFault d me x n = some 2)
      ∧ ((∀ j, j < n → owned (x + j)) → s.storeFault d me x n = none))

/-- R202, R262, R270, R271, R274, R275, R278: the frame of class 2 in memory. Whatever the outcome, a byte of device memory
that the issuing domain reads is as before unless it is one of the bytes stored to, computed as the form's own access
computes them (by translation, or in the place of the line of the core's L1 that holds the address), or lies in a block
with unfinished business of the core (a line with written bytes, the page table); and a byte of a core's store is as before
unless the form stores to it through the window. For the vector stores that is so where the core's next packet
authenticates (R373).
(It rests on the model's choices: log entries 8, 9 and 12.) -/
def Obligations.MemoryFrame : Prop :=
  ∀ (i : Instr) (s t : State) (a : Thread) (pa c byte : Nat), s.thread? = some a → exec i s = .next t →
    let device : Prop := s.undisturbed pa → t.rdPa a.dom.toNat pa = s.rdPa a.dom.toNat pa
    let store : Prop := Tab.get 0 (t.core c).store byte = Tab.get 0 (s.core c).store byte
    let same : Prop := device ∧ store
    let outside (u : State) (seg : Nat) (offs : List Nat) (n : Nat) (nd : Need) : Prop :=
      ((∀ ls s1, u.reach seg offs n n nd = some (ls, s1) → ¬ inLanes ls pa ∧ ¬ inHeld s a.dom ls pa) → device)
      ∧ ((∀ ls s1, u.reach seg offs n n nd = some (ls, s1) → ¬ inWindow s.cur ls c byte) → store)
    let off (ss : List Spec) (x : FmtM) : List Nat := [(s.operand ss 0 + x.off.signExtend 64).toNat]
    match i with
    | .ld _ | .vld _ | .vgth _ | .pref _ | .wbl _ | .invl _ | .fence _ => same
    | .vlds _ => same
    | .st x => outside (s.taken [x.a, x.d]) x.seg.toNat (off [x.a, x.d] x) (2 ^ x.size.toNat) needW
    | .amoadd x | .amoand x | .amoor x | .amoxor x | .amomin x | .amomax x | .amominn x | .amomaxn x | .amoswp x
    | .amofmax x => outside (s.taken [x.a, x.d]) x.seg.toNat (off [x.a, x.d] x) (2 ^ x.size.toNat) needRWA
    | .cas x => outside (s.taken [x.a, x.d, x.d + 1]) x.seg.toNat (off [x.a, x.d, x.d + 1] x) (2 ^ x.size.toNat) needRWA
    | .cas2 x => outside (s.taken [x.a, x.d, x.d + 1, x.d + 2, x.d + 3]) x.seg.toNat
        (off [x.a, x.d, x.d + 1, x.d + 2, x.d + 3] x) 16 needRWA
    | .vst x => s.cur ∉ s.tampered → outside (s.taken [x.a]) x.seg.toNat ((List.range 64).map fun j =>
        (s.operand [x.a] 0 + x.off.signExtend 64 + word (j * 2 ^ x.size.toNat)).toNat) (2 ^ x.size.toNat) needW
    | .vsts x => s.cur ∉ s.tampered → outside (s.taken [x.a, x.b]) x.seg.toNat ((List.range 64).map fun j =>
        (s.operand [x.a, x.b] 0 + x.off.signExtend 64 + word j * s.operand [x.a, x.b] 1).toNat) (2 ^ x.size.toNat) needW
    | .vsct x => s.cur ∉ s.tampered → outside s.started x.seg.toNat ((List.range 64).map fun j =>
        ((lane (s.vreg x.a.toNat) j).signExtend 64 + x.off.signExtend 64).toNat) (2 ^ x.size.toNat) needW
    | _ => True

/-! ### Class 4 and class 5: the engines (R199 to R250) -/

/-- R235, R236, R238 to R240, R244, R246, R247, R249, R250, R284: the instructions of class 4 complete where their checks
pass: gd is emptied, and the command enters the queue, an MMA with its claims, its read ranges and the scales of its rings,
MDRN and MLDA with their ranges, whose lines leave the issuing core's L1; MDRN takes 4,096 draws where it rounds
stochastically. Each issues once every barrier request of its slot has reached its object (R280). A check of R244 that fails
takes the engine trap instead: a tile whose tag differs from its ring's layout with sub-code 10, an accumulator that is not
the domain's with 8, a ring that is not with 2. MSCL writes the scale and returns the old one.
(It rests on the model's choices: log entry 25.) -/
def Obligations.MatrixCommands : Prop :=
  (∀ (x : FmtT) (s : State), s.canRead [] → s.canWrite x.d →
    let w := mmaOf x
    let d := s.thread.dom.toNat
    let u := s.started
    let gives (zero : Bool) : Result :=
      ((u.withId.emptied x.d).modMe fun k => k.mmaEnter s.cur (u.commandOf x.d 1) w zero (s.me.ringAt w.ra).sigma
        (s.me.ringAt w.rb).sigma).goesOn x.e x.w
    (s.clear → s.me.mmaCheck d w = none → s.me.mmaReady d w = true → s.me.tagsOk w = true →
      exec (.mma x) s = gives false ∧ exec (.mmaz x) s = gives true)
    ∧ (∀ sub, s.me.mmaCheck d w = some sub → s.thread.atLookup = false →
      exec (.mma x) s = s.trapped 17 sub ∧ exec (.mmaz x) s = s.trapped 17 sub)
    ∧ (s.me.mmaCheck d w = none → s.me.mmaReady d w = true →
      (let a := s.me.ringAt w.ra
       let b := s.me.ringAt w.rb
       ∃ j, j < w.n ∧ (Tab.get 0 a.tags ((a.head + a.claims + j) % a.tiles) ≠ a.layout
         ∨ Tab.get 0 b.tags ((b.head + b.claims + (if w.ra = w.rb then w.n else 0) + j) % b.tiles) ≠ b.layout)) →
      s.thread.atLookup = false → exec (.mma x) s = s.trapped 17 10 ∧ exec (.mmaz x) s = s.trapped 17 10)
    ∧ (s.me.hasAcc d x.id1.toNat = false → s.thread.atLookup = false → exec (.mzero x) s = s.trapped 17 8)
    ∧ (s.clear → s.me.hasAcc d x.id1.toNat = true → s.me.matRoom d = true →
      exec (.mzero x) s = ((u.withId.emptied x.d).modMe fun k =>
        { k with mats := k.mats ++ [{ t := u.commandOf x.d 1, acc := x.id1.toNat, op := .zero }] }).goesOn x.e x.w))
  ∧ (∀ (x : FmtT) (s : State), s.canRead [x.a] → s.canWrite x.d → s.thread.atLookup = false →
    (s.me.hasRing s.thread.dom.toNat x.id1.toNat = false → exec (.mscl x) s = s.trapped 17 2)
    ∧ (s.me.hasAcc s.thread.dom.toNat x.id1.toNat = false → exec (.mlda x) s = s.trapped 17 8))
  ∧ (∀ (x : FmtT) (s : State), s.canRead (if x.op.getLsbD 5 then [x.a, x.b] else [x.a]) → s.canWrite x.d →
    s.thread.atLookup = false → s.me.hasAcc s.thread.dom.toNat x.id1.toNat = false →
    exec (.mdrn x) s = s.trapped 17 8)
  ∧ (∀ (x : FmtT) (s : State), s.canRead [x.a] → s.canWrite x.d →
    s.me.hasRing s.thread.dom.toNat x.id1.toNat = true →
    let g := s.me.ringAt x.id1.toNat
    exec (.mscl x) s = (((s.taken [x.a]).modMe (·.setRing x.id1.toNat
      { g with sigma := (s.operand [x.a] 0).setWidth 32 })).write x.d (g.sigma.setWidth 64)).goesOn x.e x.w)
  ∧ (∀ (x : FmtT) (s : State) (ea am : Nat),
    let amax := x.op.getLsbD 5
    let ss := if amax then [x.a, x.b] else [x.a]
    let u := s.taken ss
    let d := s.thread.dom
    let otype := fld x.op 3 2
    let es := if otype = 0 then 4 else 2
    let rs := (ea, ea + 4096 * es, true) :: if amax then [(am, am + 4, true)] else []
    s.canRead ss → s.canWrite x.d → s.clear → s.me.hasAcc d.toNat x.id1.toNat = true →
    (s.operand ss 0).toNat % es = 0 →
    u.segAt (fld x.op 0 3) (s.operand ss 0).toNat (4096 * es) (needW ||| needE) ea →
    (amax = true → (s.operand ss 1).toNat % 4 = 0 ∧
      u.segAt (fld x.op 6 3) (s.operand ss 1).toNat 4 (needRW ||| needE) am) →
    s.me.matRoom d.toNat = true → s.me.rangeRoom d.toNat rs.length = true →
    let md := s.thread.mode (fld x.op 9 2)
    let v := (u.drawn md 4096).2
    let tg := v.commandOf x.d x.scope.toNat
    let op : MatOp := .drain ea otype md (s.me.rngOf d.toNat) (if amax then some am else none) (x.op.getLsbD 11)
    exec (.mdrn x) s = (((v.withId.engIssue s.cur d rs).emptied x.d).modMe fun k =>
      { k.addRanges tg rs with mats := k.mats ++ [{ t := tg, acc := x.id1.toNat, op }] }).goesOn x.e x.w)
  ∧ ∀ (x : FmtT) (s : State) (ea : Nat), s.canRead [x.a] → s.canWrite x.d → s.clear →
    let u := s.taken [x.a]
    let d := s.thread.dom
    let A := (s.operand [x.a] 0).toNat
    let rs := [(ea, ea + 16384, false)]
    s.me.hasAcc d.toNat x.id1.toNat = true → A % 4 = 0 → u.segAt (fld x.op 0 3) A 16384 (needR ||| needE) ea →
    s.me.matRoom d.toNat = true → s.me.rangeRoom d.toNat 1 = true →
    let tg := u.commandOf x.d x.scope.toNat
    exec (.mlda x) s = (((u.withId.engIssue s.cur d rs).emptied x.d).modMe fun k =>
      { k.addRanges tg rs with mats := k.mats ++ [{ t := tg, acc := x.id1.toNat, op := .load ea }] }).goesOn x.e x.w

/-- R202, R206, R211, R213 to R215, R222 to R224, R230: CPY, CPYM and CPYF complete where their checks pass: the shape block is
read at issue, gd (and the follow-on's d) are emptied, the ranges are registered and the command enters the copy queue. A
block that fails the store check, is not aligned or hits a range, one that is not valid, and a follow-on word that is not
valid, take their traps instead.
(It rests on the model's choices: log entries 33 and 42.) -/
def Obligations.CopyCommands : Prop :=
  ∀ (x : FmtT) (s : State) (sea dea : Nat),
    let enters (i : Instr) (fill followed : Bool) : Prop :=
      let ss := if followed then [x.a, x.b] else [x.a]
      let u := s.taken ss
      let d := s.thread.dom
      let A := (s.operand ss 0).toNat
      let W := s.operand ss 1
      let p := storeLoc s.cur A
      let b := Shape.ofBytes (s.rdStore p.1 p.2 128)
      let k := s.me
      let sbd := boundOf b.src b.sn b.sd b.ses
      let dbd := boundOf b.dst b.dn b.dd b.des
      let fd : Spec := if followed then W.extractLsb' 42 6 else 0
      let slot0 := k.ringTail b.ring
      let dst := if b.dring then (k.ringAt b.ring).span s.cur slot0 b.t else (dea, dea + (dbd.2 - dbd.1).toNat)
      let rs := (if fill then [] else [(sea, sea + (sbd.2 - sbd.1).toNat, false)]) ++ [(dst.1, dst.2, true)]
      let tg := u.commandOf x.d x.scope.toNat
      s.canRead ss → s.canWrite x.d → s.clear → u.storeFree A 128 false → p.2 % 128 = 0 →
      b.valid k d.toNat fill = true → (followed = true → followOk W = true) →
      (if fill then sea = 0
        else u.segAt b.sseg (BitVec.ofInt 64 sbd.1).toNat (sbd.2 - sbd.1).toNat (needR ||| needE) sea) →
      (if b.dring then dea = 0
        else u.segAt b.dseg (BitVec.ofInt 64 dbd.1).toNat (dbd.2 - dbd.1).toNat (needW ||| needE) dea) →
      (32 ≤ fd.toNat ∨ u.thread.isFull fd.toNat = true) → k.copyRoom d.toNat = true →
      k.rangeRoom d.toNat rs.length = true →
      exec i s = ((((((u.counted A).watched 1 [{ ea := winAddr p.1 p.2, n := 128 }]).withId.engIssue s.cur d rs).emptied
        x.d).emptied fd).modMe fun k =>
        { k.addRanges tg rs with copies := k.copies ++ [
          { t := tg, blk := b, fill := fill, follow := if followed then some W else none
            sbase := sea - sbd.1.toNat, dbase := dea - dbd.1.toNat
            sigma := s.me.ring.toList.map (·.sigma), slot0 := slot0, rows := b.rows fill }] }).goesOn x.e x.w
    let stops (i : Instr) (fill followed : Bool) : Prop :=
      let ss := if followed then [x.a, x.b] else [x.a]
      let u := s.taken ss
      let A := (s.operand ss 0).toNat
      let W := s.operand ss 1
      let p := storeLoc s.cur A
      let valid := (Shape.ofBytes (s.rdStore p.1 p.2 128)).valid s.me s.thread.dom.toNat fill
      s.canRead ss → s.canWrite x.d → s.thread.atLookup = false →
      (followed = true → 32 ≤ fld W 42 6 ∨ u.thread.isFull (fld W 42 6) = true) →
      BlockStops s u s.me A 128 128 6 3 false (exec i s)
      ∧ (s.clear → u.storeFree A 128 false → p.2 % 128 = 0 →
        (valid = false → exec i s = s.trapped 17 1)
        ∧ (valid = true → followed = true → followOk W = false → exec i s = s.trapped 17 4))
    (enters (.cpy x) false false ∧ enters (.cpym x) false true ∧ enters (.cpyf x) true false)
    ∧ stops (.cpy x) false false ∧ stops (.cpym x) false true ∧ stops (.cpyf x) true false

/-- R202, R203, R205, R225 to R227, R230: RNGINI, RNGPOP, RNGADV and RNGQ complete: a ring is set up empty over a part of the
domain's store; ready tiles are taken and added, or nothing happens and d is 0; the state, the layout, the geometry and
the head's tag are read. A ring that is not the domain's, that is busy or not set up, a geometry or a layout that is not
valid, and a part that fails the store check, take their traps instead.
(It rests on the model's choices: log entry 25.) -/
def Obligations.Rings : Prop :=
  (∀ (x : FmtT) (s : State), s.canWrite x.d → s.thread.atLookup = false →
    let r := x.id1.toNat
    let has := s.me.hasRing s.thread.dom.toNat r
    (s.canRead [] → has = false → exec (.rngpop x) s = s.trapped 17 2 ∧ exec (.rngadv x) s = s.trapped 17 2
      ∧ exec (.rngq x) s = s.trapped 17 2)
    ∧ (s.canRead [x.a, x.b] →
      let g := s.me.ringAt r
      let A := s.operand [x.a, x.b] 0
      let L := s.operand [x.a, x.b] 1
      let busy : Prop := g.held ≠ 0 ∨ g.claims ≠ 0
        ∨ (∃ c ∈ s.me.copies, c.t.dom = s.thread.dom ∧ c.names r = true)
        ∨ ∃ c ∈ s.me.mats, c.t.dom = s.thread.dom ∧ c.names r = true
      let invalid : Prop := fld A 0 21 % 256 ≠ 0 ∨ fld A 21 3 ≠ 0 ∨ fld A 24 8 = 0 ∨ fld A 32 32 ≠ 0 ∨ layoutOk L = false
      (has = false → exec (.rngini x) s = s.trapped 17 2)
      ∧ (has = true → busy → exec (.rngini x) s = s.trapped 17 3)
      ∧ (has = true → ¬ busy → invalid → exec (.rngini x) s = s.trapped 17 6)
      ∧ (has = true → ¬ busy → ¬ invalid → ∀ b,
        (s.taken [x.a, x.b]).storeStop s.thread.dom.toNat s.cur (fld A 0 21) (fld A 24 8 * tileBytes L) b →
        exec (.rngini x) s = s.trapped 6 b (word (fld A 0 21)))))
  ∧ (∀ (x : FmtT) (s : State), s.canRead [x.a, x.b] → s.canWrite x.d →
    let ss := [x.a, x.b]
    let u := s.taken ss
    let A := s.operand ss 0
    let L := s.operand ss 1
    let r := x.id1.toNat
    let g := s.me.ringAt r
    let base := fld A 0 21
    let tiles := fld A 24 8
    s.me.hasRing s.thread.dom.toNat r = true → g.held = 0 → g.claims = 0 →
    (∀ c ∈ s.me.copies, c.t.dom = s.thread.dom → c.names r = false) →
    (∀ c ∈ s.me.mats, c.t.dom = s.thread.dom → c.names r = false) →
    base % 256 = 0 → fld A 21 3 = 0 → tiles ≠ 0 → fld A 32 32 = 0 → layoutOk L = true →
    u.storeAt base (tiles * tileBytes L) →
    let g' : Ring := { base := base, tiles := tiles, layout := L, sigma := g.sigma }
    exec (.rngini x) s = ((u.modMe (·.setRing r g')).write x.d (word (tileBytes L))).goesOn x.e x.w)
  ∧ ∀ (x : FmtT) (s : State), s.canRead [] → s.canWrite x.d →
    let r := x.id1.toNat
    let g := s.me.ringAt r
    let n := fld x.op 0 8
    let u := s.started
    s.me.hasRing s.thread.dom.toNat r = true →
    (g.tiles ≠ 0 →
      exec (.rngpop x) s = (if g.claims = 0 ∧ n ≤ g.ready then
          (u.modMe (·.setRing r { g with head := (g.head + n) % g.tiles, ready := g.ready - n })).write x.d (word n)
        else u.write x.d 0).goesOn x.e x.w
      ∧ exec (.rngadv x) s = (if g.ready + g.held + n ≤ g.tiles ∧ g.held = 0 ∧ s.me.ringQueued r = false then
          (u.modMe (·.setRing r { g.setTags (g.head + g.ready) n g.layout with ready := g.ready + n })).write x.d (word n)
        else u.write x.d 0).goesOn x.e x.w)
    ∧ (g.tiles = 0 → s.thread.atLookup = false →
      exec (.rngpop x) s = s.trapped 17 3 ∧ exec (.rngadv x) s = s.trapped 17 3)
    ∧ exec (.rngq x) s = (u.write x.d (match fld x.op 0 2 with
      | 0 => word (g.head ||| g.ready <<< 8 ||| g.held <<< 16 ||| g.claims <<< 24 ||| g.tiles <<< 32)
      | 1 => g.layout
      | 2 => word (g.base ||| g.tiles <<< 24)
      | _ => if g.ready = 0 then 0 else Tab.get 0 g.tags g.head)).goesOn x.e x.w

/-- R208, R209, R228, R229: RLCK and RFREE complete: RLCK registers the range at the lowest free index, which it
returns, or reports that no entry is left for it; RFREE releases at its scope and frees the entry of its own thread, and
gd waits for its status 0, until when a command that waited on the entry is still held.
(It rests on the model's choices: log entry 43, that of several free indexes RLCK takes the lowest.) -/
def Obligations.RangeLocks : Prop :=
  (∀ (x : FmtT) (s : State) (ea : Nat), s.canRead [x.a, x.b] → s.canWrite x.d →
    let ss := [x.a, x.b]
    let u := s.taken ss
    let n := (s.operand ss 1).toNat
    let w := x.op.getLsbD 3
    (n = 0 ∨ 2 ^ 32 < n → exec (.rlck x) s = (u.write x.d 0xFFFFFFFFFFFFFFFE).goesOn x.e x.w)
    ∧ (0 < n → n ≤ 2 ^ 32 → u.segAt (fld x.op 0 3) (s.operand ss 0).toNat n (if w then needRW else needR) ea →
      (s.me.rangeRoom s.thread.dom.toNat 5 = false → exec (.rlck x) s = (u.write x.d 0xFFFFFFFFFFFFFFFF).goesOn x.e x.w)
      ∧ (s.me.rangeRoom s.thread.dom.toNat 5 = true → ∀ j, j < 32 → (∀ e ∈ s.me.ranges, e.1 ≠ j) →
        (∀ j', j' < j → ∃ e ∈ s.me.ranges, e.1 = j') →
        let ent : RangeEnt := ⟨s.thread.dom, ea, ea + n, w, .thread s.thread.tid, s.nextId⟩
        exec (.rlck x) s =
          ((u.withId.modMe fun k => { k with ranges := k.ranges.put j ent }).write x.d (word j)).goesOn x.e x.w)))
  ∧ ∀ (x : FmtT) (s : State), s.canRead [x.a] → s.canWrite x.d → s.clear →
    let u := s.taken [x.a]
    let i := (s.operand [x.a] 0).toNat
    let freed (k : Core) : Core := Core.addFill { k with ranges := k.ranges.erase i }
      { tid := s.thread.tid, d := x.d.toNat, value := 0
        holds := (s.me.ranges.find? (·.1 == i)).map fun e => (e.2, s.nextId) }
    ((∃ e ∈ s.me.ranges, e.1 = i ∧ e.2.owner = .thread s.thread.tid) →
      exec (.rfree x) s = (((u.released x.scope.toNat).withId.emptied x.d).modMe freed).goesOn x.e x.w)
    ∧ (∀ e m id, s.me.ranges.find? (·.1 == i) = some e → m ∈ s.me.ranges → m.1 ≠ i → m.2.owner = .command id →
        e.2.seq < m.2.seq → m.2.seq < s.nextId → e.2.meets m.2 = true → (freed s.me).rangeHeld id = true)
    ∧ ((∀ e ∈ s.me.ranges, e.1 = i → e.2.owner ≠ .thread s.thread.tid) → s.thread.atLookup = false →
      exec (.rfree x) s = s.trapped 17 5)

/-- R202, R211, R218, R219, R230 to R233: BARINIT, BARARV and BARWT complete where the object lies in a store of the domain:
the first two release and send their request; BARWT tests at once, and waits where the phase has not passed and its bound
is not 0. An object that fails the store check, is not aligned or hits a range, and a value that is not valid, take their
traps instead.
(It rests on the model's choices: log entries 19, 25 and 33.) -/
def Obligations.Barriers : Prop :=
  ∀ (x : FmtT) (s : State), s.clear →
    let lane (A : Word) : Lane := { ea := winAddr (storeLoc s.cur A.toNat).1 (storeLoc s.cur A.toNat).2, n := 16 }
    let object (u : State) (A : Word) (write : Bool) : Prop :=
      u.storeFree A.toNat 16 write ∧ (storeLoc s.cur A.toNat).2 % 16 = 0
    (s.canWrite x.d → s.thread.atLookup = false →
      let both := [x.a, x.b]
      (s.canRead both →
        let A := s.operand both 0
        let V := s.operand both 1
        BlockStops s (s.taken both) s.me A.toNat 16 16 6 3 true (exec (.barinit x) s)
        ∧ BlockStops s (s.taken both) s.me A.toNat 16 16 6 3 false (exec (.barwt x) s)
        ∧ (object (s.taken both) A true → fld V 0 16 = 0 ∨ fld V 16 8 = 0 ∨ fld V 28 36 ≠ 0 →
          exec (.barinit x) s = s.trapped 17 7))
      ∧ (s.canRead [x.a] →
        BlockStops s (s.taken [x.a]) s.me (s.operand [x.a] 0).toNat 16 16 6 3 true (exec (.bararv x) s)))
    ∧ (∀ (init : Bool),
      let ss := if init then [x.a, x.b] else [x.a]
      let u := s.taken ss
      let A := s.operand ss 0
      let V := s.operand ss 1
      let p := storeLoc s.cur A.toNat
      let tg := u.commandOf x.d x.scope.toNat
      let v := ((u.counted A.toNat).withId.released x.scope.toNat).emptied x.d
      let sent (v : State) : State := { v with bars := v.bars ++ [
        { t := tg, core := s.cur, target := p.1, off := p.2, init := init,
          n := if init then 0 else fld x.op 0 3, value := if init then V else 0
          events := v.thread.requestEvents p }] }
      s.canRead ss → s.canWrite x.d → object u A true →
      (init = true → fld V 0 16 ≠ 0 → fld V 16 8 ≠ 0 → fld V 28 36 = 0 →
        exec (.barinit x) s = (sent v).goesOn x.e x.w)
      ∧ (init = false →
        exec (.bararv x) s = (sent (v.modThread fun t => { t with status := .reply })).goesOn x.e x.w))
    ∧ (let ss := [x.a, x.b]
       let u := s.taken ss
       let A := s.operand ss 0
       let p := storeLoc s.cur A.toNat
       let bound := fld (s.operand ss 1) 0 32
       let w : BarWait := { t := u.commandOf x.d x.scope.toNat, target := p.1, off := p.2, phase := fld x.op 0 4
                            deadline := s.me.cycle + bound }
       let v := ((u.counted A.toNat).withId.watched 1 [lane A]).emptied x.d
       let o := word (ofLe (s.rdStore p.1 p.2 8))
       let passed := fld o 32 4 ≠ w.phase ∨ o.getLsbD 36 = true
       s.canRead ss → s.canWrite x.d → object u A false →
       (passed → exec (.barwt x) s = (v.barwtEnd s.cur w false).goesOn x.e x.w)
       ∧ (¬ passed → bound = 0 → exec (.barwt x) s = (v.barwtEnd s.cur w true).goesOn x.e x.w)
       ∧ (¬ passed → bound ≠ 0 →
          exec (.barwt x) s = (v.modMe fun k => { k with barwts := k.barwts ++ [w] }).goesOn x.e x.w))

/-- R202, R209, R211, R299, R310, R311, R318, R320, R321, R326: ROUTE, SPLINI and SPLQ complete where their checks pass. SPLINI makes
an idle or a ready splice ready under the next generation, its output zero and its write range registered; of a ready one
the earlier SPLINI's entry is freed and its d filled with 3 first. ROUTE makes the splice run: the slots of the valid
pairs are pending with their weights, the pairs wait in order, and the read range of the tile is registered; with no
valid pair the splice and the ROUTE complete at once, with 0. Otherwise gd waits for the status in both. A splice that is
not the domain's or is in the wrong state, a tile, an array or a block that fails its checks, and a record with a bit that
must be 0, take their traps instead.
(It rests on the model's choices: log entry 26.) -/
def Obligations.Splices : Prop :=
  (∀ (x : FmtT) (s : State), s.canWrite x.d → s.thread.atLookup = false →
    let n := x.id1.toNat
    let d := s.thread.dom.toNat
    let has := s.me.hasSplice d n
    let p := s.me.spliceAt n
    (s.canRead (if fld x.op 0 2 = 1 then [x.b] else []) → has = false → exec (.splq x) s = s.trapped 17 11)
    ∧ (s.canRead [x.a] →
      let u := s.taken [x.a]
      let A := (s.operand [x.a] 0).toNat
      let q := storeLoc s.cur A
      let k0 := if p.state = 1 then s.me.freeRanges p.t.id else s.me
      (has = false → exec (.splini x) s = s.trapped 17 11)
      ∧ (has = true → p.state = 2 → exec (.splini x) s = s.trapped 17 12)
      ∧ (has = true → p.state ≠ 2 → BlockStops s u k0 A 32 32 17 18 false (exec (.splini x) s)
        ∧ (s.clear → u.storeAt A 32 → q.2 % 32 = 0 →
          k0.rangeHit s.thread.dom s.thread.tid (winAddr q.1 q.2) 32 false = none →
          s.spliceOk (s.rdStore q.1 q.2 32) d = false → exec (.splini x) s = s.trapped 17 13)))
    ∧ (s.canRead [x.a, x.b] →
      let u := s.taken [x.a, x.b]
      let A := (s.operand [x.a, x.b] 0).toNat
      let B := (s.operand [x.a, x.b] 1).toNat
      let bytes := p.rows * (p.cols * elSize p.stype)
      let recs := storeLoc s.cur B
      (has = false → exec (.route x) s = s.trapped 17 11)
      ∧ (has = true → p.state ≠ 1 → exec (.route x) s = s.trapped 17 12)
      ∧ (has = true → p.state = 1 →
        (∀ b, u.storeStop d s.cur A bytes b → exec (.route x) s = s.trapped 6 b (word A))
        ∧ (u.storeAt A bytes →
          (∀ b, u.storeStop d s.cur B (p.rows * 32) b → exec (.route x) s = s.trapped 6 b (word B))
          ∧ (u.storeAt B (p.rows * 32) → (storeLoc s.cur A).2 % 32 ≠ 0 → exec (.route x) s = s.trapped 17 18)
          ∧ ((storeLoc s.cur A).2 % 32 = 0 → BlockStops s u s.me B (p.rows * 32) 32 17 18 false (exec (.route x) s)
            ∧ (s.clear → u.storeFree B (p.rows * 32) false → recs.2 % 32 = 0 →
              (∃ j, j < 4 * p.rows ∧ pairBad (word (ofLe (s.rdStore recs.1 (recs.2 + 8 * j) 8))) = true) →
              exec (.route x) s = s.trapped 17 19))))))
  ∧ (∀ (x : FmtT) (s : State), s.canRead [x.a] → s.canWrite x.d → s.clear →
    let n := x.id1.toNat
    let A := (s.operand [x.a] 0).toNat
    let d := s.thread.dom
    let old := s.me.spliceAt n
    let p := storeLoc s.cur A
    let b := s.rdStore p.1 p.2 32
    let q := Splice.ofBytes b
    let o := (storeLoc s.cur q.out).2
    let lo := winAddr s.cur o
    let hi := lo + q.rows * q.cols * 4
    let k0 := if old.state = 1 then s.me.freeRanges old.t.id else s.me
    s.me.hasSplice d.toNat n = true → old.state ≠ 2 → (s.taken [x.a]).storeAt A 32 →
    k0.rangeHit d s.thread.tid (winAddr p.1 p.2) 32 false = none → p.2 % 32 = 0 →
    s.spliceOk b d.toNat = true → k0.rangeRoom d.toNat 1 = true → k0.rangeClash d lo hi true = false →
    ∃ t, exec (.splini x) s = .next t ∧ t.awaits x.d
      ∧ (∃ j, j < 32 ∧ (j, ⟨d, lo, hi, true, .command s.nextId, s.nextId⟩) ∈ t.me.ranges
          ∧ ∀ e ∈ k0.ranges, e ∈ t.me.ranges)
      ∧ (old.state = 1 → s.onSlot s.cur old.t.tid old.t.d → old.t.tid ≠ s.thread.tid ∨ old.t.d ≠ x.d.toNat →
          t.got s.cur old.t.tid old.t.d 3)
      ∧ (let r := t.me.spliceAt n
         r.state = 1 ∧ r.dom = d ∧ r.out = o ∧ r.rows = q.rows ∧ r.cols = q.cols ∧ r.stype = q.stype ∧ r.rtype = q.rtype
          ∧ r.timeout = q.timeout ∧ r.gen = (old.gen + 1) % 256 ∧ r.late = 0 ∧ r.slots = [] ∧ r.t.d = x.d.toNat
          ∧ r.t.tid = s.thread.tid ∧ r.t.id = s.nextId)
      ∧ (∀ i, Tab.get 0 t.me.store i =
          if o ≤ i ∧ i < o + q.rows * q.cols * 4 then 0 else Tab.get 0 s.me.store i)
      ∧ ∀ m, m ≠ n → t.me.spliceAt m = s.me.spliceAt m)
  ∧ (∀ (x : FmtT) (s : State), s.canRead [x.a, x.b] → s.canWrite x.d → s.clear →
    let ss := [x.a, x.b]
    let u := s.taken ss
    let A := (s.operand ss 0).toNat
    let B := (s.operand ss 1).toNat
    let n := x.id1.toNat
    let d := s.thread.dom
    let p := s.me.spliceAt n
    let tile := storeLoc s.cur A
    let recs := storeLoc s.cur B
    let pairs := (List.range (4 * p.rows)).map fun i =>
      (i / 4, i % 4, word (ofLe (s.rdStore recs.1 (recs.2 + 8 * i) 8)))
    let live := pairs.filter fun q => q.2.2.getLsbD 40
    s.me.hasSplice d.toNat n = true → p.state = 1 → u.storeAt A (p.rows * (p.cols * elSize p.stype)) →
    u.storeFree B (p.rows * 32) false → tile.2 % 32 = 0 → recs.2 % 32 = 0 → (∀ q ∈ pairs, pairBad q.2.2 = false) →
    s.me.rangeRoom d.toNat 1 = true →
    (live = [] → ∃ t, exec (.route x) s = .next t ∧ t.me.routes = s.me.routes
      ∧ (t.me.spliceAt n).state = 0 ∧ (t.me.spliceAt n).gen = p.gen ∧ (t.me.spliceAt n).slots = []
      ∧ (s.onSlot s.cur p.t.tid p.t.d → t.got s.cur p.t.tid p.t.d 0)
      ∧ (s.onSlot s.cur s.thread.tid x.d.toNat → t.got s.cur s.thread.tid x.d.toNat 0))
    ∧ (live ≠ [] →
    ∃ t cmd, exec (.route x) s = .next t ∧ t.awaits x.d ∧ t.me.routes = s.me.routes ++ [cmd]
      ∧ cmd.t.d = x.d.toNat ∧ cmd.t.tid = s.thread.tid ∧ cmd.t.id = s.nextId ∧ cmd.splice = n ∧ cmd.gen = p.gen
      ∧ cmd.tile = A
      ∧ (∃ j, j < 32 ∧ (j, ⟨d, winAddr tile.1 tile.2, winAddr tile.1 tile.2 + p.rows * (p.cols * elSize p.stype), false,
            .command s.nextId, s.nextId⟩) ∈ t.me.ranges
          ∧ ∀ e ∈ s.me.ranges, e ∈ t.me.ranges)
      ∧ cmd.pairs = live.map (fun q => (q.1, q.2.1, fld q.2.2 32 8))
      ∧ (t.me.spliceAt n).state = 2 ∧ (t.me.spliceAt n).gen = p.gen
      ∧ (t.me.spliceAt n).deadline = (if p.timeout = 0 then none else some (s.me.cycle + p.timeout))
      ∧ ∀ r k, r < p.rows → k < 4 → (t.me.spliceAt n).slot r k =
          let w := word (ofLe (s.rdStore recs.1 (recs.2 + 8 * (4 * r + k)) 8))
          if w.getLsbD 40 then { status := 1, weight := w.extractLsb' 0 32 } else {}))
  ∧ ∀ (x : FmtT) (s : State),
    let item := fld x.op 0 2
    let ss := if item = 1 then [x.b] else []
    let p := s.me.spliceAt x.id1.toNat
    let r := (s.operand ss 0).toNat
    s.canRead ss → s.canWrite x.d → s.me.hasSplice s.thread.dom.toNat x.id1.toNat = true →
    exec (.splq x) s = s.scalarResult ss x.d x.e x.w (match item with
      | 0 => p.report (if p.state = 0 then (if p.expired then 1 else 0) else 2)
      | 1 => if p.rows ≤ r then 0 else
        word ((p.slot r 0).status + 16 * (p.slot r 1).status + 256 * (p.slot r 2).status + 4096 * (p.slot r 3).status)
      | _ => word (p.late % 2 ^ 32 ||| p.gen <<< 32))

/-- R202, R211, R301, R302, R304, R308, R314, R319, R322 to R326: RTRET, RXBIND, RXTAKE, RXFREE and RXEOS complete where their checks
pass: the row, still to be read, or the token leaves the core (a return to a package that is unreachable gets 3, and the
entry of its row stands until then), the queue is bound with no page, the take waits, or a page or the end of the stream is
on its way to gd, the page's rows return one credit each and the page is free. A queue or an
entry that is not the thread's, a block, row or tag that fails its checks, a page it does not hold, and RXBIND by a thread
that SPAWNR did not start, take their traps instead.
(It rests on the model's choices: log entries 27 and 33.) -/
def Obligations.RouteQueues : Prop :=
  (∀ (x : FmtT) (s : State), s.canWrite x.d → s.thread.atLookup = false →
    let d := s.thread.dom
    let n := x.id1.toNat
    let has := s.me.hasQueue d.toNat n
    let mine : Prop := ∃ q, s.me.queueAt n = some q ∧ q.tid = s.thread.tid
    (let fail := x.op.getLsbD 7
     let ss := if fail then [x.b] else [x.a, x.b]
     let A := (s.operand ss 0).toNat
     let bytes := 16 * (fld x.op 0 6 + 1) * elSize (fld x.op 6 1)
     let tag := s.operand ss (if fail then 0 else 1)
     s.canRead ss →
      (fld tag 59 5 ≠ 0 → exec (.rtret x) s = s.trapped 17 19)
      ∧ (fld tag 59 5 = 0 → fail = false →
        (∀ b, (s.taken ss).storeStop d.toNat s.cur A bytes b → exec (.rtret x) s = s.trapped 6 b (word A))
        ∧ ((s.taken ss).storeAt A bytes → (storeLoc s.cur A).2 % 32 ≠ 0 → exec (.rtret x) s = s.trapped 17 18)))
    ∧ (s.canRead [x.a] →
      let u := s.taken [x.a]
      let A := (s.operand [x.a] 0).toNat
      let p := storeLoc s.cur A
      (s.thread.resident = false → exec (.rxbind x) s = s.trapped 17 20)
      ∧ (s.thread.resident = true →
        (has = false → exec (.rxbind x) s = s.trapped 17 14)
        ∧ (has = true → s.me.queueAt n ≠ none → exec (.rxbind x) s = s.trapped 17 15)
        ∧ (has = true → s.me.queueAt n = none → BlockStops s u s.me A 32 32 17 18 false (exec (.rxbind x) s)
          ∧ (s.clear → u.storeFree A 32 false → p.2 % 32 = 0 → s.me.queueOk d.toNat (s.rdStore p.1 p.2 32) = false →
            exec (.rxbind x) s = s.trapped 17 16)))
      ∧ (has = false → exec (.rxfree x) s = s.trapped 17 14)
      ∧ (has = true → ¬ mine → exec (.rxfree x) s = s.trapped 17 15)
      ∧ (∀ q, has = true → s.me.queueAt n = some q → q.tid = s.thread.tid →
        (∀ pg ∈ q.taken, pg.addr ≠ A) → exec (.rxfree x) s = s.trapped 17 21))
    ∧ (s.canRead [] →
      let w := s.me.routeAt (x.id2.toNat * 16 + x.id1.toNat)
      (has = false → exec (.rxtake x) s = s.trapped 17 14)
      ∧ (has = true → ¬ mine → exec (.rxtake x) s = s.trapped 17 15)
      ∧ (rtValid w = false ∨ rtDom w ≠ d.toNat → exec (.rxeos x) s = s.trapped 17 17)))
  ∧ (∀ (x : FmtT) (s : State),
    let fail := x.op.getLsbD 7
    let ss := if fail then [x.b] else [x.a, x.b]
    let u := s.taken ss
    let tag := s.operand ss (if fail then 0 else 1)
    let A := (s.operand ss 0).toNat
    let rt := fld x.op 6 1
    let cols := 16 * (fld x.op 0 6 + 1)
    let n := cols * elSize rt
    let p := storeLoc s.cur A
    let tg := u.commandOf x.d 1
    let d := s.thread.dom
    s.canRead ss → s.canWrite x.d → s.clear → fld tag 59 5 = 0 →
    (fail = true → fld tag 32 19 ∈ s.down → exec (.rtret x) s = ((u.emptied x.d).modMe fun k =>
        k.addFill { tid := s.thread.tid, d := x.d.toNat, value := 3 }).goesOn x.e x.w)
    ∧ (fail = false → u.storeAt A n → p.2 % 32 = 0 → s.me.rangeRoom d.toNat 1 = true → fld tag 32 19 ∈ s.down →
      exec (.rtret x) s = (((u.withId.emptied x.d).modMe
        (·.addRanges tg [(winAddr p.1 p.2, winAddr p.1 p.2 + n, false)])).modMe fun k =>
          k.addFill { tid := s.thread.tid, d := x.d.toNat, value := 3, frees := some tg.id }).goesOn x.e x.w)
    ∧ (fail = true → fld tag 32 19 ∉ s.down → exec (.rtret x) s = ((u.withId.emptied x.d).sendPkt d (fld tag 32 19) (fld tag 22 10)
        (.ret tag 0 0 [] true (some tg) s.cur)).goesOn x.e x.w)
    ∧ (fail = false → u.storeAt A n → p.2 % 32 = 0 → s.me.rangeRoom d.toNat 1 = true → fld tag 32 19 ∉ s.down →
      exec (.rtret x) s = (((u.withId.emptied x.d).modMe
        (·.addRanges tg [(winAddr p.1 p.2, winAddr p.1 p.2 + n, false)])).sendPkt d (fld tag 32 19) (fld tag 22 10)
        (.ret tag cols rt [] false (some tg) s.cur) (some (A, n))).goesOn x.e x.w))
  ∧ (∀ (x : FmtT) (s : State), s.canRead [x.a] → s.canWrite x.d → s.clear →
    let u := s.taken [x.a]
    let d := s.thread.dom
    let n := x.id1.toNat
    let A := (s.operand [x.a] 0).toNat
    let p := storeLoc s.cur A
    let b := s.rdStore p.1 p.2 32
    s.thread.resident = true → s.me.hasQueue d.toNat n = true → s.me.queueAt n = none →
    u.storeFree A 32 false → p.2 % 32 = 0 → s.me.queueOk d.toNat b = true →
    exec (.rxbind x) s = ((((u.counted A).watched 1 [{ ea := winAddr p.1 p.2, n := 32 }]).modMe
        (·.setQueue n { dom := d, tid := s.thread.tid, rowbytes := blkF b 0 2
                        senders := blkF b 2 2, timeout := blkF b 4 4 })).write x.d
      (word (Tab.get {} s.me.pool d.toNat).freeCount)).goesOn x.e x.w)
  ∧ (∀ (x : FmtT) (s : State) (q : RxQueue), s.canRead [] → s.canWrite x.d →
    let n := x.id1.toNat
    s.me.hasQueue s.thread.dom.toNat n = true → s.me.queueAt n = some q → q.tid = s.thread.tid →
    let tg := s.started.commandOf x.d 1
    exec (.rxtake x) s = (((s.started.withId.emptied x.d).modMe (·.setQueue n { q with takes := q.takes ++ [tg] })).serve
      s.cur n).goesOn x.e x.w
    ∧ (q.handed = [] → q.ended = false → q.takes = [] → ∃ t, exec (.rxtake x) s = .next t ∧ t.awaits x.d
      ∧ t.me.queueAt n = some { q with takes := [tg] })
    ∧ (q.handed = [] → q.ended = true → q.pages = [] → q.takes = [] → ∃ t, exec (.rxtake x) s = .next t ∧ t.awaits x.d
      ∧ t.me.queueAt n = some q ∧ t.me.fills = s.me.fills ++ [{ tid := s.thread.tid, d := x.d.toNat, value := 0, queue := some n }])
    ∧ (∀ pg r, q.handed = pg :: r → q.takes = [] → ∃ t, exec (.rxtake x) s = .next t ∧ t.awaits x.d
      ∧ t.me.queueAt n = some { q with handed := r, taken := q.taken ++ [pg] }
      ∧ t.me.fills =
          s.me.fills ++ [{ tid := s.thread.tid, d := x.d.toNat, value := word pg.addr, queue := some n }]))
  ∧ (∀ (x : FmtT) (s : State) (q : RxQueue) (pg : TokPage), s.canRead [x.a] → s.canWrite x.d →
    let n := x.id1.toNat
    s.me.hasQueue s.thread.dom.toNat n = true → s.me.queueAt n = some q → q.tid = s.thread.tid →
    q.taken.find? (·.addr == (s.operand [x.a] 0).toNat) = some pg →
    ∃ t, exec (.rxfree x) s = .next t ∧ t.awaits x.d
      ∧ { tid := q.tid, d := x.d.toNat, value := 0 : Fill } ∈ t.me.fills
      ∧ t.me.queueAt n = some { q with taken := q.taken.filter (·.addr != pg.addr) }
      ∧ pg.addr ∉ (Tab.get {} t.me.pool q.dom.toNat).used
      ∧ t.net = s.net ++ pg.rows.map fun r =>
          { dom := q.dom, package := fld r.2 32 19, core := fld r.2 22 10, source := fld s.pkgid 0 19
            incarnation := fld s.pkgid 32 16, kind := .credit (fld r.2 51 8) })
  ∧ ∀ (x : FmtT) (s : State), s.canRead [] → s.canWrite x.d →
    let w := s.me.routeAt (x.id2.toNat * 16 + x.id1.toNat)
    let tg := s.started.commandOf x.d 1
    rtValid w = true → rtDom w = s.thread.dom.toNat →
    (rtFailed w = true → exec (.rxeos x) s = ((s.started.emptied x.d).modMe fun k =>
        k.addFill { tid := s.thread.tid, d := x.d.toNat, value := 1 }).goesOn x.e x.w)
    ∧ (rtFailed w = false → exec (.rxeos x) s = ((s.started.withId.emptied x.d).sendPkt s.thread.dom (rtPackage w)
        (rtCore w) (.eos (rtQueue w) tg s.cur)).goesOn x.e x.w)

/-- R49, R96, R100, R107, R284: the frame of classes 4 and 5 in the issuing thread, its h bank and memory: whatever the
outcome, no g register but d holds another value, and for SPLINI and ROUTE the d of the splice's earlier SPLINI, which the
instruction may fill; flags, counters, vector registers, masks, segments, configuration and identity are as before, and no
h register has changed within the turn. In memory: a byte of device memory is as before for every domain unless it lies in
a block in which a line of the core's L1 has written bytes, which an engine command, a release, an acquire or an RXFREE
writes back, or, for SPLINI and ROUTE, in the frame of the saved thread whose d they fill; and every byte of every store
is as before but for the output tile that SPLINI clears.
(It rests on the model's choices: log entry 26.) -/
def Obligations.CommandFrame : Prop :=
  ∀ (i : Instr) (s t : State) (a : Thread), s.thread? = some a → exec i s = .next t →
    let memory (busy : Nat → Prop) (cleared : Nat → Prop) : Prop :=
      (∀ d pa, s.settled pa → ¬ busy pa → t.rdPa d pa = s.rdPa d pa)
      ∧ ∀ c off, ¬ (c = s.cur ∧ cleared off) → Tab.get 0 (t.core c).store off = Tab.get 0 (s.core c).store off
    let never (_ : Nat) : Prop := False
    let frame (n pa : Nat) : Prop := ∃ f ∈ s.me.saved, f.thread.tid = (s.me.spliceAt n).t.tid
      ∧ f.frame < pa + 16 ∧ pa < f.frame + 0x218 + 8 * (s.me.spliceAt n).t.d
    let tile (x : FmtT) (off : Nat) : Prop :=
      let p := storeLoc s.cur (s.operand [x.a] 0).toNat
      let q := Splice.ofBytes (s.rdStore p.1 p.2 32)
      let o := (storeLoc s.cur q.out).2
      o ≤ off ∧ off < o + q.rows * q.cols * 4
    let keeps (ds : List Nat) : Prop := ∃ b, t.thread? = some b
      ∧ b.f = a.f ∧ b.c = a.c ∧ b.v = a.v ∧ b.m = a.m ∧ b.pend = a.pend ∧ b.seg = a.seg ∧ b.cfg = a.cfg
      ∧ b.ident = a.ident ∧ b.csp = a.csp ∧ b.hndl = a.hndl ∧ t.me.h = s.me.h
      ∧ ∀ r, r < 32 → r ∉ ds → rd b.g r 0 = rd a.g r 0
    match i with
    | .mma x | .mmaz x | .mzero x | .mdrn x | .mlda x | .mscl x | .cpy x | .cpym x | .cpyf x | .rngini x | .rngpop x
    | .rngadv x | .rngq x | .rlck x | .rfree x | .barinit x | .bararv x | .barwt x | .rtret x | .splq x | .rxbind x
    | .rxfree x | .rxeos x | .rxtake x => keeps [x.d.toNat] ∧ memory never never
    | .route x => keeps [x.d.toNat, (s.me.spliceAt x.id1.toNat).t.d] ∧ memory (frame x.id1.toNat) never
    | .splini x => keeps [x.d.toNat, (s.me.spliceAt x.id1.toNat).t.d] ∧ memory (frame x.id1.toNat) (tile x)
    | _ => True

/-! ### Class 6 and the cue actions (R67 to R93, R118 to R150, R334 to R355, R380 to R396) -/

/-- R120 to R123, R144 to R149: CUEW, CUECUT, CUERD and CUESEL complete: CUEW stages a change and alters no live entry,
CUECUT orders the staged changes of the set for the end of the turn and returns the next cut number, CUERD reads, CUESEL
returns the old set and selects the new one. A set that the thread's map does not hold, and an index that the set does not
have, trap.
(It rests on the model's choices: log entry 42.) -/
def Obligations.CueInstructions : Prop :=
  (∀ (x : FmtS) (s : State) (a : Thread), s.thread? = some a → a.atLookup = false →
    let dis := x.op.getLsbD 6
    let ss := if dis then [x.b] else if x.a = 0 then [0, 0, 0, 0, x.b] else [x.a, x.a + 1, x.a + 2, x.a + 3, x.b]
    (s.mapped (fld x.op 0 6) = none →
      (s.canRead ss → exec (.cuew x) s = s.trapped 16 1) ∧ (s.canWrite x.d → exec (.cuecut x) s = s.trapped 16 1)
      ∧ (s.canWrite x.d → dis = false → exec (.cuesel x) s = s.trapped 16 1))
    ∧ ∀ cs, s.mapped (fld x.op 0 6) = some cs → s.canRead ss →
      (s.me.descOf cs).count ≤ (s.operand ss (if dis then 0 else 4)).toNat → exec (.cuew x) s = s.trapped 16 2)
  ∧ ∀ (x : FmtS) (s : State) (cs : Nat), s.mapped (fld x.op 0 6) = some cs →
    let dsc := s.me.descOf cs
    (let dis := x.op.getLsbD 6
     let ss := if dis then [x.b] else if x.a = 0 then [0, 0, 0, 0, x.b] else [x.a, x.a + 1, x.a + 2, x.a + 3, x.b]
     let i := (s.operand ss (if dis then 0 else 4)).toNat
     let act : BitVec 128 := s.operand ss 3 ++ s.operand ss 2
     let e := s.me.cueAt (dsc.base + i)
     s.canRead ss → i < dsc.count →
     (dis = false → (decodeCue act).isSome = true ∧
       (usesNset (fld act 28 4) = true → (s.mapped (fld act 56 8)).isSome = true) ∧
       (usesRset (fld act 28 4) = true → (s.mapped (fld act 48 8)).isSome = true)) →
     ∃ t e', exec (.cuew x) s = .next t ∧ t.me.cueAt (dsc.base + i) = e' ∧ e'.live = e.live ∧ e'.valid = e.valid
       ∧ e'.staged = true ∧ e'.sdis = dis
       ∧ (dis = true → e'.shadow = e.shadow)
       ∧ (dis = false → e'.shadow = ⟨s.operand ss 0, s.operand ss 1, mapSets act fun o => (s.mapped o).getD 0⟩)
       ∧ ∀ j, j ≠ dsc.base + i → t.me.cueAt j = s.me.cueAt j)
    ∧ (s.canRead [] → s.canWrite x.d →
       let n := (s.me.cuts.filter (·.set == cs)).length
       ∃ u : State, u.me.cuts = s.me.cuts ++ [⟨cs, s.me.stagedOf dsc⟩] ∧ (∀ j, (u.me.cueAt j).live = (s.me.cueAt j).live)
        ∧ u.thread? = s.started.thread? ∧ u.mem = s.mem
        ∧ exec (.cuecut x) s = (u.write x.d ((dsc.cut + BitVec.ofNat 16 (n + 1)).setWidth 64)).goesOn x.e x.w)
    ∧ (let ss := if 1 ≤ x.item ∧ x.item ≤ 5 then [x.b] else []
       let i := (s.operand ss 0).toNat
       let e := s.me.cueAt (dsc.base + i)
       let sh := x.op.getLsbD 9
       let img := if sh then e.shadow else e.live
       let act := if sh = true ∧ e.wrote = false then 0 else mapSets img.action (s.ctx s.thread.ctx).objSet
       s.canRead ss → s.canWrite x.d → (1 ≤ x.item → x.item ≤ 5 → i < dsc.count) →
       exec (.cuerd x) s = s.scalarResult ss x.d x.e x.w (match x.item with
        | 0 => dsc.cut.setWidth 64
        | 1 => img.value
        | 2 => img.mask
        | 3 => act.extractLsb' 0 64
        | 4 => act.extractLsb' 64 64
        | 5 => word ((if e.valid then 1 else 0) + (if e.staged then 2 else 0) + if e.sdis then 4 else 0)
        | _ => word (dsc.count ||| dsc.selreg <<< 16 ||| dsc.sello <<< 24 ||| cs <<< 32)))
    ∧ (x.op.getLsbD 6 = false → s.canRead [] → s.canWrite x.d →
       exec (.cuesel x) s = ((s.started.write x.d (word ((s.ctx s.thread.ctx).objSet s.thread.cset))).modThread
        fun t => { t with cset := cs }).goesOn x.e x.w)
    ∧ (x.op.getLsbD 6 = true → s.canRead [x.a] → s.canWrite x.d →
       ∀ cn, s.mapped (fld (s.operand [x.a] 0) 0 6) = some cn →
       exec (.cuesel x) s = (((s.taken [x.a]).write x.d (word ((s.ctx s.thread.ctx).objSet s.thread.cset))).modThread
        fun t => { t with cset := cn }).goesOn x.e x.w)

/-- R139, R141: at the end of a turn the cuts of the turn, of whatever sets, commit in issue order: of the changes of an
entry the latest decides whether it is valid and the latest image is its live copy, an entry with no change stays as it
is, and the cut number of a set rises by one for each of its cuts. -/
def Obligations.CutsCommit : Prop :=
  ∀ (k : Core),
    let u := k.commitCuts
    u.cuts = []
    ∧ (∀ set, u.descOf set = { k.descOf set with
        cut := (k.descOf set).cut + BitVec.ofNat 16 (k.cuts.filter (·.set == set)).length })
    ∧ ∀ i,
      let e := k.cueAt i
      let ch := ((k.cuts.flatMap (·.changes)).filter (·.1 == i)).map (·.2)
      (ch = [] → u.cueAt i = e)
      ∧ (∀ img, ch.getLast? = some (some img) → (u.cueAt i).live = img ∧ (u.cueAt i).valid = true)
      ∧ (ch.getLast? = some none → (u.cueAt i).valid = false
          ∧ (u.cueAt i).live = ((ch.filterMap id).getLast?).getD e.live)
      ∧ (u.cueAt i).shadow = e.shadow ∧ (u.cueAt i).wrote = e.wrote
      ∧ (u.cueAt i).staged = (e.staged && (!e.taken || ch.isEmpty))

/-- R77, R78, R86, R88 to R92, R355: SPAWN, SPAWNR, LAUNCH, PARK, YIELD, EXIT, SEND and HALT complete. A spawn's record
and a launch's records, of any number up to 65,535, are read and gd waits for the status; PARK waits for a message or its
timeout, HALT for a message, and both go on at once where a message is there; EXIT drains with its value; SEND queues its message.
(It rests on the model's choices: log entries 18, 28, 35 and 40.) -/
def Obligations.Scheduling : Prop :=
  (∀ (x : FmtS) (s s1 : State) (l : Lane), s.canRead [x.a] → s.canWrite x.d → s.clear →
    let u := s.taken [x.a]
    let off := (s.operand [x.a] 0 + x.imm.signExtend 64 * 64).toNat
    u.reach (fld x.op 0 3) [off] 64 64 needR = some ([l], s1) →
    let p := s1.element 1 l
    let r : RawTask := ⟨ofLe p.1⟩
    let sends (i : Instr) (resident : Bool) : Prop := ∃ t q, exec i s = .next t ∧ t.awaits x.d
      ∧ t.me.spawns = s.me.spawns ++ [q] ∧ q.resident = resident ∧ q.t.d = x.d.toNat ∧ q.t.tid = s.thread.tid
      ∧ q.valid = (p.2.recordOk r s.thread && p.2.stageOk r s.thread && !r.ident.empty)
      ∧ q.task.kind = r.kind ∧ q.task.dom = s.thread.dom ∧ q.task.launch = s.thread.launch
    sends (.spawn x) false ∧ sends (.spawnr x) true)
  ∧ (∀ (x : FmtS) (s : State), s.canRead [x.a, x.b] → s.canWrite x.d → s.clear →
    let ss := [x.a, x.b]
    let u := s.taken ss
    let off := (s.operand ss 0 + x.imm.signExtend 64 * 64).toNat
    let n := (s.operand ss 1).toNat
    let v := (u.withId.emptied x.d).released x.lscope
    let answers (v : State) (code : Nat) : Result := (v.modMe fun k =>
      k.addFill { tid := s.thread.tid, d := x.d.toNat, value := word code }).goesOn x.e x.w
    off % 64 = 0 → (∃ ea, u.segAt (fld x.op 0 3) off (n * 64) needR ea) →
    (65535 < n → exec (.launch x) s = answers v 4) ∧ (n = 0 → exec (.launch x) s = answers v 0)
    ∧ (∀ ls v1, 1 ≤ n → n ≤ 65535 →
      v.reach (fld x.op 0 3) ((List.range n).map fun i => off + 64 * i) 64 64 needR = some (ls, v1) →
      let q := v1.recordsAt x.lscope ls
      let w := q.2.watched 1 ls
      let live := q.1.filter fun r => !r.ident.empty
      let cores := w.placement s.thread.dom.toNat x.place x.lclass
      ((∃ r ∈ q.1, w.recordOk r s.thread = false) → exec (.launch x) s = answers w 3)
      ∧ ((∀ r ∈ q.1, w.recordOk r s.thread = true) →
        (w.quotaFull (dieOf s.cur) s.thread.dom.toNat = true → exec (.launch x) s = answers w 5)
        ∧ (w.quotaFull (dieOf s.cur) s.thread.dom.toNat = false →
          (w.rejects s.thread.dom.toNat x.lclass cores live.length = true → exec (.launch x) s = answers w 4)
          ∧ (w.rejects s.thread.dom.toNat x.lclass cores live.length = false →
            ∃ t lc tg recs, exec (.launch x) s = .next t ∧ t.awaits x.d ∧ t.launches = s.launches ++ [lc]
              ∧ lc.cls = x.lclass ∧ lc.dom = s.thread.dom ∧ lc.live = live.length ∧ lc.left = live.length
              ∧ lc.units = .device recs cores x.place ∧ recs.map (·.kind) = live.map (·.kind)
              ∧ lc.req = .thread s.cur tg (n - live.length) ∧ tg.d = x.d.toNat ∧ tg.tid = s.thread.tid
              ∧ lc.err = false)))))
  ∧ (∀ (x : FmtS) (s : State), s.canRead [x.a] → s.canWrite x.d →
    let u := s.taken [x.a]
    let v := s.operand [x.a] 0
    let mask := x.op.extractLsb' 0 4
    let late := if v = 0 then none else some (s.me.cycle + v.toNat)
    (u.thread.readyPorts mask = 0 →
      exec (.park x) s = ((u.emptied x.d).modThread fun t => { t with status := .parked mask late x.d.toNat }).goesOn x.e x.w)
    ∧ (u.thread.readyPorts mask ≠ 0 →
      exec (.park x) s = ((u.emptied x.d).modThread fun t =>
        t.setG x.d.toNat (word (u.thread.readyPorts mask))).goesOn x.e x.w))
  ∧ (∀ (x : FmtS) (s : State), s.canRead [] →
    exec (.yield x) s = (s.started.modThread fun t => { t with yield := !t.resident, yieldAt := s.me.cycle }).goesOn x.e x.w
    ∧ (s.thread.dom = 0 →
      (s.thread.readyPorts 0xF = 0 →
        exec (.halt x) s = (s.started.modThread fun t => { t with status := .parked 0xF none 0 }).goesOn x.e x.w)
      ∧ (s.thread.readyPorts 0xF ≠ 0 →
        exec (.halt x) s = (s.started.modThread fun t => { t with status := .running }).goesOn x.e x.w)))
  ∧ (∀ (x : FmtS) (s : State), s.canRead [x.a] →
    exec (.exit x) s = .next ((s.taken [x.a]).modThread fun t => { t with status := .exiting (s.operand [x.a] 0) }))
  ∧ ∀ (x : FmtS) (s : State), s.canRead [x.a, x.b] → s.canWrite x.d → (s.me.slot s.me.turnSlot).sendq.length < 2 →
    let ss := [x.a, x.b]
    let u := s.taken ss
    exec (.send x) s = ((u.emptied x.d).modMe fun k =>
      let sl := k.slot k.turnSlot
      k.setSlot k.turnSlot { sl with sendq := sl.sendq ++ [
        { dst := s.operand ss 0, msg := ⟨s.operand ss 1, x.imm.extractLsb' 0 8⟩, d := x.d.toNat, tid := s.thread.tid
          dom := s.thread.dom, pc := s.thread.pc }] }).goesOn x.e x.w

/-- R93, R121, R348 to R351, R353, R357, R381 to R383, R396: SYSR, SYSW, SEGW, SEGR, TIME and EVTR complete where the
domain may use what they name; what every register reads as, and what a write leaves in it (at the end of the turn for
those that R100, R351, R361 and R398 say).
(It rests on the model's choices: log entries 15, 20, 22, 24, 41 and 42.) -/
def Obligations.SystemRegisters : Prop :=
  (∀ (x : FmtS) (s : State), s.canRead [x.a] → s.canWrite x.d →
    let idx := (s.operand [x.a] 0).toNat
    let r : RegRef := { num := x.imm.toNat, idx := idx, slot := if crossOf x then targetField x else s.me.turnSlot,
                        dom := if crossOf x then targetField x else s.thread.dom.toNat }
    privFault2 x s.thread.dom = false → privFault3 x s.me idx = false →
    exec (.sysr x) s = s.scalarResult [x.a] x.d x.e x.w ((s.taken [x.a]).readReg s.cur r))
  ∧ (∀ (x : FmtS) (s : State), s.canRead [x.a, x.b] →
    let ss := [x.a, x.b]
    let idx := (s.operand ss 0).toNat
    let v := s.operand ss 1
    let r : RegRef := { num := x.imm.toNat, idx := idx, slot := if crossOf x then targetField x else s.me.turnSlot,
                        dom := if crossOf x then targetField x else s.thread.dom.toNat }
    privFault2 x s.thread.dom = false → privFault3 x s.me idx = false → privFault4 s.me s.thread.dom r = false →
    s.backed (regBytes r v).1 (regBytes r v).2 = true →
    exec (.sysw x) s = ((s.taken ss).writeReg s.cur r v).goesOn x.e x.w)
  ∧ (∀ (s : State) (c slot d i : Nat),
    let k := s.core c
    let a := (k.threadAt slot).getD {}
    let gives (n : Nat) (i : Nat := i) : Word := s.readReg c { num := n, idx := i, slot, dom := d }
    (gives 0x000 = a.cfg ∧ gives 0x001 = a.tcause ∧ gives 0x002 = a.taddr ∧ gives 0x003 = a.tdet0 ∧ gives 0x004 = a.tdet1
      ∧ gives 0x005 = a.tret ∧ gives 0x006 = a.tpend ∧ gives 0x007 = a.hndl
      ∧ (∀ j, j < 4 → gives (0x010 + j) = rd a.dbi j 0) ∧ gives 0x014 = rd a.dbw 0 0 ∧ gives 0x015 = rd a.dbw 1 0)
    ∧ (gives 0x020 = Tab.get 1048576 k.quant d ∧ gives 0x021 = Tab.get 1 k.rseed d ∧ gives 0x022 = rd (k.bankOf d) i 0
      ∧ gives 0x023 0 = Tab.get 0 k.frBase d ∧ gives 0x023 1 = Tab.get 0 k.frCount d
      ∧ (let p := Tab.get {} k.pool d
         gives 0x024 0 = word p.base ∧ gives 0x024 1 = word p.size ∧ gives 0x024 2 = word p.count)
      ∧ gives 0x025 0 = Tab.get 0 k.part0 d ∧ gives 0x025 1 = Tab.get 0 k.part1 d ∧ gives 0x025 2 = Tab.get 0 k.part2 d
      ∧ gives 0x025 3 = Tab.get 0 k.plock d
      ∧ (gives 0x025 4).getLsbD 0 = s.busy (.restore c d 0)
      ∧ (∀ j, 0 < j → (gives 0x025 4).getLsbD j = (Tab.get 0 k.sealReg d).getLsbD j)
      ∧ (∀ j, j < 32 → (gives 0x025 5).getLsbD j = (j == 1 && s.busy (.keys d)))
      ∧ fld (gives 0x025 5) 32 32 = Tab.get 0 s.epoch d % 2 ^ 32
      ∧ (∀ j, j < 6 → gives 0x025 (6 + j) = word (ofLe (((s.measOf d).drop (8 * j)).take 8)))
      ∧ gives 0x025 12 = (if s.busy (.extend c d 0) = true then 1 else 0)
      ∧ gives 0x025 13 = (if s.busy (.attest c d 0) = true then 1 else 0)
          + (if Tab.get false s.attested d = true then 2 else 0))
    ∧ (∀ w, s.busy w = true ↔ ∃ x ∈ s.work, w.like x = true)
    ∧ ((∀ j, (gives 0x030).getLsbD j = (decide (j < 8) && (k.threadAt j).any (·.preq.isSome))) ∧ gives 0x031 = word k.lb
      ∧ (let y := k.descOf i
         y.sello < 64 → y.selreg < 32 → y.count < 2048 → y.base < 1024 →
         fld (gives 0x040) 48 16 = y.cut.toNat ∧ fld (gives 0x040) 40 8 = y.dom.toNat ∧ fld (gives 0x040) 38 2 = 0
          ∧ fld (gives 0x040) 32 6 = y.sello ∧ fld (gives 0x040) 27 5 = y.selreg ∧ fld (gives 0x040) 16 11 = y.count
          ∧ fld (gives 0x040) 10 6 = 0 ∧ fld (gives 0x040) 0 10 = y.base)
      ∧ (∀ j, let y := (k.cueAt j).live
         gives 0x041 (4 * j) = y.value ∧ gives 0x041 (4 * j + 1) = y.mask
          ∧ gives 0x041 (4 * j + 2) = y.action.extractLsb' 0 64 ∧ gives 0x041 (4 * j + 3) = y.action.extractLsb' 64 64)
      ∧ (∀ j, let g := k.ringAt j
         g.base < 2 ^ 21 → g.tiles < 256 → g.head < 256 → g.ready < 256 → g.held < 256 → g.claims < 256 →
         gives 0x042 (4 * j) = word (g.base + g.tiles * 2 ^ 24) ∧ gives 0x042 (4 * j + 1) = g.layout
          ∧ gives 0x042 (4 * j + 2) =
              word (g.head + g.ready * 2 ^ 8 + g.held * 2 ^ 16 + g.claims * 2 ^ 24 + g.tiles * 2 ^ 32)
          ∧ gives 0x042 (4 * j + 3) = g.sigma.setWidth 64)
      ∧ (∀ j, gives 0x043 (2 * j) = (k.routeAt j).1 ∧ gives 0x043 (2 * j + 1) = (k.routeAt j).2)
      ∧ gives 0x060 = rd k.evsel i 0 ∧ gives 0x061 = rd k.evcnt i 0)
    ∧ gives 0x050 = s.ptbase ∧ gives 0x051 = s.ptcfg ∧ gives 0x052 = s.pterr
    ∧ gives 0x053 = (if s.shoot = [] then 0 else 1) ∧ gives 0x070 = s.qtab ∧ gives 0x071 = s.pwrcap
    ∧ (∀ j, 8 ≤ j → (gives 0x072).getLsbD j = (rd s.therm i 0).getLsbD j)
    ∧ gives 0x073 = s.rstinfo ∧ gives 0x074 = rd s.link i 0 ∧ gives 0x075 = s.pkgid)
  ∧ (∀ (s : State) (c slot d i : Nat) (v : Word),
    let k := s.core c
    let left (n : Nat) (i : Nat := i) : State := s.writeReg c { num := n, idx := i, slot, dom := d } v
    let kept (n : Nat) (i : Nat := i) : Core := (left n i).core c
    (∀ a, k.threadAt slot = some a →
      let now (n : Nat) : Thread := ((kept n).threadAt slot).getD {}
      (fld (now 0x000).cfg 4 60 = 0 ∧ (now 0x000).cfg.getLsbD 3 = v.getLsbD 3 ∧ (now 0x000).cfg.getLsbD 0 = v.getLsbD 0
        ∧ fld (now 0x000).cfg 1 2 = if fld v 1 2 = 3 then 0 else fld v 1 2)
      ∧ ((now 0x005).tret.getLsbD 57 = v.getLsbD 57
        ∧ fld (now 0x005).tret 54 2 = (if fld v 54 2 = 3 then fld a.tret 54 2 else fld v 54 2)
        ∧ ∀ j, j ≠ 54 → j ≠ 55 → j ≠ 57 → (now 0x005).tret.getLsbD j = a.tret.getLsbD j)
      ∧ (∀ j, j < 4 → now (0x010 + j) = { a with dbi := wr a.dbi j (v &&& 0x80000000FFFFFFFF) })
      ∧ ∀ j, j < 2 → now (0x014 + j) = { a with dbw := wr a.dbw j (v &&& 0xFF0FFFFFFFFFFFFF) })
    ∧ (k.threadAt slot = none → kept 0x000 = k ∧ kept 0x005 = k ∧ kept 0x010 = k ∧ kept 0x014 = k)
    ∧ (Tab.get 1048576 (kept 0x020).quant d = word (Nat.max 65536 (fld v 0 32))
      ∧ Tab.get 1 (kept 0x021).rseed d = (if v = 0 then 1 else v)
      ∧ (kept 0x022).hPend = k.hPend ++ [(k.hbank d, i, v)] ∧ (kept 0x022).h = k.h
      ∧ Tab.get 0 (kept 0x023 0).frBase d = word (v.toNat / 8192 * 8192)
      ∧ Tab.get 0 (kept 0x023 1).frCount d = v &&& 0xFFFF
      ∧ (∀ j, j < 4 → (kept 0x025 j).partPend = k.partPend ++ [⟨d, j, v⟩] ∧ (kept 0x025 j).part0 = k.part0
          ∧ (kept 0x025 j).part1 = k.part1 ∧ (kept 0x025 j).part2 = k.part2 ∧ (kept 0x025 j).plock = k.plock))
    ∧ (fld (Tab.get 0 (kept 0x025 4).sealReg d) 16 36 = fld v 16 36
      ∧ (left 0x025 4).work = s.work ++ (if v.getLsbD 3 = true then [.restore c d v] else [])
      ∧ (left 0x025 5).work = s.work ++ (if v.getLsbD 0 = true then [.keys d] else [])
      ∧ (left 0x025 12).work = s.work ++ [.extend c d v.toNat]
      ∧ (left 0x025 13).work = s.work ++ [.attest c d (v.toNat / 256 * 256)]
      ∧ Tab.get false (left 0x025 13).attested d = false)
    ∧ ((kept 0x030).partPend = k.partPend ++ [⟨0, 4, v⟩]
      ∧ (kept 0x031).lbPend = (if k.lbOk v then some (fld v 0 5, 8 * (k.turn + 1)) else k.lbPend)
      ∧ (kept 0x040).descOf i = { cut := (k.descOf i).cut, dom := v.extractLsb' 40 8, sello := Nat.min (fld v 32 6) 48
                                  selreg := fld v 27 5, count := Nat.min (fld v 16 11) 1024, base := fld v 0 10 }
      ∧ (∀ j, j < 16 → (kept 0x042 (4 * j)).ringAt j = { k.ringAt j with base := fld v 0 21, tiles := fld v 24 8 }
          ∧ (kept 0x042 (4 * j + 1)).ringAt j = { k.ringAt j with layout := v }
          ∧ (kept 0x042 (4 * j + 2)).ringAt j = k.ringAt j
          ∧ (kept 0x042 (4 * j + 3)).ringAt j = { k.ringAt j with sigma := v.extractLsb' 0 32 })
      ∧ (i < 8 → rd (kept 0x060).evsel i 0 = v &&& 0x80FFFF800000FFFF ∧ rd (kept 0x061).evcnt i 0 = v &&& 0x8000FFFFFFFFFFFF))
    ∧ (left 0x050).ptbase = v &&& 0x3FFFFFFFFFFF ∧ (kept 0x051).ptPend = some v ∧ (left 0x051).ptcfg = s.ptcfg
    ∧ (left 0x052).pterr = 0 ∧ (left 0x053).shoot.length = s.shoot.length + 1
    ∧ (left 0x070).qtab = v &&& 0x3FFFFFF80000
    ∧ (left 0x071).pwrcap = (if v.toNat < 800 then 800 else if 3200 < v.toNat then 3200 else v)
    ∧ fld (left 0x075).pkgid 0 19 = fld v 0 19 ∧ ∀ j, 19 ≤ j → (left 0x075).pkgid.getLsbD j = s.pkgid.getLsbD j)
  ∧ (∀ (x : FmtS) (s : State), s.canRead [x.a, x.b] →
    let ss := [x.a, x.b]
    let o := rd s.thread.seg (fld x.op 0 3) {}
    let nb := fld (s.operand ss 0) 0 52
    let nl := fld (s.operand ss 1) 0 52
    let nr := (s.operand ss 1).extractLsb' 52 6
    o.dom = s.thread.dom → nb + nl ≤ 2 ^ 52 →
    (s.thread.dom ≠ 0 → o.base.toNat ≤ nb ∧ nb + nl ≤ o.base.toNat + o.limit.toNat ∧ nr &&& ~~~o.rights = 0) →
    let g : Seg := { dom := o.dom, base := BitVec.ofNat 52 nb, rights := nr, limit := BitVec.ofNat 53 nl }
    exec (.segw x) s = ((s.taken ss).modThread fun t => { t with seg := wr t.seg (fld x.op 0 3) g }).goesOn x.e x.w)
  ∧ ∀ (x : FmtS) (s : State), s.canRead [] → s.canWrite x.d →
    let gives := s.scalarResult [] x.d x.e x.w
    let g := rd s.thread.seg (fld x.op 0 3) {}
    let n := fld x.op 0 3
    exec (.segr x) s = gives (if x.op.getLsbD 3 then word (g.limit.toNat % 2 ^ 52) ||| g.rights.setWidth 64 <<< 52
      else g.base.setWidth 64 ||| g.dom.setWidth 64 <<< 56)
    ∧ (fld x.op 0 2 = 0 → exec (.time x) s = gives (word s.me.cycle))
    ∧ (fld x.op 0 2 ≠ 0 → ∃ back, back ≤ 16 ∧ exec (.time x) s = gives (word (s.halfNs / 2 - back)))
    ∧ exec (.evtr x) s = gives (if s.thread.dom = 0 ∨ fld (rd s.me.evsel n 0) 48 8 = s.thread.dom.toNat
        then rd s.me.evcnt n 0 else BitVec.allOnes 64)

/-- R354, R355, R357, R360, R381: what the privilege checks turn away, the instruction does not do: a register or a cross
write that is not the domain's, HALT outside domain 0, an index that does not exist, a write of a register that is read
only to the domain (also where its index is not there yet), of a PART register that PLOCK locks, or of a measurement; and
a SEGW of a segment that another domain made, of one that ends past 2^52, and, outside domain 0, of one that passes the
old base or limit or has a right that the old one lacks. Whether b is there, or the destination is empty, does not matter
to the checks of a register.
(It rests on the model's choices: log entry 21.) -/
def Obligations.Privilege : Prop :=
  ∀ (x : FmtS) (s : State) (a : Thread), s.thread? = some a → a.atLookup = false →
    (privFault2 x a.dom = true → exec (.sysr x) s = s.trapped 2 2 ∧ exec (.sysw x) s = s.trapped 2 2)
    ∧ (a.dom ≠ 0 → exec (.halt x) s = s.trapped 2 1)
    ∧ (a.dom ≠ 0 → (regInfo x.imm.toNat).sup = true ∨ crossOf x = true →
        exec (.sysr x) s = s.trapped 2 2 ∧ exec (.sysw x) s = s.trapped 2 2)
    ∧ (s.canRead [x.a] → privFault2 x a.dom = false → (regInfo x.imm.toNat).count ≤ (s.operand [x.a] 0).toNat →
        exec (.sysr x) s = s.trapped 2 3 ∧ exec (.sysw x) s = s.trapped 2 3)
    ∧ (s.canRead [x.a] → privFault2 x a.dom = false → privFault3 x s.me (s.operand [x.a] 0).toNat = false →
        (regInfo x.imm.toNat).wr = 0 ∨ (a.dom ≠ 0 ∧ (regInfo x.imm.toNat).wr = 1) → exec (.sysw x) s = s.trapped 2 4)
    ∧ (s.thread?.isSome = true → s.started.thread.srcReady [x.a] = false → privFault2 x a.dom = false →
        privFault3 x s.me 0 = false → (regInfo x.imm.toNat).wr = 0 ∨ (a.dom ≠ 0 ∧ (regInfo x.imm.toNat).wr = 1) →
        exec (.sysw x) s = s.trapped 2 4)
    ∧ (s.canRead [x.a] → a.dom = 0 → x.imm = 0x025 →
        let target := if x.op.getLsbD 8 then fld x.op 0 8 else 0
        let i := (s.operand [x.a] 0).toNat
        ((i < 3 ∧ (Tab.get 0 s.me.plock target).getLsbD 63 = true) ∨ (6 ≤ i ∧ i < 12)) →
        exec (.sysw x) s = s.trapped 2 4)
    ∧ (s.canRead [x.a, x.b] →
        let o := rd a.seg (fld x.op 0 3) {}
        let nb := fld (s.operand [x.a, x.b] 0) 0 52
        let nl := fld (s.operand [x.a, x.b] 1) 0 52
        let nr := (s.operand [x.a, x.b] 1).extractLsb' 52 6
        let segmentTrap (sub : Nat) : Prop :=
          exec (.segw x) s = .next (s.started.take 5 sub (a.pc.setWidth 64) (word nb) (word (fld x.op 0 3)) 0)
        (o.dom ≠ a.dom → segmentTrap 3)
        ∧ (o.dom = a.dom → 2 ^ 52 < nb + nl → segmentTrap 1)
        ∧ (o.dom = a.dom → nb + nl ≤ 2 ^ 52 → a.dom ≠ 0 →
          (nb < o.base.toNat ∨ o.base.toNat + o.limit.toNat < nb + nl → segmentTrap 1)
          ∧ (o.base.toNat ≤ nb → nb + nl ≤ o.base.toNat + o.limit.toNat →
            (∃ j : Nat, j < 6 ∧ nr.getLsbD j = true ∧ o.rights.getLsbD j = false) → segmentTrap 2)))

/-- R334 to R338: what taking a trap does: with a handler and none running, the trap registers hold the cause, the
address, the details and the resume point (prm, set, kind, inh), prm is the cause, and the handler's shot is next, two
turns later at the earliest; in a handler, or with none, the thread ends with the double trap's value.
(It rests on the model's choices: log entry 42.) -/
def Obligations.TrapEntry : Prop :=
  ∀ (s : State) (a : Thread) (cause sub kind : Nat) (taddr d0 d1 : Word), s.thread? = some a → cause < 32 → sub < 256 →
    kind < 3 →
    let set := ((s.ctx a.ctx).coreSet (fld a.hndl 32 6)).getD 0
    let obj := (s.ctx a.ctx).objSet a.cset
    ∃ b, (s.take cause sub taddr d0 d1 kind).thread? = some b
      ∧ (a.tret.getLsbD 56 = false → a.hasHandler = true →
          b.status = .running ∧ b.pc.toNat = fld a.hndl 0 32 ∧ b.atLookup = false ∧ b.cset = set
          ∧ b.prm = BitVec.ofNat 16 (cause + 256 * sub) ∧ b.tcause = word (cause + 256 * sub) ∧ b.taddr = taddr
          ∧ b.tdet0 = d0 ∧ b.tdet1 = d1 ∧ fld b.tret 0 32 = a.pc.toNat ∧ fld b.tret 32 16 = a.prm.toNat
          ∧ b.tret.getLsbD 56 = true ∧ (obj < 64 → fld b.tret 48 6 = obj ∧ fld b.tret 54 2 = kind)
          ∧ b.holdUntil = s.me.cycle + 16 ∧ b.g = a.g ∧ b.full = a.full ∧ b.f = a.f ∧ b.c = a.c ∧ b.v = a.v ∧ b.m = a.m)
      ∧ (a.tret.getLsbD 56 = true ∨ a.hasHandler = false →
          b.status = .exiting (0x8000000000000000 ||| word (cause + 256 * sub)) ∧ b.g = a.g)

/-- R334, R350, R352: TRAP and BKPT take their traps, whose resume kind is 1: the word after them. -/
def Obligations.SoftwareTraps : Prop :=
  ∀ (x : FmtS) (s : State) (a : Thread), s.thread? = some a → a.atLookup = false →
    (s.canRead [x.a] → exec (.trap x) s =
      .next (s.started.take 19 (fld x.imm 0 8) (a.pc.setWidth 64) (s.operand [x.a] 0) 0 1))
    ∧ exec (.bkpt x) s = .next (s.started.take 20 1 (a.pc.setWidth 64) (word (fld x.imm 0 8)) 0 1)

/-- R124, R125, R130 to R136, R339, R365 to R367: the cue actions complete: NEXT, CALL, ICALL and RET choose the next
shot, set and parameter after the counter operation, CALL and ICALL push and RET pops a frame in s7, ERET leaves the
handler, GATE queues its record at its domain's share and waits, GRET drains; a MISS-TRAP takes the cue-miss trap.
(It rests on the model's choices: log entries 33, 35, 37 and 43.) -/
def Obligations.CueActions : Prop :=
  ∀ (q : CueAct) (s : State) (a : Thread), s.thread? = some a → s.selFull = true → s.clear →
    let u := s.started
    let key := s.lookupKey
    let x := s.ctx a.ctx
    let frame (u : State) (off : Nat) (nd : Need) (l : Lane) (u' : State) : Prop :=
      ∃ ea, u.segAt 7 off 16 needRW ea ∧ (inWin ea = true → u.storeAt ea 16)
        ∧ u.me.rangeHit u.thread.dom u.thread.tid ea 16 (nd.getLsbD 1) = none ∧ u.lanesAt nd 16 [ea] = some ([l], u')
    let goes (v : State) (ns : BitVec 32) (nset : Nat) (np : BitVec 16) : Result :=
      .next (v.modThread fun t => (t.counterOp q.cnt key).goto ns nset np)
    let pushed (v : State) (l : Lane) (shot : BitVec 32) : State :=
      ((v.storeTo v.cur v.thread.dom 0 l (leBytes 16 (shot.toNat ||| q.rset.toNat <<< 32
        ||| a.prm.toNat <<< 48))).watched 2 [l]).modThread fun t => { t with csp := t.csp + 16 }
    exec (.next q) s = goes u q.wordA q.nset.toNat q.prm
    ∧ (∀ l v, frame u a.csp.toNat needW l v → exec (.call q) s = goes (pushed v l q.wordB) q.wordA q.nset.toNat q.prm)
    ∧ (∀ fe v l v', fld key 48 16 < x.ftCount → fetchAt (x.ftBase + fld key 48 16) needX u = .ok (some fe, v) →
      fld fe 32 32 = q.wordB.toNat →
      frame (v.counted ((rd a.seg 0 {}).base.toNat + 8 * (x.ftBase + fld key 48 16))) a.csp.toNat needW l v' →
      exec (.icall q) s = goes (pushed v' l q.wordA) (fe.extractLsb' 0 32) q.nset.toNat q.prm)
    ∧ (∀ l v, a.csp ≠ 0 → frame u (a.csp - 16).toNat needR l v → v.laneBad v.cur v.thread.dom 0 l = false →
      let p := v.load v.cur v.thread.dom 0 l
      let fr := ofLe p.1
      s.me.ownSet a.dom (fr / 2 ^ 32 % 256) = true →
      exec (.ret q) s = goes ((p.2.watched 1 [l]).modThread fun t => { t with csp := t.csp - 16 }) (BitVec.ofNat 32 fr)
        (fr / 2 ^ 32 % 256) (BitVec.ofNat 16 (fr / 2 ^ 48)))
    ∧ (∀ w0 w1 w2, s.gateEntry x q.wordB.toNat = some (w0, w1, w2) → s.me.present (fld w0 48 8) = true →
      s.me.shareFull (fld w0 48 8) = false → (∀ i ∈ passRegs (w1.extractLsb' 0 32), a.isFull i = true) →
      ∃ t r, exec (.gate q) s = .next t ∧ t.me.deque = s.me.deque ++ [r]
        ∧ t.thread? = some { a with status := .gateWait q.wordA q.cnt key }
        ∧ r.dom.toNat = fld w0 48 8 ∧ r.ctx = fld w2 0 32 ∧ r.nosteal = true
        ∧ r.kind = .gate (w0.extractLsb' 0 32) (fld w0 32 6) q.prm
            ((passRegs (w1.extractLsb' 0 32)).map fun i => (i, rd a.g i 0)) ⟨a.tid, w1.extractLsb' 0 32⟩)
    ∧ (∀ g, a.gate = some g → (∀ i ∈ passRegs g.pass, a.isFull i = true) →
      exec (.gret q) s = .next (u.modThread fun t => { t with status := .returning q.cnt key s.me.cycle }))
    ∧ (a.tret.getLsbD 56 = true → ∀ lastE, (lastE = match fetchAt (fld a.tret 0 32) 0 u with
          | .ok (some w, _) => w.getLsbD 63
          | _ => false) →
        let u' := if fld a.tret 54 2 = 1 then u.counted ((rd a.seg 0 {}).base.toNat + 8 * fld a.tret 0 32) else u
        exec (.eret q) s = .next (u'.modThread fun t => t.leave ((x.coreSet (fld t.tret 48 6)).getD 0) lastE))
    ∧ (a.tret.getLsbD 56 = false → exec (.eret q) s = .next (u.take 11 0 (a.pc.setWidth 64) key
        (word (a.cset ||| 256)) 2))
    ∧ exec (.missTrap q) s = .next (u.take 11 1 (a.pc.setWidth 64) key (word (a.cset ||| 512)) 2)

/-- R339: what leaving a handler restores: prm and set from TRET, inh clear, and the next word, the word after it or the
lookup, as the kind says; every register keeps its value. -/
def Obligations.TrapReturn : Prop :=
  ∀ (t : Thread) (set : Nat) (lastE : Bool),
    let b := t.leave set lastE
    let kind := fld t.tret 54 2
    b.tret.getLsbD 56 = false ∧ b.tret.getLsbD 57 = false ∧ b.prm.toNat = fld t.tret 32 16 ∧ b.cset = set
    ∧ (kind = 0 → b.pc.toNat = fld t.tret 0 32 ∧ b.atLookup = false ∧ b.skipBp = t.tret.getLsbD 57)
    ∧ (kind = 1 → lastE = false → b.pc = BitVec.ofNat 32 (fld t.tret 0 32) + 1 ∧ b.atLookup = false)
    ∧ (kind = 1 → lastE = true → b.pc.toNat = fld t.tret 0 32 ∧ b.atLookup = true)
    ∧ (kind = 2 → b.pc.toNat = fld t.tret 0 32 ∧ b.atLookup = true)
    ∧ b.g = t.g ∧ b.full = t.full ∧ b.f = t.f ∧ b.c = t.c ∧ b.v = t.v ∧ b.m = t.m ∧ b.csp = t.csp ∧ b.seg = t.seg

/-! ### The events of the opcode table -/

/-- R69, R72, R74, R77 to R82, R86, R89 to R92, R96, R107, R261, R336, R341 to R345: the events of the scheduler have
their effect where they are due.
(It rests on the model's choices: log entries 3, 18 and 38.) -/
def Obligations.ThreadEvents : Prop :=
  ∀ (s : State) (c i : Nat) (a : Thread), (s.core c).threadAt i = some a →
    let k := s.core c
    (∀ j p, a.pend[j]? = some p → p.due ≤ k.cycle → exec (.vectorResultLand c i j) s =
      .next (s.modCore c fun k => k.modThread i fun t => { t.land p with pend := t.pend.eraseIdx j }))
    ∧ (∀ mask dl d, a.status = .parked mask (some dl) d → dl < k.cycle → a.readyPorts mask = 0 →
      exec (.parkTimeout c i) s = .next (s.modCore c fun k => k.modThread i fun t =>
        { t with status := .running }.setG d 256))
    ∧ (∀ v, a.status = .exiting v → s.drained c a.tid = true → ∃ t, exec (.drainEnd c i) s = .next t
      ∧ (t.core c).threadAt i = none ∧ ((t.core c).slot i).freeSince = some k.cycle
      ∧ (t.core c).ranges = k.ranges.filter (fun e => e.2.owner != .thread a.tid)
      ∧ ∀ l ∈ s.launches, a.launch = some l.id →
          { l with left := l.left - 1, err := l.err || v != 0 } ∈ t.launches)
    ∧ (∀ va w, a.status = .faulted va w → a.pend = [] → s.toObject c a.tid none = false → k.l1Stop = false →
      let now := s.pageNow a.dom.toNat (va / 65536)
      ∃ t, exec (.pageFaultSave c i) s = .next t
        ∧ (∀ pa, k.freeFrame a.dom.toNat = some pa → (t.core c).threadAt i = none
          ∧ (now = none → ∃ f, (t.core c).saved = k.saved ++ [f] ∧ f.frame = pa ∧ f.thread.tid = a.tid
              ∧ f.page = some (va / 65536, w))
          ∧ (∀ refused write, now = some (refused, write) → write = true ∨ w = false → k.saving a.dom = false →
              ∃ r, r.kind = .resume pa a.tid ∧ (r ∈ (t.core c).deque ∨ r ∈ (t.core c).pendHead)))
        ∧ (k.freeFrame a.dom.toNat = none →
          (now = none → (t.core c).threadAt i = some { a with status := .stalled va w })
          ∧ ∀ refused write, now = some (refused, write) → write = true ∨ w = false → (t.core c).threadAt i =
              some { a with status := .running, refused := if refused then some (va / 65536) else a.refused }))
    ∧ (∀ q pa, a.preq = some q → a.pend = [] → s.toObject c a.tid none = false → k.freeFrame a.dom.toNat = some pa →
      k.saving a.dom = false → k.l1Stop = false →
      let saved (i' : Instr) : Prop := ∃ t, exec i' s = .next t ∧ (t.core c).threadAt i = none
        ∧ (k.shareFull a.dom.toNat = false → (t.core c).deque = resumeRec a pa k.cycle :: k.deque)
        ∧ (k.shareFull a.dom.toNat = true → (t.core c).pendHead = resumeRec a pa k.cycle :: k.pendHead)
      (∀ lv, q ≤ k.cycle → s.boundary a = some lv → saved (.preemptSave c i))
      ∧ (k.cycle = q + 65536 → k.turnSlot ≠ i → (a.status = .waiting ∨ ∃ m dl d, a.status = .parked m dl d) →
          saved (.preemptDeadline c i))
      ∧ (q + 65536 ≤ k.cycle → a.status = .running → a.atLookup = true → s.quietPoint c i a = true →
          saved (.preemptDeadline c i)))
    ∧ (∀ d l r, k.freeSlot d = none → s.launches = [l] → l.cls = 1 → l.dom.toNat = d → r ∈ k.deque →
      r.launch = some l.id → r.since + k.quantum d ≤ k.cycle → a.launch = some l.id → a.resident = false →
      (∀ j b, j < 8 → (k.threadAt j) = some b → b.launch = some l.id → b.resident = false → j ≠ i → a.since < b.since) →
      exec (.quantumExpiry c d) s = .next (s.modCore c fun k => k.modThread i fun t =>
        { t with preq := t.preq.or (some k.cycle) }))
    ∧ (∀ (m : Sending) rest, (k.slot i).sendq = m :: rest →
      let port := fld m.dst 0 2
      let tc := fld m.dst 5 10
      let ti := fld m.dst 2 3
      let discarded (code : Nat) : Prop := ∃ t, exec (.sendDelivery c i) s = .next t ∧ ((t.core c).slot i).sendq = rest
        ∧ (s.onSlot c m.tid m.d → t.got c m.tid m.d (word code))
        ∧ (c ∉ s.tampered → ∀ c' j b, (s.core c').threadAt j = some b → ∃ b', (t.core c').threadAt j = some b' ∧ b'.q = b.q)
      (fld m.dst 15 49 ≠ 0 → discarded 2)
      ∧ (fld m.dst 15 49 = 0 → c ∉ s.tampered ∨ dieOf tc = dieOf c →
        ((∀ b, (s.core tc).threadAt ti = some b → b.dom ≠ m.dom) → discarded 1)
        ∧ ∀ b, (s.core tc).threadAt ti = some b → b.dom = m.dom →
          (4 ≤ (rd b.q port []).length → exec (.sendDelivery c i) s = .next s)
          ∧ ((rd b.q port []).length < 4 → ∃ t b', exec (.sendDelivery c i) s = .next t
            ∧ (t.core tc).threadAt ti = some b' ∧ rd b'.q port [] = rd b.q port [] ++ [m.msg]
            ∧ (∀ p, p < 4 → p ≠ port → rd b'.q p [] = rd b.q p []) ∧ ((t.core c).slot i).sendq = rest
            ∧ (s.onSlot c m.tid m.d → t.got c m.tid m.d 0))))
    ∧ ∀ page va w, a.status = .stalled va w → va / 65536 = page →
      (∀ e, (s.search a.dom.toNat (page * 65536) (s.searchOrder a.dom.toNat (page * 65536))).1 = some e → e.mig = false →
        ∃ t, exec (.pageArrival a.dom.toNat page) s = .next t ∧ (a.dom.toNat, page) ∉ t.reports
          ∧ (c ∈ s.cores.map (·.1) → (t.core c).threadAt i = some { a with status := .running }))
      ∧ ((a.dom.toNat, page) ∈ s.reports →
        ∃ t, exec (.pageRefusal a.dom.toNat page) s = .next t ∧ (a.dom.toNat, page) ∈ t.refused
          ∧ (a.dom.toNat, page) ∉ t.reports
          ∧ (c ∈ s.cores.map (·.1) → (t.core c).threadAt i = some { a with status := .running, refused := some page }))

/-- R69, R72 to R79, R86 to R88, R96, R335, R344, R370: the events that start, move and end work have their effect where
they are due: a deferred event is taken, a free slot takes the next record, a pending record moves into the share, a thief
asks and receives, a spawn's and a load's value fills, a launch completes, a domain is sealed.
(It rests on the model's choices: log entries 3, 18, 24, 38, 40 and 42.) -/
def Obligations.WorkEvents : Prop :=
  ∀ (s : State) (c : Nat),
    let k := s.core c
    (∀ e, s.dueEvent = some e → exec .deferredEventTaken s = .next (((s.modThread fun t =>
      t.setEvents (t.events.erase e)).take (fld e.2.1 0 8) (fld e.2.1 8 8) e.2.2.1 e.2.2.2.1 e.2.2.2.2
        (if s.thread.atLookup || e.1 == 6 then 2 else 0)).modThread (·.keepReply s.thread.status)))
    ∧ (∀ i d r s1 entry cset ident args, k.slotDom i = some d → k.freeSlot d = some i → k.frozen d = false →
      s.nextWork c d = some (r, s1) → r.kind = .task entry cset ident args →
      ∃ t b, exec (.takeWork c i) s = .next t ∧ (t.core c).threadAt i = some b ∧ b.pc = entry ∧ b.cset = cset
        ∧ b.ident = ident ∧ b.dom = r.dom ∧ b.seg = (s.ctx r.ctx).seg ∧ b.launch = r.launch ∧ b.csp = 0 ∧ b.prm = 0
        ∧ b.full = BitVec.allOnes 32 ∧ b.f = 0 ∧ (∀ j, j < 16 → rd b.v j 0 = 0)
        ∧ ∀ j, j < 32 → rd b.g j 0 = if 1 ≤ j ∧ j ≤ 6 then args.getD (j - 1) 0 else 0)
    ∧ (∀ d, k.shareFull d = false → (∀ l ∈ s.launches, l.cls ≠ 2) →
      (∀ r, k.pendHead.find? (·.dom.toNat == d) = some r → ∃ t, exec (.pendingMove c d) s = .next t
        ∧ (t.core c).deque = k.deque ++ [r] ∧ (t.core c).pendHead = k.pendHead.erase r ∧ t.launches = s.launches)
      ∧ (∀ l r, (∀ r' ∈ k.pendHead, r'.dom.toNat ≠ d) → s.pendingLaunch c d = some (l, r) → exec (.pendingMove c d) s =
        .next ((s.modLaunch l.id (·.take c)).modCore c fun k => k.pushBottom { r with since := k.cycle })))
    ∧ (∀ victim d, s.maySteal c d = true → k.stealOf d = none → (s.stealLeft d (stealOrder c)).head? = some victim →
      d < 256 →
      let v := s.core victim
      let top := v.deque.find? fun r => r.dom.toNat == d && s.movable c r
      ∃ t st, exec (.stealRequest c victim d) s = .next t ∧ (t.core c).stealOf d = some st ∧ st.asked = some victim
        ∧ st.answer = some top ∧ (victim ≠ c → ∀ r, top = some r → (t.core victim).deque = v.deque.erase r))
    ∧ (∀ st, k.steals.find? (·.answer.isSome) = some st →
      let d := st.dom.toNat
      (st.answer = some none → ∃ t, exec (.stealAnswer c) s = .next t
        ∧ (s.maySteal c d = true → ∃ st', (t.core c).stealOf d = some st' ∧ st'.asked = none ∧ st'.answer = none)
        ∧ (s.maySteal c d = false → (t.core c).stealOf d = none))
      ∧ (∀ r, st.answer = some (some r) →
        let u := s.setCore c (k.setSteal { dom := st.dom, left := [] })
        (∀ i, k.freeSlot d = some i → k.frozen d = false → exec (.stealAnswer c) s = .next (u.startRec c i r false))
        ∧ (k.freeSlot d = none ∨ k.frozen d = true → exec (.stealAnswer c) s = .next (s.pended (u.modCore c (·.pushResume r)) d))))
    ∧ (∀ j r, k.spawns[j]? = some r → (r.resident = true → k.frozen r.t.dom.toNat = false) → s.onSlot c r.t.tid r.t.d →
      ∃ t, exec (.spawnStatusFill c j) s = .next t
        ∧ (r.valid = false → t.got c r.t.tid r.t.d 3 ∧ (t.core c).deque = k.deque)
        ∧ (r.valid = true → r.resident = true → k.freeSlot r.t.dom.toNat = none → t.got c r.t.tid r.t.d 2)
        ∧ (∀ i entry cset ident args, r.valid = true → r.resident = true → k.freeSlot r.t.dom.toNat = some i →
            r.task.kind = .task entry cset ident args → r.t.tid ≠ s.nextId →
            t.got c r.t.tid r.t.d 0 ∧ ∃ b, (t.core c).threadAt i = some b ∧ b.resident = true ∧ b.launch = none
              ∧ b.dom = r.task.dom ∧ b.pc = entry ∧ b.cset = cset ∧ b.ident = ident ∧ b.seg = (s.ctx r.task.ctx).seg
              ∧ ∀ j, j < 32 → rd b.g j 0 = if 1 ≤ j ∧ j ≤ 6 then args.getD (j - 1) 0 else 0)
        ∧ (r.valid = true → r.resident = false → k.shareFull r.t.dom.toNat = true →
            t.got c r.t.tid r.t.d 1 ∧ (t.core c).deque = k.deque)
        ∧ (r.valid = true → r.resident = false → k.shareFull r.t.dom.toNat = false →
            t.got c r.t.tid r.t.d 0 ∧ (t.core c).deque = k.deque ++ [{ r.task with since := k.cycle }]))
    ∧ (∀ j f, k.fills[j]? = some f → f.queue ≠ none → (∃ x ∈ k.fills.take j, x.queue = f.queue ∧ x.tid = f.tid) →
      exec (.loadDataFill c j) s = .next s)
    ∧ (∀ j f, k.fills[j]? = some f → f.due ≤ k.cycle →
      (f.queue = none ∨ ∀ x ∈ k.fills.take j, x.queue ≠ f.queue ∨ x.tid ≠ f.tid) → s.onSlot c f.tid f.d →
      ∃ t, exec (.loadDataFill c j) s = .next t ∧ t.got c f.tid f.d f.value ∧ (t.core c).fills = k.fills.eraseIdx j
        ∧ ∀ pc ea, f.error = some (pc, ea) → ∃ i b, (t.core c).slotOf f.tid = some i ∧ (t.core c).threadAt i = some b
          ∧ (0, word 10, pc.setWidth 64, ea, 0) ∈ b.events ∧ b.tpend.getLsbD 0 = true)
    ∧ (∀ l tg skipped, s.launch? l.id = some l → l.left = 0 → l.req = .thread c tg skipped → s.onSlot c tg.tid tg.d →
      ∃ t, exec (.launchCompletion l.id) s = .next t ∧ t.launches = s.launches.filter (·.id != l.id)
        ∧ t.got c tg.tid tg.d (word ((if l.err then 256 else 0) ||| skipped <<< 16 ||| l.live <<< 32)))
    ∧ ∀ d, d ∈ k.preqDom → k.quiet d = true → (∀ b ∈ s.bars, b.core ≠ c ∨ b.t.dom.toNat ≠ d) →
      s.backed (sealArea (Tab.get 0 k.sealReg d)) (s.sealImage c d).length = true →
      ∃ t, exec (.domainSave c d) s = .next t ∧ (Tab.get 0 (t.core c).sealReg d).getLsbD 1 = true
        ∧ Tab.get 0 (t.core c).sealCtr d = Tab.get 0 k.sealCtr d + 1 ∧ d ∉ (t.core c).preqDom

/-- R24, R204, R206, R212, R215, R216, R219, R224, R231 to R233, R236, R240, R244 to R247, R249, R256 to R261, R278: the events
of the engines, the barriers, the L1 and the translation have their effect where they are due: a row's bytes at the
destination are those of the source or their conversion, and no other byte changes; a copy ends with its tags, slots and
statuses; a drain, a load, an MMA and an MZERO leave what their rules say; a barrier's object and reply are those of its
rule; and a translation gives what the page table's first entry that fits gives, in the order of the search.
(It rests on the model's choices: log entries 7, 10, 22, 25, 35, 39 and 43.) -/
def Obligations.EngineEvents : Prop :=
  ∀ (s : State) (c : Nat),
    let k := s.core c
    (∀ i cp, k.copies[i]? = some cp →
      (k.copyReady i = true → ∃ t, exec (.copyStart c i) s = .next t
        ∧ (t.core c).copies = k.copies.set i { cp with started := true, lost := k.copyLost cp }
        ∧ ∀ r, (t.core c).ringAt r = if cp.toRing = some r ∧ k.copyLost cp = false
            then { k.ringAt r with held := (k.ringAt r).held + cp.slots } else k.ringAt r)
      ∧ (k.copyLost cp = true ↔ cp.lost = true ∨ ∃ r, cp.toRing = some r ∧ k.hasRing cp.t.dom.toNat r = false)
      ∧ (cp.started = true → cp.filled = false → cp.cause = 0 → cp.done < cp.rows → k.copyFree = true →
        let d := cp.t.dom.toNat
        let b := cp.blk
        let es := cp.row cp.done
        (∀ P Q : Nat → Nat → Nat × Nat, c ∉ s.tampered → cp.lost = false →
          (cp.fill = false → ∀ e ∈ es, s.spots c d (cp.srcAt e) b.ses 1 (Q e) ∧ cp.overlaps c k e = false
            ∧ ∀ e' ∈ es, ∀ j j', j < b.ses → j' < b.des → Q e j ≠ P e' j') →
          (∀ e ∈ es, ∀ j, j < b.des → s.spot c d (cp.dstByte c k e j) 2 = some (P e j)
            ∧ inWin (cp.dstByte c k e j) = inWin (cp.dstByte c k e 0)
            ∧ (cp.toRing.isSome = true → inWin (cp.dstByte c k e j) = true ∧ (P e j).1 = c + 1)
            ∧ ∀ e' ∈ es, ∀ j', j' < b.des → P e j = P e' j' → e = e' ∧ j = j') →
          let value (e : Nat) : List Byte :=
            let bs := (List.range b.ses).map fun j => s.spotByte d (Q e j)
            if cp.fill then leBytes b.des b.src.toNat
            else if b.conv then leBytes b.des ((FV.ofBits (fmtOf b.stype) (ofLe bs)).round (fmtOf b.dtype) 0 0) else bs
          ∃ t, exec (.copyRowRetire c i) s = .next t
            ∧ (t.core c).copies = k.copies.set i { cp with done := cp.done + 1 }
            ∧ (t.core c).copied = Nat.max k.copied (256 * k.cycle)
                + b.rowLen cp.fill * (if cp.fill = false ∧ b.des < b.ses then b.ses else b.des)
            ∧ (∀ e ∈ es, ∀ j, j < b.des → t.spotByte d (P e j) = (value e).getD j 0)
            ∧ ∀ p, (∀ e ∈ es, ∀ j, j < b.des → P e j ≠ p) → t.spotByte d p = s.spotByte d p)
        ∧ (∀ pg s1, s.copyElems c cp (fun _ => false) es = .wait pg s1 →
          exec (.copyRowRetire c i) s = .next (s1.report c d pg))
        ∧ (∀ x s1, s.copyElems c cp (fun _ => false) es = .fail x s1 →
          ∃ t, exec (.copyRowRetire c i) s = .next t ∧ ∀ cp', (t.core c).copies[i]? = some cp' → cp' = { cp with cause := x }))
      ∧ (cp.ended = true → k.copyCaughtUp = true → s.onSlot c cp.t.tid cp.t.d → cp.done < 2 ^ 24 → cp.cause < 256 →
        let status := word (if cp.cause = 0 then 0xFFFFFF * 2 ^ 40 + cp.done * 2 ^ 16
          else cp.done * 2 ^ 40 + cp.done * 2 ^ 16 + cp.cause * 2 ^ 8 + 1)
        ∃ t, exec (.copyComplete c i) s = .next t
          ∧ (t.core c).copies = (if cp.cause = 0 ∧ cp.follow.isSome = true then k.copies.set i { cp with filled := true }
              else k.copies.eraseIdx i)
          ∧ (t.core c).ranges = k.ranges.filter (fun e => e.2.owner != .command cp.t.id)
          ∧ (cp.follow = none ∨ cp.cause = 0 → t.got c cp.t.tid cp.t.d status)
          ∧ (∀ w, cp.follow = some w → cp.cause ≠ 0 →
              (0 < fld w 42 6 → fld w 42 6 < 32 → t.got c cp.t.tid (fld w 42 6) 2)
              ∧ (fld w 42 6 ≠ cp.t.d → t.got c cp.t.tid cp.t.d status))
          ∧ (cp.lost = true → ∀ r, (t.core c).ringAt r = k.ringAt r)
          ∧ ∀ r, cp.toRing = some r → cp.lost = false →
            let g := k.ringAt r
            let g' := (t.core c).ringAt r
            g.ended = [] → 0 < cp.slots → cp.slots ≤ g.tiles →
            (∀ j, j < cp.slots → Tab.get 0 g'.tags ((cp.slot0 + j) % g.tiles) = if cp.cause = 0 then cp.blk.layout else 0)
            ∧ (cp.slot0 % g.tiles = (g.head + g.ready) % g.tiles →
                g'.ready = g.ready + cp.slots ∧ g'.held = g.held - cp.slots ∧ g'.ended = [])
            ∧ (cp.slot0 % g.tiles ≠ (g.head + g.ready) % g.tiles →
                g'.ready = g.ready ∧ g'.held = g.held ∧ g'.ended = [(cp.slot0 % g.tiles, cp.slots)]))
      ∧ (∀ r e j, cp.toRing = some r →
        let g := k.ringAt r
        let tb := tileBytes g.layout
        let l := (cp.dstOff e + j) % tb
        let span := 16 * 2 ^ fld g.layout 4 3
        cp.dstByte c k e j = winAddr c (g.base + (cp.slot0 + (cp.dstOff e + j) / tb) % g.tiles * tb
          + (l - l % span + ((l % span / 16) ^^^ (l / span % (span / 16))) * 16 + l % 16)))
      ∧ (∀ w, cp.filled = true → cp.follow = some w → k.alive cp.t.tid = true →
        let mw := mmaOf (FmtT.ofWord w)
        k.mmaCheck cp.t.dom.toNat mw = none → k.mmaReady cp.t.dom.toNat mw = true → k.tagsOk mw = true →
        s.toObject c cp.t.tid none = false → ∃ t m, exec (.followOnIssue c i) s = .next t ∧ (t.core c).copies = k.copies.eraseIdx i
          ∧ (t.core c).mats = k.mats ++ [m] ∧ m.acc = mw.acc ∧ m.t.d = mw.d ∧ m.t.tid = cp.t.tid))
    ∧ (∀ i m, k.mats[i]? = some m → k.matReady i = true → ∃ t, exec (.matrixCommandStart c i) s = .next t
        ∧ (t.core c).mats = k.mats.set i { m with started := true, work := k.matTime m })
    ∧ (∀ i m ea otype mode seed am clr (P : Nat → Nat × Nat), k.mats[i]? = some m → m.started = true → m.fin = false →
      m.op = .drain ea otype mode seed am clr → otype < 3 → m.done < 64 → k.accLost m = false → c ∉ s.tampered →
      (∀ l ∈ k.lines, l.written = 0) →
      let d := m.t.dom.toNat
      let es := if otype = 0 then 4 else 2
      let n := 64 * es
      let bits (j : Nat) : Nat :=
        let v := k.accAt m.acc m.done j
        if otype = 0 then v.toNat
        else (f32 v).round (fmtOf otype) mode ((if mode = 2 then (drawList 4096 seed).1 else []).getD (64 * m.done + j) 0)
      s.spots c d (ea + m.done * n) n 2 P → Distinct n P →
      ∃ t m', exec (.matrixCommandStart c i) s = .next t ∧ (t.core c).mats = k.mats.set i m'
        ∧ m'.done = m.done + 1 ∧ m'.fin = false ∧ m'.op = m.op ∧ m'.t = m.t ∧ m'.acc = m.acc
        ∧ (∀ a e j, (t.core c).accAt a e j = k.accAt a e j)
        ∧ Moved s t d n P (fun j => (leBytes es (bits (j / es))).getD (j % es) 0))
    ∧ (∀ m rest, k.mats = m :: rest → m.started = true → m.work = 0 → m.ready ≤ k.cycle → s.onSlot c m.t.tid m.t.d →
      (∀ ea otype mode seed am clr (P A : Nat → Nat × Nat), m.op = .drain ea otype mode seed am clr → otype < 3 →
        m.done ≤ 64 → m.fin = false → m.cause = 0 → m.code = 0 → k.accLost m = false → c ∉ s.tampered →
        (∀ l ∈ k.lines, l.written = 0) →
        let d := m.t.dom.toNat
        let es := if otype = 0 then 4 else 2
        let lo := 64 * m.done
        let n := (4096 - lo) * es
        let draws := if mode = 2 then (drawList 4096 seed).1 else []
        let bits (e : Nat) : Nat :=
          let v := k.accAt m.acc (e / 64) (e % 64)
          if otype = 0 then v.toNat else (f32 v).round (fmtOf otype) mode (draws.getD e 0)
        let seen (e : Nat) : BitVec 32 :=
          if otype = 0 then BitVec.ofNat 32 (bits e) else toF32 0 0 (.ofBits (fmtOf otype) (bits e))
        let most := (((List.range 4096).drop lo).map fun e => seen e &&& 0x7FFFFFFF).foldl fmax m.mx
        s.spots c d (ea + lo * es) n 2 P → Distinct n P →
        (∀ a, am = some a → s.spots c d a 4 1 A ∧ s.spots c d a 4 2 A ∧ Distinct 4 A
          ∧ ∀ i j, i < 4 → j < n → A i ≠ P j) →
        ∃ t, exec (.matrixCommandRetire c) s = .next t ∧ (t.core c).mats = rest
          ∧ t.got c m.t.tid m.t.d (word (0xFFFFFF * 2 ^ 40 + 64 * 2 ^ 16))
          ∧ (∀ j, j < n → t.spotByte d (P j) = (leBytes es (bits (lo + j / es))).getD (j % es) 0)
          ∧ (am.isSome = true → ∀ j, j < 4 → t.spotByte d (A j) = (leBytes 4
              (fmax (BitVec.ofNat 32 (ofLe ((List.range 4).map fun i => s.spotByte d (A i)))) most).toNat).getD j 0)
          ∧ (∀ p, (∀ j, j < n → P j ≠ p) → (am.isSome = true → ∀ j, j < 4 → A j ≠ p) → t.spotByte d p = s.spotByte d p)
          ∧ ∀ a i j, i < 64 → j < 64 → (t.core c).accAt a i j = if a = m.acc ∧ clr = true then 0 else k.accAt a i j)
      ∧ (∀ ea (Q : Nat → Nat × Nat), m.op = .load ea → m.cause = 0 → m.code = 0 → k.accLost m = false → c ∉ s.tampered →
        m.fin = false → m.vals.length ≤ 4096 → m.done = m.vals.length / 64 →
        let L := m.vals.length
        s.spots c m.t.dom.toNat (ea + 4 * L) (4 * (4096 - L)) 1 Q →
        ∃ t, exec (.matrixCommandRetire c) s = .next t ∧ (t.core c).mats = rest
          ∧ t.got c m.t.tid m.t.d (word (0xFFFFFF * 2 ^ 40 + 64 * 2 ^ 16))
          ∧ ∀ a i j, i < 64 → j < 64 → (t.core c).accAt a i j =
            if a = m.acc then
              let v := if 64 * i + j < L then m.vals.getD (64 * i + j) 0
                else BitVec.ofNat 32 (ofLe ((List.range 4).map fun b => s.spotByte m.t.dom.toNat (Q (4 * (64 * i + j - L) + b))))
              if (f32 v).isNan then 0x7FC00000 else v
            else k.accAt a i j)
      ∧
      (m.op = .zero → ∃ t, exec (.matrixCommandRetire c) s = .next t ∧ (t.core c).mats = rest ∧ t.got c m.t.tid m.t.d 0
        ∧ ∀ a i j, i < 64 → j < 64 → (t.core c).accAt a i j =
            if a = m.acc ∧ k.accLost m = false then 0 else k.accAt a i j)
      ∧ ∀ zero ra rb n a0 b0 sa sb, m.op = .mma zero ra rb n a0 b0 sa sb → n < 65536 →
        let n := if m.lost then 0 else n
        ∃ t, exec (.matrixCommandRetire c) s = .next t ∧ (t.core c).mats = rest ∧ t.got c m.t.tid m.t.d (word (n * 2 ^ 16))
        ∧ (m.lost = true → ∀ r, (t.core c).ringAt r = k.ringAt r)
        ∧ (let byte (g : Ring) (slot o : Nat) : Byte :=
             let span := 16 * 2 ^ fld g.layout 4 3
             let off := g.base + slot % g.tiles * tileBytes g.layout
               + (o - o % span + ((o % span / 16) ^^^ (o / span % (span / 16))) * 16 + o % 16)
             if k.ownsBank m.t.dom.toNat (off / 32768) then Tab.get 0 k.store off else 0
           let bytes := fld (k.ringAt ra).layout 8 16
           let per := bytes / blockBytes (fld (k.ringAt ra).layout 0 4)
           let elem (g : Ring) (slot r q e : Nat) : FV :=
             let fmt := fld g.layout 0 4
             let b := ofLe ((List.range (blockBytes fmt)).map fun j =>
               byte g (slot + q / per) (r * fld g.layout 8 16 + q % per * blockBytes fmt + j))
             if fmt = 1 then .ofBits fmtBf16 (b / 2 ^ (16 * e) % 65536) else sgElem fmt b e
           let prod (i j q e : Nat) : FV := (elem (k.ringAt ra) a0 i q e).mul (elem (k.ringAt rb) b0 j q e)
           let block (i j q : Nat) : FV := (List.range 15).foldl (fun p e => p.add (prod i j q (e + 1))) (prod i j q 0)
           ∃ acc : Nat → Nat → Nat → BitVec 32, (∀ i j, acc i j 0 = if zero then 0 else k.accAt m.acc i j)
             ∧ (∀ i j q, q < n * per → acc i j (q + 1) =
                 toF32 0 0 ((f32 (acc i j q)).add (((f32 sa).mul (f32 sb)).mul (block i j q))))
             ∧ ∀ a i j, i < 64 → j < 64 → (t.core c).accAt a i j =
                 if a = m.acc ∧ k.accLost m = false then acc i j (n * per) else k.accAt a i j))
    ∧ (∀ i r, s.bars[i]? = some r →
      (r.reply = none → (s.core r.target).ownsBank r.t.dom.toNat (r.off / 32768) = false →
        ∃ v, exec (.barrierArrivalApply i) s =
          .next { s with free := s.free + 4, bars := s.bars.set i { r with reply := some v } })
      ∧ (r.reply = none → (s.core r.target).ownsBank r.t.dom.toNat (r.off / 32768) = true →
        let o := word (ofLe (s.rdStore r.target r.off 8))
        (r.init = true → exec (.barrierArrivalApply i) s = .next { (s.wrStore r.target r.off
          (leBytes 8 (barrierInit r.value).toNat ++ List.replicate 8 0)) with
            bars := s.bars.set i { r with reply := some o } })
        ∧ (r.init = false → exec (.barrierArrivalApply i) s = .next { ((s.wrStore r.target r.off
          (leBytes 8 (arrive o r.n).1.toNat)).modCore r.core fun k => k.count 38 none r.t.dom.toNat 1) with
            bars := s.bars.set i { r with reply := some (arrive o r.n).2 } }))
      ∧ ∀ v, r.reply = some v → r.core = c → c ∉ s.tampered → s.onSlot c r.t.tid r.t.d →
        (r.init = false → ∃ t, exec (.bararvReply c i) s = .next t ∧ t.got c r.t.tid r.t.d v ∧ t.bars = s.bars.eraseIdx i)
        ∧ (r.init = true → ∃ t, exec (.barinitReply c i) s = .next t ∧ t.got c r.t.tid r.t.d v
          ∧ t.bars = s.bars.eraseIdx i))
    ∧ (∀ (o : Word) n, let new := fld o 0 16 + n * fld o 40 8
      let o' := (arrive o n).1
      let reply := (arrive o n).2
      (fld o 16 16 < new → reply = word (fld o 32 4 + 512) ∧ o'.getLsbD 36 = true
        ∧ ∀ j, j ≠ 36 → o'.getLsbD j = o.getLsbD j)
      ∧ (new = fld o 16 16 → reply = word (fld o 32 4 + 256) ∧ fld o' 0 16 = 0 ∧ fld o' 32 4 = (fld o 32 4 + 1) % 16
        ∧ ∀ j, 16 ≤ j → j < 32 ∨ 36 ≤ j → o'.getLsbD j = o.getLsbD j)
      ∧ (new < fld o 16 16 → reply = word (fld o 32 4 + 65536 * new) ∧ fld o' 0 16 = new
        ∧ ∀ j, 16 ≤ j → o'.getLsbD j = o.getLsbD j))
    ∧ (∀ v : Word, let o := barrierInit v
      fld o 0 16 = 0 ∧ fld o 16 16 = fld v 0 16 ∧ fld o 32 4 = fld v 24 4 ∧ fld o 36 4 = 0 ∧ fld o 40 8 = fld v 16 8
        ∧ fld o 48 16 = 0)
    ∧ (∀ i w, k.barwts[i]? = some w → s.onSlot c w.t.tid w.t.d →
      let o := word (ofLe (s.rdStore w.target w.off 8))
      (s.barwtDone w = true → ∃ t, exec (.barwtWake c i) s = .next t ∧ (t.core c).barwts = k.barwts.eraseIdx i
        ∧ (s.objectThere w = true → t.got c w.t.tid w.t.d (word (fld o 32 4 + 512 * fld o 36 1))))
      ∧ (s.barwtDone w = false → w.deadline ≤ k.cycle → ∃ t, exec (.barwtBoundExpiry c i) s = .next t
        ∧ (t.core c).barwts = k.barwts.eraseIdx i
        ∧ (s.objectThere w = true → t.got c w.t.tid w.t.d (word (fld o 32 4 + 256)))))
    ∧ (∀ i l, k.lines[i]? = some l →
      (l.written ≠ 0 → c ∉ s.tampered → ∃ t, exec (.l1WriteBack c i) s = .next t
        ∧ ∀ j, j < 32 → l.written.getLsbD j = true → t.rdPa l.dom.toNat (l.pa + j) = l.byte j)
      ∧ (l.written = 0 → exec (.l1LineDrop c i) s = .next (s.modCore c fun k =>
          { k with lines := k.lines.filter fun x => x.dom != l.dom || x.va != l.va })))
    ∧ (∀ cl d page write, 6 ≤ fld s.ptcfg 0 5 → (∀ c ∈ s.tampered, clusterOf c ≠ cl) →
      ∃ t, exec (.translationMiss cl d page write) s = .next t
      ∧ t = (s.lookupPage cl d (page * 65536) (if write then 2 else 0)).2)
    ∧ (∀ cl d va (nd : BitVec 4),
      let m := fld s.ptcfg 0 5
      let t := s.translate cl d va nd
      (m < 6 → t.1 = if d ≠ 0 then .refused else if s.backed va 1 then .ok va else .rights)
      ∧ ((∀ pa, t.1 ≠ .ok pa) → t.2.tlb = s.tlb)
      ∧ (6 ≤ m → (∀ x ∈ Tab.get [] s.tlb cl, x.covers d va = false) →
        let order : List (Nat × Bool) := [true, false].flatMap fun big =>
          let x := (if big then 1 else 0) <<< 44 ||| d <<< 36 ||| (if big then va / 2 ^ 21 else va / 2 ^ 16)
          (List.range (fld s.ptcfg 8 4)).flatMap fun j => (List.range 8).map fun i =>
            (s.ptbase.toNat + (((x ^^^ x >>> 15 ^^^ x >>> 30) % 2 ^ m + j) % 2 ^ m) * 256 + 32 * i, big)
        let w (p : Nat × Bool) (i : Nat) : Word := s.rdWord (p.1 + 8 * i)
        let sound (p : Nat × Bool) : Prop := fld (w p 0) 60 2 = 0 ∧ fld (w p 0) 0 16 = 0 ∧ fld (w p 1) 46 18 = 0
          ∧ fld (w p 1) 6 10 = 0 ∧ fld (w p 1) 4 1 = 0
          ∧ ((w p 0).getLsbD 62 = true → fld (w p 0) 16 5 = 0 ∧ fld (w p 1) 16 5 = 0)
        let broken (p : Nat × Bool) : Prop := (w p 0).getLsbD 63 = true ∧ ¬ sound p
        let fits (p : Nat × Bool) : Prop := (w p 0).getLsbD 63 = true ∧ sound p ∧ fld (w p 0) 52 8 = d
          ∧ (w p 0).getLsbD 62 = p.2 ∧ if p.2 then fld (w p 0) 21 31 = va / 2 ^ 21 else fld (w p 0) 16 36 = va / 2 ^ 16
        ((∀ p ∈ order, ¬ fits p) → t.1 = .missing)
        ∧ (∀ before p after, order = before ++ p :: after → (∀ q ∈ before, ¬ fits q) → broken p →
            (∀ q ∈ after, ¬ fits q ∧ ¬ broken q) → t.2.pterr = 0x8000000000000000 ||| word (p.1 % 2 ^ 46))
        ∧ ∀ before p after, order = before ++ p :: after → (∀ q ∈ before, ¬ fits q) → fits p →
          let lacks := nd &&& ~~~(w p 1).extractLsb' 0 4 ≠ 0
          let pa := if p.2 then fld (w p 1) 16 30 / 32 * 2 ^ 21 + va % 2 ^ 21 else fld (w p 1) 16 30 * 2 ^ 16 + va % 2 ^ 16
          let moving := nd.getLsbD 1 = true ∧ (w p 1).getLsbD 5 = true
          (lacks → t.1 = .rights)
          ∧ (¬ lacks → s.backed pa 1 = false → t.1 = .rights)
          ∧ (¬ lacks → s.backed pa 1 = true → moving → t.1 = .missing)
          ∧ (¬ lacks → s.backed pa 1 = true → ¬ moving → t.1 = .ok pa
              ∧ (∃ x ∈ Tab.get [] t.2.tlb cl, x.covers d va = true)
              ∧ t.2.rdWord (p.1 + 16) = s.rdWord (p.1 + 16) ||| (if nd.getLsbD 1 then 3 else 1))))
    ∧ (∀ v, ∃ t r, exec (.shootDown v) s = .next t ∧ t.shoot = s.shoot ++ [r] ∧ r.dom = fld v 56 8 ∧ r.page = fld v 16 36
      ∧ r.big = v.getLsbD 1 ∧ r.all = v.getLsbD 0)
    ∧ ∀ i r, s.shoot[i]? = some r → ∃ t, exec (.shootDownComplete i) s = .next t ∧ t.shoot = s.shoot.eraseIdx i
      ∧ ∀ e ∈ t.tlb, ∀ x ∈ e.2, r.drops x = false

/-- R298, R300 to R302, R305 to R308, R312 to R314, R319, R325, R328, R392: the events of ROUTE have their effect where
they are due: a pair is sent for one credit with its tag and its row's bytes, is dropped, spills, stalls or fails; a row
stands in its page, is held or fails, as a held row does whose page is refused; a token is counted, and the last one ends
the stream with its open page; a page is handed over or (its header refused) goes back to the pool unhanded; a return is
added into the output and fills its slot, or is answered as late or failed; a package's reset, announced or reported, fails
the entries and the pending slots that lead to it.
(It rests on the model's choices: log entries 3, 22, 27, 33 and 35.) -/
def Obligations.RouteEvents : Prop :=
  ∀ (s : State) (c : Nat),
    let k := s.core c
    let lostFrom (u : State) (d : Byte) (tag : Word) : List Packet :=
      [.ret tag 0 0 [] true none 0, .credit (fld tag 51 8)].map fun kind =>
        { dom := d, package := fld tag 32 19, core := fld tag 22 10, source := fld u.pkgid 0 19
          incarnation := fld u.pkgid 32 16, kind }
    (∀ i cmd r kk e0 rest, k.routes[i]? = some cmd → cmd.pairs = (r, kk, e0) :: rest →
      let e := (cmd.entry.getD (e0, 0)).1
      let hops := (cmd.entry.getD (e0, 0)).2
      let p := k.spliceAt cmd.splice
      let w := k.routeAt e
      let d := cmd.t.dom
      let next : RouteCmd := { cmd with pairs := rest, entry := none, stalled := false }
      let pending := p.dom = cmd.t.dom ∧ p.gen = cmd.gen ∧ p.t.id ≤ cmd.t.id ∧ p.state = 2 ∧ (p.slot r kk).status = 1
      let dealt (st : Nat) (cmd' : RouteCmd) := ∃ t, exec (.pairSend c i) s = .next t
        ∧ (t.core c).routes = k.routes.set i cmd' ∧ t.net = s.net
        ∧ ((t.core c).spliceAt cmd.splice).slot r kk = { p.slot r kk with status := st }
      (¬ pending → dealt (p.slot r kk).status { next with failed := cmd.failed + 1 })
      ∧ (pending → k.rangeHeld cmd.t.id = true ∨ (∃ dl, p.deadline = some dl ∧ dl ≤ k.cycle) →
          exec (.pairSend c i) s = .next s)
      ∧ (pending → k.rangeHeld cmd.t.id = false → (∀ dl, p.deadline = some dl → k.cycle < dl) →
        (cmd.stalled = true → rtCredit w = 0 → exec (.pairSend c i) s = .next s)
        ∧ (cmd.stalled = false ∨ rtCredit w ≠ 0 →
          (rtValid w = false ∨ rtDom w ≠ d.toNat → dealt 4 { next with failed := cmd.failed + 1 })
          ∧ (rtValid w = true → rtDom w = d.toNat → rtFailed w = true → dealt 7 { next with failed := cmd.failed + 1 })
          ∧ (rtValid w = true → rtDom w = d.toNat → rtFailed w = false →
            (rtCredit w ≠ 0 → k.routeRoom = false → exec (.pairSend c i) s = .next s)
            ∧ (rtCredit w ≠ 0 → k.routeRoom = true →
              let n := p.cols * elSize p.stype
              let x := cmd.tile + r * n
              (∀ s1, inWin x = true → s.engLost c d.toNat x = some s1 → dealt 4 { next with failed := cmd.failed + 1 })
              ∧ (inWin x = false ∨ s.engLost c d.toNat x = none → e < 256 → c < 1024 → cmd.splice < 16 → kk < 4 → r < 256 → p.gen < 256 →
                ∃ t pk tag bytes, exec (.pairSend c i) s = .next t ∧ t.net = s.net ++ [pk] ∧ pk.package = rtPackage w
                  ∧ pk.core = rtCore w ∧ pk.dom = d ∧ pk.kind = .row (rtQueue w) tag bytes
                  ∧ fld tag 59 5 = 0 ∧ fld tag 51 8 = e ∧ fld tag 32 19 = fld s.pkgid 0 19 ∧ fld tag 22 10 = c
                  ∧ fld tag 18 4 = cmd.splice ∧ fld tag 16 2 = kk ∧ fld tag 8 8 = r ∧ fld tag 0 8 = p.gen
                  ∧ bytes = (if s.storeFault d.toNat c x n = none then s.rdStore (storeLoc c x).1 (storeLoc c x).2 n
                      else List.replicate n 0)
                  ∧ rtCredit ((t.core c).routeAt e) = rtCredit w - 1
                  ∧ ((t.core c).spliceAt cmd.splice).slot r kk = { p.slot r kk with entry := some e }
                  ∧ (t.core c).routes = k.routes.set i { next with sent := cmd.sent + 1 }))
            ∧ (rtCredit w = 0 → rtPolicy w ≠ 2 → ∀ t, exec (.pairSend c i) s = .next t → (e, k.cycle) ∈ (t.core c).starved)
            ∧ (rtCredit w = 0 → rtPolicy w ≠ 1 → rtPolicy w ≠ 2 → dealt 3 { next with dropped := cmd.dropped + 1 })
            ∧ (rtCredit w = 0 → rtPolicy w = 1 → hops = 3 → dealt 3 { next with dropped := cmd.dropped + 1 })
            ∧ (rtCredit w = 0 → rtPolicy w = 1 → hops ≠ 3 → dealt 1 { cmd with
                spilled := if hops = 0 then cmd.spilled + 1 else cmd.spilled, entry := some (rtSpill w, hops + 1) })
            ∧ (rtCredit w = 0 → rtPolicy w = 2 → dealt 1 { cmd with stalled := true })))))
    ∧ (∀ i p s1, s.takePkt i = some (p, some s1) → s.inTurn i = true →
      let kp := s1.core p.core
      let lost := lostFrom s1 p.dom
      (∀ n tag bytes, p.kind = .row n tag bytes → s.portAhead p = false → kp.hold.length < 8 →
        (kp.queueAt n = none → exec (.rowArrival i) s = .next { s1 with net := s1.net ++ lost tag })
        ∧ (∀ q, kp.queueAt n = some q → q.dom ≠ p.dom ∨ q.ended = true ∨ q.rowbytes ≠ bytes.length
              ∨ kp.hasQueue q.dom.toNat n = false →
            exec (.rowArrival i) s = .next { s1 with net := s1.net ++ lost tag })
        ∧ ∀ q page j k', kp.queueAt n = some q → q.dom = p.dom → q.ended = false → q.rowbytes = bytes.length →
          kp.hasQueue q.dom.toNat n = true → kp.reserve n q = some (page, j, k') →
          let v := s1.setCore p.core k'
          let d := q.dom.toNat
          let va := rowAt page j q.rowbytes
          (∀ Q, v.spots p.core d va bytes.length 2 Q → Distinct bytes.length Q → p.core ∉ v.tampered → 0 < bytes.length →
            ∃ t, exec (.rowArrival i) s = .next t ∧ t.net = s1.net
              ∧ Moved v t d bytes.length Q (fun a => bytes.getD a 0)
              ∧ (t.core p.core).queueAt n =
                  (k'.queueAt n).map fun q => q.modPage page fun pg => { pg with rows := Tab.put pg.rows j tag })
          ∧ (∀ pg s2, v.engWrite p.core d va bytes (fun _ => true) = .wait pg s2 →
            ∃ t, exec (.rowArrival i) s = .next t ∧ t.net = s1.net ∧ (d, pg) ∈ t.reports
              ∧ (t.core p.core).queueAt n = k'.queueAt n
              ∧ (t.core p.core).hold = kp.hold ++ [{ queue := n, tag, bytes, page, pos := some j }])
          ∧ ∀ x s2, v.engWrite p.core d va bytes (fun _ => true) = .fail x s2 →
            ∃ t, exec (.rowArrival i) s = .next t ∧ t.net = s1.net ++ lost tag ∧ (t.core p.core).hold = kp.hold
              ∧ (t.core p.core).queueAt n = (k'.queueAt n).map fun q => q.modPage page fun pg => { pg with excluded := true })
      ∧ (∀ n tg core q, p.kind = .eos n tg core → kp.queueAt n = some q → q.dom = p.dom → q.ended = false → q.takes = [] →
        q.eosCount + 1 ≠ q.senders → ∃ t pk, exec (.eosArrival i) s = .next t
          ∧ (t.core p.core).queueAt n = some { q with eosCount := q.eosCount + 1 } ∧ t.net = s1.net ++ [pk]
          ∧ pk.package = p.source ∧ pk.core = core ∧ pk.kind = .eosAck tg)
      ∧ (∀ n tg core q, p.kind = .eos n tg core → kp.queueAt n = some q → q.dom = p.dom → q.ended = false → q.takes = [] →
        q.senders ≠ 0 → q.eosCount + 1 = q.senders → ∃ t pk q', exec (.eosArrival i) s = .next t
          ∧ (t.core p.core).queueAt n = some q' ∧ q'.ended = true ∧ q'.eosCount = q.senders ∧ q'.handed = q.handed
          ∧ (q.pages = [] → q'.pages = [])
          ∧ (∀ pg, q.pages.getLast? = some pg → q'.pages = q.pages.dropLast ++ [{ pg with eos := true }])
          ∧ t.net = s1.net ++ [pk] ∧ pk.package = p.source ∧ pk.core = core ∧ pk.kind = .eosAck tg)
      ∧ (∀ e, p.kind = .credit e → (e, kp.cycle) ∈ kp.starved → exec (.creditReturn i) s = .next s)
      ∧ (∀ e, p.kind = .credit e → (e, kp.cycle) ∉ kp.starved → rtCredit (kp.routeAt e) < rtCapacity (kp.routeAt e) →
        ∃ t, exec (.creditReturn i) s = .next t ∧ rtCredit ((t.core p.core).routeAt e) = rtCredit (kp.routeAt e) + 1)
      ∧ (∀ tag cols rt bytes fail tg core, p.kind = .ret tag cols rt bytes fail (some tg) core → p.unread = none →
        s.expire p.core = s →
        let n := fld tag 18 4
        let r := fld tag 8 8
        let kk := fld tag 16 2
        let sp := kp.spliceAt n
        let sl := sp.slot r kk
        let answered (code : Nat) (P : State → Prop) := ∃ t pk, exec (.returnApply i) s = .next t ∧ t.net = s1.net ++ [pk]
          ∧ pk.package = p.source ∧ pk.core = core ∧ pk.dom = p.dom ∧ pk.kind = .retAck tg code ∧ P t
        let leaves (st late : Nat) (t : State) := ((t.core p.core).spliceAt n).slot r kk = { sl with status := st }
          ∧ ((t.core p.core).spliceAt n).late = late
        (kp.spliceDom n ≠ some p.dom.toNat → answered 1 fun t => (t.core p.core).spliceAt n = sp)
        ∧ (kp.spliceDom n = some p.dom.toNat →
          (fld tag 0 8 ≠ sp.gen ∨ (sl.status ≠ 1 ∧ sl.status ≠ 5) → answered 1 (leaves sl.status (sp.late + 1)))
          ∧ (fld tag 0 8 = sp.gen → sl.status = 5 → answered 1 (leaves 6 (sp.late + 1)))
          ∧ (fld tag 0 8 = sp.gen → sl.status = 1 →
            (fail = true → answered 4 (leaves 4 sp.late))
            ∧ (fail = false → cols ≠ sp.cols ∨ rt ≠ sp.rtype → answered 2 (leaves 4 sp.late))
            ∧ (fail = false → cols = sp.cols → rt = sp.rtype → answered 0 fun t => leaves 2 sp.late t
              ∧ (∀ j, j < cols → let off := sp.out + (r * cols + j) * 4
                  kp.ownsBank sp.dom.toNat (off / 32768) = true →
                  let old := BitVec.ofNat 32 (ofLe (s1.rdStore p.core off 4))
                  let v := FV.ofBits (fmtOf rt) (ofLe ((List.range (elSize rt)).map fun b => bytes.getD (j * elSize rt + b) 0))
                  t.rdStore p.core off 4 = leBytes 4 (toF32 0 0 ((f32 old).add ((f32 sl.weight).mul v))).toNat)
              ∧ ∀ a, a < sp.out + r * cols * 4 ∨ sp.out + (r + 1) * cols * 4 ≤ a →
                  Tab.get 0 (t.core p.core).store a = Tab.get 0 kp.store a))))
      ∧ (∀ tg code, p.kind = .retAck tg code → s1.onSlot p.core tg.tid tg.d →
        ∃ t, exec (.rtretAck i) s = .next t ∧ t.got p.core tg.tid tg.d (word code))
      ∧ (∀ tg, p.kind = .eosAck tg → s1.onSlot p.core tg.tid tg.d →
        ∃ t, exec (.rxeosAck i) s = .next t ∧ t.got p.core tg.tid tg.d 0))
    ∧ (∀ i h q j s1, k.hold[i]? = some h → k.queueAt h.queue = some q → h.pos = some j →
      s.engWrite c q.dom.toNat (rowAt h.page j q.rowbytes) h.bytes (fun _ => false) = .ok () s1 →
      exec (.faultHoldResolve c i true) s = .next ((s.modCore c fun k =>
        { k with hold := k.hold.eraseIdx i }).placeRow c h.queue q h.tag h.bytes h.page j))
    ∧ (∀ i h q x s1 supplied, k.hold[i]? = some h → k.queueAt h.queue = some q →
      s.engWrite c q.dom.toNat (rowAt h.page (h.pos.getD 0) q.rowbytes) h.bytes (fun _ => false) = .fail x s1 →
      ∃ t, exec (.faultHoldResolve c i supplied) s = .next t ∧ t.net = s1.net ++ lostFrom s1 q.dom h.tag
        ∧ (t.core c).hold = (s1.core c).hold.eraseIdx i
        ∧ (h.pos = none → (t.core c).queueAt h.queue = (s1.core c).queueAt h.queue)
        ∧ (h.pos ≠ none → (t.core c).queueAt h.queue =
            some (q.modPage h.page fun pg => { pg with excluded := true })))
    ∧ (∀ n q pg rest s1, k.queueAt n = some q → q.pages = pg :: rest →
      (∀ h ∈ k.hold, h.queue = n → h.page = pg.addr → h.pos.isSome = true → s.holdFree c q h = false) →
      (k.handReady n pg = true → q.takes = [] →
        s.engWrite c q.dom.toNat pg.addr (pg.header ((rest.head?.map (·.addr)).getD 0)
          (pg.excluded || k.hold.any fun h => h.queue == n && h.page == pg.addr && h.pos.isSome)) (fun _ => true)
            = .ok () s1 →
        ∃ t, exec (.pageHandover c n) s = .next t
          ∧ (t.core c).queueAt n = some { q with pages := rest, handed := q.handed ++ [pg] })
      ∧ (∀ e, k.handReady n pg = true → q.takes = [] →
        s.engWrite c q.dom.toNat pg.addr (pg.header ((rest.head?.map (·.addr)).getD 0)
          (pg.excluded || k.hold.any fun h => h.queue == n && h.page == pg.addr && h.pos.isSome)) (fun _ => true)
            = .fail e s1 →
        ∃ t, exec (.pageHandover c n) s = .next t ∧ (t.core c).queueAt n = some { q with pages := rest }
          ∧ pg.addr ∉ (Tab.get {} (t.core c).pool q.dom.toNat).used))
    ∧ (∀ n q pg rest, k.queueAt n = some q → q.pages = pg :: rest → q.timeout ≠ 0 →
      (k.cycle ≤ pg.since + q.timeout → exec (.queueTimeout c n) s = .next s)
      ∧ (pg.since + q.timeout < k.cycle → ∃ t, exec (.queueTimeout c n) s = .next t
        ∧ (t.core c).queueAt n = some { q with pages := { pg with late := true } :: rest }))
    ∧ (∀ n, let p := k.spliceAt n
      s.onSlot c p.t.tid p.t.d → p.state = 2 →
      (p.count [1] = 0 → ∃ t, exec (.spliceComplete c n) s = .next t ∧ ((t.core c).spliceAt n).state = 0
        ∧ t.got c p.t.tid p.t.d (p.report 0))
      ∧ (∀ dl, p.deadline = some dl → dl < k.cycle → p.count [1] ≠ 0 → ∃ t, exec (.spliceTimeout c n) s = .next t
        ∧ ((t.core c).spliceAt n).state = 0 ∧ ((t.core c).spliceAt n).count [1] = 0
        ∧ ((t.core c).spliceAt n).count [5] = p.count [1] + p.count [5]
        ∧ t.got c p.t.tid p.t.d (word (p.count [2] <<< 52 ||| p.count [3] <<< 40 ||| p.count [4, 7] <<< 28
            ||| (p.count [1] + p.count [5]) <<< 16 ||| 1)))
      ∧ (∀ dl, p.deadline = some dl → k.cycle ≤ dl → exec (.spliceTimeout c n) s = .next s))
    ∧ (∀ pkg, ∃ t, exec (.peerReset c pkg) s = .next t ∧ pkg ∈ t.down ∧ ∀ e, e < 256 →
      rtPackage (k.routeAt e) = pkg → rtFailed ((t.core c).routeAt e) = true
        ∧ rtCredit ((t.core c).routeAt e) = rtCapacity (k.routeAt e)
        ∧ (s.expire c = s → ∀ n r kk, ((k.spliceAt n).slot r kk).status = 1 → ((k.spliceAt n).slot r kk).entry = some e →
            (((t.core c).spliceAt n).slot r kk).status = 7))
    ∧ ∀ pkg inc,
      (inc < Tab.get 0 s.incarnations pkg → exec (.resetAnnouncement pkg inc) s = .next s)
      ∧ (Tab.get 0 s.incarnations pkg ≤ inc → ∃ t, exec (.resetAnnouncement pkg inc) s = .next t
        ∧ Tab.get 0 t.incarnations pkg = inc ∧ pkg ∉ t.down
        ∧ (c < 1024 → ∀ e, e < 256 → rtPackage (k.routeAt e) = pkg → rtFailed ((t.core c).routeAt e) = true
          ∧ rtCredit ((t.core c).routeAt e) = rtCapacity (k.routeAt e)
          ∧ (s.expire c = s → ∀ n r kk, ((k.spliceAt n).slot r kk).entry = some e →
            (((t.core c).spliceAt n).slot r kk).status =
              if ((k.spliceAt n).slot r kk).status = 1 then 7 else ((k.spliceAt n).slot r kk).status)))

/-- R24, R99, R100, R164, R200, R201, R235, R297, R303, R349, R351, R355, R357 to R361, R370 to R373, R376, R377, R398: the
events of the registers have their effect: what a write leaves in its register, what it clears, and what it may not change.
A write of PART0 or PART1 has no effect where R360 says so, and otherwise clears what passes to the domain: banks,
accumulators, rings and the h bank; the commands of other domains lose the rings, and a bound queue is unbound.
(It rests on the model's choices: log entries 13, 14, 22, 24, 35, 42 and 43.) -/
def Obligations.RegisterEvents : Prop :=
  ∀ (s : State) (c : Nat),
    let k := s.core c
    (k.mayStop = true → ∃ t, exec (.clockStop c) s = .next t ∧ (t.core c).stopped = true)
    ∧ (k.mustRun = true → ∃ t, exec (.clockRestart c) s = .next t ∧ (t.core c).stopped = false)
    ∧ (∀ v, ∃ t, exec (.l1cfgWrite c v) s = .next t ∧ (t.core c).lbPend =
        if k.lbOk v then some (fld v 0 5, 8 * (k.turn + 1)) else k.lbPend)
    ∧ (∀ lb f, k.lbPend = some (lb, f) → f ≤ k.cycle → k.idle = true → ∃ t, exec (.l1Reconfigure c) s = .next t
      ∧ (t.core c).lb = lb ∧ (t.core c).lbPend = none ∧ (t.core c).dirty = []
      ∧ ∀ off, Tab.get 0 (t.core c).store off =
          if (48 - Nat.max k.lb lb) * 32768 ≤ off ∧ off < (48 - Nat.min k.lb lb) * 32768 then 0 else Tab.get 0 k.store off)
    ∧ (∀ v i a, v.getLsbD 63 = false → k.threadAt i = some a → ∃ t, exec (.preqWrite c v) s = .next t
      ∧ (t.core c).threadAt i = some { a with preq := if v.getLsbD i then a.preq.or (some k.cycle) else a.preq })
    ∧ (∀ d r v, ∃ t, exec (.hbankWrite c d r v) s = .next t ∧ (t.core c).h = k.h
      ∧ (t.core c).hPend = k.hPend ++ [(k.hbank d, r, v)])
    ∧ (∀ d v, ∃ t, exec (.rseedWrite c d v) s = .next t ∧ Tab.get 1 (t.core c).rseed d = (if v = 0 then 1 else v)
      ∧ (t.core c).rngOf d = if v = 0 then 1 else v)
    ∧ (∀ d i v,
      ((Tab.get 0 k.plock d).getLsbD 63 = true → ∃ t, exec (.partWrite c d i v) s = .next t ∧ t.core c = k)
      ∧ ((Tab.get 0 k.plock d).getLsbD 63 = false →
        ∃ t, exec (.partWrite c d 2 v) s = .next t ∧ Tab.get 0 (t.core c).part2 d = v &&& 0x1FF))
    ∧ (∀ d i v, i < 2 → (Tab.get 0 k.plock d).getLsbD 63 = false →
      let k' : Core := if i = 0 then { k with part0 := Tab.set 0 k.part0 d (v &&& 0x0FFFFFFF0FFFF7FF) }
        else { k with part1 := Tab.set 0 k.part1 d (v &&& 0x0FFFF1FF1FF1FF3F) }
      let passes (owner : Tab Nat) (j : Nat) : Prop := Tab.get 0 owner j ≠ d + 1
      (k.writeRefused k' d → ∃ t, exec (.partWrite c d i v) s = .next t ∧ t.core c = k)
      ∧ (¬ k.writeRefused k' d → ∃ t, exec (.partWrite c d i v) s = .next t
        ∧ (t.core c).part0 = k'.part0 ∧ (t.core c).part1 = k'.part1
        ∧ (k'.present d = true →
          (∀ off, Tab.get 0 (t.core c).store off =
            if inRange (off / 32768) (k'.bankBase d) (k'.bankCount d) = true ∧ passes k.bankOwner (off / 32768) then 0
            else Tab.get 0 k.store off)
          ∧ (∀ a e j, a < 4 → e < 64 → j < 64 → (t.core c).accAt a e j =
            if k'.hasAcc d a = true ∧ passes k.accOwner a then 0 else k.accAt a e j)
          ∧ (∀ r, r < 16 → (t.core c).ringAt r =
            if k'.hasRing d r = true ∧ passes k.ringOwner r then { sigma := 0x3F800000 } else k.ringAt r)
          ∧ (∀ b, b < 8 → rd (t.core c).h b (Vector.replicate 16 0) =
            if b = k'.hbank d ∧ passes k.hOwner b ∧ ¬ (k.present d = true ∧ k.hbank d = b) then Vector.replicate 16 0
            else rd k.h b (Vector.replicate 16 0))
          ∧ (∀ (j : Nat) (m : MatCmd), k.mats[j]? = some m → ∃ m' : MatCmd, (t.core c).mats[j]? = some m' ∧ (m'.lost = true ↔ m.lost = true
              ∨ (m.t.dom.toNat ≠ d ∧ ∃ r, k'.hasRing d r = true ∧ passes k.ringOwner r ∧ m.names r = true)))
          ∧ (∀ (j : Nat) (cp : Copy), k.copies[j]? = some cp → ∃ cp' : Copy, (t.core c).copies[j]? = some cp'
            ∧ (cp'.lost = true ↔ cp.lost = true
              ∨ (cp.t.dom.toNat ≠ d ∧ ∃ r, k'.hasRing d r = true ∧ passes k.ringOwner r ∧ cp.toRing = some r)))
          ∧ ∀ n q, k.queueAt n = some q → q.dom.toNat ≠ d → k'.hasQueue d n = true →
              k.queuePassed q.dom.toNat n = false → (t.core c).queueAt n = none)
        ∧ (k'.present d = false → k.present d = true →
          (∀ e ∈ (t.core c).ranges, e.2.dom.toNat ≠ d) ∧ (∀ cp ∈ (t.core c).copies, cp.t.dom.toNat ≠ d)
          ∧ (∀ off, inRange (off / 32768) (k.bankBase d) (k.bankCount d) = true → Tab.get 0 (t.core c).store off = 0)
          ∧ ∀ r, r < 16 → k.hasRing d r = true → (t.core c).ringAt r = { sigma := 0x3F800000 })))
    ∧ (∀ d v,
      let busy : Prop := ∃ j, j < 8 ∧ (k.slotMask d).testBit j = true ∧ (k.threadAt j).isSome = true
      ((Tab.get 0 k.plock d).getLsbD 63 = true → v.getLsbD 63 = false → busy →
        ∃ t, exec (.plockWrite c d v) s = .next t ∧ t.core c = k)
      ∧ ((Tab.get 0 k.plock d).getLsbD 63 = false ∨ v.getLsbD 63 = true ∨ ¬ busy →
        ∃ t, exec (.plockWrite c d v) s = .next t ∧ Tab.get 0 (t.core c).plock d = v &&& 0x8000000000007FFF))
    ∧ (∀ d v,
      let reads (z : Sealed) := sealChecked (s.rdRaw (fld v 16 36 * 65536) z.bytes.length) = sealChecked z.bytes
      let w := DomWork.restore c d v
      (s.work.find? w.like ≠ some w → exec (.sealRestore c d v) s = .next s)
      ∧ (s.work.find? w.like = some w →
      (∀ z, s.sealed = [z] → z.core = c → z.dom = d → z.ctr = Tab.get 0 k.sealCtr d → z.epoch = Tab.get 0 s.epoch d →
        reads z → c ∉ s.tampered → ∃ t, exec (.sealRestore c d v) s = .next t ∧ t.work = s.work.erase w
        ∧ (Tab.get 0 (t.core c).sealReg d).getLsbD 1 = false ∧ (Tab.get 0 (t.core c).sealReg d).getLsbD 2 = false
        ∧ (k.present d = true → rd (t.core c).h (k.hbank d) (Vector.replicate 16 0) = z.state.bankOf d
          ∧ (t.core c).rngOf d = z.state.rngOf d
          ∧ ∀ r, r < 16 → k.hasRing d r = true → (t.core c).ringAt r = z.state.ringAt r)
        ∧ (k.present d = false → (t.core c).h = k.h ∧ (t.core c).rng = k.rng ∧ (t.core c).ring = k.ring
          ∧ (t.core c).store = k.store))
      ∧ (c ∈ s.tampered ∨ (∀ z ∈ s.sealed, z.core = c → z.dom = d → z.ctr = Tab.get 0 k.sealCtr d → z.epoch = Tab.get 0 s.epoch d → ¬ reads z) →
        ∃ t, exec (.sealRestore c d v) s = .next t ∧ t.work = s.work.erase w
          ∧ (Tab.get 0 (t.core c).sealReg d).getLsbD 2 = true
          ∧ (t.core c).h = k.h ∧ (t.core c).store = k.store ∧ (t.core c).deque = k.deque)))
    ∧ (∀ d,
      let w := DomWork.keys d
      (s.work.find? w.like ≠ some w → exec (.keyRefresh d) s = .next s)
      ∧ (s.work.find? w.like = some w → ∃ t, exec (.keyRefresh d) s = .next t ∧ t.work = s.work.erase w
        ∧ Tab.get 0 t.epoch d = Tab.get 0 s.epoch d + 1 ∧ t.measOf d = List.replicate 48 0))
    ∧ (∀ d pa,
      let w := DomWork.extend c d pa
      ((∀ b, s.work.find? w.like ≠ some (.extend b d pa)) → exec (.measurementExtend d pa) s = .next s)
      ∧ (s.work.find? w.like = some w → s.backed pa 48 = true → ∃ t, exec (.measurementExtend d pa) s = .next t
        ∧ t.work = s.work.erase w
        ∧ (c ∉ s.tampered → t.measOf d = sha384 (s.measOf d ++ s.rdRaw pa 48))
        ∧ (c ∈ s.tampered → t.measOf d = s.measOf d ∧ t.tampered = s.tampered.erase c)))
    ∧ (∀ d pa, s.work.find? (DomWork.attest c d pa).like ≠ some (.attest c d pa) → exec (.attest c d pa) s = .next s)
    ∧ (∀ d pa, s.work.find? (DomWork.attest c d pa).like = some (.attest c d pa) → s.backed pa 256 = true →
      ∃ t, exec (.attest c d pa) s = .next t
        ∧ (c ∉ s.tampered → Tab.get false t.attested d = true
          ∧ t.rdRaw pa (s.reportHead (dieOf c) d pa).length = s.reportHead (dieOf c) d pa)
        ∧ (c ∈ s.tampered → t.attested = s.attested ∧ t.mem = s.mem ∧ t.tampered = s.tampered.erase c))
    ∧ (∀ v, ∃ t, exec (.ptcfgWrite v) s = .next t ∧ t.ptcfg = v &&& 0xF1F)
    ∧ (∃ t, exec .pterrWrite s = .next t ∧ t.pterr = 0)
    ∧ (∀ e v, (∃ t, exec (.routeEntryWrite c e 1 v) s = .next t
        ∧ (t.core c).routeAt e = ((k.routeAt e).1, v &&& 0x1FFFFFFFF))
      ∧ ∃ t, exec (.routeEntryWrite c e 0 v) s = .next t ∧ rtValid ((t.core c).routeAt e) = v.getLsbD 55
        ∧ rtCapacity ((t.core c).routeAt e) = fld v 28 16
        ∧ (fld v 28 16 ≠ rtCapacity (k.routeAt e) → rtCredit ((t.core c).routeAt e) = fld v 28 16))
    ∧ ∀ d i v, ∃ t, exec (.tokenPoolWrite c d i v) s = .next t ∧ (Tab.get {} (t.core c).pool d).used = []
      ∧ (i = 0 → (Tab.get {} (t.core c).pool d).base = v.toNat / 65536 * 65536)

/-- R286, R383 to R388, R391 to R393, R397, R398, R400: the events of the host's side have their effect: a tail is read, a
record is taken, the package resets, throttles, and answers its ports.
(It rests on the model's choices: log entries 5, 17, 31 and 32.) -/
def Obligations.HostEvents : Prop :=
  ∀ (s : State),
    (∀ q tail, s.queueBacked q = true → ∃ t, exec (.tailWrite q tail) s = .next t
      ∧ t.rdWord (s.queuePa q + 0x10) = tail ∧ q ∈ t.rereads)
    ∧ (∀ q e, q ∈ s.rereads → s.queueBacked q = true → s.hostQ q = some e →
      let tail := (s.rdWord (s.queuePa q + 0x10)).toNat
      e.head ≤ tail → tail ≤ e.head + e.size → ∃ t, exec (.tailReread q) s = .next t
        ∧ Tab.get 0 t.tails q = word tail ∧ q ∉ t.rereads)
    ∧ (∀ q e stages, s.takeReady q = some e → s.backed e.recordPa 256 = true →
      let b := s.recordOf e
      s.recordReady q b = true → blkF b 0 1 % 16 ≠ 1 → launchBad s e.dom b = none →
      s.stagesAt (blkF b 0x50 8) 0 (blkF b 1 1 + 1) = .ok stages →
      s.hostRejects e.dom (blkF b 0 1 / 16 % 4) stages = false →
      ∃ t l, exec (.launchRecordTake q) s = .next t ∧ t.launches = s.launches ++ [l] ∧ l.dom = BitVec.ofNat 8 e.dom
        ∧ l.cls = blkF b 0 1 / 16 % 4 ∧ l.left = (stages.map fun st => stageUnits st.1 st.2.1).sum ∧ l.err = false
        ∧ t.rdWord (s.queuePa q + 0x18) = word (e.head + 1))
    ∧ (∀ q e o s3, s.takeReady q = some e → s.backed e.recordPa 256 = true →
      let b := s.recordOf e
      let obj := s.rdRaw (blkF b 0x50 8) (blkF b 8 4)
      s.recordReady q b = true → blkF b 0 1 % 16 = 1 → loadBad s b = none → objParse obj (blkF b 8 4) = .ok o →
      let s1 := s.raiseHead q e
      s1.fresh.2.loadObject e.dom o s.loadPlan 0 s.nextId = .ok s3 → s3.queueBacked q = true →
      s3.backed (e.cbase + 32 * (e.head % 2 ^ e.lg)) 32 = true →
      ∃ t, exec (.loadRecordTake q) s = .next t ∧ t.ctxs = s3.ctxs
        ∧ t.measOf e.dom = sha384 (s3.measOf e.dom ++ sha384 obj))
    ∧ (∀ die, die < 4 →
      (∃ t, exec (.throttleStart die) s = .next t ∧ rd t.throttle die 0 = 1 ∧ (rd t.therm die 0).getLsbD 8 = true)
      ∧ (rd s.throttle die 0 ≠ 0 → ∃ t, exec (.throttleStep die) s = .next t ∧ rd t.throttle die 0 = 2)
      ∧ (∃ t, exec (.throttleEnd die) s = .next t ∧ rd t.throttle die 0 = 0 ∧ (rd t.therm die 0).getLsbD 8 = false)
      ∧ ∃ t, exec (.thermalTrip die) s = .next t ∧ (rd t.therm die 0).getLsbD 9 = true)
    ∧ (let reset (i : Instr) (cause : Nat) : Prop :=
        ∃ t, exec i s = .next t ∧ fld t.pkgid 32 16 = (fld s.pkgid 32 16 + 1) % 65536 ∧ fld t.pkgid 0 19 = 0
          ∧ (s.attestFails = none → s.hbmFails = none →
            (∀ p, p < 18 → rd s.training p 0 = 4 ∨ rd s.training p 0 = 8 →
              fld (rd t.link p 0) 0 5 = 1 + 2 * rd s.training p 0)
            ∧ (∀ x, objParse s.firmware s.firmware.length = .error x →
              t.inReset = true ∧ t.cores = [] ∧ t.ctxs = [] ∧ t.rstinfo = 6)
            ∧ ∀ o s1, objParse s.firmware s.firmware.length = .ok o → (s.cleared cause 0).trainLinks.boot = .ok s1 →
              t.inReset = false ∧ t.rstinfo = word cause ∧ t.fwMeas = sha384 s.firmware
              ∧ t.announced = s.announced ++ [(0, fld t.pkgid 32 16)]
              ∧ (∃ b, (t.core 0).threadAt 0 = some b ∧ b.pc = 0 ∧ b.dom = 0 ∧ b.csp = 0 ∧ (∀ r, rd b.g r 0 = 0)
                ∧ rd b.seg 0 {} = { base := BitVec.ofNat 52 o.codeOff, limit := BitVec.ofNat 53 o.image.length, rights := 0b000101 }
                ∧ rd b.seg 1 {} = { limit := 0x10_0000_0000_0000, rights := 0b111011 }
                ∧ ∀ j, 2 ≤ j → j ≤ 6 → rd b.seg j {} = {})
              ∧ ∀ c i, c ≠ 0 ∨ i ≠ 0 → (t.core c).threadAt i = none)
          ∧ (∀ die, s.attestFails = some die → t.inReset = true ∧ t.cores = [] ∧ t.rstinfo = word (4 ||| die.val <<< 8))
          ∧ ∀ stack, s.attestFails = none → s.hbmFails = some stack →
            t.inReset = true ∧ t.cores = [] ∧ t.rstinfo = word (5 ||| (stack.val / 3) <<< 8)
      reset .powerOnReset 1 ∧ reset .hostResetRequest 2 ∧ ∀ die, reset (.thermalTrip die) 3)
    ∧ (∀ pa n, s.backed pa n = true → exec (.limvonAccess (.readPhys pa n)) s = .next s)
    ∧ (∀ n i, exec (.limvonAccess (.readReg n i)) s = .next s)
    ∧ (∀ pa bs, s.backed pa bs.length = true → ∃ t, exec (.limvonAccess (.writePhys pa bs)) s = .next t
      ∧ t.rdRaw pa bs.length = bs)
    ∧ (∀ ea bs, s.winBacked ea bs.length = true → ∃ t, exec (.limvonAccess (.writeWindow ea bs)) s = .next t
      ∧ t.rdStore (storeLoc 0 ea).1 (storeLoc 0 ea).2 bs.length = bs)
    ∧ (∀ port, port < 26 → ∃ t, exec (.flitCrcFailure port) s = .next t
      ∧ fld (rd t.link port 0) 32 32 = Nat.min (fld (rd s.link port 0) 32 32 + 1) 0xFFFFFFFF)
    ∧ ∀ port, 18 ≤ port → port < 26 → ∃ t, exec (.cxlLinkFailure port) s = .next t ∧ fld (rd t.link port 0) 0 5 = 0
      ∧ ∀ lo hi pa n, (lo, hi, port) ∈ s.decoders → 0 < n → lo ≤ pa → pa + n ≤ hi → t.isBad pa n = true

/-! ### The words, the step and the invariant -/

/-- R45, R52 to R60, R65, R128, R129: words written out from the encodings decode to what they stand for, and a word with an
unassigned class, an unassigned opcode, an illegal specifier, a reserved value or a nonzero must-be-zero bit is refused
with its sub-code, the first that holds. -/
def Obligations.DecodeWords : Prop :=
  decode 0b1_0010_000_00000000_000101_000001_100000_000000_00_000_000_0000000000000000 =
    .ok (.add { e := true, w := 2, d := 5, a := 1, b := 32, c := 0, flag := 0, cond := 0 })
  ∧ decode 0b0_0000_001_00001011_000111_000000_000_0_11111111111111111111111111111110 =
    .ok (.ldi { e := false, w := 0, d := 7, a := 0, flag := 0, imm := 0xFFFFFFFE })
  ∧ decode 0b0_0000_010_00000000_000011_000100_010_001_01_011_0_000000000000000000001000 =
    .ok (.ld { e := false, w := 0, d := 3, a := 4, seg := 2, scope := 1, order := 1, size := 3, sext := false, off := 8 })
  ∧ decode 0b0_0001_011_00000000_000001_000010_000011_000000_0110_00_01_1_0_00000000000001 =
    .ok (.vadd { e := false, w := 1, vd := 1, va := 2, vb := 3, vc := 0, ty := 6, rnd := 0, mask := 1, me := true,
                 sc := false, op := 1 })
  ∧ decode 0b0_0000_100_00000000_001000_000000_000000_0010_0011_0100_000_000000000000001 =
    .ok (.mma { e := false, w := 0, d := 8, a := 0, b := 0, id1 := 2, id2 := 3, id3 := 4, scope := 0, op := 1 })
  ∧ decode 0b1_0000_110_00001100_000000_000001_000000_00000000000000_0000000000000000 =
    .ok (.exit { e := true, w := 0, d := 0, a := 1, b := 0, imm := 0, op := 0 })
  ∧ decodeCue 0x0000002A_00000000_03_00_0007_0_0_000000 =
    some (.next { wordA := 42, wordB := 0, nset := 3, rset := 0, prm := 7, cnt := 0 })
  ∧ decode 0x0700000000000000 = .error 1 ∧ decode 0x0024000000000000 = .error 2
  ∧ decode 0b0_0000_000_00000000_000101_000001_100000_000000_01_000_000_0000000000000000 = .error 5
  ∧ decode 0b0_0000_000_00000000_000101_111110_100000_000000_00_000_000_0000000000000000 = .error 3
  ∧ decode 0b0_0000_000_00000000_110000_000001_100000_000000_01_000_000_0000000000000000 = .error 3
  ∧ decode 0b0_0000_010_00000000_000011_000100_010_111_01_011_0_000000000000000000001000 = .error 4
  ∧ decode 0b0_0001_011_00000000_000001_000010_000011_000000_1111_00_01_1_0_00000000000001 = .error 4

/-- R45, R52 to R60, R65, R128, R129: decoding and encoding agree: the word of every well-formed instruction decodes to
it, with every field at every value that its encoding admits, and so does every well-formed cue action. -/
def Obligations.EncodeDecode : Prop :=
  (∀ (i : Instr) (w : Word), i.WellFormed = true → encode i = some w → decode w = .ok i)
  ∧ ∀ (q : CueAct),
    let agrees (kind : BitVec 4) (i : Instr) : Prop := i.WellFormed = true → decodeCue (encodeCue kind q) = some i
    agrees 0 (.next q) ∧ agrees 1 (.call q) ∧ agrees 2 (.icall q) ∧ agrees 3 (.ret q) ∧ agrees 4 (.gate q)
    ∧ agrees 5 (.gret q) ∧ agrees 6 (.eret q) ∧ agrees 7 (.missTrap q)

/-- R65, R335, R402: where no event is due, no save is due and the slot's thread is at a word, a step runs the instruction
to which the fetched word decodes: its effect in the state after the fetch, its step event and counts, and the end of the
cycle. A word that decodes to none takes the illegal-instruction trap at its own address, with its sub-code and the word
as the detail, in a cycle that no word uses.
(It rests on the model's choices: log entries 2, 3, 4 and 19.) -/
def Obligations.StepRunsDecoded : Prop :=
  ∀ (s s1 : State) (a : Thread) (w : Word), s.agenda = [] → s.inReset = false → s.due = none →
    s.thread? = some a → (a.status = .running ∨ a.status = .waiting) → a.wskip = 0 → a.holdUntil ≤ s.me.cycle →
    s.me.shut = false → a.yield = false → s.heldForSave s.cur s.me.turnSlot = false →
    a.atLookup = false → s.dueEvent = none → s.breakAt = false → fetch s.started = .ok (some w, s1) →
    (∀ i, decode w = .ok i → step s = match exec i s1 with
      | .next s2 => .next (s2.finish i w s1.thread)
      | .fault f => .fault f
      | .refused r => .refused r)
    ∧ ∀ sub, decode w = .error sub → step s = .next ((s1.started.take 1 sub (a.pc.setWidth 64) w 0 0).passes 255 false)

/-- R126, R127, R130, R402: where no event is due, no save is due and the slot's thread is at a lookup, a step has the
effect of the lowest-indexed valid entry that matches the key, or takes the cue-miss trap. A thread that then has no word
to issue in this cycle lets the cycle end; the first word of a shot that the buffer holds issues in this cycle, runs or
takes its trap, and that of another shot waits 8 cycles.
(It rests on the model's choices: log entries 2, 3 and 4.) -/
def Obligations.StepLooksUp : Prop :=
  ∀ (s t : State) (a : Thread), s.agenda = [] → s.inReset = false → s.due = none →
    s.thread? = some a → (a.status = .running ∨ a.status = .waiting) → a.wskip = 0 → a.holdUntil ≤ s.me.cycle →
    s.me.shut = false → a.yield = false → s.heldForSave s.cur s.me.turnSlot = false →
    a.atLookup = true → s.dueEvent = none →
    (match (s.me.winner a.cset s.lookupKey).bind fun e => decodeCue e.live.action with
      | some q => exec q s
      | none => s.cueMiss) = .next t →
    let t' := if t.thread?.any (·.status == .waiting) then t
      else t.modMe fun k => k.count 7 none a.dom.toNat 1
    (t'.wordFollows = false → step s = .next (t'.passes 255 false))
    ∧ (t'.wordFollows = true → t'.thread.preq = none →
      (∀ r, t'.pred = false :: r → step s = .next (({ t' with pred := r }.modThread fun b =>
        { b with holdUntil := t'.me.cycle + 8 }).passes 8 false))
      ∧ ∀ w s1, (∀ r, t'.pred ≠ false :: r) →
        let u := { t' with pred := t'.pred.tail }
        u.breakAt = false → fetch u.started = .ok (some w, s1) →
        (∀ i, decode w = .ok i → step s = match exec i s1 with
          | .next s2 => .next (s2.finish i w s1.thread)
          | .fault f => .fault f
          | .refused r => .refused r)
        ∧ ∀ sub, decode w = .error sub →
          step s = .next ((s1.started.take 1 sub (u.thread.pc.setWidth 64) w 0 0).passes 255 false))

/-- R72, R201, R397, R398: what reset leaves: the invariant; on every core L1CFG 4 and domain 0's partition of the whole
core, no other domain present, every h register 0; the one thread on core 0, slot 0, at word 0 with every register 0,
every port empty, every extent 1, no handler and the segments of the boot. That memory lists nothing is the model's choice (log 5). -/
def Obligations.ResetInv : Prop :=
  State.reset.Inv ∧ State.reset.mem = []
  ∧ (∀ c, let k := State.reset.core c
    k.lb = 4 ∧ k.slotMask 0 = 0xFF ∧ k.hbank 0 = 0 ∧ k.accMask 0 = 0xF ∧ k.bankBase 0 = 0 ∧ k.bankCount 0 = 44
    ∧ k.cueBase 0 = 0 ∧ k.cueCount 0 = 1024 ∧ k.cueQuota 0 = 64 ∧ k.dequeShare 0 = 64 ∧ k.copyShare 0 = 16
    ∧ k.matShare 0 = 8 ∧ k.rangeQuota 0 = 32
    ∧ (∀ i, i < 16 → k.hasRing 0 i = true ∧ k.hasSplice 0 i = true ∧ k.hasQueue 0 i = true)
    ∧ fld (Tab.get 0 k.part2 0) 0 9 = 256 ∧ Tab.get 0 k.plock 0 = 0 ∧ (∀ d, d ≠ 0 → k.present d = false)
    ∧ ∀ b i, b < 8 → i < 16 → rd (rd k.h b (Vector.replicate 16 0)) i 0 = 0)
  ∧ (∀ c i, i < 8 → (c ≠ 0 ∨ i ≠ 0) → (State.reset.core c).threadAt i = none)
  ∧ ∃ t, (State.reset.core 0).threadAt 0 = some t ∧ t.dom = 0 ∧ t.pc = 0 ∧ t.atLookup = false ∧ t.cset = 0 ∧ t.prm = 0
    ∧ t.csp = 0 ∧ t.f = 0 ∧ t.full = BitVec.allOnes 32 ∧ t.hasHandler = false
    ∧ t.ident = { ex := 1, ey := 1, ez := 1 }
    ∧ (∀ i, i < 32 → rd t.g i 0 = 0) ∧ (∀ i, i < 16 → rd t.v i 0 = 0)
    ∧ (∀ i, i < 4 → rd t.m i 0 = 0 ∧ rd t.c i 0 = 0 ∧ rd t.q i [] = []) ∧ t.cfg = 0
    ∧ (let s1 := rd t.seg 1 {}
       s1.base = 0 ∧ s1.rights = 0b111011 ∧ s1.limit.toNat = 2 ^ 52 ∧ s1.dom = 0)
    ∧ (let s7 := rd t.seg 7 {}
       s7.limit.toNat = 65536 ∧ s7.rights = 0b000011 ∧ s7.dom = 0)
    ∧ (∀ i, 2 ≤ i → i < 7 → rd t.seg i {} = {}) ∧ (rd t.seg 0 {}).rights = 0b000101

/-- Every step keeps the canonical form of memory: addresses strictly rising, and no entry equal to what an unlisted
address reads as. -/
def Obligations.StepInv : Prop :=
  ∀ s t : State, s.Inv → step s = .next t → t.Inv
end

