-- ==== Sys2Proof/Laws/Rounding.lean ====
section
/-! SUPPORT. Rounding to a format (R156, R162, R163): the magnitudes that a format holds are in the order of their bits, and
`roundMag` answers the bits that the rounding modes ask for. -/

namespace Sys2Proof.Machine

/-- The binary logarithm of n / d, rounded down. -/
theorem ilog2_spec (n d : Nat) (hn : 0 < n) (hd : 0 < d) :
    (2 : ℚ) ^ ilog2 n d ≤ n / d ∧ (n : ℚ) / d < 2 ^ (ilog2 n d + 1) := by
  have n1 := Nat.log2_self_le hn.ne'
  have n2 := Nat.lt_log2_self (n := n)
  have d1 := Nat.log2_self_le hd.ne'
  have d2 := Nat.lt_log2_self (n := d)
  have D : (0 : ℚ) < d := by exact_mod_cast hd
  have q1 : (2 : ℚ) ^ (n.log2 : ℤ) ≤ n := by rw [zpow_natCast]; exact_mod_cast n1
  have q2 : (n : ℚ) < 2 ^ ((n.log2 : ℤ) + 1) := by
    rw [show (n.log2 : ℤ) + 1 = ((n.log2 + 1 : ℕ) : ℤ) by push_cast; rfl, zpow_natCast]; exact_mod_cast n2
  have q3 : (2 : ℚ) ^ (d.log2 : ℤ) ≤ d := by rw [zpow_natCast]; exact_mod_cast d1
  have q4 : (d : ℚ) < 2 ^ ((d.log2 : ℤ) + 1) := by
    rw [show (d.log2 : ℤ) + 1 = ((d.log2 + 1 : ℕ) : ℤ) by push_cast; rfl, zpow_natCast]; exact_mod_cast d2
  have lo : (2 : ℚ) ^ ((n.log2 : ℤ) - d.log2 - 1) ≤ n / d := by
    rw [le_div_iff₀ D]
    calc (2 : ℚ) ^ ((n.log2 : ℤ) - d.log2 - 1) * d ≤ 2 ^ ((n.log2 : ℤ) - d.log2 - 1) * 2 ^ ((d.log2 : ℤ) + 1) :=
          mul_le_mul_of_nonneg_left q4.le (by positivity)
      _ = 2 ^ (n.log2 : ℤ) := by rw [← zpow_add₀ (by norm_num)]; congr 1; ring
      _ ≤ n := q1
  have hi : (n : ℚ) / d < 2 ^ ((n.log2 : ℤ) - d.log2 + 1) := by
    rw [div_lt_iff₀ D]
    calc (n : ℚ) < 2 ^ ((n.log2 : ℤ) + 1) := q2
      _ = 2 ^ ((n.log2 : ℤ) - d.log2 + 1) * 2 ^ (d.log2 : ℤ) := by rw [← zpow_add₀ (by norm_num)]; congr 1; ring
      _ ≤ _ := mul_le_mul_of_nonneg_left q3 (by positivity)
  unfold ilog2
  generalize (n.log2 : ℤ) - d.log2 = l at *
  dsimp only
  have key (c : Prop) [Decidable c] (h : c ↔ (n : ℚ) / d < 2 ^ l) :
      (2 : ℚ) ^ (if c then l - 1 else l) ≤ n / d ∧ (n : ℚ) / d < 2 ^ ((if c then l - 1 else l) + 1) := by
    split
    · next hc => exact ⟨lo, by rw [sub_add_cancel]; exact h.mp hc⟩
    · next hc => exact ⟨not_lt.mp fun x => hc (h.mpr x), hi⟩
  split
  · next h =>
    apply key
    rw [div_lt_iff₀ D, mul_comm, ← Int.toNat_of_nonneg h, zpow_natCast, Int.toNat_natCast]
    exact_mod_cast Iff.rfl
  · next h =>
    apply key
    rw [div_lt_iff₀ D, show l = -((-l).toNat : ℤ) by omega, zpow_neg, zpow_natCast,
      inv_mul_eq_div, lt_div_iff₀ (by positivity)]
    rw [show (- -(((-l).toNat : ℕ) : ℤ)).toNat = (-l).toNat by omega]
    exact_mod_cast Iff.rfl

/-! ### The magnitudes of a format -/

/-- The value of n × 2^k with a sign. -/
theorem dyadic_rat (neg : Bool) (n : Nat) (k : Int) :
    (dyadic neg n k).rat = (if neg then -1 else 1) * (n * 2 ^ k) ∧ (dyadic neg n k).isFin = true := by
  unfold dyadic
  split
  · next h =>
    simp only [FV.rat, FV.isFin, and_true]
    push_cast
    rw [div_one, ← zpow_natCast, Int.toNat_of_nonneg h]
  · next h =>
    simp only [FV.rat, FV.isFin, and_true]
    push_cast
    rw [← zpow_natCast, Int.toNat_of_nonneg (by omega), zpow_neg, div_inv_eq_mul]

/-- The bits of q × 2^(emin + j): a subnormal where q has no leading bit. -/
def Fmt.enc (f : Fmt) (j q : Nat) : Nat :=
  if q < 2 ^ (f.p - 1) then q else (j + 1) * 2 ^ (f.p - 1) + (q - 2 ^ (f.p - 1))

/-- What the bits of a finite magnitude stand for. -/
theorem Fmt.mag_fields (f : Fmt) (b : Nat) (hp : 1 ≤ f.p) (h : b < f.infBits) :
    f.mag b = if b / 2 ^ (f.p - 1) = 0 then (b : ℚ) * 2 ^ f.emin
      else ((2 ^ (f.p - 1) + b % 2 ^ (f.p - 1) : Nat) : ℚ) * 2 ^ (f.emin + (b / 2 ^ (f.p - 1) : Nat) - 1) := by
  have T : 0 < 2 ^ (f.p - 1) := by positivity
  have hE : 1 ≤ 2 ^ f.e := Nat.one_le_two_pow
  have hx : b / 2 ^ (f.p - 1) < 2 ^ f.e - 1 := Nat.div_lt_of_lt_mul (by rw [mul_comm]; exact h)
  have hs : b / f.signBit % 2 = 0 := by
    rw [Nat.div_eq_of_lt]
    calc b < f.infBits := h
      _ ≤ 2 ^ f.e * 2 ^ (f.p - 1) := Nat.mul_le_mul_right _ (by omega)
      _ = f.signBit := by unfold Fmt.signBit; rw [← pow_add]; congr 1; omega
  unfold Fmt.mag FV.ofBits
  rw [hs, Nat.mod_eq_of_lt (a := b / 2 ^ (f.p - 1)) (by omega), if_neg (by omega)]
  split
  · next h0 =>
    rw [Nat.mod_eq_of_lt (by
      rcases Nat.div_eq_zero_iff.mp h0 with h | h
      · omega
      · exact h)]
    simp [dyadic_rat]
  · simp [dyadic_rat]

/-- What they stand for, also where q has just passed its binade. -/
theorem Fmt.mag_enc (f : Fmt) (j q : Nat) (hp : 2 ≤ f.p) (hq : q ≤ 2 * 2 ^ (f.p - 1))
    (hj : q < 2 ^ (f.p - 1) → j = 0) (h : f.enc j q < f.infBits) : f.mag (f.enc j q) = q * 2 ^ (f.emin + j) := by
  have T : 0 < 2 ^ (f.p - 1) := by positivity
  rw [f.mag_fields _ (by omega) h]
  unfold Fmt.enc
  generalize 2 ^ (f.p - 1) = t at *
  split
  · next h1 => simp [hj h1, Nat.div_eq_of_lt h1]
  · next h1 =>
    by_cases h2 : q = 2 * t
    · subst h2
      have e1 : ((j + 1) * t + (2 * t - t)) = (j + 2) * t := by rw [Nat.add_mul, Nat.add_mul]; omega
      rw [e1, Nat.mul_div_cancel _ T, Nat.mul_mod_left, if_neg (by omega)]
      push_cast
      rw [show f.emin + ((j : ℤ) + 2) - 1 = f.emin + j + 1 by ring, zpow_add_one₀ (by norm_num)]
      ring
    · have h3 : q - t < t := by omega
      rw [Nat.mul_comm (j + 1) t, Nat.mul_add_div T, Nat.div_eq_of_lt h3, Nat.mul_add_mod, Nat.mod_eq_of_lt h3,
        if_neg (by omega), Nat.add_sub_cancel' (by omega)]
      push_cast
      congr 2
      ring

/-- Every magnitude is one of those. -/
theorem Fmt.exists_enc (f : Fmt) (b : Nat) :
    ∃ j q, q < 2 * 2 ^ (f.p - 1) ∧ (q < 2 ^ (f.p - 1) → j = 0) ∧ f.enc j q = b := by
  have T : 0 < 2 ^ (f.p - 1) := by positivity
  unfold Fmt.enc
  generalize 2 ^ (f.p - 1) = t at *
  by_cases h : b < t
  · exact ⟨0, b, by omega, fun _ => rfl, by simp [h]⟩
  · have h1 := Nat.mod_lt b T
    have h2 := Nat.div_add_mod b t
    have h3 : 1 ≤ b / t := Nat.div_pos (by omega) T
    refine ⟨b / t - 1, t + b % t, by omega, by omega, ?_⟩
    rw [if_neg (by omega), Nat.sub_add_cancel h3, Nat.mul_comm]
    omega

/-- One step more is the next bits. -/
theorem Fmt.enc_succ (f : Fmt) (j q : Nat) (hj : q < 2 ^ (f.p - 1) → j = 0) : f.enc j (q + 1) = f.enc j q + 1 := by
  unfold Fmt.enc
  generalize 2 ^ (f.p - 1) = t at *
  by_cases h : q < t
  · obtain rfl := hj h
    rw [if_pos h]
    split <;> omega
  · rw [if_neg h, if_neg (by omega)]; omega

/-- The next magnitude is greater. -/
theorem Fmt.mag_lt_succ (f : Fmt) (b : Nat) (hp : 2 ≤ f.p) (h : b + 1 < f.infBits) : f.mag b < f.mag (b + 1) := by
  obtain ⟨j, q, h1, h2, rfl⟩ := f.exists_enc b
  have e := f.enc_succ j q h2
  rw [f.mag_enc j q hp h1.le h2 (by omega), ← e, f.mag_enc j (q + 1) hp h1 (by omega) (by omega)]
  exact mul_lt_mul_of_pos_right (by push_cast; linarith) (by positivity)

/-- Magnitudes are in the order of their bits. -/
theorem Fmt.mag_lt (f : Fmt) (b c : Nat) (hp : 2 ≤ f.p) (hc : c < f.infBits) (h : b < c) : f.mag b < f.mag c := by
  induction c with
  | zero => omega
  | succ c ih =>
    have s := f.mag_lt_succ c hp hc
    rcases Nat.lt_or_eq_of_le (Nat.le_of_lt_succ h) with h' | rfl
    · exact (ih (by omega) h').trans s
    · exact s

theorem Fmt.mag_le (f : Fmt) (b c : Nat) (hp : 2 ≤ f.p) (hc : c < f.infBits) (h : b ≤ c) : f.mag b ≤ f.mag c := by
  rcases Nat.lt_or_eq_of_le h with h | rfl
  · exact (f.mag_lt b c hp hc h).le
  · exact le_rfl

/-- The greatest finite magnitude no greater than `y`, from the value that `y` has not passed. -/
theorem Fmt.below_of (f : Fmt) (y : ℚ) (z : Nat) (hp : 2 ≤ f.p) (hz : z < f.infBits) (lo : f.mag z ≤ y)
    (hi : z + 1 < f.infBits → y < f.mag (z + 1)) : f.below y z := by
  refine ⟨hz, lo, fun c hc h => f.mag_le c z hp hz ?_⟩
  by_contra n
  exact absurd (h.trans_lt (hi (by omega))) (not_lt.mpr (f.mag_le (z + 1) c hp hc (by omega)))

/-- Where a magnitude lies: q of its steps and a part `u` of a step, in the binade of its leading bit. -/
theorem roundMag_step (f : Fmt) (n d : Nat) (hn : 0 < n) (hd : 0 < d) :
    let k := max (ilog2 n d - (f.p - 1 : Nat)) f.emin
    let y : ℚ := n / d
    ∃ N D : Nat, 0 < D ∧ y = N / D * 2 ^ k ∧ N / D < 2 * 2 ^ (f.p - 1) ∧ (N / D < 2 ^ (f.p - 1) → k = f.emin)
      ∧ ∀ mode r, (if 0 ≤ k then roundNat mode r n (d * 2 ^ k.toNat) else roundNat mode r (n * 2 ^ (-k).toNat) d)
          = roundNat mode r N D := by
  intro k y
  obtain ⟨l1, l2⟩ := ilog2_spec n d hn hd
  have D0 : (0 : ℚ) < d := by exact_mod_cast hd
  have big : y < 2 * 2 ^ (f.p - 1) * 2 ^ k := by
    calc y < 2 ^ (ilog2 n d + 1) := l2
      _ ≤ 2 ^ (k + (f.p - 1 : Nat) + 1) := zpow_le_zpow_right₀ (by norm_num) (by
          have : ilog2 n d - (f.p - 1 : Nat) ≤ k := le_max_left _ _
          omega)
      _ = _ := by rw [zpow_add_one₀ (by norm_num), zpow_add₀ (by norm_num), zpow_natCast]; ring
  have small : y < 2 ^ (f.p - 1) * 2 ^ k → k = f.emin := by
    intro h
    by_contra ne
    have e : k = ilog2 n d - (f.p - 1 : Nat) := by
      rcases max_choice (ilog2 n d - (f.p - 1 : Nat)) f.emin with h | h
      · exact h
      · exact absurd h ne
    have : (2 : ℚ) ^ (f.p - 1) * 2 ^ k = 2 ^ ilog2 n d := by
      rw [e, ← zpow_natCast, ← zpow_add₀ (by norm_num)]; congr 1; omega
    rw [this] at h
    exact absurd h (not_lt.mpr l1)
  have K : (0 : ℚ) < 2 ^ k := by positivity
  have fin (N D : Nat) (hD : 0 < D) (hy : y = N / D * 2 ^ k)
      (hr : ∀ mode r, (if 0 ≤ k then roundNat mode r n (d * 2 ^ k.toNat) else roundNat mode r (n * 2 ^ (-k).toNat) d)
          = roundNat mode r N D) : ∃ N D : Nat, 0 < D ∧ y = N / D * 2 ^ k ∧ N / D < 2 * 2 ^ (f.p - 1)
      ∧ (N / D < 2 ^ (f.p - 1) → k = f.emin)
      ∧ ∀ mode r, (if 0 ≤ k then roundNat mode r n (d * 2 ^ k.toNat) else roundNat mode r (n * 2 ^ (-k).toNat) d)
          = roundNat mode r N D := by
    have DD : (0 : ℚ) < D := by exact_mod_cast hD
    refine ⟨N, D, hD, hy, ?_, fun h => small ?_, hr⟩
    · rw [hy] at big
      have := lt_of_mul_lt_mul_right big K.le
      rw [div_lt_iff₀ DD] at this
      exact (Nat.div_lt_iff_lt_mul hD).mpr (by exact_mod_cast this)
    · rw [hy]
      refine mul_lt_mul_of_pos_right ?_ K
      rw [div_lt_iff₀ DD]
      exact_mod_cast (Nat.div_lt_iff_lt_mul hD).mp h
  by_cases hk : 0 ≤ k
  · refine fin n (d * 2 ^ k.toNat) (by positivity) ?_ fun mode r => if_pos hk
    push_cast
    rw [← zpow_natCast (2 : ℚ) k.toNat, Int.toNat_of_nonneg hk]
    show (n : ℚ) / d = _
    field_simp
  · refine fin (n * 2 ^ (-k).toNat) d hd ?_ fun mode r => if_neg hk
    push_cast
    rw [← zpow_natCast (2 : ℚ) (-k).toNat, Int.toNat_of_nonneg (by omega), zpow_neg]
    show (n : ℚ) / d = _
    field_simp

/-- The distance between the two greatest finite magnitudes. -/
def Fmt.topStep (f : Fmt) : ℚ := f.mag (f.infBits - 1) - f.mag (f.infBits - 2)

/-- The greatest bits of a binade, and the powers of 2 that its steps are. -/
theorem Fmt.top_enc (f : Fmt) (hp : 2 ≤ f.p) (he : 2 ≤ f.e) : ∃ jm : Nat, f.infBits = (jm + 2) * 2 ^ (f.p - 1)
    ∧ f.mag (f.infBits - 1) = (2 * 2 ^ (f.p - 1) - 1) * 2 ^ (f.emin + jm) ∧ f.topStep = 2 ^ (f.emin + jm) := by
  have T2 : 2 ≤ 2 ^ (f.p - 1) := by
    calc 2 = 2 ^ 1 := rfl
      _ ≤ _ := Nat.pow_le_pow_right (by norm_num) (by omega)
  have E4 : 4 ≤ 2 ^ f.e := by
    calc 4 = 2 ^ 2 := rfl
      _ ≤ _ := Nat.pow_le_pow_right (by norm_num) he
  obtain ⟨jm, hjm⟩ : ∃ jm, 2 ^ f.e = jm + 3 := ⟨2 ^ f.e - 3, by omega⟩
  have eInf : f.infBits = (jm + 2) * 2 ^ (f.p - 1) := by unfold Fmt.infBits; rw [hjm]; rfl
  have i0 : 0 < f.infBits := by rw [eInf]; positivity
  have enc1 : f.enc jm (2 * 2 ^ (f.p - 1) - 1) = f.infBits - 1 := by
    unfold Fmt.enc
    rw [if_neg (by omega), eInf, Nat.add_mul, Nat.add_mul]; omega
  have enc2 : f.enc jm (2 * 2 ^ (f.p - 1) - 2) = f.infBits - 2 := by
    unfold Fmt.enc
    rw [if_neg (by omega), eInf, Nat.add_mul, Nat.add_mul]; omega
  have top1 : f.mag (f.infBits - 1) = ((2 * 2 ^ (f.p - 1) - 1 : Nat) : ℚ) * 2 ^ (f.emin + jm) := by
    rw [← enc1, f.mag_enc _ _ hp (by omega) (by omega) (by omega)]
  have top2 : f.mag (f.infBits - 2) = ((2 * 2 ^ (f.p - 1) - 2 : Nat) : ℚ) * 2 ^ (f.emin + jm) := by
    rw [← enc2, f.mag_enc _ _ hp (by omega) (by omega) (by omega)]
  rw [Nat.cast_sub (by omega)] at top1 top2
  push_cast at top1 top2
  refine ⟨jm, eInf, top1, ?_⟩
  unfold Fmt.topStep
  rw [top1, top2]; ring

/-- A magnitude is `v` above the one with the bits `z`, of which the next is `S` greater; the bits it is rounded to are `z`,
or the next ones, or the infinity or the greatest below it. -/
theorem roundMag_place (f : Fmt) (mode r n d : Nat) (hp : 2 ≤ f.p) (he : 2 ≤ f.e) (hm : mode < 3) (hr : r < 65536)
    (hd : 0 < d) : ∃ (z : Nat) (S v : ℚ), 0 < S ∧ 0 ≤ v ∧ v < S ∧ (z < f.infBits → (n : ℚ) / d = f.mag z + v)
      ∧ (z + 1 < f.infBits → f.mag (z + 1) = f.mag z + S) ∧ (f.infBits ≤ z → f.mag (f.infBits - 1) + f.topStep ≤ n / d)
      ∧ (z + 1 = f.infBits → S = f.topStep)
      ∧ ∃ b, b = (if (mode = 0 ∧ (S < 2 * v ∨ (2 * v = S ∧ z % 2 = 1))) ∨ (mode = 2 ∧ S ≤ v + r / 65536 * S)
          then z + 1 else z)
        ∧ roundMag f mode r n d = if f.infBits ≤ b then (if mode = 0 then f.infBits else f.infBits - 1) else b := by
  have T2 : 2 ≤ 2 ^ (f.p - 1) := by
    calc 2 = 2 ^ 1 := rfl
      _ ≤ _ := Nat.pow_le_pow_right (by norm_num) (by omega)
  have Tev : 2 ^ (f.p - 1) % 2 = 0 := by
    rw [show f.p - 1 = (f.p - 2) + 1 by omega, pow_succ]; omega
  have u16 : (r : ℚ) / 65536 < 1 := by
    rw [div_lt_one (by norm_num)]; exact_mod_cast hr
  obtain ⟨jm, eInf, top1, hstep⟩ := f.top_enc hp he
  have inf4 : 4 ≤ f.infBits := by
    rw [eInf]
    calc 4 = 2 * 2 := rfl
      _ ≤ (jm + 2) * 2 ^ (f.p - 1) := Nat.mul_le_mul (by omega) T2
  by_cases hn : n = 0
  · subst hn
    have m0 : f.mag 0 = 0 := by rw [f.mag_fields 0 (by omega) (by omega)]; simp
    have m1 : f.mag 1 = 2 ^ f.emin := by
      have := f.mag_enc 0 1 hp (by omega) (fun _ => rfl) (by rw [show f.enc 0 1 = 1 from if_pos (by omega)]; omega)
      rw [show f.enc 0 1 = 1 from if_pos (by omega)] at this
      simpa using this
    have K : (0 : ℚ) < 2 ^ f.emin := by positivity
    refine ⟨0, 2 ^ f.emin, 0, K, le_rfl, K, fun _ => by simp [m0], fun _ => by simp [m0, m1], by omega, by omega,
      0, ?_, by simp [roundMag]; omega⟩
    rw [if_neg]
    rintro (⟨_, h | ⟨h, _⟩⟩ | ⟨_, h⟩)
    · linarith
    · linarith
    · nlinarith
  obtain ⟨N, D, hD, hy, hq2, hqk, hrn⟩ := roundMag_step f n d (by omega) hd
  have D0 : (0 : ℚ) < D := by exact_mod_cast hD
  unfold roundMag
  rw [if_neg hn]
  generalize hk : max (ilog2 n d - (f.p - 1 : Nat)) f.emin = k at *
  dsimp only
  rw [hrn]
  clear hrn
  obtain ⟨j, hj⟩ : ∃ j : Nat, k = f.emin + j := ⟨(k - f.emin).toNat, by
    have : f.emin ≤ k := hk ▸ le_max_right _ _
    omega⟩
  have hkj : (k - f.emin + 1).toNat = j + 1 := by omega
  have K : (0 : ℚ) < 2 ^ (f.emin + j) := by positivity
  rw [hkj]
  rw [hj] at hy
  have hj0 : N / D < 2 ^ (f.p - 1) → j = 0 := fun h => by have := hqk h; omega
  clear hk hj hkj hqk
  have hN : (N : ℚ) / D = (N / D : Nat) + (N % D : Nat) / (D : ℚ) := by
    rw [div_eq_iff D0.ne', add_mul, div_mul_cancel₀ _ D0.ne']
    exact_mod_cast (by rw [Nat.mul_comm]; exact (Nat.div_add_mod N D).symm)
  have hu0 : (0 : ℚ) ≤ (N % D : Nat) / (D : ℚ) := by positivity
  have hu1 : ((N % D : Nat) : ℚ) / D < 1 := by
    rw [div_lt_one D0]; exact_mod_cast Nat.mod_lt N hD
  have up := f.enc_succ j (N / D) hj0
  have parity : f.enc j (N / D) % 2 = N / D % 2 := by
    unfold Fmt.enc
    split
    · rfl
    · rw [Nat.add_mod, Nat.mul_mod, Tev]; omega
  rw [hN, add_mul] at hy
  have half1 : D < 2 * (N % D) ↔ (2 : ℚ) ^ (f.emin + j) < 2 * ((N % D : Nat) / (D : ℚ) * 2 ^ (f.emin + j)) := by
    rw [show 2 * ((N % D : Nat) / (D : ℚ) * 2 ^ (f.emin + j)) = (2 * (N % D : Nat)) / (D : ℚ) * 2 ^ (f.emin + j) by ring]
    rw [lt_mul_iff_one_lt_left K, one_lt_div D0]
    exact_mod_cast Iff.rfl
  have half2 : 2 * (N % D) = D ↔ 2 * ((N % D : Nat) / (D : ℚ) * 2 ^ (f.emin + j)) = (2 : ℚ) ^ (f.emin + j) := by
    rw [show 2 * ((N % D : Nat) / (D : ℚ) * 2 ^ (f.emin + j)) = (2 * (N % D : Nat)) / (D : ℚ) * 2 ^ (f.emin + j) by ring]
    rw [mul_eq_right₀ K.ne', div_eq_one_iff_eq D0.ne']
    exact_mod_cast Iff.rfl
  have stoch : D * 65536 ≤ N % D * 65536 + r * D ↔
      (2 : ℚ) ^ (f.emin + j) ≤ (N % D : Nat) / (D : ℚ) * 2 ^ (f.emin + j) + r / 65536 * 2 ^ (f.emin + j) := by
    rw [← add_mul, le_mul_iff_one_le_left K, div_add_div _ _ D0.ne' (by norm_num), one_le_div (by positivity)]
    rw [show (D : ℚ) * r = r * D by ring]
    exact_mod_cast Iff.rfl
  have hround : roundNat mode r N D = if (mode = 0 ∧ (D < 2 * (N % D) ∨ (2 * (N % D) = D ∧ N / D % 2 = 1)))
      ∨ (mode = 2 ∧ D * 65536 ≤ N % D * 65536 + r * D) then N / D + 1 else N / D := by
    unfold roundNat
    interval_cases mode <;> simp
  simp only [half1, half2, stoch, ← parity] at hround
  clear half1 half2 stoch hN parity
  have hv0 := mul_nonneg hu0 K.le
  have hv1 := mul_lt_mul_of_pos_right hu1 K
  rw [one_mul] at hv1
  refine ⟨f.enc j (N / D), 2 ^ (f.emin + j), (N % D : Nat) / (D : ℚ) * 2 ^ (f.emin + j), K, hv0, hv1, fun h => ?_,
    fun h => ?_, fun h => ?_, fun h => ?_, f.enc j (roundNat mode r N D), ?_, rfl⟩
  · rw [f.mag_enc j _ hp hq2.le hj0 h, hy]
  · rw [← up, f.mag_enc j _ hp hq2 (fun h => hj0 (by omega)) (up ▸ h), f.mag_enc j _ hp hq2.le hj0 (by omega)]
    push_cast; ring
  · have hT : ¬ N / D < 2 ^ (f.p - 1) := fun h' => by
      have : f.enc j (N / D) = N / D := if_pos h'
      rw [eInf, this] at h
      have : 1 * 2 ^ (f.p - 1) ≤ (jm + 2) * 2 ^ (f.p - 1) := Nat.mul_le_mul_right _ (by omega)
      omega
    have hjj : jm + 1 ≤ j := by
      have e : f.enc j (N / D) = (j + 1) * 2 ^ (f.p - 1) + (N / D - 2 ^ (f.p - 1)) := if_neg hT
      by_contra hn'
      have : (j + 2) * 2 ^ (f.p - 1) ≤ (jm + 2) * 2 ^ (f.p - 1) := Nat.mul_le_mul_right _ (by omega)
      rw [eInf, e] at h
      have e2 : (j + 2) * 2 ^ (f.p - 1) = (j + 1) * 2 ^ (f.p - 1) + 2 ^ (f.p - 1) := by ring
      omega
    have hq1 : (2 : ℚ) ^ (f.p - 1) ≤ (N / D : Nat) := by exact_mod_cast not_lt.mp hT
    rw [top1, hstep]
    calc (2 * 2 ^ (f.p - 1) - 1 : ℚ) * 2 ^ (f.emin + jm) + 2 ^ (f.emin + jm) = 2 ^ (f.p - 1) * 2 ^ (f.emin + jm + 1) := by
          rw [zpow_add_one₀ (by norm_num)]; ring
      _ ≤ 2 ^ (f.p - 1) * 2 ^ (f.emin + j) :=
          mul_le_mul_of_nonneg_left (zpow_le_zpow_right₀ (by norm_num) (by omega)) (by positivity)
      _ ≤ (N / D : Nat) * 2 ^ (f.emin + j) := mul_le_mul_of_nonneg_right hq1 K.le
      _ ≤ n / d := by rw [hy]; linarith
  · have hT : ¬ N / D < 2 ^ (f.p - 1) := fun h' => by
      have : f.enc j (N / D) = N / D := if_pos h'
      rw [eInf, this] at h
      have : 2 * 2 ^ (f.p - 1) ≤ (jm + 2) * 2 ^ (f.p - 1) := Nat.mul_le_mul_right _ (by omega)
      omega
    have e : f.enc j (N / D) = (j + 1) * 2 ^ (f.p - 1) + (N / D - 2 ^ (f.p - 1)) := if_neg hT
    rw [eInf, e] at h
    have a : ¬ j + 1 ≤ jm := fun n => by
      have : (j + 2) * 2 ^ (f.p - 1) ≤ (jm + 1) * 2 ^ (f.p - 1) := Nat.mul_le_mul_right _ (by omega)
      have e1 : (j + 2) * 2 ^ (f.p - 1) = (j + 1) * 2 ^ (f.p - 1) + 2 ^ (f.p - 1) := by ring
      have e2 : (jm + 2) * 2 ^ (f.p - 1) = (jm + 1) * 2 ^ (f.p - 1) + 2 ^ (f.p - 1) := by ring
      omega
    have b : ¬ jm + 1 ≤ j := fun n => by
      have : (jm + 2) * 2 ^ (f.p - 1) ≤ (j + 1) * 2 ^ (f.p - 1) := Nat.mul_le_mul_right _ (by omega)
      omega
    rw [hstep, show j = jm by omega]
  · rw [hround]
    split
    · exact up
    · rfl

/-- A magnitude `v` above that of `z`, whose next is `S` above it, is nearer to `z` than to any other, or to the next. -/
theorem Fmt.nearest_below (f : Fmt) (z : Nat) (S v : ℚ) (hp : 2 ≤ f.p) (hz : z < f.infBits) (v0 : 0 ≤ v)
    (h1 : z + 1 < f.infBits → f.mag (z + 1) = f.mag z + S) (hv : 2 * v < S ∨ (2 * v = S ∧ z % 2 = 0)) :
    ∀ c, c < f.infBits → c ≠ z → |f.mag z + v - f.mag z| < |f.mag z + v - f.mag c|
      ∨ (|f.mag z + v - f.mag z| = |f.mag z + v - f.mag c| ∧ z % 2 = 0) := by
  intro c hc n
  rw [add_sub_cancel_left, abs_of_nonneg v0]
  rcases Nat.lt_or_gt_of_ne n with h | h
  · have := f.mag_lt c z hp hz h
    exact .inl (lt_of_lt_of_le (by linarith) (le_abs_self _))
  · have e := h1 (by omega)
    have := f.mag_le (z + 1) c hp hc h
    have a : |f.mag z + v - f.mag c| = f.mag c - f.mag z - v := by
      rw [abs_of_nonpos (by rcases hv with h | ⟨h, _⟩ <;> linarith)]; ring
    rw [a]
    rcases hv with h | ⟨h, ev⟩
    · exact .inl (by linarith)
    · rcases eq_or_lt_of_le this with h' | h'
      · exact .inr ⟨by linarith, ev⟩
      · exact .inl (by linarith)

theorem Fmt.nearest_above (f : Fmt) (z : Nat) (S v : ℚ) (hp : 2 ≤ f.p) (hz : z + 1 < f.infBits) (v1 : v < S)
    (h1 : f.mag (z + 1) = f.mag z + S) (hv : S < 2 * v ∨ (2 * v = S ∧ z % 2 = 1)) :
    ∀ c, c < f.infBits → c ≠ z + 1 → |f.mag z + v - f.mag (z + 1)| < |f.mag z + v - f.mag c|
      ∨ (|f.mag z + v - f.mag (z + 1)| = |f.mag z + v - f.mag c| ∧ (z + 1) % 2 = 0) := by
  intro c hc n
  have b : |f.mag z + v - f.mag (z + 1)| = S - v := by rw [h1, abs_of_nonpos (by linarith)]; ring
  rw [b]
  rcases Nat.lt_or_gt_of_ne n with h | h
  · have := f.mag_le c z hp (by omega) (by omega)
    have a : |f.mag z + v - f.mag c| = f.mag z - f.mag c + v := by
      rw [abs_of_nonneg (by rcases hv with h | ⟨h, _⟩ <;> linarith)]; ring
    rw [a]
    rcases hv with h | ⟨h, ev⟩
    · exact .inl (by linarith)
    · rcases eq_or_lt_of_le this with h' | h'
      · exact .inr ⟨by linarith, by omega⟩
      · exact .inl (by linarith)
  · have := f.mag_lt (z + 1) c hp hc h
    refine .inl (lt_of_lt_of_le ?_ (neg_le_abs _))
    linarith

/-- R156, R162, R163: the bits that a magnitude is rounded to. -/
theorem roundMag_rounds (f : Fmt) (mode r n d : Nat) (hp : 2 ≤ f.p) (he : 2 ≤ f.e) (hm : mode < 3) (hr : r < 65536)
    (hd : 0 < d) : RoundsTo f mode r (n / d) (roundMag f mode r n d) := by
  obtain ⟨z, S, v, S0, v0, v1, hy, h1, hbig, htop, b, hb, hR⟩ := roundMag_place f mode r n d hp he hm hr hd
  rw [hR]
  clear hR
  obtain ⟨jm, eInf, top1, hstep⟩ := f.top_enc hp he
  have T2 : 2 ≤ 2 ^ (f.p - 1) := by
    calc 2 = 2 ^ 1 := rfl
      _ ≤ _ := Nat.pow_le_pow_right (by norm_num) (by omega)
  have inf4 : 4 ≤ f.infBits := by
    rw [eInf]
    calc 4 = 2 * 2 := rfl
      _ ≤ (jm + 2) * 2 ^ (f.p - 1) := Nat.mul_le_mul (by omega) T2
  have evenInf : f.infBits % 2 = 0 := by
    rw [eInf, Nat.mul_mod, show f.p - 1 = (f.p - 2) + 1 by omega, pow_succ]; simp
  have step0 : 0 < f.topStep := by rw [hstep]; positivity
  clear jm eInf top1 hstep T2
  generalize (n : ℚ) / d = y at *
  have bl : f.below y (if f.infBits ≤ z then f.infBits - 1 else z) := by
    split
    · next h => exact f.below_of y _ hp (by omega) (by linarith [hbig h]) fun h1 => by omega
    · next h =>
      exact f.below_of y _ hp (by omega) (by linarith [hy (by omega)]) fun h2 => by
        rw [h1 h2]; linarith [hy (by omega)]
  interval_cases mode
  · simp only [true_and, show (0 : Nat) ≠ 2 by decide, false_and, or_false, if_true] at hb ⊢
    show if f.mag (f.infBits - 1) + f.topStep / 2 ≤ y then _ else _
    by_cases h : f.infBits ≤ z
    · rw [if_pos (by linarith [hbig h]), if_pos]
      rw [hb]; split <;> omega
    have h : z < f.infBits := by omega
    by_cases h2 : z + 1 = f.infBits
    · rw [← htop h2]
      rw [hy h, show f.infBits - 1 = z by omega]
      by_cases h3 : S ≤ 2 * v
      · rw [if_pos (by linarith), if_pos]
        rw [hb, if_pos]
        · omega
        · rcases lt_or_eq_of_le h3 with h3 | h3
          · exact .inl h3
          · exact .inr ⟨h3.symm, by omega⟩
      · have hb : b = z := by rw [hb, if_neg]; rintro (h4 | ⟨h4, _⟩) <;> linarith
        rw [if_neg (by linarith), hb, if_neg (by omega)]
        exact ⟨h, f.nearest_below z S v hp h v0 (fun h => by omega) (.inl (by linarith))⟩
    · have h2 : z + 1 < f.infBits := by omega
      have le := f.mag_le (z + 1) (f.infBits - 1) hp (by omega) (by omega)
      rw [h1 h2] at le
      rw [hy h, if_neg (by linarith), if_neg (by rw [hb]; split <;> omega)]
      split at hb
      · next hc => rw [hb]; exact ⟨h2, f.nearest_above z S v hp h2 v1 (h1 h2) hc⟩
      · next hc =>
        rw [hb]
        push Not at hc
        refine ⟨h, f.nearest_below z S v hp h v0 h1 ?_⟩
        rcases lt_or_eq_of_le hc.1 with h3 | h3
        · exact .inl h3
        · exact .inr ⟨h3, by have := hc.2 h3; omega⟩
  · simp only [show (1 : Nat) ≠ 0 by decide, show (1 : Nat) ≠ 2 by decide, false_and, or_self, if_false] at hb ⊢
    rw [hb]
    exact bl
  · simp only [show (2 : Nat) ≠ 0 by decide, false_and, false_or, true_and, if_false] at hb ⊢
    refine ⟨_, bl, ?_⟩
    by_cases h : f.infBits ≤ z
    · rw [if_pos h, if_neg (c := f.infBits - 1 + 1 < f.infBits ∧ _) (by omega), if_pos]
      rw [hb]; split <;> omega
    · rw [if_neg h]
      by_cases h2 : z + 1 < f.infBits
      · have e : f.mag (z + 1) ≤ y + r / 65536 * (f.mag (z + 1) - f.mag z) ↔ S ≤ v + r / 65536 * S := by
          rw [h1 h2, hy (by omega), add_sub_cancel_left, add_assoc, add_le_add_iff_left]
        simp only [h2, true_and, e]
        rw [if_neg (by rw [hb]; split <;> omega), hb]
      · rw [if_neg (c := z + 1 < f.infBits ∧ _) (by omega)]
        split at hb
        · rw [hb, if_pos (by omega)]; omega
        · rw [hb, if_neg (by omega)]

end Sys2Proof.Machine
end

