-- ==== Sys2Proof/Laws/Approx.lean ====
section
/-! SUPPORT. The approximations of R185 keep their bounds: what decides them on rational numbers is sound for 1/√x, 1/x,
2^x, log2 x and tanh x, and the value that stands in for the stepping's own is within them (`approx_ok`). -/

namespace Sys2Proof.Machine

/-! ### e^z and 2^a -/

theorem expLo_le (z : ℚ) (h : 0 ≤ z) : ((expLo z : ℚ) : ℝ) ≤ Real.exp z := by
  have := Real.sum_le_exp_of_nonneg (x := (z : ℝ)) (by exact_mod_cast h) 30
  unfold expLo
  push_cast
  exact this

theorem le_expHi (z : ℚ) (h : 0 ≤ z) (h1 : z ≤ 1) : Real.exp z ≤ ((expHi z : ℚ) : ℝ) := by
  have := Real.exp_bound' (x := (z : ℝ)) (by exact_mod_cast h) (by exact_mod_cast h1) (n := 30) (by norm_num)
  unfold expHi expLo
  push_cast
  push_cast at this
  exact this

theorem expHi_sub (z : ℚ) (h : 0 ≤ z) (h1 : z ≤ 1) : expHi z ≤ expLo z + 1 / 2 ^ 100 := by
  unfold expHi
  have : z ^ 30 ≤ 1 := pow_le_one₀ h h1
  have h3 : (Nat.factorial 30 : ℕ) = 265252859812191058636308480000000 := by decide
  rw [h3]
  have : z ^ 30 * (30 + 1) / (((265252859812191058636308480000000 : ℕ) : ℚ) * 30) ≤ 1 / 2 ^ 100 := by
    rw [div_le_div_iff₀ (by norm_num) (by norm_num)]
    push_cast
    nlinarith
  linarith

theorem one_le_expLo (z : ℚ) (h : 0 ≤ z) : 1 ≤ expLo z := by
  unfold expLo
  rw [Finset.sum_range_succ']
  simp
  exact Finset.sum_nonneg fun i _ => by positivity

theorem ln2Lo_le : ((ln2Lo : ℚ) : ℝ) ≤ Real.log 2 := by
  rw [Real.le_log_iff_exp_le (by norm_num)]
  refine (le_expHi ln2Lo (by norm_num [ln2Lo]) (by norm_num [ln2Lo])).trans ?_
  have : expHi ln2Lo ≤ 2 := by decide +kernel
  exact_mod_cast this

theorem le_ln2Hi : Real.log 2 ≤ ((ln2Hi : ℚ) : ℝ) := by
  rw [Real.log_le_iff_le_exp (by norm_num)]
  refine le_trans ?_ (expLo_le ln2Hi (by norm_num [ln2Hi]))
  have : 2 ≤ expLo ln2Hi := by decide +kernel
  exact_mod_cast this

theorem exp_sub_le (a b : ℝ) : Real.exp b - Real.exp a ≤ Real.exp b * (b - a) := by
  have h := Real.add_one_le_exp (a - b)
  have e : Real.exp a = Real.exp b * Real.exp (a - b) := by rw [← Real.exp_add]; ring_nf
  have := Real.exp_pos b
  rw [e]; nlinarith

/-- The series at f × ln 2 is a lower and an upper bound of 2^f, each to 2^-90. -/
theorem expFrac (f : ℚ) (h0 : 0 ≤ f) (h1 : f ≤ 1) :
    ((expLo (f * ln2Lo) : ℚ) : ℝ) ≤ 2 ^ (f : ℝ) ∧ (2 : ℝ) ^ (f : ℝ) ≤ ((expHi (f * ln2Hi) : ℚ) : ℝ)
    ∧ (2 : ℝ) ^ (f : ℝ) ≤ ((expLo (f * ln2Lo) : ℚ) : ℝ) + 1 / 2 ^ 90
    ∧ ((expHi (f * ln2Hi) : ℚ) : ℝ) ≤ 2 ^ (f : ℝ) + 1 / 2 ^ 90 := by
  have r0 : (0 : ℝ) ≤ f := by exact_mod_cast h0
  have r1 : (f : ℝ) ≤ 1 := by exact_mod_cast h1
  have a0 : 0 ≤ f * ln2Lo := mul_nonneg h0 (by norm_num [ln2Lo])
  have a1 : f * ln2Lo ≤ 1 := mul_le_one₀ h1 (by norm_num [ln2Lo]) (by norm_num [ln2Lo])
  have b0 : 0 ≤ f * ln2Hi := mul_nonneg h0 (by norm_num [ln2Hi])
  have b1 : f * ln2Hi ≤ 1 := mul_le_one₀ h1 (by norm_num [ln2Hi]) (by norm_num [ln2Hi])
  have hz : (2 : ℝ) ^ (f : ℝ) = Real.exp (f * Real.log 2) := by
    rw [Real.rpow_def_of_pos (by norm_num), mul_comm]
  have l1 := expLo_le _ a0
  have l2 := le_expHi _ a0 a1
  have u1 := expLo_le _ b0
  have u2 := le_expHi _ b0 b1
  have c1 : ((expHi (f * ln2Lo) : ℚ) : ℝ) ≤ ((expLo (f * ln2Lo) + 1 / 2 ^ 100 : ℚ) : ℝ) := by
    exact_mod_cast expHi_sub _ a0 a1
  have c2 : ((expHi (f * ln2Hi) : ℚ) : ℝ) ≤ ((expLo (f * ln2Hi) + 1 / 2 ^ 100 : ℚ) : ℝ) := by
    exact_mod_cast expHi_sub _ b0 b1
  push_cast at l1 l2 u1 u2 c1 c2
  have m1 : (f : ℝ) * (ln2Lo : ℚ) ≤ f * Real.log 2 := mul_le_mul_of_nonneg_left ln2Lo_le r0
  have m2 : (f : ℝ) * Real.log 2 ≤ f * (ln2Hi : ℚ) := mul_le_mul_of_nonneg_left le_ln2Hi r0
  have w : (f : ℝ) * (ln2Hi : ℚ) - f * (ln2Lo : ℚ) ≤ 1 / 2 ^ 96 := by
    have : ((ln2Hi : ℚ) : ℝ) - ((ln2Lo : ℚ) : ℝ) = 1 / 2 ^ 96 := by norm_num [ln2Hi, ln2Lo]
    rw [← mul_sub, this]
    norm_num; linarith
  have e1 : Real.exp (f * (ln2Hi : ℚ)) ≤ 3 := by
    have h : (f : ℝ) * (ln2Hi : ℚ) ≤ 1 := by exact_mod_cast b1
    have := Real.exp_le_exp.mpr h
    have := Real.exp_one_lt_d9
    norm_num at this
    linarith
  have x1 := Real.exp_le_exp.mpr m1
  have x2 := Real.exp_le_exp.mpr m2
  have s1 := exp_sub_le ((f : ℝ) * (ln2Lo : ℚ)) (f * Real.log 2)
  have s2 := exp_sub_le (f * Real.log 2) ((f : ℝ) * (ln2Hi : ℚ))
  have t1 : Real.exp (f * Real.log 2) * (f * Real.log 2 - f * (ln2Lo : ℚ)) ≤ 3 * (1 / 2 ^ 96) :=
    mul_le_mul (x2.trans e1) (by linarith) (by linarith) (by norm_num)
  have t2 : Real.exp (f * (ln2Hi : ℚ)) * (f * (ln2Hi : ℚ) - f * Real.log 2) ≤ 3 * (1 / 2 ^ 96) :=
    mul_le_mul e1 (by linarith) (by linarith) (by norm_num)
  rw [hz]
  norm_num at c1 c2 t1 t2 ⊢
  refine ⟨?_, ?_, ?_, ?_⟩ <;> linarith

theorem rpow_floor (a : ℚ) : (2 : ℝ) ^ (a : ℝ) = 2 ^ ⌊a⌋ * 2 ^ ((Int.fract a : ℚ) : ℝ) := by
  rw [← Real.rpow_intCast, ← Real.rpow_add (by norm_num)]
  congr 1
  have h : ((⌊a⌋ : ℚ) + Int.fract a : ℚ) = a := Int.floor_add_fract a
  conv_lhs => rw [← h]
  push_cast
  rfl

theorem exp2_bounds (a : ℚ) : ((exp2Lo a : ℚ) : ℝ) ≤ 2 ^ (a : ℝ) ∧ (2 : ℝ) ^ (a : ℝ) ≤ ((exp2Hi a : ℚ) : ℝ)
    ∧ (2 : ℝ) ^ (a : ℝ) ≤ ((exp2Lo a : ℚ) : ℝ) + 2 ^ ⌊a⌋ / 2 ^ 90
    ∧ ((exp2Hi a : ℚ) : ℝ) ≤ 2 ^ (a : ℝ) + 2 ^ ⌊a⌋ / 2 ^ 90 := by
  obtain ⟨h1, h2, h3, h4⟩ := expFrac (Int.fract a) (Int.fract_nonneg a) (Int.fract_lt_one a).le
  have hz : (0 : ℝ) < 2 ^ ⌊a⌋ := by positivity
  have e1 : ((exp2Lo a : ℚ) : ℝ) = 2 ^ ⌊a⌋ * ((expLo (Int.fract a * ln2Lo) : ℚ) : ℝ) := by
    unfold exp2Lo; rw [Rat.cast_mul, Rat.cast_zpow]; norm_num
  have e2 : ((exp2Hi a : ℚ) : ℝ) = 2 ^ ⌊a⌋ * ((expHi (Int.fract a * ln2Hi) : ℚ) : ℝ) := by
    unfold exp2Hi; rw [Rat.cast_mul, Rat.cast_zpow]; norm_num
  rw [rpow_floor, e1, e2]
  refine ⟨?_, ?_, ?_, ?_⟩ <;> nlinarith

/-! ### A value that passes the test is within the bound -/

theorem ulpRat_cast (k : Int) : ((ulpRat k : ℚ) : ℝ) = 2 ^ max (k - 23) (-149) := by
  unfold ulpRat ulpExp; push_cast; rfl

theorem log_of_bounds (b : Nat) (hb : 1 < b) (y : ℝ) (k : Int) (h : (b : ℝ) ^ k ≤ y) (h' : y < (b : ℝ) ^ (k + 1)) :
    Int.log b y = k := by
  have hy : 0 < y := lt_of_lt_of_le (by positivity) h
  have h1 : k ≤ Int.log b y := (Int.zpow_le_iff_le_log hb hy).mp h
  have h2 : Int.log b y < k + 1 := (Int.lt_zpow_iff_log_lt hb hy).mp h'
  omega

theorem zpow_le_cast (b : Nat) (k : Int) (q : ℚ) (h : (b : ℚ) ^ k ≤ q) : (b : ℝ) ^ k ≤ (q : ℝ) := by
  have := Rat.cast_le (K := ℝ) |>.mpr h
  rwa [Rat.cast_zpow, Rat.cast_natCast] at this

theorem lt_zpow_cast (b : Nat) (k : Int) (q : ℚ) (h : q < (b : ℚ) ^ k) : (q : ℝ) < (b : ℝ) ^ k := by
  have := Rat.cast_lt (K := ℝ) |>.mpr h
  rwa [Rat.cast_zpow, Rat.cast_natCast] at this

theorem log_cast (b : Nat) (hb : 1 < b) (q : ℚ) (h : 0 < q) : Int.log b ((q : ℚ) : ℝ) = Int.log b q := by
  apply log_of_bounds b hb
  · exact zpow_le_cast _ _ _ (Int.zpow_log_le_self hb h)
  · exact lt_zpow_cast _ _ _ (Int.lt_zpow_succ_log_self hb q)

theorem near_sound (lo hi b q : ℚ) (y : ℝ) (h : near lo hi b q = true) (hl : (lo : ℝ) ≤ y) (hh : y ≤ (hi : ℝ)) :
    |(q : ℝ) - y| ≤ b := by
  simp only [near, Bool.and_eq_true, decide_eq_true_eq] at h
  have h1 : (hi : ℝ) ≤ q + b := by exact_mod_cast h.1
  have h2 : (q : ℝ) ≤ lo + b := by exact_mod_cast h.2
  rw [abs_le]; constructor <;> linarith

/-- The binade of √r. -/
theorem sqrt_binade (r : ℚ) (h : 0 < r) : Int.log 2 |√(r : ℝ)| = Int.log 4 r := by
  have h1 : ((4 : ℕ) : ℝ) ^ Int.log 4 r ≤ (r : ℝ) := zpow_le_cast _ _ _ (Int.zpow_log_le_self (by norm_num) h)
  have h2 : (r : ℝ) < ((4 : ℕ) : ℝ) ^ (Int.log 4 r + 1) := lt_zpow_cast _ _ _ (Int.lt_zpow_succ_log_self (by norm_num) r)
  have e : ∀ k : Int, ((4 : ℕ) : ℝ) ^ k = (2 ^ k) ^ 2 := fun k => by
    rw [← zpow_natCast, ← zpow_mul, mul_comm, zpow_mul]; norm_num
  rw [e] at h1 h2
  rw [abs_of_nonneg (Real.sqrt_nonneg _)]
  apply log_of_bounds 2 (by norm_num)
  · push_cast; exact Real.le_sqrt_of_sq_le h1
  · push_cast
    rw [Real.sqrt_lt' (by positivity)]; exact h2

theorem rsq_sound (x q : ℚ) (hx : 0 < x) (h : approxNear 0 x q = true) : ApproxOk 0 x q := by
  have hr : 0 < 1 / x := by positivity
  have e : 1 / √(x : ℝ) = √(((1 / x : ℚ)) : ℝ) := by push_cast; rw [Real.sqrt_div zero_le_one, Real.sqrt_one]
  simp only [ApproxOk, WithinUlps, e, sqrt_binade _ hr]
  simp only [approxNear, Bool.and_eq_true, Bool.or_eq_true, decide_eq_true_eq] at h
  obtain ⟨⟨h1, h2⟩, h3⟩ := h
  rw [← ulpRat_cast]
  have g1 : (0 : ℝ) ≤ q + (ulpRat (Int.log 4 (1 / x)) : ℚ) := by exact_mod_cast h1
  have g2 : ((1 / x : ℚ) : ℝ) ≤ (q + (ulpRat (Int.log 4 (1 / x)) : ℚ)) ^ 2 := by exact_mod_cast h2
  have u : √((1 / x : ℚ) : ℝ) ≤ q + (ulpRat (Int.log 4 (1 / x)) : ℚ) := Real.sqrt_le_iff.mpr ⟨g1, g2⟩
  have l : (q : ℝ) - (ulpRat (Int.log 4 (1 / x)) : ℚ) ≤ √((1 / x : ℚ) : ℝ) := by
    rcases h3 with h3 | h3
    · have : (q : ℝ) ≤ (ulpRat (Int.log 4 (1 / x)) : ℚ) := by exact_mod_cast h3
      have := Real.sqrt_nonneg ((1 / x : ℚ) : ℝ)
      linarith
    · exact Real.le_sqrt_of_sq_le (by exact_mod_cast h3)
  rw [abs_le]; push_cast at *; constructor <;> linarith

theorem rcp_sound (x q : ℚ) (hx : x ≠ 0) (h : approxNear 1 x q = true) : ApproxOk 1 x q := by
  have hr : 0 < |1 / x| := by positivity
  have := near_sound _ _ _ _ ((1 / x : ℚ) : ℝ) h le_rfl le_rfl
  have e : Int.log 2 |1 / (x : ℝ)| = Int.log 2 |1 / x| := by
    rw [← log_cast 2 (by norm_num) _ hr]; push_cast; rfl
  simp only [ApproxOk, WithinUlps, e]
  rw [ulpRat_cast] at this
  push_cast at this ⊢
  linarith

theorem exp2_binade (x : ℚ) : Int.log 2 |(2 : ℝ) ^ (x : ℝ)| = ⌊x⌋ := by
  rw [abs_of_pos (by positivity)]
  apply log_of_bounds 2 (by norm_num) <;> push_cast <;> rw [← Real.rpow_intCast]
  · apply Real.rpow_le_rpow_of_exponent_le (by norm_num)
    exact_mod_cast Int.floor_le x
  · apply Real.rpow_lt_rpow_of_exponent_lt (by norm_num)
    exact_mod_cast Int.lt_floor_add_one x

theorem exp2_sound (x q : ℚ) (h : approxNear 2 x q = true) : ApproxOk 2 x q := by
  obtain ⟨h1, h2, -⟩ := exp2_bounds x
  have := near_sound _ _ _ _ _ h h1 h2
  simp only [ApproxOk, WithinUlps, exp2_binade]
  push_cast [ulpRat_cast] at this ⊢
  exact this

/-- ⌊|log2 x|⌋ and the sign of log2 x. -/
theorem log2Floor_spec (x : ℚ) (hx : 0 < x) :
    (log2Floor x : ℝ) ≤ |Real.logb 2 x| ∧ |Real.logb 2 x| < log2Floor x + 1 ∧ 0 ≤ log2Floor x := by
  have key : ∀ z : ℚ, 1 ≤ z → (Int.log 2 z : ℝ) ≤ Real.logb 2 z ∧ Real.logb 2 z < Int.log 2 z + 1 ∧ 0 ≤ Int.log 2 z
      ∧ 0 ≤ Real.logb 2 z := by
    intro z hz
    have hz0 : 0 < z := by linarith
    have r0 : (0 : ℝ) < z := by exact_mod_cast hz0
    have r1 : (1 : ℝ) ≤ z := by exact_mod_cast hz
    refine ⟨?_, ?_, ?_, Real.logb_nonneg (by norm_num) r1⟩
    · rw [Real.le_logb_iff_rpow_le (by norm_num) r0, Real.rpow_intCast]
      exact_mod_cast zpow_le_cast 2 _ _ (Int.zpow_log_le_self (b := 2) (by norm_num) hz0)
    · rw [Real.logb_lt_iff_lt_rpow (by norm_num) r0]
      have := Int.lt_zpow_succ_log_self (b := 2) (by norm_num) z
      have h2 : ((z : ℚ) : ℝ) < (2 : ℝ) ^ (Int.log 2 z + 1 : ℤ) := by exact_mod_cast lt_zpow_cast 2 _ _ this
      rw [← Real.rpow_intCast] at h2
      exact_mod_cast h2
    · rw [← Int.zpow_le_iff_le_log (by norm_num) hz0]; simpa using hz
  unfold log2Floor
  split
  · next h =>
    obtain ⟨a, b, c, d⟩ := key x h
    rw [abs_of_nonneg d]; exact ⟨a, b, c⟩
  · next h =>
    have h1 : 1 ≤ 1 / x := by rw [le_div_iff₀ hx]; linarith
    obtain ⟨a, b, c, d⟩ := key (1 / x) h1
    have e : |Real.logb 2 (x : ℝ)| = Real.logb 2 ((1 / x : ℚ) : ℝ) := by
      push_cast
      rw [one_div, Real.logb_inv, abs_of_nonpos]
      push_cast at d; rw [one_div, Real.logb_inv] at d; linarith
    rw [e]; exact ⟨a, b, c⟩

/-- Where |log2 x| is 1 or more, its binade is that of its whole part. -/
theorem log2_binade (x : ℚ) (hx : 0 < x) (h : ¬ (1 / 2 ≤ x ∧ x ≤ 2)) :
    1 ≤ log2Floor x ∧ Int.log 2 |Real.logb 2 (x : ℝ)| = Int.log 2 (log2Floor x : ℚ) := by
  obtain ⟨h1, h2, h3⟩ := log2Floor_spec x hx
  have e1 : 1 ≤ log2Floor x := by
    unfold log2Floor
    split
    · next h4 =>
      rw [← Int.zpow_le_iff_le_log (by norm_num) hx]
      have : ¬ x ≤ 2 := fun h5 => h ⟨by linarith, h5⟩
      push_cast; linarith
    · next h4 =>
      rw [← Int.zpow_le_iff_le_log (by norm_num) (by positivity)]
      have : ¬ 1 / 2 ≤ x := fun h5 => h ⟨h5, by linarith⟩
      norm_num
      rw [le_inv_comm₀ (by norm_num) hx]; linarith
  refine ⟨e1, ?_⟩
  have ep : (0 : ℚ) < (log2Floor x : ℚ) := by exact_mod_cast (by omega : 0 < log2Floor x)
  apply log_of_bounds 2 (by norm_num)
  · have := Int.zpow_log_le_self (b := 2) (by norm_num) ep
    have g : ((2 : ℕ) : ℝ) ^ Int.log 2 (log2Floor x : ℚ) ≤ (log2Floor x : ℝ) := by
      have g := zpow_le_cast _ _ _ this
      exact_mod_cast g
    exact g.trans h1
  · have h4 := Int.lt_zpow_succ_log_self (b := 2) (by norm_num) (log2Floor x : ℚ)
    have h5 : 0 ≤ Int.log 2 (log2Floor x : ℚ) := by
      rw [← Int.zpow_le_iff_le_log (by norm_num) ep]; simpa using (by exact_mod_cast e1 : (1 : ℚ) ≤ log2Floor x)
    obtain ⟨n, hn⟩ : ∃ n : ℕ, Int.log 2 (log2Floor x : ℚ) + 1 = n := ⟨_, (Int.toNat_of_nonneg (by omega)).symm⟩
    rw [hn] at h4 ⊢
    have h6 : log2Floor x < 2 ^ n := by exact_mod_cast h4
    have h7 : (log2Floor x : ℝ) + 1 ≤ 2 ^ n := by exact_mod_cast h6
    push_cast; rw [zpow_natCast]; linarith

theorem log2_sound (x q : ℚ) (hx : 0 < x) (h : approxNear 3 x q = true) : ApproxOk 3 x q := by
  simp only [approxNear, Bool.and_eq_true, decide_eq_true_eq] at h
  obtain ⟨⟨-, h1⟩, h2⟩ := h
  have r0 : (0 : ℝ) < x := by exact_mod_cast hx
  have u : ((q - log2Bound x : ℚ) : ℝ) ≤ Real.logb 2 x := by
    rw [Real.le_logb_iff_rpow_le (by norm_num) r0]
    exact (exp2_bounds _).2.1.trans (by exact_mod_cast h1)
  have l : Real.logb 2 x ≤ ((q + log2Bound x : ℚ) : ℝ) := by
    rw [Real.logb_le_iff_le_rpow (by norm_num) r0]
    exact le_trans (by exact_mod_cast h2) (exp2_bounds _).1
  have key : |(q : ℝ) - Real.logb 2 x| ≤ (log2Bound x : ℚ) := by
    push_cast at u l
    rw [abs_le]; constructor <;> linarith
  simp only [ApproxOk]
  have c : (1 / 2 ≤ (x : ℝ) ∧ (x : ℝ) ≤ 2) ↔ (1 / 2 ≤ x ∧ x ≤ 2) := by
    constructor
    · rintro ⟨a, b⟩; constructor
      · have : ((1 / 2 : ℚ) : ℝ) ≤ x := by push_cast; exact a
        exact_mod_cast this
      · exact_mod_cast b
    · rintro ⟨a, b⟩; constructor
      · have : ((1 / 2 : ℚ) : ℝ) ≤ x := by exact_mod_cast a
        push_cast at this; exact this
      · exact_mod_cast b
  unfold log2Bound at key
  split at key
  · next hc => rw [if_pos (c.mpr hc)]; push_cast at key; exact key
  · next hc =>
    rw [if_neg (fun hh => hc (c.mp hh))]
    unfold WithinUlps
    rw [(log2_binade x hx hc).2]
    push_cast [ulpRat_cast] at key ⊢
    exact key

/-! ### tanh -/

theorem tanh_eq_exp (x : ℝ) : Real.tanh x = 1 - 2 / (Real.exp (2 * x) + 1) := by
  rw [Real.tanh_eq_sinh_div_cosh, Real.sinh_eq, Real.cosh_eq, Real.exp_neg, two_mul, Real.exp_add]
  have := Real.exp_pos x
  field_simp
  ring

theorem tanh_le_self (x : ℝ) (h : 0 ≤ x) : Real.tanh x ≤ x := by
  rw [Real.tanh_eq_sinh_div_cosh, div_le_iff₀ (Real.cosh_pos x)]
  have := Convex.image_sub_le_mul_sub_of_deriv_le (convex_Icc 0 x) (f := Real.sinh) (C := Real.cosh x)
    Real.continuous_sinh.continuousOn Real.differentiable_sinh.differentiableOn
    (fun y hy => by
      rw [Real.deriv_sinh, Real.cosh_le_cosh]
      rw [interior_Icc] at hy
      rw [abs_of_pos hy.1, abs_of_nonneg h]; exact hy.2.le)
    0 ⟨le_rfl, h⟩ x ⟨h, le_rfl⟩ h
  simp at this
  linarith

theorem sub_cube_le_tanh (x : ℝ) (h : 0 ≤ x) : x - x ^ 3 ≤ Real.tanh x := by
  rw [tanh_eq_exp]
  have h1 := Real.quadratic_le_exp_of_nonneg (x := 2 * x) (by linarith)
  have h2 : 2 / (Real.exp (2 * x) + 1) ≤ 2 / (2 + 2 * x + 2 * x ^ 2) :=
    div_le_div_of_nonneg_left (by norm_num) (by positivity) (by linarith)
  have h3 : 2 / (2 + 2 * x + 2 * x ^ 2) = 1 / (1 + x + x ^ 2) := by
    rw [div_eq_div_iff (by positivity) (by positivity)]; ring
  have h4 : 1 / (1 + x + x ^ 2) ≤ 1 - (x - x ^ 3) := by
    rw [div_le_iff₀ (by positivity)]
    have : 0 ≤ x ^ 4 + x ^ 5 := by positivity
    nlinarith
  linarith

theorem frac_mono (a b : ℝ) (ha : 0 < a) (h : a ≤ b) : (a - 1) / (a + 1) ≤ (b - 1) / (b + 1) := by
  rw [div_le_div_iff₀ (by linarith) (by linarith)]; nlinarith

theorem tanh_frac (x : ℝ) : Real.tanh x = (Real.exp (2 * x) - 1) / (Real.exp (2 * x) + 1) := by
  rw [tanh_eq_exp]
  have := Real.exp_pos (2 * x)
  field_simp; ring

theorem exp_pow32 (x : ℚ) : Real.exp (2 * (x : ℝ)) = Real.exp ((x / 16 : ℚ) : ℝ) ^ 32 := by
  rw [← Real.exp_nat_mul]; push_cast; ring_nf

theorem tanh_bounds (x : ℚ) (h0 : 0 < x) (h9 : x ≤ 9) :
    ((tanhLo x : ℚ) : ℝ) ≤ Real.tanh x ∧ Real.tanh x ≤ ((tanhHi x : ℚ) : ℝ) := by
  have r0 : (0 : ℝ) ≤ x := by exact_mod_cast h0.le
  unfold tanhLo tanhHi
  split
  · push_cast; exact ⟨sub_cube_le_tanh _ r0, tanh_le_self _ r0⟩
  · have z0 : 0 ≤ x / 16 := by positivity
    have z1 : x / 16 ≤ 1 := by linarith
    have e0 : (1 : ℝ) ≤ (expLo (x / 16) : ℚ) := by exact_mod_cast one_le_expLo _ z0
    have l : (((expLo (x / 16) : ℚ) : ℝ)) ^ 32 ≤ Real.exp (2 * (x : ℝ)) := by
      rw [exp_pow32]; exact pow_le_pow_left₀ (by linarith) (expLo_le _ z0) _
    have u : Real.exp (2 * (x : ℝ)) ≤ ((expHi (x / 16) : ℚ) : ℝ) ^ 32 := by
      rw [exp_pow32]; exact pow_le_pow_left₀ (Real.exp_pos _).le (le_expHi _ z0 z1) _
    rw [tanh_frac]
    push_cast
    exact ⟨frac_mono _ _ (by positivity) l, frac_mono _ _ (Real.exp_pos _) u⟩

/-- The lower bound of tanh is good to a part in 2^40. -/
theorem tanhLo_close (x : ℚ) (h0 : 0 < x) (h9 : x ≤ 9) :
    Real.tanh x ≤ ((tanhLo x : ℚ) : ℝ) * (1 + 1 / 2 ^ 40) ∧ 0 < tanhLo x ∧ tanhLo x < 1 := by
  have r0 : (0 : ℝ) < x := by exact_mod_cast h0
  unfold tanhLo
  split
  · next h =>
    have c : x ^ 3 ≤ x * (1 / 2 ^ 48) := by
      have : x ^ 2 ≤ (1 / 2 ^ 24) ^ 2 := pow_le_pow_left₀ h0.le h.le 2
      have e : x ^ 3 = x * x ^ 2 := by ring
      rw [e]
      exact mul_le_mul_of_nonneg_left (this.trans (by norm_num)) h0.le
    have c' : (x : ℝ) ^ 3 ≤ x * (1 / 2 ^ 48) := by
      have := (Rat.cast_le (K := ℝ)).mpr c
      push_cast at this; exact this
    have hx1 : x < 1 := h.trans (by norm_num)
    have p3 : 0 < x ^ 3 := by positivity
    refine ⟨?_, ?_, by linarith⟩
    · have := tanh_le_self x r0.le
      push_cast
      norm_num at c' ⊢
      linarith
    · norm_num at c; linarith
  · next h =>
    have z0 : 0 ≤ x / 16 := by positivity
    have z1 : x / 16 ≤ 1 := by linarith
    have hx : 1 / 2 ^ 24 ≤ x := not_lt.mp h
    set s : ℚ := expLo (x / 16) with hs
    have s1 : 1 ≤ s := one_le_expLo _ z0
    have sx : 1 + x / 16 ≤ s := by
      rw [hs]; unfold expLo
      rw [Finset.sum_range_succ', Finset.sum_range_succ']
      have : 0 ≤ ∑ k ∈ Finset.range 28, (x / 16) ^ (k + 1 + 1) / ((k + 1 + 1).factorial : ℚ) :=
        Finset.sum_nonneg fun i _ => by positivity
      simp at *; linarith
    have t : Real.exp ((x / 16 : ℚ) : ℝ) ≤ (s : ℝ) * (1 + 1 / 2 ^ 100) := by
      have h1 := le_expHi _ z0 z1
      have h2 : ((expHi (x / 16) : ℚ) : ℝ) ≤ ((s + 1 / 2 ^ 100 : ℚ) : ℝ) := by exact_mod_cast expHi_sub _ z0 z1
      have s1' : (1 : ℝ) ≤ s := by exact_mod_cast s1
      push_cast at h2
      norm_num at *
      nlinarith
    have tp : Real.exp (2 * (x : ℝ)) ≤ (s : ℝ) ^ 32 * (1 + 1 / 2 ^ 94) := by
      rw [exp_pow32]
      calc _ ≤ ((s : ℝ) * (1 + 1 / 2 ^ 100)) ^ 32 := pow_le_pow_left₀ (Real.exp_pos _).le t _
        _ = (s : ℝ) ^ 32 * (1 + 1 / 2 ^ 100) ^ 32 := mul_pow _ _ _
        _ ≤ _ := by
          apply mul_le_mul_of_nonneg_left _ (by positivity)
          norm_num
    have e1 : 1 + 2 * x ≤ s ^ 32 := by
      calc 1 + 2 * x = 1 + (32 : ℕ) * (x / 16) := by push_cast; ring
        _ ≤ (1 + x / 16) ^ 32 := one_add_mul_le_pow (by linarith) 32
        _ ≤ s ^ 32 := pow_le_pow_left₀ (by positivity) sx _
    set e : ℚ := s ^ 32 with he
    have er : ((e : ℚ) : ℝ) = (s : ℝ) ^ 32 := by rw [he]; push_cast; rfl
    have e1' : 1 + 2 * (x : ℝ) ≤ e := by exact_mod_cast e1
    have hx' : (1 : ℝ) / 2 ^ 24 ≤ x := by
      have : ((1 / 2 ^ 24 : ℚ) : ℝ) ≤ x := by exact_mod_cast hx
      push_cast at this; exact this
    rw [← er] at tp
    have ep : (0 : ℝ) < e := by linarith
    refine ⟨?_, ?_, ?_⟩
    · rw [tanh_frac]
      refine (frac_mono _ _ (Real.exp_pos _) tp).trans ?_
      push_cast
      rw [div_mul_eq_mul_div, div_le_div_iff₀ (by positivity) (by positivity)]
      norm_num at *
      nlinarith
    · exact div_pos (by linarith) (by linarith)
    · rw [div_lt_one (by linarith)]; linarith

/-! ### The words of f32 -/

/-- The fields of an f32 word. -/
theorem ofBits_fields (neg : Bool) (ex fr : Nat) (he : ex < 255) (hf : fr < 2 ^ 23) :
    f32 (BitVec.ofNat 32 ((if neg then 2 ^ 31 else 0) + (ex * 2 ^ 23 + fr))) =
      if ex = 0 then dyadic neg fr (-149) else dyadic neg (2 ^ 23 + fr) (-149 + ex - 1) := by
  unfold f32 FV.ofBits
  have hb : (BitVec.ofNat 32 ((if neg then 2 ^ 31 else 0) + (ex * 2 ^ 23 + fr))).toNat =
      (if neg then 2 ^ 31 else 0) + (ex * 2 ^ 23 + fr) := by
    rw [BitVec.toNat_ofNat, Nat.mod_eq_of_lt]
    split <;> omega
  rw [hb]
  have e1 : fmtF32.emin = -149 := by decide
  have e2 : fmtF32.signBit = 2 ^ 31 := by decide
  have e3 : fmtF32.p - 1 = 23 := by decide
  have e4 : fmtF32.e = 8 := by decide
  simp only [e1, e2, e3, e4]
  have n1 : ((if neg then 2 ^ 31 else 0) + (ex * 2 ^ 23 + fr)) / 2 ^ 31 % 2 = if neg then 1 else 0 := by
    split <;> omega
  have n2 : ((if neg then 2 ^ 31 else 0) + (ex * 2 ^ 23 + fr)) / 2 ^ 23 % 2 ^ 8 = ex := by
    split <;> omega
  have n3 : ((if neg then 2 ^ 31 else 0) + (ex * 2 ^ 23 + fr)) % 2 ^ 23 = fr := by
    split <;> omega
  rw [n1, n2, n3, if_neg (by omega)]
  have : ((if neg = true then 1 else 0 : Nat) == 1) = neg := by cases neg <;> rfl
  rw [this]

/-- The bits that `packF32` makes hold the value. -/
theorem pack_rat (neg : Bool) (m : Nat) (k : Int) (hm : m ≤ 2 ^ 24) (hk : -149 ≤ k) (hv : (m : ℚ) * 2 ^ k < 2 ^ 128) :
    (f32 (packF32 neg m k)).isFin = true ∧ (f32 (packF32 neg m k)).rat = (if neg then -1 else 1) * (m * 2 ^ k) := by
  unfold packF32
  by_cases h0 : m = 0
  · have := ofBits_fields neg 0 0 (by omega) (by omega)
    simp only [h0, if_true]
    simp only [Nat.zero_mul, Nat.add_zero, if_true] at this
    simp only [Nat.add_zero]
    rw [this]
    obtain ⟨a, b⟩ := dyadic_rat neg 0 (-149)
    rw [a, b]; simp
  simp only [h0, if_false]
  set s := min (23 - Nat.log2 m) (k + 149).toNat with hs
  obtain ⟨e, he⟩ : ∃ e : ℕ, k - s + 149 = e := ⟨(k - s + 149).toNat, by omega⟩
  rw [show (k - (s : Int) + 149).toNat = e by omega]
  have hl : m * 2 ^ s ≤ 2 ^ 24 := by
    by_cases h : m.log2 ≤ 23
    · have h1 : m < 2 ^ (m.log2 + 1) := Nat.lt_log2_self
      calc m * 2 ^ s ≤ 2 ^ (m.log2 + 1) * 2 ^ (23 - m.log2) :=
            Nat.mul_le_mul h1.le (Nat.pow_le_pow_right (by omega) (by omega))
        _ = 2 ^ 24 := by rw [← pow_add]; congr 1; omega
    · have : s = 0 := by omega
      rw [this]; simpa using hm
  have hn : 2 ^ 23 ≤ m * 2 ^ s ∨ e = 0 := by
    by_cases h : s = (k + 149).toNat
    · right; omega
    · left
      have h1 : s = 23 - m.log2 := by omega
      have h2 : 2 ^ m.log2 ≤ m := Nat.log2_self_le h0
      rw [h1]
      by_cases h3 : m.log2 ≤ 23
      · calc 2 ^ 23 = 2 ^ m.log2 * 2 ^ (23 - m.log2) := by rw [← pow_add]; congr 1; omega
          _ ≤ _ := Nat.mul_le_mul_right _ h2
      · have : 23 - m.log2 = 0 := by omega
        rw [this]
        have : 2 ^ 23 ≤ 2 ^ m.log2 := Nat.pow_le_pow_right (by omega) (by omega)
        omega
  have hval : (m : ℚ) * 2 ^ k = (m * 2 ^ s : ℕ) * 2 ^ ((e : Int) - 149) := by
    rw [show (e : Int) - 149 = k - s by omega, zpow_sub₀ (by norm_num), zpow_natCast]
    push_cast; field_simp
  rw [hval] at hv ⊢
  generalize m * 2 ^ s = M at *
  have he2 : M = 2 ^ 24 ∨ 2 ^ 23 ≤ M → (e : Int) + 23 - 149 < 128 := by
    intro h
    have h1 : (2 : ℚ) ^ (23 : ℤ) ≤ M := by
      have : 2 ^ 23 ≤ M := by omega
      exact_mod_cast this
    have h2 : (2 : ℚ) ^ ((23 : ℤ) + ((e : Int) - 149)) < 2 ^ (128 : ℤ) := by
      rw [zpow_add₀ (by norm_num)]
      refine lt_of_le_of_lt (mul_le_mul_of_nonneg_right h1 (by positivity)) ?_
      exact_mod_cast hv
    have := (zpow_lt_zpow_iff_right₀ (by norm_num : (1 : ℚ) < 2)).mp h2
    omega
  have he3 : M = 2 ^ 24 → (e : Int) + 24 - 149 < 128 := by
    intro h
    have h2 : (2 : ℚ) ^ ((24 : ℤ) + ((e : Int) - 149)) < 2 ^ (128 : ℤ) := by
      rw [zpow_add₀ (by norm_num)]
      rw [h] at hv
      exact_mod_cast hv
    have := (zpow_lt_zpow_iff_right₀ (by norm_num : (1 : ℚ) < 2)).mp h2
    omega
  rcases Nat.lt_or_ge M (2 ^ 23) with h1 | h1
  · have e0 : e = 0 := by omega
    subst e0
    rw [show 0 * 2 ^ 23 + M = 0 * 2 ^ 23 + M from rfl, ofBits_fields neg 0 M (by omega) h1]
    obtain ⟨a, b⟩ := dyadic_rat neg M (-149)
    simp only [if_true, a, b]; simp
  · rcases Nat.lt_or_ge M (2 ^ 24) with h2 | h2
    · have := he2 (.inr h1)
      rw [show e * 2 ^ 23 + M = (e + 1) * 2 ^ 23 + (M - 2 ^ 23) by omega,
        ofBits_fields neg (e + 1) (M - 2 ^ 23) (by omega) (by omega), if_neg (by omega)]
      obtain ⟨a, b⟩ := dyadic_rat neg (2 ^ 23 + (M - 2 ^ 23)) (-149 + ((e + 1 : ℕ) : Int) - 1)
      rw [a, b]
      rw [show 2 ^ 23 + (M - 2 ^ 23) = M by omega,
        show -149 + ((e + 1 : ℕ) : Int) - 1 = (e : Int) - 149 by push_cast; ring]
      simp
    · have hM : M = 2 ^ 24 := by omega
      have := he3 hM
      rw [show e * 2 ^ 23 + M = (e + 2) * 2 ^ 23 + 0 by omega,
        ofBits_fields neg (e + 2) 0 (by omega) (by omega), if_neg (by omega)]
      obtain ⟨a, b⟩ := dyadic_rat neg (2 ^ 23 + 0) (-149 + ((e + 2 : ℕ) : Int) - 1)
      rw [a, b, hM]
      rw [show -149 + ((e + 2 : ℕ) : Int) - 1 = 1 + ((e : Int) - 149) by push_cast; ring, zpow_add₀ (by norm_num)]
      refine ⟨rfl, ?_⟩
      push_cast; ring

/-! ### tanh, and the value taken where the stepping's own is not within the bound -/

theorem tanh_ok (x q : ℚ) (h0 : x ≠ 0) (h9 : |x| ≤ 9)
    (h : |((if x < 0 then -q else q : ℚ) : ℝ) - Real.tanh ((|x| : ℚ) : ℝ)| ≤
      ((min (2 * ulpRat (Int.log 2 (tanhLo |x|))) (1 / 2 ^ 24) : ℚ) : ℝ)) : ApproxOk 4 x q := by
  have hp : 0 < |x| := abs_pos.mpr h0
  obtain ⟨-, l0, -⟩ := tanhLo_close |x| hp h9
  have lo := (tanh_bounds |x| hp h9).1
  have lp : (0 : ℝ) < (tanhLo |x| : ℚ) := by exact_mod_cast l0
  have e1 : |(q : ℝ) - Real.tanh x| = |((if x < 0 then -q else q : ℚ) : ℝ) - Real.tanh ((|x| : ℚ) : ℝ)| := by
    split
    · next hn =>
      rw [abs_of_neg hn]; push_cast; rw [Real.tanh_neg, ← abs_neg]; congr 1; ring
    · next hn => rw [abs_of_nonneg (not_lt.mp hn)]
  have e2 : |Real.tanh (x : ℝ)| = Real.tanh ((|x| : ℚ) : ℝ) := by
    rcases lt_or_ge x 0 with hn | hn
    · rw [abs_of_neg hn]; push_cast; rw [Real.tanh_neg, abs_of_nonpos]
      rw [abs_of_neg hn] at lo lp; push_cast at lo; rw [Real.tanh_neg] at lo; linarith
    · rw [abs_of_nonneg hn] at lo lp ⊢; rw [abs_of_nonneg]; linarith
  have mono : ((ulpRat (Int.log 2 (tanhLo |x|)) : ℚ) : ℝ) ≤
      2 ^ max (Int.log 2 (Real.tanh ((|x| : ℚ) : ℝ)) - 23) (-149) := by
    rw [ulpRat_cast, ← log_cast 2 (by norm_num) _ l0]
    apply zpow_le_zpow_right₀ (by norm_num)
    have := Int.log_mono_right (b := 2) lp lo
    omega
  rw [← e1] at h
  push_cast at h
  have h1 := h.trans (min_le_left _ _)
  have h2 := h.trans (min_le_right _ _)
  refine ⟨?_, h2⟩
  unfold WithinUlps
  rw [e2]
  push_cast at mono ⊢
  linarith

theorem tanh_sound (x q : ℚ) (h0 : x ≠ 0) (h9 : |x| ≤ 9) (h : approxNear 4 x q = true) : ApproxOk 4 x q := by
  obtain ⟨l, u⟩ := tanh_bounds |x| (abs_pos.mpr h0) h9
  exact tanh_ok x q h0 h9 (near_sound _ _ _ _ _ h l u)

/-! ### The value that is taken where the stepping's own is not within the bound -/

/-- The value of what `approxBase` answers. -/
def baseRat (b : Bool × Nat × Int) : ℚ := (if b.1 then -1 else 1) * (b.2.1 * 2 ^ b.2.2)

/-- It is the value of an f32 word. -/
def Packs (b : Bool × Nat × Int) : Prop := b.2.1 ≤ 2 ^ 24 ∧ -149 ≤ b.2.2 ∧ (b.2.1 : ℚ) * 2 ^ b.2.2 < 2 ^ 128

theorem ulpRat_pos (k : Int) : 0 < ulpRat k := by unfold ulpRat; positivity

theorem le_ulpRat (k : Int) : (2 : ℚ) ^ (k - 23) ≤ ulpRat k :=
  zpow_le_zpow_right₀ (by norm_num) (by unfold ulpExp; omega)

theorem ulps_le (k : Int) (m : Nat) (h : (m : ℚ) * ulpRat k < 2 ^ (k + 1)) : m ≤ 2 ^ 24 := by
  have h1 := le_ulpRat k
  have h2 : (m : ℚ) * 2 ^ (k - 23) < 2 ^ (k + 1) := lt_of_le_of_lt (mul_le_mul_of_nonneg_left h1 (by positivity)) h
  have e : (2 : ℚ) ^ (k + 1) = 2 ^ 24 * 2 ^ (k - 23) := by
    rw [← zpow_natCast, ← zpow_add₀ (by norm_num)]; congr 1; push_cast; ring
  rw [e] at h2
  have h3 : (m : ℚ) < 2 ^ 24 := lt_of_mul_lt_mul_right h2 (by positivity)
  have : m < 2 ^ 24 := by exact_mod_cast h3
  omega

theorem floor_ulps (Y : ℚ) (k : Int) (h0 : 0 ≤ Y) :
    (⌊Y / ulpRat k⌋₊ : ℚ) * ulpRat k ≤ Y ∧ Y < (⌊Y / ulpRat k⌋₊ : ℚ) * ulpRat k + ulpRat k := by
  have hu := ulpRat_pos k
  have h1 := Nat.floor_le (div_nonneg h0 hu.le)
  have h2 := Nat.lt_floor_add_one (Y / ulpRat k)
  rw [le_div_iff₀ hu] at h1
  rw [div_lt_iff₀ hu] at h2
  exact ⟨h1, by linarith⟩

/-- A magnitude below 2^(k+1), in steps of the binade's spacing, packs. -/
theorem packs (neg : Bool) (m : Nat) (k : Int) (h : (m : ℚ) * ulpRat k < 2 ^ (k + 1)) (hk : k ≤ 127) :
    Packs (neg, m, ulpExp k) := by
  refine ⟨ulps_le k m h, by simp only [ulpExp]; omega, lt_of_lt_of_le h ?_⟩
  have : (2 : ℚ) ^ (k + 1) ≤ 2 ^ (128 : ℤ) := zpow_le_zpow_right₀ (by norm_num) (by omega)
  exact_mod_cast this

theorem rsq_base (x : ℚ) (hx : 1 / 2 ^ 149 ≤ x) : Packs (approxBase 0 x) ∧ ApproxOk 0 x (baseRat (approxBase 0 x)) := by
  have hp : 0 < x := lt_of_lt_of_le (by norm_num) hx
  have hr : 0 < 1 / x := by positivity
  simp only [approxBase]
  set k := Int.log 4 (1 / x) with hk
  set u := ulpRat k with hu
  have up : 0 < u := ulpRat_pos k
  set m := Nat.sqrt ⌊1 / x / u ^ 2⌋₊ with hm
  have e4 : ∀ j : Int, ((4 : ℕ) : ℚ) ^ j = (2 ^ j) ^ 2 := fun j => by
    rw [← zpow_natCast, ← zpow_mul, mul_comm, zpow_mul]; norm_num
  have b1 : ((2 : ℚ) ^ k) ^ 2 ≤ 1 / x := by rw [← e4]; exact Int.zpow_log_le_self (by norm_num) hr
  have b2 : 1 / x < ((2 : ℚ) ^ (k + 1)) ^ 2 := by rw [← e4]; exact Int.lt_zpow_succ_log_self (by norm_num) _
  have f1 : ((m * u) ^ 2 : ℚ) ≤ 1 / x := by
    have h1 : m ^ 2 ≤ ⌊1 / x / u ^ 2⌋₊ := Nat.sqrt_le' _
    have h2 : ((m ^ 2 : ℕ) : ℚ) ≤ 1 / x / u ^ 2 := le_trans (by exact_mod_cast h1) (Nat.floor_le (by positivity))
    rw [le_div_iff₀ (by positivity)] at h2
    push_cast at h2; rw [mul_pow]; exact h2
  have f2 : 1 / x < ((m + 1) * u : ℚ) ^ 2 := by
    have h1 : ⌊1 / x / u ^ 2⌋₊ < (m + 1) ^ 2 := Nat.lt_succ_sqrt' _
    have h2 : 1 / x / u ^ 2 < (((m + 1) ^ 2 : ℕ) : ℚ) :=
      lt_of_lt_of_le (Nat.lt_floor_add_one _) (by exact_mod_cast h1)
    rw [div_lt_iff₀ (by positivity)] at h2
    push_cast at h2; rw [mul_pow]; exact h2
  have g1 : (m : ℚ) * u < 2 ^ (k + 1) := lt_of_pow_lt_pow_left₀ 2 (by positivity) (lt_of_le_of_lt f1 b2)
  have k127 : k ≤ 127 := by
    have h1 : ((2 : ℚ) ^ k) ^ 2 ≤ 2 ^ (149 : ℤ) := b1.trans (by
      rw [div_le_iff₀ hp]
      have : (2 : ℚ) ^ (149 : ℤ) * (1 / 2 ^ 149) ≤ 2 ^ (149 : ℤ) * x := mul_le_mul_of_nonneg_left hx (by positivity)
      norm_num at this ⊢; linarith)
    rw [← zpow_natCast, ← zpow_mul] at h1
    have := (zpow_le_zpow_iff_right₀ (by norm_num : (1 : ℚ) < 2)).mp h1
    push_cast at this; omega
  refine ⟨packs _ _ _ g1 k127, ?_⟩
  have e : 1 / √(x : ℝ) = √(((1 / x : ℚ)) : ℝ) := by push_cast; rw [Real.sqrt_div zero_le_one, Real.sqrt_one]
  have hb : baseRat (false, m, ulpExp k) = m * u := by simp [baseRat, hu, ulpRat]
  rw [hb]
  simp only [ApproxOk, WithinUlps, e, sqrt_binade _ hr]
  rw [← ulpRat_cast]
  have l : ((m * u : ℚ) : ℝ) ≤ √((1 / x : ℚ) : ℝ) := Real.le_sqrt_of_sq_le (by exact_mod_cast f1)
  have r : √((1 / x : ℚ) : ℝ) < (((m + 1) * u : ℚ) : ℝ) :=
    (Real.sqrt_lt' (by exact_mod_cast (by positivity : 0 < (m + 1) * u))).mpr (by exact_mod_cast f2)
  push_cast at *
  rw [abs_le]; constructor <;> linarith

theorem rcp_base (x : ℚ) (hx : x ≠ 0) (hy : |1 / x| < 2 ^ 128) :
    Packs (approxBase 1 x) ∧ ApproxOk 1 x (baseRat (approxBase 1 x)) := by
  have hr : 0 < |1 / x| := by positivity
  simp only [approxBase]
  set k := Int.log 2 |1 / x| with hk
  obtain ⟨f1, f2⟩ := floor_ulps |1 / x| k hr.le
  set m := ⌊|1 / x| / ulpRat k⌋₊
  have b1 : (2 : ℚ) ^ k ≤ |1 / x| := by exact_mod_cast Int.zpow_log_le_self (b := 2) (by norm_num) hr
  have b2 : |1 / x| < (2 : ℚ) ^ (k + 1) := by exact_mod_cast Int.lt_zpow_succ_log_self (b := 2) (by norm_num) |1 / x|
  have k127 : k ≤ 127 := by
    have : (2 : ℚ) ^ k < 2 ^ (128 : ℤ) := lt_of_le_of_lt b1 (by exact_mod_cast hy)
    have := (zpow_lt_zpow_iff_right₀ (by norm_num : (1 : ℚ) < 2)).mp this
    omega
  refine ⟨packs _ _ _ (lt_of_le_of_lt f1 b2) k127, ?_⟩
  have e : Int.log 2 |1 / (x : ℝ)| = k := by
    rw [hk, ← log_cast 2 (by norm_num) _ hr]; push_cast; rfl
  simp only [ApproxOk, WithinUlps, e]
  rw [← ulpRat_cast]
  have key : |baseRat (decide (x < 0), m, ulpExp k) - 1 / x| ≤ ulpRat k := by
    have hb : baseRat (decide (x < 0), m, ulpExp k) = (if x < 0 then -1 else 1) * (m * ulpRat k) := by
      simp [baseRat, ulpRat]
    rw [hb]
    rcases lt_or_ge x 0 with hn | hn
    · have : |1 / x| = -(1 / x) := abs_of_neg (one_div_neg.mpr hn)
      rw [if_pos hn, abs_le]; rw [this] at f1 f2; constructor <;> linarith
    · have : |1 / x| = 1 / x := abs_of_nonneg (by positivity)
      rw [if_neg (not_lt.mpr hn), abs_le]; rw [this] at f1 f2; constructor <;> linarith
  have key' := (Rat.cast_le (K := ℝ)).mpr key
  push_cast at key' ⊢
  linarith

theorem exp2_base (x : ℚ) (h2 : x < 128) :
    Packs (approxBase 2 x) ∧ ApproxOk 2 x (baseRat (approxBase 2 x)) := by
  simp only [approxBase]
  obtain ⟨l, -, c, -⟩ := exp2_bounds x
  have lp : 0 ≤ exp2Lo x := by
    unfold exp2Lo
    have := one_le_expLo (Int.fract x * ln2Lo) (mul_nonneg (Int.fract_nonneg x) (by norm_num [ln2Lo]))
    exact mul_nonneg (by positivity) (by linarith)
  obtain ⟨f1, f2⟩ := floor_ulps (exp2Lo x) ⌊x⌋ lp
  set m := ⌊exp2Lo x / ulpRat ⌊x⌋⌋₊
  have b : exp2Lo x < 2 ^ (⌊x⌋ + 1) := by
    have : (2 : ℝ) ^ (x : ℝ) < 2 ^ ((⌊x⌋ + 1 : ℤ) : ℝ) :=
      Real.rpow_lt_rpow_of_exponent_lt (by norm_num) (by exact_mod_cast Int.lt_floor_add_one x)
    rw [Real.rpow_intCast] at this
    have h := lt_of_le_of_lt l this
    rw [← Rat.cast_lt (K := ℝ), Rat.cast_zpow]; push_cast; exact h
  have k127 : ⌊x⌋ ≤ 127 := by
    have : ⌊x⌋ < 128 := Int.floor_lt.mpr (by exact_mod_cast h2)
    omega
  refine ⟨packs _ _ _ (lt_of_le_of_lt f1 b) k127, ?_⟩
  have hb : baseRat (false, m, ulpExp ⌊x⌋) = m * ulpRat ⌊x⌋ := by simp [baseRat, ulpRat]
  rw [hb]
  simp only [ApproxOk, WithinUlps, exp2_binade]
  have w : (2 : ℝ) ^ ⌊x⌋ / 2 ^ 90 ≤ (ulpRat ⌊x⌋ : ℚ) := by
    have h1 := (Rat.cast_le (K := ℝ)).mpr (le_ulpRat ⌊x⌋)
    rw [Rat.cast_zpow] at h1
    refine le_trans ?_ h1
    push_cast
    rw [zpow_sub₀ (by norm_num)]
    have : (0 : ℝ) < 2 ^ ⌊x⌋ := by positivity
    exact div_le_div_of_nonneg_left this.le (by norm_num) (by norm_num)
  have f1' := (Rat.cast_le (K := ℝ)).mpr f1
  have f2' := (Rat.cast_lt (K := ℝ)).mpr f2
  push_cast [ulpRat_cast] at *
  rw [abs_le]; constructor <;> linarith

/-- Bit after bit: the bits found are certain, and the next one up is not. -/
theorem log2Bits_spec (z : ℚ) (hz : 1 ≤ z) : ∀ (i m : Nat), ((m : ℚ) + 2 ^ i ≤ 2 ^ 24) →
    (2 : ℝ) ^ (((m : ℚ) / 2 ^ 24 : ℚ) : ℝ) ≤ z → z < exp2Hi ((m + 2 ^ i : Nat) / 2 ^ 24) →
    (2 : ℝ) ^ (((log2Bits z i m : ℚ) / 2 ^ 24 : ℚ) : ℝ) ≤ z ∧ z < exp2Hi ((log2Bits z i m + 1 : Nat) / 2 ^ 24)
      ∧ log2Bits z i m < 2 ^ 24
  | 0, m, hm, h1, h2 => by
    refine ⟨h1, by simpa [log2Bits] using h2, ?_⟩
    simp only [log2Bits]
    rw [pow_zero] at hm
    have : m + 1 ≤ 2 ^ 24 := by exact_mod_cast hm
    omega
  | i + 1, m, hm, h1, h2 => by
    unfold log2Bits
    have e : (2 : ℚ) ^ (i + 1) = 2 ^ i + 2 ^ i := by ring
    have ip : (0 : ℚ) < 2 ^ i := by positivity
    split
    · next h =>
      apply log2Bits_spec z hz i (m + 2 ^ i)
      · push_cast; linarith
      · refine le_trans ?_ ((Rat.cast_le (K := ℝ)).mpr h)
        have := (exp2_bounds (((m + 2 ^ i : Nat) : ℚ) / 2 ^ 24)).2.1
        exact this
      · rw [show m + 2 ^ i + 2 ^ i = m + 2 ^ (i + 1) by ring]; exact h2
    · next h =>
      apply log2Bits_spec z hz i m
      · linarith
      · exact h1
      · exact not_le.mp h

/-- log2 of z to 2^-24 and a little. -/
theorem log2Bits_close (z : ℚ) (hz : 1 ≤ z) (h2 : z < 2) :
    ((log2Bits z 24 0 : ℚ) / 2 ^ 24 : ℚ) ≤ Real.logb 2 z
    ∧ Real.logb 2 z ≤ ((log2Bits z 24 0 : ℚ) / 2 ^ 24 : ℚ) + 1 / 2 ^ 24 + 1 / 2 ^ 30 ∧ log2Bits z 24 0 < 2 ^ 24 := by
  have r0 : (0 : ℝ) < z := by exact_mod_cast (by linarith : 0 < z)
  have s := log2Bits_spec z hz 24 0 (by norm_num) (by simpa using (by exact_mod_cast hz : (1 : ℝ) ≤ z))
    (by
      have e : exp2Hi (((0 + 2 ^ 24 : Nat) : ℚ) / 2 ^ 24) = 2 := by decide +kernel
      rw [e]; exact h2)
  obtain ⟨a, b, c⟩ := s
  refine ⟨?_, ?_, c⟩
  · rw [Real.le_logb_iff_rpow_le (by norm_num) r0]; exact a
  · set n := log2Bits z 24 0
    set y : ℚ := ((n + 1 : ℕ) : ℚ) / 2 ^ 24 with hy
    have b' := (Rat.cast_lt (K := ℝ)).mpr b
    have hc := (exp2_bounds y).2.2.2
    have y1 : y ≤ 1 := by
      rw [hy, div_le_one (by positivity)]; exact_mod_cast (by omega : n + 1 ≤ 2 ^ 24)
    have y0 : 0 ≤ y := by positivity
    have fl : ⌊y⌋ ≤ 1 := Int.floor_le_iff.mpr (by push_cast; linarith)
    have f2 : (2 : ℝ) ^ ⌊y⌋ ≤ 2 ^ (1 : ℤ) := zpow_le_zpow_right₀ (by norm_num) fl
    have p1 : (1 : ℝ) ≤ 2 ^ (y : ℝ) := Real.one_le_rpow (by norm_num) (by exact_mod_cast y0)
    -- z ≤ 2^y (1 + 2^-89) ≤ 2^(y + 2^-30)
    have g : (z : ℝ) ≤ 2 ^ (y : ℝ) * (1 + 1 / 2 ^ 89) := by
      rw [zpow_one] at f2
      have : (2 : ℝ) ^ ⌊y⌋ / 2 ^ 90 ≤ 1 / 2 ^ 89 := by
        rw [div_le_div_iff₀ (by positivity) (by positivity)]
        norm_num; linarith
      have : (2 : ℝ) ^ (y : ℝ) * (1 / 2 ^ 89) ≥ 1 / 2 ^ 89 := le_mul_of_one_le_left (by positivity) p1
      linarith
    have g2 : (1 + 1 / 2 ^ 89 : ℝ) ≤ 2 ^ (1 / 2 ^ 30 : ℝ) := by
      rw [Real.rpow_def_of_pos (by norm_num)]
      have := Real.add_one_le_exp (Real.log 2 * (1 / 2 ^ 30))
      have := Real.log_two_gt_d9
      norm_num at *
      linarith
    rw [Real.logb_le_iff_le_rpow (by norm_num) r0]
    refine g.trans ?_
    have e : (((n : ℚ) / 2 ^ 24 : ℚ) : ℝ) + 1 / 2 ^ 24 + 1 / 2 ^ 30 = (y : ℝ) + 1 / 2 ^ 30 := by
      rw [hy]; push_cast; ring
    rw [e, Real.rpow_add (by norm_num)]
    exact mul_le_mul_of_nonneg_left g2 (by positivity)

theorem log2_base (x : ℚ) (h1 : 1 / 2 ^ 149 ≤ x) (h2 : x < 2 ^ 128) :
    Packs (approxBase 3 x) ∧ ApproxOk 3 x (baseRat (approxBase 3 x)) := by
  have hx : 0 < x := lt_of_lt_of_le (by norm_num) h1
  obtain ⟨s1, s2, s3⟩ := log2Floor_spec x hx
  set e := log2Floor x with he
  set z : ℚ := if 1 ≤ x then x else 1 / x with hz
  have z1 : 1 ≤ z := by
    rw [hz]; split
    · assumption
    · next h => rw [le_div_iff₀ hx]; linarith
  have zp : 0 < z := by linarith
  have ez : e = Int.log 2 z := rfl
  have a1 : (2 : ℚ) ^ e ≤ z := by exact_mod_cast Int.zpow_log_le_self (b := 2) (by norm_num) zp
  have a2 : z < (2 : ℚ) ^ (e + 1) := by exact_mod_cast Int.lt_zpow_succ_log_self (b := 2) (by norm_num) z
  have pe : (0 : ℚ) < 2 ^ e := by positivity
  obtain ⟨c1, c2, c3⟩ := log2Bits_close (z / 2 ^ e) (by rw [le_div_iff₀ pe]; linarith)
    (by rw [div_lt_iff₀ pe]; rw [zpow_add_one₀ (by norm_num)] at a2; linarith)
  set f := log2Bits (z / 2 ^ e) 24 0 with hf
  have elog : Real.logb 2 ((z / 2 ^ e : ℚ) : ℝ) = Real.logb 2 z - e := by
    push_cast
    rw [Real.logb_div (by exact_mod_cast zp.ne') (by positivity), ← Real.rpow_intCast,
      Real.logb_rpow (by norm_num) (by norm_num)]
  have esign : Real.logb 2 (x : ℝ) = (if x < 1 then -1 else 1) * Real.logb 2 z := by
    rw [hz]
    rcases lt_or_ge x 1 with h | h
    · rw [if_pos h, if_neg (not_le.mpr h)]; push_cast; rw [one_div, Real.logb_inv]; ring
    · rw [if_neg (not_lt.mpr h), if_pos h]; ring
  rw [elog] at c1 c2
  have ebound : e ≤ 149 := by
    have hz2 : z ≤ 2 ^ (149 : ℤ) := by
      rw [hz]; split
      · exact h2.le.trans (by norm_num)
      · rw [div_le_iff₀ hx]
        have : (2 : ℚ) ^ (149 : ℤ) * (1 / 2 ^ 149) ≤ 2 ^ (149 : ℤ) * x := mul_le_mul_of_nonneg_left h1 (by positivity)
        norm_num at this ⊢; linarith
    exact (zpow_le_zpow_iff_right₀ (by norm_num : (1 : ℚ) < 2)).mp (a1.trans hz2)
  -- the distance from log2 x is that of the magnitudes
  have dist : ∀ v : ℚ, |(((if x < 1 then -1 else 1) * v : ℚ) : ℝ) - Real.logb 2 x| = |(v : ℝ) - Real.logb 2 z| := by
    intro v
    rw [esign]
    rcases lt_or_ge x 1 with h | h
    · rw [if_pos h, if_pos h, ← abs_neg]; congr 1; push_cast; ring
    · rw [if_neg (not_lt.mpr h), if_neg (not_lt.mpr h)]; congr 1; push_cast; ring
  have inside : (1 / 2 ≤ (x : ℝ) ∧ (x : ℝ) ≤ 2) → (1 / 2 ≤ x ∧ x ≤ 2) := by
    rintro ⟨a, b⟩
    refine ⟨?_, by exact_mod_cast b⟩
    have : ((1 / 2 : ℚ) : ℝ) ≤ x := by push_cast; exact a
    exact_mod_cast this
  simp only [approxBase]
  rw [← he, ← hz, ← hf]
  by_cases e0 : e = 0
  · rw [if_pos e0]
    have hb : baseRat (decide (x < 1), f, -24) = (if x < 1 then -1 else 1) * (f / 2 ^ 24) := by
      simp only [baseRat, decide_eq_true_eq]
      rw [zpow_neg, ← div_eq_mul_inv]; norm_cast
    refine ⟨⟨c3.le, by norm_num, ?_⟩, ?_⟩
    · have : (f : ℚ) ≤ 2 ^ 24 := by exact_mod_cast c3.le
      have p : (0 : ℚ) < 2 ^ (-24 : ℤ) := by positivity
      calc (f : ℚ) * 2 ^ (-24 : ℤ) ≤ 2 ^ 24 * 2 ^ (-24 : ℤ) := mul_le_mul_of_nonneg_right this p.le
        _ < 2 ^ 128 := by norm_num
    · rw [hb]
      simp only [ApproxOk]
      have hin : 1 / 2 ≤ (x : ℝ) ∧ (x : ℝ) ≤ 2 := by
        have zz : z < 2 := by rw [e0] at a2; norm_num at a2; exact a2
        have : 1 / 2 ≤ x ∧ x ≤ 2 := by
          rw [hz] at zz; split at zz
          · next h => exact ⟨by linarith, zz.le⟩
          · next h =>
            rw [div_lt_iff₀ hx] at zz
            exact ⟨by linarith, by linarith⟩
        refine ⟨?_, by exact_mod_cast this.2⟩
        have g := (Rat.cast_le (K := ℝ)).mpr this.1
        push_cast at g; exact g
      rw [if_pos hin, dist]
      rw [e0] at c1 c2
      push_cast at c1 c2 ⊢
      rw [abs_le]
      constructor <;> norm_num at * <;> linarith
  · rw [if_neg e0]
    have e1 : 1 ≤ e := by omega
    have eq1 : (1 : ℚ) ≤ e := by exact_mod_cast e1
    have ep : (0 : ℚ) < e := by linarith
    set k := Int.log 2 (e : ℚ) with hk
    set Y : ℚ := (e : ℚ) + f / 2 ^ 24 with hY
    have Yp : 0 ≤ Y := by rw [hY]; positivity
    obtain ⟨f1, f2⟩ := floor_ulps Y k Yp
    set m := ⌊Y / ulpRat k⌋₊
    have k0 : 0 ≤ k := by rw [hk, ← Int.zpow_le_iff_le_log (by norm_num) ep]; simpa using eq1
    have kup : (e : ℚ) + 1 ≤ 2 ^ (k + 1) := by
      have h4 := Int.lt_zpow_succ_log_self (b := 2) (by norm_num) (e : ℚ)
      rw [← hk] at h4
      obtain ⟨n, hn⟩ : ∃ n : ℕ, k + 1 = n := ⟨_, (Int.toNat_of_nonneg (by omega)).symm⟩
      rw [hn] at h4 ⊢
      have h6 : e < 2 ^ n := by exact_mod_cast h4
      exact_mod_cast (by omega : e + 1 ≤ 2 ^ n)
    have Yub : Y < 2 ^ (k + 1) := by
      have : (f : ℚ) / 2 ^ 24 < 1 := by rw [div_lt_one (by positivity)]; exact_mod_cast c3
      rw [hY]; linarith
    have k127 : k ≤ 127 := by
      have h4 := Int.zpow_log_le_self (b := 2) (by norm_num) ep
      rw [← hk] at h4
      have h5 : (2 : ℚ) ^ k < 2 ^ (8 : ℤ) := by
        refine lt_of_le_of_lt (by exact_mod_cast h4) ?_
        have : (e : ℚ) ≤ 149 := by exact_mod_cast ebound
        norm_num; linarith
      have := (zpow_lt_zpow_iff_right₀ (by norm_num : (1 : ℚ) < 2)).mp h5
      omega
    refine ⟨packs _ _ _ (lt_of_le_of_lt f1 Yub) k127, ?_⟩
    have hb : baseRat (decide (x < 1), m, ulpExp k) = (if x < 1 then -1 else 1) * (m * ulpRat k) := by
      simp [baseRat, ulpRat]
    rw [hb]
    have u23 : 1 / 2 ^ 23 ≤ ulpRat k := by
      refine le_trans ?_ (le_ulpRat k)
      rw [zpow_sub₀ (by norm_num)]
      have : (1 : ℚ) ≤ 2 ^ k := one_le_zpow₀ (by norm_num) k0
      have : (1 : ℚ) / 2 ^ 23 ≤ 2 ^ k / 2 ^ 23 := div_le_div_of_nonneg_right this (by positivity)
      exact_mod_cast this
    have key : |((m * ulpRat k : ℚ) : ℝ) - Real.logb 2 z| ≤ (ulpRat k : ℚ) + 1 / 2 ^ 24 + 1 / 2 ^ 30 := by
      have f1' := (Rat.cast_le (K := ℝ)).mpr f1
      have f2' := (Rat.cast_lt (K := ℝ)).mpr f2
      rw [hY] at f1' f2'
      push_cast at f1' f2' c1 c2 ⊢
      have up : (0 : ℝ) < (ulpRat k : ℚ) := by exact_mod_cast ulpRat_pos k
      rw [abs_le]
      constructor <;> norm_num at * <;> linarith
    have u23' : (1 : ℝ) / 2 ^ 23 ≤ (ulpRat k : ℚ) := by
      have := (Rat.cast_le (K := ℝ)).mpr u23
      push_cast at this; exact this
    simp only [ApproxOk]
    split
    · next hin =>
      obtain ⟨i1, i2⟩ := inside hin
      have zle : z ≤ 2 := by
        rw [hz]; split
        · exact i2
        · rw [div_le_iff₀ hx]; linarith
      have e2 : e ≤ 1 := by
        have : (2 : ℚ) ^ e ≤ 2 ^ (1 : ℤ) := a1.trans (by simpa using zle)
        exact (zpow_le_zpow_iff_right₀ (by norm_num : (1 : ℚ) < 2)).mp this
      have ee : e = 1 := by omega
      have kk : k = 0 := by rw [hk, ee]; simp
      rw [dist]
      refine key.trans ?_
      rw [ulpRat_cast, kk]; norm_num
    · next hin =>
      have hnot : ¬ (1 / 2 ≤ x ∧ x ≤ 2) := by
        rintro ⟨i1, i2⟩
        apply hin
        refine ⟨?_, by exact_mod_cast i2⟩
        have g := (Rat.cast_le (K := ℝ)).mpr i1
        push_cast at g; exact g
      unfold WithinUlps
      rw [(log2_binade x hx hnot).2, dist]
      refine key.trans ?_
      rw [← he, ← hk, ← ulpRat_cast]
      push_cast
      norm_num at *
      linarith

theorem tanh_base (x : ℚ) (h0 : x ≠ 0) (h9 : |x| ≤ 9) :
    Packs (approxBase 4 x) ∧ ApproxOk 4 x (baseRat (approxBase 4 x)) := by
  have hp : 0 < |x| := abs_pos.mpr h0
  obtain ⟨c, l0, l1⟩ := tanhLo_close |x| hp h9
  have lo := (tanh_bounds |x| hp h9).1
  simp only [approxBase]
  set t := tanhLo |x|
  set k := Int.log 2 t with hk
  have b1 : (2 : ℚ) ^ k ≤ t := by exact_mod_cast Int.zpow_log_le_self (b := 2) (by norm_num) l0
  have b2 : t < (2 : ℚ) ^ (k + 1) := by exact_mod_cast Int.lt_zpow_succ_log_self (b := 2) (by norm_num) t
  have kneg : k ≤ -1 := by
    have : (2 : ℚ) ^ k < 2 ^ (0 : ℤ) := lt_of_le_of_lt b1 (by simpa using l1)
    have := (zpow_lt_zpow_iff_right₀ (by norm_num : (1 : ℚ) < 2)).mp this
    omega
  set u := ulpRat k with hu
  have up : 0 < u := ulpRat_pos k
  set m := ⌊t / u + 1 / 2⌋₊ with hm
  have g1 := Nat.floor_le (a := t / u + 1 / 2) (by positivity)
  have g2 := Nat.lt_floor_add_one (t / u + 1 / 2)
  rw [← hm] at g1 g2
  have f1 : (m : ℚ) * u ≤ t + u / 2 := by
    have := mul_le_mul_of_nonneg_right g1 up.le
    rw [add_mul, div_mul_cancel₀ _ up.ne'] at this; linarith
  have f2 : t - u / 2 < (m : ℚ) * u := by
    have := mul_lt_mul_of_pos_right g2 up
    rw [add_mul, div_mul_cancel₀ _ up.ne'] at this; linarith
  have u24 : u ≤ 1 / 2 ^ 24 := by
    have : (2 : ℚ) ^ ulpExp k ≤ 2 ^ (-24 : ℤ) := zpow_le_zpow_right₀ (by norm_num) (by unfold ulpExp; omega)
    refine this.trans ?_; norm_num
  have m24 : m ≤ 2 ^ 24 := by
    have h1 : t / u < 2 ^ 24 := by
      rw [div_lt_iff₀ up]
      refine lt_of_lt_of_le b2 ?_
      have h := le_ulpRat k
      rw [zpow_sub₀ (by norm_num)] at h
      rw [zpow_add_one₀ (by norm_num)]
      norm_num at h ⊢; linarith
    have : (m : ℚ) < 2 ^ 24 + 1 := by linarith
    have : m < 2 ^ 24 + 1 := by exact_mod_cast this
    omega
  refine ⟨⟨m24, by simp only [ulpExp]; omega, ?_⟩, ?_⟩
  · have : (m : ℚ) * 2 ^ ulpExp k ≤ t + u / 2 := f1
    refine lt_of_le_of_lt this ?_
    norm_num at *; linarith
  have hb : (if x < 0 then -(baseRat (decide (x < 0), m, ulpExp k)) else baseRat (decide (x < 0), m, ulpExp k)) = m * u := by
    simp only [baseRat, decide_eq_true_eq, hu, ulpRat]
    split <;> ring
  apply tanh_ok x _ h0 h9
  rw [hb]
  have key : |((m * u : ℚ) : ℝ) - Real.tanh ((|x| : ℚ) : ℝ)| ≤ (u : ℝ) := by
    have w : (t : ℝ) * (1 / 2 ^ 40) ≤ u / 2 := by
      have : t * (1 / 2 ^ 40) ≤ u / 2 := by
        have h := le_ulpRat k
        rw [zpow_sub₀ (by norm_num)] at h
        rw [zpow_add_one₀ (by norm_num)] at b2
        norm_num at h ⊢; linarith
      have := (Rat.cast_le (K := ℝ)).mpr this
      push_cast at this; exact this
    have f1' := (Rat.cast_le (K := ℝ)).mpr f1
    have f2' := (Rat.cast_lt (K := ℝ)).mpr f2
    push_cast at f1' f2' ⊢
    push_cast at lo c
    rw [abs_le]
    constructor <;> linarith
  refine key.trans ?_
  have : u ≤ min (2 * u) (1 / 2 ^ 24) := le_min (by linarith) u24
  exact_mod_cast this

/-- What a finite f32 word holds. -/
theorem f32_range (a : BitVec 32) (h : (f32 a).isFin = true) :
    (f32 a).rat = 0 ∨ (1 / 2 ^ 149 ≤ |(f32 a).rat| ∧ |(f32 a).rat| < 2 ^ 128) := by
  have sgn : ∀ (neg : Bool) (r : ℚ), 0 ≤ r → |(if neg = true then (-1 : ℚ) else 1) * r| = r := by
    intro neg r hr; cases neg <;> simp [abs_of_nonneg hr]
  have key : ∀ (neg : Bool) (n : Nat) (k : Int), -149 ≤ k → n < 2 ^ 24 → k ≤ 104 → n ≠ 0 →
      1 / 2 ^ 149 ≤ |(dyadic neg n k).rat| ∧ |(dyadic neg n k).rat| < 2 ^ 128 := by
    intro neg n k h1 h2 h3 h4
    rw [(dyadic_rat neg n k).1, sgn _ _ (by positivity)]
    have p : (0 : ℚ) < 2 ^ k := by positivity
    have n1 : (1 : ℚ) ≤ n := by exact_mod_cast Nat.one_le_iff_ne_zero.mpr h4
    constructor
    · calc (1 : ℚ) / 2 ^ 149 = 2 ^ (-149 : ℤ) := by norm_num
        _ ≤ 2 ^ k := zpow_le_zpow_right₀ (by norm_num) h1
        _ ≤ n * 2 ^ k := le_mul_of_one_le_left p.le n1
    · have n2 : (n : ℚ) < 2 ^ 24 := by exact_mod_cast h2
      calc (n : ℚ) * 2 ^ k < 2 ^ 24 * 2 ^ k := mul_lt_mul_of_pos_right n2 p
        _ ≤ 2 ^ 24 * 2 ^ (104 : ℤ) := mul_le_mul_of_nonneg_left (zpow_le_zpow_right₀ (by norm_num) h3) (by norm_num)
        _ = 2 ^ 128 := by norm_num
  have e1 : fmtF32.emin = -149 := by decide
  have e3 : fmtF32.p - 1 = 23 := by decide
  have e4 : fmtF32.e = 8 := by decide
  revert h
  unfold f32 FV.ofBits
  simp only [e1, e3, e4]
  generalize (a.toNat / fmtF32.signBit % 2 == 1) = neg
  split
  · split <;> simp [FV.isFin]
  · next h1 =>
    intro _
    split
    · by_cases h0 : a.toNat % 2 ^ 23 = 0
      · left; rw [h0, (dyadic_rat neg 0 (-149)).1]; simp
      · right; exact key neg _ _ (by omega) (by omega) (by omega) h0
    · right; exact key neg _ _ (by omega) (by omega) (by omega) (by omega)

/-- Where no exact case of R185 applies, the approximation is within its bound. -/
theorem approx_ok (op : Nat) (a : BitVec 32) (ho : op < 5) (hf : (f32 a).isFin = true)
    (hc : approxSpecial op (f32 a) = none) :
    (f32 (approx op a)).isFin = true ∧ ApproxOk op (f32 a).rat (f32 (approx op a)).rat := by
  have hr := f32_range a hf
  unfold approx
  rw [hc]
  obtain ⟨s, n, d, hv⟩ : ∃ s n d, f32 a = .fin s n d := by
    cases h : f32 a with
    | nan => simp [h, FV.isFin] at hf
    | inf s => simp [h, FV.isFin] at hf
    | fin s n d => exact ⟨s, n, d, rfl⟩
  have hc' : approxCase op s (f32 a).rat = none := by rw [← hc, hv]; rfl
  generalize (f32 a).rat = x at *
  have goal : ∀ b : Bool × Nat × Int, Packs b → ApproxOk op x (baseRat b) →
      (f32 (packF32 b.1 b.2.1 b.2.2)).isFin = true ∧ ApproxOk op x (f32 (packF32 b.1 b.2.1 b.2.2)).rat := by
    rintro b ⟨h1, h2, h3⟩ h4
    obtain ⟨p1, p2⟩ := pack_rat b.1 b.2.1 b.2.2 h1 h2 h3
    exact ⟨p1, by rw [p2]; exact h4⟩
  simp only
  have dom : x ≠ 0 ∧ (op = 0 ∨ op = 3 → 0 < x) ∧ (op = 1 → |1 / x| < 2 ^ 128) ∧ (op = 2 → x < 128)
      ∧ (op = 4 → |x| < 9) ∨ (op = 2 ∧ x < 128) := by
    have hop : op = 0 ∨ op = 1 ∨ op = 2 ∨ op = 3 ∨ op = 4 := by omega
    rcases hop with rfl | rfl | rfl | rfl | rfl <;> simp only [approxCase] at hc'
    · by_cases h0 : x = 0
      · simp [h0] at hc'
      · by_cases h1 : x < 0
        · simp [h0, h1] at hc'
        · exact .inl ⟨h0, fun _ => lt_of_le_of_ne (not_lt.mp h1) (Ne.symm h0), by omega, by omega, by omega⟩
    · by_cases h0 : x = 0 ∨ 2 ^ 128 ≤ |1 / x|
      · rw [if_pos h0] at hc'; simp at hc'
      · push Not at h0
        exact .inl ⟨h0.1, by omega, fun _ => h0.2, by omega, by omega⟩
    · by_cases h0 : 128 ≤ x
      · simp [h0] at hc'
      · exact .inr ⟨rfl, not_le.mp h0⟩
    · by_cases h0 : x = 0
      · simp [h0] at hc'
      · by_cases h1 : x < 0
        · simp [h0, h1] at hc'
        · exact .inl ⟨h0, fun _ => lt_of_le_of_ne (not_lt.mp h1) (Ne.symm h0), by omega, by omega, by omega⟩
    · by_cases h0 : x = 0
      · simp [h0] at hc'
      · by_cases h1 : 9 ≤ |x|
        · simp [h0, h1] at hc'
        · exact .inl ⟨h0, by omega, by omega, by omega, fun _ => not_le.mp h1⟩
  have pos : 0 < x → 1 / 2 ^ 149 ≤ x ∧ x < 2 ^ 128 := fun hp => by
    rcases hr with h | h
    · exact absurd h hp.ne'
    · rwa [abs_of_pos hp] at h
  have hop : op = 0 ∨ op = 1 ∨ op = 2 ∨ op = 3 ∨ op = 4 := by omega
  split
  · next hq =>
    rw [Bool.and_eq_true] at hq
    refine ⟨hq.1, ?_⟩
    rcases dom with ⟨h0, h1, h2, h3, h4⟩ | ⟨rfl, h⟩
    · rcases hop with rfl | rfl | rfl | rfl | rfl
      · exact rsq_sound x _ (h1 (by omega)) hq.2
      · exact rcp_sound x _ h0 hq.2
      · exact exp2_sound x _ hq.2
      · exact log2_sound x _ (h1 (by omega)) hq.2
      · exact tanh_sound x _ h0 (h4 rfl).le hq.2
    · exact exp2_sound x _ hq.2
  · rcases dom with ⟨h0, h1, h2, h3, h4⟩ | ⟨rfl, h⟩
    · rcases hop with rfl | rfl | rfl | rfl | rfl
      · exact goal _ (rsq_base x (pos (h1 (by omega))).1).1 (rsq_base x (pos (h1 (by omega))).1).2
      · exact goal _ (rcp_base x h0 (h2 rfl)).1 (rcp_base x h0 (h2 rfl)).2
      · exact goal _ (exp2_base x (h3 rfl)).1 (exp2_base x (h3 rfl)).2
      · obtain ⟨a1, a2⟩ := pos (h1 (by omega))
        exact goal _ (log2_base x a1 a2).1 (log2_base x a1 a2).2
      · exact goal _ (tanh_base x h0 (h4 rfl).le).1 (tanh_base x h0 (h4 rfl).le).2
    · exact goal _ (exp2_base x h).1 (exp2_base x h).2

/-- A value that is exact is within any bound. -/
theorem within_self (n : Nat) (q y : ℝ) (h : q = y) : WithinUlps n q y := by
  subst h; unfold WithinUlps; rw [sub_self, abs_zero]; positivity

/-- A power of a base among the values of f32. -/
theorem zpow_lt_of (b : ℚ) (k m : Int) (hb : 1 < b) (h : b ^ k < b ^ m) : k < m := by
  by_contra n
  exact absurd h (not_lt.mpr (zpow_le_zpow_right₀ hb.le (not_lt.mp n)))

theorem zpow_le_of (b : ℚ) (k m : Int) (hb : 1 < b) (h : b ^ k ≤ b ^ m) : k ≤ m := by
  by_contra n
  exact absurd h (not_le.mpr (zpow_lt_zpow_right₀ hb (not_le.mp n)))

/-- ±2^k among the finite values. -/
theorem pack_pow (neg : Bool) (k : Int) (h1 : -149 ≤ k) (h2 : k < 128) : (f32 (packF32 neg 1 k)).isFin = true
    ∧ (f32 (packF32 neg 1 k)).rat = (if neg then -1 else 1) * 2 ^ k := by
  obtain ⟨a, b⟩ := pack_rat neg 1 k (by norm_num) h1 (by
    rw [Nat.cast_one, one_mul, ← zpow_natCast]; exact zpow_lt_zpow_right₀ (by norm_num) h2)
  exact ⟨a, by rw [b]; simp⟩

/-- tanh 9 and what lies beyond it is as good as 1. -/
theorem tanh_far (x : ℝ) (h : 9 ≤ x) : 0 ≤ 1 - Real.tanh x ∧ 1 - Real.tanh x ≤ 1 / 2 ^ 24 := by
  rw [tanh_eq_exp]
  have e : (2 : ℝ) ^ 25 ≤ Real.exp (2 * x) := by
    calc (2 : ℝ) ^ 25 ≤ (2.7 : ℝ) ^ 18 := by norm_num
      _ ≤ Real.exp 1 ^ 18 := pow_le_pow_left₀ (by norm_num) (by linarith [Real.exp_one_gt_d9]) _
      _ = Real.exp 18 := by rw [← Real.exp_nat_mul]; norm_num
      _ ≤ Real.exp (2 * x) := Real.exp_le_exp.mpr (by linarith)
  have p : (0 : ℝ) < Real.exp (2 * x) + 1 := by positivity
  rw [sub_sub_cancel]
  refine ⟨by positivity, ?_⟩
  rw [div_le_div_iff₀ p (by positivity)]
  linarith

theorem tanh_one (x : ℝ) (h : 9 ≤ x) : WithinUlps 2 1 (Real.tanh x) ∧ |1 - Real.tanh x| ≤ 1 / 2 ^ 24 := by
  obtain ⟨a, b⟩ := tanh_far x h
  have hl : Real.tanh x < 1 := by
    rw [tanh_eq_exp]; linarith [show (0 : ℝ) < 2 / (Real.exp (2 * x) + 1) by positivity]
  refine ⟨?_, by rw [abs_of_nonneg a]; exact b⟩
  unfold WithinUlps
  have : Int.log 2 |Real.tanh x| = -1 := by
    apply log_of_bounds 2 (by norm_num)
    all_goals rw [abs_of_nonneg (by linarith [show (1 : ℝ) / 2 ^ 24 ≤ 1 / 2 by norm_num])]
    · norm_num; linarith [show (1 : ℝ) / 2 ^ 24 ≤ 1 / 2 by norm_num]
    · norm_num; exact hl
  rw [this, abs_of_nonneg a]
  norm_num
  linarith

theorem within_neg (n : Nat) (q y : ℝ) (h : WithinUlps n q y) : WithinUlps n (-q) (-y) := by
  unfold WithinUlps at *
  rw [abs_neg, show -q - -y = -(q - y) by ring, abs_neg]
  exact h

/-- The operands of which R185 gives a bound, and a finite result. -/
def ApproxIn (op : Nat) (x : ℚ) : Prop :=
  match op with
  | 0 => 0 < x
  | 1 => x ≠ 0 ∧ |1 / x| < 2 ^ 128
  | 2 => x < 128
  | 3 => 0 < x
  | _ => True

/-- R185: the approximation is within its bound, in its exact cases too. -/
theorem approx_bound (op : Nat) (a : BitVec 32) (ho : op < 5) (hf : (f32 a).isFin = true)
    (hx : ApproxIn op (f32 a).rat) :
    (f32 (approx op a)).isFin = true ∧ ApproxOk op (f32 a).rat (f32 (approx op a)).rat := by
  cases hc : approxSpecial op (f32 a) with
  | none => exact approx_ok op a ho hf hc
  | some w =>
  have hr := f32_range a hf
  have ha : approx op a = w := by unfold approx; rw [hc]
  obtain ⟨s, n, d, hv⟩ : ∃ s n d, f32 a = .fin s n d := by
    cases h : f32 a with
    | nan => simp [h, FV.isFin] at hf
    | inf s => simp [h, FV.isFin] at hf
    | fin s n d => exact ⟨s, n, d, rfl⟩
  have hsgn : (f32 a).rat = (if s then -1 else 1) * |(f32 a).rat| := by
    rw [hv]; cases s <;> simp [FV.rat, abs_div]
  have hc : approxCase op s (f32 a).rat = some w := by rw [← hc, hv]; rfl
  rw [ha]
  clear ha hv hf
  generalize (f32 a).rat = x at *
  have pos : 0 < x → 1 / 2 ^ 149 ≤ x ∧ x < 2 ^ 128 := fun hp => by
    rcases hr with h | h
    · exact absurd h hp.ne'
    · rwa [abs_of_pos hp] at h
  have m149 : (1 : ℚ) / 2 ^ 149 = 2 ^ (-149 : ℤ) := by rw [zpow_neg, one_div]; rfl
  have p128 : (2 : ℚ) ^ 128 = 2 ^ (128 : ℤ) := rfl
  have hop : op = 0 ∨ op = 1 ∨ op = 2 ∨ op = 3 ∨ op = 4 := by omega
  rcases hop with rfl | rfl | rfl | rfl | rfl <;> simp only [approxCase] at hc <;> simp only [ApproxIn] at hx
  · rw [if_neg hx.ne', if_neg (not_lt.mpr hx.le)] at hc
    split at hc
    · next h4 =>
      obtain rfl := Option.some.inj hc
      generalize Int.log 4 x = k at *
      obtain ⟨a1, a2⟩ := pos hx
      have e4 : (4 : ℚ) ^ k = 2 ^ (2 * k) := by rw [zpow_mul]; norm_num
      rw [h4, e4, m149] at a1
      rw [h4, e4, p128] at a2
      have b1 := zpow_le_of 2 _ _ (by norm_num) a1
      have b2 := zpow_lt_of 2 _ _ (by norm_num) a2
      obtain ⟨f1, f2⟩ := pack_pow false (-k) (by omega) (by omega)
      refine ⟨f1, within_self _ _ _ ?_⟩
      rw [f2, h4, e4]
      push_cast
      rw [mul_comm 2 k, zpow_mul, show ((2 : ℝ) ^ k) ^ (2 : ℤ) = ((2 : ℝ) ^ k) ^ 2 from rfl,
        Real.sqrt_sq (by positivity), zpow_neg]
      simp
    · simp at hc
  · rw [if_neg (by push Not; exact hx)] at hc
    split at hc
    · next h2 =>
      obtain rfl := Option.some.inj hc
      generalize Int.log 2 |x| = k at *
      rcases hr with h | ⟨a1, a2⟩
      · exact absurd h hx.1
      rw [h2, m149] at a1
      rw [h2, p128] at a2
      have b1 := zpow_le_of 2 _ _ (by norm_num) a1
      have b2 := zpow_lt_of 2 _ _ (by norm_num) a2
      have b3 := hx.2
      rw [abs_div, abs_one, h2, one_div, ← zpow_neg, p128] at b3
      have b4 := zpow_lt_of 2 _ _ (by norm_num) b3
      obtain ⟨f1, f2⟩ := pack_pow s (-k) (by omega) (by omega)
      refine ⟨f1, within_self _ _ _ ?_⟩
      rw [f2, hsgn, h2]
      push_cast
      cases s <;> simp
    · simp at hc
  · rw [if_neg (not_le.mpr hx)] at hc
    split at hc
    · next h =>
      obtain rfl := Option.some.inj hc
      have z : (f32 (f32Zero false)).isFin = true ∧ (f32 (f32Zero false)).rat = 0 := by
        have := pack_rat false 0 0 (by norm_num) (by norm_num) (by norm_num)
        rw [show f32Zero false = packF32 false 0 0 by decide]
        simpa using this
      refine ⟨z.1, ?_⟩
      show WithinUlps 2 _ _
      unfold WithinUlps
      rw [z.2, Rat.cast_zero, zero_sub, abs_neg, abs_of_pos (by positivity)]
      have hx2 : (x : ℝ) ≤ -150 := by exact_mod_cast h.le
      calc (2 : ℝ) ^ (x : ℝ) ≤ 2 ^ (-150 : ℝ) := Real.rpow_le_rpow_of_exponent_le (by norm_num) hx2
        _ = 2 ^ (-150 : ℤ) := by rw [← Real.rpow_intCast]; norm_num
        _ ≤ 2 * 2 ^ (-149 : ℤ) := by norm_num
        _ ≤ _ := by
            push_cast
            exact mul_le_mul_of_nonneg_left (zpow_le_zpow_right₀ (by norm_num) (le_max_right _ _)) (by norm_num)
    · split at hc
      · next h2 =>
        obtain rfl := Option.some.inj hc
        have : ⌊x⌋ < 128 := by exact_mod_cast Int.floor_lt.mpr (by exact_mod_cast hx)
        obtain ⟨f1, f2⟩ := pack_pow false ⌊x⌋ h2.2 this
        refine ⟨f1, within_self _ _ _ ?_⟩
        rw [f2]
        conv_rhs => rw [h2.1]
        push_cast
        rw [Real.rpow_intCast]
        simp
      · simp at hc
  · rw [if_neg hx.ne', if_neg (not_lt.mpr hx.le)] at hc
    split at hc
    · next h2 =>
      obtain rfl := Option.some.inj hc
      generalize Int.log 2 x = k at *
      obtain ⟨a1, a2⟩ := pos hx
      rw [h2, m149] at a1
      rw [h2, p128] at a2
      have b1 := zpow_le_of 2 _ _ (by norm_num) a1
      have b2 := zpow_lt_of 2 _ _ (by norm_num) a2
      obtain ⟨f1, f2⟩ := pack_rat (decide (x < 1)) k.natAbs 0 (by omega) (by norm_num) (by
        rw [zpow_zero, mul_one]
        have : k.natAbs < 150 := by omega
        calc ((k.natAbs : Nat) : ℚ) < 150 := by exact_mod_cast this
          _ < 2 ^ 128 := by norm_num)
      have val : (f32 (packF32 (decide (x < 1)) k.natAbs 0)).rat = k := by
        rw [f2, zpow_zero, mul_one]
        have hk : x < 1 ↔ k < 0 := by
          rw [h2, show (1 : ℚ) = 2 ^ (0 : ℤ) by simp]
          exact ⟨fun h => zpow_lt_of 2 _ _ (by norm_num) h, fun h => zpow_lt_zpow_right₀ (by norm_num) h⟩
        by_cases h : k < 0
        · rw [decide_eq_true (hk.mpr h), if_pos rfl]
          have : ((k.natAbs : Int) : ℚ) = -k := by rw [Int.ofNat_natAbs_of_nonpos h.le]; push_cast; rfl
          rw [← Int.cast_natCast, this]; ring
        · rw [decide_eq_false (fun h' => h (hk.mp h')), if_neg (by decide)]
          have : ((k.natAbs : Int) : ℚ) = k := by rw [Int.natAbs_of_nonneg (not_lt.mp h)]
          rw [← Int.cast_natCast, this]; ring
      refine ⟨f1, ?_⟩
      have lg : Real.logb 2 (x : ℝ) = k := by
        rw [h2]; push_cast
        rw [← Real.rpow_intCast, Real.logb_rpow (by norm_num) (by norm_num)]
      rw [val]
      show if 1 / 2 ≤ (x : ℝ) ∧ (x : ℝ) ≤ 2 then _ else _
      rw [lg]
      split
      · push_cast; rw [sub_self, abs_zero]; positivity
      · exact within_self _ _ _ (by push_cast; rfl)
    · simp at hc
  · split at hc
    · next h =>
      obtain rfl := Option.some.inj hc
      have z : (f32 (f32Zero s)).isFin = true ∧ (f32 (f32Zero s)).rat = 0 := by
        have := pack_rat s 0 0 (by norm_num) (by norm_num) (by norm_num)
        rw [show f32Zero s = packF32 s 0 0 by cases s <;> decide]
        simpa using this
      refine ⟨z.1, ?_⟩
      rw [z.2, h]
      exact ⟨within_self _ _ _ (by simp), by simp⟩
    · split at hc
      · next h0 h9 =>
        obtain rfl := Option.some.inj hc
        have one : (f32 (f32One s)).isFin = true ∧ (f32 (f32One s)).rat = if s then -1 else 1 := by
          have := pack_pow s 0 (by norm_num) (by norm_num)
          rw [show f32One s = packF32 s 1 0 by cases s <;> decide +kernel]
          simpa using this
        refine ⟨one.1, ?_⟩
        have h9 : (9 : ℝ) ≤ ((|x| : ℚ) : ℝ) := by exact_mod_cast h9
        obtain ⟨t1, t2⟩ := tanh_one _ h9
        show WithinUlps 2 _ _ ∧ _
        rw [one.2, hsgn]
        cases s
        · simp only [Bool.false_eq_true, if_false, one_mul, Rat.cast_one]; exact ⟨t1, t2⟩
        · have e : ((((if true = true then (-1 : ℚ) else 1) * |x| : ℚ)) : ℝ) = -((|x| : ℚ) : ℝ) := by simp
          rw [e, Real.tanh_neg]
          refine ⟨by simpa using within_neg _ _ _ t1, ?_⟩
          rw [show (((if true = true then (-1 : ℚ) else 1) : ℚ) : ℝ) - -Real.tanh ((|x| : ℚ) : ℝ) =
            -(1 - Real.tanh ((|x| : ℚ) : ℝ)) by simp; ring, abs_neg]
          exact t2
      · simp at hc

end Sys2Proof.Machine
end

