-- ==== Sys2Proof/Laws/Float.lean ====
section
/-! SUPPORT. Rounding is exact on what a format holds: the bits of a value of the format, rounded to it, are those bits
(R155, R156, R162). -/

namespace Sys2Proof.Machine

/-- A whole number of steps rounds to itself. -/
theorem roundNat_exact (m c : Nat) (hc : 0 < c) : roundNat 0 0 (m * c) c = m := by
  simp [roundNat, Nat.mul_div_cancel _ hc, Nat.not_lt_of_le (Nat.zero_le _)]
  omega

/-- The binary logarithm of m × 2^k. -/
theorem ilog2_up (m k : Nat) (hm : 0 < m) : ilog2 (m * 2 ^ k) 1 = (m.log2 : Int) + k := by
  have h1 : (m * 2 ^ k).log2 = m.log2 + k := by
    rw [Nat.log2_eq_iff (by positivity)]
    refine ⟨?_, ?_⟩
    · rw [pow_add]; exact Nat.mul_le_mul_right _ (Nat.log2_self_le (by omega))
    · rw [show m.log2 + k + 1 = (m.log2 + 1) + k by omega, pow_add]
      exact Nat.mul_lt_mul_of_pos_right Nat.lt_log2_self (by positivity)
  have h2 := Nat.log2_self_le (n := m * 2 ^ k) (by positivity)
  simp only [ilog2, h1] at *
  have : ((m.log2 + k : Nat) : Int) - (Nat.log2 1 : Nat) = ((m.log2 + k : Nat) : Int) := by
    rw [show Nat.log2 1 = 0 by decide]; simp
  simp only [this, Int.toNat_natCast]
  rw [if_pos (by omega), if_neg (by omega)]
  push_cast; rfl

/-- The binary logarithm of m / 2^t. -/
theorem ilog2_down (m t : Nat) (hm : 0 < m) : ilog2 m (2 ^ t) = (m.log2 : Int) - t := by
  have h2 := Nat.log2_self_le (n := m) (by omega)
  simp only [ilog2, Nat.log2_two_pow]
  split
  · next h =>
    rw [if_neg]
    have : ((m.log2 : Int) - t).toNat = m.log2 - t := by omega
    rw [this, ← pow_add]
    have : t + (m.log2 - t) = m.log2 := by omega
    rw [this]; omega
  · next h =>
    rw [if_neg]
    have e : (-((m.log2 : Int) - t)).toNat = t - m.log2 := by omega
    rw [e]
    have : 2 ^ t = 2 ^ m.log2 * 2 ^ (t - m.log2) := by rw [← pow_add]; congr 1; omega
    rw [this]
    exact Nat.not_lt.mpr (Nat.mul_le_mul_right _ h2)

/-- The parts of m × 2^k as an exact value. -/
def dyadicParts (m : Nat) (k : Int) : Nat × Nat :=
  if 0 ≤ k then (m * 2 ^ k.toNat, 1) else (m, 2 ^ (-k).toNat)

theorem dyadic_eq (neg : Bool) (m : Nat) (k : Int) :
    dyadic neg m k = .fin neg (dyadicParts m k).1 (dyadicParts m k).2 := by
  unfold dyadic dyadicParts; split <;> rfl

/-- A value that a format can hold rounds to its own bits. -/
theorem roundMag_dyadic (f : Fmt) (m : Nat) (k : Int) (hm : 0 < m) (hk : f.emin ≤ k)
    (hl : m.log2 ≤ f.p - 1) (hs : k = f.emin ∨ m.log2 = f.p - 1) :
    roundMag f 0 0 (dyadicParts m k).1 (dyadicParts m k).2 =
      let b := if m < 2 ^ (f.p - 1) then m else (k - f.emin + 1).toNat * 2 ^ (f.p - 1) + (m - 2 ^ (f.p - 1))
      if f.infBits ≤ b then f.infBits else b := by
  have hi : ilog2 (dyadicParts m k).1 (dyadicParts m k).2 = m.log2 + k := by
    unfold dyadicParts
    split
    · next h => simp only [ilog2_up _ _ hm]; omega
    · next h => simp only [ilog2_down _ _ hm]; omega
  have hn : (dyadicParts m k).1 ≠ 0 := by
    unfold dyadicParts
    split <;> simp only [ne_eq]
    · exact Nat.ne_of_gt (by positivity)
    · omega
  have hK : max ((m.log2 : Int) + k - (f.p - 1 : Nat)) f.emin = k := by
    rcases hs with h | h
    · rw [max_eq_right] <;> omega
    · rw [max_eq_left] <;> omega
  have hq : (if 0 ≤ k then roundNat 0 0 (dyadicParts m k).1 ((dyadicParts m k).2 * 2 ^ k.toNat)
      else roundNat 0 0 ((dyadicParts m k).1 * 2 ^ (-k).toNat) (dyadicParts m k).2) = m := by
    unfold dyadicParts
    split
    · rw [Nat.one_mul]; exact roundNat_exact _ _ (by positivity)
    · exact roundNat_exact _ _ (by positivity)
  unfold roundMag
  rw [if_neg hn]
  simp only [hi, hK, hq, if_true]

/-- The bits of what a format holds: reading them and rounding to the format gives them back, below the sign. -/
theorem round_ofBits (f : Fmt) (hp : 1 ≤ f.p) (he : 1 ≤ f.e) (b : Nat) (h : FV.ofBits f b ≠ .nan) :
    (FV.ofBits f b).round f 0 0 = b % 2 ^ (f.e + f.p) := by
  have hT : 0 < 2 ^ (f.p - 1) := by positivity
  have hE : 2 ≤ 2 ^ f.e := by
    calc 2 = 2 ^ 1 := rfl
      _ ≤ 2 ^ f.e := Nat.pow_le_pow_right (by omega) he
  have hs : f.signBit = 2 ^ f.e * 2 ^ (f.p - 1) := by
    rw [Fmt.signBit, ← pow_add]; congr 1; omega
  have hb : b % 2 ^ (f.e + f.p) = (if b / f.signBit % 2 == 1 then f.signBit else 0)
      + (b / 2 ^ (f.p - 1) % 2 ^ f.e * 2 ^ (f.p - 1) + b % 2 ^ (f.p - 1)) := by
    have h2 : 2 ^ (f.e + f.p) = f.signBit * 2 := by
      rw [Fmt.signBit, ← pow_succ]; congr 1; omega
    rw [h2, Nat.mod_mul, hs]
    have h3 : b % (2 ^ f.e * 2 ^ (f.p - 1)) =
        b / 2 ^ (f.p - 1) % 2 ^ f.e * 2 ^ (f.p - 1) + b % 2 ^ (f.p - 1) := by
      rw [Nat.mul_comm (2 ^ f.e), Nat.mod_mul]; ring
    rw [h3]
    rcases Nat.mod_two_eq_zero_or_one (b / (2 ^ f.e * 2 ^ (f.p - 1))) with h0 | h0 <;> simp [h0]; ring
  have hf := Nat.mod_lt b hT
  have hx := Nat.mod_lt (b / 2 ^ (f.p - 1)) (show 0 < 2 ^ f.e by omega)
  rw [hb]
  have hi : f.infBits = (2 ^ f.e - 1) * 2 ^ (f.p - 1) := rfl
  unfold FV.ofBits at h ⊢
  dsimp only at h ⊢
  generalize hg : b % 2 ^ (f.p - 1) = fr at *
  generalize b / 2 ^ (f.p - 1) % 2 ^ f.e = ex at *
  generalize (b / f.signBit % 2 == 1) = neg at *
  split at h
  · next h1 =>
    split at h
    · next h2 =>
      rw [if_pos h1, if_pos h2, FV.round, hi, h1, h2, Nat.add_zero]
    · exact absurd rfl h
  · next h1 =>
    rw [if_neg h1]
    split
    · next h2 =>
      rw [dyadic_eq, FV.round, h2, Nat.zero_mul, Nat.zero_add]
      congr 1
      by_cases h3 : fr = 0
      · subst h3; unfold dyadicParts; split <;> simp [roundMag]
      · have hl : fr.log2 ≤ f.p - 1 := Nat.le_of_lt ((Nat.log2_lt h3).2 hf)
        rw [roundMag_dyadic f fr f.emin (by omega) (le_refl _) hl (.inl rfl)]
        have : 2 ^ (f.p - 1) ≤ (2 ^ f.e - 1) * 2 ^ (f.p - 1) := Nat.le_mul_of_pos_left _ (by omega)
        simp only [hf, if_true]
        rw [if_neg (by omega)]
    · next h2 =>
      rw [dyadic_eq, FV.round]
      congr 1
      have hl : (2 ^ (f.p - 1) + fr).log2 = f.p - 1 := by
        rw [Nat.log2_eq_iff (by omega)]
        exact ⟨by omega, by rw [pow_succ]; omega⟩
      rw [roundMag_dyadic f _ (f.emin + ex - 1) (by omega) (by omega) (by omega) (.inr hl)]
      have h4 : (ex + 1) * 2 ^ (f.p - 1) ≤ (2 ^ f.e - 1) * 2 ^ (f.p - 1) := Nat.mul_le_mul_right _ (by omega)
      have h5 : (ex + 1) * 2 ^ (f.p - 1) = ex * 2 ^ (f.p - 1) + 2 ^ (f.p - 1) := by ring
      have h6 : (f.emin + (ex : Int) - 1 - f.emin + 1).toNat = ex := by omega
      have h7 : ¬ 2 ^ (f.p - 1) + fr < 2 ^ (f.p - 1) := by omega
      simp only [h6, h7, if_false]
      rw [if_neg (by omega)]
      omega

/-- The bits above those of the format do not matter. -/
theorem ofBits_mod (f : Fmt) (hp : 1 ≤ f.p) (b : Nat) :
    FV.ofBits f (b % 2 ^ (f.e + f.p)) = FV.ofBits f b := by
  have h2 : 2 ^ (f.e + f.p) = f.signBit * 2 := by rw [Fmt.signBit, ← pow_succ]; congr 1; omega
  have hs : f.signBit = 2 ^ (f.p - 1) * 2 ^ f.e := by rw [Fmt.signBit, ← pow_add]; congr 1; omega
  have e1 : b % 2 ^ (f.e + f.p) / f.signBit % 2 = b / f.signBit % 2 := by
    rw [h2, Nat.mod_mul_right_div_self, Nat.mod_mod]
  have e2 : b % 2 ^ (f.e + f.p) / 2 ^ (f.p - 1) % 2 ^ f.e = b / 2 ^ (f.p - 1) % 2 ^ f.e := by
    rw [h2, hs, Nat.mul_assoc, Nat.mod_mul_right_div_self, Nat.mod_mul_right_mod]
  have e3 : b % 2 ^ (f.e + f.p) % 2 ^ (f.p - 1) = b % 2 ^ (f.p - 1) := by
    rw [h2, hs, Nat.mul_assoc, Nat.mod_mul_right_mod]
  unfold FV.ofBits
  rw [e1, e2, e3]

/-- A lane that holds an element of its type gives the element back (R172). -/
theorem elemF_laneF (ty : Nat) (x : BitVec 32) : elemF ty (laneF ty 0 0 (elemF ty x)) = elemF ty x := by
  obtain ⟨hp, he, hw, hn⟩ : 1 ≤ (fmtOf ty).p ∧ 1 ≤ (fmtOf ty).e ∧ (fmtOf ty).e + (fmtOf ty).p ≤ 32
      ∧ FV.ofBits (fmtOf ty) ((fmtOf ty).nanBits % 2 ^ 32) = .nan := by
    unfold fmtOf; split
    · decide
    · split <;> decide
  unfold elemF laneF
  by_cases h : FV.ofBits (fmtOf ty) x.toNat = .nan
  · rw [h, FV.round, BitVec.toNat_ofNat, hn]
  · rw [round_ofBits _ hp he _ h, BitVec.toNat_ofNat, Nat.mod_eq_of_lt (a := _ % _), ofBits_mod _ hp]
    exact Nat.lt_of_lt_of_le (Nat.mod_lt _ (by positivity)) (Nat.pow_le_pow_right (by omega) hw)

/-- A NaN that is written in a lane is the canonical one, and reads as a NaN. -/
theorem elemF_nan (ty : Nat) : elemF ty (laneF ty 0 0 .nan) = .nan := by
  unfold elemF laneF fmtOf; split
  · decide
  · split <;> decide

end Sys2Proof.Machine
end

