-- ==== Sys2Proof/Laws/Tab.lean ====
section
/-! SUPPORT. The laws of sparse tables: reading after a write, and the canonical form, which every table
operation keeps. -/

namespace Sys2Proof.Machine

variable {α : Type}

theorem Tab.get_ins_same (d : α) (k : Nat) (v : α) (t : Tab α) (h : ∀ e ∈ t, e.1 ≠ k) :
    Tab.get d (Tab.ins k v t) k = v := by
  induction t with
  | nil => simp [Tab.ins, Tab.get]
  | cons e r ih =>
    obtain ⟨j, x⟩ := e
    have hj : j ≠ k := h (j, x) (by simp)
    simp only [Tab.ins]
    split
    · simp [Tab.get]
    · simp [Tab.get, hj, ih fun e he => h e (by simp [he])]

theorem Tab.get_ins_ne (d : α) (k i : Nat) (v : α) (t : Tab α) (h : i ≠ k) :
    Tab.get d (Tab.ins k v t) i = Tab.get d t i := by
  induction t with
  | nil => simp [Tab.ins, Tab.get, h.symm]
  | cons e r ih =>
    obtain ⟨j, x⟩ := e
    simp only [Tab.ins]
    split
    · simp [Tab.get, h.symm]
    · by_cases hj : j = i <;> simp [Tab.get, hj, ih]

theorem Tab.get_erase_same (d : α) (t : Tab α) (k : Nat) : Tab.get d (t.erase k) k = d := by
  induction t with
  | nil => simp [Tab.erase, Tab.get]
  | cons e r ih =>
    obtain ⟨j, x⟩ := e
    by_cases hj : j = k
    · simpa [Tab.erase, List.filter_cons, hj] using ih
    · simpa [Tab.erase, List.filter_cons, hj, Tab.get] using ih

theorem Tab.get_erase_ne (d : α) (t : Tab α) (k i : Nat) (h : i ≠ k) :
    Tab.get d (t.erase k) i = Tab.get d t i := by
  induction t with
  | nil => simp [Tab.erase, Tab.get]
  | cons e r ih =>
    obtain ⟨j, x⟩ := e
    by_cases hj : j = k
    · have hji : j ≠ i := fun h' => h (h'.symm.trans hj)
      have hki : ¬ k = i := fun h' => h h'.symm
      simpa [Tab.erase, List.filter_cons, hj, Tab.get, hki] using ih
    · by_cases hi : j = i
      · simp [Tab.erase, hi, Tab.get, h]
      · simpa [Tab.erase, List.filter_cons, hj, Tab.get, hi] using ih

@[simp] theorem Tab.get_put_same (d : α) (t : Tab α) (k : Nat) (v : α) : Tab.get d (t.put k v) k = v :=
  Tab.get_ins_same d k v _ (by simp [Tab.erase])

theorem Tab.get_put_ne (d : α) (t : Tab α) (k i : Nat) (v : α) (h : i ≠ k) :
    Tab.get d (t.put k v) i = Tab.get d t i := by
  rw [Tab.put, Tab.get_ins_ne d k i v _ h, Tab.get_erase_ne d t k i h]

theorem Tab.mem_ins {k : Nat} {v : α} {t : Tab α} {e : Nat × α} (h : e ∈ Tab.ins k v t) :
    e = (k, v) ∨ e ∈ t := by
  induction t with
  | nil => simpa [Tab.ins] using h
  | cons f r ih =>
    obtain ⟨j, x⟩ := f
    simp only [Tab.ins] at h
    split at h
    · simpa using h
    · rcases List.mem_cons.mp h with h | h
      · exact .inr (by simp [h])
      · rcases ih h with h | h
        · exact .inl h
        · exact .inr (by simp [h])

variable [DecidableEq α]

/-- A read after a write to the same key gives the value written. -/
@[simp] theorem Tab.get_set_same (d : α) (t : Tab α) (k : Nat) (v : α) : Tab.get d (Tab.set d t k v) k = v := by
  unfold Tab.set
  split
  · next h => rw [h, Tab.get_erase_same]
  · simp

/-- A write leaves every other key alone. -/
theorem Tab.get_set_ne (d : α) (t : Tab α) (k i : Nat) (v : α) (h : i ≠ k) :
    Tab.get d (Tab.set d t k v) i = Tab.get d t i := by
  unfold Tab.set
  split
  · exact Tab.get_erase_ne d t k i h
  · exact Tab.get_put_ne d t k i v h

theorem Tab.wf_iff (d : α) (t : Tab α) :
    Tab.wf d t = true ↔ (t.Pairwise fun a b => a.1 < b.1) ∧ ∀ e ∈ t, e.2 ≠ d := by
  simp [Tab.wf]

@[simp] theorem Tab.wf_nil (d : α) : Tab.wf d ([] : Tab α) = true := by simp [Tab.wf_iff]

theorem Tab.erase_wf (d : α) (t : Tab α) (k : Nat) (h : Tab.wf d t = true) : Tab.wf d (t.erase k) = true := by
  rw [Tab.wf_iff] at h ⊢
  exact ⟨h.1.filter _, fun e he => h.2 e (List.mem_filter.mp he).1⟩

theorem Tab.ins_wf (d : α) (t : Tab α) (k : Nat) (v : α) (hv : v ≠ d) (hk : ∀ e ∈ t, e.1 ≠ k)
    (h : Tab.wf d t = true) : Tab.wf d (Tab.ins k v t) = true := by
  rw [Tab.wf_iff] at h ⊢
  induction t with
  | nil => simp [Tab.ins, hv]
  | cons f r ih =>
    obtain ⟨j, x⟩ := f
    have hr : (List.Pairwise (fun a b => a.1 < b.1) r) ∧ ∀ e ∈ r, e.2 ≠ d :=
      ⟨(List.pairwise_cons.mp h.1).2, fun e he => h.2 e (by simp [he])⟩
    have ih := ih (fun e he => hk e (by simp [he])) hr
    have hj := (List.pairwise_cons.mp h.1).1
    have hjk : j ≠ k := hk (j, x) (by simp)
    simp only [Tab.ins]
    split
    · next hlt =>
      refine ⟨List.pairwise_cons.mpr ⟨fun e he => ?_, h.1⟩, fun e he => ?_⟩
      · rcases List.mem_cons.mp he with he | he
        · simpa [he] using hlt
        · exact Nat.lt_trans hlt (hj e he)
      · rcases List.mem_cons.mp he with he | he
        · simpa [he] using hv
        · exact h.2 e he
    · next hge =>
      refine ⟨List.pairwise_cons.mpr ⟨fun e he => ?_, ih.1⟩, fun e he => ?_⟩
      · rcases Tab.mem_ins he with he | he
        · simp only [he]; omega
        · exact hj e he
      · rcases List.mem_cons.mp he with he | he
        · exact he ▸ h.2 (j, x) (by simp)
        · exact ih.2 e he

/-- Every write keeps the canonical form. -/
theorem Tab.set_wf (d : α) (t : Tab α) (k : Nat) (v : α) (h : Tab.wf d t = true) :
    Tab.wf d (Tab.set d t k v) = true := by
  unfold Tab.set
  split
  · exact Tab.erase_wf d t k h
  · next hv => exact Tab.ins_wf d _ k v hv (by simp [Tab.erase]) (Tab.erase_wf d t k h)

end Sys2Proof.Machine
end

