-- ==== Sys2Proof/Laws/State.lean ====
section
/-! SUPPORT. What each update of the state leaves alone, one lemma per field, and what is read after it:
cores, slots, threads and the elements of vectors. -/

namespace Sys2Proof.Machine

/-! ### Elements of vectors -/

@[simp] theorem rd_wr_same {α : Type} {n : Nat} (v : Vector α n) (i : Nat) (x d : α) (h : i < n) :
    rd (wr v i x) i d = x := by simp [rd, wr, h]

theorem rd_wr_ne {α : Type} {n : Nat} (v : Vector α n) (i j : Nat) (x d : α) (h : j ≠ i) :
    rd (wr v i x) j d = rd v j d := by
  unfold rd wr
  split
  · exact Vector.getElem_setIfInBounds_ne _ (Ne.symm h)
  · rfl

/-! ### Updates of one core: every other field of the state -/

@[simp] theorem State.setCore_cur (s : State) (c : Nat) (x : Core) : (s.setCore c x).cur = s.cur := rfl
@[simp] theorem State.modCore_cur (s : State) (c : Nat) (g : Core → Core) : (s.modCore c g).cur = s.cur := rfl
@[simp] theorem State.modMe_cur (s : State) (g : Core → Core) : (s.modMe g).cur = s.cur := rfl
@[simp] theorem State.modThread_cur (s : State) (g : Thread → Thread) : (s.modThread g).cur = s.cur := rfl
@[simp] theorem State.setCore_mem (s : State) (c : Nat) (x : Core) : (s.setCore c x).mem = s.mem := rfl
@[simp] theorem State.modCore_mem (s : State) (c : Nat) (g : Core → Core) : (s.modCore c g).mem = s.mem := rfl
@[simp] theorem State.modMe_mem (s : State) (g : Core → Core) : (s.modMe g).mem = s.mem := rfl
@[simp] theorem State.modThread_mem (s : State) (g : Thread → Thread) : (s.modThread g).mem = s.mem := rfl
@[simp] theorem State.setCore_blockKey (s : State) (c : Nat) (x : Core) : (s.setCore c x).blockKey = s.blockKey := rfl
@[simp] theorem State.setCore_cipherKey (s : State) (c : Nat) (x : Core) : (s.setCore c x).cipherKey = s.cipherKey := rfl
@[simp] theorem State.modCore_blockKey (s : State) (c : Nat) (g : Core → Core) : (s.modCore c g).blockKey = s.blockKey := rfl
@[simp] theorem State.modCore_cipherKey (s : State) (c : Nat) (g : Core → Core) : (s.modCore c g).cipherKey = s.cipherKey := rfl
@[simp] theorem State.modMe_blockKey (s : State) (g : Core → Core) : (s.modMe g).blockKey = s.blockKey := rfl
@[simp] theorem State.modMe_cipherKey (s : State) (g : Core → Core) : (s.modMe g).cipherKey = s.cipherKey := rfl
@[simp] theorem State.modThread_blockKey (s : State) (g : Thread → Thread) : (s.modThread g).blockKey = s.blockKey := rfl
@[simp] theorem State.modThread_cipherKey (s : State) (g : Thread → Thread) : (s.modThread g).cipherKey = s.cipherKey := rfl
@[simp] theorem State.setCore_badPa (s : State) (c : Nat) (x : Core) : (s.setCore c x).badPa = s.badPa := rfl
@[simp] theorem State.modCore_badPa (s : State) (c : Nat) (g : Core → Core) : (s.modCore c g).badPa = s.badPa := rfl
@[simp] theorem State.modMe_badPa (s : State) (g : Core → Core) : (s.modMe g).badPa = s.badPa := rfl
@[simp] theorem State.modThread_badPa (s : State) (g : Thread → Thread) : (s.modThread g).badPa = s.badPa := rfl
@[simp] theorem State.setCore_decoders (s : State) (c : Nat) (x : Core) : (s.setCore c x).decoders = s.decoders := rfl
@[simp] theorem State.setCore_cxlFailed (s : State) (c : Nat) (x : Core) : (s.setCore c x).cxlFailed = s.cxlFailed := rfl
@[simp] theorem State.modCore_decoders (s : State) (c : Nat) (g : Core → Core) : (s.modCore c g).decoders = s.decoders := rfl
@[simp] theorem State.modCore_cxlFailed (s : State) (c : Nat) (g : Core → Core) : (s.modCore c g).cxlFailed = s.cxlFailed := rfl
@[simp] theorem State.modMe_decoders (s : State) (g : Core → Core) : (s.modMe g).decoders = s.decoders := rfl
@[simp] theorem State.modMe_cxlFailed (s : State) (g : Core → Core) : (s.modMe g).cxlFailed = s.cxlFailed := rfl
@[simp] theorem State.modThread_decoders (s : State) (g : Thread → Thread) : (s.modThread g).decoders = s.decoders := rfl
@[simp] theorem State.modThread_cxlFailed (s : State) (g : Thread → Thread) : (s.modThread g).cxlFailed = s.cxlFailed := rfl
@[simp] theorem State.setCore_tlb (s : State) (c : Nat) (x : Core) : (s.setCore c x).tlb = s.tlb := rfl
@[simp] theorem State.modCore_tlb (s : State) (c : Nat) (g : Core → Core) : (s.modCore c g).tlb = s.tlb := rfl
@[simp] theorem State.modMe_tlb (s : State) (g : Core → Core) : (s.modMe g).tlb = s.tlb := rfl
@[simp] theorem State.modThread_tlb (s : State) (g : Thread → Thread) : (s.modThread g).tlb = s.tlb := rfl
@[simp] theorem State.setCore_ptbase (s : State) (c : Nat) (x : Core) : (s.setCore c x).ptbase = s.ptbase := rfl
@[simp] theorem State.modCore_ptbase (s : State) (c : Nat) (g : Core → Core) : (s.modCore c g).ptbase = s.ptbase := rfl
@[simp] theorem State.modMe_ptbase (s : State) (g : Core → Core) : (s.modMe g).ptbase = s.ptbase := rfl
@[simp] theorem State.modThread_ptbase (s : State) (g : Thread → Thread) : (s.modThread g).ptbase = s.ptbase := rfl
@[simp] theorem State.setCore_ptcfg (s : State) (c : Nat) (x : Core) : (s.setCore c x).ptcfg = s.ptcfg := rfl
@[simp] theorem State.modCore_ptcfg (s : State) (c : Nat) (g : Core → Core) : (s.modCore c g).ptcfg = s.ptcfg := rfl
@[simp] theorem State.modMe_ptcfg (s : State) (g : Core → Core) : (s.modMe g).ptcfg = s.ptcfg := rfl
@[simp] theorem State.modThread_ptcfg (s : State) (g : Thread → Thread) : (s.modThread g).ptcfg = s.ptcfg := rfl
@[simp] theorem State.setCore_pterr (s : State) (c : Nat) (x : Core) : (s.setCore c x).pterr = s.pterr := rfl
@[simp] theorem State.modCore_pterr (s : State) (c : Nat) (g : Core → Core) : (s.modCore c g).pterr = s.pterr := rfl
@[simp] theorem State.modMe_pterr (s : State) (g : Core → Core) : (s.modMe g).pterr = s.pterr := rfl
@[simp] theorem State.modThread_pterr (s : State) (g : Thread → Thread) : (s.modThread g).pterr = s.pterr := rfl
@[simp] theorem State.setCore_shoot (s : State) (c : Nat) (x : Core) : (s.setCore c x).shoot = s.shoot := rfl
@[simp] theorem State.modCore_shoot (s : State) (c : Nat) (g : Core → Core) : (s.modCore c g).shoot = s.shoot := rfl
@[simp] theorem State.modMe_shoot (s : State) (g : Core → Core) : (s.modMe g).shoot = s.shoot := rfl
@[simp] theorem State.modThread_shoot (s : State) (g : Thread → Thread) : (s.modThread g).shoot = s.shoot := rfl
@[simp] theorem State.setCore_refused (s : State) (c : Nat) (x : Core) : (s.setCore c x).refused = s.refused := rfl
@[simp] theorem State.modCore_refused (s : State) (c : Nat) (g : Core → Core) : (s.modCore c g).refused = s.refused := rfl
@[simp] theorem State.modMe_refused (s : State) (g : Core → Core) : (s.modMe g).refused = s.refused := rfl
@[simp] theorem State.modThread_refused (s : State) (g : Thread → Thread) : (s.modThread g).refused = s.refused := rfl
@[simp] theorem State.setCore_reports (s : State) (c : Nat) (x : Core) : (s.setCore c x).reports = s.reports := rfl
@[simp] theorem State.modCore_reports (s : State) (c : Nat) (g : Core → Core) : (s.modCore c g).reports = s.reports := rfl
@[simp] theorem State.modMe_reports (s : State) (g : Core → Core) : (s.modMe g).reports = s.reports := rfl
@[simp] theorem State.modThread_reports (s : State) (g : Thread → Thread) : (s.modThread g).reports = s.reports := rfl
@[simp] theorem State.setCore_ctxs (s : State) (c : Nat) (x : Core) : (s.setCore c x).ctxs = s.ctxs := rfl
@[simp] theorem State.modCore_ctxs (s : State) (c : Nat) (g : Core → Core) : (s.modCore c g).ctxs = s.ctxs := rfl
@[simp] theorem State.modMe_ctxs (s : State) (g : Core → Core) : (s.modMe g).ctxs = s.ctxs := rfl
@[simp] theorem State.modThread_ctxs (s : State) (g : Thread → Thread) : (s.modThread g).ctxs = s.ctxs := rfl
@[simp] theorem State.setCore_launches (s : State) (c : Nat) (x : Core) : (s.setCore c x).launches = s.launches := rfl
@[simp] theorem State.setCore_homes (s : State) (c : Nat) (x : Core) : (s.setCore c x).homes = s.homes := rfl
@[simp] theorem State.setCore_tampered (s : State) (c : Nat) (x : Core) : (s.setCore c x).tampered = s.tampered := rfl
@[simp] theorem State.setCore_down (s : State) (c : Nat) (x : Core) : (s.setCore c x).down = s.down := rfl
@[simp] theorem State.modCore_launches (s : State) (c : Nat) (g : Core → Core) : (s.modCore c g).launches = s.launches := rfl
@[simp] theorem State.modCore_homes (s : State) (c : Nat) (g : Core → Core) : (s.modCore c g).homes = s.homes := rfl
@[simp] theorem State.modCore_tampered (s : State) (c : Nat) (g : Core → Core) : (s.modCore c g).tampered = s.tampered := rfl
@[simp] theorem State.modCore_down (s : State) (c : Nat) (g : Core → Core) : (s.modCore c g).down = s.down := rfl
@[simp] theorem State.modMe_launches (s : State) (g : Core → Core) : (s.modMe g).launches = s.launches := rfl
@[simp] theorem State.modMe_homes (s : State) (g : Core → Core) : (s.modMe g).homes = s.homes := rfl
@[simp] theorem State.modMe_tampered (s : State) (g : Core → Core) : (s.modMe g).tampered = s.tampered := rfl
@[simp] theorem State.modMe_down (s : State) (g : Core → Core) : (s.modMe g).down = s.down := rfl
@[simp] theorem State.modThread_launches (s : State) (g : Thread → Thread) : (s.modThread g).launches = s.launches := rfl
@[simp] theorem State.modThread_homes (s : State) (g : Thread → Thread) : (s.modThread g).homes = s.homes := rfl
@[simp] theorem State.modThread_tampered (s : State) (g : Thread → Thread) : (s.modThread g).tampered = s.tampered := rfl
@[simp] theorem State.modThread_down (s : State) (g : Thread → Thread) : (s.modThread g).down = s.down := rfl
@[simp] theorem State.setCore_nextId (s : State) (c : Nat) (x : Core) : (s.setCore c x).nextId = s.nextId := rfl
@[simp] theorem State.modCore_nextId (s : State) (c : Nat) (g : Core → Core) : (s.modCore c g).nextId = s.nextId := rfl
@[simp] theorem State.modMe_nextId (s : State) (g : Core → Core) : (s.modMe g).nextId = s.nextId := rfl
@[simp] theorem State.modThread_nextId (s : State) (g : Thread → Thread) : (s.modThread g).nextId = s.nextId := rfl
@[simp] theorem State.setCore_bars (s : State) (c : Nat) (x : Core) : (s.setCore c x).bars = s.bars := rfl
@[simp] theorem State.modCore_bars (s : State) (c : Nat) (g : Core → Core) : (s.modCore c g).bars = s.bars := rfl
@[simp] theorem State.modMe_bars (s : State) (g : Core → Core) : (s.modMe g).bars = s.bars := rfl
@[simp] theorem State.modThread_bars (s : State) (g : Thread → Thread) : (s.modThread g).bars = s.bars := rfl
@[simp] theorem State.setCore_net (s : State) (c : Nat) (x : Core) : (s.setCore c x).net = s.net := rfl
@[simp] theorem State.modCore_net (s : State) (c : Nat) (g : Core → Core) : (s.modCore c g).net = s.net := rfl
@[simp] theorem State.modMe_net (s : State) (g : Core → Core) : (s.modMe g).net = s.net := rfl
@[simp] theorem State.modThread_net (s : State) (g : Thread → Thread) : (s.modThread g).net = s.net := rfl
@[simp] theorem State.setCore_qtab (s : State) (c : Nat) (x : Core) : (s.setCore c x).qtab = s.qtab := rfl
@[simp] theorem State.modCore_qtab (s : State) (c : Nat) (g : Core → Core) : (s.modCore c g).qtab = s.qtab := rfl
@[simp] theorem State.modMe_qtab (s : State) (g : Core → Core) : (s.modMe g).qtab = s.qtab := rfl
@[simp] theorem State.modThread_qtab (s : State) (g : Thread → Thread) : (s.modThread g).qtab = s.qtab := rfl
@[simp] theorem State.setCore_pwrcap (s : State) (c : Nat) (x : Core) : (s.setCore c x).pwrcap = s.pwrcap := rfl
@[simp] theorem State.modCore_pwrcap (s : State) (c : Nat) (g : Core → Core) : (s.modCore c g).pwrcap = s.pwrcap := rfl
@[simp] theorem State.modMe_pwrcap (s : State) (g : Core → Core) : (s.modMe g).pwrcap = s.pwrcap := rfl
@[simp] theorem State.modThread_pwrcap (s : State) (g : Thread → Thread) : (s.modThread g).pwrcap = s.pwrcap := rfl
@[simp] theorem State.setCore_therm (s : State) (c : Nat) (x : Core) : (s.setCore c x).therm = s.therm := rfl
@[simp] theorem State.modCore_therm (s : State) (c : Nat) (g : Core → Core) : (s.modCore c g).therm = s.therm := rfl
@[simp] theorem State.modMe_therm (s : State) (g : Core → Core) : (s.modMe g).therm = s.therm := rfl
@[simp] theorem State.modThread_therm (s : State) (g : Thread → Thread) : (s.modThread g).therm = s.therm := rfl
@[simp] theorem State.setCore_throttle (s : State) (c : Nat) (x : Core) : (s.setCore c x).throttle = s.throttle := rfl
@[simp] theorem State.modCore_throttle (s : State) (c : Nat) (g : Core → Core) : (s.modCore c g).throttle = s.throttle := rfl
@[simp] theorem State.modMe_throttle (s : State) (g : Core → Core) : (s.modMe g).throttle = s.throttle := rfl
@[simp] theorem State.modThread_throttle (s : State) (g : Thread → Thread) : (s.modThread g).throttle = s.throttle := rfl
@[simp] theorem State.setCore_rstinfo (s : State) (c : Nat) (x : Core) : (s.setCore c x).rstinfo = s.rstinfo := rfl
@[simp] theorem State.modCore_rstinfo (s : State) (c : Nat) (g : Core → Core) : (s.modCore c g).rstinfo = s.rstinfo := rfl
@[simp] theorem State.modMe_rstinfo (s : State) (g : Core → Core) : (s.modMe g).rstinfo = s.rstinfo := rfl
@[simp] theorem State.modThread_rstinfo (s : State) (g : Thread → Thread) : (s.modThread g).rstinfo = s.rstinfo := rfl
@[simp] theorem State.setCore_link (s : State) (c : Nat) (x : Core) : (s.setCore c x).link = s.link := rfl
@[simp] theorem State.modCore_link (s : State) (c : Nat) (g : Core → Core) : (s.modCore c g).link = s.link := rfl
@[simp] theorem State.modMe_link (s : State) (g : Core → Core) : (s.modMe g).link = s.link := rfl
@[simp] theorem State.modThread_link (s : State) (g : Thread → Thread) : (s.modThread g).link = s.link := rfl
@[simp] theorem State.setCore_pkgid (s : State) (c : Nat) (x : Core) : (s.setCore c x).pkgid = s.pkgid := rfl
@[simp] theorem State.modCore_pkgid (s : State) (c : Nat) (g : Core → Core) : (s.modCore c g).pkgid = s.pkgid := rfl
@[simp] theorem State.modMe_pkgid (s : State) (g : Core → Core) : (s.modMe g).pkgid = s.pkgid := rfl
@[simp] theorem State.modThread_pkgid (s : State) (g : Thread → Thread) : (s.modThread g).pkgid = s.pkgid := rfl
@[simp] theorem State.setCore_incarnations (s : State) (c : Nat) (x : Core) : (s.setCore c x).incarnations = s.incarnations := rfl
@[simp] theorem State.modCore_incarnations (s : State) (c : Nat) (g : Core → Core) : (s.modCore c g).incarnations = s.incarnations := rfl
@[simp] theorem State.modMe_incarnations (s : State) (g : Core → Core) : (s.modMe g).incarnations = s.incarnations := rfl
@[simp] theorem State.modThread_incarnations (s : State) (g : Thread → Thread) : (s.modThread g).incarnations = s.incarnations := rfl
@[simp] theorem State.setCore_rereads (s : State) (c : Nat) (x : Core) : (s.setCore c x).rereads = s.rereads := rfl
@[simp] theorem State.modCore_rereads (s : State) (c : Nat) (g : Core → Core) : (s.modCore c g).rereads = s.rereads := rfl
@[simp] theorem State.modMe_rereads (s : State) (g : Core → Core) : (s.modMe g).rereads = s.rereads := rfl
@[simp] theorem State.modThread_rereads (s : State) (g : Thread → Thread) : (s.modThread g).rereads = s.rereads := rfl
@[simp] theorem State.setCore_tails (s : State) (c : Nat) (x : Core) : (s.setCore c x).tails = s.tails := rfl
@[simp] theorem State.modCore_tails (s : State) (c : Nat) (g : Core → Core) : (s.modCore c g).tails = s.tails := rfl
@[simp] theorem State.modMe_tails (s : State) (g : Core → Core) : (s.modMe g).tails = s.tails := rfl
@[simp] theorem State.modThread_tails (s : State) (g : Thread → Thread) : (s.modThread g).tails = s.tails := rfl
@[simp] theorem State.setCore_irqs (s : State) (c : Nat) (x : Core) : (s.setCore c x).irqs = s.irqs := rfl
@[simp] theorem State.modCore_irqs (s : State) (c : Nat) (g : Core → Core) : (s.modCore c g).irqs = s.irqs := rfl
@[simp] theorem State.modMe_irqs (s : State) (g : Core → Core) : (s.modMe g).irqs = s.irqs := rfl
@[simp] theorem State.modThread_irqs (s : State) (g : Thread → Thread) : (s.modThread g).irqs = s.irqs := rfl
@[simp] theorem State.setCore_announced (s : State) (c : Nat) (x : Core) : (s.setCore c x).announced = s.announced := rfl
@[simp] theorem State.modCore_announced (s : State) (c : Nat) (g : Core → Core) : (s.modCore c g).announced = s.announced := rfl
@[simp] theorem State.modMe_announced (s : State) (g : Core → Core) : (s.modMe g).announced = s.announced := rfl
@[simp] theorem State.modThread_announced (s : State) (g : Thread → Thread) : (s.modThread g).announced = s.announced := rfl
@[simp] theorem State.setCore_epoch (s : State) (c : Nat) (x : Core) : (s.setCore c x).epoch = s.epoch := rfl
@[simp] theorem State.modCore_epoch (s : State) (c : Nat) (g : Core → Core) : (s.modCore c g).epoch = s.epoch := rfl
@[simp] theorem State.modMe_epoch (s : State) (g : Core → Core) : (s.modMe g).epoch = s.epoch := rfl
@[simp] theorem State.modThread_epoch (s : State) (g : Thread → Thread) : (s.modThread g).epoch = s.epoch := rfl
@[simp] theorem State.setCore_meas (s : State) (c : Nat) (x : Core) : (s.setCore c x).meas = s.meas := rfl
@[simp] theorem State.modCore_meas (s : State) (c : Nat) (g : Core → Core) : (s.modCore c g).meas = s.meas := rfl
@[simp] theorem State.modMe_meas (s : State) (g : Core → Core) : (s.modMe g).meas = s.meas := rfl
@[simp] theorem State.modThread_meas (s : State) (g : Thread → Thread) : (s.modThread g).meas = s.meas := rfl
@[simp] theorem State.setCore_fwMeas (s : State) (c : Nat) (x : Core) : (s.setCore c x).fwMeas = s.fwMeas := rfl
@[simp] theorem State.modCore_fwMeas (s : State) (c : Nat) (g : Core → Core) : (s.modCore c g).fwMeas = s.fwMeas := rfl
@[simp] theorem State.modMe_fwMeas (s : State) (g : Core → Core) : (s.modMe g).fwMeas = s.fwMeas := rfl
@[simp] theorem State.modThread_fwMeas (s : State) (g : Thread → Thread) : (s.modThread g).fwMeas = s.fwMeas := rfl
@[simp] theorem State.setCore_attested (s : State) (c : Nat) (x : Core) : (s.setCore c x).attested = s.attested := rfl
@[simp] theorem State.modCore_attested (s : State) (c : Nat) (g : Core → Core) : (s.modCore c g).attested = s.attested := rfl
@[simp] theorem State.modMe_attested (s : State) (g : Core → Core) : (s.modMe g).attested = s.attested := rfl
@[simp] theorem State.modThread_attested (s : State) (g : Thread → Thread) : (s.modThread g).attested = s.attested := rfl
@[simp] theorem State.setCore_sealed (s : State) (c : Nat) (x : Core) : (s.setCore c x).sealed = s.sealed := rfl
@[simp] theorem State.setCore_work (s : State) (c : Nat) (x : Core) : (s.setCore c x).work = s.work := rfl
@[simp] theorem State.modCore_sealed (s : State) (c : Nat) (g : Core → Core) : (s.modCore c g).sealed = s.sealed := rfl
@[simp] theorem State.modCore_work (s : State) (c : Nat) (g : Core → Core) : (s.modCore c g).work = s.work := rfl
@[simp] theorem State.modMe_sealed (s : State) (g : Core → Core) : (s.modMe g).sealed = s.sealed := rfl
@[simp] theorem State.modMe_work (s : State) (g : Core → Core) : (s.modMe g).work = s.work := rfl
@[simp] theorem State.modThread_sealed (s : State) (g : Thread → Thread) : (s.modThread g).sealed = s.sealed := rfl
@[simp] theorem State.modThread_work (s : State) (g : Thread → Thread) : (s.modThread g).work = s.work := rfl
@[simp] theorem State.setCore_loadPlan (s : State) (c : Nat) (x : Core) : (s.setCore c x).loadPlan = s.loadPlan := rfl
@[simp] theorem State.modCore_loadPlan (s : State) (c : Nat) (g : Core → Core) : (s.modCore c g).loadPlan = s.loadPlan := rfl
@[simp] theorem State.modMe_loadPlan (s : State) (g : Core → Core) : (s.modMe g).loadPlan = s.loadPlan := rfl
@[simp] theorem State.modThread_loadPlan (s : State) (g : Thread → Thread) : (s.modThread g).loadPlan = s.loadPlan := rfl
@[simp] theorem State.setCore_firmware (s : State) (c : Nat) (x : Core) : (s.setCore c x).firmware = s.firmware := rfl
@[simp] theorem State.modCore_firmware (s : State) (c : Nat) (g : Core → Core) : (s.modCore c g).firmware = s.firmware := rfl
@[simp] theorem State.modMe_firmware (s : State) (g : Core → Core) : (s.modMe g).firmware = s.firmware := rfl
@[simp] theorem State.modThread_firmware (s : State) (g : Thread → Thread) : (s.modThread g).firmware = s.firmware := rfl
@[simp] theorem State.setCore_attestFails (s : State) (c : Nat) (x : Core) : (s.setCore c x).attestFails = s.attestFails := rfl
@[simp] theorem State.modCore_attestFails (s : State) (c : Nat) (g : Core → Core) : (s.modCore c g).attestFails = s.attestFails := rfl
@[simp] theorem State.modMe_attestFails (s : State) (g : Core → Core) : (s.modMe g).attestFails = s.attestFails := rfl
@[simp] theorem State.modThread_attestFails (s : State) (g : Thread → Thread) : (s.modThread g).attestFails = s.attestFails := rfl
@[simp] theorem State.setCore_hbmFails (s : State) (c : Nat) (x : Core) : (s.setCore c x).hbmFails = s.hbmFails := rfl
@[simp] theorem State.setCore_training (s : State) (c : Nat) (x : Core) : (s.setCore c x).training = s.training := rfl
@[simp] theorem State.modCore_hbmFails (s : State) (c : Nat) (g : Core → Core) : (s.modCore c g).hbmFails = s.hbmFails := rfl
@[simp] theorem State.modCore_training (s : State) (c : Nat) (g : Core → Core) : (s.modCore c g).training = s.training := rfl
@[simp] theorem State.modMe_hbmFails (s : State) (g : Core → Core) : (s.modMe g).hbmFails = s.hbmFails := rfl
@[simp] theorem State.modMe_training (s : State) (g : Core → Core) : (s.modMe g).training = s.training := rfl
@[simp] theorem State.modThread_hbmFails (s : State) (g : Thread → Thread) : (s.modThread g).hbmFails = s.hbmFails := rfl
@[simp] theorem State.modThread_training (s : State) (g : Thread → Thread) : (s.modThread g).training = s.training := rfl
@[simp] theorem State.setCore_inReset (s : State) (c : Nat) (x : Core) : (s.setCore c x).inReset = s.inReset := rfl
@[simp] theorem State.modCore_inReset (s : State) (c : Nat) (g : Core → Core) : (s.modCore c g).inReset = s.inReset := rfl
@[simp] theorem State.modMe_inReset (s : State) (g : Core → Core) : (s.modMe g).inReset = s.inReset := rfl
@[simp] theorem State.modThread_inReset (s : State) (g : Thread → Thread) : (s.modThread g).inReset = s.inReset := rfl
@[simp] theorem State.setCore_halfNs (s : State) (c : Nat) (x : Core) : (s.setCore c x).halfNs = s.halfNs := rfl
@[simp] theorem State.modCore_halfNs (s : State) (c : Nat) (g : Core → Core) : (s.modCore c g).halfNs = s.halfNs := rfl
@[simp] theorem State.modMe_halfNs (s : State) (g : Core → Core) : (s.modMe g).halfNs = s.halfNs := rfl
@[simp] theorem State.modThread_halfNs (s : State) (g : Thread → Thread) : (s.modThread g).halfNs = s.halfNs := rfl
@[simp] theorem State.setCore_agenda (s : State) (c : Nat) (x : Core) : (s.setCore c x).agenda = s.agenda := rfl
@[simp] theorem State.modCore_agenda (s : State) (c : Nat) (g : Core → Core) : (s.modCore c g).agenda = s.agenda := rfl
@[simp] theorem State.modMe_agenda (s : State) (g : Core → Core) : (s.modMe g).agenda = s.agenda := rfl
@[simp] theorem State.modThread_agenda (s : State) (g : Thread → Thread) : (s.modThread g).agenda = s.agenda := rfl
@[simp] theorem State.setCore_pred (s : State) (c : Nat) (x : Core) : (s.setCore c x).pred = s.pred := rfl
@[simp] theorem State.modCore_pred (s : State) (c : Nat) (g : Core → Core) : (s.modCore c g).pred = s.pred := rfl
@[simp] theorem State.modMe_pred (s : State) (g : Core → Core) : (s.modMe g).pred = s.pred := rfl
@[simp] theorem State.modThread_pred (s : State) (g : Thread → Thread) : (s.modThread g).pred = s.pred := rfl
@[simp] theorem State.setCore_free (s : State) (c : Nat) (x : Core) : (s.setCore c x).free = s.free := rfl
@[simp] theorem State.modCore_free (s : State) (c : Nat) (g : Core → Core) : (s.modCore c g).free = s.free := rfl
@[simp] theorem State.modMe_free (s : State) (g : Core → Core) : (s.modMe g).free = s.free := rfl
@[simp] theorem State.modThread_free (s : State) (g : Thread → Thread) : (s.modThread g).free = s.free := rfl

/-! ### Cores -/

@[simp] theorem State.core_setCore_same (s : State) (c : Nat) (x : Core) : (s.setCore c x).core c = x := by
  simp [State.core, State.setCore]

theorem State.core_setCore_ne (s : State) (c j : Nat) (x : Core) (h : j ≠ c) :
    (s.setCore c x).core j = s.core j := by
  simp [State.core, State.setCore, Tab.get_put_ne _ _ _ _ _ h]

@[simp] theorem State.core_modCore_same (s : State) (c : Nat) (f : Core → Core) :
    (s.modCore c f).core c = f (s.core c) := by simp [State.modCore]

theorem State.core_modCore_ne (s : State) (c j : Nat) (f : Core → Core) (h : j ≠ c) :
    (s.modCore c f).core j = s.core j := by simp [State.modCore, State.core_setCore_ne _ _ _ _ h]

@[simp] theorem State.me_modMe (s : State) (f : Core → Core) : (s.modMe f).me = f s.me := by
  simp [State.modMe, State.me]

theorem State.core_modMe_ne (s : State) (j : Nat) (f : Core → Core) (h : j ≠ s.cur) :
    (s.modMe f).core j = s.core j := State.core_modCore_ne s s.cur j f h

/-! ### Slots: every other field of the core -/

@[simp] theorem Core.setSlot_cycle (k : Core) (i : Nat) (x : Slot) : (k.setSlot i x).cycle = k.cycle := rfl
@[simp] theorem Core.setThread_cycle (k : Core) (i : Nat) (t : Option Thread) : (k.setThread i t).cycle = k.cycle := rfl
@[simp] theorem Core.modThread_cycle (k : Core) (i : Nat) (g : Thread → Thread) : (k.modThread i g).cycle = k.cycle := rfl
@[simp] theorem Core.setSlot_stopped (k : Core) (i : Nat) (x : Slot) : (k.setSlot i x).stopped = k.stopped := rfl
@[simp] theorem Core.setThread_stopped (k : Core) (i : Nat) (t : Option Thread) : (k.setThread i t).stopped = k.stopped := rfl
@[simp] theorem Core.modThread_stopped (k : Core) (i : Nat) (g : Thread → Thread) : (k.modThread i g).stopped = k.stopped := rfl
@[simp] theorem Core.setSlot_lbPend (k : Core) (i : Nat) (x : Slot) : (k.setSlot i x).lbPend = k.lbPend := rfl
@[simp] theorem Core.setThread_lbPend (k : Core) (i : Nat) (t : Option Thread) : (k.setThread i t).lbPend = k.lbPend := rfl
@[simp] theorem Core.modThread_lbPend (k : Core) (i : Nat) (g : Thread → Thread) : (k.modThread i g).lbPend = k.lbPend := rfl
@[simp] theorem Core.setSlot_lb (k : Core) (i : Nat) (x : Slot) : (k.setSlot i x).lb = k.lb := rfl
@[simp] theorem Core.setThread_lb (k : Core) (i : Nat) (t : Option Thread) : (k.setThread i t).lb = k.lb := rfl
@[simp] theorem Core.modThread_lb (k : Core) (i : Nat) (g : Thread → Thread) : (k.modThread i g).lb = k.lb := rfl
@[simp] theorem Core.setSlot_lines (k : Core) (i : Nat) (x : Slot) : (k.setSlot i x).lines = k.lines := rfl
@[simp] theorem Core.setThread_lines (k : Core) (i : Nat) (t : Option Thread) : (k.setThread i t).lines = k.lines := rfl
@[simp] theorem Core.modThread_lines (k : Core) (i : Nat) (g : Thread → Thread) : (k.modThread i g).lines = k.lines := rfl
@[simp] theorem Core.setSlot_dirty (k : Core) (i : Nat) (x : Slot) : (k.setSlot i x).dirty = k.dirty := rfl
@[simp] theorem Core.setThread_dirty (k : Core) (i : Nat) (t : Option Thread) : (k.setThread i t).dirty = k.dirty := rfl
@[simp] theorem Core.modThread_dirty (k : Core) (i : Nat) (g : Thread → Thread) : (k.modThread i g).dirty = k.dirty := rfl
@[simp] theorem Core.setSlot_store (k : Core) (i : Nat) (x : Slot) : (k.setSlot i x).store = k.store := rfl
@[simp] theorem Core.setThread_store (k : Core) (i : Nat) (t : Option Thread) : (k.setThread i t).store = k.store := rfl
@[simp] theorem Core.modThread_store (k : Core) (i : Nat) (g : Thread → Thread) : (k.modThread i g).store = k.store := rfl
@[simp] theorem Core.setSlot_h (k : Core) (i : Nat) (x : Slot) : (k.setSlot i x).h = k.h := rfl
@[simp] theorem Core.setThread_h (k : Core) (i : Nat) (t : Option Thread) : (k.setThread i t).h = k.h := rfl
@[simp] theorem Core.modThread_h (k : Core) (i : Nat) (g : Thread → Thread) : (k.modThread i g).h = k.h := rfl
@[simp] theorem Core.setSlot_hPend (k : Core) (i : Nat) (x : Slot) : (k.setSlot i x).hPend = k.hPend := rfl
@[simp] theorem Core.setThread_hPend (k : Core) (i : Nat) (t : Option Thread) : (k.setThread i t).hPend = k.hPend := rfl
@[simp] theorem Core.modThread_hPend (k : Core) (i : Nat) (g : Thread → Thread) : (k.modThread i g).hPend = k.hPend := rfl
@[simp] theorem Core.setSlot_rng (k : Core) (i : Nat) (x : Slot) : (k.setSlot i x).rng = k.rng := rfl
@[simp] theorem Core.setThread_rng (k : Core) (i : Nat) (t : Option Thread) : (k.setThread i t).rng = k.rng := rfl
@[simp] theorem Core.modThread_rng (k : Core) (i : Nat) (g : Thread → Thread) : (k.modThread i g).rng = k.rng := rfl
@[simp] theorem Core.setSlot_rseed (k : Core) (i : Nat) (x : Slot) : (k.setSlot i x).rseed = k.rseed := rfl
@[simp] theorem Core.setThread_rseed (k : Core) (i : Nat) (t : Option Thread) : (k.setThread i t).rseed = k.rseed := rfl
@[simp] theorem Core.modThread_rseed (k : Core) (i : Nat) (g : Thread → Thread) : (k.modThread i g).rseed = k.rseed := rfl
@[simp] theorem Core.setSlot_part0 (k : Core) (i : Nat) (x : Slot) : (k.setSlot i x).part0 = k.part0 := rfl
@[simp] theorem Core.setThread_part0 (k : Core) (i : Nat) (t : Option Thread) : (k.setThread i t).part0 = k.part0 := rfl
@[simp] theorem Core.modThread_part0 (k : Core) (i : Nat) (g : Thread → Thread) : (k.modThread i g).part0 = k.part0 := rfl
@[simp] theorem Core.setSlot_part1 (k : Core) (i : Nat) (x : Slot) : (k.setSlot i x).part1 = k.part1 := rfl
@[simp] theorem Core.setThread_part1 (k : Core) (i : Nat) (t : Option Thread) : (k.setThread i t).part1 = k.part1 := rfl
@[simp] theorem Core.modThread_part1 (k : Core) (i : Nat) (g : Thread → Thread) : (k.modThread i g).part1 = k.part1 := rfl
@[simp] theorem Core.setSlot_part2 (k : Core) (i : Nat) (x : Slot) : (k.setSlot i x).part2 = k.part2 := rfl
@[simp] theorem Core.setThread_part2 (k : Core) (i : Nat) (t : Option Thread) : (k.setThread i t).part2 = k.part2 := rfl
@[simp] theorem Core.modThread_part2 (k : Core) (i : Nat) (g : Thread → Thread) : (k.modThread i g).part2 = k.part2 := rfl
@[simp] theorem Core.setSlot_plock (k : Core) (i : Nat) (x : Slot) : (k.setSlot i x).plock = k.plock := rfl
@[simp] theorem Core.setThread_plock (k : Core) (i : Nat) (t : Option Thread) : (k.setThread i t).plock = k.plock := rfl
@[simp] theorem Core.modThread_plock (k : Core) (i : Nat) (g : Thread → Thread) : (k.modThread i g).plock = k.plock := rfl
@[simp] theorem Core.setSlot_partPend (k : Core) (i : Nat) (x : Slot) : (k.setSlot i x).partPend = k.partPend := rfl
@[simp] theorem Core.setThread_partPend (k : Core) (i : Nat) (t : Option Thread) : (k.setThread i t).partPend = k.partPend := rfl
@[simp] theorem Core.modThread_partPend (k : Core) (i : Nat) (g : Thread → Thread) : (k.modThread i g).partPend = k.partPend := rfl
@[simp] theorem Core.setSlot_ptPend (k : Core) (i : Nat) (x : Slot) : (k.setSlot i x).ptPend = k.ptPend := rfl
@[simp] theorem Core.setThread_ptPend (k : Core) (i : Nat) (t : Option Thread) : (k.setThread i t).ptPend = k.ptPend := rfl
@[simp] theorem Core.modThread_ptPend (k : Core) (i : Nat) (g : Thread → Thread) : (k.modThread i g).ptPend = k.ptPend := rfl
@[simp] theorem Core.setSlot_quant (k : Core) (i : Nat) (x : Slot) : (k.setSlot i x).quant = k.quant := rfl
@[simp] theorem Core.setThread_quant (k : Core) (i : Nat) (t : Option Thread) : (k.setThread i t).quant = k.quant := rfl
@[simp] theorem Core.modThread_quant (k : Core) (i : Nat) (g : Thread → Thread) : (k.modThread i g).quant = k.quant := rfl
@[simp] theorem Core.setSlot_frBase (k : Core) (i : Nat) (x : Slot) : (k.setSlot i x).frBase = k.frBase := rfl
@[simp] theorem Core.setThread_frBase (k : Core) (i : Nat) (t : Option Thread) : (k.setThread i t).frBase = k.frBase := rfl
@[simp] theorem Core.modThread_frBase (k : Core) (i : Nat) (g : Thread → Thread) : (k.modThread i g).frBase = k.frBase := rfl
@[simp] theorem Core.setSlot_frCount (k : Core) (i : Nat) (x : Slot) : (k.setSlot i x).frCount = k.frCount := rfl
@[simp] theorem Core.setThread_frCount (k : Core) (i : Nat) (t : Option Thread) : (k.setThread i t).frCount = k.frCount := rfl
@[simp] theorem Core.modThread_frCount (k : Core) (i : Nat) (g : Thread → Thread) : (k.modThread i g).frCount = k.frCount := rfl
@[simp] theorem Core.setSlot_frUsed (k : Core) (i : Nat) (x : Slot) : (k.setSlot i x).frUsed = k.frUsed := rfl
@[simp] theorem Core.setThread_frUsed (k : Core) (i : Nat) (t : Option Thread) : (k.setThread i t).frUsed = k.frUsed := rfl
@[simp] theorem Core.modThread_frUsed (k : Core) (i : Nat) (g : Thread → Thread) : (k.modThread i g).frUsed = k.frUsed := rfl
@[simp] theorem Core.setSlot_pool (k : Core) (i : Nat) (x : Slot) : (k.setSlot i x).pool = k.pool := rfl
@[simp] theorem Core.setThread_pool (k : Core) (i : Nat) (t : Option Thread) : (k.setThread i t).pool = k.pool := rfl
@[simp] theorem Core.modThread_pool (k : Core) (i : Nat) (g : Thread → Thread) : (k.modThread i g).pool = k.pool := rfl
@[simp] theorem Core.setSlot_sealReg (k : Core) (i : Nat) (x : Slot) : (k.setSlot i x).sealReg = k.sealReg := rfl
@[simp] theorem Core.setThread_sealReg (k : Core) (i : Nat) (t : Option Thread) : (k.setThread i t).sealReg = k.sealReg := rfl
@[simp] theorem Core.modThread_sealReg (k : Core) (i : Nat) (g : Thread → Thread) : (k.modThread i g).sealReg = k.sealReg := rfl
@[simp] theorem Core.setSlot_sealCtr (k : Core) (i : Nat) (x : Slot) : (k.setSlot i x).sealCtr = k.sealCtr := rfl
@[simp] theorem Core.setThread_sealCtr (k : Core) (i : Nat) (t : Option Thread) : (k.setThread i t).sealCtr = k.sealCtr := rfl
@[simp] theorem Core.modThread_sealCtr (k : Core) (i : Nat) (g : Thread → Thread) : (k.modThread i g).sealCtr = k.sealCtr := rfl
@[simp] theorem Core.setSlot_hOwner (k : Core) (i : Nat) (x : Slot) : (k.setSlot i x).hOwner = k.hOwner := rfl
@[simp] theorem Core.setThread_hOwner (k : Core) (i : Nat) (t : Option Thread) : (k.setThread i t).hOwner = k.hOwner := rfl
@[simp] theorem Core.modThread_hOwner (k : Core) (i : Nat) (g : Thread → Thread) : (k.modThread i g).hOwner = k.hOwner := rfl
@[simp] theorem Core.setSlot_bankOwner (k : Core) (i : Nat) (x : Slot) : (k.setSlot i x).bankOwner = k.bankOwner := rfl
@[simp] theorem Core.setThread_bankOwner (k : Core) (i : Nat) (t : Option Thread) : (k.setThread i t).bankOwner = k.bankOwner := rfl
@[simp] theorem Core.modThread_bankOwner (k : Core) (i : Nat) (g : Thread → Thread) : (k.modThread i g).bankOwner = k.bankOwner := rfl
@[simp] theorem Core.setSlot_accOwner (k : Core) (i : Nat) (x : Slot) : (k.setSlot i x).accOwner = k.accOwner := rfl
@[simp] theorem Core.setThread_accOwner (k : Core) (i : Nat) (t : Option Thread) : (k.setThread i t).accOwner = k.accOwner := rfl
@[simp] theorem Core.modThread_accOwner (k : Core) (i : Nat) (g : Thread → Thread) : (k.modThread i g).accOwner = k.accOwner := rfl
@[simp] theorem Core.setSlot_ringOwner (k : Core) (i : Nat) (x : Slot) : (k.setSlot i x).ringOwner = k.ringOwner := rfl
@[simp] theorem Core.setThread_ringOwner (k : Core) (i : Nat) (t : Option Thread) : (k.setThread i t).ringOwner = k.ringOwner := rfl
@[simp] theorem Core.modThread_ringOwner (k : Core) (i : Nat) (g : Thread → Thread) : (k.modThread i g).ringOwner = k.ringOwner := rfl
@[simp] theorem Core.setSlot_desc (k : Core) (i : Nat) (x : Slot) : (k.setSlot i x).desc = k.desc := rfl
@[simp] theorem Core.setThread_desc (k : Core) (i : Nat) (t : Option Thread) : (k.setThread i t).desc = k.desc := rfl
@[simp] theorem Core.modThread_desc (k : Core) (i : Nat) (g : Thread → Thread) : (k.modThread i g).desc = k.desc := rfl
@[simp] theorem Core.setSlot_cue (k : Core) (i : Nat) (x : Slot) : (k.setSlot i x).cue = k.cue := rfl
@[simp] theorem Core.setThread_cue (k : Core) (i : Nat) (t : Option Thread) : (k.setThread i t).cue = k.cue := rfl
@[simp] theorem Core.modThread_cue (k : Core) (i : Nat) (g : Thread → Thread) : (k.modThread i g).cue = k.cue := rfl
@[simp] theorem Core.setSlot_cuts (k : Core) (i : Nat) (x : Slot) : (k.setSlot i x).cuts = k.cuts := rfl
@[simp] theorem Core.setThread_cuts (k : Core) (i : Nat) (t : Option Thread) : (k.setThread i t).cuts = k.cuts := rfl
@[simp] theorem Core.modThread_cuts (k : Core) (i : Nat) (g : Thread → Thread) : (k.modThread i g).cuts = k.cuts := rfl
@[simp] theorem Core.setSlot_ring (k : Core) (i : Nat) (x : Slot) : (k.setSlot i x).ring = k.ring := rfl
@[simp] theorem Core.setThread_ring (k : Core) (i : Nat) (t : Option Thread) : (k.setThread i t).ring = k.ring := rfl
@[simp] theorem Core.modThread_ring (k : Core) (i : Nat) (g : Thread → Thread) : (k.modThread i g).ring = k.ring := rfl
@[simp] theorem Core.setSlot_ranges (k : Core) (i : Nat) (x : Slot) : (k.setSlot i x).ranges = k.ranges := rfl
@[simp] theorem Core.setThread_ranges (k : Core) (i : Nat) (t : Option Thread) : (k.setThread i t).ranges = k.ranges := rfl
@[simp] theorem Core.modThread_ranges (k : Core) (i : Nat) (g : Thread → Thread) : (k.modThread i g).ranges = k.ranges := rfl
@[simp] theorem Core.setSlot_copies (k : Core) (i : Nat) (x : Slot) : (k.setSlot i x).copies = k.copies := rfl
@[simp] theorem Core.setThread_copies (k : Core) (i : Nat) (t : Option Thread) : (k.setThread i t).copies = k.copies := rfl
@[simp] theorem Core.modThread_copies (k : Core) (i : Nat) (g : Thread → Thread) : (k.modThread i g).copies = k.copies := rfl
@[simp] theorem Core.setSlot_copied (k : Core) (i : Nat) (x : Slot) : (k.setSlot i x).copied = k.copied := rfl
@[simp] theorem Core.setThread_copied (k : Core) (i : Nat) (t : Option Thread) : (k.setThread i t).copied = k.copied := rfl
@[simp] theorem Core.modThread_copied (k : Core) (i : Nat) (g : Thread → Thread) : (k.modThread i g).copied = k.copied := rfl
@[simp] theorem Core.setSlot_mats (k : Core) (i : Nat) (x : Slot) : (k.setSlot i x).mats = k.mats := rfl
@[simp] theorem Core.setThread_mats (k : Core) (i : Nat) (t : Option Thread) : (k.setThread i t).mats = k.mats := rfl
@[simp] theorem Core.modThread_mats (k : Core) (i : Nat) (g : Thread → Thread) : (k.modThread i g).mats = k.mats := rfl
@[simp] theorem Core.setSlot_acc (k : Core) (i : Nat) (x : Slot) : (k.setSlot i x).acc = k.acc := rfl
@[simp] theorem Core.setThread_acc (k : Core) (i : Nat) (t : Option Thread) : (k.setThread i t).acc = k.acc := rfl
@[simp] theorem Core.modThread_acc (k : Core) (i : Nat) (g : Thread → Thread) : (k.modThread i g).acc = k.acc := rfl
@[simp] theorem Core.setSlot_fills (k : Core) (i : Nat) (x : Slot) : (k.setSlot i x).fills = k.fills := rfl
@[simp] theorem Core.setThread_fills (k : Core) (i : Nat) (t : Option Thread) : (k.setThread i t).fills = k.fills := rfl
@[simp] theorem Core.modThread_fills (k : Core) (i : Nat) (g : Thread → Thread) : (k.modThread i g).fills = k.fills := rfl
@[simp] theorem Core.setSlot_spawns (k : Core) (i : Nat) (x : Slot) : (k.setSlot i x).spawns = k.spawns := rfl
@[simp] theorem Core.setThread_spawns (k : Core) (i : Nat) (t : Option Thread) : (k.setThread i t).spawns = k.spawns := rfl
@[simp] theorem Core.modThread_spawns (k : Core) (i : Nat) (g : Thread → Thread) : (k.modThread i g).spawns = k.spawns := rfl
@[simp] theorem Core.setSlot_barwts (k : Core) (i : Nat) (x : Slot) : (k.setSlot i x).barwts = k.barwts := rfl
@[simp] theorem Core.setThread_barwts (k : Core) (i : Nat) (t : Option Thread) : (k.setThread i t).barwts = k.barwts := rfl
@[simp] theorem Core.modThread_barwts (k : Core) (i : Nat) (g : Thread → Thread) : (k.modThread i g).barwts = k.barwts := rfl
@[simp] theorem Core.setSlot_deque (k : Core) (i : Nat) (x : Slot) : (k.setSlot i x).deque = k.deque := rfl
@[simp] theorem Core.setThread_deque (k : Core) (i : Nat) (t : Option Thread) : (k.setThread i t).deque = k.deque := rfl
@[simp] theorem Core.modThread_deque (k : Core) (i : Nat) (g : Thread → Thread) : (k.modThread i g).deque = k.deque := rfl
@[simp] theorem Core.setSlot_pendHead (k : Core) (i : Nat) (x : Slot) : (k.setSlot i x).pendHead = k.pendHead := rfl
@[simp] theorem Core.setThread_pendHead (k : Core) (i : Nat) (t : Option Thread) : (k.setThread i t).pendHead = k.pendHead := rfl
@[simp] theorem Core.modThread_pendHead (k : Core) (i : Nat) (g : Thread → Thread) : (k.modThread i g).pendHead = k.pendHead := rfl
@[simp] theorem Core.setSlot_steals (k : Core) (i : Nat) (x : Slot) : (k.setSlot i x).steals = k.steals := rfl
@[simp] theorem Core.setThread_steals (k : Core) (i : Nat) (t : Option Thread) : (k.setThread i t).steals = k.steals := rfl
@[simp] theorem Core.modThread_steals (k : Core) (i : Nat) (g : Thread → Thread) : (k.modThread i g).steals = k.steals := rfl
@[simp] theorem Core.setSlot_saved (k : Core) (i : Nat) (x : Slot) : (k.setSlot i x).saved = k.saved := rfl
@[simp] theorem Core.setThread_saved (k : Core) (i : Nat) (t : Option Thread) : (k.setThread i t).saved = k.saved := rfl
@[simp] theorem Core.modThread_saved (k : Core) (i : Nat) (g : Thread → Thread) : (k.modThread i g).saved = k.saved := rfl
@[simp] theorem Core.setSlot_route (k : Core) (i : Nat) (x : Slot) : (k.setSlot i x).route = k.route := rfl
@[simp] theorem Core.setThread_route (k : Core) (i : Nat) (t : Option Thread) : (k.setThread i t).route = k.route := rfl
@[simp] theorem Core.modThread_route (k : Core) (i : Nat) (g : Thread → Thread) : (k.modThread i g).route = k.route := rfl
@[simp] theorem Core.setSlot_splice (k : Core) (i : Nat) (x : Slot) : (k.setSlot i x).splice = k.splice := rfl
@[simp] theorem Core.setThread_splice (k : Core) (i : Nat) (t : Option Thread) : (k.setThread i t).splice = k.splice := rfl
@[simp] theorem Core.modThread_splice (k : Core) (i : Nat) (g : Thread → Thread) : (k.modThread i g).splice = k.splice := rfl
@[simp] theorem Core.setSlot_routes (k : Core) (i : Nat) (x : Slot) : (k.setSlot i x).routes = k.routes := rfl
@[simp] theorem Core.setThread_routes (k : Core) (i : Nat) (t : Option Thread) : (k.setThread i t).routes = k.routes := rfl
@[simp] theorem Core.modThread_routes (k : Core) (i : Nat) (g : Thread → Thread) : (k.modThread i g).routes = k.routes := rfl
@[simp] theorem Core.setSlot_rxq (k : Core) (i : Nat) (x : Slot) : (k.setSlot i x).rxq = k.rxq := rfl
@[simp] theorem Core.setThread_rxq (k : Core) (i : Nat) (t : Option Thread) : (k.setThread i t).rxq = k.rxq := rfl
@[simp] theorem Core.modThread_rxq (k : Core) (i : Nat) (g : Thread → Thread) : (k.modThread i g).rxq = k.rxq := rfl
@[simp] theorem Core.setSlot_hold (k : Core) (i : Nat) (x : Slot) : (k.setSlot i x).hold = k.hold := rfl
@[simp] theorem Core.setSlot_routed (k : Core) (i : Nat) (x : Slot) : (k.setSlot i x).routed = k.routed := rfl
@[simp] theorem Core.setSlot_pageTurn (k : Core) (i : Nat) (x : Slot) : (k.setSlot i x).pageTurn = k.pageTurn := rfl
@[simp] theorem Core.setSlot_starved (k : Core) (i : Nat) (x : Slot) : (k.setSlot i x).starved = k.starved := rfl
@[simp] theorem Core.setThread_hold (k : Core) (i : Nat) (t : Option Thread) : (k.setThread i t).hold = k.hold := rfl
@[simp] theorem Core.setThread_routed (k : Core) (i : Nat) (t : Option Thread) : (k.setThread i t).routed = k.routed := rfl
@[simp] theorem Core.setThread_pageTurn (k : Core) (i : Nat) (t : Option Thread) : (k.setThread i t).pageTurn = k.pageTurn := rfl
@[simp] theorem Core.setThread_starved (k : Core) (i : Nat) (t : Option Thread) : (k.setThread i t).starved = k.starved := rfl
@[simp] theorem Core.modThread_hold (k : Core) (i : Nat) (g : Thread → Thread) : (k.modThread i g).hold = k.hold := rfl
@[simp] theorem Core.modThread_routed (k : Core) (i : Nat) (g : Thread → Thread) : (k.modThread i g).routed = k.routed := rfl
@[simp] theorem Core.modThread_pageTurn (k : Core) (i : Nat) (g : Thread → Thread) : (k.modThread i g).pageTurn = k.pageTurn := rfl
@[simp] theorem Core.modThread_starved (k : Core) (i : Nat) (g : Thread → Thread) : (k.modThread i g).starved = k.starved := rfl
@[simp] theorem Core.setSlot_preqDom (k : Core) (i : Nat) (x : Slot) : (k.setSlot i x).preqDom = k.preqDom := rfl
@[simp] theorem Core.setThread_preqDom (k : Core) (i : Nat) (t : Option Thread) : (k.setThread i t).preqDom = k.preqDom := rfl
@[simp] theorem Core.modThread_preqDom (k : Core) (i : Nat) (g : Thread → Thread) : (k.modThread i g).preqDom = k.preqDom := rfl
@[simp] theorem Core.setSlot_noticeLost (k : Core) (i : Nat) (x : Slot) : (k.setSlot i x).noticeLost = k.noticeLost := rfl
@[simp] theorem Core.setThread_noticeLost (k : Core) (i : Nat) (t : Option Thread) : (k.setThread i t).noticeLost = k.noticeLost := rfl
@[simp] theorem Core.modThread_noticeLost (k : Core) (i : Nat) (g : Thread → Thread) : (k.modThread i g).noticeLost = k.noticeLost := rfl
@[simp] theorem Core.setSlot_evsel (k : Core) (i : Nat) (x : Slot) : (k.setSlot i x).evsel = k.evsel := rfl
@[simp] theorem Core.setThread_evsel (k : Core) (i : Nat) (t : Option Thread) : (k.setThread i t).evsel = k.evsel := rfl
@[simp] theorem Core.modThread_evsel (k : Core) (i : Nat) (g : Thread → Thread) : (k.modThread i g).evsel = k.evsel := rfl
@[simp] theorem Core.setSlot_evcnt (k : Core) (i : Nat) (x : Slot) : (k.setSlot i x).evcnt = k.evcnt := rfl
@[simp] theorem Core.setThread_evcnt (k : Core) (i : Nat) (t : Option Thread) : (k.setThread i t).evcnt = k.evcnt := rfl
@[simp] theorem Core.modThread_evcnt (k : Core) (i : Nat) (g : Thread → Thread) : (k.modThread i g).evcnt = k.evcnt := rfl
@[simp] theorem Core.setSlot_tally (k : Core) (i : Nat) (x : Slot) : (k.setSlot i x).tally = k.tally := rfl
@[simp] theorem Core.setThread_tally (k : Core) (i : Nat) (t : Option Thread) : (k.setThread i t).tally = k.tally := rfl
@[simp] theorem Core.modThread_tally (k : Core) (i : Nat) (g : Thread → Thread) : (k.modThread i g).tally = k.tally := rfl
@[simp] theorem Core.count_cycle (k : Core) (code : Nat) (slot : Option Nat) (d n : Nat) : (k.count code slot d n).cycle = k.cycle := by unfold Core.count; split <;> rfl
@[simp] theorem Core.count_slots (k : Core) (code : Nat) (slot : Option Nat) (d n : Nat) : (k.count code slot d n).slots = k.slots := by unfold Core.count; split <;> rfl
@[simp] theorem Core.count_stopped (k : Core) (code : Nat) (slot : Option Nat) (d n : Nat) : (k.count code slot d n).stopped = k.stopped := by unfold Core.count; split <;> rfl
@[simp] theorem Core.count_lbPend (k : Core) (code : Nat) (slot : Option Nat) (d n : Nat) : (k.count code slot d n).lbPend = k.lbPend := by unfold Core.count; split <;> rfl
@[simp] theorem Core.count_lb (k : Core) (code : Nat) (slot : Option Nat) (d n : Nat) : (k.count code slot d n).lb = k.lb := by unfold Core.count; split <;> rfl
@[simp] theorem Core.count_lines (k : Core) (code : Nat) (slot : Option Nat) (d n : Nat) : (k.count code slot d n).lines = k.lines := by unfold Core.count; split <;> rfl
@[simp] theorem Core.count_dirty (k : Core) (code : Nat) (slot : Option Nat) (d n : Nat) : (k.count code slot d n).dirty = k.dirty := by unfold Core.count; split <;> rfl
@[simp] theorem Core.count_store (k : Core) (code : Nat) (slot : Option Nat) (d n : Nat) : (k.count code slot d n).store = k.store := by unfold Core.count; split <;> rfl
@[simp] theorem Core.count_h (k : Core) (code : Nat) (slot : Option Nat) (d n : Nat) : (k.count code slot d n).h = k.h := by unfold Core.count; split <;> rfl
@[simp] theorem Core.count_hPend (k : Core) (code : Nat) (slot : Option Nat) (d n : Nat) : (k.count code slot d n).hPend = k.hPend := by unfold Core.count; split <;> rfl
@[simp] theorem Core.count_rng (k : Core) (code : Nat) (slot : Option Nat) (d n : Nat) : (k.count code slot d n).rng = k.rng := by unfold Core.count; split <;> rfl
@[simp] theorem Core.count_rseed (k : Core) (code : Nat) (slot : Option Nat) (d n : Nat) : (k.count code slot d n).rseed = k.rseed := by unfold Core.count; split <;> rfl
@[simp] theorem Core.count_part0 (k : Core) (code : Nat) (slot : Option Nat) (d n : Nat) : (k.count code slot d n).part0 = k.part0 := by unfold Core.count; split <;> rfl
@[simp] theorem Core.count_part1 (k : Core) (code : Nat) (slot : Option Nat) (d n : Nat) : (k.count code slot d n).part1 = k.part1 := by unfold Core.count; split <;> rfl
@[simp] theorem Core.count_part2 (k : Core) (code : Nat) (slot : Option Nat) (d n : Nat) : (k.count code slot d n).part2 = k.part2 := by unfold Core.count; split <;> rfl
@[simp] theorem Core.count_plock (k : Core) (code : Nat) (slot : Option Nat) (d n : Nat) : (k.count code slot d n).plock = k.plock := by unfold Core.count; split <;> rfl
@[simp] theorem Core.count_partPend (k : Core) (code : Nat) (slot : Option Nat) (d n : Nat) : (k.count code slot d n).partPend = k.partPend := by unfold Core.count; split <;> rfl
@[simp] theorem Core.count_ptPend (k : Core) (code : Nat) (slot : Option Nat) (d n : Nat) : (k.count code slot d n).ptPend = k.ptPend := by unfold Core.count; split <;> rfl
@[simp] theorem Core.count_quant (k : Core) (code : Nat) (slot : Option Nat) (d n : Nat) : (k.count code slot d n).quant = k.quant := by unfold Core.count; split <;> rfl
@[simp] theorem Core.count_frBase (k : Core) (code : Nat) (slot : Option Nat) (d n : Nat) : (k.count code slot d n).frBase = k.frBase := by unfold Core.count; split <;> rfl
@[simp] theorem Core.count_frCount (k : Core) (code : Nat) (slot : Option Nat) (d n : Nat) : (k.count code slot d n).frCount = k.frCount := by unfold Core.count; split <;> rfl
@[simp] theorem Core.count_frUsed (k : Core) (code : Nat) (slot : Option Nat) (d n : Nat) : (k.count code slot d n).frUsed = k.frUsed := by unfold Core.count; split <;> rfl
@[simp] theorem Core.count_pool (k : Core) (code : Nat) (slot : Option Nat) (d n : Nat) : (k.count code slot d n).pool = k.pool := by unfold Core.count; split <;> rfl
@[simp] theorem Core.count_sealReg (k : Core) (code : Nat) (slot : Option Nat) (d n : Nat) : (k.count code slot d n).sealReg = k.sealReg := by unfold Core.count; split <;> rfl
@[simp] theorem Core.count_sealCtr (k : Core) (code : Nat) (slot : Option Nat) (d n : Nat) : (k.count code slot d n).sealCtr = k.sealCtr := by unfold Core.count; split <;> rfl
@[simp] theorem Core.count_hOwner (k : Core) (code : Nat) (slot : Option Nat) (d n : Nat) : (k.count code slot d n).hOwner = k.hOwner := by unfold Core.count; split <;> rfl
@[simp] theorem Core.count_bankOwner (k : Core) (code : Nat) (slot : Option Nat) (d n : Nat) : (k.count code slot d n).bankOwner = k.bankOwner := by unfold Core.count; split <;> rfl
@[simp] theorem Core.count_accOwner (k : Core) (code : Nat) (slot : Option Nat) (d n : Nat) : (k.count code slot d n).accOwner = k.accOwner := by unfold Core.count; split <;> rfl
@[simp] theorem Core.count_ringOwner (k : Core) (code : Nat) (slot : Option Nat) (d n : Nat) : (k.count code slot d n).ringOwner = k.ringOwner := by unfold Core.count; split <;> rfl
@[simp] theorem Core.count_desc (k : Core) (code : Nat) (slot : Option Nat) (d n : Nat) : (k.count code slot d n).desc = k.desc := by unfold Core.count; split <;> rfl
@[simp] theorem Core.count_cue (k : Core) (code : Nat) (slot : Option Nat) (d n : Nat) : (k.count code slot d n).cue = k.cue := by unfold Core.count; split <;> rfl
@[simp] theorem Core.count_cuts (k : Core) (code : Nat) (slot : Option Nat) (d n : Nat) : (k.count code slot d n).cuts = k.cuts := by unfold Core.count; split <;> rfl
@[simp] theorem Core.count_ring (k : Core) (code : Nat) (slot : Option Nat) (d n : Nat) : (k.count code slot d n).ring = k.ring := by unfold Core.count; split <;> rfl
@[simp] theorem Core.count_ranges (k : Core) (code : Nat) (slot : Option Nat) (d n : Nat) : (k.count code slot d n).ranges = k.ranges := by unfold Core.count; split <;> rfl
@[simp] theorem Core.count_copies (k : Core) (code : Nat) (slot : Option Nat) (d n : Nat) : (k.count code slot d n).copies = k.copies := by unfold Core.count; split <;> rfl
@[simp] theorem Core.count_copied (k : Core) (code : Nat) (slot : Option Nat) (d n : Nat) : (k.count code slot d n).copied = k.copied := by unfold Core.count; split <;> rfl
@[simp] theorem Core.count_mats (k : Core) (code : Nat) (slot : Option Nat) (d n : Nat) : (k.count code slot d n).mats = k.mats := by unfold Core.count; split <;> rfl
@[simp] theorem Core.count_acc (k : Core) (code : Nat) (slot : Option Nat) (d n : Nat) : (k.count code slot d n).acc = k.acc := by unfold Core.count; split <;> rfl
@[simp] theorem Core.count_fills (k : Core) (code : Nat) (slot : Option Nat) (d n : Nat) : (k.count code slot d n).fills = k.fills := by unfold Core.count; split <;> rfl
@[simp] theorem Core.count_spawns (k : Core) (code : Nat) (slot : Option Nat) (d n : Nat) : (k.count code slot d n).spawns = k.spawns := by unfold Core.count; split <;> rfl
@[simp] theorem Core.count_barwts (k : Core) (code : Nat) (slot : Option Nat) (d n : Nat) : (k.count code slot d n).barwts = k.barwts := by unfold Core.count; split <;> rfl
@[simp] theorem Core.count_deque (k : Core) (code : Nat) (slot : Option Nat) (d n : Nat) : (k.count code slot d n).deque = k.deque := by unfold Core.count; split <;> rfl
@[simp] theorem Core.count_pendHead (k : Core) (code : Nat) (slot : Option Nat) (d n : Nat) : (k.count code slot d n).pendHead = k.pendHead := by unfold Core.count; split <;> rfl
@[simp] theorem Core.count_steals (k : Core) (code : Nat) (slot : Option Nat) (d n : Nat) : (k.count code slot d n).steals = k.steals := by unfold Core.count; split <;> rfl
@[simp] theorem Core.count_saved (k : Core) (code : Nat) (slot : Option Nat) (d n : Nat) : (k.count code slot d n).saved = k.saved := by unfold Core.count; split <;> rfl
@[simp] theorem Core.count_route (k : Core) (code : Nat) (slot : Option Nat) (d n : Nat) : (k.count code slot d n).route = k.route := by unfold Core.count; split <;> rfl
@[simp] theorem Core.count_splice (k : Core) (code : Nat) (slot : Option Nat) (d n : Nat) : (k.count code slot d n).splice = k.splice := by unfold Core.count; split <;> rfl
@[simp] theorem Core.count_routes (k : Core) (code : Nat) (slot : Option Nat) (d n : Nat) : (k.count code slot d n).routes = k.routes := by unfold Core.count; split <;> rfl
@[simp] theorem Core.count_rxq (k : Core) (code : Nat) (slot : Option Nat) (d n : Nat) : (k.count code slot d n).rxq = k.rxq := by unfold Core.count; split <;> rfl
@[simp] theorem Core.count_hold (k : Core) (code : Nat) (slot : Option Nat) (d n : Nat) : (k.count code slot d n).hold = k.hold := by unfold Core.count; split <;> rfl
@[simp] theorem Core.count_routed (k : Core) (code : Nat) (slot : Option Nat) (d n : Nat) : (k.count code slot d n).routed = k.routed := by unfold Core.count; split <;> rfl
@[simp] theorem Core.count_pageTurn (k : Core) (code : Nat) (slot : Option Nat) (d n : Nat) : (k.count code slot d n).pageTurn = k.pageTurn := by unfold Core.count; split <;> rfl
@[simp] theorem Core.count_starved (k : Core) (code : Nat) (slot : Option Nat) (d n : Nat) : (k.count code slot d n).starved = k.starved := by unfold Core.count; split <;> rfl
@[simp] theorem Core.count_preqDom (k : Core) (code : Nat) (slot : Option Nat) (d n : Nat) : (k.count code slot d n).preqDom = k.preqDom := by unfold Core.count; split <;> rfl
@[simp] theorem Core.count_noticeLost (k : Core) (code : Nat) (slot : Option Nat) (d n : Nat) : (k.count code slot d n).noticeLost = k.noticeLost := by unfold Core.count; split <;> rfl
@[simp] theorem Core.count_evsel (k : Core) (code : Nat) (slot : Option Nat) (d n : Nat) : (k.count code slot d n).evsel = k.evsel := by unfold Core.count; split <;> rfl
@[simp] theorem Core.count_evcnt (k : Core) (code : Nat) (slot : Option Nat) (d n : Nat) : (k.count code slot d n).evcnt = k.evcnt := by unfold Core.count; split <;> rfl
@[simp] theorem Core.addFill_cycle (k : Core) (x : Fill) : (k.addFill x).cycle = k.cycle := rfl
@[simp] theorem Core.addFill_slots (k : Core) (x : Fill) : (k.addFill x).slots = k.slots := rfl
@[simp] theorem Core.addFill_stopped (k : Core) (x : Fill) : (k.addFill x).stopped = k.stopped := rfl
@[simp] theorem Core.addFill_lbPend (k : Core) (x : Fill) : (k.addFill x).lbPend = k.lbPend := rfl
@[simp] theorem Core.addFill_lb (k : Core) (x : Fill) : (k.addFill x).lb = k.lb := rfl
@[simp] theorem Core.addFill_lines (k : Core) (x : Fill) : (k.addFill x).lines = k.lines := rfl
@[simp] theorem Core.addFill_dirty (k : Core) (x : Fill) : (k.addFill x).dirty = k.dirty := rfl
@[simp] theorem Core.addFill_store (k : Core) (x : Fill) : (k.addFill x).store = k.store := rfl
@[simp] theorem Core.addFill_h (k : Core) (x : Fill) : (k.addFill x).h = k.h := rfl
@[simp] theorem Core.addFill_hPend (k : Core) (x : Fill) : (k.addFill x).hPend = k.hPend := rfl
@[simp] theorem Core.addFill_rng (k : Core) (x : Fill) : (k.addFill x).rng = k.rng := rfl
@[simp] theorem Core.addFill_rseed (k : Core) (x : Fill) : (k.addFill x).rseed = k.rseed := rfl
@[simp] theorem Core.addFill_part0 (k : Core) (x : Fill) : (k.addFill x).part0 = k.part0 := rfl
@[simp] theorem Core.addFill_part1 (k : Core) (x : Fill) : (k.addFill x).part1 = k.part1 := rfl
@[simp] theorem Core.addFill_part2 (k : Core) (x : Fill) : (k.addFill x).part2 = k.part2 := rfl
@[simp] theorem Core.addFill_plock (k : Core) (x : Fill) : (k.addFill x).plock = k.plock := rfl
@[simp] theorem Core.addFill_partPend (k : Core) (x : Fill) : (k.addFill x).partPend = k.partPend := rfl
@[simp] theorem Core.addFill_ptPend (k : Core) (x : Fill) : (k.addFill x).ptPend = k.ptPend := rfl
@[simp] theorem Core.addFill_quant (k : Core) (x : Fill) : (k.addFill x).quant = k.quant := rfl
@[simp] theorem Core.addFill_frBase (k : Core) (x : Fill) : (k.addFill x).frBase = k.frBase := rfl
@[simp] theorem Core.addFill_frCount (k : Core) (x : Fill) : (k.addFill x).frCount = k.frCount := rfl
@[simp] theorem Core.addFill_frUsed (k : Core) (x : Fill) : (k.addFill x).frUsed = k.frUsed := rfl
@[simp] theorem Core.addFill_pool (k : Core) (x : Fill) : (k.addFill x).pool = k.pool := rfl
@[simp] theorem Core.addFill_sealReg (k : Core) (x : Fill) : (k.addFill x).sealReg = k.sealReg := rfl
@[simp] theorem Core.addFill_sealCtr (k : Core) (x : Fill) : (k.addFill x).sealCtr = k.sealCtr := rfl
@[simp] theorem Core.addFill_hOwner (k : Core) (x : Fill) : (k.addFill x).hOwner = k.hOwner := rfl
@[simp] theorem Core.addFill_bankOwner (k : Core) (x : Fill) : (k.addFill x).bankOwner = k.bankOwner := rfl
@[simp] theorem Core.addFill_accOwner (k : Core) (x : Fill) : (k.addFill x).accOwner = k.accOwner := rfl
@[simp] theorem Core.addFill_ringOwner (k : Core) (x : Fill) : (k.addFill x).ringOwner = k.ringOwner := rfl
@[simp] theorem Core.addFill_desc (k : Core) (x : Fill) : (k.addFill x).desc = k.desc := rfl
@[simp] theorem Core.addFill_cue (k : Core) (x : Fill) : (k.addFill x).cue = k.cue := rfl
@[simp] theorem Core.addFill_cuts (k : Core) (x : Fill) : (k.addFill x).cuts = k.cuts := rfl
@[simp] theorem Core.addFill_ring (k : Core) (x : Fill) : (k.addFill x).ring = k.ring := rfl
@[simp] theorem Core.addFill_ranges (k : Core) (x : Fill) : (k.addFill x).ranges = k.ranges := rfl
@[simp] theorem Core.addFill_copies (k : Core) (x : Fill) : (k.addFill x).copies = k.copies := rfl
@[simp] theorem Core.addFill_copied (k : Core) (x : Fill) : (k.addFill x).copied = k.copied := rfl
@[simp] theorem Core.addFill_mats (k : Core) (x : Fill) : (k.addFill x).mats = k.mats := rfl
@[simp] theorem Core.addFill_acc (k : Core) (x : Fill) : (k.addFill x).acc = k.acc := rfl
@[simp] theorem Core.addFill_spawns (k : Core) (x : Fill) : (k.addFill x).spawns = k.spawns := rfl
@[simp] theorem Core.addFill_barwts (k : Core) (x : Fill) : (k.addFill x).barwts = k.barwts := rfl
@[simp] theorem Core.addFill_deque (k : Core) (x : Fill) : (k.addFill x).deque = k.deque := rfl
@[simp] theorem Core.addFill_pendHead (k : Core) (x : Fill) : (k.addFill x).pendHead = k.pendHead := rfl
@[simp] theorem Core.addFill_steals (k : Core) (x : Fill) : (k.addFill x).steals = k.steals := rfl
@[simp] theorem Core.addFill_saved (k : Core) (x : Fill) : (k.addFill x).saved = k.saved := rfl
@[simp] theorem Core.addFill_route (k : Core) (x : Fill) : (k.addFill x).route = k.route := rfl
@[simp] theorem Core.addFill_splice (k : Core) (x : Fill) : (k.addFill x).splice = k.splice := rfl
@[simp] theorem Core.addFill_routes (k : Core) (x : Fill) : (k.addFill x).routes = k.routes := rfl
@[simp] theorem Core.addFill_rxq (k : Core) (x : Fill) : (k.addFill x).rxq = k.rxq := rfl
@[simp] theorem Core.addFill_hold (k : Core) (x : Fill) : (k.addFill x).hold = k.hold := rfl
@[simp] theorem Core.addFill_routed (k : Core) (x : Fill) : (k.addFill x).routed = k.routed := rfl
@[simp] theorem Core.addFill_pageTurn (k : Core) (x : Fill) : (k.addFill x).pageTurn = k.pageTurn := rfl
@[simp] theorem Core.addFill_starved (k : Core) (x : Fill) : (k.addFill x).starved = k.starved := rfl
@[simp] theorem Core.addFill_preqDom (k : Core) (x : Fill) : (k.addFill x).preqDom = k.preqDom := rfl
@[simp] theorem Core.addFill_noticeLost (k : Core) (x : Fill) : (k.addFill x).noticeLost = k.noticeLost := rfl
@[simp] theorem Core.addFill_evsel (k : Core) (x : Fill) : (k.addFill x).evsel = k.evsel := rfl
@[simp] theorem Core.addFill_evcnt (k : Core) (x : Fill) : (k.addFill x).evcnt = k.evcnt := rfl
@[simp] theorem Core.addFill_tally (k : Core) (x : Fill) : (k.addFill x).tally = k.tally := rfl
@[simp] theorem Core.addFill_fills (k : Core) (x : Fill) : (k.addFill x).fills = k.fills ++ [x] := rfl

@[simp] theorem Core.turnSlot_setSlot (k : Core) (i : Nat) (x : Slot) : (k.setSlot i x).turnSlot = k.turnSlot := rfl
@[simp] theorem Core.turnSlot_setThread (k : Core) (i : Nat) (t : Option Thread) : (k.setThread i t).turnSlot = k.turnSlot := rfl
@[simp] theorem Core.turnSlot_modThread (k : Core) (i : Nat) (g : Thread → Thread) : (k.modThread i g).turnSlot = k.turnSlot := rfl

theorem Core.turnSlot_lt (k : Core) : k.turnSlot < 8 := Nat.mod_lt _ (by decide)

@[simp] theorem Core.slot_setSlot_same (k : Core) (i : Nat) (x : Slot) (h : i < 8) : (k.setSlot i x).slot i = x := by
  simp [Core.slot, Core.setSlot, h]

theorem Core.slot_setSlot_ne (k : Core) (i j : Nat) (x : Slot) (h : j ≠ i) : (k.setSlot i x).slot j = k.slot j := by
  simp [Core.slot, Core.setSlot, rd_wr_ne _ _ _ _ _ h]

@[simp] theorem Core.threadAt_setThread_same (k : Core) (i : Nat) (t : Option Thread) (h : i < 8) :
    (k.setThread i t).threadAt i = t := by simp [Core.threadAt, Core.setThread, h]

theorem Core.threadAt_setThread_ne (k : Core) (i j : Nat) (t : Option Thread) (h : j ≠ i) :
    (k.setThread i t).threadAt j = k.threadAt j := by
  simp [Core.threadAt, Core.setThread, Core.slot_setSlot_ne _ _ _ _ h]

@[simp] theorem Core.threadAt_modThread_same (k : Core) (i : Nat) (f : Thread → Thread) (h : i < 8) :
    (k.modThread i f).threadAt i = (k.threadAt i).map f := by simp [Core.modThread, h]

theorem Core.threadAt_modThread_ne (k : Core) (i j : Nat) (f : Thread → Thread) (h : j ≠ i) :
    (k.modThread i f).threadAt j = k.threadAt j := by simp [Core.modThread, Core.threadAt_setThread_ne _ _ _ _ h]

/-! ### The issuing thread -/

@[simp] theorem State.thread?_modThread (s : State) (f : Thread → Thread) :
    (s.modThread f).thread? = s.thread?.map f := by
  simp [State.modThread, State.thread?, Core.turnSlot_lt]

theorem State.thread_of_some {s : State} {t : Thread} (h : s.thread? = some t) : s.thread = t := by
  simp [State.thread, h]

theorem State.thread_modThread {s : State} {t : Thread} (h : s.thread? = some t) (f : Thread → Thread) :
    (s.modThread f).thread = f t := by simp [State.thread, h]

/-! ### Writes of threads: every other register -/

@[simp] theorem Thread.setG_tid (t : Thread) (d : Nat) (v : Word) : (t.setG d v).tid = t.tid := by unfold Thread.setG; split <;> rfl
@[simp] theorem Thread.setG_dom (t : Thread) (d : Nat) (v : Word) : (t.setG d v).dom = t.dom := by unfold Thread.setG; split <;> rfl
@[simp] theorem Thread.setG_launch (t : Thread) (d : Nat) (v : Word) : (t.setG d v).launch = t.launch := by unfold Thread.setG; split <;> rfl
@[simp] theorem Thread.setG_ctx (t : Thread) (d : Nat) (v : Word) : (t.setG d v).ctx = t.ctx := by unfold Thread.setG; split <;> rfl
@[simp] theorem Thread.setG_resident (t : Thread) (d : Nat) (v : Word) : (t.setG d v).resident = t.resident := by unfold Thread.setG; split <;> rfl
@[simp] theorem Thread.setG_status (t : Thread) (d : Nat) (v : Word) : (t.setG d v).status = t.status := by unfold Thread.setG; split <;> rfl
@[simp] theorem Thread.setG_pc (t : Thread) (d : Nat) (v : Word) : (t.setG d v).pc = t.pc := by unfold Thread.setG; split <;> rfl
@[simp] theorem Thread.setG_atLookup (t : Thread) (d : Nat) (v : Word) : (t.setG d v).atLookup = t.atLookup := by unfold Thread.setG; split <;> rfl
@[simp] theorem Thread.setG_chosen (t : Thread) (d : Nat) (v : Word) : (t.setG d v).chosen = t.chosen := by unfold Thread.setG; split <;> rfl
@[simp] theorem Thread.setG_wskip (t : Thread) (d : Nat) (v : Word) : (t.setG d v).wskip = t.wskip := by unfold Thread.setG; split <;> rfl
@[simp] theorem Thread.setG_holdUntil (t : Thread) (d : Nat) (v : Word) : (t.setG d v).holdUntil = t.holdUntil := by unfold Thread.setG; split <;> rfl
@[simp] theorem Thread.setG_f (t : Thread) (d : Nat) (v : Word) : (t.setG d v).f = t.f := by unfold Thread.setG; split <;> rfl
@[simp] theorem Thread.setG_c (t : Thread) (d : Nat) (v : Word) : (t.setG d v).c = t.c := by unfold Thread.setG; split <;> rfl
@[simp] theorem Thread.setG_q (t : Thread) (d : Nat) (v : Word) : (t.setG d v).q = t.q := by unfold Thread.setG; split <;> rfl
@[simp] theorem Thread.setG_v (t : Thread) (d : Nat) (v : Word) : (t.setG d v).v = t.v := by unfold Thread.setG; split <;> rfl
@[simp] theorem Thread.setG_m (t : Thread) (d : Nat) (v : Word) : (t.setG d v).m = t.m := by unfold Thread.setG; split <;> rfl
@[simp] theorem Thread.setG_pend (t : Thread) (d : Nat) (v : Word) : (t.setG d v).pend = t.pend := by unfold Thread.setG; split <;> rfl
@[simp] theorem Thread.setG_prm (t : Thread) (d : Nat) (v : Word) : (t.setG d v).prm = t.prm := by unfold Thread.setG; split <;> rfl
@[simp] theorem Thread.setG_tag (t : Thread) (d : Nat) (v : Word) : (t.setG d v).tag = t.tag := by unfold Thread.setG; split <;> rfl
@[simp] theorem Thread.setG_ident (t : Thread) (d : Nat) (v : Word) : (t.setG d v).ident = t.ident := by unfold Thread.setG; split <;> rfl
@[simp] theorem Thread.setG_seg (t : Thread) (d : Nat) (v : Word) : (t.setG d v).seg = t.seg := by unfold Thread.setG; split <;> rfl
@[simp] theorem Thread.setG_csp (t : Thread) (d : Nat) (v : Word) : (t.setG d v).csp = t.csp := by unfold Thread.setG; split <;> rfl
@[simp] theorem Thread.setG_cset (t : Thread) (d : Nat) (v : Word) : (t.setG d v).cset = t.cset := by unfold Thread.setG; split <;> rfl
@[simp] theorem Thread.setG_cfg (t : Thread) (d : Nat) (v : Word) : (t.setG d v).cfg = t.cfg := by unfold Thread.setG; split <;> rfl
@[simp] theorem Thread.setG_tcause (t : Thread) (d : Nat) (v : Word) : (t.setG d v).tcause = t.tcause := by unfold Thread.setG; split <;> rfl
@[simp] theorem Thread.setG_taddr (t : Thread) (d : Nat) (v : Word) : (t.setG d v).taddr = t.taddr := by unfold Thread.setG; split <;> rfl
@[simp] theorem Thread.setG_tdet0 (t : Thread) (d : Nat) (v : Word) : (t.setG d v).tdet0 = t.tdet0 := by unfold Thread.setG; split <;> rfl
@[simp] theorem Thread.setG_tdet1 (t : Thread) (d : Nat) (v : Word) : (t.setG d v).tdet1 = t.tdet1 := by unfold Thread.setG; split <;> rfl
@[simp] theorem Thread.setG_tret (t : Thread) (d : Nat) (v : Word) : (t.setG d v).tret = t.tret := by unfold Thread.setG; split <;> rfl
@[simp] theorem Thread.setG_tpend (t : Thread) (d : Nat) (v : Word) : (t.setG d v).tpend = t.tpend := by unfold Thread.setG; split <;> rfl
@[simp] theorem Thread.setG_hndl (t : Thread) (d : Nat) (v : Word) : (t.setG d v).hndl = t.hndl := by unfold Thread.setG; split <;> rfl
@[simp] theorem Thread.setG_dbi (t : Thread) (d : Nat) (v : Word) : (t.setG d v).dbi = t.dbi := by unfold Thread.setG; split <;> rfl
@[simp] theorem Thread.setG_dbw (t : Thread) (d : Nat) (v : Word) : (t.setG d v).dbw = t.dbw := by unfold Thread.setG; split <;> rfl
@[simp] theorem Thread.setG_events (t : Thread) (d : Nat) (v : Word) : (t.setG d v).events = t.events := by unfold Thread.setG; split <;> rfl
@[simp] theorem Thread.setG_yield (t : Thread) (d : Nat) (v : Word) : (t.setG d v).yield = t.yield := by unfold Thread.setG; split <;> rfl
@[simp] theorem Thread.setG_skipBp (t : Thread) (d : Nat) (v : Word) : (t.setG d v).skipBp = t.skipBp := by unfold Thread.setG; split <;> rfl
@[simp] theorem Thread.setG_gate (t : Thread) (d : Nat) (v : Word) : (t.setG d v).gate = t.gate := by unfold Thread.setG; split <;> rfl
@[simp] theorem Thread.setG_preq (t : Thread) (d : Nat) (v : Word) : (t.setG d v).preq = t.preq := by unfold Thread.setG; split <;> rfl
@[simp] theorem Thread.setG_refused (t : Thread) (d : Nat) (v : Word) : (t.setG d v).refused = t.refused := by unfold Thread.setG; split <;> rfl
@[simp] theorem Thread.setG_since (t : Thread) (d : Nat) (v : Word) : (t.setG d v).since = t.since := by unfold Thread.setG; split <;> rfl
@[simp] theorem Thread.setG_yieldAt (t : Thread) (d : Nat) (v : Word) : (t.setG d v).yieldAt = t.yieldAt := by unfold Thread.setG; split <;> rfl
@[simp] theorem Thread.setG_saveDue (t : Thread) (d : Nat) (v : Word) : (t.setG d v).saveDue = t.saveDue := by unfold Thread.setG; split <;> rfl
@[simp] theorem Thread.setG_saveNow (t : Thread) (d : Nat) (v : Word) : (t.setG d v).saveNow = t.saveNow := by unfold Thread.setG; split <;> rfl
@[simp] theorem Thread.setG_home (t : Thread) (d : Nat) (v : Word) : (t.setG d v).home = t.home := by unfold Thread.setG; split <;> rfl
@[simp] theorem Thread.setG_retFirst (t : Thread) (d : Nat) (v : Word) : (t.setG d v).retFirst = t.retFirst := by unfold Thread.setG; split <;> rfl
@[simp] theorem Thread.setG_first (t : Thread) (d : Nat) (v : Word) : (t.setG d v).first = t.first := by unfold Thread.setG; split <;> rfl
@[simp] theorem Thread.emptyG_tid (t : Thread) (d : Nat) : (t.emptyG d).tid = t.tid := by unfold Thread.emptyG; split <;> rfl
@[simp] theorem Thread.emptyG_dom (t : Thread) (d : Nat) : (t.emptyG d).dom = t.dom := by unfold Thread.emptyG; split <;> rfl
@[simp] theorem Thread.emptyG_launch (t : Thread) (d : Nat) : (t.emptyG d).launch = t.launch := by unfold Thread.emptyG; split <;> rfl
@[simp] theorem Thread.emptyG_ctx (t : Thread) (d : Nat) : (t.emptyG d).ctx = t.ctx := by unfold Thread.emptyG; split <;> rfl
@[simp] theorem Thread.emptyG_resident (t : Thread) (d : Nat) : (t.emptyG d).resident = t.resident := by unfold Thread.emptyG; split <;> rfl
@[simp] theorem Thread.emptyG_status (t : Thread) (d : Nat) : (t.emptyG d).status = t.status := by unfold Thread.emptyG; split <;> rfl
@[simp] theorem Thread.emptyG_pc (t : Thread) (d : Nat) : (t.emptyG d).pc = t.pc := by unfold Thread.emptyG; split <;> rfl
@[simp] theorem Thread.emptyG_atLookup (t : Thread) (d : Nat) : (t.emptyG d).atLookup = t.atLookup := by unfold Thread.emptyG; split <;> rfl
@[simp] theorem Thread.emptyG_chosen (t : Thread) (d : Nat) : (t.emptyG d).chosen = t.chosen := by unfold Thread.emptyG; split <;> rfl
@[simp] theorem Thread.emptyG_wskip (t : Thread) (d : Nat) : (t.emptyG d).wskip = t.wskip := by unfold Thread.emptyG; split <;> rfl
@[simp] theorem Thread.emptyG_holdUntil (t : Thread) (d : Nat) : (t.emptyG d).holdUntil = t.holdUntil := by unfold Thread.emptyG; split <;> rfl
@[simp] theorem Thread.emptyG_g (t : Thread) (d : Nat) : (t.emptyG d).g = t.g := by unfold Thread.emptyG; split <;> rfl
@[simp] theorem Thread.emptyG_f (t : Thread) (d : Nat) : (t.emptyG d).f = t.f := by unfold Thread.emptyG; split <;> rfl
@[simp] theorem Thread.emptyG_c (t : Thread) (d : Nat) : (t.emptyG d).c = t.c := by unfold Thread.emptyG; split <;> rfl
@[simp] theorem Thread.emptyG_q (t : Thread) (d : Nat) : (t.emptyG d).q = t.q := by unfold Thread.emptyG; split <;> rfl
@[simp] theorem Thread.emptyG_v (t : Thread) (d : Nat) : (t.emptyG d).v = t.v := by unfold Thread.emptyG; split <;> rfl
@[simp] theorem Thread.emptyG_m (t : Thread) (d : Nat) : (t.emptyG d).m = t.m := by unfold Thread.emptyG; split <;> rfl
@[simp] theorem Thread.emptyG_pend (t : Thread) (d : Nat) : (t.emptyG d).pend = t.pend := by unfold Thread.emptyG; split <;> rfl
@[simp] theorem Thread.emptyG_prm (t : Thread) (d : Nat) : (t.emptyG d).prm = t.prm := by unfold Thread.emptyG; split <;> rfl
@[simp] theorem Thread.emptyG_tag (t : Thread) (d : Nat) : (t.emptyG d).tag = t.tag := by unfold Thread.emptyG; split <;> rfl
@[simp] theorem Thread.emptyG_ident (t : Thread) (d : Nat) : (t.emptyG d).ident = t.ident := by unfold Thread.emptyG; split <;> rfl
@[simp] theorem Thread.emptyG_seg (t : Thread) (d : Nat) : (t.emptyG d).seg = t.seg := by unfold Thread.emptyG; split <;> rfl
@[simp] theorem Thread.emptyG_csp (t : Thread) (d : Nat) : (t.emptyG d).csp = t.csp := by unfold Thread.emptyG; split <;> rfl
@[simp] theorem Thread.emptyG_cset (t : Thread) (d : Nat) : (t.emptyG d).cset = t.cset := by unfold Thread.emptyG; split <;> rfl
@[simp] theorem Thread.emptyG_cfg (t : Thread) (d : Nat) : (t.emptyG d).cfg = t.cfg := by unfold Thread.emptyG; split <;> rfl
@[simp] theorem Thread.emptyG_tcause (t : Thread) (d : Nat) : (t.emptyG d).tcause = t.tcause := by unfold Thread.emptyG; split <;> rfl
@[simp] theorem Thread.emptyG_taddr (t : Thread) (d : Nat) : (t.emptyG d).taddr = t.taddr := by unfold Thread.emptyG; split <;> rfl
@[simp] theorem Thread.emptyG_tdet0 (t : Thread) (d : Nat) : (t.emptyG d).tdet0 = t.tdet0 := by unfold Thread.emptyG; split <;> rfl
@[simp] theorem Thread.emptyG_tdet1 (t : Thread) (d : Nat) : (t.emptyG d).tdet1 = t.tdet1 := by unfold Thread.emptyG; split <;> rfl
@[simp] theorem Thread.emptyG_tret (t : Thread) (d : Nat) : (t.emptyG d).tret = t.tret := by unfold Thread.emptyG; split <;> rfl
@[simp] theorem Thread.emptyG_tpend (t : Thread) (d : Nat) : (t.emptyG d).tpend = t.tpend := by unfold Thread.emptyG; split <;> rfl
@[simp] theorem Thread.emptyG_hndl (t : Thread) (d : Nat) : (t.emptyG d).hndl = t.hndl := by unfold Thread.emptyG; split <;> rfl
@[simp] theorem Thread.emptyG_dbi (t : Thread) (d : Nat) : (t.emptyG d).dbi = t.dbi := by unfold Thread.emptyG; split <;> rfl
@[simp] theorem Thread.emptyG_dbw (t : Thread) (d : Nat) : (t.emptyG d).dbw = t.dbw := by unfold Thread.emptyG; split <;> rfl
@[simp] theorem Thread.emptyG_events (t : Thread) (d : Nat) : (t.emptyG d).events = t.events := by unfold Thread.emptyG; split <;> rfl
@[simp] theorem Thread.emptyG_yield (t : Thread) (d : Nat) : (t.emptyG d).yield = t.yield := by unfold Thread.emptyG; split <;> rfl
@[simp] theorem Thread.emptyG_skipBp (t : Thread) (d : Nat) : (t.emptyG d).skipBp = t.skipBp := by unfold Thread.emptyG; split <;> rfl
@[simp] theorem Thread.emptyG_gate (t : Thread) (d : Nat) : (t.emptyG d).gate = t.gate := by unfold Thread.emptyG; split <;> rfl
@[simp] theorem Thread.emptyG_preq (t : Thread) (d : Nat) : (t.emptyG d).preq = t.preq := by unfold Thread.emptyG; split <;> rfl
@[simp] theorem Thread.emptyG_refused (t : Thread) (d : Nat) : (t.emptyG d).refused = t.refused := by unfold Thread.emptyG; split <;> rfl
@[simp] theorem Thread.emptyG_since (t : Thread) (d : Nat) : (t.emptyG d).since = t.since := by unfold Thread.emptyG; split <;> rfl
@[simp] theorem Thread.emptyG_yieldAt (t : Thread) (d : Nat) : (t.emptyG d).yieldAt = t.yieldAt := by unfold Thread.emptyG; split <;> rfl
@[simp] theorem Thread.emptyG_saveDue (t : Thread) (d : Nat) : (t.emptyG d).saveDue = t.saveDue := by unfold Thread.emptyG; split <;> rfl
@[simp] theorem Thread.emptyG_saveNow (t : Thread) (d : Nat) : (t.emptyG d).saveNow = t.saveNow := by unfold Thread.emptyG; split <;> rfl
@[simp] theorem Thread.emptyG_home (t : Thread) (d : Nat) : (t.emptyG d).home = t.home := by unfold Thread.emptyG; split <;> rfl
@[simp] theorem Thread.emptyG_retFirst (t : Thread) (d : Nat) : (t.emptyG d).retFirst = t.retFirst := by unfold Thread.emptyG; split <;> rfl
@[simp] theorem Thread.emptyG_first (t : Thread) (d : Nat) : (t.emptyG d).first = t.first := by unfold Thread.emptyG; split <;> rfl
@[simp] theorem Thread.advance_tid (t : Thread) (e : Bool) (w : BitVec 4) : (t.advance e w).tid = t.tid := rfl
@[simp] theorem Thread.advance_dom (t : Thread) (e : Bool) (w : BitVec 4) : (t.advance e w).dom = t.dom := rfl
@[simp] theorem Thread.advance_launch (t : Thread) (e : Bool) (w : BitVec 4) : (t.advance e w).launch = t.launch := rfl
@[simp] theorem Thread.advance_ctx (t : Thread) (e : Bool) (w : BitVec 4) : (t.advance e w).ctx = t.ctx := rfl
@[simp] theorem Thread.advance_resident (t : Thread) (e : Bool) (w : BitVec 4) : (t.advance e w).resident = t.resident := rfl
@[simp] theorem Thread.advance_status (t : Thread) (e : Bool) (w : BitVec 4) : (t.advance e w).status = t.status := rfl
@[simp] theorem Thread.advance_holdUntil (t : Thread) (e : Bool) (w : BitVec 4) : (t.advance e w).holdUntil = t.holdUntil := rfl
@[simp] theorem Thread.advance_g (t : Thread) (e : Bool) (w : BitVec 4) : (t.advance e w).g = t.g := rfl
@[simp] theorem Thread.advance_full (t : Thread) (e : Bool) (w : BitVec 4) : (t.advance e w).full = t.full := rfl
@[simp] theorem Thread.advance_f (t : Thread) (e : Bool) (w : BitVec 4) : (t.advance e w).f = t.f := rfl
@[simp] theorem Thread.advance_c (t : Thread) (e : Bool) (w : BitVec 4) : (t.advance e w).c = t.c := rfl
@[simp] theorem Thread.advance_q (t : Thread) (e : Bool) (w : BitVec 4) : (t.advance e w).q = t.q := rfl
@[simp] theorem Thread.advance_v (t : Thread) (e : Bool) (w : BitVec 4) : (t.advance e w).v = t.v := rfl
@[simp] theorem Thread.advance_m (t : Thread) (e : Bool) (w : BitVec 4) : (t.advance e w).m = t.m := rfl
@[simp] theorem Thread.advance_pend (t : Thread) (e : Bool) (w : BitVec 4) : (t.advance e w).pend = t.pend := rfl
@[simp] theorem Thread.advance_prm (t : Thread) (e : Bool) (w : BitVec 4) : (t.advance e w).prm = t.prm := rfl
@[simp] theorem Thread.advance_tag (t : Thread) (e : Bool) (w : BitVec 4) : (t.advance e w).tag = t.tag := rfl
@[simp] theorem Thread.advance_ident (t : Thread) (e : Bool) (w : BitVec 4) : (t.advance e w).ident = t.ident := rfl
@[simp] theorem Thread.advance_seg (t : Thread) (e : Bool) (w : BitVec 4) : (t.advance e w).seg = t.seg := rfl
@[simp] theorem Thread.advance_csp (t : Thread) (e : Bool) (w : BitVec 4) : (t.advance e w).csp = t.csp := rfl
@[simp] theorem Thread.advance_cset (t : Thread) (e : Bool) (w : BitVec 4) : (t.advance e w).cset = t.cset := rfl
@[simp] theorem Thread.advance_cfg (t : Thread) (e : Bool) (w : BitVec 4) : (t.advance e w).cfg = t.cfg := rfl
@[simp] theorem Thread.advance_tcause (t : Thread) (e : Bool) (w : BitVec 4) : (t.advance e w).tcause = t.tcause := rfl
@[simp] theorem Thread.advance_taddr (t : Thread) (e : Bool) (w : BitVec 4) : (t.advance e w).taddr = t.taddr := rfl
@[simp] theorem Thread.advance_tdet0 (t : Thread) (e : Bool) (w : BitVec 4) : (t.advance e w).tdet0 = t.tdet0 := rfl
@[simp] theorem Thread.advance_tdet1 (t : Thread) (e : Bool) (w : BitVec 4) : (t.advance e w).tdet1 = t.tdet1 := rfl
@[simp] theorem Thread.advance_tret (t : Thread) (e : Bool) (w : BitVec 4) : (t.advance e w).tret = t.tret := rfl
@[simp] theorem Thread.advance_tpend (t : Thread) (e : Bool) (w : BitVec 4) : (t.advance e w).tpend = t.tpend := rfl
@[simp] theorem Thread.advance_hndl (t : Thread) (e : Bool) (w : BitVec 4) : (t.advance e w).hndl = t.hndl := rfl
@[simp] theorem Thread.advance_dbi (t : Thread) (e : Bool) (w : BitVec 4) : (t.advance e w).dbi = t.dbi := rfl
@[simp] theorem Thread.advance_dbw (t : Thread) (e : Bool) (w : BitVec 4) : (t.advance e w).dbw = t.dbw := rfl
@[simp] theorem Thread.advance_events (t : Thread) (e : Bool) (w : BitVec 4) : (t.advance e w).events = t.events := rfl
@[simp] theorem Thread.advance_yield (t : Thread) (e : Bool) (w : BitVec 4) : (t.advance e w).yield = t.yield := rfl
@[simp] theorem Thread.advance_gate (t : Thread) (e : Bool) (w : BitVec 4) : (t.advance e w).gate = t.gate := rfl
@[simp] theorem Thread.advance_preq (t : Thread) (e : Bool) (w : BitVec 4) : (t.advance e w).preq = t.preq := rfl
@[simp] theorem Thread.advance_refused (t : Thread) (e : Bool) (w : BitVec 4) : (t.advance e w).refused = t.refused := rfl
@[simp] theorem Thread.advance_since (t : Thread) (e : Bool) (w : BitVec 4) : (t.advance e w).since = t.since := rfl
@[simp] theorem Thread.advance_yieldAt (t : Thread) (e : Bool) (w : BitVec 4) : (t.advance e w).yieldAt = t.yieldAt := rfl
@[simp] theorem Thread.advance_saveDue (t : Thread) (e : Bool) (w : BitVec 4) : (t.advance e w).saveDue = t.saveDue := rfl
@[simp] theorem Thread.advance_saveNow (t : Thread) (e : Bool) (w : BitVec 4) : (t.advance e w).saveNow = t.saveNow := rfl
@[simp] theorem Thread.advance_home (t : Thread) (e : Bool) (w : BitVec 4) : (t.advance e w).home = t.home := rfl
@[simp] theorem Thread.advance_retFirst (t : Thread) (e : Bool) (w : BitVec 4) : (t.advance e w).retFirst = t.retFirst := rfl
@[simp] theorem Thread.trapRegs_tid (t : Thread) (cause sub : Nat) (ta d0 d1 : Word) (kind set : Nat) : (t.trapRegs cause sub ta d0 d1 kind set).tid = t.tid := rfl
@[simp] theorem Thread.trapRegs_dom (t : Thread) (cause sub : Nat) (ta d0 d1 : Word) (kind set : Nat) : (t.trapRegs cause sub ta d0 d1 kind set).dom = t.dom := rfl
@[simp] theorem Thread.trapRegs_launch (t : Thread) (cause sub : Nat) (ta d0 d1 : Word) (kind set : Nat) : (t.trapRegs cause sub ta d0 d1 kind set).launch = t.launch := rfl
@[simp] theorem Thread.trapRegs_ctx (t : Thread) (cause sub : Nat) (ta d0 d1 : Word) (kind set : Nat) : (t.trapRegs cause sub ta d0 d1 kind set).ctx = t.ctx := rfl
@[simp] theorem Thread.trapRegs_resident (t : Thread) (cause sub : Nat) (ta d0 d1 : Word) (kind set : Nat) : (t.trapRegs cause sub ta d0 d1 kind set).resident = t.resident := rfl
@[simp] theorem Thread.trapRegs_status (t : Thread) (cause sub : Nat) (ta d0 d1 : Word) (kind set : Nat) : (t.trapRegs cause sub ta d0 d1 kind set).status = t.status := rfl
@[simp] theorem Thread.trapRegs_pc (t : Thread) (cause sub : Nat) (ta d0 d1 : Word) (kind set : Nat) : (t.trapRegs cause sub ta d0 d1 kind set).pc = t.pc := rfl
@[simp] theorem Thread.trapRegs_atLookup (t : Thread) (cause sub : Nat) (ta d0 d1 : Word) (kind set : Nat) : (t.trapRegs cause sub ta d0 d1 kind set).atLookup = t.atLookup := rfl
@[simp] theorem Thread.trapRegs_chosen (t : Thread) (cause sub : Nat) (ta d0 d1 : Word) (kind set : Nat) : (t.trapRegs cause sub ta d0 d1 kind set).chosen = t.chosen := rfl
@[simp] theorem Thread.trapRegs_wskip (t : Thread) (cause sub : Nat) (ta d0 d1 : Word) (kind set : Nat) : (t.trapRegs cause sub ta d0 d1 kind set).wskip = t.wskip := rfl
@[simp] theorem Thread.trapRegs_holdUntil (t : Thread) (cause sub : Nat) (ta d0 d1 : Word) (kind set : Nat) : (t.trapRegs cause sub ta d0 d1 kind set).holdUntil = t.holdUntil := rfl
@[simp] theorem Thread.trapRegs_g (t : Thread) (cause sub : Nat) (ta d0 d1 : Word) (kind set : Nat) : (t.trapRegs cause sub ta d0 d1 kind set).g = t.g := rfl
@[simp] theorem Thread.trapRegs_full (t : Thread) (cause sub : Nat) (ta d0 d1 : Word) (kind set : Nat) : (t.trapRegs cause sub ta d0 d1 kind set).full = t.full := rfl
@[simp] theorem Thread.trapRegs_f (t : Thread) (cause sub : Nat) (ta d0 d1 : Word) (kind set : Nat) : (t.trapRegs cause sub ta d0 d1 kind set).f = t.f := rfl
@[simp] theorem Thread.trapRegs_c (t : Thread) (cause sub : Nat) (ta d0 d1 : Word) (kind set : Nat) : (t.trapRegs cause sub ta d0 d1 kind set).c = t.c := rfl
@[simp] theorem Thread.trapRegs_q (t : Thread) (cause sub : Nat) (ta d0 d1 : Word) (kind set : Nat) : (t.trapRegs cause sub ta d0 d1 kind set).q = t.q := rfl
@[simp] theorem Thread.trapRegs_v (t : Thread) (cause sub : Nat) (ta d0 d1 : Word) (kind set : Nat) : (t.trapRegs cause sub ta d0 d1 kind set).v = t.v := rfl
@[simp] theorem Thread.trapRegs_m (t : Thread) (cause sub : Nat) (ta d0 d1 : Word) (kind set : Nat) : (t.trapRegs cause sub ta d0 d1 kind set).m = t.m := rfl
@[simp] theorem Thread.trapRegs_pend (t : Thread) (cause sub : Nat) (ta d0 d1 : Word) (kind set : Nat) : (t.trapRegs cause sub ta d0 d1 kind set).pend = t.pend := rfl
@[simp] theorem Thread.trapRegs_prm (t : Thread) (cause sub : Nat) (ta d0 d1 : Word) (kind set : Nat) : (t.trapRegs cause sub ta d0 d1 kind set).prm = t.prm := rfl
@[simp] theorem Thread.trapRegs_tag (t : Thread) (cause sub : Nat) (ta d0 d1 : Word) (kind set : Nat) : (t.trapRegs cause sub ta d0 d1 kind set).tag = t.tag := rfl
@[simp] theorem Thread.trapRegs_ident (t : Thread) (cause sub : Nat) (ta d0 d1 : Word) (kind set : Nat) : (t.trapRegs cause sub ta d0 d1 kind set).ident = t.ident := rfl
@[simp] theorem Thread.trapRegs_seg (t : Thread) (cause sub : Nat) (ta d0 d1 : Word) (kind set : Nat) : (t.trapRegs cause sub ta d0 d1 kind set).seg = t.seg := rfl
@[simp] theorem Thread.trapRegs_csp (t : Thread) (cause sub : Nat) (ta d0 d1 : Word) (kind set : Nat) : (t.trapRegs cause sub ta d0 d1 kind set).csp = t.csp := rfl
@[simp] theorem Thread.trapRegs_cset (t : Thread) (cause sub : Nat) (ta d0 d1 : Word) (kind set : Nat) : (t.trapRegs cause sub ta d0 d1 kind set).cset = t.cset := rfl
@[simp] theorem Thread.trapRegs_cfg (t : Thread) (cause sub : Nat) (ta d0 d1 : Word) (kind set : Nat) : (t.trapRegs cause sub ta d0 d1 kind set).cfg = t.cfg := rfl
@[simp] theorem Thread.trapRegs_tpend (t : Thread) (cause sub : Nat) (ta d0 d1 : Word) (kind set : Nat) : (t.trapRegs cause sub ta d0 d1 kind set).tpend = t.tpend := rfl
@[simp] theorem Thread.trapRegs_hndl (t : Thread) (cause sub : Nat) (ta d0 d1 : Word) (kind set : Nat) : (t.trapRegs cause sub ta d0 d1 kind set).hndl = t.hndl := rfl
@[simp] theorem Thread.trapRegs_dbi (t : Thread) (cause sub : Nat) (ta d0 d1 : Word) (kind set : Nat) : (t.trapRegs cause sub ta d0 d1 kind set).dbi = t.dbi := rfl
@[simp] theorem Thread.trapRegs_dbw (t : Thread) (cause sub : Nat) (ta d0 d1 : Word) (kind set : Nat) : (t.trapRegs cause sub ta d0 d1 kind set).dbw = t.dbw := rfl
@[simp] theorem Thread.trapRegs_events (t : Thread) (cause sub : Nat) (ta d0 d1 : Word) (kind set : Nat) : (t.trapRegs cause sub ta d0 d1 kind set).events = t.events := rfl
@[simp] theorem Thread.trapRegs_yield (t : Thread) (cause sub : Nat) (ta d0 d1 : Word) (kind set : Nat) : (t.trapRegs cause sub ta d0 d1 kind set).yield = t.yield := rfl
@[simp] theorem Thread.trapRegs_skipBp (t : Thread) (cause sub : Nat) (ta d0 d1 : Word) (kind set : Nat) : (t.trapRegs cause sub ta d0 d1 kind set).skipBp = t.skipBp := rfl
@[simp] theorem Thread.trapRegs_gate (t : Thread) (cause sub : Nat) (ta d0 d1 : Word) (kind set : Nat) : (t.trapRegs cause sub ta d0 d1 kind set).gate = t.gate := rfl
@[simp] theorem Thread.trapRegs_preq (t : Thread) (cause sub : Nat) (ta d0 d1 : Word) (kind set : Nat) : (t.trapRegs cause sub ta d0 d1 kind set).preq = t.preq := rfl
@[simp] theorem Thread.trapRegs_refused (t : Thread) (cause sub : Nat) (ta d0 d1 : Word) (kind set : Nat) : (t.trapRegs cause sub ta d0 d1 kind set).refused = t.refused := rfl
@[simp] theorem Thread.trapRegs_since (t : Thread) (cause sub : Nat) (ta d0 d1 : Word) (kind set : Nat) : (t.trapRegs cause sub ta d0 d1 kind set).since = t.since := rfl
@[simp] theorem Thread.trapRegs_yieldAt (t : Thread) (cause sub : Nat) (ta d0 d1 : Word) (kind set : Nat) : (t.trapRegs cause sub ta d0 d1 kind set).yieldAt = t.yieldAt := rfl
@[simp] theorem Thread.trapRegs_saveDue (t : Thread) (cause sub : Nat) (ta d0 d1 : Word) (kind set : Nat) : (t.trapRegs cause sub ta d0 d1 kind set).saveDue = t.saveDue := rfl
@[simp] theorem Thread.trapRegs_saveNow (t : Thread) (cause sub : Nat) (ta d0 d1 : Word) (kind set : Nat) : (t.trapRegs cause sub ta d0 d1 kind set).saveNow = t.saveNow := rfl
@[simp] theorem Thread.trapRegs_home (t : Thread) (cause sub : Nat) (ta d0 d1 : Word) (kind set : Nat) : (t.trapRegs cause sub ta d0 d1 kind set).home = t.home := rfl
@[simp] theorem Thread.trapRegs_retFirst (t : Thread) (cause sub : Nat) (ta d0 d1 : Word) (kind set : Nat) : (t.trapRegs cause sub ta d0 d1 kind set).retFirst = t.retFirst := rfl
@[simp] theorem Thread.trapRegs_first (t : Thread) (cause sub : Nat) (ta d0 d1 : Word) (kind set : Nat) : (t.trapRegs cause sub ta d0 d1 kind set).first = t.first := rfl
@[simp] theorem Thread.enter_tid (t : Thread) (cause sub set cycle : Nat) : (t.enter cause sub set cycle).tid = t.tid := rfl
@[simp] theorem Thread.enter_dom (t : Thread) (cause sub set cycle : Nat) : (t.enter cause sub set cycle).dom = t.dom := rfl
@[simp] theorem Thread.enter_launch (t : Thread) (cause sub set cycle : Nat) : (t.enter cause sub set cycle).launch = t.launch := rfl
@[simp] theorem Thread.enter_ctx (t : Thread) (cause sub set cycle : Nat) : (t.enter cause sub set cycle).ctx = t.ctx := rfl
@[simp] theorem Thread.enter_resident (t : Thread) (cause sub set cycle : Nat) : (t.enter cause sub set cycle).resident = t.resident := rfl
@[simp] theorem Thread.enter_wskip (t : Thread) (cause sub set cycle : Nat) : (t.enter cause sub set cycle).wskip = t.wskip := rfl
@[simp] theorem Thread.enter_g (t : Thread) (cause sub set cycle : Nat) : (t.enter cause sub set cycle).g = t.g := rfl
@[simp] theorem Thread.enter_full (t : Thread) (cause sub set cycle : Nat) : (t.enter cause sub set cycle).full = t.full := rfl
@[simp] theorem Thread.enter_f (t : Thread) (cause sub set cycle : Nat) : (t.enter cause sub set cycle).f = t.f := rfl
@[simp] theorem Thread.enter_c (t : Thread) (cause sub set cycle : Nat) : (t.enter cause sub set cycle).c = t.c := rfl
@[simp] theorem Thread.enter_q (t : Thread) (cause sub set cycle : Nat) : (t.enter cause sub set cycle).q = t.q := rfl
@[simp] theorem Thread.enter_v (t : Thread) (cause sub set cycle : Nat) : (t.enter cause sub set cycle).v = t.v := rfl
@[simp] theorem Thread.enter_m (t : Thread) (cause sub set cycle : Nat) : (t.enter cause sub set cycle).m = t.m := rfl
@[simp] theorem Thread.enter_pend (t : Thread) (cause sub set cycle : Nat) : (t.enter cause sub set cycle).pend = t.pend := rfl
@[simp] theorem Thread.enter_tag (t : Thread) (cause sub set cycle : Nat) : (t.enter cause sub set cycle).tag = t.tag := rfl
@[simp] theorem Thread.enter_ident (t : Thread) (cause sub set cycle : Nat) : (t.enter cause sub set cycle).ident = t.ident := rfl
@[simp] theorem Thread.enter_seg (t : Thread) (cause sub set cycle : Nat) : (t.enter cause sub set cycle).seg = t.seg := rfl
@[simp] theorem Thread.enter_csp (t : Thread) (cause sub set cycle : Nat) : (t.enter cause sub set cycle).csp = t.csp := rfl
@[simp] theorem Thread.enter_cfg (t : Thread) (cause sub set cycle : Nat) : (t.enter cause sub set cycle).cfg = t.cfg := rfl
@[simp] theorem Thread.enter_tcause (t : Thread) (cause sub set cycle : Nat) : (t.enter cause sub set cycle).tcause = t.tcause := rfl
@[simp] theorem Thread.enter_taddr (t : Thread) (cause sub set cycle : Nat) : (t.enter cause sub set cycle).taddr = t.taddr := rfl
@[simp] theorem Thread.enter_tdet0 (t : Thread) (cause sub set cycle : Nat) : (t.enter cause sub set cycle).tdet0 = t.tdet0 := rfl
@[simp] theorem Thread.enter_tdet1 (t : Thread) (cause sub set cycle : Nat) : (t.enter cause sub set cycle).tdet1 = t.tdet1 := rfl
@[simp] theorem Thread.enter_tret (t : Thread) (cause sub set cycle : Nat) : (t.enter cause sub set cycle).tret = t.tret := rfl
@[simp] theorem Thread.enter_tpend (t : Thread) (cause sub set cycle : Nat) : (t.enter cause sub set cycle).tpend = t.tpend := rfl
@[simp] theorem Thread.enter_hndl (t : Thread) (cause sub set cycle : Nat) : (t.enter cause sub set cycle).hndl = t.hndl := rfl
@[simp] theorem Thread.enter_dbi (t : Thread) (cause sub set cycle : Nat) : (t.enter cause sub set cycle).dbi = t.dbi := rfl
@[simp] theorem Thread.enter_dbw (t : Thread) (cause sub set cycle : Nat) : (t.enter cause sub set cycle).dbw = t.dbw := rfl
@[simp] theorem Thread.enter_events (t : Thread) (cause sub set cycle : Nat) : (t.enter cause sub set cycle).events = t.events := rfl
@[simp] theorem Thread.enter_gate (t : Thread) (cause sub set cycle : Nat) : (t.enter cause sub set cycle).gate = t.gate := rfl
@[simp] theorem Thread.enter_preq (t : Thread) (cause sub set cycle : Nat) : (t.enter cause sub set cycle).preq = t.preq := rfl
@[simp] theorem Thread.enter_refused (t : Thread) (cause sub set cycle : Nat) : (t.enter cause sub set cycle).refused = t.refused := rfl
@[simp] theorem Thread.enter_since (t : Thread) (cause sub set cycle : Nat) : (t.enter cause sub set cycle).since = t.since := rfl
@[simp] theorem Thread.enter_yieldAt (t : Thread) (cause sub set cycle : Nat) : (t.enter cause sub set cycle).yieldAt = t.yieldAt := rfl
@[simp] theorem Thread.enter_saveDue (t : Thread) (cause sub set cycle : Nat) : (t.enter cause sub set cycle).saveDue = t.saveDue := rfl
@[simp] theorem Thread.enter_saveNow (t : Thread) (cause sub set cycle : Nat) : (t.enter cause sub set cycle).saveNow = t.saveNow := rfl
@[simp] theorem Thread.enter_home (t : Thread) (cause sub set cycle : Nat) : (t.enter cause sub set cycle).home = t.home := rfl
@[simp] theorem Thread.double_tid (t : Thread) (cause sub : Nat) : (t.double cause sub).tid = t.tid := rfl
@[simp] theorem Thread.double_dom (t : Thread) (cause sub : Nat) : (t.double cause sub).dom = t.dom := rfl
@[simp] theorem Thread.double_launch (t : Thread) (cause sub : Nat) : (t.double cause sub).launch = t.launch := rfl
@[simp] theorem Thread.double_ctx (t : Thread) (cause sub : Nat) : (t.double cause sub).ctx = t.ctx := rfl
@[simp] theorem Thread.double_resident (t : Thread) (cause sub : Nat) : (t.double cause sub).resident = t.resident := rfl
@[simp] theorem Thread.double_pc (t : Thread) (cause sub : Nat) : (t.double cause sub).pc = t.pc := rfl
@[simp] theorem Thread.double_atLookup (t : Thread) (cause sub : Nat) : (t.double cause sub).atLookup = t.atLookup := rfl
@[simp] theorem Thread.double_chosen (t : Thread) (cause sub : Nat) : (t.double cause sub).chosen = t.chosen := rfl
@[simp] theorem Thread.double_wskip (t : Thread) (cause sub : Nat) : (t.double cause sub).wskip = t.wskip := rfl
@[simp] theorem Thread.double_holdUntil (t : Thread) (cause sub : Nat) : (t.double cause sub).holdUntil = t.holdUntil := rfl
@[simp] theorem Thread.double_g (t : Thread) (cause sub : Nat) : (t.double cause sub).g = t.g := rfl
@[simp] theorem Thread.double_full (t : Thread) (cause sub : Nat) : (t.double cause sub).full = t.full := rfl
@[simp] theorem Thread.double_f (t : Thread) (cause sub : Nat) : (t.double cause sub).f = t.f := rfl
@[simp] theorem Thread.double_c (t : Thread) (cause sub : Nat) : (t.double cause sub).c = t.c := rfl
@[simp] theorem Thread.double_q (t : Thread) (cause sub : Nat) : (t.double cause sub).q = t.q := rfl
@[simp] theorem Thread.double_v (t : Thread) (cause sub : Nat) : (t.double cause sub).v = t.v := rfl
@[simp] theorem Thread.double_m (t : Thread) (cause sub : Nat) : (t.double cause sub).m = t.m := rfl
@[simp] theorem Thread.double_pend (t : Thread) (cause sub : Nat) : (t.double cause sub).pend = t.pend := rfl
@[simp] theorem Thread.double_prm (t : Thread) (cause sub : Nat) : (t.double cause sub).prm = t.prm := rfl
@[simp] theorem Thread.double_tag (t : Thread) (cause sub : Nat) : (t.double cause sub).tag = t.tag := rfl
@[simp] theorem Thread.double_ident (t : Thread) (cause sub : Nat) : (t.double cause sub).ident = t.ident := rfl
@[simp] theorem Thread.double_seg (t : Thread) (cause sub : Nat) : (t.double cause sub).seg = t.seg := rfl
@[simp] theorem Thread.double_csp (t : Thread) (cause sub : Nat) : (t.double cause sub).csp = t.csp := rfl
@[simp] theorem Thread.double_cset (t : Thread) (cause sub : Nat) : (t.double cause sub).cset = t.cset := rfl
@[simp] theorem Thread.double_cfg (t : Thread) (cause sub : Nat) : (t.double cause sub).cfg = t.cfg := rfl
@[simp] theorem Thread.double_tcause (t : Thread) (cause sub : Nat) : (t.double cause sub).tcause = t.tcause := rfl
@[simp] theorem Thread.double_taddr (t : Thread) (cause sub : Nat) : (t.double cause sub).taddr = t.taddr := rfl
@[simp] theorem Thread.double_tdet0 (t : Thread) (cause sub : Nat) : (t.double cause sub).tdet0 = t.tdet0 := rfl
@[simp] theorem Thread.double_tdet1 (t : Thread) (cause sub : Nat) : (t.double cause sub).tdet1 = t.tdet1 := rfl
@[simp] theorem Thread.double_tret (t : Thread) (cause sub : Nat) : (t.double cause sub).tret = t.tret := rfl
@[simp] theorem Thread.double_tpend (t : Thread) (cause sub : Nat) : (t.double cause sub).tpend = t.tpend := rfl
@[simp] theorem Thread.double_hndl (t : Thread) (cause sub : Nat) : (t.double cause sub).hndl = t.hndl := rfl
@[simp] theorem Thread.double_dbi (t : Thread) (cause sub : Nat) : (t.double cause sub).dbi = t.dbi := rfl
@[simp] theorem Thread.double_dbw (t : Thread) (cause sub : Nat) : (t.double cause sub).dbw = t.dbw := rfl
@[simp] theorem Thread.double_events (t : Thread) (cause sub : Nat) : (t.double cause sub).events = t.events := rfl
@[simp] theorem Thread.double_yield (t : Thread) (cause sub : Nat) : (t.double cause sub).yield = t.yield := rfl
@[simp] theorem Thread.double_skipBp (t : Thread) (cause sub : Nat) : (t.double cause sub).skipBp = t.skipBp := rfl
@[simp] theorem Thread.double_gate (t : Thread) (cause sub : Nat) : (t.double cause sub).gate = t.gate := rfl
@[simp] theorem Thread.double_preq (t : Thread) (cause sub : Nat) : (t.double cause sub).preq = t.preq := rfl
@[simp] theorem Thread.double_refused (t : Thread) (cause sub : Nat) : (t.double cause sub).refused = t.refused := rfl
@[simp] theorem Thread.double_since (t : Thread) (cause sub : Nat) : (t.double cause sub).since = t.since := rfl
@[simp] theorem Thread.double_yieldAt (t : Thread) (cause sub : Nat) : (t.double cause sub).yieldAt = t.yieldAt := rfl
@[simp] theorem Thread.double_saveDue (t : Thread) (cause sub : Nat) : (t.double cause sub).saveDue = t.saveDue := rfl
@[simp] theorem Thread.double_saveNow (t : Thread) (cause sub : Nat) : (t.double cause sub).saveNow = t.saveNow := rfl
@[simp] theorem Thread.double_home (t : Thread) (cause sub : Nat) : (t.double cause sub).home = t.home := rfl
@[simp] theorem Thread.double_retFirst (t : Thread) (cause sub : Nat) : (t.double cause sub).retFirst = t.retFirst := rfl
@[simp] theorem Thread.double_first (t : Thread) (cause sub : Nat) : (t.double cause sub).first = t.first := rfl
@[simp] theorem Thread.leave_tid (t : Thread) (set : Nat) (e : Bool) : (t.leave set e).tid = t.tid := rfl
@[simp] theorem Thread.leave_dom (t : Thread) (set : Nat) (e : Bool) : (t.leave set e).dom = t.dom := rfl
@[simp] theorem Thread.leave_launch (t : Thread) (set : Nat) (e : Bool) : (t.leave set e).launch = t.launch := rfl
@[simp] theorem Thread.leave_ctx (t : Thread) (set : Nat) (e : Bool) : (t.leave set e).ctx = t.ctx := rfl
@[simp] theorem Thread.leave_resident (t : Thread) (set : Nat) (e : Bool) : (t.leave set e).resident = t.resident := rfl
@[simp] theorem Thread.leave_status (t : Thread) (set : Nat) (e : Bool) : (t.leave set e).status = t.status := rfl
@[simp] theorem Thread.leave_wskip (t : Thread) (set : Nat) (e : Bool) : (t.leave set e).wskip = t.wskip := rfl
@[simp] theorem Thread.leave_holdUntil (t : Thread) (set : Nat) (e : Bool) : (t.leave set e).holdUntil = t.holdUntil := rfl
@[simp] theorem Thread.leave_g (t : Thread) (set : Nat) (e : Bool) : (t.leave set e).g = t.g := rfl
@[simp] theorem Thread.leave_full (t : Thread) (set : Nat) (e : Bool) : (t.leave set e).full = t.full := rfl
@[simp] theorem Thread.leave_f (t : Thread) (set : Nat) (e : Bool) : (t.leave set e).f = t.f := rfl
@[simp] theorem Thread.leave_c (t : Thread) (set : Nat) (e : Bool) : (t.leave set e).c = t.c := rfl
@[simp] theorem Thread.leave_q (t : Thread) (set : Nat) (e : Bool) : (t.leave set e).q = t.q := rfl
@[simp] theorem Thread.leave_v (t : Thread) (set : Nat) (e : Bool) : (t.leave set e).v = t.v := rfl
@[simp] theorem Thread.leave_m (t : Thread) (set : Nat) (e : Bool) : (t.leave set e).m = t.m := rfl
@[simp] theorem Thread.leave_pend (t : Thread) (set : Nat) (e : Bool) : (t.leave set e).pend = t.pend := rfl
@[simp] theorem Thread.leave_tag (t : Thread) (set : Nat) (e : Bool) : (t.leave set e).tag = t.tag := rfl
@[simp] theorem Thread.leave_ident (t : Thread) (set : Nat) (e : Bool) : (t.leave set e).ident = t.ident := rfl
@[simp] theorem Thread.leave_seg (t : Thread) (set : Nat) (e : Bool) : (t.leave set e).seg = t.seg := rfl
@[simp] theorem Thread.leave_csp (t : Thread) (set : Nat) (e : Bool) : (t.leave set e).csp = t.csp := rfl
@[simp] theorem Thread.leave_cfg (t : Thread) (set : Nat) (e : Bool) : (t.leave set e).cfg = t.cfg := rfl
@[simp] theorem Thread.leave_tcause (t : Thread) (set : Nat) (e : Bool) : (t.leave set e).tcause = t.tcause := rfl
@[simp] theorem Thread.leave_taddr (t : Thread) (set : Nat) (e : Bool) : (t.leave set e).taddr = t.taddr := rfl
@[simp] theorem Thread.leave_tdet0 (t : Thread) (set : Nat) (e : Bool) : (t.leave set e).tdet0 = t.tdet0 := rfl
@[simp] theorem Thread.leave_tdet1 (t : Thread) (set : Nat) (e : Bool) : (t.leave set e).tdet1 = t.tdet1 := rfl
@[simp] theorem Thread.leave_tpend (t : Thread) (set : Nat) (e : Bool) : (t.leave set e).tpend = t.tpend := rfl
@[simp] theorem Thread.leave_hndl (t : Thread) (set : Nat) (e : Bool) : (t.leave set e).hndl = t.hndl := rfl
@[simp] theorem Thread.leave_dbi (t : Thread) (set : Nat) (e : Bool) : (t.leave set e).dbi = t.dbi := rfl
@[simp] theorem Thread.leave_dbw (t : Thread) (set : Nat) (e : Bool) : (t.leave set e).dbw = t.dbw := rfl
@[simp] theorem Thread.leave_events (t : Thread) (set : Nat) (e : Bool) : (t.leave set e).events = t.events := rfl
@[simp] theorem Thread.leave_yield (t : Thread) (set : Nat) (e : Bool) : (t.leave set e).yield = t.yield := rfl
@[simp] theorem Thread.leave_gate (t : Thread) (set : Nat) (e : Bool) : (t.leave set e).gate = t.gate := rfl
@[simp] theorem Thread.leave_preq (t : Thread) (set : Nat) (e : Bool) : (t.leave set e).preq = t.preq := rfl
@[simp] theorem Thread.leave_refused (t : Thread) (set : Nat) (e : Bool) : (t.leave set e).refused = t.refused := rfl
@[simp] theorem Thread.leave_since (t : Thread) (set : Nat) (e : Bool) : (t.leave set e).since = t.since := rfl
@[simp] theorem Thread.leave_yieldAt (t : Thread) (set : Nat) (e : Bool) : (t.leave set e).yieldAt = t.yieldAt := rfl
@[simp] theorem Thread.leave_saveDue (t : Thread) (set : Nat) (e : Bool) : (t.leave set e).saveDue = t.saveDue := rfl
@[simp] theorem Thread.leave_saveNow (t : Thread) (set : Nat) (e : Bool) : (t.leave set e).saveNow = t.saveNow := rfl
@[simp] theorem Thread.leave_home (t : Thread) (set : Nat) (e : Bool) : (t.leave set e).home = t.home := rfl
@[simp] theorem Thread.leave_retFirst (t : Thread) (set : Nat) (e : Bool) : (t.leave set e).retFirst = t.retFirst := rfl

/-- A write of gd is read there; g0 keeps nothing. -/
theorem Thread.setG_g (t : Thread) (d i : Nat) (v : Word) (hi : i < 32) :
    rd (t.setG d v).g i 0 = if d ≠ 0 ∧ i = d then v else rd t.g i 0 := by
  unfold Thread.setG
  by_cases hd : d = 0
  · simp [hd]
  · by_cases h : i = d
    · subst h; simp [hd, hi]
    · simp [hd, h, rd_wr_ne _ _ _ _ _ h]

end Sys2Proof.Machine
end

