-- ==== Sys2Proof/Laws/Ops.lean ====
section
/-! SUPPORT. One law for each shared operation: the monad of an effect, the outcome of an instruction, operands and
destinations, fills, taking a trap and returning from one, and the canonical form of memory. -/

namespace Sys2Proof.Machine

/-! ### The monad of an effect -/

@[simp] theorem M.bind_apply {α β : Type} (m : M α) (f : α → M β) (s : State) :
    (m >>= f) s = match m s with
      | .ok (a, s') => f a s'
      | .error e => .error e := by
  simp only [bind, StateT.bind, Except.bind]
  cases m s <;> rfl

@[simp] theorem M.pure_apply {α : Type} (a : α) (s : State) : (pure a : M α) s = .ok (a, s) := rfl
@[simp] theorem M.map_apply {α β : Type} (f : α → β) (m : M α) (s : State) :
    (f <$> m) s = match m s with
      | .ok (a, s') => .ok (f a, s')
      | .error e => .error e := by
  simp only [Functor.map, StateT.map, bind, Except.bind, pure, Except.pure]
  cases m s <;> rfl
@[simp] theorem M.get_apply (s : State) : (get : M State) s = .ok (s, s) := rfl
@[simp] theorem M.set_apply (t s : State) : (set t : M PUnit) s = .ok (⟨⟩, t) := rfl
@[simp] theorem M.modify_apply (f : State → State) (s : State) : (modify f : M PUnit) s = .ok (⟨⟩, f s) := rfl

@[simp] theorem core_apply (s : State) : core s = .ok (s.me, s) := rfl
@[simp] theorem thread_apply (s : State) : thread s = .ok (s.thread, s) := rfl
@[simp] theorem modMe_apply (f : Core → Core) (s : State) : modMe f s = .ok ((), s.modMe f) := rfl
@[simp] theorem modThread_apply (f : Thread → Thread) (s : State) : modThread f s = .ok ((), s.modThread f) := rfl
@[simp] theorem fresh_apply (s : State) : fresh s = .ok (s.nextId, { s with nextId := s.nextId + 1 }) := rfl
@[simp] theorem write_apply (d : Spec) (v : Word) (s : State) : write d v s = .ok ((), s.write d v) := rfl
@[simp] theorem raise_apply {α : Type} (c b : Nat) (x y : Word) (s : State) :
    (raise c b x y : M α) s = .error (.trap c b x y, s) := rfl
@[simp] theorem waitHere_apply {α : Type} (c : Nat) (s : State) : (waitHere c : M α) s = .error (.wait c, s) := rfl

theorem need_apply (b : Bool) (c n : Nat) (x y : Word) (s : State) :
    need b c n x y s = if b then .ok ((), s) else .error (.trap c n x y, s) := by
  unfold need; split <;> rfl

theorem waitFor_apply (b : Bool) (c : Nat) (s : State) :
    waitFor b c s = if b then .ok ((), s) else .error (.wait c, s) := by
  unfold waitFor; split <;> rfl

/-! ### The outcome of an instruction -/

theorem State.instr_eq {s : State} (h : s.thread?.isSome = true) (e : Bool) (w : BitVec 4) (m : M Unit) :
    s.instr e w m = s.settle (match m s.started with
      | .ok (_, s') => .ok ((), s'.modThread (·.advance e w))
      | .error x => .error x) := by
  obtain ⟨t, ht⟩ := Option.isSome_iff_exists.mp h
  simp only [State.instr, ht, State.perform, M.bind_apply]
  congr 1
  cases m s.started with
  | error e => rfl
  | ok p => rfl

/-- An effect that runs to its end: the thread goes on. -/
theorem State.instr_ok {s s' : State} {m : M Unit} (h : s.thread?.isSome = true) (e : Bool) (w : BitVec 4)
    (hm : m s.started = .ok ((), s')) : s.instr e w m = s'.goesOn e w := by
  rw [State.instr_eq h, hm]; rfl

/-- Translations that leave the ports, PTERR and the cycle's events as they were leave nothing behind. -/
theorem State.trail_same {s a : State} (h1 : a.pterr = s.pterr) (h2 : a.tlb = s.tlb) (h3 : a.me.tally = s.me.tally) :
    s.trail a = s := if_pos ⟨h1, h2, h3⟩

@[simp] theorem State.trail_self (s : State) : s.trail s = s := State.trail_same rfl rfl rfl

/-- Reading operands, as every change of the issuing thread, is undone. -/
@[simp] theorem State.trail_modThread (s : State) (g : Thread → Thread) : s.trail (s.modThread g) = s :=
  State.trail_same rfl rfl (by simp [State.modThread])

@[simp] theorem State.trail_started (s : State) : s.trail s.started = s := State.trail_modThread s _

/-- An effect that stops. -/
theorem State.instr_stop {s a : State} {m : M Unit} {x : Stop} (h : s.thread?.isSome = true) (e : Bool) (w : BitVec 4)
    (hm : m s.started = .error (x, a)) : s.instr e w m = (s.trail a).stopped x := by
  rw [State.instr_eq h, hm]; rfl

/-- An effect that traps: the trap is taken from the state before it. -/
theorem State.instr_trap {s a : State} {m : M Unit} {c n : Nat} {x y : Word} (h : s.thread?.isSome = true) (e : Bool)
    (w : BitVec 4) (hm : m s.started = .error (.trap c n x y, a)) (ha : s.trail a = s) :
    s.instr e w m = .next (s.started.take c n s.started.thread.taddrNow x y
      (if s.started.thread.atLookup then 2 else trapKind c n)) := by
  rw [State.instr_stop h e w hm, ha]; rfl

/-- An effect that waits changes nothing but the slot's state. -/
theorem State.instr_wait {s a : State} {m : M Unit} {c : Nat} (h : s.thread?.isSome = true) (e : Bool) (w : BitVec 4)
    (hm : m s.started = .error (.wait c, a)) (ha : s.trail a = s) : s.instr e w m = .next (s.waits c) := by
  rw [State.instr_stop h e w hm, ha]; rfl

theorem State.instr_none {s : State} (h : s.thread? = none) (e : Bool) (w : BitVec 4) (m : M Unit) :
    s.instr e w m = .next s := by simp [State.instr, h]

/-- Everything that an instruction can do. -/
theorem State.instr_cases (s : State) (e : Bool) (w : BitVec 4) (m : M Unit) :
    s.instr e w m = .next s
    ∨ (∃ s', m s.started = .ok ((), s') ∧ s.instr e w m = s'.goesOn e w)
    ∨ ∃ x a, m s.started = .error (x, a) ∧ s.instr e w m = (s.trail a).stopped x := by
  by_cases h : s.thread?.isSome = true
  · rcases hm : m s.started with ⟨x, a⟩ | ⟨_, s'⟩
    · exact .inr (.inr ⟨x, a, rfl, State.instr_stop h e w hm⟩)
    · exact .inr (.inl ⟨s', rfl, State.instr_ok h e w hm⟩)
  · exact .inl (State.instr_none (by simpa using h) e w m)

/-- A chosen cue, or an event at the slot's issue point. -/
theorem State.atPoint_eq {s : State} (h : s.thread?.isSome = true) (m : M Unit) :
    s.atPoint m = s.settle (m s.started) := by
  obtain ⟨t, ht⟩ := Option.isSome_iff_exists.mp h
  simp [State.atPoint, ht, State.perform]

@[simp] theorem State.settle_ok (s s' : State) : s.settle (.ok ((), s')) = .next s' := rfl

/-! ### Operands and destinations -/

/-- Ready operands are read. -/
theorem srcs_ready {s : State} {ss : List Spec} (h : s.thread.srcReady ss = true) :
    srcs ss s = .ok ((s.thread.readSrcs (s.me.bankOf s.thread.dom.toNat)
      (whoWord s.thread.dom.toNat s.cur s.me.turnSlot) ss).1,
      s.modThread fun _ => (s.thread.readSrcs (s.me.bankOf s.thread.dom.toNat)
        (whoWord s.thread.dom.toNat s.cur s.me.turnSlot) ss).2) := by simp [srcs, h]

/-- In an instruction that can read its operands they are read first. -/
theorem srcs_started {s : State} {ss : List Spec} (h : s.canRead ss) :
    srcs ss s.started = .ok ((s.reading ss).1, s.taken ss) := by
  rw [srcs_ready h.2]; rfl

/-- A missing operand makes the instruction wait. -/
theorem srcs_wait {s : State} {ss : List Spec} (h : s.thread.srcReady ss = false) :
    ∃ c, srcs ss s = .error (.wait c, s) := by
  refine ⟨_, by simp only [srcs, h]; rfl⟩

theorem waitDst_ok {s : State} {d : Spec} (h : s.canWrite d) : waitDst d s.started = .ok ((), s.started) := by
  have : (decide (32 ≤ d.toNat) || s.started.thread.isFull d.toNat) = true := by simpa [State.canWrite] using h
  simp [waitDst, waitFor_apply, this]

/-! ### Results (R107, R108) -/

@[simp] theorem Thread.addResult_later (t : Thread) (n : Nat) (p : Pending) :
    t.addResult (n + 1) p = { t with pend := t.pend ++ [p] } := rfl

/-- With nothing pending a result with no wait is written at once. -/
theorem Thread.addResult_now (t : Thread) (p : Pending) (h : t.pend = []) : t.addResult 0 p = t.land p := by
  obtain ⟨⟩ := t
  simp only at h
  subst h
  simp [Thread.addResult, Thread.landDue]

/-- After it no result that was due by its time is pending. -/
theorem Thread.landDue_pend (t : Thread) (n : Nat) (p : Pending) (h : p ∈ (t.landDue n).pend) : n < p.due := by
  simp only [Thread.landDue, List.mem_filter] at h
  simpa using h.2

/-! ### Accesses that nothing holds back (R279, R280, R373) -/

/-- Where no request is on its way to its object, none is on its way to a given store. -/
theorem State.toObject_none {s : State} {c tid : Nat} (h : s.toObject c tid none = false) (tc : Option Nat) :
    s.toObject c tid tc = false := by
  simp only [State.toObject, List.any_eq_false] at h ⊢
  intro b hb
  have := h b hb
  simp_all

theorem release_clear {s : State} (h : s.clear) (n : Nat) : release n s = .ok ((), s.released n) := by
  simp [release, afterAll, h.1, State.released]

theorem afterInit_clear {s : State} (h : s.clear) (ls : List Lane) : afterInit ls s = .ok ((), s) := by
  simp [afterInit, State.toObject_none h.1]

theorem packetFails_clear {s : State} (h : s.clear) (n : Nat) {l : Lane} (hl : l.lost = false) :
    packetFails n l s = .ok (false, s) := by
  simp [packetFails, h.2, hl]

/-- No search of the page table loses its packet. -/
theorem walkLost_clear {s : State} (h : s.clear) (l : Lane) (nd : Need) : walkLost l nd s = .ok (false, s) := by
  simp [walkLost, h.2]

/-- A load that nothing loses reads its element. -/
theorem load_clear {s : State} (h : s.clear) (n : Nat) {l : Lane} (hl : l.lost = false) :
    load n l s = .ok (((s.element n l).1, s.laneBad s.cur s.thread.dom n l), (s.element n l).2) := by
  simp only [load, M.bind_apply, packetFails_clear h n hl, State.element]
  split <;> simp_all

@[simp] theorem State.rdStore_modThread (s : State) (g : Thread → Thread) (c off n : Nat) :
    (s.modThread g).rdStore c off n = s.rdStore c off n := by
  by_cases h : c = s.cur
  · subst h; simp [State.rdStore, State.modThread, State.modMe]
  · simp [State.rdStore, State.modThread, State.modMe, State.modCore, State.core_setCore_ne _ _ _ _ h]

/-- A block that nothing loses is read at its place, and the watchpoints see it. -/
theorem blockAt_clear {s : State} (h : s.clear) (d : Nat) (p : Nat × Nat) (n : Nat) :
    blockAt d p n s = .ok (some (s.rdStore p.1 p.2 n), s.watched 1 [{ ea := winAddr p.1 p.2, n }]) := by
  simp [blockAt, packetFails_clear h, watch, State.watched, State.rdStore_modThread]

/-! ### What engines and blocks reach -/

/-- Under the identity rule (R398) an engine of domain 0 has backed memory at once, at the equal physical address. -/
theorem State.spot_identity {s : State} {c va : Nat} {nd : BitVec 4} (h : fld s.ptcfg 0 5 < 6) (hw : inWin va = false)
    (hb : s.backed va 1 = true) (hg : s.isBad va 1 = false) : s.spot c 0 va nd = some (0, va) := by
  have ht : s.missesTlb (clusterOf c) 0 va = false := by simp [State.missesTlb, Nat.not_le.mpr h]
  have hk : s.walks (clusterOf c) 0 va nd = false := by simp [State.walks, Nat.not_le.mpr h]
  simp [State.spot, hw, State.engXlate, State.countMiss, ht, hk, State.translate, h, hb, hg]

/-- The same for `n` bytes. -/
theorem State.spots_identity {s : State} {c va n : Nat} {nd : BitVec 4} (h : fld s.ptcfg 0 5 < 6)
    (hb : va + n ≤ 0xC000000000) (hg : s.badPa = []) (hc : s.cxlFailed = []) :
    s.spots c 0 va n nd fun i => (0, va + i) := by
  have out (a : Nat) (ha : a < 0xC000000000) : inWin a = false := by
    have h : ¬ winLo ≤ a := by unfold winLo; omega
    simp [inWin, h]
  intro i hi
  refine ⟨State.spot_identity h (out _ (by omega)) (by simp [State.backed]; omega) (by simp [State.isBad, hg, hc]), ?_⟩
  rw [out _ (by omega), out va (by omega)]

/-! ### Memory keeps its canonical form -/

theorem State.wrRaw_mem_wf (s : State) (pa : Nat) (bs : List Byte) (h : Memory.wf s.mem = true) :
    Memory.wf (s.wrRaw pa bs).mem = true := by
  induction bs generalizing s pa with
  | nil => exact h
  | cons b r ih => exact ih _ _ (Tab.set_wf 0 s.mem pa b h)

/-- The bytes outside a physical write stay. -/
theorem State.wrRaw_get_ne (s : State) (pa a : Nat) (bs : List Byte) (h : a < pa ∨ pa + bs.length ≤ a) :
    Tab.get 0 (s.wrRaw pa bs).mem a = Tab.get 0 s.mem a := by
  induction bs generalizing s pa with
  | nil => rfl
  | cons b r ih =>
    have hl : (b :: r).length = r.length + 1 := rfl
    rw [State.wrRaw, ih _ _ (by omega)]
    exact Tab.get_set_ne 0 s.mem pa a b (by omega)

/-- What has been written is read back. -/
theorem State.rdRaw_wrRaw (s : State) (pa : Nat) (bs : List Byte) : (s.wrRaw pa bs).rdRaw pa bs.length = bs := by
  induction bs generalizing s pa with
  | nil => rfl
  | cons b bs ih =>
    simp only [State.rdRaw, State.wrRaw, List.length_cons, List.range_succ_eq_map, List.map_cons, List.map_map, Nat.add_zero]
    rw [State.wrRaw_get_ne _ _ _ _ (.inl (Nat.lt_succ_self pa)), Tab.get_set_same]
    refine congrArg (b :: ·) (Eq.trans ?_ (ih { s with mem := Tab.set 0 s.mem pa b } (pa + 1)))
    simp only [State.rdRaw]
    refine List.map_congr_left fun i _ => ?_
    simp [Nat.add_comm, Nat.add_left_comm]

theorem State.noteTail_mem (s : State) (pa : Nat) : (s.noteTail pa).mem = s.mem := by
  unfold State.noteTail; dsimp only; split <;> rfl

theorem State.rekey_mem_wf (s : State) (d pa : Nat) (h : Memory.wf s.mem = true) :
    Memory.wf (s.rekey d pa).mem = true := by
  have hw := fun bs => State.wrRaw_mem_wf s (pa / 16 * 16) bs h
  unfold State.rekey
  generalize s.rdPas d (pa / 16 * 16) 16 = bs
  dsimp only
  split
  · exact h
  · split
    · exact h
    · exact hw bs

theorem State.wrPa_mem_wf (s : State) (d pa : Nat) (b : Byte) (h : Memory.wf s.mem = true) :
    Memory.wf (s.wrPa d pa b).mem = true :=
  Tab.set_wf 0 _ pa b (State.rekey_mem_wf _ d pa (by rw [State.noteTail_mem]; exact h))

theorem State.wrPas_mem_wf (s : State) (d pa : Nat) (bs : List Byte) (h : Memory.wf s.mem = true) :
    Memory.wf (s.wrPas d pa bs).mem = true := by
  induction bs generalizing s pa with
  | nil => exact h
  | cons b r ih => exact ih _ _ (State.wrPa_mem_wf s d pa b h)

theorem reset_mem_wf : Memory.wf State.reset.mem = true := Tab.wf_nil 0

/-- An effect that keeps a property of the state whenever it runs to its end. -/
def M.Keeps (P : State → Prop) {α : Type} (m : M α) : Prop := ∀ s a s', P s → m s = .ok (a, s') → P s'

theorem M.Keeps.pure {P : State → Prop} {α : Type} (a : α) : M.Keeps P (pure a : M α) := by
  intro s b s' hp h; cases h; exact hp

theorem M.Keeps.bind {P : State → Prop} {α β : Type} {m : M α} {f : α → M β} (hm : M.Keeps P m)
    (hf : ∀ a, M.Keeps P (f a)) : M.Keeps P (m >>= f) := by
  intro s b s' hp h
  rw [M.bind_apply] at h
  split at h
  · next a s1 h1 => exact hf a _ _ _ (hm _ _ _ hp h1) h
  · cases h

theorem M.Keeps.raise {P : State → Prop} {α : Type} (c n : Nat) (x y : Word) : M.Keeps P (raise c n x y : M α) := by
  intro s a s' _ h; cases h

theorem M.Keeps.need {P : State → Prop} (b : Bool) (c n : Nat) (x y : Word) : M.Keeps P (need b c n x y) := by
  intro s a s' hp h; rw [need_apply] at h; split at h <;> cases h; exact hp

theorem M.Keeps.waitFor {P : State → Prop} (b : Bool) (c : Nat) : M.Keeps P (waitFor b c) := by
  intro s a s' hp h; rw [waitFor_apply] at h; split at h <;> cases h; exact hp

theorem M.Keeps.of_total {P : State → Prop} {α : Type} {m : M α} (f : State → α) (g : State → State)
    (hm : ∀ s, m s = .ok (f s, g s)) (hg : ∀ s, P s → P (g s)) : M.Keeps P m := by
  intro s a s' hp h; rw [hm] at h; cases h; exact hg s hp

theorem M.Keeps.ite {P : State → Prop} {α : Type} (c : Prop) [Decidable c] {m n : M α} (hm : M.Keeps P m)
    (hn : M.Keeps P n) : M.Keeps P (if c then m else n) := by
  split <;> assumption

end Sys2Proof.Machine
end

