-- ==== Sys2Proof/Tests/Slice0.lean ====
section
/-! SUPPORT. The model's own tests: ill-formed terms that WellFormed refuses, words written out from the
spec's encodings, single steps on small states, and for each obligation with hypotheses a state and operands that
meet them. Expected values are worked out by hand from the rule that the test names. -/

open Sys2Proof Sys2Proof.Machine

namespace Sys2Proof.Tests

/- One proof at a time: the kernel evaluates most of them, and many at once ask for many threads. -/
set_option Elab.async false

/-! ### Terms -/

def fa (d a b : Spec) (c : Spec := 0) : FmtA := { e := false, w := 0, d, a, b, c, flag := 0, cond := 0 }
def fb (d a : Spec) (imm : BitVec 32) : FmtB := { e := false, w := 0, d, a, flag := 0, imm }
def fm (d a : Spec) (size scope : BitVec 3) (order : BitVec 2 := 0) (off : BitVec 24 := 0) : FmtM :=
  { e := false, w := 0, d, a, seg := 1, scope, order, size, sext := false, off }
def fm2 (d a b : Spec) (size scope : BitVec 3) : FmtM2 :=
  { e := false, w := 0, d, a, seg := 1, scope, order := 0, size, sext := false, b, off := 0 }
def fv (vd va vb : Spec) (ty : BitVec 4) (op : BitVec 14 := 0) : FmtV :=
  { e := false, w := 0, vd, va, vb, vc := 0, ty, rnd := 0, mask := 0, me := false, sc := false, op }
def ft (d a b : Spec) (id1 id2 id3 : BitVec 4 := 0) (scope : BitVec 3 := 0) (op : BitVec 15 := 0) : FmtT :=
  { e := false, w := 0, d, a, b, id1, id2, id3, scope, op }
def fs (d a b : Spec) (imm : BitVec 14 := 0) (op : BitVec 16 := 0) : FmtS := { e := false, w := 0, d, a, b, imm, op }
def cue (wordA wordB : BitVec 32) (nset rset : Byte) (prm : BitVec 16) (cnt : BitVec 4) : CueAct :=
  { wordA, wordB, nset, rset, prm, cnt }

/-! ### R65, R129: a term for each check, which WellFormed refuses -/

theorem test_illformed_source : (Instr.add (fa 5 62 1)).WellFormed = false := by decide
theorem test_illformed_destination : (Instr.add (fa 48 1 1)).WellFormed = false := by decide
theorem test_illformed_gd : (Instr.ld (fm 33 1 3 1)).WellFormed = false := by decide
theorem test_illformed_pair : (Instr.cas2 (fm 6 1 4 1 0)).WellFormed = false := by decide
theorem test_illformed_flag_unused :
    (Instr.add { fa 5 1 1 with flag := 1 }).WellFormed = false ∧ (Instr.add { fa 5 1 1 with cond := 1 }).WellFormed = false
      ∧ (Instr.add (fa 5 1 1 1)).WellFormed = false := by decide
theorem test_illformed_shift : (Instr.shli (fb 5 1 64)).WellFormed = false := by decide
theorem test_illformed_size : (Instr.ld (fm 5 1 4 1)).WellFormed = false := by decide
theorem test_illformed_scope : (Instr.ld (fm 5 1 3 6)).WellFormed = false := by decide
theorem test_illformed_order : (Instr.st (fm 5 1 3 1 1)).WellFormed = false := by decide
theorem test_illformed_vector_register :
    (Instr.vadd (fv 16 1 1 0)).WellFormed = false ∧ (Instr.vadd (fv 1 16 1 0)).WellFormed = false
      ∧ (Instr.vadd (fv 1 1 16 0)).WellFormed = false := by decide
theorem test_illformed_type : (Instr.vadd (fv 1 1 1 3)).WellFormed = false := by decide
theorem test_illformed_rounding : (Instr.vadd { fv 1 1 1 6 with rnd := 1 }).WellFormed = false := by decide
theorem test_illformed_mask : (Instr.vadd { fv 1 1 1 6 with mask := 1 }).WellFormed = false := by decide
theorem test_illformed_mask_register : (Instr.vmsk (fv 4 1 1 0)).WellFormed = false := by decide
theorem test_illformed_lane : (Instr.vmovg (fv 1 1 0 0 3)).WellFormed = false := by decide
theorem test_illformed_part : (Instr.vqnt (fv 1 1 0 3 7)).WellFormed = false := by decide
theorem test_illformed_accumulator : (Instr.mma (ft 1 0 0 4)).WellFormed = false := by decide
theorem test_illformed_drain_type : (Instr.mdrn (ft 1 1 0 0 0 0 1 0x18)).WellFormed = false := by decide
theorem test_illformed_ring_count : (Instr.rngpop (ft 1 0 0)).WellFormed = false := by decide
theorem test_illformed_arrivals : (Instr.bararv (ft 1 1 0 0 0 0 1)).WellFormed = false := by decide
theorem test_illformed_item : (Instr.cuerd (fs 1 0 0 0 0x1C0)).WellFormed = false := by decide
theorem test_illformed_cue_block : (Instr.cuew (fs 0 2 1)).WellFormed = false := by decide
theorem test_illformed_launch :
    (Instr.launch (fs 1 1 1 0 0xE0)).WellFormed = false ∧ (Instr.launch (fs 1 1 1 0 0x98)).WellFormed = false
      ∧ (Instr.launch (fs 1 1 1 0 0x300)).WellFormed = false := by decide
theorem test_illformed_register : (Instr.sysr (fs 1 1 0 0x3FFF)).WellFormed = false := by decide
theorem test_illformed_zero_field : (Instr.nop (fs 0 0 0 1)).WellFormed = false := by decide
theorem test_illformed_cue_counter : (Instr.next (cue 0 0 0 0 0 1)).WellFormed = false := by decide
theorem test_illformed_cue_field :
    (Instr.next (cue 0 1 0 0 0 0)).WellFormed = false ∧ (Instr.ret (cue 1 0 0 0 0 0)).WellFormed = false
      ∧ (Instr.gate (cue 0 0x10000 0 0 0 0)).WellFormed = false ∧ (Instr.eret (cue 0 0 0 0 0 4)).WellFormed = false := by
  decide
theorem test_illformed_event :
    (Instr.takeWork 1024 0).WellFormed = false ∧ (Instr.takeWork 0 8).WellFormed = false
      ∧ (Instr.keyRefresh 256).WellFormed = false ∧ (Instr.tailReread 8192).WellFormed = false
      ∧ (Instr.throttleEnd 4).WellFormed = false ∧ (Instr.flitCrcFailure 26).WellFormed = false := by decide

/-! ### Words written out from the encodings of R52 to R64 and the opcode map of R60 -/

theorem test_word_madd : decode 0b0_0000_000_00011101_000101_000001_000010_000011_00_000_000_0000000000000000 =
    .ok (.madd (fa 5 1 2 3)) := by decide
theorem test_word_cmp : decode 0b0_0000_000_00011111_000000_000001_000010_000000_00_101_010_0000000000000000 =
    .ok (.cmp { fa 0 1 2 with flag := 5, cond := 2 }) := by decide
theorem test_word_cmpi : decode 0b0_0000_001_00001000_000010_000001_101_0_00000000000000000000000000000111 =
    .ok (.cmpi { fb 2 1 7 with flag := 5 }) := by decide
theorem test_word_vlds : decode 0b0_0000_010_00000100_000011_000001_001_001_00_010_0_000100_000000000000000000 =
    .ok (.vlds (fm2 3 1 4 2 1)) := by decide
theorem test_word_cas : decode 0b0_0000_010_00010110_000010_000001_001_010_11_011_0_000000000000000000001000 =
    .ok (.cas (fm 2 1 3 2 3 8)) := by decide
theorem test_word_fence : decode 0b0_0000_010_00001011_000000_000000_000_010_11_000_0_000000000000000000000000 =
    .ok (.fence { fm 0 0 0 2 3 with seg := 0 }) := by decide
theorem test_word_vcvt : decode 0b0_0000_011_00011011_000001_000010_000000_000000_0001_00_00_0_0_00000000000000 =
    .ok (.vcvt (fv 1 2 0 1)) := by decide
theorem test_word_vtopk : decode 0b0_0000_011_00100111_000001_000010_000000_000000_0110_00_11_1_0_00000000000111 =
    .ok (.vtopk { fv 1 2 0 6 7 with mask := 3, me := true }) := by decide
theorem test_word_mdrn : decode 0b0_0000_100_00000011_001000_000001_000000_0010_0000_0000_001_000000000001001 =
    .ok (.mdrn (ft 8 1 0 2 0 0 1 9)) := by decide
theorem test_word_cpy : decode 0b0_0000_101_00000000_001000_000001_000000_0000_0000_0000_010_000000000000000 =
    .ok (.cpy (ft 8 1 0 0 0 0 2)) := by decide
theorem test_word_rngpop : decode 0b0_0000_101_00000100_001000_000000_000000_0011_0000_0000_000_000000000000010 =
    .ok (.rngpop (ft 8 0 0 3 0 0 0 2)) := by decide
theorem test_word_bararv : decode 0b0_0000_101_00001010_001000_000001_000000_0000_0000_0000_001_000000000000001 =
    .ok (.bararv (ft 8 1 0 0 0 0 1 1)) := by decide
theorem test_word_route : decode 0b0_0000_101_00001100_001000_000001_000010_0100_0000_0000_000_000000000000000 =
    .ok (.route (ft 8 1 2 4)) := by decide
theorem test_word_cuew : decode 0b0_0000_110_00000001_000000_000100_000010_00000000000000_0000000000000101 =
    .ok (.cuew (fs 0 4 2 0 5)) := by decide
theorem test_word_spawn : decode 0b0_0000_110_00000111_001000_000001_000000_11111111111111_0000000000000001 =
    .ok (.spawn (fs 8 1 0 0x3FFF 1)) := by decide
theorem test_word_segw : decode 0b0_0000_110_00001110_000000_000001_000010_00000000000000_0000000000000011 =
    .ok (.segw (fs 0 1 2 0 3)) := by decide
theorem test_word_sysw : decode 0b0_0000_110_00010010_000000_000001_000010_00000000010000_0000000000000000 =
    .ok (.sysw (fs 0 1 2 0x10)) := by decide
theorem test_word_trap : decode 0b0_0000_110_00010000_000000_000001_000000_00000010010110_0000000000000000 =
    .ok (.trap (fs 0 1 0 0x96)) := by decide
theorem test_word_halt : decode 0b0_0000_110_00010110_000000_000000_000000_00000000000000_0000000000000000 =
    .ok (.halt (fs 0 0 0)) := by decide
theorem test_cue_call : decodeCue 0x00000005_00000009_02_00_0007_1_5_000000 = some (.call (cue 5 9 2 0 7 5)) := by
  decide
theorem test_cue_eret : decodeCue 0x00000000_00000000_00_00_0000_6_0_000000 = some (.eret (cue 0 0 0 0 0 0)) := by
  decide
theorem test_cue_reserved : decodeCue 0x00000000_00000000_00_00_0000_8_0_000000 = none := by decide
theorem test_class_7 : decode 0x07FFFFFFFFFFFFFF = .error 1 := by decide

/-! ### Small states -/

/-- The machine at reset with its one thread changed. -/
def onReset (f : Thread → Thread) : State := State.reset.modThread f

/-- The value of a g register, and another part of the issuing thread, after an instruction. -/
def gAfter (r : Result) (i : Nat) : Option Word :=
  match r with
  | .next t => t.thread?.map fun b => rd b.g i 0
  | _ => none
def after {α : Type} (r : Result) (f : State → α) : Option α :=
  match r with
  | .next t => some (f t)
  | _ => none

/-- g1 and g2 hold the operands. -/
def two (a b : Word) : State := onReset fun t => (t.setG 1 a).setG 2 b

/-- The state after an instruction. -/
def run (r : Result) : State := match r with | .next t => t | _ => State.reset

/-- A vector whose lane i is f i. -/
def vec (f : Nat → BitVec 32) : BitVec 2048 := ofLanes ((List.range 64).map f)

/-- v1 and v2 hold the operands. -/
def vecs (a b : Nat → BitVec 32) : State := onReset fun t => { t with v := wr (wr t.v 1 (vec a)) 2 (vec b) }

/-- The lane of the last pending result. -/
def laneAfter (r : Result) (i : Nat) : Option (BitVec 32) :=
  match r with
  | .next t => (t.thread?.bind fun b => b.pend.getLast?).map fun p => lane p.value i
  | _ => none

/-- Device memory holds bytes at an address. -/
def withBytes (s : State) (pa : Nat) (bs : List Byte) : State := s.wrRaw pa bs

/-! ### Single steps -/

-- R112: the sum wraps.
theorem test_add_wraps : gAfter (exec (.add (fa 5 1 2)) (two 0xFFFFFFFFFFFFFFFF 2)) 5 = some 1 := by decide +kernel
-- R49: g0 keeps 0.
theorem test_add_g0 : gAfter (exec (.add (fa 0 1 2)) (two 1 2)) 0 = some 0 := by decide +kernel
theorem test_sub : gAfter (exec (.sub (fa 1 1 2)) (two 3 5)) 1 = some 0xFFFFFFFFFFFFFFFE := by decide +kernel
-- R112: (−1) × (−1) has a high half of 0 signed, and 2^64 − 2 unsigned.
theorem test_mulh : gAfter (exec (.mulh (fa 5 1 1)) (two 0xFFFFFFFFFFFFFFFF 0)) 5 = some 0 := by decide +kernel
theorem test_mulhn : gAfter (exec (.mulhn (fa 5 1 1)) (two 0xFFFFFFFFFFFFFFFF 0)) 5 = some 0xFFFFFFFFFFFFFFFE := by
  decide +kernel
-- R113: −2^63 / −1 and its remainder; division by zero; the sign of a remainder.
theorem test_div_overflow : gAfter (exec (.div (fa 5 1 2)) (two 0x8000000000000000 0xFFFFFFFFFFFFFFFF)) 5
    = some 0x8000000000000000 := by decide +kernel
theorem test_div_zero : gAfter (exec (.div (fa 5 1 2)) (two 7 0)) 5 = some 0xFFFFFFFFFFFFFFFF := by decide +kernel
theorem test_rem_sign : gAfter (exec (.rem (fa 5 1 2)) (two 0xFFFFFFFFFFFFFFF9 2)) 5 = some 0xFFFFFFFFFFFFFFFF := by
  decide +kernel
theorem test_remn_zero : gAfter (exec (.remn (fa 5 1 2)) (two 7 0)) 5 = some 7 := by decide +kernel
-- R112: the shift count is B mod 64.
theorem test_shl_65 : gAfter (exec (.shl (fa 5 1 2)) (two 3 65)) 5 = some 6 := by decide +kernel
theorem test_sar : gAfter (exec (.sar (fa 5 1 2)) (two 0x8000000000000000 63)) 5 = some 0xFFFFFFFFFFFFFFFF := by
  decide +kernel
theorem test_rol : gAfter (exec (.rol (fa 5 1 2)) (two 0x8000000000000001 1)) 5 = some 3 := by decide +kernel
theorem test_ror_0 : gAfter (exec (.ror (fa 5 1 2)) (two 0x8000000000000001 0)) 5 = some 0x8000000000000001 := by
  decide +kernel
theorem test_clz_zero : gAfter (exec (.clz (fa 5 1 0)) (two 0 0)) 5 = some 64 := by decide +kernel
theorem test_ctz : gAfter (exec (.ctz (fa 5 1 0)) (two 8 0)) 5 = some 3 := by decide +kernel
theorem test_popc : gAfter (exec (.popc (fa 5 1 0)) (two 0xF0F0 0)) 5 = some 8 := by decide +kernel
theorem test_bswap : gAfter (exec (.bswap (fa 5 1 0)) (two 0x0102030405060708 0)) 5 = some 0x0807060504030201 := by
  decide +kernel
-- R114: the field of 8 bits at bit 4; the field of c bits of a placed at bit b of d.
theorem test_extr : gAfter (exec (.extr (fa 5 1 2 3)) ((two 0xABC 4).modThread (·.setG 3 8))) 5 = some 0xAB := by
  decide +kernel
theorem test_ins : gAfter (exec (.ins (fa 5 1 2 3)) ((two 0xF 8).modThread fun t => (t.setG 3 4).setG 5 0x1111)) 5
    = some 0x1F11 := by decide +kernel
theorem test_cmp_signed : after (exec (.cmp { fa 0 1 2 with flag := 3, cond := 2 }) (two 0xFFFFFFFFFFFFFFFF 1))
    (fun t => t.thread.f) = some 8 := by decide +kernel
theorem test_cmpn_unsigned : after (exec (.cmpn { fa 0 1 2 with flag := 3, cond := 2 }) (two 0xFFFFFFFFFFFFFFFF 1))
    (fun t => t.thread.f) = some 0 := by decide +kernel
-- R116: LDI sign-extends, LDIH keeps the low half of a.
theorem test_ldi : gAfter (exec (.ldi (fb 5 0 0x80000000)) (two 0 0)) 5 = some 0xFFFFFFFF80000000 := by decide +kernel
theorem test_ldih : gAfter (exec (.ldih (fb 5 1 0x12345678)) (two 0xAAAAAAAA9ABCDEF0 0)) 5 = some 0x123456789ABCDEF0 := by
  decide +kernel
-- R47: after W = 2 the slot is withheld two turns; R48: after E the lookup is next.
theorem test_wait : after (exec (.nop { fs 0 0 0 with w := 2 }) State.reset)
    (fun t => (t.thread.wskip, t.thread.pc, t.thread.atLookup)) = some (2, 1, false) := by decide +kernel
theorem test_end_of_shot : after (exec (.nop { fs 0 0 0 with e := true }) State.reset)
    (fun t => (t.thread.pc, t.thread.atLookup)) = some (0, true) := by decide +kernel
-- R172, R181: i8 127 + 1 wraps to −128, and saturates at 127.
theorem test_vadd_i8 : laneAfter (exec (.vadd (fv 3 1 2 10)) (vecs (fun _ => 127) (fun _ => 1))) 63 = some 0xFFFFFF80 := by
  decide +kernel
theorem test_vadd_sat : laneAfter (exec (.vadd (fv 3 1 2 10 1)) (vecs (fun _ => 127) (fun _ => 1))) 63 = some 127 := by
  decide +kernel
-- R162: 1.0 + 2^−24 rounds to even, 1.0; 1.0 + 1.5 × 2^−24 to the next number.
theorem test_vadd_f32_even : laneAfter (exec (.vadd (fv 3 1 2 0)) (vecs (fun _ => 0x3F800000) (fun _ => 0x33800000))) 0
    = some 0x3F800000 := by decide +kernel
theorem test_vadd_f32_up : laneAfter (exec (.vadd (fv 3 1 2 0)) (vecs (fun _ => 0x3F800000) (fun _ => 0x33C00000))) 0
    = some 0x3F800001 := by decide +kernel
theorem test_vsqrt : laneAfter (exec (.vsqrt (fv 3 1 0 0)) (vecs (fun _ => 0x40800000) (fun _ => 0))) 5
    = some 0x40000000 := by decide +kernel
-- R184: √(2^−149) = 2^−74.5; R190: i8 −1 to n32 keeps its sign.
theorem test_vsqrt_subnormal : laneAfter (exec (.vsqrt (fv 3 1 0 0)) (vecs (fun _ => 1) (fun _ => 0))) 5
    = some 0x1A3504F3 := by decide +kernel
theorem test_vcvt_i8_n32 : laneAfter (exec (.vcvt (fv 3 1 0 7 10)) (vecs (fun _ => 0xFF) (fun _ => 0))) 5
    = some 0xFFFFFFFF := by decide +kernel
-- R189: a lane index above 63 wraps.
theorem test_vperm : laneAfter (exec (.vperm (fv 3 1 2 0)) (vecs (fun i => BitVec.ofNat 32 (i + 100)) (fun _ => 65))) 0
    = some 101 := by decide +kernel
-- R195: an inclusive sum.
theorem test_vscan : laneAfter (exec (.vscan (fv 3 1 0 6)) (vecs (fun i => BitVec.ofNat 32 i) (fun _ => 0))) 4
    = some 10 := by decide +kernel
-- R197: the greatest element first, the lower lane first of equals.
theorem test_vtopk : laneAfter (exec (.vtopk (fv 3 1 0 6 1)) (vecs (fun i => if i < 2 then 9 else 1) (fun _ => 0))) 33
    = some 1 := by decide +kernel
-- R269: LD sign-extends a byte; R268, R350: a misaligned LD traps at its own word with the address in TDET0.
theorem test_ld_byte : after (exec (.ld { fm 5 1 0 1 with sext := true }) (withBytes (two 0x20010 0) 0x20010 [0x80]))
    (fun t => t.me.fills.map (·.value)) = some [0xFFFFFFFFFFFFFF80] := by decide +kernel
theorem test_ld_misaligned : after (exec (.ld (fm 5 1 3 1)) ((two 0x20014 0).modThread fun t => { t with hndl := 3 }))
    (fun t => (t.thread.tcause, t.thread.tdet0, t.thread.pc)) = some (4, 0x20014, 3) := by decide +kernel
theorem test_st : after (exec (.st (fm 2 1 1 2)) (two 0x20010 0x1122334455667788))
    (fun t => t.rdRaw 0x20010 3) = some [0x88, 0x77, 0] := by decide +kernel
-- R275: the old value is returned and the smaller is stored, signed.
theorem test_amomin : after (exec (.amomin (fm 2 1 2 2)) (withBytes (two 0x20010 0xFFFFFFFF) 0x20010 [5]))
    (fun t => (t.me.fills.map (·.value), t.rdRaw 0x20010 4)) = some ([5], [0xFF, 0xFF, 0xFF, 0xFF]) := by decide +kernel
theorem test_cas_unequal : after (exec (.cas (fm 2 1 3 2)) ((withBytes (two 0x20010 4) 0x20010 [5]).modThread (·.setG 3 9)))
    (fun t => (t.me.fills.map (·.value), t.rdRaw 0x20010 2)) = some ([5], [5, 0]) := by decide +kernel
-- R353: domain 0 narrows s1.
theorem test_segw : after (exec (.segw (fs 0 1 2 0 1)) (two 0x10000 0x0030000000000100))
    (fun t => let g := rd t.thread.seg 1 {}; (g.base, g.limit, g.rights)) = some (0x10000, 0x100, 3) := by decide +kernel
-- R352: TRAP's cause and detail; R339: ERET at the word after it.
theorem test_trap : after (exec (.trap (fs 0 1 0 7)) ((two 0x55 0).modThread fun t => { t with hndl := 9, pc := 4 }))
    (fun t => (t.thread.tcause, t.thread.tdet0, t.thread.pc, t.thread.tret.getLsbD 56)) = some (0x713, 0x55, 9, true) := by
  decide +kernel
theorem test_eret : ((Thread.leave { tret := 0x0140000000000004 } 0 false).pc, (Thread.leave { tret := 0x0180000000000004 } 0
    false).atLookup) = (5, true) := by decide +kernel

/-! ### A state and operands that meet the hypotheses of each obligation -/

/-- Where one element is reached, there are the element and the state of the access. -/
theorem reached_one {o : Option (List Lane × State)} (h : o.map (·.1.length) = some 1) :
    ∃ l s1, o = some ([l], s1) := by
  rcases o with _ | ⟨_ | ⟨l, _ | ⟨_, _⟩⟩, s1⟩ <;> simp at h
  exact ⟨l, s1, rfl⟩
theorem reached_all {o : Option (List Lane × State)} (h : o.isSome = true) : ∃ ls s1, o = some (ls, s1) := by
  rcases o with _ | ⟨ls, s1⟩ <;> simp at h
  exact ⟨ls, s1, rfl⟩
theorem some_of {α : Type} {o : Option α} (P : α → Bool) (h : o.any P = true) : ∃ a, o = some a ∧ P a = true := by
  cases o <;> simp at h
  exact ⟨_, rfl, h⟩
theorem is_next {r : Result} (h : (after r fun _ => ()).isSome = true) : ∃ t, r = .next t := by
  cases r <;> simp [after] at h
  exact ⟨_, rfl⟩
theorem eng_ok {r : Eng Unit} (h : (match r with | .ok _ _ => true | _ => false) = true) : ∃ s1, r = .ok () s1 := by
  cases r <;> simp at h
  exact ⟨_, rfl⟩

/-- The thread's slot, an empty g5, and g6 on its way. -/
def waits : State := onReset fun t => { t with full := 0xFFFFFF9F }

/-- Both forms of a destination: a full g register, and an h register; a port and a constant as sources. -/
theorem witness_ScalarTwoSources :
    (two 1 2).canRead [1, 2] ∧ (two 1 2).canWrite 5 ∧ (two 1 2).canWrite 47 ∧ (two 1 2).canWrite 0
      ∧ (onReset fun t => { t with q := wr t.q 3 [⟨9, 1⟩] }).canRead [51, 61] := by
  simp only [State.canRead, State.canWrite]; decide +kernel
theorem witness_ScalarOneSource : (two 1 2).canRead [1] ∧ (two 1 2).canWrite 31 := by
  simp only [State.canRead, State.canWrite]; decide +kernel
theorem witness_ScalarThreeSources :
    (two 1 2).canRead [1, 2, 3] ∧ (two 1 2).canRead [1, 2, 3, 5] ∧ (two 1 2).canWrite 5 := by
  simp only [State.canRead, State.canWrite]; decide +kernel
theorem witness_Comparisons : (two 1 2).canRead [1, 2] ∧ (two 1 2).canRead [1] := by
  simp only [State.canRead]; decide +kernel
theorem witness_ScalarImmediates : (two 1 2).canRead [1] ∧ (two 1 2).canRead [] ∧ (two 1 2).canWrite 5 := by
  simp only [State.canRead, State.canWrite]; decide +kernel
theorem witness_FlagsAndCounters : (two 1 2).canRead [] ∧ (two 1 2).canRead [1] ∧ (two 1 2).canWrite 5 := by
  simp only [State.canRead, State.canWrite]; decide +kernel
theorem witness_ScalarFrame : (∃ a, (two 1 2).thread? = some a) ∧ (∃ t, exec (.add (fa 5 1 2)) (two 1 2) = .next t)
    ∧ ∃ t, exec (.nop (fs 0 0 0)) (two 1 2) = .next t :=
  ⟨⟨_, rfl⟩, is_next (by decide +kernel), is_next (by decide +kernel)⟩
theorem witness_ScalarWaits : (∃ a, waits.thread? = some a)
    ∧ (∀ ss ∈ [[5], [1, 5], [1, 2, 5], [1, 2, 3, 5]], waits.started.thread.srcReady ss = false) ∧ ¬ waits.canWrite 6 := by
  refine ⟨⟨_, rfl⟩, by decide +kernel, ?_⟩
  simp only [State.canWrite]; decide +kernel
/-- Two messages in port 0 and one in port 3. -/
def mailed : State := onReset fun t => { t with q := wr (wr t.q 0 [⟨9, 1⟩, ⟨8, 2⟩]) 3 [⟨7, 3⟩] }
theorem witness_ScalarOperands : (∃ a, waits.thread? = some a) ∧ (0 : Spec).toNat = 0
    ∧ (0 < (1 : Spec).toNat ∧ (31 : Spec).toNat < 32) ∧ (32 ≤ (32 : Spec).toNat ∧ (47 : Spec).toNat < 48)
    ∧ ((∃ a, mailed.thread? = some a) ∧ (48 : Spec).toNat = 48 ∧ (51 : Spec).toNat = 51 ∧ (61 : Spec).toNat = 61
      ∧ rd (mailed.taken []).thread.q 0 [] = ⟨9, 1⟩ :: [⟨8, 2⟩] ∧ rd (mailed.taken [48]).thread.q 0 [] = ⟨8, 2⟩ :: []
      ∧ rd (mailed.taken [48]).thread.q 3 [] = ⟨7, 3⟩ :: [] ∧ mailed.cur < 1024) :=
  ⟨⟨_, rfl⟩, by decide, by decide, by decide, ⟨_, rfl⟩, by decide +kernel⟩
/-- A port gives its messages in order, and tag that of the last one read (R102). -/
theorem test_port_sources : gAfter (exec (.sub (fa 5 48 48)) mailed) 5 = some 1
    ∧ gAfter (exec (.add (fa 5 51 61)) mailed) 5 = some 10 := by decide +kernel

/-- A thread under WCHK with one pending result in v2, and without. -/
def checked : State := onReset fun t => { t with cfg := 1 }
def pending : State := onReset fun t => { t with cfg := 1, pend := [{ reg := 2, due := 8, value := 5, keep := 7 },
  { reg := 17, due := 8, value := 1, keep := 3 }] }

theorem witness_VectorLanes : checked.canV2 (fv 3 1 2 0) ∧ checked.noPending [16 + (0x3#14).toNat]
    ∧ checked.canV1 (fv 3 1 2 6) ∧ checked.canV1 (fv 3 1 2 11) ∧ checked.canV1 (fv 3 1 2 2)
    ∧ checked.canV2 { fv 15 0 1 0 with sc := true } := by
  simp only [State.canV2, State.canV1, State.canRead, State.noPending]; decide +kernel
theorem witness_VectorIntegerArithmetic : checked.canV2 (fv 3 1 2 6) ∧ checked.canV2 (fv 3 1 2 11) := by
  simp only [State.canV2, State.canRead, State.noPending]; decide +kernel
theorem witness_VectorFloatArithmetic : checked.canV2 (fv 3 1 2 2) ∧ checked.noPending [4] ∧ checked.canV1 (fv 3 1 0 0)
    ∧ (fv 3 1 0 2).ty.toNat < 3 ∧ 65535 < 65536 := by
  simp only [State.canV2, State.canV1, State.canRead, State.noPending]; decide +kernel
theorem witness_VectorApproximations : checked.canV1 (fv 3 1 0 0) ∧ checked.canV1 (fv 3 1 0 2) := by
  simp only [State.canV1, State.noPending]; decide +kernel
/-- Operands on both sides of R185's cases: a NaN, a positive and a negative one, powers of 4 and of 2, the ends of VEXP2's
range and of VTANH's. -/
theorem witness_VectorApproximations_operands : (f32 0x7FC00001).isNan = true
    ∧ ([0x40800000, 0xBF800000, 0x7F000000, 0x43000000, 0xC3160001, 0xC3150000, 0x42FE0000, 0x41100000, 0xC1100000, 1].all
      fun a => (f32 a).isFin) = true
    ∧ (f32 0x40800000).rat = 4 ∧ (f32 0xBF800000).rat < 0 ∧ (f32 0x7F000000).rat = 2 ^ 127
    ∧ (f32 0x7F000000).rat ≠ 0 ∧ |1 / (f32 0x7F000000).rat| < 2 ^ 128 ∧ 0 < (f32 1).rat
    ∧ (f32 0x43000000).rat = 128 ∧ (f32 0xC3160001).rat < -150 ∧ (f32 0xC3150000).rat = -149 ∧ (f32 0x42FE0000).rat = 127
    ∧ (f32 0x41100000).rat = 9 ∧ (f32 0xC1100000).rat = -9 := by decide +kernel
/-- R185's exact cases: VRSQ of 4, VRCP of 2, VEXP2 of -2, VLOG2 of 8, VTANH of 9. -/
theorem test_approximations : approx 0 0x40800000 = 0x3F000000 ∧ approx 1 0x40000000 = 0x3F000000
    ∧ approx 2 0xC0000000 = 0x3E800000 ∧ approx 3 0x41000000 = 0x40400000 ∧ approx 4 0x41100000 = 0x3F800000 := by
  decide +kernel
theorem witness_VectorMasks :
    checked.canRead (scalarB (fv 3 1 2 0)) ∧ checked.noPending ((16 + 3) :: 1 :: maskRegs (fv 3 1 2 0) ++ [2])
      ∧ checked.canRead [] ∧ (∀ fn : Fin 6, checked.noPending ((16 + 3) :: maskRegs (fv 3 1 2 0)
        ++ (if fn.val = 5 then [] else [16 + 1]) ++ if fn.val = 4 then [] else [16 + 2])) := by
  simp only [State.canRead, State.noPending]; decide +kernel
theorem witness_VectorConversions : checked.canV1 (fv 3 1 0 0) ∧ checked.canRead [4] ∧ checked.canRead []
    ∧ checked.noPending [3, 1] ∧ 0 * (4 * sgBytes 3) + 4 * sgBytes 3 ≤ 256 ∧ 7 * (4 * sgBytes 5) + 4 * sgBytes 5 ≤ 256
    ∧ checked.noPending (3 :: 1 :: maskRegs (fv 3 1 0 0)) := by
  simp only [State.canV1, State.canRead, State.noPending]; decide +kernel
/-- Operands of each kind of VCVT: f32 to n8 and back, n8 to i16 and i16 to n8, types of one width, bf16 to f32 and to f16;
a NaN, an infinity and a finite number; a narrower and a wider source. -/
theorem witness_VectorConversions_values :
    checked.canV1 (fv 3 1 0 11 0) ∧ checked.canV1 (fv 3 1 0 0 11) ∧ checked.canV1 (fv 3 1 0 8 11) ∧ checked.canV1 (fv 3 1 0 6 7)
      ∧ checked.canV1 (fv 3 1 0 2 1) ∧ checked.canV1 (fv 3 1 0 1 1)
    ∧ elemF 0 0x7F800001 = .nan ∧ elemF 0 0xFF800000 = .inf true ∧ (match elemF 0 0x43960000 with | .fin neg n d => !neg && n == 300 * d | _ => false) = true
    ∧ intW 11 < intW 8 ∧ intW 11 ≤ intW 8 ∧ intW 6 ≤ intW 7 ∧ (elemF 1 0x7FC1).isNan = true ∧ (elemF 1 0xBF80).isNan = false := by
  simp only [State.canV1, State.noPending]; decide +kernel
/-- R157, R190: 300 is clamped to 255, a NaN gives 0, and −1 of i32 is clamped to 0 of n32. -/
theorem test_vcvt_f32_n8 :
    (laneAfter (exec (.vcvt (fv 3 1 0 11 0)) (vecs (fun i => if i = 0 then 0x43960000 else 0x7F800001) (fun _ => 0))) 0,
     laneAfter (exec (.vcvt (fv 3 1 0 11 0)) (vecs (fun i => if i = 0 then 0x43960000 else 0x7F800001) (fun _ => 0))) 1)
      = (some 255, some 0) := by decide +kernel
theorem test_vcvt_i32_n32 : laneAfter (exec (.vcvt (fv 3 1 0 7 6)) (vecs (fun _ => 0xFFFFFFFF) (fun _ => 0))) 5 = some 0 := by
  decide +kernel
theorem witness_VectorMoves : checked.canRead [4] ∧ checked.canRead [] ∧ checked.canWrite 5 ∧ checked.canV1 (fv 3 1 0 0 1)
    ∧ checked.noPending (3 :: maskRegs (fv 3 1 0 0)) ∧ checked.noPending [1] ∧ checked.noPending [16 + 3]
    ∧ checked.noPending [3] := by
  simp only [State.canV1, State.canRead, State.canWrite, State.noPending]; decide +kernel
theorem witness_VectorScanAndSelect : checked.canV1 (fv 3 1 0 6 2) ∧ checked.canV1 (fv 3 1 0 2)
    ∧ (checked.presentLanes (fv 3 1 0 6)).length = 64
    ∧ (checked.presentLanes { fv 3 1 0 6 with me := true }).length = 0 := by
  simp only [State.canV1, State.noPending]; decide +kernel
/-- Lanes of f32: 1, −0, +0 and −∞ in turn, and a NaN in lane 63. -/
def floats : State := vecs (fun i => if i = 63 then 0x7FC00001 else match i % 4 with
  | 0 => 0x3F800000
  | 1 => 0x80000000
  | 2 => 0
  | _ => 0xFF800000) (fun _ => 0x3F800000)
theorem witness_Floats : elemF 0 (lane (rd floats.thread.v 1 0) 63) = .nan
    ∧ (∃ a ∈ (floats.presentLanes (fv 5 1 0 0)).map (elemF 0), a.isNan = true)
    ∧ (floats.presentLanes { fv 5 1 0 0 with me := true }).map (elemF 0) = []
    ∧ (let fs := ((floats.modThread fun t => { t with m := wr t.m 1 0xF }).presentLanes { fv 5 1 0 0 with mask := 1, me := true }).map (elemF 0)
       fs ≠ [] ∧ ∀ a ∈ fs, a.isNan = false) := by decide +kernel
/-- The least is −∞; the greatest of zeros of both signs is +0 (R196). -/
theorem test_vtopk_floats : laneAfter (exec (.vtopk (fv 3 1 0 0 31)) floats) 32 = some 0
    ∧ laneAfter (exec (.vtopk (fv 3 1 0 0 31)) floats) (32 + 16) = some 2
    ∧ laneAfter (exec (.vmax (fv 3 1 2 0)) floats) 63 = some 0x7FC00000 := by decide +kernel
theorem witness_VectorReductions : checked.canRead [] ∧ checked.canWrite 5 ∧ checked.noPending (1 :: maskRegs (fv 5 1 0 6)) := by
  simp only [State.canRead, State.canWrite, State.noPending]; decide +kernel
theorem witness_PendingResults : (∃ a, pending.thread? = some a ∧ a.cfg.getLsbD 0 = true ∧ a.atLookup = false
    ∧ (∃ p ∈ a.pend, p.reg = (2 : Spec).toNat) ∧ ∃ p ∈ a.pend, p.reg = 16 + 1) ∧ (2 : Nat) < 20
    ∧ ((fv 3 1 2 0).sc = false ∧ { fv 3 4 5 0 with mask := 1, me := true }.me = true)
    ∧ ((fv 3 1 2 0 4).op.extractLsb' 0 3).toNat ≠ 5 ∧ ((fv 3 1 2 0 5).op.extractLsb' 0 3).toNat ≠ 4
    ∧ ((fv 3 2 0 0).op.extractLsb' 0 2 = 0#2 ∧ (fv 2 3 0 0 1).op.extractLsb' 0 2 = 1#2 ∧ (fv 3 1 0 0 2).op.extractLsb' 0 2 = 2#2)
    ∧ (fv 3 2 0 0 1).op.getLsbD 0 = true :=
  ⟨⟨_, rfl, by decide +kernel, by decide +kernel, by decide +kernel⟩, by decide⟩
theorem witness_VectorFrame : (∃ a, checked.thread? = some a) ∧ (Instr.vadd (fv 3 1 2 0)).WellFormed = true
    ∧ (Instr.vredmax (fv 5 1 0 0)).WellFormed = true ∧ (∃ t, exec (.vadd (fv 3 1 2 0)) checked = .next t)
    ∧ (∃ t, exec (.vredmax (fv 5 1 0 0)) checked = .next t)
    ∧ (Instr.vcmp (fv 2 1 2 0)).WellFormed = true ∧ ∃ t, exec (.vcmp (fv 2 1 2 0)) checked = .next t :=
  ⟨⟨_, rfl⟩, by decide, by decide, is_next (by decide +kernel), is_next (by decide +kernel), by decide,
    is_next (by decide +kernel)⟩

/-- Addresses in device memory and at both ends of a core's store, with data in g2 to g5. -/
def at1 (a : Word) : State := ((two a 5).modThread fun t => ((t.setG 3 6).setG 4 7).setG 5 8)
def dev : State := at1 0x20000
def win0 : State := at1 (word winLo)
def winEnd : State := at1 (word (winLo + 0x15FFF0))

/-- No barrier request and no packet holds the thread back. -/
theorem clear_of {s : State} (h : (!s.toObject s.cur s.thread.tid none && !s.tampered.contains s.cur) = true) :
    s.clear := by
  simpa [State.clear] using h

theorem ok_of {α : Type} {r : Except α Nat} {a : Nat} (h : r.toOption = some a) : r = .ok a := by
  cases r <;> simp [Except.toOption] at h
  exact h ▸ rfl

theorem witness_Load : dev.canRead [1] ∧ dev.canWrite 5 ∧ ((dev.taken [1]).orderOf true 0 1).1 < 2
    ∧ (∃ l s1, (dev.taken [1]).reach 1 [(dev.operand [1] 0 + (0 : BitVec 24).signExtend 64).toNat] 8 8 needR = some ([l], s1))
    ∧ (∃ l s1, (winEnd.taken [1]).reach 1 [(winEnd.operand [1] 0 + (0xF : BitVec 24).signExtend 64).toNat] 1 1 needR
      = some ([l], s1)) ∧ dev.clear ∧ winEnd.clear :=
  ⟨by simp only [State.canRead]; decide +kernel, by simp only [State.canWrite]; decide +kernel, by decide +kernel,
    reached_one (by decide +kernel), reached_one (by decide +kernel), clear_of (by decide +kernel), clear_of (by decide +kernel)⟩
theorem witness_Store : dev.canRead [1, 2]
    ∧ (∃ l s1, (dev.taken [1, 2]).reach 1 [(dev.operand [1, 2] 0 + (0 : BitVec 24).signExtend 64).toNat] 8 8 needW
      = some ([l], s1))
    ∧ (∃ l s1, (win0.taken [1, 2]).reach 1 [(win0.operand [1, 2] 0 + (0 : BitVec 24).signExtend 64).toNat] 1 1 needW
      = some ([l], s1)) ∧ dev.clear ∧ win0.clear :=
  ⟨by simp only [State.canRead]; decide +kernel, reached_one (by decide +kernel), reached_one (by decide +kernel),
    clear_of (by decide +kernel), clear_of (by decide +kernel)⟩
theorem witness_LoadAfterStore :
    (let l : Lane := { ea := winLo + 1024 * 0x200000 - 8, n := 8 }
     (List.replicate 8 (0 : Byte)).length = l.n ∧ l.win = true
      ∧ winLo + 1023 * 0x200000 ≤ l.ea ∧ l.ea + l.n ≤ winLo + (1023 + 1) * 0x200000)
    ∧ (let l : Lane := { ea := 0x1FFF8, n := 8, pa := 0x1FFF8 }
      (List.replicate 8 (0 : Byte)).length = l.n ∧ l.win = false ∧ l.ea / 65536 = (l.ea + l.n - 1) / 65536
      ∧ ∀ x ∈ (dev.core 1).lines, 1 ≠ 0 → x.written = 0)
    ∧ let l : Lane := { ea := 0x20000, n := 32, pa := 0x20000 }
      l.win = false ∧ l.n ≤ 32 ∧ lineOf l.ea = lineOf (l.ea + l.n - 1) ∧ dev.fillBad 0 0 l = false := by
  decide +kernel
/-- The scalar base and a step of 4; lane i of v2 is 4 i. -/
def lanes : State := (at1 0x20000).modThread fun t => { t.setG 2 4 with v := wr t.v 2 (vec fun i => BitVec.ofNat 32 (4 * i)) }
theorem witness_VectorLoads : lanes.canRead [1] ∧ lanes.canRead [1, 2] ∧ lanes.canRead [] ∧ lanes.noPending [15]
    ∧ lanes.noPending [15, 2] ∧ ((lanes.taken [1]).orderOf true 1 2).1 < 2
    ∧ (∃ ls s1, (lanes.taken [1]).reach 1 ((List.range 64).map fun i =>
      (lanes.operand [1] 0 + (0 : BitVec 24).signExtend 64 + word (i * 4)).toNat) 4 4 needR = some (ls, s1))
    ∧ (∃ ls s1, (lanes.taken [1, 2]).reach 1 ((List.range 64).map fun i =>
      (lanes.operand [1, 2] 0 + (0 : BitVec 24).signExtend 64 + word i * lanes.operand [1, 2] 1).toNat) 2 2 needR
      = some (ls, s1))
    ∧ (∃ ls s1, lanes.started.reach 1 ((List.range 64).map fun i =>
      ((lane (lanes.vreg 2) i).signExtend 64 + (8 : BitVec 24).signExtend 64).toNat) 4 4 needR = some (ls, s1))
    ∧ lanes.clear :=
  ⟨by simp only [State.canRead]; decide +kernel, by simp only [State.canRead]; decide +kernel,
    by simp only [State.canRead]; decide +kernel, by simp only [State.noPending]; decide +kernel,
    by simp only [State.noPending]; decide +kernel, by decide +kernel,
    reached_all (by decide +kernel), reached_all (by decide +kernel), reached_all (by decide +kernel),
    clear_of (by decide +kernel)⟩
theorem witness_VectorStores : lanes.canRead [1] ∧ lanes.canRead [1, 2] ∧ lanes.canRead [] ∧ lanes.noPending [3]
    ∧ lanes.noPending [3, 2]
    ∧ (∃ ls s1, (lanes.taken [1]).reach 1 ((List.range 64).map fun i =>
      (lanes.operand [1] 0 + (0 : BitVec 24).signExtend 64 + word (i * 4)).toNat) 4 4 needW = some (ls, s1))
    ∧ (∃ ls s1, (lanes.taken [1, 2]).reach 1 ((List.range 64).map fun i =>
      (lanes.operand [1, 2] 0 + (0 : BitVec 24).signExtend 64 + word i * lanes.operand [1, 2] 1).toNat) 1 1 needW
      = some (ls, s1))
    ∧ (∃ ls s1, lanes.started.reach 1 ((List.range 64).map fun i =>
      ((lane (lanes.vreg 2) i).signExtend 64 + (8 : BitVec 24).signExtend 64).toNat) 4 4 needW = some (ls, s1))
    ∧ lanes.clear :=
  ⟨by simp only [State.canRead]; decide +kernel, by simp only [State.canRead]; decide +kernel,
    by simp only [State.canRead]; decide +kernel, by simp only [State.noPending]; decide +kernel,
    by simp only [State.noPending]; decide +kernel,
    reached_all (by decide +kernel), reached_all (by decide +kernel), reached_all (by decide +kernel),
    clear_of (by decide +kernel)⟩
theorem witness_Atomics : dev.canRead [1, 2] ∧ dev.canRead [1, 2, 2 + 1] ∧ dev.canRead [1, 2, 2 + 1, 2 + 2, 2 + 3]
    ∧ (∃ l s1, (dev.taken [1, 2]).reach 1 [(dev.operand [1, 2] 0 + (4 : BitVec 24).signExtend 64).toNat] 4 4 needRWA
      = some ([l], s1))
    ∧ (∃ l s1, (win0.taken [1, 2, 2 + 1]).reach 1 [(win0.operand [1, 2, 2 + 1] 0 + (0 : BitVec 24).signExtend 64).toNat]
      8 8 needRWA = some ([l], s1))
    ∧ (∃ l s1, (dev.taken [1, 2, 2 + 1, 2 + 2, 2 + 3]).reach 1
      [(dev.operand [1, 2, 2 + 1, 2 + 2, 2 + 3] 0 + (16 : BitVec 24).signExtend 64).toNat] 16 16 needRWA = some ([l], s1))
    ∧ dev.clear ∧ win0.clear :=
  ⟨by simp only [State.canRead]; decide +kernel, by simp only [State.canRead]; decide +kernel,
    by simp only [State.canRead]; decide +kernel, reached_one (by decide +kernel), reached_one (by decide +kernel),
    reached_one (by decide +kernel), clear_of (by decide +kernel), clear_of (by decide +kernel)⟩
theorem witness_LineOperations : dev.canRead [1]
    ∧ lineCheck (rd (dev.taken [1]).thread.seg 1 {}) (dev.taken [1]).thread.dom 0x20000 = .ok 0x20000
    ∧ lineCheck (rd (win0.taken [1]).thread.seg 1 {}) (win0.taken [1]).thread.dom winLo = .ok winLo
    ∧ inWin 0x20000 = false ∧ inWin winLo = true ∧ (win0.taken [1]).storeFault 0 0 winLo 32 = none
    ∧ (dev.taken [1]).me.rangeHit 0 0 0x20000 32 false = none ∧ (win0.taken [1]).me.rangeHit 0 0 winLo 32 false = none
    ∧ (lineCheck (rd (dev.taken [1]).thread.seg 2 {}) (dev.taken [1]).thread.dom 0x20000).isOk = false :=
  ⟨by simp only [State.canRead]; decide +kernel, ok_of (by decide +kernel), ok_of (by decide +kernel), by decide +kernel⟩
/-- PREF at scope core of a line that the L1 has not, of a window, and of one that a range entry bars. -/
def barred : State := dev.modMe fun k => { k with ranges := [(3, ⟨0, 0x20000, 0x20020, true, .thread 9, 4⟩)] }
theorem witness_LineOperations_pref :
    (∃ pa u1, (dev.taken [1]).physOf needR 0x20000 = some (pa, u1)
      ∧ (!u1.fillBad (dev.taken [1]).cur (dev.taken [1]).thread.dom { ea := lineOf 0x20000, n := 32, pa := lineOf pa }) = true)
    ∧ (barred.taken [1]).me.rangeHit 0 0 0x20000 32 false ≠ none ∧ dev.cur ∉ dev.tampered
    ∧ (fm 0 1 0 1).scope = 1 ∧ (fm 0 1 0 2).scope ≠ 1 ∧ clusterOf dev.cur ≠ 1 := by
  obtain ⟨r, h, h'⟩ := some_of (o := (dev.taken [1]).physOf needR 0x20000) (fun r => !r.2.fillBad (dev.taken [1]).cur
    (dev.taken [1]).thread.dom { ea := lineOf 0x20000, n := 32, pa := lineOf r.1 }) (by decide +kernel)
  exact ⟨⟨r.1, r.2, h, h'⟩, by decide +kernel⟩
theorem test_pref : after (exec (.pref (fm 0 1 0 1)) dev) (fun t => (t.me.lineAt 0 0x20000).isSome) = some true := by
  decide +kernel
/-- The L1 holds a line that a store has written and that the dirty list names. -/
def dirtied : State := dev.modMe fun k => { k with
  lines := [{ dom := 0, va := 0x20000, pa := 0x20000, data := 7, written := 1 }], dirty := [(0, 0x20000)] }
theorem witness_Fences : (∃ a, dirtied.thread? = some a) ∧ dirtied.clear ∧ 2 ≤ (2 : BitVec 3).toNat
    ∧ (∀ l ∈ (dirtied.core 0).lines, l.va % 32 = 0)
    ∧ ∃ l, ((dirtied.release 0 0 2).core 0).lineAt 0 0x20000 = some l :=
  ⟨⟨_, rfl⟩, clear_of (by decide +kernel), by decide, by decide +kernel, Option.isSome_iff_exists.mp (by decide +kernel)⟩
/-- s2 ends at 0x100 and may be read only; s3 belongs to domain 9; s4 may be written only. -/
def segs (a : Word) : State := (at1 a).modThread fun t => { t with
  seg := wr (wr (wr t.seg 2 { rights := 1, limit := 0x100 }) 3 { dom := 9, rights := 3, limit := 0x100 }) 4
    { rights := 2, limit := 0x100 } }
theorem witness_AccessTraps_operands : (∃ a, (segs 0xF8).thread? = some a ∧ a.atLookup = false) ∧ (segs 0xF8).canRead [1]
    ∧ (segs 0xF8).canRead [1, 2] ∧ (segs 0xF8).canRead [1, 2, 2 + 1] ∧ (segs 0xF8).canRead [1, 2, 2 + 1, 2 + 2, 2 + 3]
    ∧ (segs 0xF8).canWrite 5 ∧ (segs 0xF8).noPending [2, 3] := by
  refine ⟨⟨_, rfl, by decide +kernel⟩, ?_, ?_, ?_, ?_, ?_, ?_⟩ <;>
    simp only [State.canRead, State.canWrite, State.noPending] <;> decide +kernel
/-- The sub-code and the detail of the segment check of 8 bytes at `off` of segment `i`. -/
def segFails (i off : Nat) (nd : Need) : Option (Nat × Nat) :=
  let t := (segs 0xF8).thread
  match segCheck (rd t.seg i {}) t.dom off 8 nd with
  | .ok _ => none
  | .error e => some e
/-- Where one of the first three checks stops an access: the second lane's alignment; the limit, the rights, the domain, a
segment that may not reach the window; a store outside the banks and one outside the window; an entry of a range. -/
theorem witness_AccessTraps_checks :
    ([0xF8, 0xFA, 0xFC].find? (fun o => decide (o % 8 ≠ 0)) = some 0xFA)
    ∧ segFails 2 0xF8 needR = none ∧ segFails 2 0xF9 needR = some (1, 0xF9) ∧ segFails 2 0xF8 needW = some (2, 0xF8)
    ∧ segFails 3 0xF8 needR = some (3, 0xF8)
    ∧ (segCheck { rights := 3, limit := 0x10000000000000 } 0 winLo 8 needR).toOption = none
    ∧ (segCheck { rights := 3, limit := 0x10000000000000 } 0 (winLo - 8) 8 needR).toOption = some (winLo - 8)
    ∧ ((dev.taken [1]).storeFault 0 0 (winLo + 0x160000) 8 = some 2 ∧ (dev.taken [1]).storeFault 0 0 (winLo + 0x180000) 8 = some 1
      ∧ (dev.taken [1]).storeFault 0 0 (winLo + 0x15FFF8) 8 = none)
    ∧ (let k := { dev.me with ranges := [(0, ⟨0, 0x900000, 0x900100, true, .command 77, 0⟩)] }
       k.rangeHit 0 0 0x900000 8 false = some 0 ∧ k.rangeHit 0 0 0x900100 8 false = none)
    ∧ (lineCheck (rd dev.thread.seg 2 {}) 0 0x20000).toOption = none := by decide +kernel
/-- What the pages answer: an entry that lacks a right or memory that is not there, a page of another domain under the
identity rule, and a page with no entry. -/
theorem witness_AccessTraps_pages : (dev.pageStop needR [0x20000, 0xC000000000]).1 = some (9, 0xC000000000)
    ∧ ((dev.modThread fun t => { t with dom := 3 }).pageStop needR [0x20000]).1 = some (8, 0x20000)
    ∧ (({ dev with ptcfg := 0x106, ptbase := 0x400000 } : State).pageStop needR [0x20000]).1 = some (0, 0x20000)
    ∧ dev.thread.refused = none := by decide +kernel
theorem witness_MemoryFrame : (∃ a, dev.thread? = some a) ∧ (∃ t, exec (.st (fm 2 1 3 1)) dev = .next t)
    ∧ dev.undisturbed 0x20008
    ∧ ∀ ls s1, (dev.taken [1, 2]).reach 1 [(dev.operand [1, 2] 0 + (0 : BitVec 24).signExtend 64).toNat] 8 8 needW
        = some (ls, s1) → ¬ inLanes ls 0x20008 ∧ ¬ inHeld dev 0 ls 0x20008 := by
  refine ⟨⟨_, rfl⟩, is_next (by decide +kernel), by simp only [State.undisturbed]; decide +kernel, fun ls s1 h => ?_⟩
  have k : ((dev.taken [1, 2]).reach 1 [(dev.operand [1, 2] 0 + (0 : BitVec 24).signExtend 64).toNat] 8 8 needW).map (·.1)
      = some [{ ea := 0x20000, n := 8, pa := 0x20000 }] := by decide +kernel
  rw [h] at k
  obtain rfl : ls = [{ ea := 0x20000, n := 8, pa := 0x20000 }] := by simpa using k
  simp only [inLanes, inHeld]; decide +kernel
/-- A store to the end of a core's store, with the bytes on both sides of it. -/
theorem witness_MemoryFrame_window : (∃ a, winEnd.thread? = some a) ∧ (∃ t, exec (.st (fm 2 1 3 1)) winEnd = .next t)
    ∧ ∀ ls s1, (winEnd.taken [1, 2]).reach 1 [(winEnd.operand [1, 2] 0 + (0 : BitVec 24).signExtend 64).toNat] 8 8 needW
        = some (ls, s1) → ¬ inWindow winEnd.cur ls 0 0x15FFEF ∧ ¬ inWindow winEnd.cur ls 0 0x15FFF8
          ∧ ¬ inWindow winEnd.cur ls 1 0x15FFF0 := by
  refine ⟨⟨_, rfl⟩, is_next (by decide +kernel), fun ls s1 h => ?_⟩
  have k : ((winEnd.taken [1, 2]).reach 1 [(winEnd.operand [1, 2] 0 + (0 : BitVec 24).signExtend 64).toNat] 8 8 needW).map
      (·.1) = some [{ ea := winLo + 0x15FFF0, n := 8 }] := by decide +kernel
  rw [h] at k
  obtain rfl : ls = [{ ea := winLo + 0x15FFF0, n := 8 }] := by simpa using k
  simp only [inWindow]; decide +kernel

/-- The layout of 64 rows of 64 bytes in format 1, and a ring of tiles under it, of which some are ready. -/
def lay64 : Word := 0x40004001
def ringOf (base tiles ready : Nat) : Ring :=
  { base, tiles, layout := lay64, head := 1, ready, tags := (List.range tiles).map fun i => (i, lay64) }

/-- Rings 2 and 3 have tiles, ring 4 has none; the issuing thread locked range 3; g1 and g2 hold the operands. -/
def eng (a b : Word) : State := (two a b).modMe fun k =>
  { (k.setRing 2 (ringOf 0x10000 6 4)).setRing 3 (ringOf 0x20000 4 4) with
      ranges := [(0, ⟨0, 0x900000, 0x900100, true, .command 77, 0⟩), (3, ⟨0, 0x90000, 0x90100, true, .thread 0, 4⟩)] }

theorem witness_MatrixCommands : (eng 0x20000 0x24000).canRead [] ∧ (eng 0x20000 0x24000).canRead [1]
    ∧ (eng 0x20000 0x24000).canRead [1, 2] ∧ (eng 0x20000 0x24000).canWrite 8
    ∧ (let k := (eng 0x20000 0x24000).me
       let w := mmaOf (ft 8 0 0 1 2 3 0 3)
       k.mmaCheck 0 w = none ∧ k.mmaReady 0 w = true ∧ k.tagsOk w = true ∧ (eng 0 0).thread.atLookup = false
        ∧ k.mmaCheck 0 (mmaOf (ft 8 0 0 1 2 4)) = some 3 ∧ k.hasAcc 0 1 = true ∧ k.matRoom 0 = true
        ∧ k.hasRing 0 2 = true ∧ k.rangeRoom 0 2 = true)
    ∧ (0x20000 : Word).toNat % 4 = 0 ∧ (0x24000 : Word).toNat % 4 = 0
    ∧ ((eng 0x20000 0x24000).taken [1, 2]).segAt 1 0x20000 (4096 * 4) (needW ||| needE) 0x20000
    ∧ ((eng 0x20000 0x24000).taken [1, 2]).segAt 1 0x24000 4 (needRW ||| needE) 0x24000
    ∧ ((eng 0x20000 0x24000).taken [1]).segAt 1 0x20000 16384 (needR ||| needE) 0x20000 := by
  refine ⟨?_, ?_, ?_, ?_, by decide +kernel, by decide, by decide, ok_of ?_, ok_of ?_, ok_of ?_⟩ <;>
    (try simp only [State.canRead, State.canWrite]) <;> decide +kernel

/-- A tile that the MMA would claim has another tag; an accumulator and a ring that are not the domain's. -/
theorem witness_MatrixCommands_refused :
    (let s := (eng 0 0).modMe fun k => k.setRing 3 { k.ringAt 3 with tags := [(1, 5), (2, lay64), (3, lay64)] }
     let w := mmaOf (ft 8 0 0 1 2 3 0 3)
     let b := s.me.ringAt 3
     s.me.mmaCheck 0 w = none ∧ s.me.mmaReady 0 w = true ∧ 0 < w.n
      ∧ Tab.get 0 b.tags ((b.head + b.claims + (if w.ra = w.rb then w.n else 0) + 0) % b.tiles) ≠ b.layout)
    ∧ (let s := ((eng 0 0).modMe fun k => { k with part0 := [(0, setFld bootPart0 12 4 7)], part1 := [(0, setFld bootPart1 12 5 2)] })
       s.me.hasAcc 0 3 = false ∧ s.me.hasAcc 0 2 = true ∧ s.me.hasRing 0 2 = false ∧ s.me.hasRing 0 1 = true
        ∧ s.thread.atLookup = false) := by decide +kernel

/-- A shape block of two dimensions (R213). -/
def shapeBlock (src dst : Nat) (sn dn : Nat × Nat) (sd dd : Nat × Nat) (lay ctl : Nat) : List Byte :=
  let es (n : Nat × Nat) (z : Nat) := leBytes 4 n.1 ++ leBytes 4 n.2 ++ (List.replicate 4 (leBytes 4 z)).flatten
  leBytes 8 src ++ leBytes 8 dst ++ es sn (if sn.1 = 0 then 0 else 1) ++ es sd 0 ++ es dn 1 ++ es dd 0
    ++ leBytes 8 lay ++ leBytes 8 ctl
/-- A copy of 4 rows of 64 bytes from 0x20000 to 0x21000, one to ring 2, and a fill, with the word of an MMA in g2. -/
def copying (blk : List Byte) : State :=
  (eng 0x8000 ((encode (.mma (ft 7 0 0 1 2 3))).getD 0)).wrStore 0 0x8000 blk
def toSeg : State := copying (shapeBlock 0x20000 0x21000 (16, 4) (16, 4) (4, 64) (4, 64) 0 (2 + 0x100 + 0x800))
def toRing : State :=
  copying (shapeBlock 0x20000 0 (64, 32) (64, 32) (2, 128) (2, 128) lay64.toNat (1 + 8 + 0x30 + 0x100 + 0x80000))
def filling : State := copying (shapeBlock 0x5A 0x22000 (0, 0) (8, 2) (0, 0) (4, 64) 0 (2 + 0x800))

theorem witness_CopyCommands : toSeg.canRead [1] ∧ toRing.canRead [1, 2] ∧ toSeg.canWrite 8
    ∧ (∀ s ∈ [toSeg, toRing, filling], (s.taken [1]).storeFree 0x8000 128 false) ∧ (toRing.taken [1, 2]).storeFree 0x8000 128 false
    ∧ (storeLoc 0 0x8000).2 % 128 = 0 ∧ followOk (toRing.operand [1, 2] 1) = true
    ∧ (let b := Shape.ofBytes (toSeg.rdStore 0 0x8000 128)
       b.valid toSeg.me 0 false = true ∧ b.dring = false
        ∧ boundOf b.src b.sn b.sd b.ses = (0x20000, 0x20000 + 256) ∧ boundOf b.dst b.dn b.dd b.des = (0x21000, 0x21000 + 256))
    ∧ (let b := Shape.ofBytes (toRing.rdStore 0 0x8000 128)
       b.valid toRing.me 0 false = true ∧ b.dring = true ∧ boundOf b.src b.sn b.sd b.ses = (0x20000, 0x20000 + 4096))
    ∧ (let b := Shape.ofBytes (filling.rdStore 0 0x8000 128)
       b.valid filling.me 0 true = true ∧ b.dring = false ∧ boundOf b.dst b.dn b.dd b.des = (0x22000, 0x22000 + 96))
    ∧ (toSeg.taken [1]).segAt 1 0x20000 256 (needR ||| needE) 0x20000
    ∧ (toSeg.taken [1]).segAt 1 0x21000 256 (needW ||| needE) 0x21000
    ∧ (toRing.taken [1, 2]).segAt 1 0x20000 4096 (needR ||| needE) 0x20000
    ∧ (filling.taken [1]).segAt 1 0x22000 96 (needW ||| needE) 0x22000
    ∧ (toRing.taken [1, 2]).thread.isFull 7 = true ∧ toRing.me.copiesOf 0 < toRing.me.copyShare 0
    ∧ toRing.me.rangeRoom 0 2 = true := by
  refine ⟨?_, ?_, ?_, ?_, ?_, ?_, ?_, ?_, ?_, ?_, ok_of ?_, ok_of ?_, ok_of ?_, ok_of ?_, ?_⟩ <;>
    (try simp only [State.canRead, State.canWrite, State.storeFree, State.storeAt]) <;> decide +kernel

theorem witness_CopyCommands_clear : ∀ s ∈ [eng 0x20000 0x24000, toSeg, toRing, filling], s.clear := by
  intro s h; fin_cases h <;> exact clear_of (by decide +kernel)

theorem witness_Rings : (eng 0x04010000 0x40004001).canRead [1, 2] ∧ (eng 0 0).canRead [] ∧ (eng 0 0).canWrite 5
    ∧ (let s := eng 0x04010000 0x40004001
       let g := s.me.ringAt 2
       s.me.hasRing 0 2 = true ∧ s.me.hasRing 0 4 = true ∧ g.held = 0 ∧ g.claims = 0 ∧ (∀ c ∈ s.me.copies, c.names 2 = false)
        ∧ (∀ c ∈ s.me.mats, c.names 2 = false)
        ∧ (let A := s.operand [1, 2] 0
           fld A 0 21 % 256 = 0 ∧ fld A 21 3 = 0 ∧ fld A 24 8 ≠ 0 ∧ fld A 32 32 = 0 ∧ layoutOk (s.operand [1, 2] 1) = true)
        ∧ g.tiles ≠ 0 ∧ (s.me.ringAt 4).tiles = 0 ∧ s.thread.atLookup = false)
    ∧ ((eng 0x04010000 0x40004001).taken [1, 2]).storeAt 0x10000 (4 * tileBytes 0x40004001) := by
  refine ⟨?_, ?_, ?_, ?_, ?_⟩ <;> (try simp only [State.canRead, State.canWrite, State.storeAt]) <;> decide +kernel

/-- All range entries of the domain are taken. -/
def noRange : State := (eng 0x30000 16).modMe fun k =>
  { k with ranges := (List.range 32).map fun i => (i, ⟨0, 0x900000, 0x900100, true, .command 77, 0⟩) }
theorem witness_RangeLocks : (eng 0x30000 16).canRead [1, 2] ∧ (eng 3 0).canRead [1] ∧ (eng 0x30000 16).canWrite 5
    ∧ ((eng 0x30000 0).operand [1, 2] 1).toNat = 0 ∧ 2 ^ 32 < ((eng 0x30000 0x100000001).operand [1, 2] 1).toNat
    ∧ 0 < ((eng 0x30000 0x100000000).operand [1, 2] 1).toNat ∧ ((eng 0x30000 0x100000000).operand [1, 2] 1).toNat ≤ 2 ^ 32
    ∧ ((eng 0x30000 0x100000000).taken [1, 2]).segAt 1 0x30000 0x100000000 needRW 0x30000
    ∧ (noRange.taken [1, 2]).segAt 1 0x30000 16 needR 0x30000
    ∧ noRange.me.rangeRoom 0 5 = false ∧ (eng 0x30000 16).me.rangeRoom 0 5 = true
    ∧ (∀ e ∈ (eng 0x30000 16).me.ranges, e.1 ≠ 1) ∧ (∀ j', j' < 1 → ∃ e ∈ (eng 0x30000 16).me.ranges, e.1 = j')
    ∧ (∃ e ∈ (eng 3 0).me.ranges, e.1 = ((eng 3 0).operand [1] 0).toNat ∧ e.2.owner = .thread (eng 3 0).thread.tid)
    ∧ (∀ i ∈ [0, 31], ∀ e ∈ (eng 3 0).me.ranges, e.1 = i → e.2.owner ≠ .thread (eng 3 0).thread.tid)
    ∧ (eng 0 0).thread.atLookup = false ∧ (eng 3 0).clear := by
  refine ⟨?_, ?_, ?_, ?_, ?_, ?_, ?_, ok_of ?_, ok_of ?_, ?_⟩ <;>
    (try simp only [State.canRead, State.canWrite, State.clear]) <;> decide +kernel

/-- A command with a later entry over the bytes of the thread's entry 3. -/
def queuedBehind : State := { (eng 3 0).modMe fun k =>
  { k with ranges := k.ranges ++ [(5, ⟨0, 0x90010, 0x90020, true, .command 78, 6⟩)] } with nextId := 79 }
theorem witness_RangeLocks_held : ∃ e, queuedBehind.me.ranges.find? (·.1 == 3) = some e
    ∧ (e.2.owner == .thread queuedBehind.thread.tid && queuedBehind.me.ranges.any fun m =>
        m.1 != 3 && m.2.owner == .command 78 && decide (e.2.seq < m.2.seq) && decide (m.2.seq < queuedBehind.nextId)
          && e.2.meets m.2) = true :=
  some_of _ (by decide +kernel)
/-- The fill of an RFREE holds the command back until it lands (R229). -/
theorem test_rfree_holds : after (exec (.rfree (ft 5 1 0)) queuedBehind) (fun t => t.me.rangeHeld 78) = some true := by
  decide +kernel

/-- A barrier object in phase 2 at 0x9000 of the own store. -/
def barrier (b : Word) : State :=
  (eng 0x9000 b).wrStore 0 0x9000 (leBytes 8 (1 + 4 * 2 ^ 16 + 2 * 2 ^ 32) ++ List.replicate 8 0)
theorem witness_Barriers : (barrier 0x10003).canRead [1, 2] ∧ (barrier 0).canRead [1] ∧ (barrier 0).canWrite 5
    ∧ ((barrier 0x10003).taken [1, 2]).storeFree 0x9000 16 true ∧ ((barrier 0).taken [1]).storeFree 0x9000 16 true
    ∧ ((barrier 7).taken [1, 2]).storeFree 0x9000 16 false
    ∧ (let V := (barrier 0x10003).operand [1, 2] 1
       (storeLoc 0 0x9000).2 % 16 = 0 ∧ fld V 0 16 ≠ 0 ∧ fld V 16 8 ≠ 0 ∧ fld V 28 36 = 0)
    ∧ (let o := word (ofLe ((barrier 7).rdStore 0 0x9000 8))
       (fld o 32 4 ≠ 1) ∧ ¬ (fld o 32 4 ≠ 2 ∨ o.getLsbD 36 = true) ∧ fld ((barrier 7).operand [1, 2] 1) 0 32 ≠ 0
        ∧ fld ((barrier 0).operand [1, 2] 1) 0 32 = 0) ∧ (barrier 0x10003).clear ∧ (barrier 0).clear ∧ (barrier 7).clear := by
  refine ⟨?_, ?_, ?_, ?_, ?_, ?_, ?_, ?_, ?_⟩ <;>
    (try simp only [State.canRead, State.canWrite, State.storeFree, State.storeAt, State.clear]) <;> decide +kernel

/-! A splice, route entries, a token pool and receive queues. -/
def entryOf (core queue cap cred : Nat) (failed : Bool) : Word × Word :=
  (word (2 ^ 55 + (if failed then 2 ^ 54 else 0) + cap * 2 ^ 28 + cred * 2 ^ 12), word (core * 16 + queue))
def spliceBlock : List Byte :=
  leBytes 8 0x30000 ++ leBytes 2 2 ++ leBytes 2 16 ++ leBytes 4 0 ++ leBytes 4 100 ++ List.replicate 12 0
def queueBlock : List Byte := leBytes 2 64 ++ leBytes 2 1 ++ leBytes 4 50 ++ List.replicate 24 0
def token : Word := word (2 ^ 51 + 5 * 2 ^ 22)
def page1 : TokPage := { addr := 0x600000, resv := 1, rows := [(0, token)] }
def rx : RxQueue := { dom := 0, tid := 0, rowbytes := 64, senders := 1, timeout := 9 }
/-- Splice 4 is ready with 2 rows of 16 elements; route entry 1 has credit, entry 2 has failed; queue 5 has no page, queue
6 a page handed over, queue 7 a page taken; the tile is at 0xA000, its pairs at 0xA800. -/
def routing (a b : Word) : State :=
  let s := (eng a b).wrStore 0 0xA800 (leBytes 8 (0x3F800000 + 2 ^ 32 + 2 ^ 40) ++ leBytes 8 (0x40000000 + 2 ^ 33 + 2 ^ 40))
  (s.modThread fun t => { t with resident := true }).modMe fun k => { k with
    splice := [(4, { state := 1, dom := 0, out := 0x30000, rows := 2, cols := 16, stype := 0, rtype := 1, timeout := 100,
                     gen := 7, t := { id := 0, dom := 0, tid := 0, d := 12, pc := 0 } })]
    route := [(1, entryOf 5 3 6 4 false), (2, entryOf 6 2 6 0 true)]
    pool := [(0, { base := 0x600000, size := 0x4000, count := 40, used := [0x600000] })]
    rxq := [(5, rx), (6, { rx with handed := [page1] }), (7, { rx with taken := [page1] })] }
def splining : State := (routing 0x8200 0).wrStore 0 0x8200 spliceBlock
def sending : State := routing 0xA000 0xA800
theorem witness_Splices_splini : splining.canRead [1] ∧ splining.canWrite 5 ∧ splining.me.hasSplice 0 3 = true
    ∧ (splining.me.spliceAt 3).state = 0 ∧ (splining.taken [1]).storeFree 0x8200 32 false ∧ (storeLoc 0 0x8200).2 % 32 = 0
    ∧ splining.spliceOk (splining.rdStore 0 0x8200 32) 0 = true ∧ splining.me.rangeRoom 0 1 = true
    ∧ splining.me.rangeClash 0 (winAddr 0 0x30000) (winAddr 0 0x30000 + 128) true = false ∧ splining.clear := by
  refine ⟨?_, ?_, ?_, ?_, ?_, ?_, ?_, ?_, ?_, ?_⟩ <;>
    (try simp only [State.canRead, State.canWrite, State.storeFree, State.storeAt, State.clear]) <;> decide +kernel
theorem witness_Splices_route : sending.canRead [1, 2] ∧ sending.canWrite 5 ∧ sending.me.hasSplice 0 4 = true
    ∧ (sending.me.spliceAt 4).state = 1 ∧ (sending.taken [1, 2]).storeAt 0xA000 (2 * (16 * elSize 0))
    ∧ (sending.taken [1, 2]).storeFree 0xA800 (2 * 32) false ∧ (storeLoc 0 0xA000).2 % 32 = 0
    ∧ (storeLoc 0 0xA800).2 % 32 = 0 ∧ ((List.range (4 * 2)).map fun i => word (ofLe (sending.rdStore 0 (0xA800 + 8 * i) 8)))
      = [0x1013F800000, 0x10240000000, 0, 0, 0, 0, 0, 0]
    ∧ pairBad 0x1013F800000 = false ∧ pairBad 0x10240000000 = false ∧ pairBad 0 = false := by
  refine ⟨?_, ?_, ?_, ?_, ?_, ?_, ?_, ?_, ?_, ?_⟩ <;>
    (try simp only [State.canRead, State.canWrite, State.storeFree, State.storeAt]) <;> decide +kernel
/-- SPLINI of the ready splice 4, and a ROUTE whose records, at 0xB000, are all invalid. -/
theorem witness_Splices_again : ((splining.me.spliceAt 4).state = 1 ∧ (splining.me.spliceAt 4).t.d ≠ (5 : Spec).toNat
      ∧ splining.me.hasSplice 0 4 = true ∧ (splining.me.freeRanges 0).rangeHit 0 0 (winAddr 0 0x8200) 32 false = none
      ∧ (splining.me.freeRanges 0).rangeRoom 0 1 = true
      ∧ (splining.me.freeRanges 0).rangeClash 0 (winAddr 0 0x30000) (winAddr 0 0x30000 + 128) true = false)
    ∧ splining.onSlot 0 0 12 ∧ sending.clear ∧ (routing 0xA000 0xB000).clear
    ∧ ((List.range (4 * 2)).all fun i => word (ofLe ((routing 0xA000 0xB000).rdStore 0 (0xB000 + 8 * i) 8)) == 0) = true
    ∧ (routing 0xA000 0xB000).onSlot 0 0 12 ∧ (routing 0xA000 0xB000).onSlot 0 0 5 :=
  ⟨by decide +kernel, ⟨⟨0, by decide +kernel⟩, by decide⟩, clear_of (by decide +kernel), clear_of (by decide +kernel),
    by decide +kernel, ⟨⟨0, by decide +kernel⟩, by decide⟩, ⟨0, by decide +kernel⟩, by decide⟩
theorem witness_Splices_splq : (routing 1 1).canRead [2] ∧ (routing 0 0).canRead [] ∧ (routing 0 0).canWrite 5
    ∧ (routing 0 0).me.hasSplice 0 4 = true := by
  refine ⟨?_, ?_, ?_, ?_⟩ <;> (try simp only [State.canRead, State.canWrite]) <;> decide +kernel
theorem witness_RouteQueues : (routing token 0).canRead [2] ∧ (routing 0xA000 token).canRead [1, 2] ∧ (routing 0 0).canWrite 5
    ∧ (fld ((routing 0xA000 token).operand [1, 2] 1) 59 5 = 0 ∧ fld ((routing 0 token).operand [2] 0) 59 5 = 0
      ∧ (routing 0xA000 token).me.rangeRoom 0 1 = true ∧ (routing 0xA000 token).down = []
      ∧ fld token 32 19 ∈ ({ routing 0xA000 token with down := [0] } : State).down)
    ∧ ((routing 0xA000 token).taken [1, 2]).storeAt 0xA000 64
    ∧ (let s := routing 0x600000 0
       s.canRead [1] ∧ s.canRead [] ∧ s.me.rangeRoom 0 1 = true ∧ s.me.hasQueue 0 5 = true ∧ s.me.hasQueue 0 6 = true
        ∧ s.me.hasQueue 0 7 = true ∧ s.me.queueAt 5 = some rx ∧ rx.tid = s.thread.tid ∧ rx.handed = [] ∧ rx.ended = false
        ∧ rx.takes = [] ∧ s.me.queueAt 6 = some { rx with handed := [page1] }
        ∧ s.me.slotOf s.thread.tid = some s.me.turnSlot ∧ s.me.queueAt 7 = some { rx with taken := [page1] }
        ∧ [page1].find? (·.addr == (s.operand [1] 0).toNat) = some page1
        ∧ rtValid (s.me.routeAt 1) = true ∧ rtDom (s.me.routeAt 1) = s.thread.dom.toNat ∧ rtFailed (s.me.routeAt 1) = false
        ∧ rtValid (s.me.routeAt 2) = true ∧ rtDom (s.me.routeAt 2) = s.thread.dom.toNat ∧ rtFailed (s.me.routeAt 2) = true)
    ∧ let s := (routing 0x8240 0).wrStore 0 0x8240 queueBlock
      s.canRead [1] ∧ s.thread.resident = true ∧ s.me.hasQueue 0 4 = true ∧ s.me.queueAt 4 = none
        ∧ (s.taken [1]).storeFree 0x8240 32 false ∧ (storeLoc 0 0x8240).2 % 32 = 0
        ∧ s.me.queueOk 0 (s.rdStore 0 0x8240 32) = true := by
  refine ⟨?_, ?_, ?_, ?_, ?_, ?_, ?_, ?_⟩ <;>
    (try simp only [State.canRead, State.canWrite, State.storeFree, State.storeAt]) <;> decide +kernel
/-! How commands stop: where each check fails. -/
theorem stop1 {s : State} {d me A n : Nat} (i : Nat) (h : i < n ∧ storeByte me (A + i) = none) : s.storeStop d me A n 1 :=
  .inl ⟨rfl, i, h⟩
theorem stop2 {s : State} {d me A n : Nat} (i c off : Nat) (h : (∀ i, i < n → storeByte me (A + i) ≠ none) ∧ i < n
    ∧ storeByte me (A + i) = some (c, off) ∧ (s.core c).ownsBank d (off / 32768) = false) : s.storeStop d me A n 2 :=
  .inr ⟨rfl, h.1, i, c, off, h.2⟩
/-- Another thread's entry over the block at 0x8000. -/
def hitting : State := (eng 0x8000 0).modMe fun k => { k with
  ranges := [(3, ⟨0, winAddr 0 0x8000, winAddr 0 0x8010, true, .thread 77, 0⟩)] }
/-- A block that runs out of the backed offsets, one that runs into the L1 and one in another core's L1; one
at an odd address; one under a range entry. -/
theorem witness_BlockStops : (∀ n ∈ [32, 128], (eng 0x17FFF0 0).storeStop 0 0 0x17FFF0 n 1)
    ∧ (∀ n ∈ [32, 128], (eng 0x15FFF0 0).storeStop 0 0 0x15FFF0 n 2) ∧ (eng 0 0).storeStop 0 0 (winAddr 9 0x160000) 16 2
    ∧ (eng 0 0).storeStop 0 0 (winHi - 1) 16 1
    ∧ (∀ n ∈ [16, 32, 128], ((eng 0x8001 0).taken [1]).storeAt 0x8001 n ∧ (storeLoc 0 0x8001).2 % n ≠ 0
      ∧ (hitting.taken [1]).storeAt 0x8000 n ∧ (storeLoc 0 0x8000).2 % n = 0
      ∧ (hitting.taken [1]).me.rangeHit 0 0 (winAddr 0 0x8000) n false = some 3)
    ∧ hitting.canRead [1] ∧ hitting.canWrite 8 ∧ hitting.thread.atLookup = false := by
  refine ⟨?_, ?_, stop2 0 9 0x160000 (by decide +kernel), stop1 0 (by decide +kernel), ?_⟩
  · intro n h; fin_cases h <;> exact stop1 16 (by decide +kernel)
  · intro n h; fin_cases h <;> exact stop2 16 0 0x160000 (by decide +kernel)
  · simp only [State.canRead, State.canWrite, State.storeAt]; decide +kernel
theorem witness_CopyCommands_stops : (∀ fill, (Shape.ofBytes ((copying []).rdStore 0 0x8000 128)).valid (copying []).me 0 fill
      = false)
    ∧ (copying []).clear ∧ ((copying []).taken [1]).storeFree 0x8000 128 false
    ∧ ((copying []).taken [1, 2]).storeFree 0x8000 128 false
    ∧ (toRing.modThread fun t => t.setG 2 0).canRead [1, 2]
    ∧ followOk ((toRing.modThread fun t => t.setG 2 0).operand [1, 2] 1) = false
    ∧ ((toRing.modThread fun t => t.setG 2 0).taken [1, 2]).thread.isFull 0 = true
    ∧ ((toRing.modThread fun t => t.setG 2 0).taken [1, 2]).storeFree 0x8000 128 false
    ∧ (Shape.ofBytes (((toRing.modThread fun t => t.setG 2 0)).rdStore 0 0x8000 128)).valid
        (toRing.modThread fun t => t.setG 2 0).me 0 false = true := by
  refine ⟨by decide +kernel, clear_of (by decide +kernel), ?_⟩
  simp only [State.canRead, State.storeFree, State.storeAt]; decide +kernel
theorem witness_Rings_stops :
    (let s := (eng 0 0).modMe fun k => { k with part1 := [(0, setFld bootPart1 12 5 2)] }
     s.me.hasRing 0 2 = false ∧ s.canRead [] ∧ s.canRead [1, 2] ∧ s.canWrite 8 ∧ s.thread.atLookup = false)
    ∧ (((eng 0 0).modMe fun k => k.setRing 2 { k.ringAt 2 with held := 1 }).me.ringAt 2).held ≠ 0
    ∧ (((eng 0 0).modMe fun k => k.setRing 2 { k.ringAt 2 with claims := 1 }).me.ringAt 2).claims ≠ 0
    ∧ (∃ c ∈ (run (exec (.cpym (ft 8 1 2)) toRing)).me.copies, c.t.dom = 0 ∧ c.names 2 = true)
    ∧ (∃ c ∈ (run (exec (.mma (ft 8 0 0 1 2 3 0 1)) (eng 0 0))).me.mats, c.t.dom = 0 ∧ c.names 2 = true)
    ∧ (∀ s ∈ [eng 0x04010001 0x40004001, eng 0x04210000 0x40004001, eng 0x00010000 0x40004001, eng 0x104010000 0x40004001,
          eng 0x04010000 0],
       let A := s.operand [1, 2] 0
       fld A 0 21 % 256 ≠ 0 ∨ fld A 21 3 ≠ 0 ∨ fld A 24 8 = 0 ∨ fld A 32 32 ≠ 0 ∨ layoutOk (s.operand [1, 2] 1) = false)
    ∧ ((eng 0x0417FF00 0x40004001).taken [1, 2]).storeStop 0 0 0x17FF00 (4 * tileBytes 0x40004001) 1
    ∧ ((eng 0x0415FF00 0x40004001).taken [1, 2]).storeStop 0 0 0x15FF00 (4 * tileBytes 0x40004001) 2 := by
  refine ⟨?_, ?_, ?_, ?_, ?_, ?_, stop1 256 (by decide +kernel), .inr ⟨rfl, fun i hi => ?_, 256, 0, 0x160000, by decide +kernel⟩⟩
  · simp only [State.canRead, State.canWrite]; decide +kernel
  all_goals try decide +kernel
  have : i < 16384 := hi
  unfold storeByte
  rw [if_pos (by omega)]
  simp
theorem witness_Barriers_stops : (∀ V ∈ [0, 1, 0x10010001], (barrier (word V)).canRead [1, 2]
      ∧ ((barrier (word V)).taken [1, 2]).storeFree 0x9000 16 true
      ∧ (let w := (barrier (word V)).operand [1, 2] 1; fld w 0 16 = 0 ∨ fld w 16 8 = 0 ∨ fld w 28 36 ≠ 0))
    ∧ (barrier 0).thread.atLookup = false := by
  simp only [State.canRead, State.storeFree, State.storeAt]; decide +kernel
/-- Splices outside the range, idle and running; a block of zeros; records of which one breaks a rule; a tile and its records
that fail their checks. -/
def fewer (s : State) : State := s.modMe fun k => { k with part1 := [] }
def badRecord : State := (routing 0xA000 0xB000).wrStore 0 0xB000 (leBytes 8 1)
theorem witness_Splices_stops : (fewer sending).me.hasSplice 0 4 = false
    ∧ (sending.me.spliceAt 3).state ≠ 1 ∧ sending.me.hasSplice 0 3 = true
    ∧ ((run (exec (.route (ft 8 1 2 4)) sending)).me.spliceAt 4).state = 2
    ∧ ((routing 0x8200 0).spliceOk ((routing 0x8200 0).rdStore 0 0x8200 32) 0 = false ∧ (routing 0x8200 0).clear
      ∧ ((routing 0x8200 0).taken [1]).storeAt 0x8200 32)
    ∧ ((sending.taken [1, 2]).storeStop 0 0 0x15FFF0 (2 * (16 * elSize 0)) 2)
    ∧ ((sending.taken [1, 2]).storeStop 0 0 0x15FFF0 (2 * 32) 2)
    ∧ (((routing 0xA001 0xA800).taken [1, 2]).storeAt 0xA001 (2 * (16 * elSize 0)) ∧ (storeLoc 0 0xA001).2 % 32 ≠ 0)
    ∧ (badRecord.clear ∧ (badRecord.taken [1, 2]).storeFree 0xB000 (2 * 32) false
      ∧ pairBad (word (ofLe (badRecord.rdStore 0 0xB000 8))) = true)
    ∧ sending.thread.atLookup = false := by
  refine ⟨by decide +kernel, by decide +kernel, by decide +kernel, by decide +kernel,
    ⟨by decide +kernel, clear_of (by decide +kernel), ?_⟩, stop2 16 0 0x160000 (by decide +kernel),
    stop2 16 0 0x160000 (by decide +kernel), ?_, ⟨clear_of (by decide +kernel), ?_⟩, by decide +kernel⟩ <;>
  (simp only [State.storeAt, State.storeFree]; decide +kernel)
theorem witness_RouteQueues_stops :
    (fld ((routing 0xA000 (token ||| word (2 ^ 59))).operand [1, 2] 1) 59 5 ≠ 0
      ∧ fld ((routing 0 (token ||| word (2 ^ 63))).operand [2] 0) 59 5 ≠ 0)
    ∧ ((routing 0xA001 token).taken [1, 2]).storeAt 0xA001 64
    ∧ ((routing 0x15FFF0 token).taken [1, 2]).storeStop 0 0 0x15FFF0 64 2
    ∧ (eng 0 0).thread.resident = false ∧ (routing 0 0).thread.resident = true ∧ (routing 0 0).thread.atLookup = false
    ∧ (fewer (routing 0 0)).me.hasQueue 0 5 = false ∧ (routing 0 0).me.queueAt 5 ≠ none ∧ (routing 0 0).me.queueAt 9 = none
    ∧ (routing 0 0).me.hasQueue 0 9 = true
    ∧ (routing 0x8200 0).me.queueOk 0 ((routing 0x8200 0).rdStore 0 0x8200 32) = false
    ∧ (((routing 0 0).modMe (·.setQueue 5 { rx with tid := 4 })).me.queueAt 5).all (·.tid != (routing 0 0).thread.tid) = true
    ∧ (∀ pg ∈ [page1], pg.addr ≠ ((routing 0x604000 0).operand [1] 0).toNat)
    ∧ (rtValid ((routing 0 0).me.routeAt 9) = false)
    ∧ rtDom (((routing 0 0).modMe fun k => { k with route := [(1, (word (2 ^ 55 + 3 * 2 ^ 56), 0))] }).me.routeAt 1) ≠ 0 := by
  refine ⟨by decide +kernel, ?_, stop2 16 0 0x160000 (by decide +kernel), by decide +kernel⟩
  simp only [State.storeAt]; decide +kernel
theorem witness_RouteQueues_ended :
    let s := (routing 0 0).modMe (·.setQueue 8 { rx with ended := true })
    s.me.hasQueue 0 8 = true ∧ s.me.queueAt 8 = some { rx with ended := true } ∧ rx.pages = [] ∧ rx.handed = [] ∧ rx.takes = []
      ∧ (routing 0xA000 token).toObject 0 0 none = false ∧ (routing 0xA000 token).tampered = [] := by decide +kernel
/-- An address away from the written line of the L1 and from the frames of the saved threads. -/
theorem witness_CommandFrame_memory :
    let s := (eng 0 0).modMe fun k => { k with lines := dirtied.me.lines }
    s.settled 0x20100 ∧ ¬ s.settled 0x20000 ∧ s.me.saved = [] := by
  simp only [State.settled]; decide +kernel
theorem witness_CommandFrame : (∃ a, (eng 0 0).thread? = some a) ∧ (∃ t, exec (.mma (ft 8 0 0 1 2 3)) (eng 0 0) = .next t)
    ∧ ∃ t, exec (.rxtake (ft 8 0 0 6)) (routing 0 0) = .next t :=
  ⟨⟨_, rfl⟩, is_next (by decide +kernel), is_next (by decide +kernel)⟩

/-- Set 0 of the object is set 0 of the core, with 4 entries from 8, of which the first is valid; the own context. -/
def cueing (a b : Word) : State :=
  let s := (two a b).modMe fun k => { k with
    desc := [(0, { cut := 5, dom := 0, count := 4, base := 8, sello := 3, selreg := 2 }), (1, { dom := 0, count := 4, base := 16 })]
    cue := [(8, { live := { value := 1, mask := 3, action := encodeCue 0 (cue 42 0 0 0 7 0) }, valid := true })] }
  { s with ctxs := [(0, { Ctx.boot with setMap := [(0, 0), (1, 1)] })] }
/-- g1 to g4 hold the value, the mask and the action of an entry, g5 its index. -/
def writing : State := (cueing 1 3).modThread fun t =>
  let w := (encodeCue 1 (cue 42 43 0 1 7 0)).toNat
  ((t.setG 3 (word w)).setG 4 (word (w / 2 ^ 64))).setG 5 3
theorem witness_CueInstructions : writing.mapped 0 = some 0
    ∧ writing.canRead [1, 1 + 1, 1 + 2, 1 + 3, 5] ∧ writing.canRead [5] ∧ writing.canRead [] ∧ writing.canRead [2]
    ∧ writing.canWrite 6
    ∧ (writing.operand [1, 1 + 1, 1 + 2, 1 + 3, 5] 4).toNat < (writing.me.descOf 0).count
    ∧ (writing.operand [5] 0).toNat < (writing.me.descOf 0).count
    ∧ (decodeCue (writing.operand [1, 1 + 1, 1 + 2, 1 + 3, 5] 3 ++ writing.operand [1, 1 + 1, 1 + 2, 1 + 3, 5] 2)).isSome = true
    ∧ (∀ o < 2, (writing.mapped o).isSome = true)
    ∧ (writing.canRead [0, 0, 0, 0, 5] ∧ (writing.operand [0, 0, 0, 0, 5] 4).toNat < (writing.me.descOf 0).count
      ∧ (decodeCue (writing.operand [0, 0, 0, 0, 5] 3 ++ writing.operand [0, 0, 0, 0, 5] 2)).isSome = true)
    ∧ writing.mapped (fld (writing.operand [1] 0) 0 6) = some 1
    ∧ ((∃ a, writing.thread? = some a ∧ a.atLookup = false) ∧ writing.mapped 5 = none
      ∧ (writing.me.descOf 0).count ≤ (writing.operand [1 + 2] 0).toNat) := by
  refine ⟨?_, ?_, ?_, ?_, ?_, ?_, ?_, ?_, ?_, ?_, ?_, ?_⟩ <;> (try simp only [State.canRead, State.canWrite]) <;> decide +kernel
/-- Two cuts of set 0 and one of set 1 in one turn. -/
def cutting : Core := { (cueing 0 0).me with
  cuts := [⟨0, [(8, some { value := 77 }), (11, none)]⟩, ⟨1, [(20, none)]⟩, ⟨0, [(8, none), (9, some {})]⟩] }
theorem witness_CutsCommit : (cutting.cuts.filter (·.set == 0)).length = 2
    ∧ (let ch := fun (i : Nat) => ((cutting.cuts.flatMap (·.changes)).filter (·.1 == i)).map (·.2)
       ch 7 = [] ∧ ch 8 = [some { value := 77 }, none] ∧ (ch 9).getLast? = some (some {}) ∧ (ch 20).getLast? = some none)
    ∧ ((cutting.commitCuts.descOf 0).cut = 7 ∧ (cutting.commitCuts.cueAt 8).valid = false
      ∧ (cutting.commitCuts.cueAt 8).live = { value := 77 }) := by
  decide +kernel

/-- What can be said of the one element reached and of the state after it. -/
theorem reached_with {o : Option (List Lane × State)} (P : Lane → State → Bool)
    (h : (match o with | some ([l], s1) => P l s1 | _ => false) = true) :
    ∃ l s1, o = some ([l], s1) ∧ P l s1 = true := by
  rcases o with _ | ⟨_ | ⟨l, _ | ⟨_, _⟩⟩, s1⟩ <;> simp at h
  exact ⟨l, s1, rfl, h⟩

/-- A task record of set 0 at 0x20000, with entry 3 and extents of 1; s0 has 0x1000 bytes. -/
def tasks (b : Word) : State :=
  let s := withBytes (cueing 0x20000 b) 0x20000 (leBytes 4 3 ++ leBytes 2 0 ++ leBytes 10 (2 ^ 54 + 2 ^ 62 + 2 ^ 70)
    ++ leBytes 8 9)
  { s with ctxs := [(0, { Ctx.boot with setMap := [(0, 0)], seg := wr Ctx.boot.seg 0 { rights := 5, limit := 0x1000 } })] }
/-- The same with no launch left for the domain, with no deque share, and with an entry beyond the code. -/
def noQuota : State := (tasks 1).modMe fun k => { k with part2 := [(0, 0)] }
def noShare : State := (tasks 1).modMe fun k => { k with part1 := [(0, setFld bootPart1 53 7 0)] }
def badTask : State := withBytes (tasks 1) 0x20000 (leBytes 4 0x300)
/-- What a launch of one unit by the core itself reaches in `s`. -/
def launching (s : State) : State := ((s.taken [1, 2]).withId.emptied 8).released 1
def units (s : State) (n : Nat) (P : List RawTask → State → Bool) : Prop :=
  ∃ ls v1, (launching s).reach 1 ((List.range n).map fun i => 0x20000 + 64 * i) 64 64 needR = some (ls, v1)
    ∧ (let q := v1.recordsAt 1 ls
       P q.1 (q.2.watched 1 ls)) = true
theorem units_of {s : State} {n : Nat} {P : List RawTask → State → Bool}
    (h : (match (launching s).reach 1 ((List.range n).map fun i => 0x20000 + 64 * i) 64 64 needR with
      | some (ls, v1) => let q := v1.recordsAt 1 ls; P q.1 (q.2.watched 1 ls)
      | none => false) = true) : units s n P := by
  cases e : (launching s).reach 1 ((List.range n).map fun i => 0x20000 + 64 * i) 64 64 needR with
  | none => simp [e] at h
  | some p => exact ⟨p.1, p.2, e, by simpa [e] using h⟩
theorem witness_Scheduling_records : (tasks 1).canRead [1] ∧ (tasks 1).canRead [1, 2] ∧ (tasks 1).canWrite 8
    ∧ ((tasks 1).operand [1, 2] 0 + (0 : BitVec 14).signExtend 64 * 64).toNat = 0x20000
    ∧ (∃ l s1, ((tasks 1).taken [1]).reach 1 [0x20000] 64 64 needR = some ([l], s1))
    ∧ ((tasks 0xFFFF).taken [1, 2]).segAt 1 0x20000 (0xFFFF * 64) needR 0x20000
    ∧ 65535 < ((tasks 0x10000).operand [1, 2] 1).toNat ∧ ((tasks 0).operand [1, 2] 1).toNat = 0
    ∧ ((tasks 1).operand [1, 2] 1).toNat = 1 ∧ (tasks 1).clear := by
  refine ⟨?_, ?_, ?_, ?_, reached_one ?_, ok_of ?_, ?_, ?_, ?_, ?_⟩ <;>
    (try simp only [State.canRead, State.canWrite, State.clear]) <;> decide +kernel
theorem witness_Scheduling_launches :
    units (tasks 3) 3 (fun rs u => rs.length == 3 && rs.all (u.recordOk · (tasks 3).thread) && !u.quotaFull 0 0
        && (rs.filter fun r => !r.ident.empty).length == 1 && !u.rejects 0 0 (u.placement 0 0 0) 1)
    ∧ units badTask 1 (fun rs u => rs.any fun r => !u.recordOk r (tasks 1).thread)
    ∧ units noQuota 1 (fun rs u => rs.all (u.recordOk · (tasks 1).thread) && u.quotaFull 0 0)
    ∧ units noShare 1 (fun rs u => rs.all (u.recordOk · (tasks 1).thread) && !u.quotaFull 0 0
        && (rs.filter fun r => !r.ident.empty).length == 1 && u.rejects 0 0 (u.placement 0 0 0) 1) := by
  refine ⟨units_of ?_, units_of ?_, units_of ?_, units_of ?_⟩ <;> decide +kernel
/-- A message waits on port 2; or none; or the slot's outbox is full. -/
def told : State := (two 0 0).modThread fun t => { t with q := wr t.q 2 [⟨9, 1⟩] }
theorem witness_Scheduling_waits : (two 0 0).canRead [1] ∧ (two 0 0).canRead [1, 2] ∧ (two 0 0).canRead []
    ∧ told.canRead [1] ∧ (two 0 0).canWrite 5
    ∧ ((two 0 0).taken [1]).thread.readyPorts 0xF = 0 ∧ (told.taken [1]).thread.readyPorts 4 ≠ 0
    ∧ (two 0 0).thread.dom = 0 ∧ (two 0 0).thread.readyPorts 0xF = 0 ∧ told.thread.dom = 0 ∧ told.thread.readyPorts 0xF ≠ 0
    ∧ ((two 0 0).me.slot (two 0 0).me.turnSlot).sendq.length < 2 := by
  refine ⟨?_, ?_, ?_, ?_, ?_, ?_⟩ <;> (try simp only [State.canRead, State.canWrite]) <;> decide +kernel

/-- A thread of domain 3, whose s1 has 0x20000 bytes from 0x10000. -/
def lesser (a b : Word) : State := (two a b).modThread fun t =>
  { t with dom := 3, seg := wr t.seg 1 { dom := 3, base := 0x10000, limit := 0x20000, rights := 3 } }
/-- SYSR or SYSW of a register, across at x where asked. -/
def sys (reg : BitVec 14) (x : BitVec 16 := 0) : FmtS := fs 8 1 2 reg x
theorem witness_SystemRegisters : (two 0 0x123).canRead [1] ∧ (two 0 0x123).canRead [1, 2] ∧ (two 0 0).canRead []
    ∧ (two 0 0).canWrite 8
    ∧ (∀ x ∈ [sys 0x010, sys 0x050, sys 0x021 0x100], privFault2 x 0 = false ∧ privFault3 x (two 0 0).me 0 = false)
    ∧ privFault4 (two 0 0).me 0 { num := 0x010, idx := 0, slot := 0, dom := 0 } = false
    ∧ (two 0 0).backed (regBytes { num := 0x010, idx := 0, slot := 0, dom := 0 } 0x123).1
        (regBytes { num := 0x010, idx := 0, slot := 0, dom := 0 } 0x123).2 = true
    ∧ (let s := lesser 0x2F000 0x0010000000001000
       let o := rd s.thread.seg 1 {}
       let nb := fld (s.operand [1, 2] 0) 0 52
       let nl := fld (s.operand [1, 2] 1) 0 52
       o.dom = s.thread.dom ∧ nb + nl ≤ 2 ^ 52 ∧ s.thread.dom ≠ 0 ∧ o.base.toNat ≤ nb ∧ nb + nl ≤ o.base.toNat + o.limit.toNat
        ∧ (s.operand [1, 2] 1).extractLsb' 52 6 &&& ~~~o.rights = 0)
    ∧ (lesser 0x2F000 0x0010000000001000).canRead [1, 2]
    ∧ (let s := two 0 0
       let o := rd s.thread.seg 1 {}
       o.dom = s.thread.dom ∧ s.thread.dom = 0 ∧ fld (s.operand [1, 2] 0) 0 52 + fld (s.operand [1, 2] 1) 0 52 ≤ 2 ^ 52)
    ∧ fld (1 : BitVec 16) 0 2 ≠ 0 ∧ fld (0 : BitVec 16) 0 2 = 0 := by
  refine ⟨?_, ?_, ?_, ?_, ?_, ?_, ?_, ?_, ?_, ?_, ?_⟩ <;> (try simp only [State.canRead, State.canWrite]) <;> decide +kernel
theorem witness_SystemRegisters_values :
    (let y := (cueing 0 0).me.descOf 0
     y.sello = 3 ∧ y.selreg = 2 ∧ y.count = 4 ∧ y.base = 8)
    ∧ (let g := (eng 0 0).me.ringAt 2
       g.base < 2 ^ 21 ∧ g.tiles < 256 ∧ g.head < 256 ∧ g.ready < 256 ∧ g.held < 256 ∧ g.claims < 256)
    ∧ ((two 0 0).me.threadAt 0).isSome = true ∧ (two 0 0).me.threadAt 7 = none := by decide +kernel
theorem witness_Privilege : (∃ a, (lesser 0 0).thread? = some a ∧ a.atLookup = false ∧ a.dom ≠ 0
      ∧ privFault2 (sys 0x040) a.dom = true)
    ∧ (∃ a, (two 0 0).thread? = some a ∧ a.atLookup = false ∧ privFault2 (sys 0x050 0x100) a.dom = true)
    ∧ (regInfo 0x040).sup = true ∧ crossOf (sys 0x010 0x100) = true
    ∧ (lesser 1 0).canRead [1] ∧ (lesser 0 0).canRead [1, 2] ∧ (lesser 1 0).canWrite 8
    ∧ privFault2 (sys 0x001) 3 = false ∧ (regInfo 0x001).count ≤ ((lesser 1 0).operand [1] 0).toNat
    ∧ privFault3 (sys 0x001) (lesser 0 0).me ((lesser 0 0).operand [1, 2] 0).toNat = false ∧ (regInfo 0x001).wr ≤ 1
    ∧ (∀ s ∈ [lesser 0xFFFF 0x1000, lesser 0x2F000 0x1001],
       let o := rd s.thread.seg 1 {}
       let nb := fld (s.operand [1, 2] 0) 0 52
       let nl := fld (s.operand [1, 2] 1) 0 52
       s.thread.dom ≠ 0 ∧ o.dom = s.thread.dom ∧ nb + nl ≤ 2 ^ 52
        ∧ (nb < o.base.toNat ∨ o.base.toNat + o.limit.toNat < nb + nl)) := by
  refine ⟨⟨_, rfl, ?_⟩, ⟨_, rfl, ?_⟩, ?_, ?_, ?_, ?_, ?_, ?_, ?_⟩ <;> (try simp only [State.canRead, State.canWrite]) <;>
    decide +kernel
/-- A SEGW of another domain's segment, of one that ends past 2^52, and of one with a right that the old one lacks. -/
def foreign : State := (lesser 0x10000 0x1000).modThread fun t => { t with seg := wr t.seg 1 { dom := 4 } }
theorem witness_Privilege_segments : foreign.canRead [1, 2] ∧ (rd foreign.thread.seg 1 {}).dom ≠ foreign.thread.dom
    ∧ (∀ s ∈ [lesser 0xFFFFFFFFFFFFF 2, lesser 0x10000 0x0040000000020000, lesser 0x2FFFF 0x0080000000000001],
       s.canRead [1, 2] ∧ (rd s.thread.seg 1 {}).dom = s.thread.dom ∧ s.thread.dom ≠ 0)
    ∧ 2 ^ 52 < fld ((lesser 0xFFFFFFFFFFFFF 2).operand [1, 2] 0) 0 52 + fld ((lesser 0xFFFFFFFFFFFFF 2).operand [1, 2] 1) 0 52
    ∧ (∀ s ∈ [lesser 0x10000 0x0040000000020000, lesser 0x2FFFF 0x0080000000000001],
       let o := rd s.thread.seg 1 {}
       let nb := fld (s.operand [1, 2] 0) 0 52
       let nl := fld (s.operand [1, 2] 1) 0 52
       nb + nl ≤ 2 ^ 52 ∧ o.base.toNat ≤ nb ∧ nb + nl ≤ o.base.toNat + o.limit.toNat
        ∧ ∃ j : Fin 6, ((s.operand [1, 2] 1).extractLsb' 52 6).getLsbD j = true ∧ o.rights.getLsbD j = false) := by
  simp only [State.canRead]; decide +kernel
/-- A register that no SYSW writes, with its index not there; a PART register that PLOCK locks, and the ends of the
measurement. -/
def locking (i : Word) : State := (two i 5).modMe fun k => { k with plock := [(0, 0x8000000000000000), (3, 0x8000000000000000)] }
theorem witness_Privilege_writes : (∃ a, waits.thread? = some a ∧ a.atLookup = false)
    ∧ waits.started.thread.srcReady [5] = false ∧ privFault2 (fs 8 5 2 0x001) 0 = false
    ∧ privFault3 (fs 8 5 2 0x001) waits.me 0 = false ∧ (regInfo 0x001).wr = 0
    ∧ (∀ i ∈ [0, 2, 6, 11], (locking (word i)).canRead [1] ∧ (locking (word i)).thread.dom = 0
        ∧ ((locking (word i)).operand [1] 0).toNat = i)
    ∧ (∀ d ∈ [0, 3], (Tab.get 0 (locking 0).me.plock d).getLsbD 63 = true)
    ∧ (sys 0x025 0x103).op.getLsbD 8 = true ∧ fld (sys 0x025 0x103).op 0 8 = 3 ∧ (sys 0x025).op.getLsbD 8 = false := by
  refine ⟨⟨_, rfl, by decide +kernel⟩, ?_⟩
  simp only [State.canRead]; decide +kernel

def handled : State := onReset fun t => { t with hndl := 0x123, prm := 77, pc := 9 }
theorem witness_TrapEntry : (∃ a, handled.thread? = some a ∧ a.tret.getLsbD 56 = false ∧ a.hasHandler = true
      ∧ (handled.ctx a.ctx).objSet a.cset < 64)
    ∧ (∃ a, (handled.modThread fun t => { t with tret := 0x0100000000000000 }).thread? = some a ∧ a.tret.getLsbD 56 = true)
    ∧ (∃ a, State.reset.thread? = some a ∧ a.hasHandler = false) ∧ 31 < 32 ∧ 255 < 256 ∧ 2 < 3 :=
  ⟨⟨_, rfl, by decide +kernel⟩, ⟨_, rfl, by decide +kernel⟩, ⟨_, rfl, by decide +kernel⟩, by decide⟩
theorem witness_SoftwareTraps : (∃ a, handled.thread? = some a ∧ a.atLookup = false) ∧ handled.canRead [1] :=
  ⟨⟨_, rfl, by decide +kernel⟩, by simp only [State.canRead]; decide +kernel⟩

/-- A frame of shot 0x77, set 0 and parameter 5 below csp; a function table of 64 entries, each with tag 9; gate 1 with
g1, g2 and g4 to pass. -/
def calling : State :=
  let s := withBytes ((cueing 0 0).modThread fun t => { t with
    csp := 0x20, seg := wr t.seg 0 { rights := 5, limit := 0x1000 } }) 0x10010 (leBytes 16 (0x77 + 5 * 2 ^ 48))
  let s := withBytes s 0x80 ((List.range 16).flatMap fun i => leBytes 8 (0x55 + i + 9 * 2 ^ 32))
  let s := withBytes s 0x40020 (leBytes 8 (0x30 + 2 ^ 63) ++ leBytes 8 0x16 ++ leBytes 8 9)
  { s with ctxs := [(0, { Ctx.boot with setMap := [(0, 0)], ftBase := 0x10, ftCount := 16, gateBase := 0x40000, gateCount := 2 }),
                    (9, { Ctx.boot with dom := 0 })] }
/-- What a frame access at `off` of s7 reaches in `u`. -/
def framed (u : State) (off : Nat) (nd : Need) (P : Lane → State → Bool) : Prop :=
  ∃ ea l u', u.segAt 7 off 16 needRW ea ∧ (inWin ea = true → u.storeAt ea 16)
    ∧ u.me.rangeHit u.thread.dom u.thread.tid ea 16 (nd.getLsbD 1) = none ∧ u.lanesAt nd 16 [ea] = some ([l], u')
    ∧ P l u' = true
/-- The same outside the window, as a test. -/
def reaches (u : State) (off : Nat) (nd : Need) (ea : Nat) (P : Lane → State → Bool) : Bool :=
  (segCheck (rd u.thread.seg 7 {}) u.thread.dom off 16 needRW).toOption == some ea
    && (!inWin ea && u.me.rangeHit u.thread.dom u.thread.tid ea 16 (nd.getLsbD 1) == none)
    && match u.lanesAt nd 16 [ea] with | some ([l], s1) => P l s1 | _ => false
theorem framed_at {u : State} {off : Nat} {nd : Need} {P : Lane → State → Bool} (ea : Nat)
    (h : reaches u off nd ea P = true) : framed u off nd P := by
  simp only [reaches, Bool.and_eq_true, beq_iff_eq, Bool.not_eq_true'] at h
  obtain ⟨⟨h0, h1, h2⟩, h3⟩ := h
  obtain ⟨l, s1, e, p⟩ := reached_with P h3
  exact ⟨ea, l, s1, ok_of h0, fun k => by simp [h1] at k, h2, e, p⟩
theorem fetched {r : Except (Stop × State) (Option Word × State)} {w : Word} (P : State → Bool)
    (h : (match r with | .ok (some v, s) => v == w && P s | _ => false) = true) : ∃ s1, r = .ok (some w, s1) ∧ P s1 = true := by
  rcases r with _ | ⟨_ | v, s⟩ <;> simp at h
  exact ⟨s, by rw [h.1], h.2⟩
/-- The fetch of entry 0 of the function table. -/
def tabled : Except (Stop × State) (Option Word × State) :=
  fetchAt ((calling.ctx 0).ftBase + fld calling.lookupKey 48 16) needX calling.started
theorem witness_CueActions_icall : fld calling.lookupKey 48 16 < (calling.ctx 0).ftCount
    ∧ fld (0x900000055 : Word) 32 32 = (9 : BitVec 32).toNat
    ∧ ∃ v, tabled = .ok (some 0x900000055, v) ∧ framed v 0x20 needW (fun _ _ => true) := by
  refine ⟨by decide +kernel, by decide, ?_⟩
  obtain ⟨v, e, h⟩ := fetched (r := tabled) (w := 0x900000055) (fun v => reaches v 0x20 needW 0x10020 (fun _ _ => true))
    (by decide +kernel)
  exact ⟨v, e, framed_at _ h⟩
theorem witness_CueActions_calls : (∃ a, calling.thread? = some a ∧ a.csp ≠ 0 ∧ a.tret.getLsbD 56 = false
      ∧ a.csp.toNat = 0x20 ∧ (a.csp - 16).toNat = 0x10) ∧ (calling.selFull = true ∧ calling.clear)
    ∧ framed calling.started 0x20 needW (fun _ _ => true)
    ∧ framed calling.started 0x10 needR (fun l v => !v.laneBad v.cur v.thread.dom 0 l &&
        calling.me.ownSet 0 (ofLe (v.load v.cur v.thread.dom 0 l).1 / 2 ^ 32 % 256))
    ∧ (∃ a, (calling.modThread fun t => { t with tret := 0x0100000000000000 }).thread? = some a ∧ a.tret.getLsbD 56 = true) :=
  ⟨⟨_, rfl, by decide +kernel⟩, ⟨by decide +kernel, clear_of (by decide +kernel)⟩, framed_at 0x10020 (by decide +kernel),
    framed_at 0x10010 (by decide +kernel), ⟨_, rfl, by decide +kernel⟩⟩
theorem witness_CueActions_gates :
    (∃ w0 w1 w2, calling.gateEntry (calling.ctx 0) 1 = some (w0, w1, w2) ∧ calling.me.present (fld w0 48 8) = true
      ∧ calling.me.shareFull (fld w0 48 8) = false
      ∧ (∃ a, calling.thread? = some a ∧ ∀ i ∈ passRegs (w1.extractLsb' 0 32), a.isFull i = true))
    ∧ (∃ a, (calling.modThread fun t => { t with gate := some ⟨0, 0x16⟩ }).thread? = some a ∧ a.gate = some ⟨0, 0x16⟩
      ∧ ∀ i ∈ passRegs 0x16, a.isFull i = true) :=
  ⟨⟨0x8000000000000030, 0x16, 9, by decide +kernel, by decide +kernel, by decide +kernel, ⟨_, rfl, by decide +kernel⟩⟩,
    ⟨_, rfl, by decide +kernel⟩⟩

/-! Events: a core with a free frame at 0x700000 and one launch, which holds the thread and a record of the deque. -/
def launchOne : Launch :=
  { id := 50, die := 0, dom := 0, cls := 1, scope := 1, ctx := 0, hndl := 0, units := .device [] [0] 0, live := 3, left := 2
    req := .queue 0 0 0 4 0x520000 }
def record : Rec := { dom := 0, kind := .task 3 0 { ex := 1, ey := 1, ez := 1 } [1, 2, 3, 4, 5, 6], launch := some 50, ctx := 0
                      hndl := 0xFFFFFFFF, nosteal := false, since := 0, home := some 50 }
def work (f : Thread → Thread) : State :=
  let s := (onReset f).modMe fun k => { k with
    frBase := [(0, 0x700000)], frCount := [(0, 1)], cycle := 2000000, deque := [record] }
  { s with launches := [launchOne], homes := [(50, [[0]])], ctxs := [(0, { Ctx.boot with pmap := [(0, 0xFF, 3, 7, true)] })] }

theorem witness_ThreadEvents_slots :
    (∃ a p, (((work fun t => { t with pend := [{ reg := 2, due := 8, value := 5, keep := 7 }] }).core 0).threadAt 0 = some a
      ∧ a.pend[0]? = some p ∧ p.due ≤ 2000000))
    ∧ (∃ a, ((work fun t => { t with status := .parked 3 (some 9) 5 }).core 0).threadAt 0 = some a
      ∧ a.status = .parked 3 (some 9) 5 ∧ a.readyPorts 3 = 0)
    ∧ (∃ a, ((work fun t => { t with status := .exiting 7, launch := some 50 }).core 0).threadAt 0 = some a
      ∧ a.status = .exiting 7 ∧ (work id).drained 0 a.tid = true ∧ a.launch = some launchOne.id)
    ∧ (∃ a, ((work fun t => { t with status := .faulted 0x123456 true }).core 0).threadAt 0 = some a
      ∧ a.status = .faulted 0x123456 true ∧ a.pend = [] ∧ (work id).toObject 0 a.tid none = false
      ∧ ((work id).core 0).freeFrame a.dom.toNat = some 0x700000)
    ∧ (∃ a, ((work fun t => { t with preq := some 100, chosen := true }).core 0).threadAt 0 = some a
      ∧ a.preq = some 100 ∧ a.pend = [] ∧ (work id).toObject 0 a.tid none = false
      ∧ ((work id).core 0).freeFrame a.dom.toNat = some 0x700000 ∧ ((work id).core 0).saving a.dom = false
      ∧ (100 ≤ ((work id).core 0).cycle ∧ (work id).boundary a = some (0, 0xFF, 3, 7, true))
      ∧ ((work id).core 0).shareFull a.dom.toNat = false
      ∧ ((work id).modMe fun k => { k with part1 := [(0, setFld bootPart1 53 7 0)] } : State).me.shareFull a.dom.toNat = true) :=
  ⟨⟨_, _, rfl, rfl, by decide⟩, ⟨_, rfl, by decide +kernel⟩, ⟨_, rfl, by decide +kernel⟩, ⟨_, rfl, by decide +kernel⟩,
    ⟨_, rfl, by decide +kernel⟩⟩
/-- The deadline's own cycle is slot 1's; slot 0's thread waits or is parked. -/
def atDeadline (st : Status) : State := (work fun t => { t with preq := some 1934465, status := st }).modMe fun k =>
  { k with cycle := 2000001 }
theorem witness_ThreadEvents_noStop : ((work id).core 0).l1Stop = false ∧ (work id).tampered = []
    ∧ (((work id).modMe fun k => { k with lbPend := some (10, 8) }).core 0).l1Stop = true := by decide +kernel
theorem witness_ThreadEvents_deadline :
    (∀ st ∈ [Status.waiting, .parked 3 none 5], ∃ a, ((atDeadline st).core 0).threadAt 0 = some a ∧ a.status = st
      ∧ a.preq = some 1934465 ∧ ((atDeadline st).core 0).cycle = 1934465 + 65536 ∧ ((atDeadline st).core 0).turnSlot ≠ 0
      ∧ a.pend = [] ∧ ((atDeadline st).core 0).freeFrame a.dom.toNat = some 0x700000
      ∧ ((atDeadline st).core 0).saving a.dom = false)
    ∧ (∃ a, ((work fun t => { t with preq := some 100, atLookup := true }).core 0).threadAt 0 = some a
      ∧ a.status = .running ∧ a.atLookup = true ∧ 100 + 65536 ≤ ((work id).core 0).cycle
      ∧ (work id).quietPoint 0 0 a = true) := by
  refine ⟨fun st h => ?_, ⟨_, rfl, by decide +kernel⟩⟩
  fin_cases h <;> exact ⟨_, rfl, by decide +kernel⟩
/-- Threads of the launch on all eight slots, slot 1's since the least time. -/
def fullHouse : State := (work id).modMe fun k => { k with
  slots := Vector.ofFn fun (i : Fin 8) =>
    { thread := some { State.reset.thread with resident := false, tid := 20 + i.val, launch := some 50, since := 10 + (i.val + 6) % 8 } } }
theorem witness_ThreadEvents_quantum : ((fullHouse.core 0).threadAt 2).any (fun a =>
      (fullHouse.core 0).freeSlot 0 == none && a.launch == some 50 && !a.resident
      && (List.range 8).all fun j => ((fullHouse.core 0).threadAt j).all fun b => j == 2 || decide (a.since < b.since)) = true
    ∧ fullHouse.launches = [launchOne] ∧ launchOne.cls = 1 ∧ record ∈ (fullHouse.core 0).deque ∧ record.launch = some launchOne.id
    ∧ record.since + (fullHouse.core 0).quantum 0 ≤ (fullHouse.core 0).cycle := by
  decide +kernel
/-- Slot 0's message for port 2 of slot 3. -/
def message : State := (work id).modMe fun k =>
  (k.setSlot 3 { thread := some { State.reset.thread with tid := 33 } }).setSlot 0 { k.slot 0 with
    sendq := [{ dst := word (3 * 4 + 2), msg := ⟨9, 8⟩, d := 5, tid := 0, dom := 0 }] }
theorem witness_ThreadEvents_send : (∃ a b, (message.core 0).threadAt 0 = some a ∧ (message.core 0).threadAt 3 = some b
      ∧ b.dom = 0 ∧ a.tid = 0 ∧ (rd b.q (fld (word 14) 0 2) []).length < 4)
    ∧ ((message.core 0).slot 0).sendq = [{ dst := word 14, msg := ⟨9, 8⟩, d := 5, tid := 0, dom := 0 }] ∧ fld (word 14) 15 49 = 0 ∧ fld (word 14) 5 10 = 0
    ∧ fld (word 14) 2 3 = 3 ∧ message.onSlot 0 0 5 :=
  ⟨⟨_, _, rfl, rfl, by decide +kernel⟩, by decide +kernel, by decide, by decide, by decide, ⟨0, by decide +kernel⟩, by decide⟩
/-- Page 18 of domain 0 has been reported absent, and its entry stands at the first place of the search. -/
def absent : State :=
  let s := { work fun t => { t with status := .stalled 0x123456 true } with
    reports := [(0, 18)], ptcfg := 0x106, ptbase := 0x400000 }
  let e := ((s.searchOrder 0 0x120000).filter (!·.2)).map (·.1) |>.headD 0
  withBytes s e (leBytes 8 (2 ^ 63 + 18 * 2 ^ 16) ++ leBytes 8 (0x55 * 2 ^ 16 + 15))
theorem witness_ThreadEvents_pages : (∃ a, (absent.core 0).threadAt 0 = some a ∧ a.status = .stalled 0x123456 true)
    ∧ 0x123456 / 65536 = 18
    ∧ (∃ e, (absent.search 0 (18 * 65536) (absent.searchOrder 0 (18 * 65536))).1 = some e ∧ (!e.mig) = true)
    ∧ (0, 18) ∈ absent.reports ∧ 0 ∈ absent.cores.map (·.1) :=
  ⟨⟨_, rfl, by decide +kernel⟩, by decide, some_of _ (by decide +kernel), by decide +kernel, by decide +kernel⟩

/-- A message for no thread, for a number that is none, and for a port that holds four; a fault whose page has come. -/
def sendingTo (dst : Word) (q : List Msg) : State := (work id).modMe fun k =>
  (k.setSlot 3 { thread := some { State.reset.thread with tid := 33, dom := if dst = 13 then 2 else 0, q := wr State.reset.thread.q 2 q } }).setSlot
    0 { k.slot 0 with sendq := [{ dst, msg := ⟨9, 8⟩, d := 5, tid := 0, dom := 0 }] }
theorem witness_ThreadEvents_discards :
    (∀ x ∈ [(word 14, 4), (word 13, 0), (word 18, 0), (word 0x8000, 0)],
      let s := sendingTo x.1 (List.replicate x.2 ⟨1, 1⟩)
      (s.core 0).threadAt 0 ≠ none ∧ ((s.core 0).slot 0).sendq.length = 1 ∧ 0 ∉ s.tampered)
    ∧ (∀ dst ∈ [word 14, 13, 18, 0x8000], (sendingTo dst []).onSlot 0 0 5)
    ∧ (((sendingTo (word 14) (List.replicate 4 ⟨1, 1⟩)).core 0).threadAt 3).any (fun b => (rd b.q 2 []).length == 4) = true
    ∧ (((sendingTo 13 []).core 0).threadAt 3).any (fun b => b.dom != 0) = true
    ∧ ((sendingTo 18 []).core 0).threadAt 4 = none ∧ fld (0x8000 : Word) 15 49 ≠ 0 := by
  refine ⟨by decide +kernel, fun dst h => ?_, by decide +kernel⟩
  fin_cases h <;> exact ⟨⟨0, by decide +kernel⟩, by decide⟩
/-- A faulted thread whose page is present, whose page domain 0 has refused, and one whose page is still absent, with a
frame and without. -/
def faulting (frames : Nat) (s : State) : State := s.modMe fun k =>
  { k with frBase := [(0, 0x700000)], frCount := [(0, frames)], slots := (k.setSlot 0
      { k.slot 0 with thread := (k.threadAt 0).map fun t => { t with status := .faulted 0x123456 true } }).slots }
def refusing : State := { work id with ptcfg := 0x106, ptbase := 0x400000, refused := [(0, 18)] }
def missing : State := { work id with ptcfg := 0x106, ptbase := 0x400000 }
theorem witness_ThreadEvents_faults : absent.pageNow 0 18 = some (false, true) ∧ refusing.pageNow 0 18 = some (true, true)
    ∧ missing.pageNow 0 18 = none
    ∧ ∀ n ∈ [0, 1], ∀ s ∈ [absent, refusing, missing],
      (((faulting n s).core 0).threadAt 0).any (fun a => a.status == .faulted 0x123456 true && a.pend == []
          && !(faulting n s).toObject 0 a.tid none && !((faulting n s).core 0).saving a.dom) = true
        ∧ ((faulting n s).core 0).freeFrame 0 = if n = 0 then none else some 0x700000 := by
  decide +kernel

theorem witness_WorkEvents_start :
    (onReset fun t => { t with hndl := 0x100000003, events := [(0, 10, 5, 6, 7)] }).dueEvent.isSome = true
    ∧ ((work id).core 0).slotDom 1 = some 0 ∧ ((work id).core 0).freeSlot 0 = some 1 ∧ ((work id).core 0).frozen 0 = false
    ∧ (∃ p, (work id).nextWork 0 0 = some p ∧ (p.1 == record) = true) ∧ record.kind = .task 3 0 { ex := 1, ey := 1, ez := 1 } [1, 2, 3, 4, 5, 6]
    ∧ (∃ p, ({ work id with launches := [{ launchOne with units := .device [record] [0] 0 }] }).pendingLaunch 0 0 = some p
      ∧ (p.2 == record) = true) ∧ ((work id).core 0).shareFull 0 = false ∧ ((work id).core 0).pendHead = []
    ∧ (((work id).modMe fun k => { k with pendHead := [record] }).me.pendHead.find? (·.dom.toNat == 0)) = some record
    ∧ (∀ l ∈ (work id).launches, l.cls ≠ 2) :=
  ⟨by decide +kernel, by decide +kernel, by decide +kernel, by decide +kernel, some_of _ (by decide +kernel), rfl,
    some_of _ (by decide +kernel), by decide +kernel⟩
/-- Core 0 has no record and core 1 has one that it may move; the launch's units lie on core 0's stage. -/
def stealing : State := ((work id).modMe fun k => { k with deque := [] }).setCore 1 { Core.boot with deque := [record] }
theorem witness_WorkEvents_steal : stealing.maySteal 0 0 = true ∧ (stealing.core 0).stealOf 0 = none
    ∧ (stealing.stealLeft 0 (stealOrder 0)).head? = some 1 ∧ (stealing.core 0).freeSlot 0 = some 1
    ∧ ((stealing.core 1).deque.find? fun r => r.dom.toNat == 0 && stealing.movable 0 r) = some record
    ∧ (∀ an ∈ [none, some record], ((stealing.modMe fun k => { k with
        steals := [{ dom := 0, left := [1], asked := some 1, answer := some an }] }).core 0).steals.find? (·.answer.isSome)
      = some { dom := 0, left := [1], asked := some 1, answer := some an })
    ∧ (work id).maySteal 0 0 = false ∧ (fullHouse.core 0).freeSlot 0 = none := by
  decide +kernel
/-- An answer while a save of the whole domain goes on, and a free slot. -/
theorem witness_WorkEvents_frozen : ((work id).core 0).frozen 0 = false
    ∧ (((work id).modMe fun k => { k with preqDom := [0] }).core 0).frozen 0 = true
    ∧ (((work id).modMe fun k => { k with preqDom := [0] }).core 0).freeSlot 0 = some 1 := by decide +kernel
/-- A thread that waits for d 9, and where a status or a value on its way may land. -/
def tgt (d : Nat) : Target := { id := 70, dom := 0, tid := 0, d, pc := 0 }
def spawning : State := (work id).modMe fun k => { k with
  spawns := [{ t := tgt 9, resident := false, valid := false, task := record }, { t := tgt 1, resident := false, valid := true, task := record },
             { t := tgt 31, resident := true, valid := true, task := record }]
  fills := [{ tid := 0, d := 7, value := 123 }, { tid := 0, d := 7, value := 0, error := some (4, 0x20000) }] }
theorem witness_WorkEvents_spawn : (∀ i ∈ [0, 1, 2], ∃ r, (spawning.core 0).spawns[i]? = some r)
    ∧ (∀ d ∈ [1, 9, 31, 7], spawning.onSlot 0 0 d) ∧ (spawning.core 0).frozen 0 = false
    ∧ (spawning.core 0).shareFull 0 = false ∧ ((noShare.core 0).shareFull 0 = true) ∧ ((fullHouse.core 0).freeSlot 0 = none)
    ∧ (∃ f, (spawning.core 0).fills[0]? = some f ∧ f.due ≤ (spawning.core 0).cycle ∧ f.error = none)
    ∧ (∃ f, (spawning.core 0).fills[1]? = some f ∧ f.due ≤ (spawning.core 0).cycle ∧ f.error = some (4, 0x20000))
    ∧ (spawning.core 0).freeSlot 0 = some 1 ∧ spawning.nextId ≠ 0 := by
  refine ⟨?_, ?_, by decide +kernel, by decide +kernel, by decide +kernel, by decide +kernel, ⟨_, rfl, by decide +kernel⟩,
    ⟨_, rfl, by decide +kernel⟩, by decide +kernel, by decide +kernel⟩
  · intro i h; fin_cases h <;> exact ⟨_, rfl⟩
  · intro d h; fin_cases h <;> exact ⟨⟨0, by decide +kernel⟩, by decide⟩
/-- Two fills of one thread's RXTAKEs of queue 4, and one of queue 5: the second waits for the first. -/
def taking : State := (work id).modMe fun k => { k with fills := [{ tid := 0, d := 7, value := 123, queue := some 4 },
  { tid := 0, d := 8, value := 5, queue := some 4 }, { tid := 0, d := 9, value := 6, queue := some 5 }] }
theorem witness_WorkEvents_takes : (∃ f, (taking.core 0).fills[1]? = some f
      ∧ (f.queue != none && ((taking.core 0).fills.take 1).any fun x => x.queue == f.queue && x.tid == f.tid) = true)
    ∧ (∃ f, (taking.core 0).fills[2]? = some f
      ∧ (((taking.core 0).fills.take 2).all fun x => x.queue != f.queue || x.tid != f.tid) = true) ∧ taking.onSlot 0 0 9 :=
  ⟨some_of _ (by decide +kernel), some_of _ (by decide +kernel), ⟨0, by decide +kernel⟩, by decide⟩
theorem test_takes_in_order : after (exec (.loadDataFill 0 1) taking) (fun t => (t.core 0).fills.length) = some 3
    ∧ after (exec (.loadDataFill 0 2) taking) (fun t => (t.core 0).fills.length) = some 2 := by decide +kernel
def ending : State := { work id with launches := [{ launchOne with left := 0, req := .thread 0 (tgt 9) 3 }] }
theorem witness_WorkEvents_end : ending.launch? 50 = some { launchOne with left := 0, req := .thread 0 (tgt 9) 3 }
    ∧ ending.onSlot 0 0 9
    ∧ (let k := ((work id).modMe fun k => { k with preqDom := [2], sealReg := [(2, 0x123450000)] }).core 0
       2 ∈ k.preqDom ∧ k.quiet 2 = true) :=
  ⟨by decide +kernel, ⟨⟨0, by decide +kernel⟩, by decide⟩, by decide +kernel⟩

/-- An image is as long as its sections, of which the open ones are each below 1 MiB. -/
theorem sealed_length (z : Sealed) (h : z.state.ringCount z.dom ≤ 16 ∧ z.state.bankCount z.dom ≤ 48) :
    z.length ≤ 6000000 := by
  have h0 := (Config.sealSection z.core z.dom z.ctr 0).isLt
  have h1 := (Config.sealSection z.core z.dom z.ctr 1).isLt
  have h2 := (Config.sealSection z.core z.dom z.ctr 2).isLt
  have h3 := List.length_filter_le (z.state.hasAcc z.dom) (List.range 4)
  simp only [List.length_range] at h3
  simp only [Sealed.length, Sealed.sections, List.map_cons, List.map_nil, List.sum_cons, List.sum_nil]
  omega
theorem witness_WorkEvents_seal :
    let s := (work id).modMe fun k => { k with preqDom := [2], sealReg := [(2, 0x123450000)] }
    s.bars = [] ∧ s.backed (sealArea (Tab.get 0 (s.core 0).sealReg 2)) (s.sealImage 0 2).length = true := by
  intro s
  have h := sealed_length (s.sealImage 0 2) (by decide +kernel)
  have e : sealArea (Tab.get 0 (s.core 0).sealReg 2) = 0x123450000 := by decide +kernel
  refine ⟨rfl, ?_⟩
  simp only [State.backed, e, Bool.or_eq_true, decide_eq_true_eq]
  exact .inl (by omega)

/-! Engines: the copies and commands after an instruction. -/
theorem ok_state {r : Eng Unit} (h : (match r with | .ok _ _ => true | _ => false) = true) : ∃ s1, r = .ok () s1 := eng_ok h
def queued : State := run (exec (.cpy (ft 8 1 2 0 0 0 1)) toSeg)
def copyStarted : State := run (exec (.copyStart 0 0) queued)
/-- A queued copy of another domain names the ring, which is no reason to wait. -/
theorem witness_Rings_others :
    let k := (run (exec (.cpym (ft 9 1 2 0 0 0 1)) toRing)).me
    let k : Core := { k with copies := k.copies.map fun c => { c with t := { c.t with dom := 3 } } }
    (k.copies.any fun c => c.names 3) = true ∧ (∀ c ∈ k.copies, c.t.dom = (0 : Byte) → c.names 3 = false) := by
  decide +kernel
/-- The first copy of core 0 changed. -/
def copyAs (s : State) (f : Copy → Copy) : State := s.modMe fun k => { k with copies := k.copies.map f }
def copyDone : State := copyAs copyStarted fun c => { c with done := c.rows }
def followed : State := (run (exec (.cpym (ft 9 1 2 0 0 0 1)) toRing)).modMe fun k =>
  { k with copies := k.copies.map fun c => { c with started := true, filled := true, done := c.rows }, ranges := [] }
theorem witness_EngineEvents_copies :
    (queued.core 0).copyReady 0 = true
    ∧ (∃ cp, (copyStarted.core 0).copies[0]? = some cp
      ∧ (cp.started && !cp.filled && cp.cause == 0 && decide (cp.done < cp.rows) && (copyStarted.core 0).copyFree
        && !cp.fill && cp.toRing == none && cp.row cp.done == List.range 16 && cp.blk.ses == 4 && cp.blk.des == 4
        && (List.range 16).all fun e => cp.srcAt e == 0x20000 + 4 * e && !cp.overlaps 0 (copyStarted.core 0) e
          && (List.range 4).all fun j => cp.dstByte 0 (copyStarted.core 0) e j == 0x21000 + 4 * e + j) = true)
    ∧ (∀ e, e < 16 → copyStarted.spots 0 0 (0x20000 + 4 * e) 4 1 (fun i => (0, 0x20000 + 4 * e + i))
        ∧ copyStarted.spots 0 0 (0x21000 + 4 * e) 4 2 (fun i => (0, 0x21000 + 4 * e + i)))
    ∧ (∀ e ∈ List.range 16, ∀ e' ∈ List.range 16, ∀ j j', j < 4 → j' < 4 → 0x20000 + 4 * e + j ≠ 0x21000 + 4 * e' + j'
        ∧ (0x21000 + 4 * e + j = 0x21000 + 4 * e' + j' → e = e' ∧ j = j')) ∧ copyStarted.tampered = []
    ∧ (∃ cp, (followed.core 0).copies[0]? = some cp
      ∧ (cp.filled && (followed.core 0).alive cp.t.tid && cp.t.dom == 0
        && (cp.follow.map fun w => mmaOf (FmtT.ofWord w)) == some (mmaOf (ft 7 0 0 1 2 3))
        && (followed.core 0).mmaCheck 0 (mmaOf (ft 7 0 0 1 2 3)) == none
        && (followed.core 0).mmaReady 0 (mmaOf (ft 7 0 0 1 2 3)) && (followed.core 0).tagsOk (mmaOf (ft 7 0 0 1 2 3))) = true) :=
  ⟨by decide +kernel, some_of _ (by decide +kernel), fun e he =>
      ⟨State.spots_identity (by decide +kernel) (by omega) (by decide +kernel) (by decide +kernel),
        State.spots_identity (by decide +kernel) (by omega) (by decide +kernel) (by decide +kernel)⟩,
    fun e he e' he' j j' hj hj' => ⟨by simp at he; omega, by omega⟩, by decide +kernel, some_of _ (by decide +kernel)⟩
/-- A row that waits for a page, one that cannot be had, and copies that have ended: to a segment; to the ring's first held
slot and to a later one; with a follow-on, and failed with a follow-on and without. -/
def unmapped : State := { copyStarted with ptcfg := 0x106, ptbase := 0x400000 }
def unbacked : State := copyAs copyStarted fun c => { c with sbase := 0xC000000000 }
def ringDone : State := copyAs followed fun c => { c with filled := false }
theorem witness_EngineEvents_ends :
    (∃ cp, (unmapped.core 0).copies[0]? = some cp ∧ (match unmapped.copyElems 0 cp (fun _ => false) (cp.row cp.done) with
      | .wait pg _ => pg == 2 | _ => false) = true)
    ∧ (∃ cp, (unbacked.core 0).copies[0]? = some cp ∧ (match unbacked.copyElems 0 cp (fun _ => false) (cp.row cp.done) with
      | .fail _ _ => true | _ => false) = true)
    ∧ (∃ cp, (copyDone.core 0).copies[0]? = some cp ∧ (cp.ended && (copyDone.core 0).copyCaughtUp
        && cp.toRing == none && cp.follow == none && cp.t.d == 8 && cp.t.tid == 0 && decide (cp.done < 2 ^ 24)) = true)
    ∧ copyDone.onSlot 0 0 8 ∧ ringDone.onSlot 0 0 9
    ∧ (∀ cause ∈ [0, 3], ∃ cp, ((copyAs ringDone fun c => { c with cause }).core 0).copies[0]? = some cp
      ∧ (cp.ended && cp.cause == cause && (ringDone.core 0).copyCaughtUp && cp.toRing == some 3 && cp.t.d == 9 && cp.t.tid == 0
        && cp.follow.any (fun w => fld w 42 6 == 7)
        && (let g := (ringDone.core 0).ringAt 3
            g.ended == [] && decide (0 < cp.slots) && decide (cp.slots ≤ g.tiles)
              && cp.slot0 % g.tiles == (g.head + g.ready) % g.tiles && 0 % g.tiles != (g.head + g.ready) % g.tiles)) = true) := by
  refine ⟨some_of _ (by decide +kernel), some_of _ (by decide +kernel), some_of _ (by decide +kernel),
    ⟨⟨0, by decide +kernel⟩, by decide⟩, ⟨⟨0, by decide +kernel⟩, by decide⟩, fun cause h => ?_⟩
  fin_cases h <;> exact some_of _ (by decide +kernel)
/-- Copies to a ring that is still the domain's, and whose ring is not; one that converts f32 to bf16. -/
theorem witness_EngineEvents_rings :
    (let s := (run (exec (.cpym (ft 9 1 2 0 0 0 1)) toRing)).modMe fun k => k.setRing 3 { k.ringAt 3 with ready := 0 }
     (s.core 0).copyReady 0 = true ∧ ((s.core 0).copies.all fun c => !(s.core 0).copyLost c && !c.lost) = true)
    ∧ (let s := (run (exec (.cpym (ft 9 1 2 0 0 0 1)) toRing)).modMe fun k => { k with part1 := [(0, setFld bootPart1 12 5 3)] }
       (s.core 0).copyReady 0 = true ∧ ((s.core 0).copies.all fun c => (s.core 0).copyLost c && !c.lost) = true)
    ∧ ((copyAs ringDone fun c => { c with lost := true, cause := 4 }).core 0).copies.any (fun c => c.ended && c.lost) = true
    ∧ ((copyAs copyStarted fun c => { c with blk := { c.blk with ctl := c.blk.ctl ||| 0x24000 } }).core 0).copies.any
        (fun c => !c.fill && decide (c.blk.des < c.blk.ses)) = true := by decide +kernel
def multiplying : State := run (exec (.matrixCommandStart 0 0) (run (exec (.mma (ft 8 0 0 1 2 3)) (eng 0 0))))
def retiring : State := multiplying.modMe fun k => { k with cycle := 5000, mats := k.mats.map fun m => { m with work := 0 } }
def zeroing : State := run (exec (.matrixCommandStart 0 0) (run (exec (.mzero (ft 9 0 0 2)) (eng 0 0))))
theorem witness_EngineEvents_matrix :
    ((run (exec (.mma (ft 8 0 0 1 2 3)) (eng 0 0))).core 0).matReady 0 = true
    ∧ (∃ m, ((run (exec (.mma (ft 8 0 0 1 2 3)) (eng 0 0))).core 0).mats[0]? = some m ∧ (!m.started) = true)
    ∧ (∃ m, (retiring.core 0).mats.head? = some m ∧ (m.started && m.work == 0 && decide (m.ready ≤ 5000) && m.t.d == 8 && m.t.tid == 0
      && match m.op with | .mma _ _ _ n _ _ _ _ => decide (n < 65536) | _ => false) = true)
    ∧ (∃ m, (zeroing.core 0).mats.head? = some m ∧ (m.started && m.work == 0 && decide (m.ready ≤ (zeroing.core 0).cycle) && m.t.d == 9
      && m.t.tid == 0 && m.op == .zero) = true)
    ∧ retiring.onSlot 0 0 8 ∧ zeroing.onSlot 0 0 9
    ∧ ((zeroing.core 0).mats.all fun m => !(zeroing.core 0).accLost m) = true
    ∧ (((zeroing.modMe fun k => { k with accOwner := [(2, 4)] }).core 0).mats.all fun m =>
        ((zeroing.modMe fun k => { k with accOwner := [(2, 4)] }).core 0).accLost m) = true :=
  ⟨by decide +kernel, some_of _ (by decide +kernel), some_of _ (by decide +kernel), some_of _ (by decide +kernel),
    ⟨⟨0, by decide +kernel⟩, by decide⟩, ⟨⟨0, by decide +kernel⟩, by decide⟩, by decide +kernel⟩
/-- A drain of accumulator 2 to 0x30000 with the maximum at 0x38000, and a load of it from there. -/
def draining : State := run (exec (.matrixCommandStart 0 0) (run (exec (.mdrn (ft 9 1 2 2 0 0 1 0x61)) (eng 0x30000 0x38000))))
def loading : State := run (exec (.matrixCommandStart 0 0) (run (exec (.mlda (ft 9 1 0 2 0 0 1 1)) (eng 0x30000 0))))
theorem witness_EngineEvents_drain :
    (∃ m, (draining.core 0).mats.head? = some m ∧ (m.started && m.work == 0 && decide (m.ready ≤ (draining.core 0).cycle)
      && m.t.d == 9 && m.t.tid == 0 && m.t.dom == 0 && m.done == 0 && m.cause == 0 && m.code == 0 && !(draining.core 0).accLost m
      && match m.op with | .drain ea otype _ _ am _ => ea == 0x30000 && otype == 0 && am == some 0x38000 | _ => false) = true)
    ∧ (∃ m, (loading.core 0).mats.head? = some m ∧ (m.started && m.work == 0 && decide (m.ready ≤ (loading.core 0).cycle)
      && m.t.d == 9 && m.t.tid == 0 && m.t.dom == 0 && m.cause == 0 && m.code == 0 && !(loading.core 0).accLost m
      && m.op == .load 0x30000) = true)
    ∧ (draining.tampered = [] ∧ loading.tampered = [] ∧ (draining.core 0).lines = []) ∧ draining.onSlot 0 0 9 ∧ loading.onSlot 0 0 9
    ∧ (draining.spots 0 0 0x30000 16384 2 (fun i => (0, 0x30000 + i)) ∧ Distinct 16384 (fun i => (0, 0x30000 + i)))
    ∧ (draining.spots 0 0 0x38000 4 1 (fun i => (0, 0x38000 + i)) ∧ draining.spots 0 0 0x38000 4 2 (fun i => (0, 0x38000 + i))
      ∧ Distinct 4 (fun i => (0, 0x38000 + i)) ∧ ∀ i j, i < 4 → j < 16384 → (0, 0x38000 + i) ≠ (0, 0x30000 + j))
    ∧ loading.spots 0 0 0x30000 16384 1 (fun i => (0, 0x30000 + i)) := by
  refine ⟨some_of _ (by decide +kernel), some_of _ (by decide +kernel), by decide +kernel, ⟨⟨0, by decide +kernel⟩, by decide⟩,
    ⟨⟨0, by decide +kernel⟩, by decide⟩,
    ⟨State.spots_identity (by decide +kernel) (by decide) (by decide +kernel) (by decide +kernel), fun i j _ _ h => ?_⟩,
    ⟨State.spots_identity (by decide +kernel) (by decide) (by decide +kernel) (by decide +kernel),
      State.spots_identity (by decide +kernel) (by decide) (by decide +kernel) (by decide +kernel), fun i j _ _ h => ?_, fun i j hi hj h => ?_⟩,
    State.spots_identity (by decide +kernel) (by decide) (by decide +kernel) (by decide +kernel)⟩ <;>
    (simp only [Prod.mk.injEq, true_and] at h; omega)
/-- The command at the head of the matrix queue changed. -/
def matAs (s : State) (f : MatCmd → MatCmd) : State := s.modMe fun k => { k with mats := k.mats.map f }
/-- A drain and a load whose last row is left, or none; a load that has read all but its last word; an MMA whose ring has
gone. -/
theorem witness_EngineEvents_rows :
    (∀ done ∈ [0, 63], ((matAs draining fun m => { m with done }).core 0).mats[0]?.any (fun m => m.started && !m.fin
        && m.done == done && !((matAs draining fun m => { m with done }).core 0).accLost m) = true)
    ∧ (∀ done ∈ [0, 63], draining.spots 0 0 (0x30000 + done * 256) 256 2 (fun i => (0, 0x30000 + done * 256 + i))
        ∧ Distinct 256 (fun i => (0, 0x30000 + done * 256 + i)))
    ∧ (∀ done ∈ [63, 64], draining.spots 0 0 (0x30000 + 64 * done * 4) ((4096 - 64 * done) * 4) 2
        (fun i => (0, 0x30000 + 64 * done * 4 + i)))
    ∧ (∀ l ∈ [4095, 4096], let m := (matAs loading fun m => { m with vals := List.replicate l 7, done := l / 64 }).me.mats.head?
        m.any (fun m => !m.fin && m.vals.length == l && m.done == m.vals.length / 64) = true
          ∧ loading.spots 0 0 (0x30000 + 4 * l) (4 * (4096 - l)) 1 (fun i => (0, 0x30000 + 4 * l + i)))
    ∧ (matAs retiring fun m => { m with lost := true }).me.mats.head?.any (·.lost) = true := by
  refine ⟨by decide +kernel, fun done h => ⟨?_, fun i j _ _ h => ?_⟩, fun done h => ?_, fun l h => ⟨?_, ?_⟩, by decide +kernel⟩
  · fin_cases h <;> exact State.spots_identity (by decide +kernel) (by decide) (by decide +kernel) (by decide +kernel)
  · simp only [Prod.mk.injEq, true_and] at h; omega
  · fin_cases h
    · exact State.spots_identity (by decide +kernel) (by decide) (by decide +kernel) (by decide +kernel)
    · intro i hi; omega
  · fin_cases h <;> decide +kernel
  · fin_cases h
    · exact State.spots_identity (by decide +kernel) (by decide) (by decide +kernel) (by decide +kernel)
    · intro i hi; omega
/-- A tampered core of another cluster does not lose the search. -/
theorem witness_EngineEvents_searched : (∀ c ∈ ({ absent with tampered := [1023] } : State).tampered, clusterOf c ≠ 0)
    ∧ 6 ≤ fld absent.ptcfg 0 5 := by decide +kernel
/-- R217: a copy of 4 rows ends with all ones and 4; a load that has one word left (R249) ends with 64 rows. -/
theorem test_copy_status : gAfter (exec (.copyComplete 0 0) copyDone) 8 = some 0xFFFFFF0000040000 := by decide +kernel
theorem test_load_goes_on :
    gAfter (exec (.matrixCommandRetire 0) (matAs loading fun m => { m with vals := List.replicate 4095 7, done := 63 })) 9
      = some 0xFFFFFF0000400000 := by decide +kernel
/-- The search of page 18: its entry alone is valid; it may not be held (bit 5), lack a right, break a must-be-zero rule. -/
def entry (w0 w1 : Nat) : State :=
  let e := ((absent.searchOrder 0 0x120000).filter (!·.2)).map (·.1) |>.headD 0
  withBytes absent e (leBytes 8 w0 ++ leBytes 8 w1)
theorem witness_EngineEvents_translate :
    fld (eng 0 0).ptcfg 0 5 < 6 ∧ 6 ≤ fld absent.ptcfg 0 5 ∧ absent.tlb = [] ∧ absent.backed (0x55 * 2 ^ 16 + 0x3456) 1 = true
    ∧ absent.backed (0xFFFFFF * 2 ^ 16) 1 = false
    ∧ (∀ w ∈ [(2 ^ 63 + 18 * 2 ^ 16, 0x55 * 2 ^ 16 + 15), (2 ^ 63 + 18 * 2 ^ 16, 0x55 * 2 ^ 16 + 1),
        (2 ^ 63 + 18 * 2 ^ 16, 0xFFFFFF * 2 ^ 16 + 15), (2 ^ 63 + 18 * 2 ^ 16, 0x55 * 2 ^ 16 + 15 + 32), (2 ^ 63 + 2 ^ 60 + 18 * 2 ^ 16, 15), (0, 0)],
      (((entry w.1 w.2).searchOrder 0 0x123456).filter fun p => ((entry w.1 w.2).rdWord p.1).getLsbD 63).map (fun p =>
          (p.2, (entry w.1 w.2).rdWord p.1, (entry w.1 w.2).rdWord (p.1 + 8)))
        = if w.1 = 0 then [] else [(false, word w.1, word w.2)]) := by decide +kernel
def request (init : Bool) (r : Option Word) : BarReq :=
  { t := tgt 10, core := 0, target := 0, off := 0x9000, init, n := 1, value := 0x10003, reply := r }
def requested : State := { barrier 0 with
  bars := [request true none, request false none, request true (some 5), request false (some 6)] }
def barWaiting : State := (barrier 0).modMe fun k => { k with cycle := 50, barwts :=
  [{ t := tgt 10, target := 0, off := 0x9000, phase := 1, deadline := 60 }, { t := tgt 10, target := 0, off := 0x9000, phase := 2, deadline := 50 }] }
def cached : State := (eng 0 0).modMe fun k => { k with
  lines := [{ dom := 0, va := 0x20000, pa := 0x20000, data := 0xABCDEF, written := 0x80000001 }, { dom := 0, va := 0x20020, pa := 0x20020, data := 7 }] }
theorem witness_EngineEvents_others :
    (requested.bars[0]? = some (request true none) ∧ requested.bars[1]? = some (request false none)
      ∧ requested.bars[2]? = some (request true (some 5)) ∧ requested.bars[3]? = some (request false (some 6)))
    ∧ requested.onSlot 0 0 10 ∧ requested.tampered = []
    ∧ ((requested.core 0).ownsBank 0 (0x9000 / 32768) = true ∧ (requested.core 0).ownsBank 3 (0x9000 / 32768) = false)
    ∧ fld (0x10003FFFF : Word) 16 16 < fld (0x10003FFFF : Word) 0 16 + 0 * fld (0x10003FFFF : Word) 40 8
    ∧ fld (0x10000030002 : Word) 0 16 + 1 * fld (0x10000030002 : Word) 40 8 = fld (0x10000030002 : Word) 16 16
    ∧ (∃ w, (barWaiting.core 0).barwts[0]? = some w ∧ barWaiting.barwtDone w = true)
    ∧ (∃ w, (barWaiting.core 0).barwts[1]? = some w ∧ (!barWaiting.barwtDone w && decide (w.deadline ≤ 50)) = true)
    ∧ (barWaiting.core 0).cycle = 50 ∧ barWaiting.onSlot 0 0 10
    ∧ (∃ l, (cached.core 0).lines[0]? = some l ∧ (l.written != 0) = true)
    ∧ (∃ l, (cached.core 0).lines[1]? = some l ∧ (l.written == 0) = true) ∧ 6 ≤ fld absent.ptcfg 0 5
    ∧ ∃ r, ({ absent with shoot := [{ dom := 0, page := 18, big := false, all := false }] }).shoot[0]? = some r :=
  ⟨by decide +kernel, ⟨⟨0, by decide +kernel⟩, by decide⟩, by decide +kernel, by decide +kernel, by decide, by decide,
    some_of _ (by decide +kernel), some_of _ (by decide +kernel), by decide +kernel, ⟨⟨0, by decide +kernel⟩, by decide⟩, some_of _ (by decide +kernel),
    some_of _ (by decide +kernel), by decide +kernel, _, rfl⟩

/-- A barrier that an arrival takes too far, one that it completes and one that it does not; objects with their banks and
without; a line of a core that is not tampered with; more than one block of an MMA. -/
theorem witness_EngineEvents_arrivals :
    (let new (o : Word) := fld o 0 16 + 1 * fld o 40 8
     (fld (0x10000010001 : Word) 16 16 < new 0x10000010001) ∧ new 0x10000020001 = fld (0x10000020001 : Word) 16 16
      ∧ new 0x10000030001 < fld (0x10000030001 : Word) 16 16)
    ∧ (∀ w ∈ (barWaiting.core 0).barwts, barWaiting.objectThere w = true) ∧ 0 ∉ cached.tampered
    ∧ ((retiring.core 0).mats.head?.any fun m => match m.op with
        | .mma _ ra _ n _ _ _ _ =>
          let g := (retiring.core 0).ringAt ra
          decide (0 < n * (fld g.layout 8 16 / blockBytes (fld g.layout 0 4)))
        | _ => false) = true
    ∧ (followed.core 0).copies.all (fun cp => !followed.toObject 0 cp.t.tid none) = true := by decide +kernel

/-! The events of ROUTE. -/
def sent : State := run (exec (.route (ft 8 1 2 4)) sending)
def packet (k : PktKind) : Packet := { dom := 0, package := 0, core := 0, source := 0, incarnation := 1, kind := k }
def row64 : List Byte := List.replicate 64 5
def returned : Word := word (7 + 4 * 2 ^ 18)
def arriving (s : State) : State := { s with pkgid := 0x100000000, net := [packet (.row 5 token row64),
  packet (.eos 5 (tgt 11) 0), packet (.credit 1), packet (.retAck (tgt 12) 1), packet (.eosAck (tgt 13)),
  packet (.ret returned 16 1 row64 false (some (tgt 11)) 0)] }
/-- A packet that its core accepts, alone in the network, with what is asked of it and of the core. -/
def accepts (s : State) (k : PktKind) (P : Core → Bool) : Prop :=
  let t := { s with pkgid := 0x100000000, net := [packet k] }
  ∃ o, t.takePkt 0 = some o ∧ (o.1 == packet k && t.inTurn 0 && !t.portAhead (packet k) && o.2.any fun s1 => P (s1.core 0)) = true
/-- Of the next pair of the first ROUTE: is it pending, is it held back, stalled, its entry valid, failed, is there room,
is its packet lost; the entry's credit and policy, and the pair's hops. -/
def pairFacts (s : State) : Option (List Bool × Nat × Nat × Nat) :=
  (s.core 0).routes[0]?.bind fun cmd => cmd.pairs.head?.map fun (r, kk, e0) =>
    let k := s.core 0
    let p := k.spliceAt cmd.splice
    let w := k.routeAt (cmd.entry.getD (e0, 0)).1
    ([p.dom == cmd.t.dom && p.gen == cmd.gen && decide (p.t.id ≤ cmd.t.id) && p.state == 2 && (p.slot r kk).status == 1,
      k.rangeHeld cmd.t.id || !(p.deadline.all fun dl => decide (k.cycle < dl)), cmd.stalled,
      rtValid w && rtDom w == cmd.t.dom.toNat, rtFailed w, k.routeRoom,
      (s.engLost 0 cmd.t.dom.toNat (cmd.tile + r * (p.cols * elSize p.stype))).isSome],
     rtCredit w, rtPolicy w, (cmd.entry.getD (e0, 0)).2)
/-- The ROUTE of `sent` changed, its entry 1 under a policy with a credit, spilling to entry 2. -/
def sentAs (policy credit : Nat) (f : RouteCmd → RouteCmd) : State := sent.modMe fun k => { k with
  routes := k.routes.map f
  route := Tab.set (0, 0) k.route 1 ((entryOf 5 3 6 credit false).1 ||| word (policy * 2 ^ 52 + 2 * 2 ^ 44), word 0x53) }
theorem witness_RouteEvents_send : ∀ x ∈ ([
    (sent, ([true, false, false, true, false, true, false], 4, 0, 0)),
    ((sentAs 0 4 fun r => { r with gen := 9 }), ([false, false, false, true, false, true, false], 4, 0, 0)),
    ((sent.modMe fun k => { k with splice := k.splice.map fun e => (e.1, { e.2 with dom := 3 }) }),
      ([false, false, false, true, false, true, false], 4, 0, 0)),
    ((sent.modMe fun k => { k with splice := k.splice.map fun e => (e.1, { e.2 with t := { e.2.t with id := 1000 } }) }),
      ([false, false, false, true, false, true, false], 4, 0, 0)),
    ((sent.modMe fun k => { k with cycle := 400 }), ([true, true, false, true, false, true, false], 4, 0, 0)),
    ((sentAs 2 0 fun r => { r with stalled := true }), ([true, false, true, true, false, true, false], 0, 2, 0)),
    ((sentAs 2 0 id), ([true, false, false, true, false, true, false], 0, 2, 0)),
    ((sentAs 0 4 fun r => { r with entry := some (9, 1) }), ([true, false, false, false, false, true, false], 0, 0, 1)),
    ((sentAs 0 4 fun r => { r with entry := some (2, 1) }), ([true, false, false, true, true, true, false], 0, 0, 1)),
    ((sent.modMe fun k => { k with routed := 100000 }), ([true, false, false, true, false, false, false], 4, 0, 0)),
    ({ sentAs 0 4 fun r => { r with tile := winAddr 256 0xA000 } with tampered := [0] }, ([true, false, false, true, false, true, true], 4, 0, 0)),
    ((sentAs 0 0 id), ([true, false, false, true, false, true, false], 0, 0, 0)),
    ((sentAs 1 0 id), ([true, false, false, true, false, true, false], 0, 1, 0)),
    ((sentAs 1 0 fun r => { r with entry := some (1, 3) }), ([true, false, false, true, false, true, false], 0, 1, 3))] :
    List (State × List Bool × Nat × Nat × Nat)), pairFacts x.1 = some x.2 := by
  decide +kernel
theorem witness_RouteEvents_windows : inWin 0xA000 = false ∧ inWin (winAddr 256 0xA000) = true := by decide +kernel
def openPage : TokPage := { addr := 0x604000, resv := 2, rows := [(0, token)], since := 3 }
def lastEos : State := (routing 0 0).modMe (·.setQueue 5 { rx with senders := 3, eosCount := 2, pages := [openPage] })
def waitingEos : State := (routing 0 0).modMe (·.setQueue 5 { rx with senders := 3, eosCount := 1 })
theorem witness_RouteEvents_packets :
    accepts (routing 0 0) (.row 5 token row64) (fun k => decide (k.hold.length < 8) && k.queueAt 5 == some rx && rx.dom == 0
      && !rx.ended && rx.rowbytes == row64.length && (k.reserve 5 rx).isSome)
    ∧ accepts waitingEos (.eos 5 (tgt 11) 0) (fun k => (k.queueAt 5).any fun q => q.dom == 0 && !q.ended && q.takes.isEmpty
      && q.eosCount + 1 != q.senders)
    ∧ accepts lastEos (.eos 5 (tgt 11) 0) (fun k => (k.queueAt 5).any fun q => q.dom == 0 && !q.ended && q.takes.isEmpty
      && q.senders != 0 && q.eosCount + 1 == q.senders && q.pages.getLast? == some openPage)
    ∧ accepts (routing 0 0) (.credit 1) (fun k => decide (rtCredit (k.routeAt 1) < rtCapacity (k.routeAt 1)))
    ∧ accepts sent (.ret returned 16 1 row64 false (some (tgt 11)) 0) (fun k =>
      let sp := k.spliceAt (fld returned 18 4)
      k.spliceDom (fld returned 18 4) == some 0 && fld returned 0 8 == sp.gen && (sp.slot (fld returned 8 8) (fld returned 16 2)).status == 1 && sp.cols == 16
        && sp.rtype == 1)
    ∧ accepts (routing 0 0) (.retAck (tgt 12) 1) (fun k => k.slotOf 0 == some 0)
    ∧ accepts (routing 0 0) (.eosAck (tgt 13)) (fun k => k.slotOf 0 == some 0) :=
  ⟨some_of _ (by decide +kernel), some_of _ (by decide +kernel), some_of _ (by decide +kernel), some_of _ (by decide +kernel),
    some_of _ (by decide +kernel), some_of _ (by decide +kernel), some_of _ (by decide +kernel)⟩
/-- A credit in a cycle in which a pair has already gone without one, and in one in which none has; a queue that has left
its domain's range. -/
theorem witness_RouteEvents_turns :
    accepts ((routing 0 0).modMe fun k => { k with starved := [(1, k.cycle)] }) (.credit 1) (fun k => k.starved.contains (1, k.cycle))
    ∧ accepts ((routing 0 0).modMe fun k => { k with starved := [(1, k.cycle + 1), (2, k.cycle)] }) (.credit 1)
        (fun k => !k.starved.contains (1, k.cycle) && decide (rtCredit (k.routeAt 1) < rtCapacity (k.routeAt 1)))
    ∧ accepts (routing 0 0) (.row 5 token row64) (fun k => k.hasQueue 0 5)
    ∧ accepts ((routing 0 0).modMe fun k => { k with part1 := [] }) (.row 5 token row64)
        (fun k => k.queueAt 5 == some rx && !k.hasQueue 0 5) :=
  ⟨some_of _ (by decide +kernel), some_of _ (by decide +kernel), some_of _ (by decide +kernel), some_of _ (by decide +kernel)⟩
/-- Core 0 with the position that the row of a packet alone in the network reserves in queue 5. -/
def placing (s : State) : State :=
  match ({ s with pkgid := 0x100000000, net := [packet (.row 5 token row64)] } : State).takePkt 0 with
  | some (_, some s1) => match (s1.core 0).reserve 5 rx with
    | some (page, j, k') => if page = 0x600000 ∧ j = 0 then s1.setCore 0 k' else s
    | none => s
  | _ => s
/-- The token pool of core 0 at another address, none of its pages used. -/
def pooled (base : Nat) (s : State) : State :=
  s.modMe fun k => { k with pool := [(0, { base, size := 0x4000, count := 40, used := [] })] }
theorem witness_RouteEvents_rows :
    (accepts (routing 0 0) (.row 9 token row64) fun k => k.queueAt 9 == none)
    ∧ (accepts (pooled 0x600000 (routing 0 0)) (.row 5 token row64) fun k => k.queueAt 5 == some rx && k.hold == [])
    ∧ (accepts ((routing 0 0).modMe (·.setQueue 5 { rx with dom := 3 })) (.row 5 token row64) fun k =>
        (k.queueAt 5).any (·.dom != 0))
    ∧ (accepts (routing 0 0) (.row 5 token [1]) fun k => (k.queueAt 5).any (·.rowbytes != [1].length))
    ∧ (placing (pooled 0x600000 (routing 0 0))).spots 0 0 (rowAt 0x600000 0 64) row64.length 2
        (fun i => (0, rowAt 0x600000 0 64 + i))
    ∧ Distinct row64.length (fun i => (0, rowAt 0x600000 0 64 + i))
    ∧ (placing (pooled 0x600000 (routing 0 0))).tampered = []
    ∧ (match (placing { pooled 0x600000 (routing 0 0) with ptcfg := 0x106, ptbase := 0x400000 }).engWrite 0 0
          (rowAt 0x600000 0 64) row64 (fun _ => true) with | .wait pg _ => pg == 0x60 | _ => false) = true
    ∧ (match (pooled 0xC000000000 (routing 0 0)).engWrite 0 0 (rowAt 0xC000000000 0 64) row64 (fun _ => true) with
        | .fail _ _ => true | _ => false) = true
    ∧ ((pooled 0xC000000000 (routing 0 0)).core 0).reserve 5 rx ≠ none :=
  ⟨some_of _ (by decide +kernel), some_of _ (by decide +kernel), some_of _ (by decide +kernel), some_of _ (by decide +kernel),
    State.spots_identity (by decide +kernel) (by decide) (by decide +kernel) (by decide +kernel),
    fun i j _ _ h => by simp only [Prod.mk.injEq, true_and] at h; omega,
    by decide +kernel, by decide +kernel, by decide +kernel, by decide +kernel⟩
/-- A return whose splice is another domain's or none's, of another generation, for a slot that is not pending, for one of
status 5, one that fails, one of another width, and one that is added in. -/
theorem witness_RouteEvents_returns :
    let slots (st : Nat) (s : State) := s.modMe fun k => { k with
      splice := k.splice.map fun e => (e.1, { e.2 with slots := e.2.slots.map fun x => (x.1, { x.2 with status := st }) }) }
    let ret (s : State) (tag : Word) (cols : Nat) (fail : Bool) (P : Splice → Bool) : Prop :=
      accepts s (.ret tag cols 1 row64 fail (some (tgt 11)) 0) fun k =>
        k.spliceDom (fld tag 18 4) == some 0 && P (k.spliceAt (fld tag 18 4))
    let slot (sp : Splice) := (sp.slot (fld returned 8 8) (fld returned 16 2)).status
    (accepts (sent.modMe fun k => { k with part1 := [] }) (.ret returned 16 1 row64 false (some (tgt 11)) 0) fun k =>
        k.spliceDom (fld returned 18 4) == none)
    ∧ ret sent (returned + 1) 16 false (fun sp => fld (returned + 1) 0 8 != sp.gen)
    ∧ ret (slots 2 sent) returned 16 false (fun sp => fld returned 0 8 == sp.gen && slot sp == 2)
    ∧ ret (slots 5 sent) returned 16 false (fun sp => fld returned 0 8 == sp.gen && slot sp == 5)
    ∧ ret sent returned 16 true (fun sp => fld returned 0 8 == sp.gen && slot sp == 1)
    ∧ ret sent returned 15 false (fun sp => fld returned 0 8 == sp.gen && slot sp == 1 && sp.cols == 16)
    ∧ ret sent returned 16 false (fun sp => fld returned 0 8 == sp.gen && slot sp == 1 && sp.cols == 16 && sp.rtype == 1)
    ∧ (sent.core 0).ownsBank 0 (((sent.core 0).spliceAt 4).out / 32768) = true
    ∧ ((sent.core 0).splice.all fun e => (sent.timeOut 0 e.1 == sent)) = true :=
  ⟨some_of _ (by decide +kernel), some_of _ (by decide +kernel), some_of _ (by decide +kernel), some_of _ (by decide +kernel),
    some_of _ (by decide +kernel), some_of _ (by decide +kernel), some_of _ (by decide +kernel), by decide +kernel, by decide +kernel⟩
def latePage : TokPage := { openPage with addr := 0x608000, late := true }
def paging : State := (routing 0 0).modMe fun k => { k with
  cycle := 40
  rxq := [(5, { rx with pages := [openPage] }), (6, { rx with pages := [latePage] })]
  hold := [{ queue := 5, tag := token, bytes := row64, page := 0x604000, pos := some 1 }] }
def late : State := sent.modMe fun k => { k with cycle := 400 }
def filled : State := sent.modMe fun k => { k with
  splice := k.splice.map fun e => (e.1, { e.2 with slots := e.2.slots.map fun x => (x.1, { x.2 with status := 2 }) }) }
/-- A page at an address that no memory backs. -/
def lostPage : TokPage := { latePage with addr := 0xC000000000 }
theorem eng_fail {r : Eng Unit} (h : (match r with | .fail _ _ => true | _ => false) = true) : ∃ e s1, r = .fail e s1 := by
  cases r <;> simp at h
  exact ⟨_, _, rfl⟩
def losing : State := paging.modMe fun k => { k.setQueue 6 { rx with pages := [lostPage] } with
  hold := [{ queue := 6, tag := token, bytes := row64, page := 0xC000000000, pos := some 1 },
           { queue := 6, tag := token, bytes := row64, page := 0xC000000000, pos := none }] }
theorem witness_RouteEvents_lost : (losing.core 0).queueAt 6 = some { rx with pages := [lostPage] }
    ∧ (losing.core 0).handReady 6 lostPage = true ∧ rx.takes = []
    ∧ (∃ e s1, losing.engWrite 0 0 0xC000000000 (lostPage.header 0 true) (fun _ => true) = .fail e s1)
    ∧ (losing.core 0).hold.map (·.pos) = [some 1, none]
    ∧ ∀ j ∈ [1, 0], ∃ e s1, losing.engWrite 0 0 (rowAt 0xC000000000 j 64) row64 (fun _ => false) = .fail e s1 :=
  ⟨by decide +kernel, by decide +kernel, rfl, eng_fail (by decide +kernel), by decide +kernel, fun j h => by
    fin_cases h <;> exact eng_fail (by decide +kernel)⟩
theorem witness_RouteEvents_pages :
    ((paging.core 0).hold[0]?.map (·.pos) = some (some 1) ∧ (paging.core 0).queueAt 5 = some { rx with pages := [openPage] })
    ∧ (∃ s1, paging.engWrite 0 0 (rowAt 0x604000 1 64) row64 (fun _ => false) = .ok () s1)
    ∧ (paging.core 0).handReady 6 latePage = true
    ∧ (∃ s1, paging.engWrite 0 0 0x608000 (latePage.header 0 false) (fun _ => true) = .ok () s1)
    ∧ rx.timeout ≠ 0 ∧ openPage.since + rx.timeout < (paging.core 0).cycle
    ∧ ((paging.modMe fun k => { k with cycle := 12 }).core 0).cycle ≤ openPage.since + rx.timeout
    ∧ (∀ s ∈ [late, filled], (s.core 0).slotOf ((s.core 0).spliceAt 4).t.tid = some 0 ∧ 0 < ((s.core 0).spliceAt 4).t.d
      ∧ ((s.core 0).spliceAt 4).t.d < 32 ∧ ((s.core 0).spliceAt 4).state = 2)
    ∧ ((filled.core 0).spliceAt 4).count [1] = 0 ∧ ((late.core 0).spliceAt 4).count [1] ≠ 0
    ∧ (∃ dl, ((late.core 0).spliceAt 4).deadline = some dl ∧ decide (dl < (late.core 0).cycle) = true)
    ∧ (∃ dl, ((sent.core 0).spliceAt 4).deadline = some dl ∧ decide ((sent.core 0).cycle ≤ dl) = true)
    ∧ (rtPackage ((sent.core 0).routeAt 1) = 0 ∧ (sent.core 0).routeAt 1 ≠ (0, 0)
      ∧ (let p := ((run (exec (.pairSend 0 0) sent)).core 0).spliceAt 4
         ∃ r kk, ((p.slot r kk).status, (p.slot r kk).entry) = (1, some 1)))
    ∧ Tab.get 0 sent.incarnations 7 < 1 ∧ 0 < Tab.get 0 sent.incarnations 0 + 1 ∧ sent.expire 0 = sent :=
  ⟨by decide +kernel, eng_ok (by decide +kernel), by decide +kernel, eng_ok (by decide +kernel), by decide +kernel,
    by decide +kernel, by decide +kernel, by decide +kernel, by decide +kernel, by decide +kernel, some_of _ (by decide +kernel),
    some_of _ (by decide +kernel), ⟨by decide +kernel, by decide +kernel, 0, 0, by decide +kernel⟩, by decide +kernel⟩

/-! The events of the registers. -/
def idleCore : State := State.reset.modMe fun k => { k with
  slots := Vector.replicate 8 {}, lbPend := some (10, 8), cycle := 9, plock := [(3, 0x8000000000000000)] }
theorem witness_RegisterEvents :
    (idleCore.core 0).mayStop = true ∧ (State.reset.core 0).mustRun = true ∧ (idleCore.core 0).lbOk 4 = true
    ∧ (idleCore.core 0).lbOk 3 = false ∧ (idleCore.core 0).lbPend = some (10, 8) ∧ 8 ≤ (idleCore.core 0).cycle ∧ (idleCore.core 0).idle = true
    ∧ (0x7F : Word).getLsbD 63 = false ∧ ((State.reset.core 0).threadAt 0).isSome = true
    ∧ (Tab.get 0 (idleCore.core 0).plock 3).getLsbD 63 = true ∧ (Tab.get 0 (idleCore.core 0).plock 0).getLsbD 63 = false
    ∧ (let k := State.reset.core 0
       (k.slotMask 0).testBit 0 = true
        ∧ (({ k with part0 := Tab.set 0 k.part0 0 ((bootPart0 - 1) &&& partMask 0) } : Core).slotMask 0).testBit 0 = false)
    ∧ (let k := idleCore.core 0
       (∀ j, j < 8 → k.threadAt j = none) ∧ ({ k with part0 := Tab.set 0 k.part0 0 (bootPart0 &&& partMask 0) } : Core).partOk 0 = true)
    ∧ State.reset.sealed = [] ∧ State.reset.backed 0x20000 48 = true ∧ State.reset.backed 0xBFFFFFFF00 256 = true := by
  decide +kernel
/-- A write for domain 0, the one domain of the core, that keeps the ranges, the shares and the quota. -/
theorem not_refused {k k' : Core} (only : ∀ a, k'.present a = true → a = 0)
    (ranges : k'.bankBase 0 + k'.bankCount 0 ≤ 48 - k.lb ∧ k'.cueBase 0 + k'.cueCount 0 ≤ 1024
      ∧ k'.ringBase 0 + k'.ringCount 0 ≤ 16 ∧ k'.splBase 0 + k'.splCount 0 ≤ 16 ∧ k'.rxBase 0 + k'.rxCount 0 ≤ 16)
    (shares : k'.cueQuota 0 ≤ 64 ∧ k'.rangeQuota 0 ≤ 32 ∧ k'.dequeShare 0 ≤ 64 ∧ k'.copyShare 0 ≤ 16 ∧ k'.matShare 0 ≤ 8)
    (quota : k'.present 0 = true → 4 ≤ k'.rangeQuota 0) (sets : k.desc = []) (slots : ∀ j, k.threadAt j = none) :
    ¬ k.writeRefused k' 0 := by
  rintro (⟨a, b, n, ha, hb, _⟩ | h | h | ⟨ds, nd, hp, h⟩ | ⟨a, ha, h⟩ | ⟨e, he, _⟩ | ⟨j, _, _, _, h⟩)
  · exact n ((only a ha).trans (only b hb).symm)
  · omega
  · omega
  · have one : ds = [] ∨ ds = [0] := by
      rcases ds with _ | ⟨a, _ | ⟨b, ds⟩⟩
      · exact .inl rfl
      · exact .inr (by rw [only a (hp a (by simp))])
      · have ha := only a (hp a (by simp))
        have hb := only b (hp b (by simp))
        simp [ha, hb] at nd
    rcases one with rfl | rfl <;> simp at h
    omega
  · have := only a ha; subst this; have := quota ha; omega
  · simp [sets] at he
  · simp [slots] at h
theorem idle_threadAt (j : Nat) : (idleCore.core 0).threadAt j = none := by
  have e : (idleCore.core 0).slots = Vector.replicate 8 {} := by decide +kernel
  unfold Core.threadAt Core.slot rd
  rw [e]
  by_cases h : j < 8 <;> simp [h]
/-- Domain 0 keeps its parts, takes other ones (R361), and leaves the core (R200). -/
theorem witness_RegisterEvents_parts :
    ∀ v ∈ [bootPart0, 0x0800000012007F0F, 0], let k := idleCore.core 0
      ¬ k.writeRefused { k with part0 := Tab.set 0 k.part0 0 (v &&& 0x0FFFFFFF0FFFF7FF) } 0 := by
  intro v hv k
  have only (w : Word) (a : Nat) (h : ({ k with part0 := Tab.set 0 k.part0 0 w } : Core).present a = true) : a = 0 := by
    by_contra n
    have e : k.part0 = [(0, bootPart0)] := by decide +kernel
    have z : Tab.get 0 (Tab.set 0 k.part0 0 w) a = 0 := by
      rw [Tab.get_set_ne _ _ _ _ _ n, e]
      simp [Tab.get, Ne.symm n]
    exact absurd h (by unfold Core.present Core.slotMask; rw [z]; decide)
  fin_cases hv <;> exact not_refused (only _) (by decide +kernel) (by decide +kernel) (by decide +kernel) (by decide +kernel)
    idle_threadAt
/-- Writes that have no effect: a slot that leaves its domain holds a thread; a share above its limit; two domains with a
slot in common, or with shares that are too large together; a range quota of 3. -/
theorem witness_RegisterEvents_refused :
    let k := State.reset.core 0
    let w0 (d : Nat) (v : Word) : Core := { k with part0 := Tab.set 0 k.part0 d (v &&& 0x0FFFFFFF0FFFF7FF) }
    let w1 (k : Core) (d : Nat) (v : Word) : Core := { k with part1 := Tab.set 0 k.part1 d (v &&& 0x0FFFF1FF1FF1FF3F) }
    k.writeRefused (w0 0 (bootPart0 - 1)) 0 ∧ k.writeRefused (w1 k 0 (setFld bootPart1 53 7 65)) 0
      ∧ k.writeRefused (w0 3 0x102) 3 ∧ k.writeRefused (w1 (w0 3 0x102) 3 (setFld 0x20 53 7 40)) 3
      ∧ k.writeRefused (w1 k 0 (setFld bootPart1 0 6 3)) 0 := by
  refine ⟨.inr (.inr (.inr (.inr (.inr (.inr ⟨0, by decide +kernel⟩))))), .inr (.inr (.inl (by decide +kernel))),
    .inl ⟨0, 3, by decide, by decide +kernel, by decide +kernel, .inr ⟨1, .inl (by decide +kernel)⟩⟩,
    .inr (.inr (.inr (.inl ⟨[0, 3], by decide, by decide +kernel, by decide +kernel⟩))),
    .inr (.inr (.inr (.inr (.inl ⟨0, by decide +kernel⟩))))⟩
/-- Rings and queues that another domain last held, or has bound, and commands of another domain on the rings. -/
theorem witness_RegisterEvents_passed :
    let k : Core := { (run (exec (.cpym (ft 9 1 2 0 0 0 1)) toRing)).me with
      ringOwner := [(3, 4)], accOwner := [(2, 4)], hOwner := [], bankOwner := [], rxq := [(5, { rx with dom := 9 })] }
    Tab.get 0 k.ringOwner 3 ≠ 0 + 1 ∧ Tab.get 0 k.accOwner 2 ≠ 0 + 1 ∧ Tab.get 0 k.hOwner (k.hbank 0) ≠ 0 + 1
      ∧ Tab.get 0 k.bankOwner 43 ≠ 0 + 1 ∧ k.hasRing 0 3 = true ∧ k.hasQueue 0 5 = true
      ∧ k.copies.any (fun c => c.toRing == some 3) = true
      ∧ ({ k with part1 := [(0, 0x20)] } : Core).queuePassed 9 5 = false := by decide +kernel
/-- Clearing lock while a slot of the domain holds a thread, and when none does; SEAL read by a tampered core. -/
theorem witness_RegisterEvents_locks :
    (let k := { State.reset.core 0 with plock := [(0, 0x8000000000000000)] }
     (Tab.get 0 k.plock 0).getLsbD 63 = true ∧ (0x7FFF : Word).getLsbD 63 = false
      ∧ ∃ j, j < 8 ∧ (k.slotMask 0).testBit j = true ∧ (k.threadAt j).isSome = true)
    ∧ (¬ ∃ j, j < 8 ∧ ((idleCore.core 0).slotMask 0).testBit j = true ∧ ((idleCore.core 0).threadAt j).isSome = true)
    ∧ 0 ∈ ({ State.reset with tampered := [0] } : State).tampered :=
  ⟨⟨by decide +kernel, by decide, 0, by decide +kernel⟩, by simp [idle_threadAt], by decide +kernel⟩
/-- Work that is the next of its register, and work behind another of the same register. -/
def asked : State := { State.reset with work :=
  [.keys 2, .extend 0 2 0x20000, .attest 0 2 0xBFFFFFFF00, .restore 0 2 0x123450000, .extend 0 2 0x30000] }
theorem witness_RegisterEvents_work :
    (∀ w ∈ [DomWork.keys 2, .extend 0 2 0x20000, .attest 0 2 0xBFFFFFFF00, .restore 0 2 0x123450000],
      asked.work.find? w.like = some w)
    ∧ asked.work.find? (DomWork.extend 0 2 0x30000).like = some (.extend 0 2 0x20000)
    ∧ (∀ w ∈ [DomWork.keys 3, .attest 0 3 0, .restore 0 3 0], asked.work.find? w.like ≠ some w)
    ∧ asked.sealed = [] ∧ asked.busy (.keys 2) = true ∧ asked.busy (.keys 3) = false
    ∧ (let s : State := { asked with tampered := [0] }
       (∀ w ∈ [DomWork.extend 0 2 0x20000, .attest 0 2 0xBFFFFFFF00], s.work.find? w.like = some w) ∧ 0 ∈ s.tampered)
    ∧ 0 ∉ asked.tampered ∧ asked.backed 0x20000 48 = true ∧ asked.backed 0xBFFFFFFF00 256 = true := by decide +kernel
theorem witness_RegisterEvents_extend (b : Nat) :
    asked.work.find? (DomWork.extend 0 2 0x30000).like ≠ some (.extend b 2 0x30000) := by
  rw [show asked.work.find? (DomWork.extend 0 2 0x30000).like = some (.extend 0 2 0x20000) by decide +kernel]
  simp
/-- KEYC reads busy until the keys have been made anew (R371). -/
theorem test_keys_busy : (run (exec (.keyRefresh 2) asked)).busy (.keys 2) = false
    ∧ (run (exec (.keyRefresh 3) asked)).work = asked.work := by decide +kernel
/-- An image of domain 2, whose bytes, which the model leaves open, stand in the seal area. -/
def image : Sealed := { core := 0, dom := 2, ctr := 0, epoch := 0, state := Core.boot }
def sealedAs (z : Sealed) : State := { State.reset with mem := (State.reset.wrRaw 0x123450000 z.bytes).mem, sealed := [z] }
theorem reads_written (s : State) (pa : Nat) (bs : List Byte) (zs : List Sealed) :
    ({ s with mem := (s.wrRaw pa bs).mem, sealed := zs } : State).rdRaw pa bs.length = bs :=
  State.rdRaw_wrRaw s pa bs
theorem sealedAs_reads (z : Sealed) : (sealedAs z).rdRaw 0x123450000 z.bytes.length = z.bytes :=
  reads_written State.reset 0x123450000 z.bytes [z]
def sealedDom : State := sealedAs image
theorem witness_RegisterEvents_seal : sealedDom.sealed = [image] ∧ image.ctr = Tab.get 0 (sealedDom.core 0).sealCtr 2
    ∧ image.epoch = Tab.get 0 sealedDom.epoch 2 ∧ fld (0x123450000 : Word) 16 36 * 65536 = 0x123450000
    ∧ sealedDom.rdRaw 0x123450000 image.bytes.length = image.bytes ∧ (sealedDom.core 0).present 2 = false
    ∧ (let z : Sealed := { image with dom := 0 }
       (sealedAs z).sealed = [z] ∧ z.ctr = Tab.get 0 ((sealedAs z).core 0).sealCtr 0 ∧ z.epoch = Tab.get 0 (sealedAs z).epoch 0
        ∧ (sealedAs z).rdRaw 0x123450000 z.bytes.length = z.bytes ∧ ((sealedAs z).core 0).present 0 = true
        ∧ ((sealedAs z).core 0).hasRing 0 3 = true)
    ∧ State.reset.sealed = [] :=
  ⟨rfl, by decide +kernel, by decide +kernel, by decide, sealedAs_reads image, by decide +kernel,
    ⟨rfl, by decide +kernel, by decide +kernel, sealedAs_reads _, by decide +kernel, by decide +kernel⟩, by decide +kernel⟩

/-! The events of the host's side: queue 0 with a launch record of one stage and a load record of a small object. -/
def secEntry (ty off size : Nat) : List Byte := leBytes 4 ty ++ leBytes 4 0 ++ leBytes 8 off ++ leBytes 8 size
def object : List Byte :=
  leBytes 4 0x4F435744 ++ leBytes 2 64 ++ leBytes 2 3 ++ [1, 0, 2] ++ List.replicate 5 0 ++ leBytes 8 64 ++ leBytes 8 192
  ++ List.replicate 32 0 ++ secEntry 1 136 8 ++ secEntry 3 144 48 ++ secEntry 6 192 0
  ++ leBytes 8 ((encode (.exit { fs 0 1 0 with e := true })).getD 0).toNat
  ++ leBytes 4 0 ++ leBytes 2 1 ++ List.replicate 10 0 ++ List.replicate 16 0 ++ leBytes 16 (encodeCue 0 (cue 0 0 0 0 0 0)).toNat
def queueEntry (head : Nat) : List Byte :=
  leBytes 8 0x510000 ++ [4, 0, 1] ++ List.replicate 5 0 ++ leBytes 8 2 ++ leBytes 8 head ++ leBytes 8 0x520000 ++ List.replicate 24 0
def launchRecord : List Byte :=
  leBytes 1 0x10 ++ List.replicate 15 0 ++ leBytes 4 0xFFFFFFFF ++ leBytes 4 0 ++ leBytes 4 2 ++ leBytes 4 1
  ++ (List.range 6).flatMap (fun i => leBytes 8 (7 + i)) ++ leBytes 8 0x530000 ++ leBytes 8 0x77 ++ List.replicate 160 0
def loadRecord : List Byte :=
  leBytes 8 1 ++ leBytes 4 192 ++ List.replicate 68 0 ++ leBytes 8 0x540000 ++ List.replicate 168 0
def hosting (head : Nat) (record : List Byte) : State :=
  let s := { tasks 0 with qtab := 0x500000, tails := [(0, 2)], ctxs := [(0, { Ctx.boot with
    setMap := [(0, 0), (1, 1)], seg := wr Ctx.boot.seg 0 { rights := 5, limit := 0x1000 } })] }
  let s := withBytes s 0x500000 (queueEntry head)
  let s := withBytes s (0x510000 + 256 * head) record
  let s := withBytes s 0x530000 (leBytes 4 4 ++ leBytes 4 3 ++ leBytes 4 1 ++ leBytes 4 0x010102 ++ leBytes 8 0x530100 ++ leBytes 2 1)
  let seg := wr (Vector.replicate 8 {}) 0 { base := 0x900000, limit := 0x10000, rights := 5 }
  { withBytes s 0x540000 object with loadPlan := { cores := [0], sets := [(9, [(0, 100)])], seg } }
def launchingQ : State := hosting 0 launchRecord
def loadingQ : State := hosting 1 loadRecord
theorem witness_HostEvents_tail : launchingQ.queueBacked 0 = true ∧ 0 ∈ ({ launchingQ with rereads := [0] }).rereads
    ∧ (∃ e, launchingQ.hostQ 0 = some e ∧ (decide (e.head ≤ 2) && decide (2 ≤ e.head + e.size)) = true)
    ∧ (launchingQ.rdWord (launchingQ.queuePa 0 + 0x10)).toNat = 2 :=
  ⟨by decide +kernel, by decide +kernel, some_of _ (by decide +kernel), by decide +kernel⟩
theorem witness_HostEvents_launch : ∃ e, launchingQ.takeReady 0 = some e ∧
    (let b := launchingQ.recordOf e
     launchingQ.backed e.recordPa 256 && launchingQ.recordReady 0 b && blkF b 0 1 % 16 != 1 && launchBad launchingQ e.dom b == none
      && match launchingQ.stagesAt (blkF b 0x50 8) 0 (blkF b 1 1 + 1) with
        | .ok stages => !launchingQ.hostRejects e.dom (blkF b 0 1 / 16 % 4) stages
        | .error _ => false) = true :=
  some_of _ (by decide +kernel)
theorem witness_HostEvents_load : ∃ e, loadingQ.takeReady 0 = some e ∧
    (let b := loadingQ.recordOf e
     loadingQ.backed e.recordPa 256 && loadingQ.recordReady 0 b && blkF b 0 1 % 16 == 1 && loadBad loadingQ b == none
      && match objParse (loadingQ.rdRaw (blkF b 0x50 8) (blkF b 8 4)) (blkF b 8 4) with
        | .ok o => match (loadingQ.raiseHead 0 e).fresh.2.loadObject e.dom o loadingQ.loadPlan 0 loadingQ.nextId with
          | .ok s3 => s3.queueBacked 0 && s3.backed (e.cbase + 32 * (e.head % 2 ^ e.lg)) 32
          | .error _ => false
        | .error _ => false) = true :=
  some_of _ (by decide +kernel)
/-- An empty image does not parse and the small object does, which then boots; a port that trains with 8 lanes. -/
theorem witness_HostEvents_reset :
    (match objParse State.reset.firmware State.reset.firmware.length with | .error _ => true | .ok _ => false) = true
    ∧ (match objParse object object.length with
      | .ok _ => match (({ State.reset with firmware := object }).cleared 1 0).trainLinks.boot with
        | .ok s1 => s1.attestFails == none && s1.hbmFails == none
        | .error _ => false
      | .error _ => false) = true
    ∧ rd ({ State.reset with training := wr State.reset.training 17 8 } : State).training 17 0 = 8
    ∧ ({ State.reset with hbmFails := some 11 } : State).hbmFails = some 11 ∧ (11 : Fin 12).val / 3 = 3 := by decide +kernel
theorem witness_HostEvents_package : State.reset.attestFails = none ∧ State.reset.hbmFails = none
    ∧ rd ({ State.reset with throttle := Vector.replicate 4 1 }).throttle 3 0 ≠ 0
    ∧ ({ State.reset with attestFails := some 2 }).attestFails = some 2 ∧ State.reset.backed 0xBFFFFFFFFF 1 = true
    ∧ State.reset.winBacked (0x7F8000000000 + 0x20) 2 = true
    ∧ (∀ port ∈ [18, 25], ∃ lo hi, (lo, hi, port) ∈ [(0x1000000000, 0x2000000000, 18), (0x4000000000, 0x5000000000, 25)]
      ∧ lo ≤ lo ∧ lo + 64 ≤ hi) := by
  refine ⟨by decide +kernel, by decide +kernel, by decide +kernel, by decide +kernel, by decide +kernel, by decide +kernel,
    fun port h => ?_⟩
  fin_cases h
  · exact ⟨_, _, .head _, by decide⟩
  · exact ⟨_, _, .tail _ (.head _), by decide⟩

/-! The encodings, the step and the invariant. -/
theorem witness_EncodeDecode : (Instr.add (fa 63 61 60)).WellFormed = false ∧ (Instr.add (fa 47 61 60)).WellFormed = true
    ∧ (encode (.add (fa 47 61 60))).isSome = true ∧ (Instr.next (cue 42 0 63 0 0xFFFF 0)).WellFormed = true := by
  decide
/-- The word of ADD g5, g1, g2 where the thread of reset fetches. -/
def fetching : State := (two 3 4).withFetchWord 64 ((encode (.add (fa 5 1 2))).getD 0).toNat
/-- The thread at a lookup, in whose set an entry that matches leads to shot 42. -/
def looking : State := (cueing 1 0).modThread fun t => { t with atLookup := true, prm := 1, c := Vector.replicate 4 9 }
theorem at_issue {s : State} (h : (match s.thread? with
    | some a => a.status == .running && a.wskip == 0 && decide (a.holdUntil ≤ s.me.cycle) && !a.yield && s.agenda == []
      && !s.inReset && s.due == none && !s.me.shut && !s.heldForSave s.cur s.me.turnSlot && s.dueEvent == none
    | none => false) = true) : ∃ a, s.thread? = some a ∧ a.status = .running ∧ a.wskip = 0 ∧ a.holdUntil ≤ s.me.cycle
      ∧ a.yield = false ∧ s.agenda = [] ∧ s.inReset = false ∧ s.due = none ∧ s.me.shut = false
      ∧ s.heldForSave s.cur s.me.turnSlot = false ∧ s.dueEvent = none := by
  cases e : s.thread? with
  | none => simp [e] at h
  | some a => simpa [e, and_assoc] using h
theorem witness_StepRunsDecoded : (∃ a, fetching.thread? = some a ∧ a.status = .running ∧ a.wskip = 0
      ∧ a.holdUntil ≤ fetching.me.cycle ∧ a.yield = false ∧ fetching.agenda = [] ∧ fetching.inReset = false
      ∧ fetching.due = none ∧ fetching.me.shut = false ∧ fetching.heldForSave fetching.cur fetching.me.turnSlot = false
      ∧ fetching.dueEvent = none)
    ∧ fetching.thread.atLookup = false ∧ fetching.breakAt = false
    ∧ (∃ s1, fetch fetching.started = .ok (some ((encode (.add (fa 5 1 2))).getD 0), s1) ∧ true = true)
    ∧ decode ((encode (.add (fa 5 1 2))).getD 0) = .ok (.add (fa 5 1 2)) := by
  refine ⟨at_issue (by decide +kernel), by decide +kernel, by decide +kernel, fetched (fun _ => true) (by decide +kernel), by rfl⟩
theorem witness_StepLooksUp : (∃ a, looking.thread? = some a ∧ a.status = .running ∧ a.wskip = 0
      ∧ a.holdUntil ≤ looking.me.cycle ∧ a.yield = false ∧ looking.agenda = [] ∧ looking.inReset = false
      ∧ looking.due = none ∧ looking.me.shut = false ∧ looking.heldForSave looking.cur looking.me.turnSlot = false
      ∧ looking.dueEvent = none)
    ∧ looking.thread.atLookup = true
    ∧ ∃ t, (match (looking.me.winner looking.thread.cset looking.lookupKey).bind fun e => decodeCue e.live.action with
      | some q => exec q looking
      | none => looking.cueMiss) = .next t := by
  refine ⟨at_issue (by decide +kernel), by decide +kernel, is_next ?_⟩
  decide +kernel
/-- A word that no encoding has, where the thread of reset fetches. -/
def failing : State := (two 3 4).withFetchWord 64 0x0024000000000000
theorem witness_StepRunsDecoded_refused : (∃ a, failing.thread? = some a ∧ a.status = .running ∧ a.wskip = 0
      ∧ a.holdUntil ≤ failing.me.cycle ∧ a.yield = false ∧ failing.agenda = [] ∧ failing.inReset = false
      ∧ failing.due = none ∧ failing.me.shut = false ∧ failing.heldForSave failing.cur failing.me.turnSlot = false
      ∧ failing.dueEvent = none)
    ∧ failing.thread.atLookup = false ∧ failing.breakAt = false
    ∧ (∃ s1, fetch failing.started = .ok (some 0x0024000000000000, s1) ∧ true = true)
    ∧ decode 0x0024000000000000 = .error 2 := by
  refine ⟨at_issue (by decide +kernel), by decide +kernel, by decide +kernel, fetched (fun _ => true) (by decide +kernel), by rfl⟩
/-- The state in which the chosen shot's first word follows: the word stands at s0, which covers it. -/
def led (w : Nat) (p : List Bool) : State :=
  let s := { looking with pred := p }.modThread fun t => { t with seg := wr t.seg 0 { rights := 7, limit := 0x100000 } }
  let t := run ((s.me.winner s.thread.cset s.lookupKey).bind (fun e => decodeCue e.live.action) |>.elim s.cueMiss fun q => exec q s)
  (if t.thread?.any (·.status == .waiting) then t else t.modMe fun k => k.count 7 none 0 1).wrRaw (8 * 42) (leBytes 8 w)
theorem witness_StepLooksUp_follows :
    (led 0 [false]).wordFollows = true ∧ (led 0 [false]).thread.preq = none ∧ (led 0 [false]).pred = false :: []
    ∧ (∀ p ∈ [[], [true]], (led 0 p).wordFollows = true ∧ (led 0 p).thread.preq = none ∧ (led 0 p).pred.head? ≠ some false
      ∧ ({ led 0 p with pred := (led 0 p).pred.tail }).breakAt = false)
    ∧ (∃ s1, fetch ({ led ((encode (.add (fa 5 1 2))).getD 0).toNat [] with pred := [] }).started
        = .ok (some ((encode (.add (fa 5 1 2))).getD 0), s1) ∧ true = true)
    ∧ ∃ s1, fetch ({ led 0x0700000000000000 [true] with pred := [] }).started = .ok (some 0x0700000000000000, s1) ∧ true = true :=
  ⟨by decide +kernel, by decide +kernel, by decide +kernel, by decide +kernel, fetched (fun _ => true) (by decide +kernel),
    fetched (fun _ => true) (by decide +kernel)⟩
theorem witness_StepInv : Memory.wf fetching.mem = true ∧ ∃ t, step fetching = .next t :=
  ⟨by decide +kernel, is_next (by decide +kernel)⟩

end Sys2Proof.Tests
end

section
/-! SUPPORT. Reads after writes: device memory under the keys of a domain (R265, R374), the stores of the cores (R199,
R202), and the lines of an L1 under write-backs, fills and stores (R264, R278). -/

namespace Sys2Proof.Machine

/-! ### Device memory under keys (R265, R374) -/

/-- Two reads of a table under different defaults agree, or both give their defaults. -/
theorem Tab.get_default {α : Type} (d e : α) (t : Tab α) (k : Nat) :
    Tab.get d t k = Tab.get e t k ∨ (Tab.get d t k = d ∧ Tab.get e t k = e) := by
  induction t with
  | nil => exact .inr ⟨rfl, rfl⟩
  | cons x r ih =>
    simp only [Tab.get]
    split
    · exact .inl rfl
    · exact ih

theorem State.wrRaw_eq (s : State) (pa : Nat) (bs : List Byte) :
    s.wrRaw pa bs = { s with mem := (s.wrRaw pa bs).mem } := by
  induction bs generalizing s pa with
  | nil => rfl
  | cons b r ih => rw [State.wrRaw, ih]

@[simp] theorem State.wrRaw_blockKey (s : State) (pa : Nat) (bs : List Byte) :
    (s.wrRaw pa bs).blockKey = s.blockKey := by rw [State.wrRaw_eq]

@[simp] theorem State.wrRaw_cipherKey (s : State) (pa : Nat) (bs : List Byte) :
    (s.wrRaw pa bs).cipherKey = s.cipherKey := by rw [State.wrRaw_eq]

@[simp] theorem State.wrRaw_epoch (s : State) (pa : Nat) (bs : List Byte) :
    (s.wrRaw pa bs).epoch = s.epoch := by rw [State.wrRaw_eq]

/-- Byte `i` of a physical write is read back. -/
theorem State.wrRaw_get (s : State) (pa i : Nat) (bs : List Byte) (h : i < bs.length) :
    Tab.get 0 (s.wrRaw pa bs).mem (pa + i) = bs[i] := by
  have back := congrArg (·[i]?) (State.rdRaw_wrRaw s pa bs)
  simpa [State.rdRaw, h] using back

/-- What a domain reads depends on its key, the key of the cipher block and the bytes of the cipher block alone. -/
theorem State.rdPa_congr {s t : State} {d a : Nat} (epoch : t.keyOf d = s.keyOf d) (key : t.keyAt a = s.keyAt a)
    (bytes : ∀ x, x / 16 = a / 16 → Tab.get 0 t.mem x = Tab.get 0 s.mem x) : t.rdPa d a = s.rdPa d a := by
  have block : t.rdRaw (a / 16 * 16) 16 = s.rdRaw (a / 16 * 16) 16 :=
    List.map_congr_left fun i hi => bytes _ (by have := List.mem_range.mp hi; omega)
  simp only [State.rdPa, epoch, key, block, bytes a rfl]

/-- A cipher block under the domain's own key, or under none, reads as its bytes. -/
theorem State.rdPa_of_key {s : State} {d a : Nat} (h : s.keyAt a = plainKey ∨ s.keyAt a = s.keyOf d) :
    s.rdPa d a = Tab.get 0 s.mem a := if_pos h

theorem State.rdPa_noteTail (s : State) (pa d a : Nat) : (s.noteTail pa).rdPa d a = s.rdPa d a := by
  unfold State.noteTail; dsimp only; split <;> rfl

/-- What rekeying a block for a write does (R374): nothing to one under the domain's key; one that nobody has written
comes under it whole; of one under another key, the cipher block alone, rewritten as the domain reads it. -/
theorem State.rekey_cases (s : State) (d pa : Nat) :
    (s.keyAt pa = s.keyOf d ∧ s.rekey d pa = s)
    ∨ (s.keyAt pa = plainKey ∧ Tab.get plainKey s.blockKey (pa / 256) = plainKey
      ∧ s.rekey d pa = { s with blockKey := s.blockKey.put (pa / 256) (s.keyOf d) })
    ∨ s.rekey d pa = { s.wrRaw (pa / 16 * 16) (s.rdPas d (pa / 16 * 16) 16) with
        cipherKey := s.cipherKey.put (pa / 16) (s.keyOf d) } := by
  unfold State.rekey
  dsimp only
  split
  next own => exact .inl ⟨own, rfl⟩
  next =>
    split
    next plain => exact .inr (.inl ⟨plain.1, plain.2, rfl⟩)
    next => exact .inr (.inr (by rw [State.wrRaw_cipherKey]))

/-- The bytes of one cipher block stand under one key. -/
theorem State.keyAt_same_block (s : State) {a b : Nat} (h : a / 16 = b / 16) : s.keyAt a = s.keyAt b := by
  have block : a / 256 = b / 256 := by omega
  simp [State.keyAt, h, block]

/-- Once rekeyed, the cipher block reads as its bytes: it stands under the domain's key, or is listed under none
(R374). -/
theorem State.keyAt_rekey (s : State) (d pa a : Nat) (h : a / 16 = pa / 16) :
    (s.rekey d pa).keyAt a = plainKey ∨ (s.rekey d pa).keyAt a = (s.rekey d pa).keyOf d := by
  rw [State.keyAt_same_block _ h]
  rcases s.rekey_cases d pa with ⟨own, eq⟩ | ⟨plain, block, eq⟩ | eq
  · rw [eq]
    exact .inr own
  · have listed := Tab.get_default (s.keyOf d) plainKey s.cipherKey (pa / 16)
    simp only [State.keyAt, block] at plain
    rw [plain] at listed
    rw [eq]
    simp only [State.keyAt, Tab.get_put_same]
    exact listed.imp id And.left
  · rw [eq]
    exact .inr (by simp [State.keyAt, State.keyOf])

/-- In the cipher block that a domain is about to write it reads what it read before (R374). -/
theorem State.rdPa_rekey_same (s : State) (d pa a : Nat) (same : a / 16 = pa / 16) :
    (s.rekey d pa).rdPa d a = s.rdPa d a := by
  have key := s.keyAt_same_block same
  rw [State.rdPa_of_key (s.keyAt_rekey d pa a same)]
  rcases s.rekey_cases d pa with ⟨own, eq⟩ | ⟨plain, -, eq⟩ | eq
  · rw [eq, State.rdPa_of_key (.inr (key.trans own))]
  · rw [eq, State.rdPa_of_key (.inl (key.trans plain))]
  · have at_byte : a = pa / 16 * 16 + a % 16 := by omega
    have taken := s.wrRaw_get (pa / 16 * 16) (a % 16) (s.rdPas d (pa / 16 * 16) 16) (by simp [State.rdPas]; omega)
    simpa [eq, State.rdPas, ← at_byte] using taken

/-- In every other cipher block it does too (R374). -/
theorem State.rdPa_rekey_ne (s : State) (d pa a : Nat) (other : a / 16 ≠ pa / 16) :
    (s.rekey d pa).rdPa d a = s.rdPa d a := by
  rcases s.rekey_cases d pa with ⟨-, eq⟩ | ⟨-, plain, eq⟩ | eq <;> rw [eq]
  · by_cases block : a / 256 = pa / 256
    · rcases Tab.get_default (s.keyOf d) plainKey s.cipherKey (a / 16) with listed | ⟨own, unlisted⟩
      · exact State.rdPa_congr rfl (by simp [State.keyAt, block, plain, listed]) fun _ _ => rfl
      · rw [State.rdPa_of_key (.inr (by simpa [State.keyAt, State.keyOf, block] using own)),
          State.rdPa_of_key (.inl (by simp [State.keyAt, block, plain, unlisted]))]
    · exact State.rdPa_congr rfl (by simp [State.keyAt, Tab.get_put_ne _ _ _ _ _ block]) fun _ _ => rfl
  · refine State.rdPa_congr (by simp [State.keyOf])
      (by simp [State.keyAt, Tab.get_put_ne _ _ _ _ _ other]) fun x hx => ?_
    exact State.wrRaw_get_ne _ _ _ _ (by simp [State.rdPas]; omega)

/-- A byte that a domain writes reads back under its key, and every other byte reads as before (R262, R265, R374). -/
theorem State.rdPa_wrPa (s : State) (d pa a : Nat) (b : Byte) :
    (s.wrPa d pa b).rdPa d a = if a = pa then b else s.rdPa d a := by
  rw [← s.rdPa_noteTail pa d a]
  unfold State.wrPa
  generalize s.noteTail pa = u
  by_cases same : a / 16 = pa / 16
  · have key := u.keyAt_rekey d pa a same
    rw [← u.rdPa_rekey_same d pa a same, State.rdPa_of_key key, State.rdPa_of_key (by exact key)]
    split
    next here => rw [here, Tab.get_set_same]
    next there => exact Tab.get_set_ne _ _ _ _ _ there
  · rw [if_neg fun here => same (by rw [here]), ← u.rdPa_rekey_ne d pa a same]
    refine State.rdPa_congr rfl rfl fun x hx => ?_
    exact Tab.get_set_ne _ _ _ _ _ fun here => same (by rw [← hx, here])

/-- Bytes written at distinct places are read back there. -/
theorem State.rdPa_wrPa_all (s : State) (d n : Nat) (f : Nat → Nat) (g : Nat → Byte)
    (inj : ∀ i j, i < n → j < n → f i = f j → i = j) {j : Nat} (h : j < n) :
    ((List.range n).foldl (fun s i => s.wrPa d (f i) (g i)) s).rdPa d (f j) = g j := by
  induction n with
  | zero => omega
  | succ n ih =>
    rw [List.range_succ, List.foldl_append]
    simp only [List.foldl_cons, List.foldl_nil, State.rdPa_wrPa]
    split
    next last => rw [inj j n h (by omega) last]
    next earlier =>
      have : j ≠ n := fun e => earlier (by rw [e])
      exact ih (fun i k hi hk => inj i k (by omega) (by omega)) (by omega)

/-! ### Stores of the cores (R199, R202) -/

theorem State.core_setCore (s : State) (c j : Nat) (x : Core) :
    (s.setCore c x).core j = if j = c then x else s.core j := by
  split
  next here => rw [here, State.core_setCore_same]
  next there => exact State.core_setCore_ne _ _ _ _ there

theorem State.core_modCore (s : State) (c j : Nat) (f : Core → Core) :
    (s.modCore c f).core j = if j = c then f (s.core c) else s.core j := s.core_setCore c j _

/-- The bytes outside a write of a store stay. -/
theorem Core.wrStore_get_ne (k : Core) (off a : Nat) (bs : List Byte) (h : a < off ∨ off + bs.length ≤ a) :
    Tab.get 0 (k.wrStore off bs).store a = Tab.get 0 k.store a := by
  induction bs generalizing k off with
  | nil => rfl
  | cons b r ih =>
    rw [List.length_cons] at h
    rw [Core.wrStore, ih _ _ (by omega)]
    exact Tab.get_set_ne _ _ _ _ _ (by omega)

/-- Byte `i` of a write of a store is read back. -/
theorem Core.wrStore_get (k : Core) (off i : Nat) (bs : List Byte) (h : i < bs.length) :
    Tab.get 0 (k.wrStore off bs).store (off + i) = bs[i] := by
  induction bs generalizing k off i with
  | nil => simp at h
  | cons b r ih =>
    cases i with
    | zero =>
      rw [Nat.add_zero, Core.wrStore, Core.wrStore_get_ne _ _ _ _ (.inl (Nat.lt_succ_self off))]
      exact Tab.get_set_same _ _ _ _
    | succ i =>
      rw [show off + (i + 1) = off + 1 + i by omega, Core.wrStore, ih]
      rfl

/-- What has been written to a store is read back. -/
theorem State.rdStore_wrStore (s : State) (c off : Nat) (bs : List Byte) :
    (s.wrStore c off bs).rdStore c off bs.length = bs := by
  refine List.ext_getElem (by simp [State.rdStore]) fun i hi _ => ?_
  have hi : i < bs.length := by simpa [State.rdStore] using hi
  simpa [State.rdStore, State.wrStore] using (s.core c).wrStore_get off i bs hi

/-- The place of a window address is the same for every core (R13, R202). -/
theorem storeLoc_of_inWin {x : Nat} (h : inWin x = true) (c c' : Nat) : storeLoc c x = storeLoc c' x := by
  have outside : ¬ x < 0x180000 := by
    have : winLo ≤ x := by simp_all [inWin]
    unfold winLo at this
    omega
  simp [storeLoc, outside]

/-- Through the window every core reads what has been stored (R202). -/
theorem State.load_storeTo_window (s : State) (c c' scope scope' : Nat) (dom : Byte) {l : Lane} {bs : List Byte}
    (win : l.win = true) (len : bs.length = l.n) :
    ((s.storeTo c dom scope l bs).load c' dom scope' l).1 = bs := by
  have place := storeLoc_of_inWin win c' c
  simp only [State.load, State.storeTo, State.storeBytes, win, if_true, place, ← len]
  exact State.rdStore_wrStore _ _ _ _

/-! ### Lines of an L1 (R264, R278) -/

/-- A write of device memory leaves every core alone. -/
@[simp] theorem State.wrPa_core (s : State) (d pa c : Nat) (b : Byte) : (s.wrPa d pa b).core c = s.core c := by
  have noteTail : (s.noteTail pa).core c = s.core c := by unfold State.noteTail; dsimp only; split <;> rfl
  have rekey (t : State) : (t.rekey d pa).core c = t.core c := by
    rcases t.rekey_cases d pa with ⟨-, eq⟩ | ⟨-, -, eq⟩ | eq
    · rw [eq]
    · rw [eq]; rfl
    · rw [eq, State.wrRaw_eq]; rfl
  exact (rekey _).trans noteTail

@[simp] theorem State.flushLine_core (s : State) (l : Line) (c : Nat) : (s.flushLine l).core c = s.core c := by
  unfold State.flushLine
  generalize List.range 32 = bytes
  induction bytes generalizing s with
  | nil => rfl
  | cons i r ih => rw [List.foldl_cons, ih]; split <;> simp

theorem State.setCore_lines (s : State) (c j : Nat) (x : Core) (h : x.lines = (s.core c).lines) :
    ((s.setCore c x).core j).lines = (s.core j).lines := by
  rw [State.core_setCore]
  split
  next here => rw [h, here]
  next => rfl

@[simp] theorem State.notice_lines (s : State) (c dom cause sub slot : Nat) (taddr : Word) (j : Nat) :
    ((s.notice c dom cause sub slot taddr).core j).lines = (s.core j).lines := by
  unfold State.notice
  dsimp only
  split
  · rw [State.modCore, State.setCore_lines, State.setCore_lines] <;> rfl
  · exact State.setCore_lines _ _ _ _ rfl

@[simp] theorem State.packetLost_lines (s : State) (c dom slot : Nat) (taddr : Word) (j : Nat) :
    ((s.packetLost c dom slot taddr).core j).lines = (s.core j).lines := State.notice_lines _ _ _ _ _ _ _ _

theorem Core.lineAt_congr {k k' : Core} (h : k.lines = k'.lines) (dom : Byte) (va : Nat) :
    k.lineAt dom va = k'.lineAt dom va := by rw [Core.lineAt, Core.lineAt, h]

/-- The addresses of one line find one line. -/
theorem Core.lineAt_same_line (k : Core) (dom : Byte) {a b : Nat} (h : lineOf a = lineOf b) :
    k.lineAt dom a = k.lineAt dom b := by rw [Core.lineAt, Core.lineAt, h]

/-- A line that the L1 holds for an address is the domain's and begins at the address's line. -/
theorem Core.lineAt_some {k : Core} {dom : Byte} {va : Nat} {l : Line} (h : k.lineAt dom va = some l) :
    l ∈ k.lines ∧ l.dom = dom ∧ l.va = lineOf va := by
  have key := List.find?_some h
  exact ⟨List.mem_of_find?_eq_some h, by simpa using key⟩

/-- A line replaced or dropped is found so; every other line is found as before. -/
theorem Core.lineAt_putLine (k : Core) (l : Line) (l' : Option Line) (same : ∀ x ∈ l', x.dom = l.dom ∧ x.va = l.va)
    (dom : Byte) (va : Nat) :
    (k.putLine l l').lineAt dom va = if l.dom = dom ∧ l.va = lineOf va then l' else k.lineAt dom va := by
  unfold Core.putLine Core.lineAt
  rw [List.find?_append, List.find?_filter]
  split
  next key =>
    obtain ⟨rfl, hva⟩ := key
    have gone : k.lines.find? (fun x => decide ((x.dom != l.dom || x.va != l.va) = true
        ∧ (x.dom == l.dom && x.va == lineOf va) = true)) = none := by
      simp only [List.find?_eq_none, decide_eq_true_eq]
      rintro x - ⟨other, own⟩
      simp_all
    rw [gone, Option.none_or]
    cases l' with
    | none => rfl
    | some x => simp [same x rfl, hva]
  next key =>
    have replaced : l'.toList.find? (fun x => x.dom == dom && x.va == lineOf va) = none := by
      cases l' with
      | none => rfl
      | some x => simpa [same x rfl] using key
    have others : (fun x : Line => decide ((x.dom != l.dom || x.va != l.va) = true
        ∧ (x.dom == dom && x.va == lineOf va) = true)) = fun x => x.dom == dom && x.va == lineOf va := by
      funext x
      refine Bool.eq_iff_iff.mpr (decide_eq_true_iff.trans (and_iff_right_of_imp fun own => ?_))
      obtain ⟨rfl, hva⟩ : x.dom = dom ∧ x.va = lineOf va := by simpa using own
      rw [← hva] at key
      have other : ¬ (x.dom = l.dom ∧ x.va = l.va) := fun same => key ⟨same.1.symm, same.2.symm⟩
      simpa [imp_iff_not_or] using other
    rw [others, replaced, Option.or_none]

/-- What the L1 holds for an address after a write-back (R278). -/
theorem State.lineAt_writeBack (s : State) (c : Nat) (l : Line) (keep : Bool) (dom : Byte) (va : Nat) :
    ((s.writeBack c l keep).core c).lineAt dom va =
      if l.dom = dom ∧ l.va = lineOf va then (if keep then some { l with written := 0 } else none)
      else (s.core c).lineAt dom va := by
  unfold State.writeBack
  generalize ht : (if s.tampered.contains c && l.written != 0 then s.packetLost c l.dom.toNat 0 0 else s.flushLine l) = t
  have lines : (t.core c).lines = (s.core c).lines := by subst ht; split <;> simp
  rw [State.core_modCore_same, ← Core.lineAt_congr lines,
    ← Core.lineAt_putLine _ l _ (by split <;> simp)]
  refine Core.lineAt_congr ?_ dom va
  dsimp only
  split <;> simp

/-- What the L1 holds for an address after the line of some address has been written back and kept or dropped. -/
theorem State.lineAt_flushVa (s : State) (c : Nat) (d : Byte) (a : Nat) (keep : Bool) (dom : Byte) (va : Nat) :
    ((s.flushVa c d a keep).core c).lineAt dom va =
      if d = dom ∧ lineOf a = lineOf va then
        (if keep then ((s.core c).lineAt dom va).map fun l => { l with written := 0 } else none)
      else (s.core c).lineAt dom va := by
  have here (own : d = dom ∧ lineOf a = lineOf va) : (s.core c).lineAt dom va = (s.core c).lineAt d a :=
    own.1 ▸ (s.core c).lineAt_same_line d own.2.symm
  unfold State.flushVa
  split
  next l held =>
    obtain ⟨-, hd, ha⟩ := Core.lineAt_some held
    split
    next clean =>
      obtain ⟨rfl, unwritten⟩ : keep = true ∧ l.written = 0 := by simpa using clean
      split
      next own => simp [here own, held, ← unwritten]
      next => rfl
    next =>
      rw [State.lineAt_writeBack, hd, ha]
      split
      next own => simp [here own, held, hd, ha]
      next => rfl
  next absent =>
    split
    next own => simp [here own, absent]
    next => rfl

/-- Where the L1 holds no line for an address, or one with no written byte, a write-back that keeps lines changes
nothing. -/
theorem State.flushVa_clean {s : State} {c : Nat} {dom : Byte} {va : Nat}
    (h : ∀ l ∈ (s.core c).lineAt dom va, l.written = 0) : s.flushVa c dom va true = s := by
  unfold State.flushVa
  split
  next l held => simp [h l held]
  next => rfl

/-- The same for the lines of several addresses. -/
theorem State.flushVa_all_clean {s : State} {c : Nat} {dom : Byte} (vas : List Nat)
    (h : ∀ va ∈ vas, ∀ l ∈ (s.core c).lineAt dom va, l.written = 0) :
    vas.foldl (fun s va => s.flushVa c dom va true) s = s := by
  induction vas with
  | nil => rfl
  | cons va r ih =>
    rw [List.foldl_cons, State.flushVa_clean (h va (by simp))]
    exact ih fun v hv => h v (by simp [hv])

/-- The lines of the addresses of a list are gone once each has been dropped. -/
theorem State.lineAt_flushVa_all (s : State) (c : Nat) (dom : Byte) (vas : List Nat) (va : Nat)
    (h : va ∈ vas ∨ (s.core c).lineAt dom va = none) :
    ((vas.foldl (fun s va => s.flushVa c dom va false) s).core c).lineAt dom va = none := by
  induction vas generalizing s with
  | nil => simpa using h
  | cons v r ih =>
    refine ih _ ?_
    rw [State.lineAt_flushVa]
    rcases h with h | h
    · rcases List.mem_cons.mp h with rfl | h
      · exact .inr (by simp)
      · exact .inl h
    · exact .inr (by simp [h])

/-- A write-back leaves the lines of every other core alone. -/
theorem State.flushVa_lines_ne (s : State) (c j : Nat) (dom : Byte) (va : Nat) (keep : Bool) (h : j ≠ c) :
    ((s.flushVa c dom va keep).core j).lines = (s.core j).lines := by
  unfold State.flushVa
  split
  next l _ =>
    split
    next => rfl
    next =>
      unfold State.writeBack
      rw [State.core_modCore_ne _ _ _ _ h]
      split <;> simp
  next => rfl

theorem State.flushVa_all_lines_ne (s : State) (c j : Nat) (dom : Byte) (vas : List Nat) (keep : Bool) (h : j ≠ c) :
    ((vas.foldl (fun s va => s.flushVa c dom va keep) s).core j).lines = (s.core j).lines := by
  induction vas generalizing s with
  | nil => rfl
  | cons v r ih => exact (ih _).trans (s.flushVa_lines_ne c j dom v keep h)

theorem State.wrPa_all_core (s : State) (d c n : Nat) (f : Nat → Nat) (g : Nat → Byte) :
    ((List.range n).foldl (fun s i => s.wrPa d (f i) (g i)) s).core c = s.core c := by
  generalize List.range n = is
  induction is generalizing s with
  | nil => rfl
  | cons i r ih => rw [List.foldl_cons, ih, State.wrPa_core]

/-- Bytes of one page stand one after the other (R256). -/
theorem Lane.phys_of_page {l : Lane} {i : Nat} (page : l.ea / 65536 = (l.ea + l.n - 1) / 65536) (h : i < l.n) :
    l.phys i = l.pa + i := if_pos (by omega)

theorem map_range_getD {bs : List Byte} {n : Nat} (h : bs.length = n) :
    (List.range n).map (fun i => bs.getD i 0) = bs := by
  subst h
  exact List.ext_getElem (by simp) fun i hi _ => by simp_all

/-- At cluster or wider a core of the domain whose L1 holds no written byte reads what has been stored, and so does the
storing core, whose lines of the element the store has dropped (R269, R278). -/
theorem State.load_storeTo_wide (s : State) (c c' scope scope' : Nat) (dom : Byte) {l : Lane} {bs : List Byte}
    (win : l.win = false) (wide : 2 ≤ scope) (wide' : 2 ≤ scope') (page : l.ea / 65536 = (l.ea + l.n - 1) / 65536)
    (clean : ∀ x ∈ (s.core c').lines, c' ≠ c → x.written = 0) (len : bs.length = l.n) :
    ((s.storeTo c dom scope l bs).load c' dom scope' l).1 = bs := by
  have narrow : ¬ scope ≤ 1 := by omega
  have narrow' : ¬ scope' ≤ 1 := by omega
  simp only [State.load, State.storeTo, State.storeBytes, win, narrow, narrow', decide_false, Bool.false_and,
    Bool.false_eq_true, if_false]
  generalize hu : (List.range l.n).foldl _ _ = u
  have core : u.core c' = ((l.lines.foldl (fun s va => s.flushVa c dom va false) s).core c') := by
    rw [← hu]; exact State.wrPa_all_core _ _ _ _ _ _
  rw [State.flushVa_all_clean l.lines fun va hva x hx => ?_]
  · conv_rhs => rw [← map_range_getD len]
    refine List.map_congr_left fun i hi => ?_
    rw [← hu]
    refine State.rdPa_wrPa_all _ _ _ _ _ (fun i j hi hj => ?_) (List.mem_range.mp hi)
    rw [Lane.phys_of_page page hi, Lane.phys_of_page page hj]
    omega
  · rw [core] at hx
    by_cases own : c' = c
    · rw [own, State.lineAt_flushVa_all _ _ _ _ _ (.inl hva)] at hx
      cases hx
    · refine clean x ?_ own
      rw [← State.flushVa_all_lines_ne s c c' dom l.lines false own]
      exact (Core.lineAt_some hx).1

/-! ### Bytes of a line (R264, R278) -/

/-- Byte `i` after a byte has been set at byte `j`. -/
theorem extractLsb'_setFld_byte {n : Nat} (w : BitVec n) (i j : Nat) (b : Byte) (h : 8 * j + 8 ≤ n) :
    (setFld w (8 * j) 8 b.toNat).extractLsb' (8 * i) 8 = if i = j then b else w.extractLsb' (8 * i) 8 := by
  ext k hk
  have ones (m : Nat) : Nat.testBit 255 m = decide (m < 8) := Nat.testBit_two_pow_sub_one 8 m
  have byte : b.toNat % 256 = b.toNat := Nat.mod_eq_of_lt b.isLt
  simp only [setFld, BitVec.getElem_extractLsb', BitVec.getLsbD_or, BitVec.getLsbD_and, BitVec.getLsbD_not,
    BitVec.getLsbD_shiftLeft, BitVec.getLsbD_ofNat, Nat.reducePow, Nat.reduceSub, ones, byte]
  split
  next same =>
    subst same
    have inside : 8 * i + k < n := by omega
    have low : k < n := by omega
    have bit : b.toNat.testBit k = b[k] := BitVec.getLsbD_eq_getElem hk
    simp [inside, low, hk, bit]
  next apart =>
    rw [BitVec.getElem_extractLsb']
    by_cases below : 8 * i + k < 8 * j
    · simp [below, show 8 * i + k < n by omega]
    · have above : ¬ 8 * i + k - 8 * j < 8 := by omega
      have bit : b.toNat.testBit (8 * i + k - 8 * j) = false :=
        Nat.testBit_lt_two_pow (b.isLt.trans_le (Nat.pow_le_pow_right (by decide) (by omega)))
      have width := w.getLsbD_of_ge (8 * i + k)
      by_cases inside : 8 * i + k < n
      · simp [above, bit, inside]
      · simp [width (by omega)]
        omega

/-- What the L1 holds once a line has been filled (R278). -/
theorem State.lineAt_fillLine (s : State) (c : Nat) (dom : Byte) (va pa : Nat) :
    ((s.fillLine c dom va pa).2.core c).lineAt dom va = some (s.fillLine c dom va pa).1 := by
  unfold State.fillLine
  split
  next l held => exact held
  next =>
    dsimp only
    rw [State.core_modCore_same, Core.lineAt_putLine _ _ _ (by simp)]
    simp

/-- A held line is not filled again (R278). -/
theorem State.fillLine_held {s : State} {c : Nat} {dom : Byte} {va : Nat} {x : Line}
    (h : (s.core c).lineAt dom va = some x) (pa : Nat) : s.fillLine c dom va pa = (x, s) := by
  simp [State.fillLine, h]

/-- A line that becomes dirty keeps its bytes, whichever line is written back for it (R264). -/
theorem State.lineAt_dirtyLine {s : State} {c : Nat} {dom : Byte} {va : Nat} {x : Line}
    (h : (s.core c).lineAt dom va = some x) :
    ∃ y, ((s.dirtyLine c dom va).core c).lineAt dom va = some y ∧ y.data = x.data := by
  have flushed (d : Byte) (a : Nat) :
      ∃ y, ((s.flushVa c d a true).core c).lineAt dom va = some y ∧ y.data = x.data := by
    rw [State.lineAt_flushVa, h]
    split
    · exact ⟨_, rfl, rfl⟩
    · exact ⟨x, rfl, rfl⟩
  unfold State.dirtyLine
  dsimp only
  split
  · exact ⟨x, h, rfl⟩
  · rw [State.core_modCore_same]
    split
    · exact ⟨x, h, rfl⟩
    · split
      · exact ⟨x, h, rfl⟩
      · exact flushed _ _

/-- A byte stored in the L1: the line that holds it has that byte, and the others as they were once it was filled. -/
theorem State.lineAt_wrL1 (s : State) (c : Nat) (dom : Byte) (va pa : Nat) (b : Byte) :
    ∃ y, ((s.wrL1 c dom va pa b).core c).lineAt dom va = some y
      ∧ ∀ i, y.byte i = if i = va % 32 then b else (s.fillLine c dom va pa).1.byte i := by
  obtain ⟨x, held, data⟩ := State.lineAt_dirtyLine (s.lineAt_fillLine c dom va pa)
  obtain ⟨-, hdom, hva⟩ := Core.lineAt_some held
  unfold State.wrL1
  simp only [held]
  refine ⟨_, by rw [State.core_modCore_same, Core.lineAt_putLine _ _ _ (by simp), if_pos ⟨hdom, hva⟩], fun i => ?_⟩
  rw [Line.byte, extractLsb'_setFld_byte _ _ _ _ (by omega), data]
  rfl

/-- The lines of the L1 hold `bs` at the first `k` addresses from `a` on, which lie in one line. -/
def State.holdsBytes (s : State) (c : Nat) (dom : Byte) (a k : Nat) (bs : List Byte) : Prop :=
  ∃ x, (s.core c).lineAt dom a = some x ∧ ∀ j, j < k → x.byte (a % 32 + j) = bs.getD j 0

/-- An address of an element in one line: its line, and its place there (R264). -/
theorem lineOf_within {a n i : Nat} (h : lineOf a = lineOf (a + n - 1)) (hi : i < n) :
    lineOf (a + i) = lineOf a ∧ (a + i) % 32 = a % 32 + i := by
  unfold lineOf at *
  omega

/-- After the first `k + 1` bytes of an element have been stored in the L1, its line holds them. -/
theorem State.holdsBytes_wrL1 (s : State) (c : Nat) (dom : Byte) {a n : Nat} (f : Nat → Nat) (bs : List Byte)
    (line : lineOf a = lineOf (a + n - 1)) {k : Nat} (h : k < n) :
    ((List.range (k + 1)).foldl (fun s i => s.wrL1 c dom (a + i) (f i) (bs.getD i 0)) s).holdsBytes
      c dom a (k + 1) bs := by
  induction k with
  | zero =>
    obtain ⟨y, held, bytes⟩ := s.lineAt_wrL1 c dom (a + 0) (f 0) (bs.getD 0 0)
    refine ⟨y, held, fun j hj => ?_⟩
    obtain rfl : j = 0 := by omega
    simp [bytes]
  | succ k ih =>
    rw [List.range_succ, List.foldl_append]
    generalize hu : (List.range (k + 1)).foldl _ s = u at ih ⊢
    obtain ⟨x, held, before⟩ := ih (by omega)
    obtain ⟨own, place⟩ := lineOf_within line h
    obtain ⟨y, held', bytes⟩ := u.lineAt_wrL1 c dom (a + (k + 1)) (f (k + 1)) (bs.getD (k + 1) 0)
    rw [State.fillLine_held ((u.core c).lineAt_same_line dom own ▸ held), place] at bytes
    refine ⟨y, (Core.lineAt_same_line _ dom own) ▸ held', fun j hj => ?_⟩
    rw [bytes]
    split
    next last => rw [show j = k + 1 by omega]
    next earlier => exact before j (by omega)

/-- Bytes that a line of the L1 holds are read one after the other, and nothing changes. -/
theorem State.rdL1_held {s : State} {c : Nat} {dom : Byte} {a n : Nat} {bs : List Byte} (f : Nat → Nat)
    (line : lineOf a = lineOf (a + n - 1)) (held : s.holdsBytes c dom a n bs) {k : Nat} (h : k ≤ n) :
    (List.range k).foldl (fun (p : List Byte × State) i =>
      (p.1 ++ [(p.2.rdL1 c dom (a + i) (f i)).1], (p.2.rdL1 c dom (a + i) (f i)).2)) ([], s)
      = ((List.range k).map fun i => bs.getD i 0, s) := by
  obtain ⟨x, at_a, bytes⟩ := held
  induction k with
  | zero => rfl
  | succ k ih =>
    obtain ⟨own, place⟩ := lineOf_within line h
    rw [List.range_succ, List.foldl_append, ih (by omega)]
    simp [State.rdL1, State.fillLine_held ((s.core c).lineAt_same_line dom own ▸ at_a), place, bytes k h]

theorem State.countL1_lineAt (s : State) (c : Nat) (dom d : Byte) (l : Lane) (va : Nat) :
    ((s.countL1 c dom l).core c).lineAt d va = (s.core c).lineAt d va := by
  rw [State.countL1, State.core_modCore_same]
  exact Core.lineAt_congr (by simp) d va

theorem State.countL1_fillBad (s : State) (c : Nat) (dom : Byte) (l : Lane) :
    (s.countL1 c dom l).fillBad c dom l = s.fillBad c dom l := by
  simp only [State.fillBad, State.missing, State.countL1_lineAt]
  rfl

/-- At core scope the storing core reads what it has stored in its L1 (R269, R278). -/
theorem State.load_storeTo_core (s : State) (c scope scope' : Nat) (dom : Byte) {l : Lane} {bs : List Byte}
    (win : l.win = false) (narrow : scope ≤ 1) (narrow' : scope' ≤ 1) (line : lineOf l.ea = lineOf (l.ea + l.n - 1))
    (fills : s.fillBad c dom l = false) (len : bs.length = l.n) :
    ((s.storeTo c dom scope l bs).load c dom scope' l).1 = bs := by
  simp only [State.load, State.storeTo, State.storeBytes, win, narrow, narrow', fills, State.countL1_fillBad,
    decide_true, Bool.not_false, Bool.and_self, Bool.false_eq_true, if_true, if_false]
  rcases Nat.eq_zero_or_pos l.n with empty | nonempty
  · rw [empty] at len ⊢
    exact (List.length_eq_zero_iff.mp len).symm
  · generalize hu : (List.range l.n).foldl _ (s.countL1 c dom l) = u
    have held : (u.countL1 c dom l).holdsBytes c dom l.ea l.n bs := by
      have stored := (s.countL1 c dom l).holdsBytes_wrL1 c dom l.phys bs line (k := l.n - 1) (by omega)
      rw [Nat.sub_add_cancel nonempty, hu] at stored
      simpa only [State.holdsBytes, State.countL1_lineAt] using stored
    exact (congrArg Prod.fst (State.rdL1_held l.phys line held le_rfl)).trans (map_range_getD len)

/-- Settles O23: through the window by the place that every core gives an address, at cluster or wider by the bytes in
device memory, at core scope by the line of the L1. -/
theorem loadAfterStore : Obligations.LoadAfterStore := by
  unfold Obligations.LoadAfterStore
  intro s c c' scope scope' dom l bs len
  refine ⟨fun win _ => ?_, fun win wide wide' page clean => ?_, fun win narrow narrow' _ line fills => ?_⟩
  · exact s.load_storeTo_window c c' scope scope' dom win len
  · exact s.load_storeTo_wide c c' scope scope' dom win wide wide' page clean len
  · exact s.load_storeTo_core c scope scope' dom win narrow narrow' line fills len

end Sys2Proof.Machine
end

section
/-! SUPPORT. A translation that is refused at once is counted as a page fault (R395, R398), which the statement on the
traps of accesses does not say. -/

namespace Sys2Proof.Machine

/-- Domain 3 runs on core 0 while translation is still the identity (R398); its segment 1 gives it one page to read. -/
def underIdentity : State := State.reset.modThread fun t =>
  { t with dom := 3, seg := wr t.seg 1 { dom := 3, rights := 1, limit := 0x10000 } }

/-- LD of the first byte of segment 1 to g1. -/
def loadFirstByte : FmtM :=
  { e := false, w := 0, d := 1, a := 0, seg := 1, scope := 0, order := 0, size := 0, sext := false, off := 0 }

/-- The page faults that an outcome has counted in the cycle of the issuing core (event 19 of R395). -/
def faultsCounted : Result → Nat
  | .next t => (t.me.tally.filter (·.1 == 19)).length
  | _ => 0

theorem faultsCounted_refused_load : faultsCounted (exec (.ld loadFirstByte) underIdentity) = 1 := by decide +kernel

/-- What the page of the load answers: refused at once (R398). -/
theorem pageStop_refused_load : ((underIdentity.taken [0]).pageStop needR [0]).1 = some (8, 0) := by decide +kernel

theorem faultsCounted_stated_outcome : faultsCounted (.next ((underIdentity.trail
    ((underIdentity.taken [0]).pageStop needR [0]).2).started.take 8 0 0 0 0 0)) = 0 := by decide +kernel

/-- The load passes every check before its translation, so that the last clause of the statement fixes its outcome. -/
theorem AccessStops.refused_load {r : Result}
    (h : AccessStops underIdentity (underIdentity.taken [0]) 1 [0] 1 1 needR r) :
    r = .next ((underIdentity.trail ((underIdentity.taken [0]).pageStop needR [0]).2).started.take 8 0 0 0 0 0) := by
  obtain ⟨-, aligned⟩ := h
  obtain ⟨-, inSegment⟩ := aligned (by decide)
  obtain ⟨-, inStore⟩ := inSegment (by decide +kernel)
  obtain ⟨-, unhit⟩ := inStore (by decide +kernel)
  obtain ⟨traps, -, -⟩ := unhit (by decide +kernel) (by decide +kernel) 8 0 _ (Prod.ext pageStop_refused_load rfl)
  exact traps (by decide)

/-- Refutes O30: the page-fault trap of a translation that is refused at once, domain 3 under the identity rule
(R398), leaves a page fault counted (event 19 of R395) in the state that the trap is taken from; the statement takes it
from the state after the translations alone, `pageStop`, which counts none. -/
theorem not_accessTraps : ¬ Obligations.AccessTraps := by
  unfold Obligations.AccessTraps
  rintro ⟨stops, -, -⟩
  obtain ⟨loads, -, -⟩ := stops underIdentity underIdentity.thread (by decide +kernel) (by decide +kernel)
  obtain ⟨ld, -⟩ := loads loadFirstByte
  have stop : AccessStops underIdentity (underIdentity.taken [0]) 1 [0] 1 1 needR
      (exec (.ld loadFirstByte) underIdentity) :=
    ld ⟨by decide +kernel, by decide +kernel⟩ (.inr (by decide +kernel))
  have counted := faultsCounted_refused_load
  rw [stop.refused_load, faultsCounted_stated_outcome] at counted
  exact absurd counted (by decide)

end Sys2Proof.Machine
end

section
/-! SUPPORT. What a lost packet, a write-back and a fill leave alone (R278, R373): of the cores their slots, the lines of their
L1 and counts change, of the package the bytes of memory. -/

namespace Sys2Proof.Machine

/-! ### Tables and vectors -/

/-- A table without the keys that `p` refuses reads as its default there, and as before elsewhere. -/
theorem Tab.get_filter_key {α : Type} (d : α) (t : Tab α) (p : Nat → Bool) (k : Nat) :
    Tab.get d (List.filter (fun e : Nat × α => p e.1) t) k = if p k = true then Tab.get d t k else d := by
  induction t with
  | nil => simp [Tab.get]
  | cons e r ih =>
    obtain ⟨j, x⟩ := e
    by_cases here : j = k
    · subst here
      by_cases keep : p j = true <;> simp_all [Tab.get]
    · by_cases keep : p j = true <;> simp_all [Tab.get]

/-! ### Cores of which only the slots and the L1 have changed -/

/-- Core `k'` differs from `k` in its slots, which hold the same threads, in the lines and the dirty list of its L1, in the
mark of a dropped notice and in the events counted. -/
def Core.SlotsL1Only (k k' : Core) : Prop :=
  k' = { k with slots := k'.slots, lines := k'.lines, dirty := k'.dirty, noticeLost := k'.noticeLost, tally := k'.tally }
    ∧ ∀ tid, k'.slotOf tid = k.slotOf tid

theorem Core.SlotsL1Only.refl (k : Core) : k.SlotsL1Only k := ⟨rfl, fun _ => rfl⟩

theorem Core.SlotsL1Only.trans {k k' k'' : Core} (h : k.SlotsL1Only k') (h' : k'.SlotsL1Only k'') : k.SlotsL1Only k'' := by
  obtain ⟨eq, threads⟩ := h
  obtain ⟨eq', threads'⟩ := h'
  refine ⟨?_, fun tid => (threads' tid).trans (threads tid)⟩
  rw [eq', eq]

/-- A change of the L1, the notice mark and the counts alone. -/
theorem Core.SlotsL1Only.of_eq {k k' : Core}
    (h : k' = { k with lines := k'.lines, dirty := k'.dirty, noticeLost := k'.noticeLost, tally := k'.tally }) :
    k.SlotsL1Only k' := by
  have slots : k'.slots = k.slots := (congrArg Core.slots h).trans rfl
  refine ⟨?_, fun tid => ?_⟩
  · rw [slots]; exact h
  · simp only [Core.slotOf, Core.threadAt, Core.slot, slots]

theorem Core.SlotsL1Only.count (k : Core) (code : Nat) (slot : Option Nat) (d n : Nat) :
    k.SlotsL1Only (k.count code slot d n) := .of_eq (by unfold Core.count; split <;> rfl)

/-- The threads of a core stay on their slots where one of them changes without its number. -/
theorem Core.slotOf_setThread {k : Core} {i : Nat} {t t' : Thread} (held : k.threadAt i = some t) (same : t'.tid = t.tid)
    (tid : Nat) : (k.setThread i (some t')).slotOf tid = k.slotOf tid := by
  have lt : i < 8 := by
    by_contra out
    simp [Core.threadAt, Core.slot, rd, out] at held
  unfold Core.slotOf
  congr 1
  funext j
  by_cases here : j = i
  · subst here; simp [lt, held, same]
  · rw [Core.threadAt_setThread_ne _ _ _ _ here]

theorem Core.SlotsL1Only.setThread {k : Core} {i : Nat} {t t' : Thread} (held : k.threadAt i = some t)
    (same : t'.tid = t.tid) : k.SlotsL1Only (k.setThread i (some t')) :=
  ⟨rfl, Core.slotOf_setThread held same⟩

/-! ### States -/

/-- State `t` differs from `s` in the bytes of memory with their keys, the tails to be read again, the packets that fail, and in
its cores' slots and L1 (`Core.SlotsL1Only`). -/
def State.SlotsL1Only (s t : State) : Prop :=
  t = { s with cores := t.cores, mem := t.mem, blockKey := t.blockKey, cipherKey := t.cipherKey, rereads := t.rereads,
               tampered := t.tampered }
    ∧ ∀ j, (s.core j).SlotsL1Only (t.core j)


theorem State.SlotsL1Only.refl (s : State) : s.SlotsL1Only s := ⟨rfl, fun _ => .refl _⟩

theorem State.SlotsL1Only.trans {s t u : State} (h : s.SlotsL1Only t) (h' : t.SlotsL1Only u) : s.SlotsL1Only u := by
  obtain ⟨eq, cores⟩ := h
  obtain ⟨eq', cores'⟩ := h'
  refine ⟨?_, fun j => (cores j).trans (cores' j)⟩
  rw [eq', eq]

theorem State.SlotsL1Only.setCore {s : State} {c : Nat} {x : Core} (h : (s.core c).SlotsL1Only x) : s.SlotsL1Only (s.setCore c x) := by
  refine ⟨rfl, fun j => ?_⟩
  rw [State.core_setCore]
  split
  next here => exact here ▸ h
  next => exact .refl _

theorem State.SlotsL1Only.modCore {s : State} {c : Nat} {f : Core → Core} (h : ∀ k : Core, k.SlotsL1Only (f k)) : s.SlotsL1Only (s.modCore c f) :=
  State.SlotsL1Only.setCore (h _)

/-- Steps that each leave everything else alone do so together. -/
theorem State.SlotsL1Only.foldl {α : Type} {f : State → α → State} (step : ∀ (s : State) (a : α), s.SlotsL1Only (f s a)) (l : List α) (s : State) :
    s.SlotsL1Only (l.foldl f s) := by
  induction l generalizing s with
  | nil => exact .refl s
  | cons a r ih => exact (step s a).trans (ih _)

theorem State.SlotsL1Only.wrRaw (s : State) (pa : Nat) (bs : List Byte) : s.SlotsL1Only (s.wrRaw pa bs) := by
  rw [State.wrRaw_eq]
  exact ⟨rfl, fun _ => .refl _⟩

theorem State.SlotsL1Only.wrPa (s : State) (d pa : Nat) (b : Byte) : s.SlotsL1Only (s.wrPa d pa b) := by
  have tail : s.SlotsL1Only (s.noteTail pa) := by
    unfold State.noteTail
    dsimp only
    split
    · exact ⟨rfl, fun _ => .refl _⟩
    · exact .refl s
  have rekey (u : State) : u.SlotsL1Only (u.rekey d pa) := by
    rcases u.rekey_cases d pa with ⟨-, eq⟩ | ⟨-, -, eq⟩ | eq <;> rw [eq]
    · exact .refl u
    · exact ⟨rfl, fun _ => .refl _⟩
    · exact .trans (.wrRaw u _ _) ⟨rfl, fun _ => .refl _⟩
  exact tail.trans ((rekey _).trans ⟨rfl, fun _ => .refl _⟩)

theorem State.SlotsL1Only.wrPas (s : State) (d pa : Nat) (bs : List Byte) : s.SlotsL1Only (s.wrPas d pa bs) := by
  induction bs generalizing s pa with
  | nil => exact .refl s
  | cons b r ih => exact .trans (.wrPa s d pa b) (ih _ _)

theorem State.SlotsL1Only.flushLine (s : State) (l : Line) : s.SlotsL1Only (s.flushLine l) := by
  refine .foldl (fun s i => ?_) _ _
  split
  · exact .wrPa _ _ _ _
  · exact .refl s

/-- A notice reaches a port of a thread, or is dropped (R364). -/
theorem State.SlotsL1Only.notice (s : State) (c dom cause sub slot : Nat) (taddr : Word) : s.SlotsL1Only (s.notice c dom cause sub slot taddr) := by
  unfold State.notice
  dsimp only
  split
  next t sent =>
    obtain ⟨b, found, pushed⟩ := Option.bind_eq_some_iff.mp sent
    have held := (Option.filter_eq_some_iff.mp found).1
    have same : t.tid = b.tid := by
      unfold Thread.push at pushed
      split at pushed
      · cases pushed; rfl
      · cases pushed
    exact .trans (.setCore (.setThread held same)) (.modCore fun k => .of_eq rfl)
  next => exact .setCore (.of_eq rfl)

theorem State.SlotsL1Only.packetLost (s : State) (c dom slot : Nat) (taddr : Word) : s.SlotsL1Only (s.packetLost c dom slot taddr) :=
  .trans ⟨rfl, fun _ => .refl _⟩ (.notice _ _ _ _ _ _ _)

theorem State.SlotsL1Only.writeBack (s : State) (c : Nat) (l : Line) (keep : Bool) : s.SlotsL1Only (s.writeBack c l keep) := by
  unfold State.writeBack
  refine .trans (t := if s.tampered.contains c && l.written != 0 then s.packetLost c l.dom.toNat 0 0 else s.flushLine l) ?_
    (.modCore fun k => ?_)
  · split
    · exact .packetLost _ _ _ _ _
    · exact .flushLine _ _
  · dsimp only
    split
    · exact .of_eq rfl
    · exact .trans (.of_eq rfl) (.count _ _ _ _ _)

theorem State.SlotsL1Only.flushVa (s : State) (c : Nat) (dom : Byte) (va : Nat) (keep : Bool) : s.SlotsL1Only (s.flushVa c dom va keep) := by
  unfold State.flushVa
  split
  · split
    · exact .refl s
    · exact .writeBack _ _ _ _
  · exact .refl s

theorem State.SlotsL1Only.flushRange (s : State) (c : Nat) (dom : Byte) (lo hi : Nat) (keep : Bool) :
    s.SlotsL1Only (s.flushRange c dom lo hi keep) := .foldl (fun s _ => .flushVa s _ _ _ _) _ _

theorem State.SlotsL1Only.acquire (s : State) (c : Nat) (dom : Byte) (scope : Nat) : s.SlotsL1Only (s.acquire c dom scope) := by
  unfold State.acquire
  split
  · exact .refl s
  · exact .trans (.foldl (fun s _ => .flushVa s _ _ _ _) _ _) (.modCore fun k => .count _ _ _ _ _)

theorem State.SlotsL1Only.writeFrame (s : State) (c : Nat) (dom : Byte) (pa : Nat) (ws : List (Nat × List Byte)) :
    s.SlotsL1Only (s.writeFrame c dom pa ws) := by
  unfold State.writeFrame
  split
  · exact .packetLost _ _ _ _ _
  · exact .foldl (fun s _ => .wrPas s _ _ _) _ _


end Sys2Proof.Machine
end

section
/-! SUPPORT. Writes of PART0 and PART1 (R358 to R361): when one has no effect, and what passes to the domain. -/

namespace Sys2Proof.Machine

/-! ### When a write has no effect (R360) -/

/-- The parts of core `k` after a write of PART0 (index 0) or PART1 of domain `d`, before anything passes on. -/
def Core.withPart (k : Core) (d i : Nat) (v : Word) : Core :=
  if i = 0 then { k with part0 := Tab.set 0 k.part0 d (v &&& 0x0FFFFFFF0FFFF7FF) }
  else { k with part1 := Tab.set 0 k.part1 d (v &&& 0x0FFFF1FF1FF1FF3F) }

theorem Core.withPart_eq (k : Core) (d i : Nat) (v : Word) :
    k.withPart d i v = { k with part0 := (k.withPart d i v).part0, part1 := (k.withPart d i v).part1 } := by
  unfold Core.withPart; split <;> rfl

theorem Nat.land_eq_zero_iff_testBit (a b : Nat) : a &&& b = 0 ↔ ∀ j, ¬ (a.testBit j = true ∧ b.testBit j = true) := by
  constructor
  · intro h j ⟨ha, hb⟩
    have := congrArg (·.testBit j) h
    simp [ha, hb] at this
  · intro h
    refine Nat.eq_of_testBit_eq fun j => ?_
    have := h j
    simp only [Nat.testBit_and, Nat.zero_testBit, Bool.and_eq_false_iff]
    by_cases ha : a.testBit j = true <;> simp_all

/-- Two ranges meet where they have a number in common. -/
theorem meets_eq_false_iff (a b : Nat × Nat) :
    meets a b = false ↔ ∀ j, ¬ (inRange j a.1 a.2 = true ∧ inRange j b.1 b.2 = true) := by
  simp only [meets, inRange, Bool.and_eq_true, decide_eq_true_eq, ← Bool.not_eq_true, bne_iff_ne, ne_eq]
  constructor
  · intro h j hj; omega
  · intro h hm
    exact h (max a.1 b.1) (by omega)

/-- Two domains may both be present where they share nothing (R360). -/
theorem Core.apart_iff (k : Core) (a b : Nat) :
    k.apart a b = true ↔ ¬ (k.hbank a = k.hbank b ∨ ∃ j, k.sharing a b j) := by
  simp only [Core.apart, Core.sharing, Core.hasAcc, Core.hasRing, Core.hasSplice, Core.hasQueue, Bool.and_eq_true,
    beq_iff_eq, bne_iff_ne, Bool.not_eq_true', Nat.land_eq_zero_iff_testBit, meets_eq_false_iff, not_or, not_exists]
  constructor
  · rintro ⟨⟨⟨⟨⟨⟨⟨slots, accs⟩, bank⟩, banks⟩, cues⟩, rings⟩, splices⟩, queues⟩
    exact ⟨bank, fun j => ⟨slots j, accs j, banks j, cues j, rings j, splices j, queues j⟩⟩
  · rintro ⟨bank, parts⟩
    exact ⟨⟨⟨⟨⟨⟨⟨fun j => (parts j).1, fun j => (parts j).2.1⟩, bank⟩, fun j => (parts j).2.2.1⟩,
      fun j => (parts j).2.2.2.1⟩, fun j => (parts j).2.2.2.2.1⟩, fun j => (parts j).2.2.2.2.2.1⟩,
      fun j => (parts j).2.2.2.2.2.2⟩

/-- A key that does not read as the default is listed. -/
theorem Tab.mem_keys_of_get {α : Type} {d : α} {t : Tab α} {k : Nat} (h : Tab.get d t k ≠ d) : k ∈ t.map (·.1) := by
  induction t with
  | nil => exact absurd rfl h
  | cons e r ih =>
    obtain ⟨j, x⟩ := e
    by_cases here : j = k
    · simp [here]
    · exact List.mem_cons_of_mem _ (ih (by simpa [Tab.get, here] using h))

/-- The present domains of a core, each once. -/
def Core.presents (k : Core) : List Nat := k.domains.filter k.present

theorem Core.mem_presents (k : Core) (d : Nat) : d ∈ k.presents ↔ k.present d = true := by
  refine List.mem_filter.trans (and_iff_right_of_imp fun h => ?_)
  have listed : d ∈ k.part0.map (·.1) := Tab.mem_keys_of_get (d := 0) fun zero => by
    rw [Core.present, Core.slotMask, zero] at h
    exact absurd h (by decide)
  simp only [Core.domains, List.mem_dedup, List.map_append, List.mem_append]
  exact .inl listed

theorem Core.presents_nodup (k : Core) : k.presents.Nodup := (List.nodup_dedup _).filter _

/-- A sum over some present domains is at most that over all of them. -/
theorem Core.sum_le_presents (k : Core) (f : Nat → Nat) {ds : List Nat} (once : ds.Nodup)
    (present : ∀ a ∈ ds, k.present a = true) : (ds.map f).sum ≤ (k.presents.map f).sum := by
  obtain ⟨l, perm, sub⟩ := once.subperm fun a ha => (k.mem_presents a).mpr (present a ha)
  rw [← (perm.map f).sum_eq]
  exact (sub.map f).sum_le_sum fun _ _ => Nat.zero_le _

theorem Core.sums_le_iff (k : Core) :
    ((k.presents.map k.dequeShare).sum ≤ 64 ∧ (k.presents.map k.copyShare).sum ≤ 16 ∧ (k.presents.map k.matShare).sum ≤ 8)
      ↔ ¬ ∃ ds : List Nat, ds.Nodup ∧ (∀ a ∈ ds, k.present a = true)
        ∧ (64 < (ds.map k.dequeShare).sum ∨ 16 < (ds.map k.copyShare).sum ∨ 8 < (ds.map k.matShare).sum) := by
  constructor
  · rintro ⟨deque, copy, mat⟩ ⟨ds, once, present, large⟩
    have := k.sum_le_presents k.dequeShare once present
    have := k.sum_le_presents k.copyShare once present
    have := k.sum_le_presents k.matShare once present
    omega
  · intro none
    by_contra large
    exact none ⟨_, k.presents_nodup, fun a => (k.mem_presents a).mp, by omega⟩

theorem Core.fits_iff (k : Core) (d : Nat) :
    k.fits d = true ↔
      ¬ (48 - k.lb < k.bankBase d + k.bankCount d ∨ 1024 < k.cueBase d + k.cueCount d
        ∨ 16 < k.ringBase d + k.ringCount d ∨ 16 < k.splBase d + k.splCount d ∨ 16 < k.rxBase d + k.rxCount d)
      ∧ ¬ (64 < k.cueQuota d ∨ 32 < k.rangeQuota d ∨ 64 < k.dequeShare d ∨ 16 < k.copyShare d ∨ 8 < k.matShare d) := by
  simp only [Core.fits, Bool.and_eq_true, decide_eq_true_eq]
  omega

/-- Every cue set of domain `d` stands in its range of entries (R360). -/
theorem Core.sets_iff (k : Core) (d : Nat) :
    (k.desc.all fun e => e.2.count == 0 || e.2.dom.toNat != d
        || (k.cueBase d ≤ e.2.base && e.2.base + e.2.count ≤ k.cueBase d + k.cueCount d)) = true
      ↔ ¬ ∃ e ∈ k.desc, e.2.count ≠ 0 ∧ e.2.dom.toNat = d
        ∧ (e.2.base < k.cueBase d ∨ k.cueBase d + k.cueCount d < e.2.base + e.2.count) := by
  simp only [List.all_eq_true, Bool.or_eq_true, Bool.and_eq_true, beq_iff_eq, bne_iff_ne, decide_eq_true_eq, not_exists,
    not_and, ne_eq]
  refine forall₂_congr fun e _ => ?_
  omega

/-- No slot that leaves the domain with the write holds a thread (R360). -/
def Core.slotsKept (k k' : Core) (d : Nat) : Bool :=
  (List.range 8).all fun i => (k'.slotMask d).testBit i || !(k.slotMask d).testBit i || (k.threadAt i).isNone

theorem Core.slotsKept_iff (k k' : Core) (d : Nat) :
    k.slotsKept k' d = true ↔ ¬ ∃ j, j < 8 ∧ (k.slotMask d).testBit j = true ∧ (k'.slotMask d).testBit j = false
      ∧ (k.threadAt j).isSome = true := by
  simp only [Core.slotsKept, List.all_eq_true, List.mem_range, Bool.or_eq_true, not_exists, not_and]
  refine forall₂_congr fun j _ => ?_
  cases (k.slotMask d).testBit j <;> cases (k'.slotMask d).testBit j <;> cases k.threadAt j <;> simp

/-- R360: what the hardware checks of a write are the reasons for which one has no effect. -/
theorem Core.writeRefused_iff (k k' : Core) (d : Nat) (lb : k'.lb = k.lb) (desc : k'.desc = k.desc) :
    k.writeRefused k' d ↔ ¬ (k.slotsKept k' d && k'.partOk d) = true := by
  have apart : (k'.presents.all fun a => k'.presents.all fun b => a == b || k'.apart a b) = true ↔
      ¬ ∃ a b, a ≠ b ∧ k'.present a = true ∧ k'.present b = true ∧ (k'.hbank a = k'.hbank b ∨ ∃ j, k'.sharing a b j) := by
    simp only [List.all_eq_true, Core.mem_presents, Bool.or_eq_true, beq_iff_eq, Core.apart_iff]
    constructor
    · rintro h ⟨a, b, ne, ha, hb, share⟩
      exact (h a ha b hb).elim ne fun none => none share
    · intro none a ha b hb
      by_cases same : a = b
      · exact .inl same
      · exact .inr fun share => none ⟨a, b, same, ha, hb, share⟩
  have quotas : (k'.presents.all fun a => decide (4 ≤ k'.rangeQuota a)) = true ↔
      ¬ ∃ a, k'.present a = true ∧ k'.rangeQuota a < 4 := by
    simp [Core.mem_presents]
  have fits := k'.fits_iff d
  have sums := k'.sums_le_iff
  have sets := k'.sets_iff d
  rw [lb] at fits
  rw [desc] at sets
  have ok : k'.partOk d = true ↔ (k'.presents.all fun a => k'.presents.all fun b => a == b || k'.apart a b) = true
      ∧ k'.fits d = true ∧ ((k'.presents.map k'.dequeShare).sum ≤ 64 ∧ (k'.presents.map k'.copyShare).sum ≤ 16
        ∧ (k'.presents.map k'.matShare).sum ≤ 8)
      ∧ (k'.presents.all fun a => decide (4 ≤ k'.rangeQuota a)) = true
      ∧ (k.desc.all fun e => e.2.count == 0 || e.2.dom.toNat != d
        || (k'.cueBase d ≤ e.2.base && e.2.base + e.2.count ≤ k'.cueBase d + k'.cueCount d)) = true := by
    simp only [Core.partOk, Core.presents, Bool.and_eq_true, decide_eq_true_eq, desc, and_assoc]
  rw [Bool.and_comm, Bool.and_eq_true, ok, Core.slotsKept_iff, apart, fits, sums, quotas, sets, Core.writeRefused]
  simp only [not_and_or, not_not, or_assoc]

end Sys2Proof.Machine
end

section
/-! SUPPORT. What passes to a domain with a write of PART0 or PART1, and what a domain that leaves takes with it (R24, R99,
R200, R235, R361). -/

namespace Sys2Proof.Machine

theorem inRange_iff {j base n : Nat} : inRange j base n = true ↔ ∃ i, i < n ∧ j = base + i := by
  simp only [inRange, Bool.and_eq_true, decide_eq_true_eq]
  exact ⟨fun h => ⟨j - base, by omega⟩, by rintro ⟨i, _, rfl⟩; omega⟩

theorem inRange_succ {j base n : Nat} : inRange j base (n + 1) = true ↔ inRange j base n = true ∨ j = base + n := by
  simp only [inRange, Bool.and_eq_true, decide_eq_true_eq]
  omega

@[simp] theorem inRange_zero (j base : Nat) : inRange j base 0 = false := by
  simp [inRange]

/-- The bytes of a store that has been cleared from `lo` to `hi`. -/
theorem Core.clearStore_get (k : Core) (lo hi off : Nat) :
    Tab.get 0 (k.clearStore lo hi).store off = if lo ≤ off ∧ off < hi then 0 else Tab.get 0 k.store off := by
  refine (Tab.get_filter_key 0 k.store (fun j => j < lo || hi ≤ j) off).trans ?_
  by_cases low : off < lo <;> by_cases high : off < hi <;> simp [low, high, Nat.not_le.mpr, Nat.not_lt.mp]

/-! ### Banks (R200) -/

/-- One bank of the domain's range is cleared where the domain did not last hold it. -/
def Core.takeBank (d : Nat) (k : Core) (i : Nat) : Core :=
  let b := k.bankBase d + i
  if Tab.get 0 k.bankOwner b = d + 1 then k
  else { k.clearStore (b * 32768) (b * 32768 + 32768) with bankOwner := k.bankOwner.put b (d + 1) }

theorem Core.takeBank_only (d : Nat) (k : Core) (i : Nat) :
    k.takeBank d i = { k with store := (k.takeBank d i).store, bankOwner := (k.takeBank d i).bankOwner } := by
  unfold Core.takeBank; dsimp only; split <;> rfl


theorem Core.takeBank_store (d : Nat) (k : Core) (i off : Nat) : Tab.get 0 (k.takeBank d i).store off =
    if off / 32768 = k.bankBase d + i ∧ Tab.get 0 k.bankOwner (k.bankBase d + i) ≠ d + 1 then 0
    else Tab.get 0 k.store off := by
  unfold Core.takeBank
  dsimp only
  split
  next own => simp [own]
  next other =>
    refine (Core.clearStore_get _ _ _ _).trans ?_
    have inside : (k.bankBase d + i) * 32768 ≤ off ∧ off < (k.bankBase d + i) * 32768 + 32768
        ↔ off / 32768 = k.bankBase d + i := by omega
    simp only [inside, other, ne_eq, not_false_eq_true, and_true]

/-- The first `n` banks of the domain's range. -/
def Core.takeBanks (k : Core) (d n : Nat) : Core := (List.range n).foldl (Core.takeBank d) k

theorem Core.takeBanks_succ (k : Core) (d n : Nat) : k.takeBanks d (n + 1) = (k.takeBanks d n).takeBank d n := by
  simp [Core.takeBanks, List.range_succ]

theorem Core.takeBanks_only (k : Core) (d n : Nat) :
    k.takeBanks d n = { k with store := (k.takeBanks d n).store, bankOwner := (k.takeBanks d n).bankOwner } := by
  induction n with
  | zero => rfl
  | succ n ih => rw [Core.takeBanks_succ, Core.takeBank_only, ih]

theorem Core.takeBanks_bankBase (k : Core) (d n : Nat) : (k.takeBanks d n).bankBase d = k.bankBase d := by
  rw [Core.takeBanks_only]; rfl

theorem Core.takeBanks_owner (k : Core) (d n b : Nat) : Tab.get 0 (k.takeBanks d n).bankOwner b =
    if inRange b (k.bankBase d) n = true then d + 1 else Tab.get 0 k.bankOwner b := by
  induction n with
  | zero => simp [Core.takeBanks]
  | succ n ih =>
    simp only [Core.takeBanks_succ, Core.takeBank, Core.takeBanks_bankBase, inRange_succ]
    by_cases last : b = k.bankBase d + n
    · subst last
      split
      next own => simp [own]
      next => simp
    · split
      next => simp [ih, last]
      next => simp [Tab.get_put_ne _ _ _ _ _ last, ih, last]

/-- Banks of the range that the domain did not last hold read as zero (R200). -/
theorem Core.takeBanks_store (k : Core) (d n off : Nat) : Tab.get 0 (k.takeBanks d n).store off =
    if inRange (off / 32768) (k.bankBase d) n = true ∧ Tab.get 0 k.bankOwner (off / 32768) ≠ d + 1 then 0
    else Tab.get 0 k.store off := by
  induction n with
  | zero => simp [Core.takeBanks]
  | succ n ih =>
    have fresh : inRange (k.bankBase d + n) (k.bankBase d) n = false := by simp [inRange]
    rw [Core.takeBanks_succ, Core.takeBank_store, ih, Core.takeBanks_bankBase, Core.takeBanks_owner, fresh]
    by_cases last : off / 32768 = k.bankBase d + n
    · simp [last, inRange_succ, fresh]
    · simp [last, inRange_succ]

/-! ### Accumulators (R235) -/

/-- One accumulator of the domain is cleared where the domain did not last hold it. -/
def Core.takeAcc (d : Nat) (k : Core) (a : Nat) : Core :=
  if !k.hasAcc d a || Tab.get 0 k.accOwner a = d + 1 then k
  else { k with acc := k.acc.filter fun e => e.1 / 4096 != a, accOwner := k.accOwner.put a (d + 1) }

theorem Core.takeAcc_only (d : Nat) (k : Core) (a : Nat) :
    k.takeAcc d a = { k with acc := (k.takeAcc d a).acc, accOwner := (k.takeAcc d a).accOwner } := by
  unfold Core.takeAcc; split <;> rfl

def Core.takeAccs (k : Core) (d n : Nat) : Core := (List.range n).foldl (Core.takeAcc d) k

theorem Core.takeAccs_succ (k : Core) (d n : Nat) : k.takeAccs d (n + 1) = (k.takeAccs d n).takeAcc d n := by
  simp [Core.takeAccs, List.range_succ]

theorem Core.takeAccs_only (k : Core) (d n : Nat) :
    k.takeAccs d n = { k with acc := (k.takeAccs d n).acc, accOwner := (k.takeAccs d n).accOwner } := by
  induction n with
  | zero => rfl
  | succ n ih => rw [Core.takeAccs_succ, Core.takeAcc_only, ih]

theorem Core.takeAccs_hasAcc (k : Core) (d n a : Nat) : (k.takeAccs d n).hasAcc d a = k.hasAcc d a := by
  rw [Core.takeAccs_only]; rfl

theorem Core.takeAccs_owner (k : Core) (d n a : Nat) (later : n ≤ a) :
    Tab.get 0 (k.takeAccs d n).accOwner a = Tab.get 0 k.accOwner a := by
  induction n with
  | zero => rfl
  | succ n ih =>
    rw [Core.takeAccs_succ, Core.takeAcc]
    split
    · exact ih (by omega)
    · exact (Tab.get_put_ne _ _ _ _ _ (by omega)).trans (ih (by omega))

/-- Accumulators that the domain did not last hold read as zero (R235). -/
theorem Core.takeAccs_acc (k : Core) (d n x : Nat) : Tab.get 0 (k.takeAccs d n).acc x =
    if x / 4096 < n ∧ k.hasAcc d (x / 4096) = true ∧ Tab.get 0 k.accOwner (x / 4096) ≠ d + 1 then 0
    else Tab.get 0 k.acc x := by
  induction n with
  | zero => simp [Core.takeAccs]
  | succ n ih =>
    have cleared : Tab.get 0 (List.filter (fun e => e.1 / 4096 != n) (k.takeAccs d n).acc) x =
        if x / 4096 = n then 0 else Tab.get 0 (k.takeAccs d n).acc x := by
      refine (Tab.get_filter_key 0 _ (fun j => j / 4096 != n) x).trans ?_
      by_cases here : x / 4096 = n <;> simp [here]
    rw [Core.takeAccs_succ, Core.takeAcc, Core.takeAccs_hasAcc, Core.takeAccs_owner _ _ _ _ le_rfl]
    by_cases last : x / 4096 = n
    · rw [last] at ih ⊢
      split
      next kept => rw [ih, if_neg (by omega), if_neg (by rintro ⟨-, held, passed⟩; simp_all)]
      next passed => rw [cleared, if_pos last, if_pos (by simp_all)]
    · have earlier : x / 4096 < n + 1 ↔ x / 4096 < n := by omega
      split
      next => rw [ih]; simp only [earlier]
      next => rw [cleared, if_neg last, ih]; simp only [earlier]

/-! ### Rings (R24, R235) -/

/-- One ring of the domain's range comes empty where the domain did not last hold it, and other domains' commands lose it. -/
def Core.takeRing (d : Nat) (k : Core) (i : Nat) : Core :=
  let r := k.ringBase d + i
  if Tab.get 0 k.ringOwner r = d + 1 then k
  else { k.loseRing (some d) r with ring := wr k.ring r {}, ringOwner := k.ringOwner.put r (d + 1) }

theorem Core.takeRing_only (d : Nat) (k : Core) (i : Nat) :
    k.takeRing d i = { k with ring := (k.takeRing d i).ring, ringOwner := (k.takeRing d i).ringOwner
                              copies := (k.takeRing d i).copies, mats := (k.takeRing d i).mats } := by
  unfold Core.takeRing; dsimp only; split <;> rfl

def Core.takeRings (k : Core) (d n : Nat) : Core := (List.range n).foldl (Core.takeRing d) k

theorem Core.takeRings_succ (k : Core) (d n : Nat) : k.takeRings d (n + 1) = (k.takeRings d n).takeRing d n := by
  simp [Core.takeRings, List.range_succ]

theorem Core.takeRings_only (k : Core) (d n : Nat) :
    k.takeRings d n = { k with ring := (k.takeRings d n).ring, ringOwner := (k.takeRings d n).ringOwner
                               copies := (k.takeRings d n).copies, mats := (k.takeRings d n).mats } := by
  induction n with
  | zero => rfl
  | succ n ih => rw [Core.takeRings_succ, Core.takeRing_only, ih]

theorem Core.takeRings_ringBase (k : Core) (d n : Nat) : (k.takeRings d n).ringBase d = k.ringBase d := by
  rw [Core.takeRings_only]; rfl

/-- The ring that comes next still has its last holder. -/
theorem Core.takeRings_owner (k : Core) (d n r : Nat) (later : k.ringBase d + n ≤ r) :
    Tab.get 0 (k.takeRings d n).ringOwner r = Tab.get 0 k.ringOwner r := by
  induction n with
  | zero => rfl
  | succ n ih =>
    rw [Core.takeRings_succ, Core.takeRing, Core.takeRings_ringBase]
    dsimp only
    split
    · exact ih (by omega)
    · exact (Tab.get_put_ne _ _ _ _ _ (by omega)).trans (ih (by omega))

/-- Rings that the domain did not last hold come empty, with the scale 1.0 (R235). -/
theorem Core.takeRings_ringAt (k : Core) (d n r : Nat) (lt : r < 16) : (k.takeRings d n).ringAt r =
    if inRange r (k.ringBase d) n = true ∧ Tab.get 0 k.ringOwner r ≠ d + 1 then {} else k.ringAt r := by
  induction n with
  | zero => simp [Core.takeRings]
  | succ n ih =>
    simp only [Core.takeRings_succ, Core.takeRing, Core.takeRings_ringBase, Core.takeRings_owner _ _ _ _ le_rfl, inRange_succ]
    by_cases last : r = k.ringBase d + n
    · subst last
      have fresh : inRange (k.ringBase d + n) (k.ringBase d) n = false := by simp [inRange]
      split
      next own => simp [ih, own, fresh]
      next other => simp [Core.ringAt, other, lt]
    · split
      next => simp [ih, last]
      next => simpa [Core.ringAt, rd_wr_ne _ _ _ _ _ last, last] using ih

/-- Matrix command `m'` is `m`, which may have lost its rings: where it had, or where it is another domain's and names a ring
that `gone` holds of. -/
def MatCmd.LosesTo (d : Nat) (gone : Nat → Prop) (m m' : MatCmd) : Prop :=
  m'.t = m.t ∧ m'.op = m.op ∧ (m'.lost = true ↔ m.lost = true ∨ (m.t.dom.toNat ≠ d ∧ ∃ r, gone r ∧ m.names r = true))

/-- The same of a copy and its destination ring. -/
def Copy.LosesTo (d : Nat) (gone : Nat → Prop) (cp cp' : Copy) : Prop :=
  cp'.t = cp.t ∧ cp'.blk = cp.blk
    ∧ (cp'.lost = true ↔ cp.lost = true ∨ (cp.t.dom.toNat ≠ d ∧ ∃ r, gone r ∧ cp.toRing = some r))

theorem MatCmd.LosesTo.of_none (d : Nat) {gone : Nat → Prop} (h : ∀ r, ¬ gone r) (m : MatCmd) : m.LosesTo d gone m :=
  ⟨rfl, rfl, by simp [h]⟩

theorem Copy.LosesTo.of_none (d : Nat) {gone : Nat → Prop} (h : ∀ r, ¬ gone r) (cp : Copy) : cp.LosesTo d gone cp :=
  ⟨rfl, rfl, by simp [h]⟩

theorem exists_or_and {p q u : Nat → Prop} : (∃ r, (p r ∨ q r) ∧ u r) ↔ (∃ r, p r ∧ u r) ∨ ∃ r, q r ∧ u r := by
  simp only [or_and_right, exists_or]

theorem MatCmd.LosesTo.trans {d : Nat} {p q : Nat → Prop} {m m' m'' : MatCmd} (h : m.LosesTo d p m')
    (h' : m'.LosesTo d q m'') : m.LosesTo d (fun r => p r ∨ q r) m'' := by
  obtain ⟨target, op, lost⟩ := h
  obtain ⟨target', op', lost'⟩ := h'
  refine ⟨target'.trans target, op'.trans op, ?_⟩
  rw [lost', target, exists_or_and, and_or_left, ← or_assoc]
  by_cases was : m'.lost = true
  · exact iff_of_true (.inl was) (.inl (lost.mp was))
  · have kept : m'.lost = m.lost := by
      have := lost.not.mp was
      simp_all
    have names (r : Nat) : m'.names r = m.names r := by simp only [MatCmd.names, op, kept]
    simp only [names, lost]

theorem Copy.LosesTo.trans {d : Nat} {p q : Nat → Prop} {cp cp' cp'' : Copy} (h : cp.LosesTo d p cp')
    (h' : cp'.LosesTo d q cp'') : cp.LosesTo d (fun r => p r ∨ q r) cp'' := by
  obtain ⟨target, blk, lost⟩ := h
  obtain ⟨target', blk', lost'⟩ := h'
  refine ⟨target'.trans target, blk'.trans blk, ?_⟩
  have ring : cp'.toRing = cp.toRing := by simp only [Copy.toRing, blk]
  rw [lost', lost, target, ring, exists_or_and, and_or_left, ← or_assoc]

theorem MatCmd.LosesTo.congr {d : Nat} {p q : Nat → Prop} (h : ∀ r, p r ↔ q r) {m m' : MatCmd} :
    m.LosesTo d p m' ↔ m.LosesTo d q m' := by simp only [MatCmd.LosesTo, h]

theorem Copy.LosesTo.congr {d : Nat} {p q : Nat → Prop} (h : ∀ r, p r ↔ q r) {cp cp' : Copy} :
    cp.LosesTo d p cp' ↔ cp.LosesTo d q cp' := by simp only [Copy.LosesTo, h]

/-- A ring that passes to domain `d` leaves another domain's matrix command that names it (R24). -/
theorem Core.loseRing_mats (k : Core) (d r j : Nat) {m : MatCmd} (h : k.mats[j]? = some m) :
    ∃ m', (k.loseRing (some d) r).mats[j]? = some m' ∧ m.LosesTo d (· = r) m' := by
  refine ⟨if m.names r && some d != some m.t.dom.toNat then { m with lost := true } else m, by simp [Core.loseRing, h], ?_⟩
  unfold MatCmd.LosesTo
  split
  next gone =>
    obtain ⟨names, other⟩ : m.names r = true ∧ ¬ d = m.t.dom.toNat := by simpa using gone
    exact ⟨rfl, rfl, by simp [names, Ne.symm other]⟩
  next kept =>
    have : m.t.dom.toNat ≠ d → ¬ m.names r = true := fun other named => kept (by simp [named, Ne.symm other])
    exact ⟨rfl, rfl, by simpa using fun other named => absurd named (by simpa using this other)⟩

theorem Core.loseRing_copies (k : Core) (d r j : Nat) {cp : Copy} (h : k.copies[j]? = some cp) :
    ∃ cp', (k.loseRing (some d) r).copies[j]? = some cp' ∧ cp.LosesTo d (· = r) cp' := by
  refine ⟨if cp.toRing == some r && some d != some cp.t.dom.toNat then { cp with lost := true } else cp,
    by simp [Core.loseRing, h], ?_⟩
  unfold Copy.LosesTo
  split
  next gone =>
    obtain ⟨names, other⟩ : cp.toRing = some r ∧ ¬ d = cp.t.dom.toNat := by simpa using gone
    exact ⟨rfl, rfl, by simp [names, Ne.symm other]⟩
  next kept =>
    have : cp.t.dom.toNat ≠ d → ¬ cp.toRing = some r := fun other named => kept (by simp [named, Ne.symm other])
    exact ⟨rfl, rfl, by simpa using fun other named => absurd named (this other)⟩

/-- A ring of the range of domain `d` that another held last, among the first `n`. -/
def Core.ringPasses (k : Core) (d n r : Nat) : Prop :=
  inRange r (k.ringBase d) n = true ∧ Tab.get 0 k.ringOwner r ≠ d + 1

theorem Core.not_ringPasses_zero (k : Core) (d r : Nat) : ¬ k.ringPasses d 0 r := by simp [Core.ringPasses]

theorem Core.ringPasses_succ_own {k : Core} {d n : Nat} (own : Tab.get 0 k.ringOwner (k.ringBase d + n) = d + 1) (r : Nat) :
    k.ringPasses d n r ↔ k.ringPasses d (n + 1) r := by
  simp only [Core.ringPasses, inRange_succ]
  constructor
  · exact fun ⟨inside, other⟩ => ⟨.inl inside, other⟩
  · rintro ⟨inside | rfl, other⟩
    · exact ⟨inside, other⟩
    · exact absurd own other

theorem Core.ringPasses_succ_other {k : Core} {d n : Nat} (other : Tab.get 0 k.ringOwner (k.ringBase d + n) ≠ d + 1)
    (r : Nat) : (k.ringPasses d n r ∨ r = k.ringBase d + n) ↔ k.ringPasses d (n + 1) r := by
  simp only [Core.ringPasses, inRange_succ]
  constructor
  · rintro (⟨inside, passed⟩ | rfl)
    · exact ⟨.inl inside, passed⟩
    · exact ⟨.inr rfl, other⟩
  · rintro ⟨inside | rfl, passed⟩
    · exact .inl ⟨inside, passed⟩
    · exact .inr rfl

/-- R24: the matrix commands of other domains lose the rings that pass. -/
theorem Core.takeRings_mats (k : Core) (d n j : Nat) {m : MatCmd} (h : k.mats[j]? = some m) :
    ∃ m', (k.takeRings d n).mats[j]? = some m' ∧ m.LosesTo d (k.ringPasses d n) m' := by
  induction n with
  | zero => exact ⟨m, h, .of_none d (k.not_ringPasses_zero d) m⟩
  | succ n ih =>
    obtain ⟨m', held, loses⟩ := ih
    rw [Core.takeRings_succ, Core.takeRing, Core.takeRings_ringBase, Core.takeRings_owner _ _ _ _ le_rfl]
    dsimp only
    split
    next own => exact ⟨m', held, (MatCmd.LosesTo.congr (Core.ringPasses_succ_own own)).mp loses⟩
    next other =>
      obtain ⟨m'', held', loses'⟩ := Core.loseRing_mats _ d (k.ringBase d + n) j held
      exact ⟨m'', held', (MatCmd.LosesTo.congr (Core.ringPasses_succ_other other)).mp (loses.trans loses')⟩

/-- R24: so do their copies. -/
theorem Core.takeRings_copies (k : Core) (d n j : Nat) {cp : Copy} (h : k.copies[j]? = some cp) :
    ∃ cp', (k.takeRings d n).copies[j]? = some cp' ∧ cp.LosesTo d (k.ringPasses d n) cp' := by
  induction n with
  | zero => exact ⟨cp, h, .of_none d (k.not_ringPasses_zero d) cp⟩
  | succ n ih =>
    obtain ⟨cp', held, loses⟩ := ih
    rw [Core.takeRings_succ, Core.takeRing, Core.takeRings_ringBase, Core.takeRings_owner _ _ _ _ le_rfl]
    dsimp only
    split
    next own => exact ⟨cp', held, (Copy.LosesTo.congr (Core.ringPasses_succ_own own)).mp loses⟩
    next other =>
      obtain ⟨cp'', held', loses'⟩ := Core.loseRing_copies _ d (k.ringBase d + n) j held
      exact ⟨cp'', held', (Copy.LosesTo.congr (Core.ringPasses_succ_other other)).mp (loses.trans loses')⟩

/-! ### Everything that passes (R361) -/

theorem Core.giveRest_eq (k : Core) (d : Nat) :
    let k1 := (k.takeBanks d (k.bankCount d)).takeAccs d 4
    let k2 := k1.takeRings d (k1.ringCount d)
    k.giveRest d = { k2 with splice := k2.splice.filter fun e => !(k2.hasSplice d e.1 && e.2.dom.toNat != d) } := rfl

end Sys2Proof.Machine
end

section
/-! SUPPORT. A write of PART0 or PART1 as a whole (R24, R200, R360, R361): what the core holds after it, and the queues that
it unbinds. -/

namespace Sys2Proof.Machine

/-! ### What the core holds once its parts have passed -/

theorem Core.giveRest_only (k : Core) (d : Nat) :
    let t := k.giveRest d
    t = { k with store := t.store, bankOwner := t.bankOwner, acc := t.acc, accOwner := t.accOwner, ring := t.ring
                 ringOwner := t.ringOwner, copies := t.copies, mats := t.mats, splice := t.splice } := by
  dsimp only
  rw [Core.giveRest_eq]
  dsimp only
  rw [Core.takeRings_only, Core.takeAccs_only, Core.takeBanks_only]

/-- Banks that pass to the domain read as zero (R200). -/
theorem Core.giveRest_store (k : Core) (d off : Nat) : Tab.get 0 (k.giveRest d).store off =
    if inRange (off / 32768) (k.bankBase d) (k.bankCount d) = true ∧ Tab.get 0 k.bankOwner (off / 32768) ≠ d + 1 then 0
    else Tab.get 0 k.store off := by
  rw [Core.giveRest_eq]
  dsimp only
  rw [Core.takeRings_only, Core.takeAccs_only]
  exact k.takeBanks_store d _ off

/-- Accumulators that pass to the domain read as zero (R235). -/
theorem Core.giveRest_accAt (k : Core) (d a e j : Nat) (ha : a < 4) (he : e < 64) (hj : j < 64) :
    (k.giveRest d).accAt a e j = if k.hasAcc d a = true ∧ Tab.get 0 k.accOwner a ≠ d + 1 then 0 else k.accAt a e j := by
  have place : accIx a e j / 4096 = a := by unfold accIx; omega
  rw [Core.giveRest_eq]
  rw [Core.takeRings_only, Core.takeBanks_only]
  refine (Core.takeAccs_acc _ d 4 (accIx a e j)).trans ?_
  rw [place]
  exact if_congr (and_iff_right ha) rfl rfl

/-- Rings that pass to the domain come empty (R235). -/
theorem Core.giveRest_ringAt (k : Core) (d r : Nat) (lt : r < 16) : (k.giveRest d).ringAt r =
    if k.hasRing d r = true ∧ Tab.get 0 k.ringOwner r ≠ d + 1 then {} else k.ringAt r := by
  rw [Core.giveRest_eq]
  rw [Core.takeAccs_only, Core.takeBanks_only]
  exact Core.takeRings_ringAt _ d _ r lt

/-- Other domains' matrix commands lose the rings that pass (R24). -/
theorem Core.giveRest_mats (k : Core) (d j : Nat) {m : MatCmd} (h : k.mats[j]? = some m) :
    ∃ m', (k.giveRest d).mats[j]? = some m' ∧ m.LosesTo d (k.ringPasses d (k.ringCount d)) m' := by
  rw [Core.giveRest_eq]
  dsimp only
  rw [Core.takeAccs_only, Core.takeBanks_only]
  exact Core.takeRings_mats _ d _ j h

theorem Core.giveRest_copies (k : Core) (d j : Nat) {cp : Copy} (h : k.copies[j]? = some cp) :
    ∃ cp', (k.giveRest d).copies[j]? = some cp' ∧ cp.LosesTo d (k.ringPasses d (k.ringCount d)) cp' := by
  rw [Core.giveRest_eq]
  dsimp only
  rw [Core.takeAccs_only, Core.takeBanks_only]
  exact Core.takeRings_copies _ d _ j h

theorem Core.giveBank_only (k : Core) (d : Nat) :
    k.giveBank d = { k with h := (k.giveBank d).h, hOwner := (k.giveBank d).hOwner, rng := (k.giveBank d).rng } := by
  unfold Core.giveBank
  dsimp only
  split <;> rfl

/-- The domain's h bank is cleared where another domain last held it (R99). -/
theorem Core.giveBank_h (k : Core) (d b : Nat) (lt : b < 8) : rd (k.giveBank d).h b (Vector.replicate 16 0) =
    if b = k.hbank d ∧ Tab.get 0 k.hOwner b ≠ d + 1 then Vector.replicate 16 0 else rd k.h b (Vector.replicate 16 0) := by
  unfold Core.giveBank
  dsimp only
  by_cases here : b = k.hbank d
  · subst here
    split
    next own => simp [own]
    next other => simp [other, lt]
  · split
    next => simp [here]
    next => simp [here, rd_wr_ne _ _ _ _ _ here]

/-! ### The write (R360, R361) -/

theorem Core.partWrite_locked {k : Core} {d : Nat} (h : (Tab.get 0 k.plock d).getLsbD 63 = true) (i : Nat) (v : Word) :
    k.partWrite d i v = k := if_pos h

theorem Core.partWrite_part2 {k : Core} {d : Nat} (h : (Tab.get 0 k.plock d).getLsbD 63 = false) (v : Word) :
    k.partWrite d 2 v = { k with part2 := Tab.set 0 k.part2 d (v &&& 0x1FF) } := by
  exact (if_neg (by simp only [h, Bool.false_eq_true, not_false_eq_true])).trans rfl

/-- The core with the parts of the write, and with the domain's h bank given to it where that is new (R99, R164). -/
def Core.withBank (k k' : Core) (d : Nat) : Core :=
  let k1 := if k.freeSlots d < k'.freeSlots d then k'.askAgain d else k'
  if k.present d && k.hbank d = k1.hbank d then k1 else k1.giveBank d

theorem Core.withBank_only (k k' : Core) (d : Nat) :
    let t := k.withBank k' d
    t = { k' with h := t.h, hOwner := t.hOwner, rng := t.rng, steals := t.steals } := by
  unfold Core.withBank
  generalize again : (if k.freeSlots d < k'.freeSlots d then k'.askAgain d else k') = k1
  have only : k1 = { k' with steals := k1.steals } := by rw [← again]; split <;> rfl
  dsimp only
  split
  · rw [only]
  · rw [Core.giveBank_only, only]

section
variable {k : Core} {d i : Nat} {v : Word} (lt : i < 2) (unlocked : (Tab.get 0 k.plock d).getLsbD 63 = false)
include lt unlocked

theorem Core.partWrite_eq : k.partWrite d i v =
    if !(k.slotsKept (k.withPart d i v) d && (k.withPart d i v).partOk d) then k
    else if !(k.withPart d i v).present d then
      (if k.present d then (k.withPart d i v).discard k d else k.withPart d i v)
    else (k.withBank (k.withPart d i v) d).giveRest d := by
  obtain rfl | rfl : i = 0 ∨ i = 1 := by omega
  all_goals simp only [Core.partWrite, unlocked]; rfl

/-- A write that is refused has no effect (R360). -/
theorem Core.partWrite_refused (refused : k.writeRefused (k.withPart d i v) d) : k.partWrite d i v = k := by
  have := (k.writeRefused_iff _ d (by rw [Core.withPart_eq]) (by rw [Core.withPart_eq])).mp refused
  rw [Core.partWrite_eq lt unlocked, if_pos (by rw [Bool.eq_false_of_not_eq_true this]; rfl)]

/-- A write after which the domain is present gives it its parts (R361). -/
theorem Core.partWrite_given (allowed : ¬ k.writeRefused (k.withPart d i v) d)
    (present : (k.withPart d i v).present d = true) :
    k.partWrite d i v = (k.withBank (k.withPart d i v) d).giveRest d := by
  have := (k.writeRefused_iff _ d (by rw [Core.withPart_eq]) (by rw [Core.withPart_eq])).not.mp allowed
  rw [Core.partWrite_eq lt unlocked, if_neg (by simpa using this), if_neg (by simp [present])]

/-- A write after which the domain is not present takes it off the core (R200). -/
theorem Core.partWrite_left (allowed : ¬ k.writeRefused (k.withPart d i v) d)
    (absent : (k.withPart d i v).present d = false) :
    k.partWrite d i v = if k.present d then (k.withPart d i v).discard k d else k.withPart d i v := by
  have := (k.writeRefused_iff _ d (by rw [Core.withPart_eq]) (by rw [Core.withPart_eq])).not.mp allowed
  rw [Core.partWrite_eq lt unlocked, if_neg (by simpa using this), if_pos (by simp [absent])]

end

/-! ### A domain that leaves (R200) -/

theorem Core.loseRings_only (k : Core) (d : Option Nat) (rs : List Nat) :
    let t := rs.foldl (fun k r => k.loseRing d r) k
    t = { k with copies := t.copies, mats := t.mats } := by
  dsimp only
  induction rs generalizing k with
  | nil => rfl
  | cons r rs ih => rw [List.foldl_cons, ih]; rfl

theorem Core.discard_only (k old : Core) (d : Nat) :
    let t := k.discard old d
    t = { k with store := t.store, barwts := t.barwts, ring := t.ring, ranges := t.ranges, copies := t.copies, mats := t.mats } := by
  dsimp only
  unfold Core.discard
  dsimp only
  rw [Core.loseRings_only]
  rfl

/-- Its banks read as zero. -/
theorem Core.discard_store (k old : Core) (d off : Nat)
    (h : inRange (off / 32768) (old.bankBase d) (old.bankCount d) = true) :
    Tab.get 0 (k.discard old d).store off = 0 := by
  refine (Core.clearStore_get _ _ _ _).trans (if_pos ?_)
  obtain ⟨i, lt, here⟩ := inRange_iff.mp h
  omega

/-- Its rings are empty. -/
theorem Core.discard_ringAt (k old : Core) (d r : Nat) (lt : r < 16) (h : old.hasRing d r = true) :
    (k.discard old d).ringAt r = {} := by
  simp [Core.discard, Core.ringAt, rd, lt, h]

theorem Core.discard_ranges (k old : Core) (d : Nat) : ∀ e ∈ (k.discard old d).ranges, e.2.dom.toNat ≠ d := by
  intro e he
  simpa using (List.mem_filter.mp he).2

theorem Core.discard_copies (k old : Core) (d : Nat) : ∀ cp ∈ (k.discard old d).copies, cp.t.dom.toNat ≠ d := by
  intro cp hcp
  simpa using (List.mem_filter.mp hcp).2

/-! ### Queues that pass (R24, R302) -/

/-- Core `k'` differs from `k` in its receive queues, their held rows and pages, and the values on their way to registers. -/
def Core.QueuesOnly (k k' : Core) : Prop :=
  k' = { k with rxq := k'.rxq, hold := k'.hold, pool := k'.pool, fills := k'.fills }

theorem Core.QueuesOnly.trans {k k' k'' : Core} (h : k.QueuesOnly k') (h' : k'.QueuesOnly k'') : k.QueuesOnly k'' := by
  unfold Core.QueuesOnly at *
  rw [h', h]

/-- Packets that leave change no core. -/
theorem State.sendCredits_core (s : State) (dom : Byte) (ps : List TokPage) (c : Nat) :
    (ps.foldl (fun s p => p.rows.foldl (fun s r => s.sendCredit dom r.2) s) s).core c = s.core c := by
  have page (s : State) (rows : Tab Word) : (rows.foldl (fun s r => s.sendCredit dom r.2) s).core c = s.core c := by
    induction rows generalizing s with
    | nil => rfl
    | cons r rs ih => exact ih _
  induction ps generalizing s with
  | nil => rfl
  | cons p ps ih => exact (ih _).trans (page _ _)

theorem State.rowsFail_core (s : State) (dom : Byte) (hs : List HeldRow) (c : Nat) :
    (hs.foldl (fun s h => s.rowFails dom h.tag) s).core c = s.core c := by
  induction hs generalizing s with
  | nil => rfl
  | cons h hs ih => exact ih _

theorem State.unbindQueue_core (s : State) (c n : Nat) (q : RxQueue) :
    (s.core c).QueuesOnly ((s.unbindQueue c n q).core c)
      ∧ ((s.unbindQueue c n q).core c).rxq = (s.core c).rxq.erase n := by
  unfold State.unbindQueue
  dsimp only
  rw [State.core_modCore_same, State.rowsFail_core, State.sendCredits_core]
  exact ⟨rfl, rfl⟩

theorem State.fillTakes_core (s : State) (c n : Nat) (ts : List Target) :
    let t := ts.foldl (fun s t => s.modCore c (·.addFill { tid := t.tid, d := t.d, value := 0, queue := some n })) s
    (s.core c).QueuesOnly (t.core c) ∧ (t.core c).rxq = (s.core c).rxq := by
  induction ts generalizing s with
  | nil => exact ⟨rfl, rfl⟩
  | cons x ts ih =>
    obtain ⟨only, queues⟩ := ih (s.modCore c (·.addFill { tid := x.tid, d := x.d, value := 0, queue := some n }))
    rw [State.core_modCore_same] at only queues
    exact ⟨Core.QueuesOnly.trans (k' := (s.core c).addFill _) rfl only, queues⟩

/-- One queue is unbound, and its waiting RXTAKEs receive 0. -/
def State.dropQueue (c : Nat) (s : State) (q : Nat × RxQueue) : State :=
  q.2.takes.foldl (fun s t => s.modCore c (·.addFill { tid := t.tid, d := t.d, value := 0, queue := some q.1 }))
    (s.unbindQueue c q.1 q.2)

theorem State.dropQueue_core (c : Nat) (s : State) (q : Nat × RxQueue) :
    (s.core c).QueuesOnly ((s.dropQueue c q).core c) ∧ ((s.dropQueue c q).core c).rxq = (s.core c).rxq.erase q.1 := by
  obtain ⟨only, queues⟩ := s.unbindQueue_core c q.1 q.2
  obtain ⟨only', queues'⟩ := (s.unbindQueue c q.1 q.2).fillTakes_core c q.1 q.2.takes
  exact ⟨only.trans only', queues'.trans queues⟩

theorem State.dropAll_only (c : Nat) (s : State) (qs : List (Nat × RxQueue)) :
    (s.core c).QueuesOnly ((qs.foldl (State.dropQueue c) s).core c) := by
  induction qs generalizing s with
  | nil => exact rfl
  | cons q qs ih => exact (s.dropQueue_core c q).1.trans (ih _)

theorem Core.queueAt_eq_none {k : Core} {n : Nat} : k.queueAt n = none ↔ ∀ q ∈ k.rxq, q.1 ≠ n := by
  simp [Core.queueAt]

/-- Of the queues dropped none is bound afterwards. -/
theorem State.dropAll_queueAt (c : Nat) (s : State) (qs : List (Nat × RxQueue)) (n : Nat)
    (h : (s.core c).queueAt n = none ∨ ∃ q ∈ qs, q.1 = n) : ((qs.foldl (State.dropQueue c) s).core c).queueAt n = none := by
  induction qs generalizing s with
  | nil => simpa using h
  | cons q qs ih =>
    refine ih _ ?_
    rw [Core.queueAt_eq_none, (s.dropQueue_core c q).2]
    rcases h with unbound | ⟨q', listed, rfl⟩
    · exact .inl fun x hx => Core.queueAt_eq_none.mp unbound x (List.mem_filter.mp hx).1
    · rcases List.mem_cons.mp listed with rfl | later
      · exact .inl fun x hx => by simpa using (List.mem_filter.mp hx).2
      · exact .inr ⟨q', later, rfl⟩

theorem State.dropQueues_eq (s : State) (c : Nat) (old : Core) : s.dropQueues c old =
    ((s.core c).rxq.filter fun q => (s.core c).queuePassed q.2.dom.toNat q.1 && !old.queuePassed q.2.dom.toNat q.1).foldl
      (State.dropQueue c) s := rfl

theorem State.dropQueues_only (s : State) (c : Nat) (old : Core) : (s.core c).QueuesOnly ((s.dropQueues c old).core c) :=
  State.dropAll_only c s _

/-- Where no domain's queues have changed none is unbound. -/
theorem State.dropQueues_none {s : State} {c : Nat} {old : Core}
    (same : ∀ dom n, (s.core c).queuePassed dom n = old.queuePassed dom n) : s.dropQueues c old = s := by
  have none : ((s.core c).rxq.filter fun q => (s.core c).queuePassed q.2.dom.toNat q.1
      && !old.queuePassed q.2.dom.toNat q.1) = [] := by
    rw [List.filter_eq_nil_iff]
    intro q _
    simp [same]
  rw [State.dropQueues_eq, none]
  rfl

/-- R24: a queue whose number has passed to another present domain is unbound. -/
theorem State.dropQueues_queueAt {s : State} {c : Nat} {old : Core} {n : Nat} {q : RxQueue}
    (bound : (s.core c).queueAt n = some q) (passed : (s.core c).queuePassed q.dom.toNat n = true)
    (before : old.queuePassed q.dom.toNat n = false) : ((s.dropQueues c old).core c).queueAt n = none := by
  obtain ⟨⟨m, q'⟩, found, rfl⟩ := Option.map_eq_some_iff.mp bound
  obtain rfl : m = n := by simpa using List.find?_some found
  refine State.dropAll_queueAt c s _ m (.inr ⟨(m, q'), List.mem_filter.mpr ⟨List.mem_of_find?_eq_some found, ?_⟩, rfl⟩)
  simp [passed, before]

end Sys2Proof.Machine
end

section
/-! SUPPORT. What each event of the registers leaves (R99, R164, R201, R351, R360, R361). -/

namespace Sys2Proof.Machine

/-! ### L1CFG (R201) -/

theorem Core.SlotsL1Only.store {k k' : Core} (h : k.SlotsL1Only k') : k'.store = k.store := (congrArg Core.store h.1).trans rfl
theorem Core.SlotsL1Only.lb {k k' : Core} (h : k.SlotsL1Only k') : k'.lb = k.lb := (congrArg Core.lb h.1).trans rfl

/-- Once Lb has been set the banks that change their role read as zero, and no others. -/
theorem State.setLb_core (s : State) (c lb : Nat) :
    let t := (s.setLb c lb).core c
    t.lb = lb ∧ t.lbPend = none ∧ t.dirty = [] ∧ ∀ off, Tab.get 0 t.store off =
      if (48 - Nat.max (s.core c).lb lb) * 32768 ≤ off ∧ off < (48 - Nat.min (s.core c).lb lb) * 32768 then 0
      else Tab.get 0 (s.core c).store off := by
  dsimp only
  unfold State.setLb
  generalize hu : (s.core c).lines.foldl (fun s l => s.flushVa c l.dom l.va false) s = u
  have flushed : (s.core c).SlotsL1Only (u.core c) := by
    subst hu
    exact (State.SlotsL1Only.foldl (fun s (l : Line) => .flushVa s c l.dom l.va false) _ _).2 c
  dsimp only
  rw [State.core_modCore_same, ← flushed.lb, ← flushed.store]
  exact ⟨rfl, rfl, rfl, fun off => Core.clearStore_get _ _ _ off⟩

/-! ### PREQ (R343, R351) -/

/-- A thread that a request reaches. -/
def Thread.asked (t : Thread) (cycle : Nat) : Thread := { t with preq := t.preq.or (some cycle) }

theorem Core.threadAt_lt {k : Core} {i : Nat} {a : Thread} (h : k.threadAt i = some a) : i < 8 := by
  by_contra out
  simp [Core.threadAt, Core.slot, rd, out] at h

/-- The requests of a slot mask reach the threads on its slots, once each. -/
theorem Core.request_all (k : Core) (v : Word) (n i : Nat) {a : Thread} (held : k.threadAt i = some a) :
    let t := (List.range n).foldl (fun (k : Core) i => if v.getLsbD i then k.request i else k) k
    t.cycle = k.cycle ∧ t.threadAt i = some (if i < n ∧ v.getLsbD i = true then a.asked k.cycle else a) := by
  have lt := Core.threadAt_lt held
  induction n with
  | zero => simp [held]
  | succ n ih =>
    rw [List.range_succ, List.foldl_append]
    generalize (List.range n).foldl _ k = t at ih
    obtain ⟨cycle, thread⟩ := ih
    simp only [List.foldl_cons, List.foldl_nil]
    by_cases here : i = n
    · subst here
      split
      next named =>
        refine ⟨cycle, ?_⟩
        rw [Core.request, Core.threadAt_modThread_same _ _ _ lt, thread]
        simp [named, Thread.asked, cycle]
      next unnamed => exact ⟨cycle, by simp [thread, unnamed]⟩
    · have same : i < n + 1 ∧ v.getLsbD i = true ↔ i < n ∧ v.getLsbD i = true := by
        constructor <;> rintro ⟨h, named⟩ <;> exact ⟨by omega, named⟩
      rw [if_congr same rfl rfl]
      split
      · exact ⟨cycle, by rw [Core.request, Core.threadAt_modThread_ne _ _ _ _ here, thread]⟩
      · exact ⟨cycle, thread⟩

theorem Core.preqWrite_threadAt {k : Core} {v : Word} {i : Nat} {a : Thread} (slots : v.getLsbD 63 = false)
    (held : k.threadAt i = some a) : (k.preqWrite v).threadAt i =
      some { a with preq := if v.getLsbD i then a.preq.or (some k.cycle) else a.preq } := by
  have reached := (k.request_all v 8 i held).2
  rw [Core.preqWrite, if_neg (by rw [slots]; exact Bool.false_ne_true), reached]
  have lt := Core.threadAt_lt held
  by_cases named : v.getLsbD i = true <;> simp [named, lt, Thread.asked]

/-! ### PLOCK (R360) -/

/-- A slot of the domain holds a thread. -/
def Core.busyIn (k : Core) (d : Nat) : Prop := ∃ j, j < 8 ∧ (k.slotMask d).testBit j = true ∧ (k.threadAt j).isSome = true

theorem Core.busyIn_iff (k : Core) (d : Nat) : k.busyIn d ↔
    ((List.range 8).all fun i => !(k.slotMask d).testBit i || (k.threadAt i).isNone) = false := by
  rw [← Bool.not_eq_true, List.all_eq_true]
  simp only [Core.busyIn, List.mem_range, Bool.or_eq_true, Bool.not_eq_true', Option.isNone_iff_eq_none, not_forall, not_or,
    Option.isSome_iff_ne_none, exists_prop, Bool.not_eq_false, ne_eq]

theorem lock_stored (v : Word) : (v &&& 0x8000000000007FFF).getLsbD 63 = v.getLsbD 63 := by
  rw [BitVec.getLsbD_and, show (0x8000000000007FFF : Word).getLsbD 63 = true by decide, Bool.and_true]

/-- Lock is not cleared while a slot of the domain holds a thread. -/
theorem Core.plockWrite_kept {k : Core} {d : Nat} {v : Word} (locked : (Tab.get 0 k.plock d).getLsbD 63 = true)
    (clears : v.getLsbD 63 = false) (busy : k.busyIn d) : k.plockWrite d v = k := by
  refine if_pos ?_
  rw [lock_stored, locked, clears, (k.busyIn_iff d).mp busy]
  rfl

theorem Core.plockWrite_stored {k : Core} {d : Nat} {v : Word}
    (h : (Tab.get 0 k.plock d).getLsbD 63 = false ∨ v.getLsbD 63 = true ∨ ¬ k.busyIn d) :
    k.plockWrite d v = { k with plock := Tab.set 0 k.plock d (v &&& 0x8000000000007FFF) } := by
  refine if_neg ?_
  rw [lock_stored]
  rcases h with unlocked | sets | free
  · simp only [unlocked, Bool.false_and, Bool.false_eq_true, not_false_eq_true]
  · simp only [sets, Bool.not_true, Bool.and_false, Bool.false_and, Bool.false_eq_true, not_false_eq_true]
  · rw [Core.busyIn_iff, Bool.not_eq_false] at free
    rw [free]
    simp only [Bool.not_true, Bool.and_false, Bool.false_eq_true, not_false_eq_true]

/-! ### PART (R24, R360, R361) -/

/-- A write that leaves PART0 and PART1 as they are unbinds no queue. -/
theorem State.partWrite_core_same {s : State} {c d i : Nat} {v : Word}
    (part0 : ((s.core c).partWrite d i v).part0 = (s.core c).part0)
    (part1 : ((s.core c).partWrite d i v).part1 = (s.core c).part1) :
    exec (.partWrite c d i v) s = .next (s.modCore c (·.partWrite d i v)) := by
  refine congrArg Host.Outcome.next (State.dropQueues_none fun dom n => ?_)
  rw [State.core_modCore_same]
  simp only [Core.queuePassed, Core.domains, Core.present, Core.slotMask, Core.hasQueue, Core.rxBase, Core.rxCount, part0, part1]

theorem State.partWrite_no_effect {s : State} {c d i : Nat} {v : Word} (h : (s.core c).partWrite d i v = s.core c) :
    ∃ t, exec (.partWrite c d i v) s = .next t ∧ t.core c = s.core c :=
  ⟨_, State.partWrite_core_same (by rw [h]) (by rw [h]), by rw [State.core_modCore_same, h]⟩

/-- What a write leaves in the core, beside the queues that it unbinds. -/
theorem State.partWrite_queues (s : State) (c d i : Nat) (v : Word) : ∃ t, exec (.partWrite c d i v) s = .next t
    ∧ ((s.core c).partWrite d i v).QueuesOnly (t.core c)
    ∧ ∀ n q, ((s.core c).partWrite d i v).queueAt n = some q → ((s.core c).partWrite d i v).queuePassed q.dom.toNat n = true →
        (s.core c).queuePassed q.dom.toNat n = false → (t.core c).queueAt n = none := by
  refine ⟨_, rfl, ?_, fun n q bound passed before => ?_⟩
  · have only := State.dropQueues_only (s.modCore c (·.partWrite d i v)) c (s.core c)
    rwa [State.core_modCore_same] at only
  · exact State.dropQueues_queueAt (by rwa [State.core_modCore_same]) (by rwa [State.core_modCore_same]) before

end Sys2Proof.Machine
end

section
/-! SUPPORT. What a write of PART0 or PART1 leaves (R24, R99, R200, R235, R360, R361). -/

namespace Sys2Proof.Machine

theorem Core.queuePassed_of_present {k : Core} {d dom n : Nat} (present : k.present d = true) (other : dom ≠ d)
    (has : k.hasQueue d n = true) : k.queuePassed dom n = true := by
  refine List.any_eq_true.mpr ⟨d, (List.mem_filter.mp ((k.mem_presents d).mpr present)).1, ?_⟩
  simp [present, Ne.symm other, has]

section
variable (k : Core) (d i : Nat) (v : Word)

/-- The core after a write that leaves the domain present. -/
def Core.partsGiven : Core := (k.withBank (k.withPart d i v) d).giveRest d

theorem Core.partsGiven_store (off : Nat) : Tab.get 0 (k.partsGiven d i v).store off =
    if inRange (off / 32768) ((k.withPart d i v).bankBase d) ((k.withPart d i v).bankCount d) = true
      ∧ Tab.get 0 k.bankOwner (off / 32768) ≠ d + 1 then 0 else Tab.get 0 k.store off := by
  refine (Core.giveRest_store _ d off).trans ?_
  rw [Core.withBank_only, Core.withPart_eq]
  rfl

theorem Core.partsGiven_accAt (a e j : Nat) (ha : a < 4) (he : e < 64) (hj : j < 64) : (k.partsGiven d i v).accAt a e j =
    if (k.withPart d i v).hasAcc d a = true ∧ Tab.get 0 k.accOwner a ≠ d + 1 then 0 else k.accAt a e j := by
  refine (Core.giveRest_accAt _ d a e j ha he hj).trans ?_
  rw [Core.withBank_only, Core.withPart_eq]
  rfl

theorem Core.partsGiven_ringAt (r : Nat) (lt : r < 16) : (k.partsGiven d i v).ringAt r =
    if (k.withPart d i v).hasRing d r = true ∧ Tab.get 0 k.ringOwner r ≠ d + 1 then {} else k.ringAt r := by
  refine (Core.giveRest_ringAt _ d r lt).trans ?_
  rw [Core.withBank_only, Core.withPart_eq]
  rfl

theorem Core.partsGiven_parts :
    (k.partsGiven d i v).part0 = (k.withPart d i v).part0 ∧ (k.partsGiven d i v).part1 = (k.withPart d i v).part1
      ∧ (k.partsGiven d i v).rxq = k.rxq := by
  unfold Core.partsGiven
  rw [Core.giveRest_only, Core.withBank_only]
  exact ⟨rfl, rfl, by rw [Core.withPart_eq]⟩

/-- The h bank is cleared where another domain last held it, unless the domain had it already (R99). -/
theorem Core.partsGiven_h (b : Nat) (lt : b < 8) : rd (k.partsGiven d i v).h b (Vector.replicate 16 0) =
    if b = (k.withPart d i v).hbank d ∧ Tab.get 0 k.hOwner b ≠ d + 1 ∧ ¬ (k.present d = true ∧ k.hbank d = b)
    then Vector.replicate 16 0 else rd k.h b (Vector.replicate 16 0) := by
  have rest : (k.partsGiven d i v).h = (k.withBank (k.withPart d i v) d).h := by
    rw [Core.partsGiven, Core.giveRest_only]
  have h : (k.withPart d i v).h = k.h := by rw [Core.withPart_eq]
  have hOwner : (k.withPart d i v).hOwner = k.hOwner := by rw [Core.withPart_eq]
  rw [rest, Core.withBank, ← h, ← hOwner]
  generalize k.withPart d i v = k'
  generalize again : (if k.freeSlots d < k'.freeSlots d then k'.askAgain d else k') = k1
  have only : k1 = { k' with steals := k1.steals } := by rw [← again]; split <;> rfl
  have hbank : k1.hbank d = k'.hbank d := by rw [only]; rfl
  have h1 : k1.h = k'.h := by rw [only]
  have hOwner1 : k1.hOwner = k'.hOwner := by rw [only]
  rw [hbank]
  split
  next kept =>
    obtain ⟨present, same⟩ : k.present d = true ∧ k.hbank d = k'.hbank d := by simpa using kept
    rw [h1, if_neg fun ⟨here, _, new⟩ => new ⟨present, same.trans here.symm⟩]
  next given =>
    rw [Core.giveBank_h _ _ _ lt, hbank, h1, hOwner1]
    refine if_congr ⟨fun ⟨here, other⟩ => ⟨here, other, fun ⟨present, same⟩ => given ?_⟩, fun ⟨here, other, _⟩ => ⟨here, other⟩⟩ rfl rfl
    simp [present, same, here]

theorem Core.partsGiven_mats (j : Nat) {m : MatCmd} (h : k.mats[j]? = some m) :
    ∃ m', (k.partsGiven d i v).mats[j]? = some m'
      ∧ m.LosesTo d (fun r => (k.withPart d i v).hasRing d r = true ∧ Tab.get 0 k.ringOwner r ≠ d + 1) m' := by
  have mats : (k.withBank (k.withPart d i v) d).mats = k.mats := by rw [Core.withBank_only, Core.withPart_eq]
  obtain ⟨m', held, loses⟩ := Core.giveRest_mats (k.withBank (k.withPart d i v) d) d j (mats ▸ h)
  refine ⟨m', held, (MatCmd.LosesTo.congr fun r => ?_).mp loses⟩
  rw [Core.withBank_only, Core.withPart_eq]
  rfl

theorem Core.partsGiven_copies (j : Nat) {cp : Copy} (h : k.copies[j]? = some cp) :
    ∃ cp', (k.partsGiven d i v).copies[j]? = some cp'
      ∧ cp.LosesTo d (fun r => (k.withPart d i v).hasRing d r = true ∧ Tab.get 0 k.ringOwner r ≠ d + 1) cp' := by
  have copies : (k.withBank (k.withPart d i v) d).copies = k.copies := by rw [Core.withBank_only, Core.withPart_eq]
  obtain ⟨cp', held, loses⟩ := Core.giveRest_copies (k.withBank (k.withPart d i v) d) d j (copies ▸ h)
  refine ⟨cp', held, (Copy.LosesTo.congr fun r => ?_).mp loses⟩
  rw [Core.withBank_only, Core.withPart_eq]
  rfl

end

/-- R361: what a write that is not refused leaves where the domain is present afterwards. -/
theorem State.partWrite_given {s : State} {c d i : Nat} {v : Word} (lt : i < 2)
    (unlocked : (Tab.get 0 (s.core c).plock d).getLsbD 63 = false)
    (allowed : ¬ (s.core c).writeRefused ((s.core c).withPart d i v) d)
    (present : ((s.core c).withPart d i v).present d = true) :
    ∃ t, exec (.partWrite c d i v) s = .next t ∧ ((s.core c).partsGiven d i v).QueuesOnly (t.core c)
      ∧ ∀ n q, (s.core c).queueAt n = some q → q.dom.toNat ≠ d → ((s.core c).withPart d i v).hasQueue d n = true →
        (s.core c).queuePassed q.dom.toNat n = false → (t.core c).queueAt n = none := by
  obtain ⟨t, run, only, unbound⟩ := s.partWrite_queues c d i v
  obtain ⟨part0, part1, rxq⟩ := (s.core c).partsGiven_parts d i v
  rw [Core.partWrite_given lt unlocked allowed present] at only unbound
  refine ⟨t, run, only, fun n q bound other has before => unbound n q ?_ ?_ before⟩
  · exact (show ((s.core c).partsGiven d i v).queueAt n = some q by rw [Core.queueAt, rxq]; exact bound)
  · have passed := Core.queuePassed_of_present present other has
    have same : ((s.core c).partsGiven d i v).queuePassed q.dom.toNat n
        = ((s.core c).withPart d i v).queuePassed q.dom.toNat n := by
      simp only [Core.queuePassed, Core.domains, Core.present, Core.slotMask, Core.hasQueue, Core.rxBase, Core.rxCount, part0, part1]
    exact same.trans passed

/-- R200: what it leaves where the domain leaves the core. -/
theorem State.partWrite_left {s : State} {c d i : Nat} {v : Word} (lt : i < 2)
    (unlocked : (Tab.get 0 (s.core c).plock d).getLsbD 63 = false)
    (allowed : ¬ (s.core c).writeRefused ((s.core c).withPart d i v) d)
    (absent : ((s.core c).withPart d i v).present d = false) :
    ∃ t, exec (.partWrite c d i v) s = .next t ∧
      (if (s.core c).present d then ((s.core c).withPart d i v).discard (s.core c) d else (s.core c).withPart d i v).QueuesOnly
        (t.core c) := by
  obtain ⟨t, run, only, -⟩ := s.partWrite_queues c d i v
  rw [Core.partWrite_left lt unlocked allowed absent] at only
  exact ⟨t, run, only⟩

end Sys2Proof.Machine
end

section
/-! SUPPORT. What the work that a write of SEAL, KEYC, MEXT or ATTEST has asked for leaves (R371 to R377), and the other
registers of the package and of ROUTE (R297, R303, R349). -/

namespace Sys2Proof.Machine

/-! ### Fields of a word -/

theorem fld_lt {n : Nat} (w : BitVec n) (lo len : Nat) : fld w lo len < 2 ^ len := (w.extractLsb' lo len).isLt

/-- The bits of a word in which a field has been set. -/
theorem getLsbD_setFld {n : Nat} (w : BitVec n) (lo len x j : Nat) : (setFld w lo len x).getLsbD j =
    if lo ≤ j ∧ j < lo + len then decide (j < n) && x.testBit (j - lo) else w.getLsbD j := by
  have width := w.getLsbD_of_ge j
  simp only [setFld, BitVec.getLsbD_or, BitVec.getLsbD_and, BitVec.getLsbD_not, BitVec.getLsbD_shiftLeft, BitVec.getLsbD_ofNat,
    Nat.testBit_two_pow_sub_one, Nat.testBit_mod_two_pow]
  by_cases low : j < lo
  · by_cases inside : j < n
    · simp [low, inside, Nat.not_le.mpr low]
    · simp [low, inside, Nat.not_le.mpr low, width (Nat.not_lt.mp inside)]
  · have place : lo ≤ j := Nat.not_lt.mp low
    by_cases inside : j < n
    · have bit : j - lo < n := by omega
      by_cases high : j < lo + len
      · simp [low, place, inside, bit, high, show j - lo < len by omega]
      · simp [low, inside, bit, high, show ¬ j - lo < len by omega]
    · by_cases high : j < lo + len
      · simp [inside, place, high]
      · simp [inside, high, width (Nat.not_lt.mp inside)]

/-- The number in a field is that of its bits. -/
theorem testBit_fld {n : Nat} (w : BitVec n) (lo len j : Nat) : (fld w lo len).testBit j = (decide (j < len) && w.getLsbD (lo + j)) := by
  rw [fld, ← BitVec.getLsbD, BitVec.getLsbD_extractLsb']

/-- A field that stands apart from the one that has been set is as it was. -/
theorem fld_setFld_apart {n : Nat} (w : BitVec n) {lo len lo' len' x : Nat} (h : lo' + len' ≤ lo ∨ lo + len ≤ lo') :
    fld (setFld w lo len x) lo' len' = fld w lo' len' := by
  refine Nat.eq_of_testBit_eq fun j => ?_
  simp only [testBit_fld, getLsbD_setFld]
  by_cases inside : j < len'
  · rw [if_neg (by omega)]
  · simp [inside]

/-- The field that has been set holds the low bits of the number. -/
theorem fld_setFld_same {n : Nat} (w : BitVec n) {lo len x : Nat} (h : lo + len ≤ n) : fld (setFld w lo len x) lo len = x % 2 ^ len := by
  refine Nat.eq_of_testBit_eq fun j => ?_
  rw [testBit_fld, getLsbD_setFld, Nat.testBit_mod_two_pow]
  by_cases inside : j < len
  · rw [if_pos (by omega)]
    simp [inside, show lo + j < n by omega]
  · simp [inside]

/-! ### Work that is asked for -/

/-- Work that is not the next of its register changes nothing. -/
theorem State.done_not {s : State} {w : DomWork} (h : s.work.find? w.like ≠ some w) (f : State → Out) : s.done w f = .next s := by
  simp [State.done, State.takeWork, h]

theorem State.done_next {s : State} {w : DomWork} (h : s.work.find? w.like = some w) (f : State → Out) :
    s.done w f = f { s with work := s.work.erase w } := by
  simp [State.done, State.takeWork, h]

/-- The measurements to be made of a domain are of one register, whichever core has asked for them. -/
theorem DomWork.like_extend (c d pa : Nat) : (DomWork.extend c d pa).like = (DomWork.extend 0 d 0).like := by
  funext w
  cases w <;> rfl

theorem State.extender_of_find {s : State} {c d pa : Nat} (h : s.work.find? (DomWork.extend c d pa).like = some (.extend c d pa)) :
    s.extender d = c := by
  rw [DomWork.like_extend] at h
  simp [State.extender, h]

/-! ### Memory -/

/-- Bytes written at the start of a range are read there. -/
theorem State.rdRaw_append (s : State) (pa : Nat) (bs cs : List Byte) : (s.wrRaw pa (bs ++ cs)).rdRaw pa bs.length = bs := by
  refine List.ext_getElem (by simp [State.rdRaw]) fun i hi _ => ?_
  have lt : i < bs.length := by simpa [State.rdRaw] using hi
  have back := s.wrRaw_get pa i (bs ++ cs) (by simp; omega)
  simpa [State.rdRaw, List.getElem_append_left lt] using back

/-! ### A lost packet (R364, R373) -/

/-- A notice changes the cores alone. -/
theorem State.notice_only (s : State) (c dom cause sub slot : Nat) (taddr : Word) :
    s.notice c dom cause sub slot taddr = { s with cores := (s.notice c dom cause sub slot taddr).cores } := by
  unfold State.notice
  dsimp only
  split <;> rfl

theorem State.packetLost_only (s : State) (c dom slot : Nat) (taddr : Word) : s.packetLost c dom slot taddr =
    { s with cores := (s.packetLost c dom slot taddr).cores, tampered := s.tampered.erase c } := by
  unfold State.packetLost
  rw [State.notice_only]

/-! ### Restore (R371) -/

/-- A domain that has gained a pending record asks again for records to steal; nothing else changes (R74). -/
theorem State.pended_core (s t : State) (d c : Nat) :
    ((s.pended t d).core c) = { t.core c with steals := ((s.pended t d).core c).steals } := by
  unfold State.pended
  split
  · have woken (l : Tab Core) (k : Core) (none : k.askAgain d = k) :
        Tab.get k (l.map fun (c, k) => (c, k.askAgain d)) c = (Tab.get k l c).askAgain d := by
      induction l with
      | nil => exact none.symm
      | cons e r ih =>
        obtain ⟨j, x⟩ := e
        simp only [List.map_cons, Tab.get]
        split
        · rfl
        · exact ih
    have := woken t.cores { Core.boot with cycle := t.halfNs } rfl
    unfold State.core State.wakeSteals
    dsimp only
    rw [this]
    rfl
  · rfl

theorem State.pended_work (s t : State) (d : Nat) : (s.pended t d).work = t.work := by
  unfold State.pended
  split <;> rfl

theorem Core.pushAll_only (k : Core) (fs : List Saved) :
    let t := fs.foldl (fun (k : Core) f => k.pushResume (resumeRec f.thread f.frame k.cycle)) k
    t = { k with deque := t.deque, pendHead := t.pendHead } := by
  dsimp only
  induction fs generalizing k with
  | nil => rfl
  | cons f fs ih =>
    rw [List.foldl_cons, ih]
    unfold Core.pushResume
    split <;> rfl

theorem Core.addRanges_only (k : Core) (d : Nat) (es : List RangeEnt) :
    let t := es.foldl (fun k e => if k.rangeRoom d 1 then k.addRange e else k) k
    t = { k with ranges := t.ranges } := by
  dsimp only
  induction es generalizing k with
  | nil => rfl
  | cons e es ih =>
    rw [List.foldl_cons, ih]
    unfold Core.addRange
    split
    · split <;> rfl
    · rfl

theorem Core.restoreFrom_absent {k : Core} {d : Nat} (h : k.present d = false) (z : Core) : k.restoreFrom z d = k := by
  simp [Core.restoreFrom, h]

/-- A present domain's h bank, generator and rings are those of the image. -/
theorem Core.restoreFrom_present {k : Core} {d : Nat} (h : k.present d = true) (z : Core) :
    rd (k.restoreFrom z d).h (k.hbank d) (Vector.replicate 16 0) = z.bankOf d ∧ (k.restoreFrom z d).rngOf d = z.rngOf d
      ∧ ∀ r, r < 16 → k.hasRing d r = true → (k.restoreFrom z d).ringAt r = z.ringAt r := by
  have lt : k.hbank d < 8 := fld_lt _ _ _
  unfold Core.restoreFrom
  rw [if_neg (by simp [h])]
  dsimp only
  generalize hes : ((z.outRanges d).filter fun e => z.splice.any fun p => e.owner == .command p.2.t.id
    && k.hasSplice d p.1) = es
  rw [Core.addRanges_only]
  dsimp only
  generalize (List.foldl _ k es).ranges = ranges
  refine ⟨?_, ?_, ?_⟩
  · exact rd_wr_same _ _ _ _ lt
  · exact Tab.get_set_same _ _ _ _
  · intro r low own
    have own' : ({ k with ranges := ranges } : Core).hasRing d r = true := own
    simp only [Core.ringAt, rd, dif_pos low, Vector.getElem_ofFn, own', if_true]

end Sys2Proof.Machine
end

section
/-! SUPPORT. What the events of the registers leave: restore, keys, measurement and attestation (R371 to R377), ROUTE and
POOL (R297, R303), L1CFG (R201) and PREQ (R351). -/

namespace Sys2Proof.Machine

/-- The image of the only save, where it passes the checks of R371, is what a restore loads: the domain's part of it, with
the busy and failed bits of SEAL at 0. -/
theorem State.restoreDomain_good {s : State} {c d : Nat} {v : Word} {z : Sealed} (one : s.sealed = [z]) (core : z.core = c)
    (dom : z.dom = d) (ctr : z.ctr = Tab.get 0 (s.core c).sealCtr d) (epoch : z.epoch = Tab.get 0 s.epoch d)
    (reads : sealChecked (s.rdRaw (sealArea v) z.bytes.length) = sealChecked z.bytes) (held : c ∉ s.tampered) :
    let k := s.core c
    let x := k.restoreFrom z.state d
    let t := s.restoreDomain c d v
    t.work = s.work ∧ Tab.get 0 (t.core c).sealReg d = setFld (Tab.get 0 k.sealReg d) 1 2 0
      ∧ (t.core c).h = x.h ∧ (t.core c).rng = x.rng ∧ (t.core c).ring = x.ring ∧ (t.core c).store = x.store := by
  have kept : s.tampered.contains c = false := by simpa using held
  dsimp only
  unfold State.restoreDomain
  simp only [kept, Bool.false_eq_true, if_false, one, List.find?_singleton]
  rw [if_pos (by simp only [core, dom, ctr, epoch, reads, BEq.rfl, Bool.and_true, decide_true])]
  dsimp only
  refine ⟨State.pended_work .., ?_⟩
  rw [State.pended_core, State.core_setCore_same, Core.pushAll_only]
  exact ⟨Tab.get_set_same .., rfl, rfl, rfl, rfl⟩

/-- The failed bit is set where the image does not pass, or its packet fails, and nothing of the domain is loaded. -/
theorem State.restoreDomain_failed {s : State} {c d : Nat} {v : Word}
    (h : c ∈ s.tampered ∨ ∀ z ∈ s.sealed, z.core = c → z.dom = d → z.ctr = Tab.get 0 (s.core c).sealCtr d →
      z.epoch = Tab.get 0 s.epoch d → sealChecked (s.rdRaw (sealArea v) z.bytes.length) ≠ sealChecked z.bytes) :
    let k := s.core c
    let t := s.restoreDomain c d v
    t.work = s.work ∧ (Tab.get 0 (t.core c).sealReg d).getLsbD 2 = true
      ∧ (t.core c).h = k.h ∧ (t.core c).store = k.store ∧ (t.core c).deque = k.deque := by
  have failed (u : State) (work : u.work = s.work) (only : (s.core c).SlotsL1Only (u.core c)) :
      let t := u.setCore c { u.core c with
        sealReg := Tab.set 0 (u.core c).sealReg d (setFld (Tab.get 0 (u.core c).sealReg d) 2 1 1) }
      t.work = s.work ∧ (Tab.get 0 (t.core c).sealReg d).getLsbD 2 = true
        ∧ (t.core c).h = (s.core c).h ∧ (t.core c).store = (s.core c).store ∧ (t.core c).deque = (s.core c).deque := by
    dsimp only
    rw [State.core_setCore_same]
    refine ⟨work, ?_, ?_⟩
    · rw [Tab.get_set_same, getLsbD_setFld]
      rfl
    · rw [only.1]
      exact ⟨rfl, rfl, rfl⟩
  dsimp only
  unfold State.restoreDomain
  by_cases lost : c ∈ s.tampered
  · have taken : s.tampered.contains c = true := by simpa using lost
    simp only [taken, if_true]
    refine failed _ ?_ ((State.SlotsL1Only.packetLost s c d 0 0).2 c)
    rw [State.packetLost_only]
  · have kept : s.tampered.contains c = false := by simpa using lost
    simp only [kept, Bool.false_eq_true, if_false]
    have none : (s.sealed.find? fun z => z.core == c && z.dom == d && z.ctr == Tab.get 0 (s.core c).sealCtr d
        && z.epoch == Tab.get 0 s.epoch d
        && decide (sealChecked (s.rdRaw (sealArea v) z.bytes.length) = sealChecked z.bytes)) = none := by
      refine List.find?_eq_none.mpr fun z saved good => ?_
      simp only [Bool.and_eq_true, beq_iff_eq, decide_eq_true_eq] at good
      obtain ⟨⟨⟨⟨core, dom⟩, ctr⟩, epoch⟩, reads⟩ := good
      exact h.resolve_left lost z saved core dom ctr epoch reads
    rw [none]
    exact failed s rfl (.refl _)

/-! ### Keys, measurement and attestation (R372 to R377) -/

theorem State.refreshKeys_done (s : State) (d : Nat) : (s.refreshKeys d).work = s.work
    ∧ Tab.get 0 (s.refreshKeys d).epoch d = Tab.get 0 s.epoch d + 1 ∧ (s.refreshKeys d).measOf d = List.replicate 48 0 :=
  ⟨rfl, by rw [State.refreshKeys, Tab.get_set_same], Tab.get_erase_same _ s.meas d⟩

theorem State.extendMeas_kept {s : State} {c : Nat} (h : c ∉ s.tampered) (d pa : Nat) :
    s.extendMeas c d pa = { s with meas := s.meas.put d (sha384 (s.measOf d ++ s.rdRaw pa 48)) } :=
  if_neg (by simpa using h)

theorem State.extendMeas_lost {s : State} {c : Nat} (h : c ∈ s.tampered) (d pa : Nat) :
    s.extendMeas c d pa = s.packetLost c d 0 0 := if_pos (by simpa using h)

theorem State.attestAt_lost {s : State} {c : Nat} (h : c ∈ s.tampered) (d pa : Nat) :
    s.attestAt c d pa = s.packetLost c d 0 0 := if_pos (by simpa using h)

/-- A report stands at its address, head first, and the domain counts as attested. -/
theorem State.attestAt_kept {s : State} {c : Nat} (h : c ∉ s.tampered) (d pa : Nat) :
    Tab.get false (s.attestAt c d pa).attested d = true
      ∧ (s.attestAt c d pa).rdRaw pa (s.reportHead (dieOf c) d pa).length = s.reportHead (dieOf c) d pa := by
  unfold State.attestAt
  rw [if_neg (by simpa using h)]
  dsimp only
  generalize s.reportHead (dieOf c) d pa = head
  generalize (List.range 96).map _ = signature
  refine ⟨?_, s.rdRaw_append pa head signature⟩
  rw [Tab.get_set_same]

/-! ### ROUTE and POOL (R297, R303) -/

theorem Core.routeWrite_word1 (k : Core) (e : Nat) (v : Word) :
    (k.routeWrite e 1 v).routeAt e = ((k.routeAt e).1, v &&& 0x1FFFFFFFF) := Tab.get_set_same ..

/-- A bit that R297 reserves is not stored. -/
theorem getLsbD_routeMask (v : Word) (j : Nat) (h : 28 ≤ j) (lt : j < 64) :
    (v &&& 0xFFFFFFFFF0000000).getLsbD j = v.getLsbD j := by
  have bit : ∀ j, j < 64 → 28 ≤ j → (0xFFFFFFFFF0000000 : Word).getLsbD j = true := by decide
  rw [BitVec.getLsbD_and, bit j lt h, Bool.and_true]

theorem fld_routeMask (v : Word) : fld (v &&& 0xFFFFFFFFF0000000) 28 16 = fld v 28 16 := by
  refine Nat.eq_of_testBit_eq fun j => ?_
  rw [testBit_fld, testBit_fld]
  by_cases inside : j < 16
  · rw [getLsbD_routeMask v (28 + j) (by omega) (by omega)]
  · simp [inside]

/-- Word 0 of an entry takes the fields written, with a policy of 3 stored as 0; the credit is the capacity where the
capacity, or failed, is another than before. -/
theorem Core.routeWrite_word0 (k : Core) (e : Nat) (v : Word) : rtValid ((k.routeWrite e 0 v).routeAt e) = v.getLsbD 55
    ∧ rtCapacity ((k.routeWrite e 0 v).routeAt e) = fld v 28 16
    ∧ (fld v 28 16 ≠ rtCapacity (k.routeAt e) → rtCredit ((k.routeWrite e 0 v).routeAt e) = fld v 28 16) := by
  generalize hp : (if fld v 52 2 = 3 then setFld v 52 2 0 else v) = p
  have cap : fld p 28 16 = fld v 28 16 := by
    subst hp
    split
    · exact fld_setFld_apart v (Or.inl (by decide))
    · rfl
  have valid : p.getLsbD 55 = v.getLsbD 55 := by
    subst hp
    split
    · exact (getLsbD_setFld v 52 2 0 55).trans (if_neg (by decide))
    · rfl
  generalize hc : (if fld p 28 16 ≠ fld (k.routeAt e).1 28 16 ∨ p.getLsbD 54 ≠ (k.routeAt e).1.getLsbD 54 then fld p 28 16
      else fld (k.routeAt e).1 12 16) = credit
  have stored : ((k.routeWrite e 0 v).routeAt e).1 = setFld (p &&& 0xFFFFFFFFF0000000) 12 16 credit := by
    subst hc hp
    exact congrArg Prod.fst (Tab.get_set_same ..)
  unfold rtValid rtCapacity rtCredit
  rw [stored]
  refine ⟨?_, ?_, fun changed => ?_⟩
  · rw [getLsbD_setFld, if_neg (by decide), getLsbD_routeMask _ _ (by decide) (by decide), valid]
  · rw [fld_setFld_apart _ (Or.inr (by decide)), fld_routeMask, cap]
  · rw [fld_setFld_same _ (by decide), ← hc, if_pos (Or.inl (by rwa [cap])), cap]
    exact Nat.mod_eq_of_lt (fld_lt v 28 16)

/-- Every page of a pool that is written is free. -/
theorem Core.poolWrite_pool (k : Core) (d i : Nat) (v : Word) : (Tab.get {} (k.poolWrite d i v).pool d).used = []
    ∧ (i = 0 → (Tab.get {} (k.poolWrite d i v).pool d).base = v.toNat / 65536 * 65536) := by
  unfold Core.poolWrite
  dsimp only
  rw [Tab.get_set_same]
  exact ⟨rfl, fun zero => by subst zero; rfl⟩

end Sys2Proof.Machine
end

section
/-! The theorem that settles O53, and SUPPORT for its clauses. -/

namespace Sys2Proof.Machine

/-! ### PART -/

theorem MatCmd.LosesTo.lost_iff {d : Nat} {p q : Nat → Prop} {m m' : MatCmd} (h : m.LosesTo d (fun r => p r ∧ q r) m') :
    m'.lost = true ↔ m.lost = true ∨ (m.t.dom.toNat ≠ d ∧ ∃ r, p r ∧ q r ∧ m.names r = true) := by
  simpa only [and_assoc] using h.2.2

theorem Copy.LosesTo.lost_iff {d : Nat} {p q : Nat → Prop} {cp cp' : Copy} (h : cp.LosesTo d (fun r => p r ∧ q r) cp') :
    cp'.lost = true ↔ cp.lost = true ∨ (cp.t.dom.toNat ≠ d ∧ ∃ r, p r ∧ q r ∧ cp.toRing = some r) := by
  simpa only [and_assoc] using h.2.2

theorem Core.QueuesOnly.read {α : Type} {k k' : Core} (h : k.QueuesOnly k') (f : Core → α)
    (blind : ∀ q hold pool fills, f { k with rxq := q, hold, pool, fills } = f k) : f k' = f k := by
  rw [h]
  exact blind _ _ _ _

section
variable {s : State} {c d i : Nat} {v : Word} (lt : i < 2) (unlocked : (Tab.get 0 (s.core c).plock d).getLsbD 63 = false)
    (allowed : ¬ (s.core c).writeRefused ((s.core c).withPart d i v) d)
include lt unlocked allowed

/-- R24, R361: a write after which the domain is present. -/
theorem State.partWrite_present (present : ((s.core c).withPart d i v).present d = true) :
    let k := s.core c
    let k' := k.withPart d i v
    let passes (owner : Tab Nat) (j : Nat) : Prop := Tab.get 0 owner j ≠ d + 1
    ∃ t, exec (.partWrite c d i v) s = .next t ∧ (t.core c).part0 = k'.part0 ∧ (t.core c).part1 = k'.part1
      ∧ (∀ off, Tab.get 0 (t.core c).store off =
        if inRange (off / 32768) (k'.bankBase d) (k'.bankCount d) = true ∧ passes k.bankOwner (off / 32768) then 0
        else Tab.get 0 k.store off)
      ∧ (∀ a e j, a < 4 → e < 64 → j < 64 → (t.core c).accAt a e j =
        if k'.hasAcc d a = true ∧ passes k.accOwner a then 0 else k.accAt a e j)
      ∧ (∀ r, r < 16 → (t.core c).ringAt r =
        if k'.hasRing d r = true ∧ passes k.ringOwner r then { sigma := 0x3F800000 } else k.ringAt r)
      ∧ (∀ b, b < 8 → rd (t.core c).h b (Vector.replicate 16 0) =
        if b = k'.hbank d ∧ passes k.hOwner b ∧ ¬ (k.present d = true ∧ k.hbank d = b) then Vector.replicate 16 0
        else rd k.h b (Vector.replicate 16 0))
      ∧ (∀ (j : Nat) (m : MatCmd), k.mats[j]? = some m → ∃ m' : MatCmd, (t.core c).mats[j]? = some m'
        ∧ m.LosesTo d (fun r => k'.hasRing d r = true ∧ passes k.ringOwner r) m')
      ∧ (∀ (j : Nat) (cp : Copy), k.copies[j]? = some cp → ∃ cp' : Copy, (t.core c).copies[j]? = some cp'
        ∧ cp.LosesTo d (fun r => k'.hasRing d r = true ∧ passes k.ringOwner r) cp')
      ∧ ∀ n q, k.queueAt n = some q → q.dom.toNat ≠ d → k'.hasQueue d n = true →
          k.queuePassed q.dom.toNat n = false → (t.core c).queueAt n = none := by
  obtain ⟨t, run, only, unbound⟩ := State.partWrite_given lt unlocked allowed present
  obtain ⟨part0, part1, -⟩ := (s.core c).partsGiven_parts d i v
  refine ⟨t, run, ?_, ?_, fun off => ?_, fun a e j ha he hj => ?_, fun r low => ?_, fun b low => ?_, fun j m held => ?_,
    fun j cp held => ?_, unbound⟩
  · exact (only.read Core.part0 fun _ _ _ _ => rfl).trans part0
  · exact (only.read Core.part1 fun _ _ _ _ => rfl).trans part1
  · exact (only.read (Tab.get 0 ·.store off) fun _ _ _ _ => rfl).trans (Core.partsGiven_store _ d i v off)
  · exact (only.read (·.accAt a e j) fun _ _ _ _ => rfl).trans (Core.partsGiven_accAt _ d i v a e j ha he hj)
  · exact (only.read (·.ringAt r) fun _ _ _ _ => rfl).trans (Core.partsGiven_ringAt _ d i v r low)
  · exact (only.read (rd ·.h b _) fun _ _ _ _ => rfl).trans (Core.partsGiven_h _ d i v b low)
  · rw [only.read Core.mats fun _ _ _ _ => rfl]
    exact Core.partsGiven_mats _ d i v j held
  · rw [only.read Core.copies fun _ _ _ _ => rfl]
    exact Core.partsGiven_copies _ d i v j held

/-- R200: a write after which the domain is not present. -/
theorem State.partWrite_absent (absent : ((s.core c).withPart d i v).present d = false) :
    let k := s.core c
    let k' := k.withPart d i v
    ∃ t, exec (.partWrite c d i v) s = .next t ∧ (t.core c).part0 = k'.part0 ∧ (t.core c).part1 = k'.part1
      ∧ (k.present d = true → (∀ e ∈ (t.core c).ranges, e.2.dom.toNat ≠ d) ∧ (∀ cp ∈ (t.core c).copies, cp.t.dom.toNat ≠ d)
        ∧ (∀ off, inRange (off / 32768) (k.bankBase d) (k.bankCount d) = true → Tab.get 0 (t.core c).store off = 0)
        ∧ ∀ r, r < 16 → k.hasRing d r = true → (t.core c).ringAt r = { sigma := 0x3F800000 }) := by
  obtain ⟨t, run, only⟩ := State.partWrite_left lt unlocked allowed absent
  by_cases there : (s.core c).present d = true
  · rw [if_pos there] at only
    have parts := Core.discard_only ((s.core c).withPart d i v) (s.core c) d
    refine ⟨t, run, ?_, ?_, fun _ => ⟨?_, ?_, fun off bank => ?_, fun r low ring => ?_⟩⟩
    · exact (only.read Core.part0 fun _ _ _ _ => rfl).trans (by rw [parts])
    · exact (only.read Core.part1 fun _ _ _ _ => rfl).trans (by rw [parts])
    · rw [only.read Core.ranges fun _ _ _ _ => rfl]
      exact Core.discard_ranges _ _ _
    · rw [only.read Core.copies fun _ _ _ _ => rfl]
      exact Core.discard_copies _ _ _
    · exact (only.read (Tab.get 0 ·.store off) fun _ _ _ _ => rfl).trans (Core.discard_store _ _ _ _ bank)
    · exact (only.read (·.ringAt r) fun _ _ _ _ => rfl).trans (Core.discard_ringAt _ _ _ _ low ring)
  · rw [if_neg there] at only
    exact ⟨t, run, only.read Core.part0 fun _ _ _ _ => rfl, only.read Core.part1 fun _ _ _ _ => rfl, fun h => (there h).elim⟩

end

/-- Settles O53: each event of a register is the write of its register on the core, and what such a write leaves is said by
the lemma about that write; SEAL, KEYC, MEXT and ATTEST first take their work from what is asked for. -/
theorem registerEvents : Obligations.RegisterEvents := by
  unfold Obligations.RegisterEvents
  intro s c
  refine ⟨fun may => ?_, fun must => ?_, fun v => ?_, fun lb f pending due idle => ?_, fun v i a slots held => ?_,
    fun d r v => ?_, fun d v => ?_, fun d i v => ⟨fun locked => ?_, fun unlocked => ?_⟩, fun d i v lt unlocked => ?_, fun d v => ?_,
    fun d v => ⟨fun idle => State.done_not idle _, fun asked => ⟨fun z one core dom ctr epoch reads held => ?_, fun fails => ?_⟩⟩,
    fun d => ⟨fun idle => State.done_not idle _, fun asked => ?_⟩, fun d pa => ⟨fun idle => ?_, fun asked backed => ?_⟩,
    fun d pa idle => State.done_not idle _, fun d pa asked backed => ?_, fun v => ⟨_, rfl, rfl⟩, ⟨_, rfl, rfl⟩,
    fun e v => ⟨⟨_, rfl, ?_⟩, _, rfl, ?_⟩, fun d i v => ⟨_, rfl, ?_⟩⟩
  case refine_1 => exact ⟨_, if_pos may, by rw [State.core_modCore_same]⟩
  case refine_2 => exact ⟨_, if_pos must, by rw [State.core_modCore_same]⟩
  case refine_3 =>
    refine ⟨_, rfl, ?_⟩
    rw [State.core_modCore_same, Core.l1cfgWrite]
    split <;> rfl
  case refine_4 =>
    refine ⟨s.setLb c lb, ?_, s.setLb_core c lb⟩
    have ready : (decide (f ≤ (s.core c).cycle) && (s.core c).idle) = true := by simp [due, idle]
    simp only [exec, execL1Reconfigure, pending, ready, if_true]
  case refine_5 => exact ⟨_, rfl, by rw [State.core_modCore_same]; exact Core.preqWrite_threadAt slots held⟩
  case refine_6 => exact ⟨_, rfl, by rw [State.core_modCore_same]; exact ⟨rfl, rfl⟩⟩
  case refine_7 =>
    refine ⟨_, rfl, ?_⟩
    rw [State.core_modCore_same]
    exact ⟨Tab.get_set_same .., Tab.get_set_same ..⟩
  case refine_8 => exact State.partWrite_no_effect (Core.partWrite_locked locked i v)
  case refine_9 =>
    have stored := Core.partWrite_part2 unlocked v
    refine ⟨_, State.partWrite_core_same (by rw [stored]) (by rw [stored]), ?_⟩
    rw [State.core_modCore_same, stored]
    exact Tab.get_set_same ..
  case refine_10 =>
    refine ⟨fun refused => State.partWrite_no_effect (Core.partWrite_refused lt unlocked refused), fun allowed => ?_⟩
    cases present : ((s.core c).withPart d i v).present d
    case false =>
      obtain ⟨t, run, part0, part1, left⟩ := State.partWrite_absent lt unlocked allowed present
      exact ⟨t, run, part0, part1, fun there => (Bool.false_ne_true (present.symm.trans there)).elim, fun _ => left⟩
    case true =>
      obtain ⟨t, run, part0, part1, store, acc, ring, h, mats, copies, queues⟩ :=
        State.partWrite_present lt unlocked allowed present
      refine ⟨t, run, part0, part1, fun _ => ⟨store, acc, ring, h, fun j m held => ?_, fun j cp held => ?_, queues⟩,
        fun absent => (Bool.false_ne_true (absent.symm.trans present)).elim⟩
      · obtain ⟨m', held', loses⟩ := mats j m held
        exact ⟨m', held', loses.lost_iff⟩
      · obtain ⟨cp', held', loses⟩ := copies j cp held
        exact ⟨cp', held', loses.lost_iff⟩
  case refine_11 =>
    refine ⟨fun locked clears busy => ⟨_, rfl, ?_⟩, fun allowed => ⟨_, rfl, ?_⟩⟩
    · rw [State.core_modCore_same, Core.plockWrite_kept locked clears busy]
    · rw [State.core_modCore_same, Core.plockWrite_stored allowed]
      exact Tab.get_set_same ..
  case refine_12 =>
    obtain ⟨work, sealReg, h, rng, ring, store⟩ := State.restoreDomain_good
      (s := { s with work := s.work.erase (.restore c d v) }) one core dom ctr epoch reads held
    refine ⟨_, State.done_next asked _, work, ?_, ?_, fun present => ?_, fun absent => ?_⟩
    · rw [sealReg, getLsbD_setFld]
      rfl
    · rw [sealReg, getLsbD_setFld]
      rfl
    · obtain ⟨h', rng', ring'⟩ := Core.restoreFrom_present present z.state
      exact ⟨(congrArg (rd · _ _) h).trans h', (congrArg (Tab.get 1 · d) rng).trans rng',
        fun r low own => (congrArg (rd · r ({} : Ring)) ring).trans (ring' r low own)⟩
    · rw [Core.restoreFrom_absent (by exact absent)] at h rng ring store
      exact ⟨h, rng, ring, store⟩
  case refine_13 => exact ⟨_, State.done_next asked _, State.restoreDomain_failed (s := { s with work := s.work.erase (.restore c d v) }) fails⟩
  case refine_14 => exact ⟨_, State.done_next asked _, State.refreshKeys_done _ d⟩
  case refine_15 =>
    refine State.done_not ?_ _
    rw [DomWork.like_extend _ d pa, ← DomWork.like_extend c d pa]
    exact idle _
  case refine_16 =>
    have run := (State.done_next asked fun t =>
      if t.backed pa 48 then .next (t.extendMeas c d pa) else .fault (.unbacked pa)).trans (if_pos backed)
    refine ⟨_, (by rw [exec, execMeasurementExtend, State.extender_of_find asked]; exact run), ?_⟩
    by_cases lost : c ∈ s.tampered
    · rw [State.extendMeas_lost (by exact lost), State.packetLost_only]
      exact ⟨rfl, fun held => (held lost).elim, fun _ => ⟨rfl, rfl⟩⟩
    · rw [State.extendMeas_kept (by exact lost)]
      exact ⟨rfl, fun _ => Tab.get_put_same .., fun held => (lost held).elim⟩
  case refine_17 =>
    refine ⟨_, (State.done_next asked _).trans (if_pos backed), fun held => ?_, fun lost => ?_⟩
    · exact State.attestAt_kept (s := { s with work := s.work.erase (.attest c d pa) }) held d pa
    · rw [State.attestAt_lost (by exact lost), State.packetLost_only]
      exact ⟨rfl, rfl, rfl⟩
  case refine_18 => rw [State.core_modCore_same, Core.routeWrite_word1]
  case refine_19 => rw [State.core_modCore_same]; exact Core.routeWrite_word0 _ e v
  case refine_20 => rw [State.core_modCore_same]; exact Core.poolWrite_pool _ d i v

end Sys2Proof.Machine
end

section
/-! SUPPORT. Translation: the search, the cache of a port and what an engine's access finds there (R256 to R263). -/

namespace Sys2Proof.Machine

/-! ### The search (R256, R257) -/

/-- A search changes PTERR alone. -/
theorem State.search_only (s : State) (dom va : Nat) (order : List (Nat × Bool)) :
    (s.search dom va order).2 = { s with pterr := (s.search dom va order).2.pterr } := by
  induction order generalizing s with
  | nil => rfl
  | cons p r ih =>
    obtain ⟨e, big⟩ := p
    unfold State.search
    split
    · rfl
    · exact (ih _).trans rfl
    · exact ih s

theorem State.search_state {s s1 : State} {dom va : Nat} {order : List (Nat × Bool)} {t : Option Tlb}
    (h : s.search dom va order = (t, s1)) : s1 = { s with pterr := s1.pterr } := by
  have := s.search_only dom va order
  rwa [h] at this

theorem State.search_tlb (s : State) (dom va : Nat) (order : List (Nat × Bool)) : (s.search dom va order).2.tlb = s.tlb := by
  rw [State.search_only]

theorem State.search_backed (s : State) (dom va : Nat) (order : List (Nat × Bool)) (pa n : Nat) :
    (s.search dom va order).2.backed pa n = s.backed pa n := by rw [State.search_only]; rfl

@[simp] theorem State.wrRaw_tlb (s : State) (pa : Nat) (bs : List Byte) : (s.wrRaw pa bs).tlb = s.tlb := by rw [State.wrRaw_eq]

@[simp] theorem State.wrRaw_decoders (s : State) (pa : Nat) (bs : List Byte) : (s.wrRaw pa bs).decoders = s.decoders := by
  rw [State.wrRaw_eq]

@[simp] theorem State.markEntry_tlb (s : State) (e : Nat) (write : Bool) : (s.markEntry e write).tlb = s.tlb := State.wrRaw_tlb ..

/-- What the search found can depend on nothing that a search changes. -/
theorem State.search_pterr (s : State) (v : Word) (dom va : Nat) (order : List (Nat × Bool)) :
    (({ s with pterr := v } : State).search dom va order).1 = (s.search dom va order).1 := by
  have probe (s : State) (v : Word) (e : Nat) (big : Bool) : ({ s with pterr := v } : State).probe e dom va big = s.probe e dom va big := rfl
  induction order generalizing s v with
  | nil => rfl
  | cons p r ih =>
    obtain ⟨e, big⟩ := p
    simp only [State.search, probe]
    split
    · rfl
    · exact (ih s _).trans (ih s _).symm
    · exact ih s v

/-! ### The cache of a port (R258, R259) -/

/-- The entry serves the access: it has the rights, its memory is backed, and a write finds no page that moves. -/
def State.serves (s : State) (t : Tlb) (va : Nat) (need : BitVec 4) : Prop :=
  need &&& ~~~t.rights = 0 ∧ s.backed (t.phys va) 1 = true ∧ ¬ (need.getLsbD 1 = true ∧ t.mig = true)

/-- The port's cached translations. -/
def State.port (s : State) (cl : Nat) : List Tlb := Tab.get [] s.tlb cl

theorem State.serves_iff {s : State} {t : Tlb} {va : Nat} {need : BitVec 4} : s.serves t va need ↔
    ¬ (decide (need &&& ~~~t.rights ≠ 0) || !s.backed (t.phys va) 1 || need.getLsbD 1 && t.mig) = true := by
  simp [State.serves, and_assoc]

theorem State.serves_congr {s s' : State} (h : s'.decoders = s.decoders) (t : Tlb) (va : Nat) (need : BitVec 4) :
    s'.serves t va need ↔ s.serves t va need := by simp only [State.serves, State.backed, h]

theorem State.serves_dirtied {s : State} {t : Tlb} {b : Bool} {va : Nat} {need : BitVec 4} :
    s.serves { t with dirtied := b } va need ↔ s.serves t va need := Iff.rfl

/-- The state in which the agent has marked an entry and port `cl` holds `ts`. -/
def State.cache (s : State) (e : Nat) (write : Bool) (cl : Nat) (ts : List Tlb) : State :=
  { s.markEntry e write with tlb := s.tlb.put cl ts }

theorem State.cache_port (s : State) (e : Nat) (write : Bool) (cl : Nat) (ts : List Tlb) :
    (s.cache e write cl ts).port cl = ts := Tab.get_put_same ..

theorem State.cache_decoders (s : State) (e : Nat) (write : Bool) (cl : Nat) (ts : List Tlb) :
    (s.cache e write cl ts).decoders = s.decoders := State.wrRaw_decoders ..

/-- A write through a translation that is not marked dirty marks it (R258). -/
def State.dirties (s : State) (t : Tlb) (va : Nat) (need : BitVec 4) : Bool :=
  need.getLsbD 1 && !t.dirtied && !t.mig && need &&& ~~~t.rights = 0 && s.backed (t.phys va) 1

theorem State.dirties_iff {s : State} {t : Tlb} {va : Nat} {need : BitVec 4} :
    s.dirties t va need = true ↔ s.serves t va need ∧ need.getLsbD 1 = true ∧ t.dirtied = false := by
  cases write : need.getLsbD 1 <;> cases mig : t.mig <;> cases dirty : t.dirtied <;>
    simp only [State.dirties, State.serves, write, mig, dirty] <;> simp

theorem State.lookupPage_held {s : State} {cl dom va : Nat} (need : BitVec 4) {t : Tlb}
    (held : (s.port cl).find? (·.covers dom va) = some t) : s.lookupPage cl dom va need =
      if s.dirties t va need then (some { t with dirtied := true },
        s.cache t.ent true cl ({ t with dirtied := true } :: (s.port cl).filter (· ≠ t))) else (some t, s) := by
  unfold State.lookupPage
  dsimp only
  rw [show (Tab.get [] s.tlb cl).find? (·.covers dom va) = some t from held]
  rfl

theorem State.lookupPage_absent {s : State} {cl dom va : Nat} (need : BitVec 4)
    (unheld : (s.port cl).find? (·.covers dom va) = none) : s.lookupPage cl dom va need =
      match s.search dom va (s.searchOrder dom va) with
      | (none, s1) => (none, s1)
      | (some t, s1) =>
        if decide (need &&& ~~~t.rights ≠ 0) || !s1.backed (t.phys va) 1 || need.getLsbD 1 && t.mig then (some t, s1)
        else (some { t with dirtied := need.getLsbD 1 },
          s1.cache t.ent (need.getLsbD 1) cl ({ t with dirtied := need.getLsbD 1 } :: s.port cl)) := by
  unfold State.lookupPage
  dsimp only
  rw [show (Tab.get [] s.tlb cl).find? (·.covers dom va) = none from unheld]
  have tlb := s.search_tlb dom va (s.searchOrder dom va)
  generalize s.search dom va (s.searchOrder dom va) = found at tlb
  obtain ⟨_ | t, s1⟩ := found
  · rfl
  · rfl

/-- What a lookup that finds a translation does: it is held and nothing changes; or the cache changes, and the
translation serves; or it is found in the table and does not serve. -/
theorem State.lookupPage_some {s s1 : State} {cl dom va : Nat} {need : BitVec 4} {t : Tlb}
    (h : s.lookupPage cl dom va need = (some t, s1)) :
    ((s.port cl).find? (·.covers dom va) = some t ∧ s1 = s ∧ s.dirties t va need = false)
    ∨ (s1.port cl ≠ s.port cl ∧ s1.serves t va need)
    ∨ ((s.port cl).find? (·.covers dom va) = none ∧ s.search dom va (s.searchOrder dom va) = (some t, s1)
        ∧ ¬ s.serves t va need) := by
  cases held : (s.port cl).find? (·.covers dom va) with
  | some t0 =>
    rw [State.lookupPage_held need held] at h
    split at h
    next dirties =>
      obtain ⟨serves, -, clean⟩ := State.dirties_iff.mp dirties
      cases h
      refine .inr (.inl ⟨fun same => ?_, (State.serves_congr (State.cache_decoders ..) ..).mpr serves⟩)
      have listed : t0 ∈ s.port cl := List.mem_of_find?_eq_some held
      rw [State.cache_port] at same
      rw [← same, List.mem_cons] at listed
      rcases listed with new | old
      · rw [new] at clean
        exact absurd clean Bool.noConfusion
      · simp at old
    next keeps =>
      cases h
      exact .inl ⟨rfl, rfl, Bool.eq_false_of_not_eq_true keeps⟩
  | none =>
    rw [State.lookupPage_absent need held] at h
    have decoders : (s.search dom va (s.searchOrder dom va)).2.decoders = s.decoders := by rw [State.search_only]
    generalize s.search dom va (s.searchOrder dom va) = found at h decoders
    obtain ⟨_ | u, s2⟩ := found
    · cases h
    · dsimp only at h
      split at h
      next lacks =>
        cases h
        refine .inr (.inr ⟨rfl, rfl, fun serves => ?_⟩)
        exact State.serves_iff.mp ((State.serves_congr decoders ..).mpr serves) lacks
      next serves =>
        cases h
        refine .inr (.inl ⟨fun same => ?_, (State.serves_congr (State.cache_decoders ..) ..).mpr (State.serves_iff.mpr serves)⟩)
        rw [State.cache_port] at same
        exact absurd (congrArg List.length same) (by simp)

/-! ### The answer to a translation (R259, R261, R263) -/

/-- What a translation found gives to an access. -/
def State.answer (s : State) (t : Tlb) (va : Nat) (need : BitVec 4) : Xlat :=
  if need &&& ~~~t.rights ≠ 0 then .rights
  else if s.backed (t.phys va) 1 = false then .rights
  else if need.getLsbD 1 && t.mig then .missing
  else .ok (t.phys va)

theorem State.answer_of_serves {s : State} {t : Tlb} {va : Nat} {need : BitVec 4} (h : s.serves t va need) :
    s.answer t va need = .ok (t.phys va) := by
  obtain ⟨rights, backed, still⟩ := h
  have still : ¬ (need.getLsbD 1 && t.mig) = true := by simpa using still
  rw [State.answer, if_neg (by simp [rights]), if_neg (by simp [backed]), if_neg still]

theorem State.answer_not_ok {s : State} {t : Tlb} {va : Nat} {need : BitVec 4} (h : ¬ s.serves t va need) (pa : Nat) :
    s.answer t va need ≠ .ok pa := by
  unfold State.answer
  split
  · exact Xlat.noConfusion
  next rights =>
    split
    · exact Xlat.noConfusion
    next backed =>
      split
      · exact Xlat.noConfusion
      next still => exact (h ⟨by simpa using rights, by simpa using backed, by simpa using still⟩).elim

theorem State.translate_identity {s : State} (h : fld s.ptcfg 0 5 < 6) (cl dom va : Nat) (need : BitVec 4) :
    s.translate cl dom va need = if dom = 0 then (if s.backed va 1 then .ok va else .rights, s) else (.refused, s) := if_pos h

theorem State.translate_table {s : State} (h : ¬ fld s.ptcfg 0 5 < 6) (cl dom va : Nat) (need : BitVec 4) :
    s.translate cl dom va need = match s.lookupPage cl dom va need with
      | (none, s1) => (.missing, s1)
      | (some t, s1) => ((s1.gainRights cl dom va need t).2.answer (s1.gainRights cl dom va need t).1 va need,
          (s1.gainRights cl dom va need t).2) := by
  rw [State.translate, if_neg h]
  dsimp only
  generalize s.lookupPage cl dom va need = found
  obtain ⟨_ | t, s1⟩ := found
  · rfl
  · dsimp only
    unfold State.answer
    split
    · rfl
    · split
      · rfl
      · split <;> rfl

/-- What happens where a held translation lacks a right (R259): the table's match that serves takes its place; else only
the search is made. -/
theorem State.gainRights_cases (s : State) (cl dom va : Nat) (need : BitVec 4) (t : Tlb) :
    (need &&& ~~~t.rights = 0 ∧ s.gainRights cl dom va need t = (t, s))
    ∨ (need &&& ~~~t.rights ≠ 0 ∧ ∃ u, (s.search dom va (s.searchOrder dom va)).1 = some u ∧ s.serves u va need
        ∧ (s.gainRights cl dom va need t).2.serves (s.gainRights cl dom va need t).1 va need
        ∧ t ∉ (s.gainRights cl dom va need t).2.port cl)
    ∨ (need &&& ~~~t.rights ≠ 0 ∧ (∀ u, (s.search dom va (s.searchOrder dom va)).1 = some u → ¬ s.serves u va need)
        ∧ s.gainRights cl dom va need t = (t, (s.search dom va (s.searchOrder dom va)).2)) := by
  by_cases rights : need &&& ~~~t.rights = 0
  · exact .inl ⟨rights, if_pos rights⟩
  · have only := s.search_only dom va (s.searchOrder dom va)
    have tlb : (s.search dom va (s.searchOrder dom va)).2.port cl = s.port cl := by rw [only]; rfl
    have decoders : (s.search dom va (s.searchOrder dom va)).2.decoders = s.decoders := by rw [only]
    unfold State.gainRights
    rw [if_neg rights]
    generalize s.search dom va (s.searchOrder dom va) = found at tlb decoders
    obtain ⟨_ | u, s1⟩ := found
    · exact .inr (.inr ⟨rights, fun u h => (Option.some_ne_none u h.symm).elim, rfl⟩)
    · dsimp only at tlb decoders ⊢
      split
      next gains =>
        simp only [Bool.and_eq_true, decide_eq_true_eq, Bool.not_eq_true'] at gains
        obtain ⟨⟨has, backed⟩, still⟩ := gains
        have serves : s1.serves u va need := ⟨has, backed, by simpa using still⟩
        refine .inr (.inl ⟨rights, u, rfl, (State.serves_congr decoders ..).mp serves, ?_, fun listed => ?_⟩)
        · exact (State.serves_congr (State.cache_decoders s1 u.ent (need.getLsbD 1) cl _) ..).mpr serves
        · have port := State.cache_port s1 u.ent (need.getLsbD 1) cl
            ({ u with dirtied := need.getLsbD 1 } :: (s1.port cl).filter (· ≠ t))
          rcases List.mem_cons.mp (port ▸ listed) with new | old
          · exact rights (by rw [new]; exact has)
          · simp at old
      next lacks =>
        refine .inr (.inr ⟨rights, fun v same serves => lacks ?_, rfl⟩)
        cases same
        obtain ⟨has, backed, still⟩ := (State.serves_congr decoders ..).mpr serves
        have still : ¬ (need.getLsbD 1 && u.mig) = true := by simpa using still
        simp only [has, backed, decide_true, Bool.and_self, Bool.true_and, Bool.not_eq_true', still]

/-- An access finds its physical address `pa` without a change of anything: under the identity, or in a translation that the
port holds and that serves, a write in one that is marked dirty. -/
def State.reaches (s : State) (cl d va : Nat) (need : BitVec 4) (pa : Nat) : Prop :=
  if fld s.ptcfg 0 5 < 6 then d = 0 ∧ s.backed va 1 = true ∧ pa = va
  else ∃ t, (s.port cl).find? (·.covers d va) = some t ∧ s.serves t va need ∧ s.dirties t va need = false ∧ pa = t.phys va

theorem State.translate_of_reaches {s : State} {cl d va : Nat} {need : BitVec 4} {pa : Nat} (h : s.reaches cl d va need pa) :
    s.translate cl d va need = (.ok pa, s) := by
  unfold State.reaches at h
  split at h
  next identity =>
    obtain ⟨rfl, backed, rfl⟩ := h
    rw [State.translate_identity identity, if_pos rfl, if_pos backed]
  next table =>
    obtain ⟨t, held, serves, clean, rfl⟩ := h
    rw [State.translate_table table, State.lookupPage_held need held, if_neg (by simp [clean])]
    dsimp only
    rcases s.gainRights_cases cl d va need t with ⟨-, same⟩ | ⟨lacks, -⟩ | ⟨lacks, -⟩
    · rw [same, State.answer_of_serves serves]
    · exact (lacks serves.1).elim
    · exact (lacks serves.1).elim

theorem State.search_again {s s1 : State} {dom va : Nat} {t : Tlb} (h : s.search dom va (s.searchOrder dom va) = (some t, s1)) :
    (s1.search dom va (s1.searchOrder dom va)).1 = some t := by
  have only := State.search_state h
  have found := congrArg Prod.fst h
  rw [← s.search_pterr s1.pterr, ← only] at found
  have order : s1.searchOrder dom va = s.searchOrder dom va := by rw [only]; rfl
  rw [order, found]

/-- A translation by the table changes the port's cache only where it succeeds, and one that succeeds without that finds its
address without a change. -/
theorem State.translate_port {s : State} (table : ¬ fld s.ptcfg 0 5 < 6) (cl d va : Nat) (need : BitVec 4) :
    ((∃ pa, (s.translate cl d va need).1 = .ok pa) ∧ (s.translate cl d va need).2.port cl ≠ s.port cl)
    ∨ ((s.translate cl d va need).2.tlb = s.tlb ∧ ∀ pa, (s.translate cl d va need).1 = .ok pa →
        ∃ t, (s.port cl).find? (·.covers d va) = some t ∧ s.serves t va need ∧ s.dirties t va need = false ∧ pa = t.phys va) := by
  rw [State.translate_table table]
  cases found : s.lookupPage cl d va need with
  | mk t s1 =>
    cases t with
    | none =>
      refine .inr ⟨?_, fun pa ok => by cases ok⟩
      cases held : (s.port cl).find? (·.covers d va) with
      | some t =>
        rw [State.lookupPage_held need held] at found
        split at found <;> cases found
      | none =>
        rw [State.lookupPage_absent need held] at found
        have tlb := s.search_tlb d va (s.searchOrder d va)
        generalize s.search d va (s.searchOrder d va) = r at found tlb
        obtain ⟨_ | u, s2⟩ := r
        · cases found
          exact tlb
        · dsimp only at found
          split at found <;> cases found
    | some t =>
      dsimp only
      have gain := s1.gainRights_cases cl d va need t
      rcases State.lookupPage_some found with ⟨held, rfl, clean⟩ | ⟨changed, serves⟩ | ⟨unheld, search, lacks⟩
      · rcases gain with ⟨-, same⟩ | ⟨-, u, -, -, serves, gone⟩ | ⟨lacks, -, same⟩
        · rw [same]
          refine .inr ⟨rfl, fun pa ok => ?_⟩
          by_cases serves : s1.serves t va need
          · rw [State.answer_of_serves serves] at ok
            cases ok
            exact ⟨t, held, serves, clean, rfl⟩
          · exact (State.answer_not_ok serves pa ok).elim
        · rw [State.answer_of_serves serves]
          exact .inl ⟨⟨_, rfl⟩, fun same => gone (same ▸ List.mem_of_find?_eq_some held)⟩
        · rw [same]
          refine .inr ⟨State.search_tlb .., fun pa ok => (State.answer_not_ok ?_ pa ok).elim⟩
          exact fun serves => lacks serves.1
      · rcases gain with ⟨-, same⟩ | ⟨lacks, -⟩ | ⟨lacks, -⟩
        · rw [same, State.answer_of_serves serves]
          exact .inl ⟨⟨_, rfl⟩, changed⟩
        · exact (lacks serves.1).elim
        · exact (lacks serves.1).elim
      · have only := State.search_state search
        have tlb : s1.tlb = s.tlb := by rw [only]
        have decoders : s1.decoders = s.decoders := by rw [only]
        have lacks : ¬ s1.serves t va need := fun serves => lacks ((State.serves_congr decoders ..).mp serves)
        rcases gain with ⟨-, same⟩ | ⟨-, u, again, serves, -⟩ | ⟨-, -, same⟩
        · rw [same]
          exact .inr ⟨tlb, fun pa ok => (State.answer_not_ok lacks pa ok).elim⟩
        · rw [State.search_again search] at again
          cases again
          exact (lacks serves).elim
        · rw [same]
          refine .inr ⟨(State.search_tlb ..).trans tlb, fun pa ok => (State.answer_not_ok ?_ pa ok).elim⟩
          exact fun serves => lacks ((State.serves_congr (by rw [State.search_only]) ..).mp serves)

/-- A translation that succeeds and leaves the port's cache as it is finds its address without a change. -/
theorem State.reaches_of_translate {s : State} {cl d va : Nat} {need : BitVec 4} {pa : Nat}
    (ok : (s.translate cl d va need).1 = .ok pa) (same : (s.translate cl d va need).2.port cl = s.port cl) :
    s.reaches cl d va need pa := by
  unfold State.reaches
  split
  next identity =>
    rw [State.translate_identity identity] at ok
    split at ok
    next zero =>
      cases backed : s.backed va 1 with
      | true => rw [backed] at ok; cases ok; exact ⟨zero, rfl, rfl⟩
      | false => rw [backed] at ok; cases ok
    next => cases ok
  next table =>
    rcases State.translate_port table cl d va need with ⟨-, changed⟩ | ⟨-, reached⟩
    · exact (changed same).elim
    · exact reached pa ok

end Sys2Proof.Machine
end

section
/-! SUPPORT. The bytes that an engine reads and writes (R216, R261, R278): where they stand, and what is read after a write. -/

namespace Sys2Proof.Machine

/-! ### Changes of bytes alone -/

/-- Core `k'` differs from `k` in the bytes of its store and in the events counted. -/
def Core.BytesOnly (k k' : Core) : Prop := k' = { k with store := k'.store, tally := k'.tally }

/-- State `t` differs from `s` in the bytes of the stores and of memory, in the keys of its blocks, and in what the launch
units will read again. -/
def State.BytesOnly (s t : State) : Prop :=
  t = { s with cores := t.cores, mem := t.mem, blockKey := t.blockKey, cipherKey := t.cipherKey, rereads := t.rereads }
    ∧ ∀ j, (s.core j).BytesOnly (t.core j)

theorem State.BytesOnly.refl (s : State) : s.BytesOnly s := ⟨rfl, fun _ => rfl⟩

theorem State.BytesOnly.trans {s t u : State} (h : s.BytesOnly t) (h' : t.BytesOnly u) : s.BytesOnly u := by
  obtain ⟨eq, cores⟩ := h
  obtain ⟨eq', cores'⟩ := h'
  refine ⟨?_, fun j => ?_⟩
  · rw [eq', eq]
  · unfold Core.BytesOnly at *
    rw [cores' j, cores j]

theorem State.BytesOnly.modCore (s : State) (c : Nat) {f : Core → Core} (h : (s.core c).BytesOnly (f (s.core c))) :
    s.BytesOnly (s.modCore c f) := by
  refine ⟨rfl, fun j => ?_⟩
  rw [State.core_modCore]
  split
  next here => rw [here]; exact h
  next => rfl

theorem Core.BytesOnly.count (k : Core) (code : Nat) (slot : Option Nat) (dom n : Nat) :
    k.BytesOnly (k.count code slot dom n) := by
  unfold Core.count
  split <;> rfl

theorem Core.BytesOnly.wrStore (k : Core) (off : Nat) (bs : List Byte) : k.BytesOnly (k.wrStore off bs) := by
  induction bs generalizing k off with
  | nil => rfl
  | cons b r ih => exact (ih _ _).trans rfl

theorem State.BytesOnly.wrPa (s : State) (d pa : Nat) (b : Byte) : s.BytesOnly (s.wrPa d pa b) := by
  have note : s.BytesOnly (s.noteTail pa) := by
    unfold State.noteTail
    dsimp only
    split
    · exact ⟨rfl, fun _ => rfl⟩
    · exact .refl s
  refine note.trans ?_
  unfold State.wrPa
  dsimp only
  generalize s.noteTail pa = u
  rcases u.rekey_cases d pa with ⟨-, eq⟩ | ⟨-, -, eq⟩ | eq <;> rw [eq]
  · exact ⟨rfl, fun _ => rfl⟩
  · exact ⟨rfl, fun _ => rfl⟩
  · rw [State.wrRaw_eq]
    exact ⟨rfl, fun _ => rfl⟩

/-! ### The places of bytes -/

theorem State.reaches_congr {s t : State} (h : s.BytesOnly t) {cl d va : Nat} {need : BitVec 4} {pa : Nat} :
    t.reaches cl d va need pa ↔ s.reaches cl d va need pa := by
  rw [h.1]
  exact Iff.rfl

theorem State.missesTlb_of_reaches {s : State} {cl d va : Nat} {need : BitVec 4} {pa : Nat} (h : s.reaches cl d va need pa) :
    s.missesTlb cl d va = false := by
  unfold State.reaches at h
  unfold State.missesTlb
  split at h
  next identity => simp [Nat.not_le.mpr identity]
  next table =>
    obtain ⟨t, held, -⟩ := h
    have covers : t.covers d va = true := by simpa using List.find?_some held
    have any : (s.port cl).any (·.covers d va) = true := List.any_eq_true.mpr ⟨t, List.mem_of_find?_eq_some held, covers⟩
    rw [show (Tab.get [] s.tlb cl).any (·.covers d va) = true from any]
    simp

theorem State.engXlate_of_reaches {s : State} {c d va : Nat} {need : BitVec 4} {pa : Nat} (held : c ∉ s.tampered)
    (h : s.reaches (clusterOf c) d va need pa) : s.engXlate c d va need = .ok pa s := by
  have kept : s.tampered.contains c = false := by simpa using held
  have counted : s.countMiss c d va = s := by
    rw [State.countMiss, State.missesTlb_of_reaches h]
    rfl
  unfold State.engXlate
  simp only [kept, Bool.false_and, Bool.false_eq_true, if_false, counted, ite_self, State.translate_of_reaches h]

theorem State.countMiss_bytes (s : State) (c d va : Nat) : s.BytesOnly (s.countMiss c d va) := by
  unfold State.countMiss
  split
  · exact .modCore s c (.count ..)
  · exact .refl s

theorem State.reaches_of_engXlate {s : State} {c d va : Nat} {need : BitVec 4} {pa : Nat}
    (h : s.engXlate c d va need = .ok pa s) : s.reaches (clusterOf c) d va need pa := by
  unfold State.engXlate at h
  split at h
  · cases h
  · generalize counts : (if s.reports.contains (d, va / 65536) then s else s.countMiss c d va) = u at h
    have bytes : s.BytesOnly u := by
      subst counts
      split
      · exact .refl s
      · exact s.countMiss_bytes c d va
    have port : u.port (clusterOf c) = s.port (clusterOf c) := by rw [bytes.1]; rfl
    cases found : u.translate (clusterOf c) d va need with
    | mk x s1 =>
      rw [found] at h
      cases x with
      | ok pa' =>
        cases h
        refine (State.reaches_congr bytes).mp (State.reaches_of_translate (congrArg Prod.fst found) ?_)
        rw [found, port]
      | rights => cases h
      | refused => cases h
      | missing =>
        dsimp only at h
        split at h <;> cases h

/-- Where the byte at an address stands for an engine's access: through the window, or in memory (R202, R261). -/
def State.stands (s : State) (c d va : Nat) (need : BitVec 4) (p : Nat × Nat) : Prop :=
  if inWin va then s.storeFault d c va 1 = none ∧ p = ((storeLoc c va).1 + 1, (storeLoc c va).2)
  else s.reaches (clusterOf c) d va need p.2 ∧ s.isBad p.2 1 = false ∧ p.1 = 0

theorem State.stands_of_spot {s : State} {c d va : Nat} {need : BitVec 4} {p : Nat × Nat} (h : s.spot c d va need = some p) :
    s.stands c d va need p := by
  unfold State.spot at h
  unfold State.stands
  split at h
  next win =>
    rw [if_pos win]
    split at h
    next free => cases h; exact ⟨free, rfl⟩
    next => cases h
  next out =>
    rw [if_neg out]
    cases found : s.engXlate c d va need with
    | ok pa s1 =>
      rw [found] at h
      dsimp only at h
      split at h
      next still =>
        obtain ⟨same, good⟩ := still
        cases h
        exact ⟨State.reaches_of_engXlate (found.trans (by rw [same])), good, rfl⟩
      next => cases h
    | wait => rw [found] at h; cases h
    | fail => rw [found] at h; cases h

theorem State.storeFault_congr {s t : State} (h : s.BytesOnly t) (d c x n : Nat) : t.storeFault d c x n = s.storeFault d c x n := by
  have owns (j b : Nat) : (t.core j).ownsBank d b = (s.core j).ownsBank d b := by rw [h.2 j]; rfl
  simp only [State.storeFault, owns]

theorem State.stands_congr {s t : State} (h : s.BytesOnly t) {c d va : Nat} {need : BitVec 4} {p : Nat × Nat} :
    t.stands c d va need p ↔ s.stands c d va need p := by
  have bad : t.isBad p.2 1 = s.isBad p.2 1 := by rw [h.1]; rfl
  unfold State.stands
  rw [State.storeFault_congr h, State.reaches_congr h, bad]

/-! ### The bytes of an element in memory -/

theorem Tlb.covers_page (t : Tlb) (d : Nat) {va va' : Nat} (same : va / 65536 = va' / 65536) : t.covers d va = t.covers d va' := by
  have big : va / 2 ^ 21 = va' / 2 ^ 21 := by omega
  have small : va / 2 ^ 16 = va' / 2 ^ 16 := by omega
  simp only [Tlb.covers, big, small]

/-- Two bytes of one page stand as far from each other as their addresses do. -/
theorem State.reaches_page {s : State} {cl d va i : Nat} {need : BitVec 4} {pa pa' : Nat} (same : va / 65536 = (va + i) / 65536)
    (h : s.reaches cl d va need pa) (h' : s.reaches cl d (va + i) need pa') : pa' = pa + i := by
  unfold State.reaches at h h'
  split at h
  next identity =>
    rw [if_pos identity] at h'
    rw [h.2.2, h'.2.2]
  next table =>
    rw [if_neg table] at h'
    obtain ⟨t, held, -, -, rfl⟩ := h
    obtain ⟨t', held', -, -, rfl⟩ := h'
    simp only [← Tlb.covers_page _ d same] at held'
    rw [held] at held'
    cases held'
    unfold Tlb.phys
    split <;> omega

/-- An element of which every byte stands in memory is found there. -/
theorem State.engPhys_of_reaches {s : State} {c d va n : Nat} {need : BitVec 4} {f : Nat → Nat} (held : c ∉ s.tampered)
    (some : 0 < n) (small : n ≤ 65536) (h : ∀ i, i < n → s.reaches (clusterOf c) d (va + i) need (f i)) :
    s.engPhys c d va n need = .ok ((List.range n).map f) s := by
  have first : s.reaches (clusterOf c) d va need (f 0) := h 0 some
  unfold State.engPhys
  rw [State.engXlate_of_reaches held first]
  dsimp only
  by_cases one : (va + n - 1) / 65536 * 65536 ≤ va
  · rw [if_pos one]
    congr 1
    refine List.map_congr_left fun i hi => ?_
    have lt := List.mem_range.mp hi
    exact (State.reaches_page (by omega) first (h i lt)).symm
  · rw [if_neg one]
    obtain ⟨j, lt, last⟩ : ∃ j, j < n ∧ (va + n - 1) / 65536 * 65536 = va + j := ⟨(va + n - 1) / 65536 * 65536 - va, by omega, by omega⟩
    rw [last, State.engXlate_of_reaches held (h j lt)]
    dsimp only
    congr 1
    refine List.map_congr_left fun i hi => ?_
    have inside := List.mem_range.mp hi
    unfold Lane.phys
    dsimp only
    split
    next same => exact (State.reaches_page same.symm first (h i inside)).symm
    next other =>
      have later : va + i = va + j + (i - j) := by omega
      have place := h i inside
      rw [later] at place
      rw [State.reaches_page (by omega) (h j lt) place]
      omega

/-! ### The bytes of an element in the window -/

/-- Every block that the access touches is a bank of the domain (R202). -/
theorem State.storeFault_eq_none {s : State} {d me x n : Nat} : s.storeFault d me x n = none ↔
    ∀ b ∈ blocks x n, ∃ p, blockLoc me b = some p ∧ (s.core p.1).ownsBank d p.2 = true := by
  unfold State.storeFault
  dsimp only
  constructor
  · intro h b listed
    split at h
    next => cases h
    next found =>
      split at h
      next owned =>
        have := List.all_eq_true.mp owned b listed
        cases place : blockLoc me b with
        | none => rw [place] at this; exact (Bool.false_ne_true this).elim
        | some p => rw [place] at this; exact ⟨p, rfl, this⟩
      next => cases h
  · intro h
    rw [if_neg, if_pos]
    · refine List.all_eq_true.mpr fun b listed => ?_
      obtain ⟨p, place, owned⟩ := h b listed
      rw [place]
      exact owned
    · intro out
      obtain ⟨b, listed, lost⟩ := List.any_eq_true.mp out
      obtain ⟨p, place, -⟩ := h b listed
      rw [place] at lost
      exact Bool.false_ne_true lost

theorem mem_blocks_one {x b : Nat} : b ∈ blocks x 1 ↔ b = x / 32768 := by
  simp [blocks]

/-- An access of which every byte passes the check passes it. -/
theorem State.storeFault_of_bytes {s : State} {d me x n : Nat} (h : ∀ i, i < n → s.storeFault d me (x + i) 1 = none)
    (some : 0 < n) : s.storeFault d me x n = none := by
  refine State.storeFault_eq_none.mpr fun b listed => ?_
  simp only [blocks, List.mem_map, List.mem_range] at listed
  obtain ⟨j, lt, rfl⟩ := listed
  have byte (i : Nat) (hi : i < n) (block : (x + i) / 32768 = x / 32768 + j) :
      ∃ p, blockLoc me (x / 32768 + j) = Option.some p ∧ (s.core p.1).ownsBank d p.2 = true :=
    State.storeFault_eq_none.mp (h i hi) _ (mem_blocks_one.mpr block.symm)
  cases j with
  | zero => exact byte 0 some rfl
  | succ j =>
    exact byte ((x / 32768 + (j + 1)) * 32768 - x) (by omega) (by omega)

/-- A window address that passes the check lies below the gap of its core's region (R13, R202). -/
theorem State.off_of_storeFault {s : State} {d me x : Nat} (h : s.storeFault d me x 1 = none) (win : inWin x = true) :
    (x - winLo) % 0x200000 < 0x180000 := by
  obtain ⟨p, place, -⟩ := State.storeFault_eq_none.mp h _ (mem_blocks_one.mpr rfl)
  have lo : winLo ≤ x := by simp_all [inWin]
  unfold blockLoc at place
  unfold winLo at *
  split at place
  next low => omega
  next =>
    split at place
    next inside => omega
    next => cases place

/-- The bytes of an element in the window stand one after the other in one store. -/
theorem State.storeLoc_bytes {s : State} {d c va n : Nat} (h : ∀ i, i < n → s.storeFault d c (va + i) 1 = none)
    (win : ∀ i, i < n → inWin (va + i) = true) (i : Nat) (lt : i < n) :
    storeLoc c (va + i) = ((storeLoc c va).1, (storeLoc c va).2 + i) := by
  have lo : winLo ≤ va := by
    have := win 0 (by omega)
    simp_all [inWin]
  have off (i : Nat) (lt : i < n) := State.off_of_storeFault (h i lt) (win i lt)
  have place : (va + i - winLo) / 0x200000 = (va - winLo) / 0x200000 ∧ (va + i - winLo) % 0x200000 = (va - winLo) % 0x200000 + i := by
    induction i with
    | zero => exact ⟨by rw [Nat.add_zero], by rw [Nat.add_zero, Nat.add_zero]⟩
    | succ i ih =>
      obtain ⟨core, rest⟩ := ih (by omega)
      have := off i (by omega)
      unfold winLo at *
      omega
  unfold storeLoc
  rw [if_neg (by unfold winLo at lo; omega), if_neg (by unfold winLo at lo; omega), place.1, place.2]

end Sys2Proof.Machine
end

section
/-! SUPPORT. An engine's read and write of an element whose bytes all stand at known places (R216, R278). -/

namespace Sys2Proof.Machine

/-! ### Bytes written at places -/

/-- Domain `d` writes a byte at a place: in memory, or in the store of a core. -/
def State.putByte (s : State) (d : Nat) (p : Nat × Nat) (b : Byte) : State :=
  if p.1 = 0 then s.wrPa d p.2 b else s.wrStore (p.1 - 1) p.2 [b]

theorem State.putByte_bytes (s : State) (d : Nat) (p : Nat × Nat) (b : Byte) : s.BytesOnly (s.putByte d p b) := by
  unfold State.putByte
  split
  · exact .wrPa s d p.2 b
  · exact .modCore s _ (.wrStore _ _ _)

/-- A byte that has been written is read at its place, and at every other place what was read before. -/
theorem State.spotByte_putByte (s : State) (d : Nat) (p q : Nat × Nat) (b : Byte) :
    (s.putByte d p b).spotByte d q = if q = p then b else s.spotByte d q := by
  obtain ⟨pc, pa⟩ := p
  obtain ⟨qc, qa⟩ := q
  simp only [State.putByte, State.spotByte, Prod.mk.injEq]
  by_cases mem : pc = 0
  · rw [if_pos mem]
    by_cases read : qc = 0
    · rw [if_pos read, if_pos read, State.rdPa_wrPa]
      simp only [mem, read, true_and]
    · rw [if_neg read, if_neg read, State.wrPa_core, if_neg fun same => read (same.1.trans mem)]
  · rw [if_neg mem]
    by_cases read : qc = 0
    · rw [if_pos read, if_pos read, if_neg fun same => mem (same.1.symm.trans read)]
      rfl
    · rw [if_neg read, if_neg read, State.wrStore, State.core_modCore]
      have cores : qc - 1 = pc - 1 ↔ qc = pc := by omega
      by_cases core : qc = pc
      · rw [if_pos (cores.mpr core)]
        by_cases off : qa = pa
        · rw [if_pos ⟨core, off⟩, off]
          exact Tab.get_set_same ..
        · rw [if_neg fun same => off same.2, core]
          exact Tab.get_set_ne _ _ _ _ _ off
      · rw [if_neg (cores.not.mpr core), if_neg fun same => core same.1]

/-- Domain `d` writes bytes at places, one after the other. -/
def State.putBytes (s : State) (d : Nat) (es : List ((Nat × Nat) × Byte)) : State :=
  es.foldl (fun s e => s.putByte d e.1 e.2) s

theorem State.putBytes_append (s : State) (d : Nat) (es fs : List ((Nat × Nat) × Byte)) :
    s.putBytes d (es ++ fs) = (s.putBytes d es).putBytes d fs := List.foldl_append

theorem State.putBytes_bytes (s : State) (d : Nat) (es : List ((Nat × Nat) × Byte)) : s.BytesOnly (s.putBytes d es) := by
  induction es generalizing s with
  | nil => exact .refl s
  | cons e es ih => exact (s.putByte_bytes d e.1 e.2).trans (ih _)

theorem State.spotByte_putBytes_out (s : State) (d : Nat) (es : List ((Nat × Nat) × Byte)) {q : Nat × Nat}
    (h : ∀ e ∈ es, e.1 ≠ q) : (s.putBytes d es).spotByte d q = s.spotByte d q := by
  induction es generalizing s with
  | nil => rfl
  | cons e es ih =>
    refine (ih (s.putByte d e.1 e.2) fun f hf => h f (List.mem_cons_of_mem _ hf)).trans ?_
    rw [State.spotByte_putByte, if_neg (h e List.mem_cons_self).symm]

/-- At a place to which no two bytes have been written, the byte is read that has been. -/
theorem State.spotByte_putBytes (s : State) (d : Nat) (es : List ((Nat × Nat) × Byte)) {q : Nat × Nat} {b : Byte}
    (written : (q, b) ∈ es) (once : ∀ e ∈ es, e.1 = q → e.2 = b) : (s.putBytes d es).spotByte d q = b := by
  induction es using List.reverseRecOn generalizing s with
  | nil => cases written
  | append_singleton es e ih =>
    rw [State.putBytes_append]
    refine ((s.putBytes d es).spotByte_putByte d e.1 q e.2).trans ?_
    split
    next here => exact once e (by simp) here.symm
    next there =>
      rcases List.mem_append.mp written with before | last
      · exact ih s before fun f hf => once f (List.mem_append_left _ hf)
      · rw [List.mem_singleton] at last
        exact (there (by rw [← last])).elim

/-! ### Reads and writes of an element -/

/-- The bytes of a list at the places `f 0`, `f 1`, …. -/
def placed (f : Nat → Nat × Nat) (bs : List Byte) : List ((Nat × Nat) × Byte) :=
  (List.range bs.length).map fun i => (f i, bs.getD i 0)

theorem zipIdx_eq_map (bs : List Byte) : bs.zipIdx = (List.range bs.length).map fun i => (bs.getD i 0, i) := by
  refine List.ext_getElem (by simp) fun i hi _ => ?_
  have lt : i < bs.length := by simpa using hi
  simp [lt]

theorem zip_zipIdx_eq_map (bs : List Byte) (g : Nat → Nat) : (bs.zip ((List.range bs.length).map g)).zipIdx =
    (List.range bs.length).map fun i => ((bs.getD i 0, g i), i) := by
  refine List.ext_getElem (by simp) fun i hi _ => ?_
  have lt : i < bs.length := by simpa using hi
  simp [lt]

section
variable {s : State} {c d va n : Nat} {need : BitVec 4} {f : Nat → Nat × Nat} (held : c ∉ s.tampered)
    (some : 0 < n) (stand : ∀ i, i < n → s.stands c d (va + i) need (f i) ∧ inWin (va + i) = inWin va)
include stand

theorem State.stands_window (win : inWin va = true) (i : Nat) (lt : i < n) :
    s.storeFault d c (va + i) 1 = none ∧ f i = ((storeLoc c va).1 + 1, (storeLoc c va).2 + i) := by
  have window (i : Nat) (lt : i < n) : inWin (va + i) = true := (stand i lt).2.trans win
  have bytes (i : Nat) (lt : i < n) : s.storeFault d c (va + i) 1 = none ∧ f i = ((storeLoc c (va + i)).1 + 1, (storeLoc c (va + i)).2) := by
    have := (stand i lt).1
    unfold State.stands at this
    rwa [if_pos (window i lt)] at this
  refine ⟨(bytes i lt).1, ?_⟩
  rw [(bytes i lt).2, State.storeLoc_bytes (fun i lt => (bytes i lt).1) window i lt]

theorem State.stands_memory (out : inWin va = false) (i : Nat) (lt : i < n) :
    s.reaches (clusterOf c) d (va + i) need (f i).2 ∧ s.isBad (f i).2 1 = false ∧ (f i).1 = 0 := by
  obtain ⟨stand, window⟩ := stand i lt
  unfold State.stands at stand
  rwa [if_neg (by rw [window, out]; exact Bool.false_ne_true)] at stand

include held some

/-- What an engine finds of an element that stands in memory. -/
theorem State.engPhys_of_stands (small : n ≤ 65536) (out : inWin va = false) :
    s.engPhys c d va n need = .ok ((List.range n).map fun i => (f i).2) s
      ∧ ((List.range n).map fun i => (f i).2).any (fun pa => s.isBad pa 1) = false := by
  have memory := State.stands_memory stand out
  refine ⟨State.engPhys_of_reaches held some small fun i lt => (memory i lt).1, ?_⟩
  refine Bool.eq_false_of_not_eq_true fun bad => ?_
  obtain ⟨pa, listed, bad⟩ := List.any_eq_true.mp bad
  obtain ⟨i, hi, rfl⟩ := List.mem_map.mp listed
  rw [(memory i (List.mem_range.mp hi)).2.1] at bad
  exact Bool.false_ne_true bad

theorem State.engStore_of_stands (win : inWin va = true) : s.engStore c d va n = none ∧ s.engLost c d va = none := by
  have kept : s.tampered.contains c = false := by simpa using held
  have window := State.stands_window stand win
  refine ⟨?_, by rw [State.engLost, kept]; rfl⟩
  rw [State.engStore, State.storeFault_of_bytes (fun i lt => (window i lt).1) some]
  rfl

end

theorem State.engLost_kept {s : State} {c : Nat} (held : c ∉ s.tampered) (d va : Nat) : s.engLost c d va = none := by
  have kept : s.tampered.contains c = false := by simpa using held
  rw [State.engLost, kept]
  rfl

/-- An element whose bytes all stand at places of their own is read there. -/
theorem State.engRead_of_stands {s : State} {c d va n : Nat} {f : Nat → Nat × Nat} (held : c ∉ s.tampered)
    (some : 0 < n) (small : n ≤ 65536) (stand : ∀ i, i < n → s.stands c d (va + i) 1 (f i) ∧ inWin (va + i) = inWin va) :
    s.engRead c d va n = .ok ((List.range n).map fun i => s.spotByte d (f i)) s := by
  unfold State.engRead
  cases win : inWin va with
  | true =>
    rw [if_pos rfl, (State.engStore_of_stands held some stand win).1, State.engLost_kept held]
    dsimp only
    congr 1
    refine List.map_congr_left fun i hi => ?_
    rw [(State.stands_window stand win i (List.mem_range.mp hi)).2]
    rfl
  | false =>
    obtain ⟨phys, good⟩ := State.engPhys_of_stands held some stand small win
    rw [if_neg Bool.false_ne_true, phys]
    dsimp only
    rw [State.engLost_kept held]
    dsimp only
    rw [good, if_neg Bool.false_ne_true, List.map_map]
    congr 1
    refine List.map_congr_left fun i hi => ?_
    rw [State.spotByte, if_pos (State.stands_memory stand win i (List.mem_range.mp hi)).2.2]
    rfl

/-- An element whose bytes all stand at places of their own is written there, or not at all where nothing is picked. -/
theorem State.engWrite_of_stands {s : State} {c d va : Nat} {bs : List Byte} {f : Nat → Nat × Nat} (held : c ∉ s.tampered)
    (some : 0 < bs.length) (small : bs.length ≤ 65536)
    (stand : ∀ i, i < bs.length → s.stands c d (va + i) 2 (f i) ∧ inWin (va + i) = inWin va) (pick : Bool) :
    s.engWrite c d va bs (fun _ => pick) = .ok () (if pick then s.putBytes d (placed f bs) else s) := by
  have each (g : State → Nat → State) (same : ∀ t i, i < bs.length → g t i = if pick then t.putByte d (f i) (bs.getD i 0) else t) :
      (List.range bs.length).foldl g s = if pick then s.putBytes d (placed f bs) else s := by
    rw [List.foldl_ext _ (fun t i => if pick then t.putByte d (f i) (bs.getD i 0) else t) s
      fun t i hi => same t i (List.mem_range.mp hi)]
    cases pick with
    | true => simp only [if_true, State.putBytes, placed, List.foldl_map]
    | false => simp
  unfold State.engWrite
  cases win : inWin va with
  | true =>
    rw [if_pos rfl, (State.engStore_of_stands held some stand win).1, State.engLost_kept held]
    dsimp only
    rw [zipIdx_eq_map, List.foldl_map, each]
    intro t i lt
    rw [(State.stands_window stand win i lt).2]
    rfl
  | false =>
    obtain ⟨phys, good⟩ := State.engPhys_of_stands held some stand small win
    rw [if_neg Bool.false_ne_true, phys]
    dsimp only
    rw [State.engLost_kept held]
    dsimp only
    rw [good, if_neg Bool.false_ne_true, zip_zipIdx_eq_map, List.foldl_map, each]
    intro t i lt
    rw [State.putByte, if_pos (State.stands_memory stand win i lt).2.2]

end Sys2Proof.Machine
end

section
/-! SUPPORT. The copy engine (R206, R212, R215, R216): the start of a copy, and a row of it. -/

namespace Sys2Proof.Machine

/-! ### The start of a copy (R206, R212) -/

theorem Copy.toRing_lt {cp : Copy} {r : Nat} (h : cp.toRing = some r) : r < 16 := by
  unfold Copy.toRing at h
  split at h
  · cases h
    exact fld_lt _ _ _
  · cases h

theorem Core.ringAt_setRing (k : Core) {r : Nat} (g : Ring) (lt : r < 16) (q : Nat) :
    (k.setRing r g).ringAt q = if q = r then g else k.ringAt q := by
  split
  next here => subst here; exact rd_wr_same _ _ _ _ lt
  next there => exact rd_wr_ne _ _ _ _ _ there

theorem Core.copyLost_iff (k : Core) (cp : Copy) : k.copyLost cp = true ↔
    cp.lost = true ∨ ∃ r, cp.toRing = some r ∧ k.hasRing cp.t.dom.toNat r = false := by
  simp [Core.copyLost, Option.any_eq_true]

theorem State.copyStart_run {s : State} {c i : Nat} {cp : Copy} (h : (s.core c).copies[i]? = some cp)
    (ready : (s.core c).copyReady i = true) : ∃ t, exec (.copyStart c i) s = .next t
      ∧ (t.core c).copies = (s.core c).copies.set i { cp with started := true, lost := (s.core c).copyLost cp }
      ∧ ∀ r, (t.core c).ringAt r = if cp.toRing = some r ∧ (s.core c).copyLost cp = false
          then { (s.core c).ringAt r with held := ((s.core c).ringAt r).held + cp.slots } else (s.core c).ringAt r := by
  simp only [exec, execCopyStart, h, ready, Bool.not_true, Bool.false_eq_true, if_false]
  refine ⟨_, rfl, ?_⟩
  rw [State.core_setCore_same]
  cases lost : (s.core c).copyLost cp with
  | true => exact ⟨rfl, fun r => (if_neg (by simp)).symm⟩
  | false =>
    cases ring : cp.toRing with
    | none => exact ⟨rfl, fun r => (if_neg (by simp)).symm⟩
    | some q =>
      refine ⟨rfl, fun r => ?_⟩
      refine (Core.ringAt_setRing _ _ (Copy.toRing_lt ring) r).trans ?_
      simp only [and_true, Option.some.injEq, eq_comm (a := q)]
      split
      next here => subst here; rfl
      next => rfl

/-! ### An element of a copy (R204, R215, R216) -/

theorem Shape.ses_range (b : Shape) : 0 < b.ses ∧ b.ses ≤ 65536 := by
  have lt : fld b.ctl 0 3 < 8 := fld_lt _ _ _
  refine ⟨Nat.two_pow_pos _, ?_⟩
  calc b.ses ≤ 2 ^ 8 := Nat.pow_le_pow_right (by decide) (by omega)
    _ ≤ 65536 := by decide

theorem Shape.des_range (b : Shape) : 0 < b.des ∧ b.des ≤ 65536 := by
  unfold Shape.des
  split
  · split <;> decide
  · exact b.ses_range

/-- The bytes that the copy's element receives whose source bytes stand at `q` (R215, R223). -/
def State.copied (s : State) (cp : Copy) (q : Nat → Nat × Nat) : List Byte :=
  let b := cp.blk
  let bs := (List.range b.ses).map fun j => s.spotByte cp.t.dom.toNat (q j)
  if cp.fill then leBytes b.des b.src.toNat
  else if b.conv then leBytes b.des ((FV.ofBits (fmtOf b.stype) (ofLe bs)).round (fmtOf b.dtype) 0 0) else bs

theorem length_leBytes (n v : Nat) : (leBytes n v).length = n := by simp [leBytes]

theorem State.copied_length (s : State) (cp : Copy) (q : Nat → Nat × Nat) : (s.copied cp q).length = cp.blk.des := by
  unfold State.copied
  dsimp only
  split
  · exact length_leBytes _ _
  · split
    · exact length_leBytes _ _
    next plain => simp [Shape.des, plain]

theorem State.copied_congr {s t : State} {cp : Copy} {q : Nat → Nat × Nat}
    (h : cp.fill = false → ∀ j, j < cp.blk.ses → t.spotByte cp.t.dom.toNat (q j) = s.spotByte cp.t.dom.toNat (q j)) :
    t.copied cp q = s.copied cp q := by
  unfold State.copied
  cases fill : cp.fill with
  | true => rfl
  | false =>
    have same : (List.range cp.blk.ses).map (fun j => t.spotByte cp.t.dom.toNat (q j))
        = (List.range cp.blk.ses).map fun j => s.spotByte cp.t.dom.toNat (q j) :=
      List.map_congr_left fun j hj => h fill j (List.mem_range.mp hj)
    dsimp only
    rw [same]

/-- Elements `es` of a copy can all be moved at once: their source bytes stand at the places `Q` and their destination bytes at
the places `P`, and none is both. -/
structure State.CopyAt (s : State) (c : Nat) (cp : Copy) (es : List Nat) (P Q : Nat → Nat → Nat × Nat) : Prop where
  held : c ∉ s.tampered
  kept : cp.lost = false
  source : cp.fill = false → ∀ e ∈ es, ∀ j, j < cp.blk.ses →
    s.stands c cp.t.dom.toNat (cp.srcAt e + j) 1 (Q e j) ∧ inWin (cp.srcAt e + j) = inWin (cp.srcAt e)
  apart : cp.fill = false → ∀ e ∈ es, cp.overlaps c (s.core c) e = false
    ∧ ∀ e' ∈ es, ∀ j j', j < cp.blk.ses → j' < cp.blk.des → Q e j ≠ P e' j'
  dest : ∀ e ∈ es, ∀ j, j < cp.blk.des → s.stands c cp.t.dom.toNat (cp.dstByte c (s.core c) e j) 2 (P e j)
    ∧ inWin (cp.dstByte c (s.core c) e j) = inWin (cp.dstByte c (s.core c) e 0)
    ∧ (cp.toRing.isSome = true → inWin (cp.dstByte c (s.core c) e j) = true ∧ (P e j).1 = c + 1)

theorem State.CopyAt.congr {s t : State} {c : Nat} {cp : Copy} {es : List Nat} {P Q : Nat → Nat → Nat × Nat}
    (h : s.CopyAt c cp es P Q) (bytes : s.BytesOnly t) : t.CopyAt c cp es P Q := by
  have dst (e j : Nat) : cp.dstByte c (t.core c) e j = cp.dstByte c (s.core c) e j := by rw [bytes.2 c]; rfl
  have overlaps (e : Nat) : cp.overlaps c (t.core c) e = cp.overlaps c (s.core c) e := by rw [bytes.2 c]; rfl
  refine ⟨by rw [bytes.1]; exact h.held, h.kept, fun fill e he j lt => ?_, fun fill e he => ?_, fun e he j lt => ?_⟩
  · rw [State.stands_congr bytes]
    exact h.source fill e he j lt
  · rw [overlaps]
    exact h.apart fill e he
  · rw [State.stands_congr bytes, dst, dst]
    exact h.dest e he j lt

section
variable {s : State} {c : Nat} {cp : Copy} {es : List Nat} {P Q : Nat → Nat → Nat × Nat} (h : s.CopyAt c cp es P Q)
include h

theorem State.CopyAt.copyBytes {e : Nat} (he : e ∈ es) : s.copyBytes c cp e = .ok (s.copied cp (Q e)) s := by
  unfold State.copyBytes State.copied
  dsimp only
  cases fill : cp.fill with
  | true => rfl
  | false =>
    simp only [Bool.false_eq_true, if_false]
    rw [State.engRead_of_stands h.held cp.blk.ses_range.1 cp.blk.ses_range.2 (h.source fill e he)]
    dsimp only
    rw [(h.apart fill e he).1, if_neg Bool.false_ne_true]
    split <;> rfl

/-- A byte of a ring destination stands at its offset in the copy's own core. -/
theorem State.CopyAt.ring_byte {e r : Nat} (he : e ∈ es) (ring : cp.toRing = some r) (j : Nat) (lt : j < cp.blk.des) :
    let off := ((s.core c).ringAt r).place cp.slot0 (cp.dstOff e + j)
    off < 0x180000 ∧ s.storeFault cp.t.dom.toNat c (winAddr c off) 1 = none ∧ P e j = (c + 1, off) := by
  obtain ⟨stands, -, inRing⟩ := h.dest e he j lt
  obtain ⟨win, core⟩ := inRing (by rw [ring]; rfl)
  have place : cp.dstByte c (s.core c) e j = winAddr c (((s.core c).ringAt r).place cp.slot0 (cp.dstOff e + j)) := by
    rw [Copy.dstByte, ring]
  rw [place] at stands win
  generalize ((s.core c).ringAt r).place cp.slot0 (cp.dstOff e + j) = off at *
  unfold State.stands at stands
  rw [if_pos win] at stands
  obtain ⟨free, at_⟩ := stands
  have gap := State.off_of_storeFault free win
  have far : ¬ winAddr c off < 0x180000 := by unfold winAddr winLo; omega
  rw [storeLoc, if_neg far] at at_
  rw [at_] at core ⊢
  unfold winAddr winLo at *
  dsimp only at core ⊢
  refine ⟨by omega, free, ?_⟩
  rw [Prod.mk.injEq]
  exact ⟨core, by omega⟩

theorem State.CopyAt.ringStop {e r : Nat} (he : e ∈ es) (ring : cp.toRing = some r) :
    s.ringStop c cp ((s.core c).ringAt r) e = none := by
  have byte := h.ring_byte he ring
  unfold State.ringStop
  dsimp only
  rw [if_neg, if_neg]
  · simp only [List.any_eq_true, List.mem_range, not_exists, not_and]
    intro j lt stop
    rw [State.engStore, (byte j lt).2.1] at stop
    exact Bool.false_ne_true stop
  · simp only [List.any_eq_true, List.mem_range, decide_eq_true_eq, not_exists, not_and, not_le]
    exact fun j lt => (byte j lt).1

theorem State.CopyAt.copyPut {e : Nat} (he : e ∈ es) {bs : List Byte} (len : bs.length = cp.blk.des) (pick : Bool) :
    s.copyPut c cp e bs (fun _ => pick) = .ok () (if pick then s.putBytes cp.t.dom.toNat (placed (P e) bs) else s) := by
  unfold State.copyPut
  cases ring : cp.toRing with
  | none =>
    have dst (j : Nat) : cp.dstByte c (s.core c) e j = cp.dstAt e + j := by rw [Copy.dstByte, ring]
    refine State.engWrite_of_stands h.held (by rw [len]; exact cp.blk.des_range.1) (by rw [len]; exact cp.blk.des_range.2)
      (fun j lt => ?_) pick
    obtain ⟨stands, win, -⟩ := h.dest e he j (len ▸ lt)
    rw [dst, dst] at win
    rw [dst] at stands
    exact ⟨stands, win⟩
  | some r =>
    dsimp only
    rw [h.kept, if_neg Bool.false_ne_true, h.ringStop he ring]
    dsimp only
    congr 1
    rw [zipIdx_eq_map, List.foldl_map]
    cases pick with
    | false => simp
    | true =>
      simp only [if_true, State.putBytes, placed, List.foldl_map]
      refine List.foldl_ext _ _ _ fun t j hj => ?_
      rw [(h.ring_byte he ring j (len ▸ List.mem_range.mp hj)).2.2]
      rfl

end

/-- The bytes that elements of a copy leave at their places. -/
def State.moves (s : State) (cp : Copy) (P Q : Nat → Nat → Nat × Nat) (es : List Nat) : List ((Nat × Nat) × Byte) :=
  es.flatMap fun e => placed (P e) (s.copied cp (Q e))

/-- Elements whose places are known are copied, or tried where nothing is picked. -/
theorem State.CopyAt.copyElems {s t : State} {c : Nat} {cp : Copy} {es : List Nat} {P Q : Nat → Nat → Nat × Nat}
    (h : s.CopyAt c cp es P Q) (pick : Bool) (fs : List Nat) (sub : ∀ e ∈ fs, e ∈ es) (bytes : s.BytesOnly t)
    (reads : cp.fill = false → ∀ e ∈ fs, ∀ j, j < cp.blk.ses →
      t.spotByte cp.t.dom.toNat (Q e j) = s.spotByte cp.t.dom.toNat (Q e j)) :
    t.copyElems c cp (fun _ => pick) fs = .ok () (if pick then t.putBytes cp.t.dom.toNat (s.moves cp P Q fs) else t) := by
  induction fs generalizing t with
  | nil => cases pick <;> rfl
  | cons e fs ih =>
    have here := h.congr bytes
    have he := sub e List.mem_cons_self
    have value : t.copied cp (Q e) = s.copied cp (Q e) := State.copied_congr fun fill => reads fill e List.mem_cons_self
    have rest := fun f hf => sub f (List.mem_cons_of_mem _ hf)
    unfold State.copyElems
    rw [here.copyBytes he, value]
    dsimp only
    rw [here.copyPut he (s.copied_length cp (Q e)) pick]
    dsimp only
    cases pick with
    | false => exact ih rest bytes fun fill f hf => reads fill f (List.mem_cons_of_mem _ hf)
    | true =>
      simp only [if_true] at ih ⊢
      rw [ih rest (bytes.trans (State.putBytes_bytes ..)) fun fill f hf j lt => ?_]
      · rw [← State.putBytes_append]
        rfl
      · rw [State.spotByte_putBytes_out, reads fill f (List.mem_cons_of_mem _ hf) j lt]
        intro x hx
        obtain ⟨i, hi, rfl⟩ := List.mem_map.mp hx
        rw [s.copied_length, List.mem_range] at hi
        exact ((h.apart fill f (rest f hf)).2 e he j i lt hi).symm

end Sys2Proof.Machine
end

section
/-! SUPPORT. A row of a copy retires, waits or fails (R212, R216). -/

namespace Sys2Proof.Machine

theorem State.spotByte_congr {s t : State} {d : Nat} {p : Nat × Nat} (mem : t.rdPa d p.2 = s.rdPa d p.2)
    (store : ∀ j, (t.core j).store = (s.core j).store) : t.spotByte d p = s.spotByte d p := by
  unfold State.spotByte
  rw [mem, store]

/-- A change of a core beside its store leaves every byte. -/
theorem State.spotByte_modCore (s : State) (c d : Nat) (p : Nat × Nat) {f : Core → Core}
    (h : (f (s.core c)).store = (s.core c).store) : (s.modCore c f).spotByte d p = s.spotByte d p := by
  refine State.spotByte_congr rfl fun j => ?_
  rw [State.core_modCore]
  split
  next here => rw [here]; exact h
  next => rfl

theorem Core.BytesOnly.read {α : Type} {k k' : Core} (h : k.BytesOnly k') (f : Core → α)
    (blind : ∀ store tally, f { k with store, tally } = f k) : f k' = f k := by
  rw [h]
  exact blind _ _

theorem Copy.moved_eq (cp : Copy) : cp.moved =
    cp.blk.rowLen cp.fill * (if cp.fill = false ∧ cp.blk.des < cp.blk.ses then cp.blk.ses else cp.blk.des) := by
  unfold Copy.moved
  cases fill : cp.fill with
  | true => simp
  | false =>
    simp only [Bool.false_eq_true, if_false, true_and]
    split
    next less => rw [show cp.blk.ses.max cp.blk.des = cp.blk.ses from Nat.max_eq_left (Nat.le_of_lt less)]
    next more => rw [show cp.blk.ses.max cp.blk.des = cp.blk.des from Nat.max_eq_right (Nat.not_lt.mp more)]

section
variable {s : State} {c i : Nat} {cp : Copy} (listed : (s.core c).copies[i]? = some cp)
    (open_ : cp.started = true ∧ cp.filled = false ∧ cp.cause = 0 ∧ cp.done < cp.rows ∧ (s.core c).copyFree = true)
include listed open_

theorem State.copyRow_step : exec (.copyRowRetire c i) s =
    let d := cp.t.dom.toNat
    let put := fun (s : State) (cp : Copy) => s.modCore c fun k => { k with copies := k.copies.set i cp }
    match s.copyElems c cp (fun _ => false) (cp.row cp.done) with
    | .ok _ s0 =>
      let s1 := match s0.copyElems c cp (fun _ => true) (cp.row cp.done) with
        | .ok _ s1 => s1
        | .wait _ s1 => s1
        | .fail _ s1 => s1
      .next ((put s1 { cp with done := cp.done + 1 }).modCore c fun k =>
        ({ k with copied := Nat.max k.copied (256 * k.cycle) + cp.moved }.count 23 none d (cp.blk.rowLen cp.fill * cp.blk.des)).count
          17 none d (cp.windows cp.done))
    | .wait p s1 => .next (s1.report c d p)
    | .fail x s1 =>
      .next ((put (s1.copyRest c cp cp.done) { cp with cause := x }).modCore c fun k => k.count 24 none d (cp.rows - cp.done)) := by
  obtain ⟨started, filled, cause, more, free⟩ := open_
  have go : (cp.started && !cp.filled && cp.cause == 0 && decide (cp.done < cp.rows) && (s.core c).copyFree) = true := by
    simp [started, filled, cause, more, free]
  simp only [exec, execCopyRowRetire, listed, go, Bool.not_true, Bool.false_eq_true, if_false] <;> rfl

theorem State.copyRow_wait {pg : Nat} {s1 : State}
    (waits : s.copyElems c cp (fun _ => false) (cp.row cp.done) = .wait pg s1) :
    exec (.copyRowRetire c i) s = .next (s1.report c cp.t.dom.toNat pg) := by
  rw [State.copyRow_step listed open_]
  dsimp only
  rw [waits]

/-- A row that fails ends the copy with its cause (R216). -/
theorem State.copyRow_fail {x : Nat} {s1 : State} (fails : s.copyElems c cp (fun _ => false) (cp.row cp.done) = .fail x s1) :
    ∃ t, exec (.copyRowRetire c i) s = .next t ∧ ∀ cp', (t.core c).copies[i]? = some cp' → cp' = { cp with cause := x } := by
  rw [State.copyRow_step listed open_]
  dsimp only
  rw [fails]
  refine ⟨_, rfl, fun cp' held => ?_⟩
  rw [State.core_modCore_same, State.core_modCore_same, Core.count_copies,
    List.getElem?_set] at held
  simp only [if_true] at held
  split at held
  · exact (Option.some.inj held).symm
  · cases held

/-- A row that can be copied at once is copied whole, and no other byte changes (R215, R216). -/
theorem State.copyRow_done {P Q : Nat → Nat → Nat × Nat} (h : s.CopyAt c cp (cp.row cp.done) P Q)
    (distinct : ∀ e ∈ cp.row cp.done, ∀ j, j < cp.blk.des → ∀ e' ∈ cp.row cp.done, ∀ j', j' < cp.blk.des → P e j = P e' j' →
      e = e' ∧ j = j') :
    ∃ t, exec (.copyRowRetire c i) s = .next t
      ∧ (t.core c).copies = (s.core c).copies.set i { cp with done := cp.done + 1 }
      ∧ (t.core c).copied = Nat.max (s.core c).copied (256 * (s.core c).cycle) + cp.moved
      ∧ (∀ e ∈ cp.row cp.done, ∀ j, j < cp.blk.des →
          t.spotByte cp.t.dom.toNat (P e j) = (s.copied cp (Q e)).getD j 0)
      ∧ ∀ p, (∀ e ∈ cp.row cp.done, ∀ j, j < cp.blk.des → P e j ≠ p) →
          t.spotByte cp.t.dom.toNat p = s.spotByte cp.t.dom.toNat p := by
  have tried := h.copyElems false (cp.row cp.done) (fun _ he => he) (.refl s) fun _ _ _ _ _ => rfl
  have moved := h.copyElems true (cp.row cp.done) (fun _ he => he) (.refl s) fun _ _ _ _ _ => rfl
  rw [State.copyRow_step listed open_]
  dsimp only
  rw [tried]
  dsimp only
  rw [if_neg Bool.false_ne_true, moved]
  dsimp only
  rw [if_pos rfl]
  generalize hu : s.putBytes cp.t.dom.toNat (s.moves cp P Q (cp.row cp.done)) = u
  have core : (s.core c).BytesOnly (u.core c) := hu ▸ (State.putBytes_bytes ..).2 c
  have bytes (p : Nat × Nat) : ((u.modCore c fun k => { k with copies := k.copies.set i { cp with done := cp.done + 1 } }).modCore c
      fun k => ({ k with copied := Nat.max k.copied (256 * k.cycle) + cp.moved }.count 23 none cp.t.dom.toNat
        (cp.blk.rowLen cp.fill * cp.blk.des)).count 17 none cp.t.dom.toNat (cp.windows cp.done)).spotByte cp.t.dom.toNat p
      = u.spotByte cp.t.dom.toNat p := by
    rw [State.spotByte_modCore _ _ _ _ (by rw [Core.count_store, Core.count_store]), State.spotByte_modCore _ _ _ _ rfl]
  refine ⟨_, rfl, ?_, ?_, fun e he j lt => ?_, fun p out => ?_⟩
  · rw [State.core_modCore_same, State.core_modCore_same, Core.count_copies,
      Core.count_copies]
    dsimp only
    rw [core.read Core.copies fun _ _ => rfl]
  · rw [State.core_modCore_same, State.core_modCore_same, Core.count_copied,
      Core.count_copied]
    dsimp only
    rw [core.read Core.copied fun _ _ => rfl, core.read Core.cycle fun _ _ => rfl]
  · rw [bytes, ← hu]
    refine State.spotByte_putBytes _ _ _ ?_ fun x hx same => ?_
    · refine List.mem_flatMap.mpr ⟨e, he, List.mem_map.mpr ⟨j, ?_, rfl⟩⟩
      rw [s.copied_length]
      exact List.mem_range.mpr lt
    · obtain ⟨e', he', hx⟩ := List.mem_flatMap.mp hx
      obtain ⟨j', hj', rfl⟩ := List.mem_map.mp hx
      rw [s.copied_length, List.mem_range] at hj'
      obtain ⟨rfl, rfl⟩ := distinct e' he' j' hj' e he j lt same
      rfl
  · rw [bytes, ← hu]
    refine State.spotByte_putBytes_out _ _ _ fun x hx => ?_
    obtain ⟨e, he, hx⟩ := List.mem_flatMap.mp hx
    obtain ⟨j, hj, rfl⟩ := List.mem_map.mp hx
    rw [s.copied_length, List.mem_range] at hj
    exact out e he j hj

end

end Sys2Proof.Machine
end

section
/-! SUPPORT. Fills of a register of a thread that stands on its slot (R96), and the end of a copy (R206, R217, R222). -/

namespace Sys2Proof.Machine

/-! ### Fills -/

theorem Core.slotOf_some {k : Core} {tid i : Nat} (h : k.slotOf tid = some i) : i < 8 ∧ ∃ a, k.threadAt i = some a ∧ a.tid = tid := by
  have found : (List.range 8).find? (fun i => (k.threadAt i).any fun t => t.tid == tid) = some i := h
  have here := List.find?_some found
  obtain ⟨a, held, same⟩ := (Option.any_eq_true ..).mp here
  exact ⟨List.mem_range.mp (List.mem_of_find?_eq_some found), a, held, by simpa using same⟩

theorem Thread.setG_full (t : Thread) (d i : Nat) (v : Word) (h : t.isFull i = true) : (t.setG d v).isFull i = true := by
  unfold Thread.setG
  split
  · exact h
  · simp only [Thread.isFull, Bool.or_eq_true, BitVec.getLsbD_or] at h ⊢
    exact h.imp id fun full => .inl full

theorem Thread.setG_isFull (t : Thread) {d : Nat} (v : Word) (lt : d < 32) : (t.setG d v).isFull d = true := by
  unfold Thread.setG
  split
  next zero => simp [Thread.isFull, zero]
  next =>
    have bit : (BitVec.ofNat 32 (2 ^ d)).getLsbD d = true := by
      rw [BitVec.getLsbD_ofNat, Nat.testBit_two_pow_self, Bool.and_true, decide_eq_true lt]
    rw [Thread.isFull, BitVec.getLsbD_or, bit, Bool.or_true, Bool.or_true]

section
variable {s : State} {c tid : Nat}

theorem State.fillG_slot {i : Nat} (h : (s.core c).slotOf tid = some i) (d : Nat) (v : Word) :
    s.fillG c tid d v = s.setCore c ((s.core c).modThread i (·.setG d v)) := by
  unfold State.fillG
  dsimp only
  rw [h]

theorem State.SlotsL1Only.fillG {i : Nat} (h : (s.core c).slotOf tid = some i) (d : Nat) (v : Word) :
    s.SlotsL1Only (s.fillG c tid d v) := by
  obtain ⟨-, a, held, -⟩ := Core.slotOf_some h
  rw [State.fillG_slot h]
  refine .setCore ?_
  rw [Core.modThread, held]
  exact .setThread held (Thread.setG_tid a d v)

theorem State.SlotsL1Only.onSlot {t : State} (h : s.SlotsL1Only t) {d : Nat} (on : s.onSlot c tid d) : t.onSlot c tid d := by
  obtain ⟨⟨i, slot⟩, range⟩ := on
  exact ⟨⟨i, by rw [(h.2 c).2, slot]⟩, range⟩

/-- The register that is filled holds the value. -/
theorem State.got_fillG {d : Nat} (on : s.onSlot c tid d) (v : Word) : (s.fillG c tid d v).got c tid d v := by
  obtain ⟨⟨i, slot⟩, pos, lt⟩ := on
  obtain ⟨hi, a, held, -⟩ := Core.slotOf_some slot
  have threads := ((State.SlotsL1Only.fillG slot d v).2 c).2 tid
  refine ⟨i, a.setG d v, by rw [threads, slot], ?_, ?_, Thread.setG_isFull a v lt⟩
  · rw [State.fillG_slot slot, State.core_setCore_same, Core.threadAt_modThread_same _ _ _ hi, held]
    rfl
  · rw [Thread.setG_g _ _ _ _ lt, if_pos ⟨by omega, rfl⟩]

/-- A register that holds its value keeps it where another is filled. -/
theorem State.got_fillG_other {d d' : Nat} {v : Word} (got : s.got c tid d v) (lt : d < 32) (other : d' ≠ d) (v' : Word) :
    (s.fillG c tid d' v').got c tid d v := by
  obtain ⟨i, a, slot, held, value, full⟩ := got
  have hi := (Core.slotOf_some slot).1
  have threads := ((State.SlotsL1Only.fillG slot d' v').2 c).2 tid
  refine ⟨i, a.setG d' v', by rw [threads, slot], ?_, ?_, Thread.setG_full a d' d v' full⟩
  · rw [State.fillG_slot slot, State.core_setCore_same, Core.threadAt_modThread_same _ _ _ hi, held]
    rfl
  · rw [Thread.setG_g _ _ _ _ lt, if_neg fun same => other same.2.symm, value]

end

/-! ### The slots of a ring whose copy has ended (R206) -/

theorem Ring.setTags_get (g : Ring) (i n : Nat) (tag : Word) {j : Nat} (lt : j < n) :
    Tab.get 0 (g.setTags i n tag).tags ((i + j) % g.tiles) = tag := by
  unfold Ring.setTags
  dsimp only
  induction n with
  | zero => omega
  | succ n ih =>
    rw [List.range_succ, List.foldl_append]
    simp only [List.foldl_cons, List.foldl_nil]
    by_cases here : (i + j) % g.tiles = (i + n) % g.tiles
    · rw [here, Tab.get_set_same]
    · rw [Tab.get_set_ne _ _ _ _ _ here]
      exact ih (by have : j ≠ n := fun same => here (by rw [same]); omega)

/-- How far slot `j` stands from slot `a` in a ring of `n` slots: not at all where they are the same. -/
theorem ring_distance {n a j : Nat} (ha : a < n) (hj : j < n) : (j + n - a) % n = if a ≤ j then j - a else j + n - a := by
  split
  next le => rw [show j + n - a = j - a + n by omega, Nat.add_mod_right, Nat.mod_eq_of_lt (by omega)]
  next gt => exact Nat.mod_eq_of_lt (by omega)

section
variable {g : Ring} {i n : Nat} {tag : Word} (none_ : g.ended = []) (some : 0 < n) (fits : n ≤ g.tiles)
include none_ some fits

/-- Slots that were reserved first become ready at once. -/
theorem Ring.finish_first (first : i % g.tiles = (g.head + g.ready) % g.tiles) :
    (g.finish i n tag).ready = g.ready + n ∧ (g.finish i n tag).held = g.held - n ∧ (g.finish i n tag).ended = [] := by
  have lt : i % g.tiles < g.tiles := Nat.mod_lt _ (by omega)
  have pos : (i % g.tiles + g.tiles - i % g.tiles) % g.tiles = 0 := by
    rw [ring_distance lt lt, if_pos (Nat.le_refl _), Nat.sub_self]
  have run : Ring.readyRun [(0, n)] 0 256 = ([], n) := by simp [Ring.readyRun]
  simp only [Ring.finish, Ring.setTags, none_, List.nil_append, List.map_cons, List.map_nil, ← first, pos, run, and_self]

/-- Slots behind others that are still held wait for them. -/
theorem Ring.finish_behind (behind : i % g.tiles ≠ (g.head + g.ready) % g.tiles) :
    (g.finish i n tag).ready = g.ready ∧ (g.finish i n tag).held = g.held
      ∧ (g.finish i n tag).ended = [(i % g.tiles, n)] := by
  have hj : i % g.tiles < g.tiles := Nat.mod_lt _ (by omega)
  have ha : (g.head + g.ready) % g.tiles < g.tiles := Nat.mod_lt _ (by omega)
  simp only [Ring.finish, Ring.setTags, none_, List.nil_append, List.map_cons, List.map_nil]
  generalize (g.head + g.ready) % g.tiles = a at *
  generalize i % g.tiles = j at *
  rw [ring_distance ha hj]
  generalize hp : (if a ≤ j then j - a else j + g.tiles - a) = p
  have far : p ≠ 0 := by subst hp; split <;> omega
  have back : (p + a) % g.tiles = j := by
    subst hp
    split
    next le => rw [Nat.sub_add_cancel le, Nat.mod_eq_of_lt hj]
    next gt => rw [show j + g.tiles - a + a = j + g.tiles by omega, Nat.add_mod_right, Nat.mod_eq_of_lt hj]
  have run : Ring.readyRun [(p, n)] 0 256 = ([(p, n)], 0) := by simp [Ring.readyRun, far]
  simp only [run, List.map_cons, List.map_nil, back, Nat.add_zero, Nat.sub_zero, and_self]

end

/-! ### The status of rows (R217) -/

theorem rowStatus_eq {done cause code : Nat} (failed : Bool) (hd : done < 2 ^ 24) (hc : cause < 256) (hk : code < 256) :
    rowStatus done cause code failed =
      word ((if failed then done else 0xFFFFFF) * 2 ^ 40 + done * 2 ^ 16 + cause * 2 ^ 8 + code) := by
  have step (x y k : Nat) (h : y < 2 ^ k) : x <<< k ||| y = x * 2 ^ k + y := by
    rw [← Nat.shiftLeft_add_eq_or_of_lt h, Nat.shiftLeft_eq]
  unfold rowStatus
  rw [Nat.mod_eq_of_lt hd, Nat.or_assoc, Nat.or_assoc, step cause code 8 (by omega), step done _ 16 (by omega),
    step _ _ 40 (by omega), Nat.add_assoc, Nat.add_assoc]

end Sys2Proof.Machine
end

section
/-! SUPPORT. The end of a copy and the issue of its follow-on (R204, R206, R217, R222, R224, R245). -/

namespace Sys2Proof.Machine

/-! ### The end of a copy -/

/-- The core once copy `i` has ended: its slots have their tag, its range entries are free, and it leaves the queue or waits
for its follow-on. -/
def Core.copyEnded (k : Core) (cp : Copy) (i : Nat) : Core :=
  let k := match cp.ring? with
    | none => k
    | some r => k.setRing r ((k.ringAt r).finish cp.slot0 cp.slots (if cp.cause == 0 then cp.blk.layout else 0))
  let k := k.freeRanges cp.t.id
  { k with copies := if cp.cause == 0 && cp.follow.isSome then k.copies.set i { cp with filled := true } else k.copies.eraseIdx i }

theorem Core.copyEnded_only (k : Core) (cp : Copy) (i : Nat) :
    k.copyEnded cp i = { k with
      ring := (k.copyEnded cp i).ring
      ranges := k.ranges.filter fun e => e.2.owner != .command cp.t.id
      copies := if cp.cause == 0 && cp.follow.isSome then k.copies.set i { cp with filled := true } else k.copies.eraseIdx i } := by
  unfold Core.copyEnded
  cases cp.ring? <;> rfl

theorem Core.copyEnded_ringAt (k : Core) (cp : Copy) (i r : Nat) : (k.copyEnded cp i).ringAt r =
    if cp.ring? = some r then (k.ringAt r).finish cp.slot0 cp.slots (if cp.cause == 0 then cp.blk.layout else 0) else k.ringAt r := by
  unfold Core.copyEnded
  cases ring : cp.ring? with
  | none => rfl
  | some q =>
    have lt : q < 16 := by
      unfold Copy.ring? at ring
      split at ring
      · cases ring
      · exact Copy.toRing_lt ring
    refine (Core.ringAt_setRing k _ lt r).trans ?_
    simp only [Option.some.injEq, eq_comm (a := q)]
    split
    next here => rw [here]
    next => rfl

theorem Core.SlotsL1Only.copyEnded {k k' : Core} (h : k.SlotsL1Only k') (cp : Copy) (i : Nat) :
    (k.copyEnded cp i).SlotsL1Only (k'.copyEnded cp i) := by
  have ring : (k'.copyEnded cp i).ring = (k.copyEnded cp i).ring := by
    rw [h.1]
    unfold Core.copyEnded
    cases cp.ring? <;> rfl
  have slots (k : Core) (tid : Nat) : (k.copyEnded cp i).slotOf tid = k.slotOf tid := by rw [Core.copyEnded_only]; rfl
  refine ⟨?_, fun tid => by rw [slots, slots, h.2]⟩
  rw [k.copyEnded_only, k'.copyEnded_only, ring, h.1]

section
variable {s : State} {c i : Nat} {cp : Copy} (listed : (s.core c).copies[i]? = some cp) (ended : cp.ended = true)
    (caughtUp : (s.core c).copyCaughtUp = true) (on : s.onSlot c cp.t.tid cp.t.d)
include listed ended caughtUp on

omit on in
theorem State.copyComplete_step : exec (.copyComplete c i) s =
    let u := ((s.core c).ranges.filter fun e => e.2.owner == .command cp.t.id && e.2.write).foldl
      (fun s e => s.flushRange c cp.t.dom e.2.lo e.2.hi false) s
    let v := (u.modCore c (·.copyEnded cp i)).fillG c cp.t.tid cp.t.d
      (rowStatus cp.done cp.cause (if cp.cause == 0 then 0 else 1) (!(cp.cause == 0)))
    match cp.follow with
    | some w => .next (if cp.cause == 0 then v else v.fillG c cp.t.tid (fld w 42 6) 2)
    | none => .next v := by
  have go : (cp.ended && (s.core c).copyCaughtUp) = true := by rw [ended, caughtUp]; rfl
  simp only [exec, execCopyComplete, listed, go, Bool.not_true, Bool.false_eq_true, if_false]
  rfl

/-- R206, R217, R222: the event ends the copy, fills its status and, where the copy has failed, its follow-on's. -/
theorem State.copyComplete_run :
    let status := rowStatus cp.done cp.cause (if cp.cause == 0 then 0 else 1) (!(cp.cause == 0))
    ∃ t, exec (.copyComplete c i) s = .next t ∧ ((s.core c).copyEnded cp i).SlotsL1Only (t.core c)
      ∧ (cp.follow = none ∨ cp.cause = 0 → t.got c cp.t.tid cp.t.d status)
      ∧ ∀ w, cp.follow = some w → cp.cause ≠ 0 →
        (0 < fld w 42 6 → fld w 42 6 < 32 → t.got c cp.t.tid (fld w 42 6) 2)
          ∧ (fld w 42 6 ≠ cp.t.d → t.got c cp.t.tid cp.t.d status) := by
  rw [State.copyComplete_step listed ended caughtUp]
  dsimp only
  generalize hu : List.foldl _ s _ = u
  have flushed : s.SlotsL1Only u := hu ▸ .foldl (fun s (e : Nat × RangeEnt) => .flushRange s c _ _ _ _) _ _
  generalize rowStatus cp.done cp.cause (if cp.cause == 0 then 0 else 1) (!(cp.cause == 0)) = status
  have core : ((u.modCore c (·.copyEnded cp i)).core c) = (u.core c).copyEnded cp i := State.core_modCore_same ..
  have slots : ((u.core c).copyEnded cp i).slotOf cp.t.tid = (u.core c).slotOf cp.t.tid := by rw [Core.copyEnded_only]; rfl
  have on1 : (u.modCore c (·.copyEnded cp i)).onSlot c cp.t.tid cp.t.d := by
    unfold State.onSlot
    rw [core, slots]
    exact flushed.onSlot on
  have ended1 : ((s.core c).copyEnded cp i).SlotsL1Only ((u.modCore c (·.copyEnded cp i)).core c) := by
    rw [core]
    exact (flushed.2 c).copyEnded cp i
  generalize u.modCore c (·.copyEnded cp i) = v at *
  have got := State.got_fillG on1 status
  obtain ⟨⟨j, slot⟩, -, lt⟩ := on1
  have only : v.SlotsL1Only (v.fillG c cp.t.tid cp.t.d status) := .fillG slot _ _
  have slot2 : ((v.fillG c cp.t.tid cp.t.d status).core c).slotOf cp.t.tid = some j := by rw [(only.2 c).2, slot]
  have core2 := ended1.trans (only.2 c)
  cases follow : cp.follow with
  | none => exact ⟨_, rfl, core2, fun _ => got, fun w h => by cases h⟩
  | some w =>
    by_cases good : cp.cause = 0
    · refine ⟨_, congrArg Host.Outcome.next (if_pos (by simp [good])), core2, fun _ => got, fun w _ bad => (bad good).elim⟩
    · refine ⟨_, congrArg Host.Outcome.next (if_neg (by simp [good])), core2.trans ((State.SlotsL1Only.fillG slot2 _ _).2 c), ?_, ?_⟩
      · rintro (none | zero)
        · cases none
        · exact (good zero).elim
      · intro w' same _
        cases same
        exact ⟨fun pos lt' => State.got_fillG ⟨⟨j, slot2⟩, pos, lt'⟩ 2, fun other => State.got_fillG_other got lt other 2⟩

end

/-! ### A byte of a ring destination (R204, R215) -/

theorem Copy.dstByte_ring {cp : Copy} {r : Nat} (ring : cp.toRing = some r) (c : Nat) (k : Core) (e j : Nat) :
    cp.dstByte c k e j =
      let g := k.ringAt r
      let tb := tileBytes g.layout
      let l := (cp.dstOff e + j) % tb
      let span := 16 * 2 ^ fld g.layout 4 3
      winAddr c (g.base + (cp.slot0 + (cp.dstOff e + j) / tb) % g.tiles * tb
        + (l - l % span + ((l % span / 16) ^^^ (l / span % (span / 16))) * 16 + l % 16)) := by
  unfold Copy.dstByte
  rw [ring]
  rfl

/-! ### The follow-on (R224, R245) -/

theorem State.SlotsL1Only.emptyAt (s : State) (c tid d : Nat) : s.SlotsL1Only (s.emptyAt c tid d) := by
  unfold State.emptyAt
  dsimp only
  split
  next i slot =>
    obtain ⟨-, a, held, -⟩ := Core.slotOf_some slot
    refine .setCore ?_
    rw [Core.modThread, held]
    exact .setThread held (Thread.emptyG_tid a d)
  next =>
    split
    next f _ =>
      split
      · exact .refl s
      · exact .writeFrame _ _ _ _ _
    next => exact .refl s

theorem Core.addRanges_copies (k : Core) (t : Target) (rs : List (Nat × Nat × Bool)) :
    (k.addRanges t rs).copies = k.copies ∧ (k.addRanges t rs).mats = k.mats := by
  unfold Core.addRanges
  induction rs generalizing k with
  | nil => exact ⟨rfl, rfl⟩
  | cons r rs ih =>
    rw [List.foldl_cons, (ih _).1, (ih _).2]
    unfold Core.addRange
    split <;> exact ⟨rfl, rfl⟩

/-- A command that enters the queue stands at its end. -/
theorem Core.mmaEnter_mats (k : Core) (core : Nat) (t : Target) (w : MmaWord) (zero : Bool) (sa sb : BitVec 32) :
    (k.mmaEnter core t w zero sa sb).copies = k.copies ∧ ∃ m, (k.mmaEnter core t w zero sa sb).mats = k.mats ++ [m]
      ∧ m.acc = w.acc ∧ m.t = t := by
  have claimed (k : Core) : (k.claim w).copies = k.copies ∧ (k.claim w).mats = k.mats := ⟨rfl, rfl⟩
  obtain ⟨copies, mats⟩ := k.addRanges_copies t (k.mmaRanges core w)
  unfold Core.mmaEnter
  dsimp only
  rw [(claimed _).1, (claimed _).2, copies, mats]
  exact ⟨rfl, _, rfl, rfl, rfl⟩

theorem State.followOnIssue_run {s : State} {c i : Nat} {cp : Copy} {w : Word} (listed : (s.core c).copies[i]? = some cp)
    (filled : cp.filled = true) (follow : cp.follow = some w) (alive : (s.core c).alive cp.t.tid = true)
    (checks : (s.core c).mmaCheck cp.t.dom.toNat (mmaOf (FmtT.ofWord w)) = none)
    (ready : (s.core c).mmaReady cp.t.dom.toNat (mmaOf (FmtT.ofWord w)) = true)
    (tags : (s.core c).tagsOk (mmaOf (FmtT.ofWord w)) = true) (clear : s.toObject c cp.t.tid none = false) :
    ∃ t m, exec (.followOnIssue c i) s = .next t ∧ (t.core c).copies = (s.core c).copies.eraseIdx i
      ∧ (t.core c).mats = (s.core c).mats ++ [m] ∧ m.acc = (mmaOf (FmtT.ofWord w)).acc ∧ m.t.d = (mmaOf (FmtT.ofWord w)).d
      ∧ m.t.tid = cp.t.tid := by
  simp only [exec, execFollowOnIssue, listed, filled, follow, alive, checks, ready, tags, clear, Bool.not_true, Bool.or_self,
    Bool.false_eq_true, if_false, State.fresh]
  generalize hu : (s.modCore c fun k => { k with copies := k.copies.eraseIdx i }).emptyAt c cp.t.tid (mmaOf (FmtT.ofWord w)).d = u
  have only := (State.SlotsL1Only.emptyAt (s.modCore c fun k => { k with copies := k.copies.eraseIdx i }) c cp.t.tid
    (mmaOf (FmtT.ofWord w)).d).2 c
  rw [hu, State.core_modCore_same] at only
  have copies : (u.core c).copies = (s.core c).copies.eraseIdx i := by rw [only.1]
  have mats : (u.core c).mats = (s.core c).mats := by rw [only.1]
  have enter := (u.core c).mmaEnter_mats c { cp.t with id := u.nextId, d := (mmaOf (FmtT.ofWord w)).d, scope := 0 }
    (mmaOf (FmtT.ofWord w)) (fld w 48 8 == 1) (cp.sigma.getD (mmaOf (FmtT.ofWord w)).ra 0x3F800000)
    (cp.sigma.getD (mmaOf (FmtT.ofWord w)).rb 0x3F800000)
  obtain ⟨kept, m, entered, acc, target⟩ := enter
  refine ⟨_, m, rfl, ?_⟩
  rw [State.core_modCore_same]
  exact ⟨kept.trans copies, entered.trans (by rw [mats]), acc, by rw [target], by rw [target]⟩

end Sys2Proof.Machine
end

section
/-! SUPPORT. The memory work of the matrix engine: the rows of a drain and of a load (R236, R247, R249). -/

namespace Sys2Proof.Machine

/-! ### What has been written -/

/-- State `t` is `s` with bytes written at places by domain `d`, and events counted. -/
def State.Wrote (s t : State) (d : Nat) (es : List ((Nat × Nat) × Byte)) : Prop :=
  s.BytesOnly t ∧ ∀ p, t.spotByte d p = (s.putBytes d es).spotByte d p

theorem State.putBytes_congr {s t : State} {d : Nat} (h : ∀ p, t.spotByte d p = s.spotByte d p) (es : List ((Nat × Nat) × Byte))
    (p : Nat × Nat) : (t.putBytes d es).spotByte d p = (s.putBytes d es).spotByte d p := by
  induction es generalizing s t with
  | nil => exact h p
  | cons e es ih => exact ih fun q => by rw [State.spotByte_putByte, State.spotByte_putByte, h]

theorem State.Wrote.trans {s t u : State} {d : Nat} {es fs : List ((Nat × Nat) × Byte)} (h : s.Wrote t d es) (h' : t.Wrote u d fs) :
    s.Wrote u d (es ++ fs) := by
  refine ⟨h.1.trans h'.1, fun p => ?_⟩
  rw [h'.2, State.putBytes_append]
  exact State.putBytes_congr h.2 fs p

theorem State.Wrote.putBytes (s : State) (d : Nat) (es : List ((Nat × Nat) × Byte)) : s.Wrote (s.putBytes d es) d es :=
  ⟨s.putBytes_bytes d es, fun _ => rfl⟩

/-- An event counted writes nothing. -/
theorem State.Wrote.count (s : State) (c d : Nat) (code : Nat) (dom n : Nat) :
    s.Wrote (s.modCore c (·.count code none dom n)) d [] :=
  ⟨.modCore s c (.count ..), fun p => State.spotByte_modCore s c d p (Core.count_store ..)⟩

theorem placed_append (f : Nat → Nat × Nat) (bs cs : List Byte) :
    placed f (bs ++ cs) = placed f bs ++ placed (fun i => f (bs.length + i)) cs := by
  unfold placed
  rw [List.length_append, List.range_add, List.map_append, List.map_map]
  congr 1
  · refine List.map_congr_left fun i hi => ?_
    rw [List.getD_append _ _ _ _ (List.mem_range.mp hi)]
  · refine List.map_congr_left fun i _ => ?_
    dsimp only [Function.comp]
    rw [List.getD_append_right _ _ _ _ (Nat.le_add_right _ _), Nat.add_sub_cancel_left]

/-- Bytes written at places of their own are read there, and others elsewhere. -/
theorem State.Wrote.moved {s t : State} {d : Nat} {f : Nat → Nat × Nat} {bs : List Byte} (h : s.Wrote t d (placed f bs))
    (distinct : Distinct bs.length f) : Moved s t d bs.length f (fun i => bs.getD i 0) := by
  refine ⟨fun i lt => ?_, fun p out => ?_⟩
  · rw [h.2]
    refine State.spotByte_putBytes _ _ _ (List.mem_map.mpr ⟨i, List.mem_range.mpr lt, rfl⟩) fun e he same => ?_
    obtain ⟨j, hj, rfl⟩ := List.mem_map.mp he
    rw [distinct j i (List.mem_range.mp hj) lt same]
  · rw [h.2, State.spotByte_putBytes_out]
    intro e he
    obtain ⟨j, hj, rfl⟩ := List.mem_map.mp he
    exact out j (List.mem_range.mp hj)

/-- Byte `i` of the concatenation of blocks of `n` bytes. -/
theorem flatMap_getD (f : Nat → List Byte) {n : Nat} (len : ∀ e, (f e).length = n) (cnt i : Nat) (lt : i < cnt * n) :
    ((List.range cnt).flatMap f).getD i 0 = (f (i / n)).getD (i % n) 0 := by
  have total (cnt : Nat) : ((List.range cnt).flatMap f).length = cnt * n := by
    simp [List.length_flatMap, len]
  induction cnt with
  | zero => omega
  | succ cnt ih =>
    rw [List.range_succ, List.flatMap_append, List.flatMap_singleton]
    by_cases before : i < cnt * n
    · rw [List.getD_append _ _ _ _ (by rw [total]; exact before), ih before]
    · have last : i / n = cnt := Nat.div_eq_of_lt_le (by omega) (by rw [Nat.succ_mul] at lt; rw [Nat.succ_mul]; exact lt)
      rw [List.getD_append_right _ _ _ _ (by rw [total]; omega), total, last]
      congr 1
      have := Nat.div_add_mod i n
      rw [last, Nat.mul_comm] at this
      omega

/-! ### A row of a drain (R247) -/

/-- The elements of a row whose bytes stand at known places are written one after the other. -/
theorem State.putRow_of_stands {s : State} {c d ea es : Nat} (held : c ∉ s.tampered) (pos : 0 < es) (small : es ≤ 65536)
    (pick : Bool) (rows : List (List Byte)) (len : ∀ r ∈ rows, r.length = es) {f : Nat → Nat × Nat}
    (stand : ∀ i, i < rows.length * es → s.stands c d (ea + i) 2 (f i) ∧ inWin (ea + i) = inWin ea) :
    s.putRow c d ea (fun _ => pick) rows = .ok () (if pick then s.putBytes d (placed f rows.flatten) else s) := by
  induction rows generalizing s ea f with
  | nil => cases pick <;> rfl
  | cons r rows ih =>
    have first : r.length = es := len r List.mem_cons_self
    rw [List.length_cons, Nat.succ_mul] at stand
    unfold State.putRow
    rw [State.engWrite_of_stands held (by rw [first]; exact pos) (by rw [first]; exact small)
      (fun i lt => stand i (by omega)) pick]
    dsimp only
    have rest (t : State) (bytes : s.BytesOnly t) : t.putRow c d (ea + r.length) (fun _ => pick) rows =
        .ok () (if pick then t.putBytes d (placed (fun i => f (r.length + i)) rows.flatten) else t) := by
      refine ih (by rw [bytes.1]; exact held) (fun x hx => len x (List.mem_cons_of_mem _ hx)) fun i lt => ?_
      rw [State.stands_congr bytes, Nat.add_assoc]
      refine ⟨(stand (r.length + i) (by omega)).1, ?_⟩
      rw [(stand (r.length + i) (by omega)).2]
      have := (stand r.length (by rw [first]; have : 0 < rows.length * es := by omega
                                  omega)).2
      exact this.symm
    cases pick with
    | false => exact rest s (.refl s)
    | true =>
      simp only [if_true] at rest ⊢
      rw [rest _ (State.putBytes_bytes ..), ← State.putBytes_append, List.flatten_cons, placed_append]

/-- Element `e` of an accumulator as a drain writes it: its bits in the output type. -/
def Core.drainBits (k : Core) (a otype mode : Nat) (ds : List Nat) (e : Nat) : Nat :=
  let v := k.accAt a (e / 64) (e % 64)
  if otype = 0 then v.toNat else (f32 v).round (fmtOf otype) mode (ds.getD e 0)

/-- The value that the maximum of a drain sees of it (R247). -/
def Core.drainSeen (k : Core) (a otype mode : Nat) (ds : List Nat) (e : Nat) : BitVec 32 :=
  if otype = 0 then BitVec.ofNat 32 (k.drainBits a otype mode ds e) else toF32 0 0 (.ofBits (fmtOf otype) (k.drainBits a otype mode ds e))

/-- The bytes of an element in the output type. -/
def outBytes (otype : Nat) : Nat := if otype = 0 then 4 else 2

theorem outBytes_range (otype : Nat) : 0 < outBytes otype ∧ outBytes otype ≤ 65536 := by
  unfold outBytes
  split <;> decide

/-- A row of a drain, by the elements of its accumulator. -/
theorem Core.drainRow_eq (k : Core) (a r otype mode : Nat) (ds : List Nat) : k.drainRow a r otype mode ds =
    (List.range 64).map fun j => (k.drainSeen a otype mode ds (64 * r + j), leBytes (outBytes otype) (k.drainBits a otype mode ds (64 * r + j))) := by
  unfold Core.drainRow
  refine List.map_congr_left fun j hj => ?_
  have row : (64 * r + j) / 64 = r := by have := List.mem_range.mp hj; omega
  have col : (64 * r + j) % 64 = j := by have := List.mem_range.mp hj; omega
  unfold Core.drainSeen Core.drainBits outBytes
  dsimp only
  rw [row, col]
  split
  next plain => simp [BitVec.ofNat_toNat]
  next => rfl

/-- The bytes of elements `lo` to `lo + n - 1`. -/
def Core.drained (k : Core) (a otype mode : Nat) (ds : List Nat) (lo n : Nat) : List Byte :=
  (List.range n).flatMap fun e => leBytes (outBytes otype) (k.drainBits a otype mode ds (lo + e))

theorem Core.drained_length (k : Core) (a otype mode : Nat) (ds : List Nat) (lo n : Nat) :
    (k.drained a otype mode ds lo n).length = n * outBytes otype := by
  simp [Core.drained, List.length_flatMap, length_leBytes]

theorem Core.drained_add (k : Core) (a otype mode : Nat) (ds : List Nat) (lo n m : Nat) :
    k.drained a otype mode ds lo (n + m) = k.drained a otype mode ds lo n ++ k.drained a otype mode ds (lo + n) m := by
  unfold Core.drained
  rw [List.range_add, List.flatMap_append, List.flatMap_map]
  simp only [Nat.add_assoc]

theorem Core.drained_getD (k : Core) (a otype mode : Nat) (ds : List Nat) (lo n i : Nat) (lt : i < n * outBytes otype) :
    (k.drained a otype mode ds lo n).getD i 0 =
      (leBytes (outBytes otype) (k.drainBits a otype mode ds (lo + i / outBytes otype))).getD (i % outBytes otype) 0 :=
  flatMap_getD _ (fun _ => length_leBytes _ _) n i lt

/-- The maximum of elements `lo` to `lo + n - 1` and of what has been seen before. -/
def Core.drainMax (k : Core) (a otype mode : Nat) (ds : List Nat) (lo n : Nat) (mx : BitVec 32) : BitVec 32 :=
  (List.range n).foldl (fun mx e => fmax mx (k.drainSeen a otype mode ds (lo + e) &&& 0x7FFFFFFF)) mx

theorem Core.drainMax_add (k : Core) (a otype mode : Nat) (ds : List Nat) (lo n m : Nat) (mx : BitVec 32) :
    k.drainMax a otype mode ds lo (n + m) mx = k.drainMax a otype mode ds (lo + n) m (k.drainMax a otype mode ds lo n mx) := by
  unfold Core.drainMax
  rw [List.range_add, List.foldl_append, List.foldl_map]
  simp only [Nat.add_assoc]

theorem Core.drained_congr {k k' : Core} (h : k'.acc = k.acc) (a otype mode : Nat) (ds : List Nat) (lo n : Nat) :
    k'.drained a otype mode ds lo n = k.drained a otype mode ds lo n := by
  simp only [Core.drained, Core.drainBits, Core.accAt, h]

theorem Core.drainMax_congr {k k' : Core} (h : k'.acc = k.acc) (a otype mode : Nat) (ds : List Nat) (lo n : Nat) (mx : BitVec 32) :
    k'.drainMax a otype mode ds lo n mx = k.drainMax a otype mode ds lo n mx := by
  simp only [Core.drainMax, Core.drainSeen, Core.drainBits, Core.accAt, h]

/-- The next row of a drain, whose bytes all stand at known places, is written there. -/
theorem State.drainRow_of_stands {s : State} {c : Nat} {m : MatCmd} {ea otype mode : Nat} {ds : List Nat} {f : Nat → Nat × Nat}
    (held : c ∉ s.tampered)
    (stand : ∀ i, i < 64 * outBytes otype → s.stands c m.t.dom.toNat (ea + 64 * m.done * outBytes otype + i) 2 (f i)
      ∧ inWin (ea + 64 * m.done * outBytes otype + i) = inWin (ea + 64 * m.done * outBytes otype)) :
    ∃ t, s.drainRow c m ea otype mode ds =
        .done { m with done := m.done + 1, mx := (s.core c).drainMax m.acc otype mode ds (64 * m.done) 64 m.mx } t
      ∧ s.Wrote t m.t.dom.toNat (placed f ((s.core c).drained m.acc otype mode ds (64 * m.done) 64)) := by
  have row := (s.core c).drainRow_eq m.acc m.done otype mode ds
  have bytes : ((s.core c).drainRow m.acc m.done otype mode ds).map (·.2) =
      (List.range 64).map fun j => leBytes (outBytes otype) ((s.core c).drainBits m.acc otype mode ds (64 * m.done + j)) := by
    rw [row, List.map_map]
    rfl
  have flat : (((s.core c).drainRow m.acc m.done otype mode ds).map (·.2)).flatten =
      (s.core c).drained m.acc otype mode ds (64 * m.done) 64 := by
    rw [bytes]
    rfl
  have put (pick : Bool) := State.putRow_of_stands (d := m.t.dom.toNat) (ea := ea + 64 * m.done * outBytes otype) held
    (outBytes_range otype).1 (outBytes_range otype).2 pick (((s.core c).drainRow m.acc m.done otype mode ds).map (·.2))
    (fun r hr => by
      rw [bytes] at hr
      obtain ⟨j, -, rfl⟩ := List.mem_map.mp hr
      exact length_leBytes _ _) (f := f) (fun i lt => stand i (by rw [bytes, List.length_map, List.length_range] at lt; exact lt))
  have tried := put false
  have written := put true
  have fold : ((s.core c).drainRow m.acc m.done otype mode ds).foldl (fun mx v => fmax mx (v.1 &&& 0x7FFFFFFF)) m.mx =
      (s.core c).drainMax m.acc otype mode ds (64 * m.done) 64 m.mx := by
    rw [row, List.foldl_map]
    rfl
  rw [if_neg Bool.false_ne_true] at tried
  rw [if_pos rfl, flat] at written
  unfold State.drainRow
  dsimp only
  unfold outBytes at tried written
  rw [tried]
  dsimp only
  rw [written, fold]
  dsimp only
  refine ⟨_, rfl, ?_⟩
  have wrote := ((State.Wrote.putBytes s m.t.dom.toNat (placed f ((s.core c).drained m.acc otype mode ds (64 * m.done) 64))).trans
    (.count _ c _ 28 m.t.dom.toNat 1)).trans (.count _ c _ 17 m.t.dom.toNat
      (if inWin (ea + 64 * m.done * outBytes otype) then 64 else 0))
  rwa [List.append_nil, List.append_nil] at wrote

end Sys2Proof.Machine
end

section
/-! SUPPORT. The whole memory work of a drain and of a load (R236, R247, R249). -/

namespace Sys2Proof.Machine

theorem State.matUnits_step {s s' : State} {c : Nat} {m m' : MatCmd} {ds : List Nat} (unfinished : m.fin = false)
    (unit : s.matUnit c m ds = .done m' s') (fuel : Nat) : s.matUnits c m ds (fuel + 1) = s'.matUnits c m' ds fuel := by
  rw [State.matUnits, unfinished, if_neg Bool.false_ne_true, unit]

theorem State.matUnits_fin {s : State} {c : Nat} {m : MatCmd} {ds : List Nat} (finished : m.fin = true) (fuel : Nat) :
    s.matUnits c m ds fuel = .done m s := by
  cases fuel with
  | zero => rfl
  | succ n => rw [State.matUnits, finished, if_pos rfl]

/-! ### A drain -/

section
variable {c : Nat} {ea otype mode : Nat} {seed : Word} {am : Option Nat} {clr : Bool} {ds : List Nat}

theorem State.matUnit_drainRow {s : State} {m : MatCmd} (op : m.op = .drain ea otype mode seed am clr) (unfinished : m.fin = false)
    (more : m.done < 64) : s.matUnit c m ds = s.drainRow c m ea otype mode ds := by
  cases m
  subst op unfinished
  exact if_pos more

theorem State.matUnit_amax {s : State} {m : MatCmd} {a : Nat} (op : m.op = .drain ea otype mode seed (some a) clr)
    (unfinished : m.fin = false) (last : m.done = 64) : s.matUnit c m ds = s.amax c m a := by
  cases m
  subst op unfinished last
  rfl

theorem State.matUnit_drained {s : State} {m : MatCmd} (op : m.op = .drain ea otype mode seed none clr)
    (unfinished : m.fin = false) (last : m.done = 64) : s.matUnit c m ds = .done { m with fin := true } s := by
  cases m
  subst op unfinished last
  rfl

/-- The rows that a drain has left, whose bytes all stand at known places, are written there. -/
theorem State.matUnits_rows {s : State} {m : MatCmd} {f : Nat → Nat × Nat} (op : m.op = .drain ea otype mode seed am clr)
    (unfinished : m.fin = false) (held : c ∉ s.tampered) (r : Nat) (rows : m.done + r = 64)
    (stand : ∀ i, i < 64 * r * outBytes otype → s.stands c m.t.dom.toNat (ea + 64 * m.done * outBytes otype + i) 2 (f i)
      ∧ inWin (ea + 64 * m.done * outBytes otype + i) = inWin (ea + 64 * m.done * outBytes otype)) :
    ∃ t, (∀ fuel, s.matUnits c m ds (r + fuel) = t.matUnits c
        { m with done := 64, mx := (s.core c).drainMax m.acc otype mode ds (64 * m.done) (64 * r) m.mx } ds fuel)
      ∧ s.Wrote t m.t.dom.toNat (placed f ((s.core c).drained m.acc otype mode ds (64 * m.done) (64 * r))) := by
  induction r generalizing s m f with
  | zero =>
    refine ⟨s, fun fuel => ?_, ⟨.refl s, fun _ => rfl⟩⟩
    have same : { m with done := 64, mx := (s.core c).drainMax m.acc otype mode ds (64 * m.done) (64 * 0) m.mx } = m := by
      cases m
      simp only [Nat.add_zero] at rows
      subst rows
      rfl
    rw [same, Nat.zero_add]
  | succ r ih =>
    have all : 64 * (r + 1) * outBytes otype = 64 * outBytes otype + 64 * r * outBytes otype := by ring
    obtain ⟨t1, row, wrote⟩ := State.drainRow_of_stands (m := m) (mode := mode) (ds := ds) held fun i lt => stand i (by omega)
    have bytes := wrote.1
    have acc : (t1.core c).acc = (s.core c).acc := by rw [bytes.2 c]
    have next : ea + 64 * (m.done + 1) * outBytes otype = ea + 64 * m.done * outBytes otype + 64 * outBytes otype := by ring
    obtain ⟨t, run, rest⟩ := ih (s := t1)
      (m := { m with done := m.done + 1, mx := (s.core c).drainMax m.acc otype mode ds (64 * m.done) 64 m.mx })
      (f := fun i => f (64 * outBytes otype + i)) op unfinished (by rw [bytes.1]; exact held) (by dsimp only; omega) (by
        intro i lt
        dsimp only
        rw [State.stands_congr bytes, next, Nat.add_assoc _ (64 * outBytes otype) i]
        refine ⟨(stand _ (by omega)).1, ?_⟩
        rw [(stand _ (by omega)).2, (stand (64 * outBytes otype) (by omega)).2])
    refine ⟨t, fun fuel => ?_, ?_⟩
    · rw [show r + 1 + fuel = (r + fuel) + 1 by omega, State.matUnits_step unfinished
        ((State.matUnit_drainRow op unfinished (by omega)).trans row), run]
      congr 2
      rw [Core.drainMax_congr acc, show 64 * (r + 1) = 64 + 64 * r by ring, Core.drainMax_add]
      rfl
    · have both := wrote.trans rest
      rw [Core.drained_congr acc] at both
      rw [show 64 * (r + 1) = 64 + 64 * r by ring, Core.drained_add, placed_append, Core.drained_length]
      exact both

/-- The maximum of a drain is written over the word at its address. -/
theorem State.amax_of_stands {s : State} {m : MatCmd} {a : Nat} {f : Nat → Nat × Nat} (held : c ∉ s.tampered)
    (read : ∀ i, i < 4 → s.stands c m.t.dom.toNat (a + i) 1 (f i) ∧ inWin (a + i) = inWin a)
    (write : ∀ i, i < 4 → s.stands c m.t.dom.toNat (a + i) 2 (f i) ∧ inWin (a + i) = inWin a) :
    ∃ t, s.amax c m a = .done { m with fin := true } t ∧ s.Wrote t m.t.dom.toNat (placed f (leBytes 4
      (fmax (BitVec.ofNat 32 (ofLe ((List.range 4).map fun i => s.spotByte m.t.dom.toNat (f i)))) m.mx).toNat)) := by
  unfold State.amax
  dsimp only
  rw [State.engRead_of_stands held (by decide) (by decide) read]
  dsimp only
  generalize fmax _ m.mx = v
  rw [State.engWrite_of_stands held (by rw [length_leBytes]; decide) (by rw [length_leBytes]; decide)
    (fun i lt => write i (by rwa [length_leBytes] at lt)) true]
  refine ⟨_, rfl, ?_⟩
  have wrote := ((State.Wrote.putBytes s m.t.dom.toNat (placed f (leBytes 4 v.toNat))).trans
    (.count _ c _ 20 m.t.dom.toNat 1)).trans (.count _ c _ 17 m.t.dom.toNat (if inWin a then 1 else 0))
  rwa [List.append_nil, List.append_nil] at wrote

end

section
variable {s : State} {c : Nat} {m : MatCmd} {ea otype mode : Nat} {seed : Word} {clr : Bool} {ds : List Nat} {f g : Nat → Nat × Nat}
    (unfinished : m.fin = false) (held : c ∉ s.tampered) (rows : m.done ≤ 64)
    (stand : ∀ i, i < (4096 - 64 * m.done) * outBytes otype →
      s.stands c m.t.dom.toNat (ea + 64 * m.done * outBytes otype + i) 2 (f i)
        ∧ inWin (ea + 64 * m.done * outBytes otype + i) = inWin (ea + 64 * m.done * outBytes otype))
include unfinished held rows stand

/-- All that is left of a drain. -/
theorem State.matUnits_drain (op : m.op = .drain ea otype mode seed none clr) : ∃ t, s.matUnits c m ds 66 =
      .done { m with done := 64, mx := (s.core c).drainMax m.acc otype mode ds (64 * m.done) (4096 - 64 * m.done) m.mx, fin := true } t
    ∧ s.Wrote t m.t.dom.toNat (placed f ((s.core c).drained m.acc otype mode ds (64 * m.done) (4096 - 64 * m.done))) := by
  have left : 64 * (64 - m.done) = 4096 - 64 * m.done := by omega
  obtain ⟨t, run, wrote⟩ := State.matUnits_rows (ds := ds) (f := f) op unfinished held (64 - m.done) (by omega) (by rwa [left])
  rw [left] at run wrote
  refine ⟨t, ?_, wrote⟩
  rw [show 66 = 64 - m.done + (m.done + 1 + 1) by omega, run]
  generalize Core.drainMax _ _ _ _ _ _ _ _ = mx
  rw [State.matUnits_step (m := { m with done := 64, mx }) unfinished (State.matUnit_drained op unfinished rfl) (m.done + 1)]
  exact State.matUnits_fin rfl _

/-- All that is left of a drain that keeps a maximum. -/
theorem State.matUnits_drain_max {a : Nat} (op : m.op = .drain ea otype mode seed (some a) clr)
    (read : ∀ i, i < 4 → s.stands c m.t.dom.toNat (a + i) 1 (g i) ∧ inWin (a + i) = inWin a)
    (write : ∀ i, i < 4 → s.stands c m.t.dom.toNat (a + i) 2 (g i) ∧ inWin (a + i) = inWin a)
    (apart : ∀ i j, i < 4 → j < (4096 - 64 * m.done) * outBytes otype → g i ≠ f j) :
    let mx := (s.core c).drainMax m.acc otype mode ds (64 * m.done) (4096 - 64 * m.done) m.mx
    ∃ t, s.matUnits c m ds 66 = .done { m with done := 64, mx, fin := true } t
      ∧ s.Wrote t m.t.dom.toNat (placed f ((s.core c).drained m.acc otype mode ds (64 * m.done) (4096 - 64 * m.done))
        ++ placed g (leBytes 4
          (fmax (BitVec.ofNat 32 (ofLe ((List.range 4).map fun i => s.spotByte m.t.dom.toNat (g i)))) mx).toNat)) := by
  have left : 64 * (64 - m.done) = 4096 - 64 * m.done := by omega
  obtain ⟨t1, run, wrote⟩ := State.matUnits_rows (ds := ds) (f := f) op unfinished held (64 - m.done) (by omega) (by rwa [left])
  rw [left] at run wrote
  have bytes := wrote.1
  have old : (List.range 4).map (fun i => t1.spotByte m.t.dom.toNat (g i)) = (List.range 4).map fun i => s.spotByte m.t.dom.toNat (g i) := by
    refine List.map_congr_left fun i hi => ?_
    rw [wrote.2, State.spotByte_putBytes_out]
    intro e he
    obtain ⟨j, hj, rfl⟩ := List.mem_map.mp he
    rw [Core.drained_length, List.mem_range] at hj
    exact (apart i j (List.mem_range.mp hi) hj).symm
  dsimp only
  generalize Core.drainMax _ _ _ _ _ _ _ _ = mx at *
  obtain ⟨t, update, last⟩ := State.amax_of_stands (s := t1) (m := { m with done := 64, mx }) (a := a) (f := g)
    (by rw [bytes.1]; exact held) (fun i lt => by rw [State.stands_congr bytes]; exact read i lt)
    fun i lt => by rw [State.stands_congr bytes]; exact write i lt
  dsimp only at last
  rw [old] at last
  refine ⟨t, ?_, wrote.trans last⟩
  rw [show 66 = 64 - m.done + (m.done + 1 + 1) by omega, run,
    State.matUnits_step (m := { m with done := 64, mx }) unfinished ((State.matUnit_amax (m := { m with done := 64, mx }) op unfinished rfl).trans update) (m.done + 1)]
  exact State.matUnits_fin rfl _

end

/-! ### A load (R249) -/

/-- The word whose bytes stand at the places of index `4 i` on. -/
def State.wordAt (s : State) (d : Nat) (q : Nat → Nat × Nat) (i : Nat) : BitVec 32 :=
  BitVec.ofNat 32 (ofLe ((List.range 4).map fun b => s.spotByte d (q (4 * i + b))))

section
variable {c ea : Nat}

/-- The next words of a load, whose bytes all stand at known places. -/
theorem State.loadRow_of_stands {s : State} {m : MatCmd} {q : Nat → Nat × Nat} (held : c ∉ s.tampered)
    (rows : m.done = m.vals.length / 64) (n : Nat)
    (stand : ∀ i, i < 4 * n → s.stands c m.t.dom.toNat (ea + 4 * m.vals.length + i) 1 (q i)
      ∧ inWin (ea + 4 * m.vals.length + i) = inWin (ea + 4 * m.vals.length)) :
    ∃ t, s.loadRow c m ea n = .done { m with vals := m.vals ++ (List.range n).map (s.wordAt m.t.dom.toNat q), done := (m.vals.length + n) / 64 } t
      ∧ s.Wrote t m.t.dom.toNat [] := by
  induction n generalizing s m q with
  | zero =>
    refine ⟨s, ?_, ⟨.refl s, fun _ => rfl⟩⟩
    rw [State.loadRow]
    congr 1
    cases m
    simpa using rows
  | succ n ih =>
    unfold State.loadRow
    dsimp only
    rw [State.engRead_of_stands held (by decide) (by decide) fun i lt => stand i (by omega)]
    dsimp only
    have counted : s.Wrote (s.countWin c m.t.dom.toNat (if inWin ea then 1 else 0)) m.t.dom.toNat [] := .count s c _ 17 _ _
    have first : BitVec.ofNat 32 (ofLe ((List.range 4).map fun i => s.spotByte m.t.dom.toNat (q i))) = s.wordAt m.t.dom.toNat q 0 := by
      simp only [State.wordAt, Nat.mul_zero, Nat.zero_add]
    rw [first]
    generalize s.countWin c m.t.dom.toNat (if inWin ea then 1 else 0) = u at counted
    have bytes := counted.1
    have len : (m.vals ++ [s.wordAt m.t.dom.toNat q 0]).length = m.vals.length + 1 := by simp
    obtain ⟨t, run, rest⟩ := ih (s := u)
      (m := { m with vals := m.vals ++ [s.wordAt m.t.dom.toNat q 0], done := (m.vals ++ [s.wordAt m.t.dom.toNat q 0]).length / 64 })
      (q := fun i => q (4 + i)) (by rw [bytes.1]; exact held) rfl (by
        intro i lt
        dsimp only
        rw [State.stands_congr bytes, len, show ea + 4 * (m.vals.length + 1) = ea + 4 * m.vals.length + 4 by ring,
          Nat.add_assoc _ 4 i]
        refine ⟨(stand _ (by omega)).1, ?_⟩
        rw [(stand _ (by omega)).2, (stand 4 (by omega)).2])
    refine ⟨t, ?_, counted.trans rest⟩
    rw [run]
    dsimp only
    have words : (List.range n).map (u.wordAt m.t.dom.toNat fun i => q (4 + i)) =
        (List.range n).map (s.wordAt m.t.dom.toNat q ∘ (1 + ·)) := by
      refine List.map_congr_left fun i _ => ?_
      have same (p : Nat × Nat) : u.spotByte m.t.dom.toNat p = s.spotByte m.t.dom.toNat p := counted.2 p
      simp only [State.wordAt, Function.comp, same, Nat.mul_add, Nat.mul_one, Nat.add_assoc]
    rw [words, len, Nat.add_comm n 1, List.range_add, List.map_append, List.map_map, Nat.add_assoc, ← List.append_assoc]
    rfl

theorem State.matUnit_loadRow {s : State} {m : MatCmd} {ds : List Nat} (op : m.op = .load ea) (unfinished : m.fin = false)
    (more : m.vals.length < 4096) : s.matUnit c m ds = s.loadRow c m ea (64 - m.vals.length % 64) := by
  cases m
  subst op unfinished
  exact if_pos more

theorem State.matUnit_loaded {s : State} {m : MatCmd} {ds : List Nat} (op : m.op = .load ea) (unfinished : m.fin = false)
    (full : ¬ m.vals.length < 4096) : s.matUnit c m ds = .done { m with fin := true } s := by
  cases m
  subst op unfinished
  exact if_neg full

/-- All that is left of a load. -/
theorem State.matUnits_load {s : State} {m : MatCmd} {q : Nat → Nat × Nat} {ds : List Nat} (op : m.op = .load ea) (held : c ∉ s.tampered)
    (unfinished : m.fin = false) (rows : m.done = m.vals.length / 64) (some : m.vals.length ≤ 4096) (fuel : Nat)
    (enough : (4096 - m.vals.length + 63) / 64 + 2 ≤ fuel)
    (stand : ∀ i, i < 4 * (4096 - m.vals.length) → s.stands c m.t.dom.toNat (ea + 4 * m.vals.length + i) 1 (q i)
      ∧ inWin (ea + 4 * m.vals.length + i) = inWin (ea + 4 * m.vals.length)) :
    ∃ t, s.matUnits c m ds fuel = .done { m with
          vals := m.vals ++ (List.range (4096 - m.vals.length)).map (s.wordAt m.t.dom.toNat q), done := 64, fin := true } t
      ∧ s.Wrote t m.t.dom.toNat [] := by
  induction fuel generalizing s m q with
  | zero => omega
  | succ fuel ih =>
    by_cases more : m.vals.length < 4096
    · have unit := State.matUnit_loadRow (s := s) (c := c) (ds := ds) op unfinished more
      generalize hn : 64 - m.vals.length % 64 = n at unit
      obtain ⟨t1, row, wrote⟩ := State.loadRow_of_stands (q := q) held rows n fun i lt => stand i (by omega)
      have bytes := wrote.1
      have len : (m.vals ++ (List.range n).map (s.wordAt m.t.dom.toNat q)).length = m.vals.length + n := by simp
      obtain ⟨t, run, rest⟩ := ih (s := t1)
        (m := { m with vals := m.vals ++ (List.range n).map (s.wordAt m.t.dom.toNat q), done := (m.vals.length + n) / 64 })
        (q := fun i => q (4 * n + i)) op (by rw [bytes.1]; exact held) unfinished (by rw [len]) (by rw [len]; omega)
        (by rw [len]; omega) (by
          intro i lt
          dsimp only at lt ⊢
          rw [len] at lt
          rw [State.stands_congr bytes, len, show ea + 4 * (m.vals.length + n) = ea + 4 * m.vals.length + 4 * n by ring,
            Nat.add_assoc _ (4 * n) i]
          refine ⟨(stand _ (by omega)).1, ?_⟩
          rw [(stand _ (by omega)).2, (stand (4 * n) (by omega)).2])
      refine ⟨t, ?_, wrote.trans rest⟩
      rw [State.matUnits_step unfinished (unit.trans row), run]
      dsimp only
      have words : (List.range (4096 - (m.vals.length + n))).map (t1.wordAt m.t.dom.toNat fun i => q (4 * n + i)) =
          (List.range (4096 - (m.vals.length + n))).map (s.wordAt m.t.dom.toNat q ∘ (n + ·)) := by
        refine List.map_congr_left fun i _ => ?_
        have same (p : Nat × Nat) : t1.spotByte m.t.dom.toNat p = s.spotByte m.t.dom.toNat p := wrote.2 p
        simp only [State.wordAt, Function.comp, same, Nat.mul_add, Nat.add_assoc]
      rw [len, words, show 4096 - m.vals.length = n + (4096 - (m.vals.length + n)) by omega, List.range_add, List.map_append,
        List.map_map, List.append_assoc]
    · have full : m.vals.length = 4096 := by omega
      have unit := State.matUnit_loaded (s := s) (c := c) (ds := ds) op unfinished more
      refine ⟨s, ?_, ⟨.refl s, fun _ => rfl⟩⟩
      rw [State.matUnits_step unfinished unit, State.matUnits_fin rfl, full, Nat.sub_self, List.range_zero, List.map_nil,
        List.append_nil]
      cases m
      simp only at full rows ⊢
      rw [rows, full]

end

end Sys2Proof.Machine
end

section
/-! SUPPORT. The retirement of a matrix command (R236, R240, R244 to R249). -/

namespace Sys2Proof.Machine

/-! ### Accumulators (R235, R246) -/

/-- Every element of the accumulator that is replaced is the new one; the others stay. -/
theorem Core.accAt_setAcc (k : Core) (a : Nat) (f : Nat → Nat → BitVec 32) (b i j : Nat) (hi : i < 64) (hj : j < 64) :
    (k.setAcc a f).accAt b i j = if b = a then f i j else k.accAt b i j := by
  have sets (n : Nat) (rest : Tab (BitVec 32)) (x : Nat) :
      Tab.get 0 ((List.range n).foldl (fun t e => Tab.set 0 t (a * 4096 + e) (f (e / 64) (e % 64))) rest) x =
        if a * 4096 ≤ x ∧ x < a * 4096 + n then f ((x - a * 4096) / 64) ((x - a * 4096) % 64) else Tab.get 0 rest x := by
    induction n with
    | zero => exact (if_neg (by omega)).symm
    | succ n ih =>
      rw [List.range_succ, List.foldl_append]
      simp only [List.foldl_cons, List.foldl_nil]
      by_cases here : x = a * 4096 + n
      · rw [here, Tab.get_set_same, if_pos (by omega), Nat.add_sub_cancel_left]
      · rw [Tab.get_set_ne _ _ _ _ _ here, ih]
        exact if_congr (by omega) rfl rfl
  unfold Core.accAt Core.setAcc accIx
  dsimp only
  rw [sets]
  by_cases same : b = a
  · subst same
    rw [if_pos (by omega), if_pos rfl, Nat.add_assoc, Nat.add_sub_cancel_left, show (64 * i + j) / 64 = i by omega,
      show (64 * i + j) % 64 = j by omega]
  · have block : (b * 4096 + 64 * i + j) / 4096 = b := by omega
    rw [if_neg (by omega), if_neg same, Tab.get_filter_key 0 k.acc (fun e => e / 4096 != a), if_pos]
    rw [block]
    simpa using same

theorem Core.setAcc_store (k : Core) (a : Nat) (f : Nat → Nat → BitVec 32) : (k.setAcc a f).store = k.store := by
  unfold Core.setAcc
  dsimp only

theorem Core.accAt_congr {k k' : Core} (h : k'.acc = k.acc) (a i j : Nat) : k'.accAt a i j = k.accAt a i j := by
  unfold Core.accAt
  rw [h]

/-! ### A flush of clean lines (R278) -/

theorem State.spotByte_setCore (s : State) (c d : Nat) (p : Nat × Nat) {x : Core} (h : x.store = (s.core c).store) :
    (s.setCore c x).spotByte d p = s.spotByte d p := by
  refine State.spotByte_congr rfl fun j => ?_
  rw [State.core_setCore]
  split
  next here => rw [here]; exact h
  next => rfl

/-- No line of the core's L1 holds a written byte. -/
def State.clean (s : State) (c : Nat) : Prop := ∀ l ∈ (s.core c).lines, l.written = 0

theorem State.flushVa_dropped {s : State} {c : Nat} (clean : s.clean c) (dom : Byte) (va : Nat) :
    (s.flushVa c dom va false).clean c ∧ ∀ d p, (s.flushVa c dom va false).spotByte d p = s.spotByte d p := by
  unfold State.flushVa
  split
  next l held =>
    have zero := clean l (List.mem_of_find?_eq_some held)
    have none : s.flushLine l = s := by
      unfold State.flushLine
      rw [zero]
      simp
    simp only [Bool.false_and, Bool.false_eq_true, if_false]
    unfold State.writeBack
    simp only [zero, bne_self_eq_false, Bool.and_false, Bool.false_eq_true, if_false, if_true, none]
    refine ⟨fun x hx => ?_, fun d p => State.spotByte_modCore s c d p rfl⟩
    rw [State.core_modCore_same] at hx
    have kept : x ∈ (s.core c).lines.filter fun x => x.dom != l.dom || x.va != l.va := by
      simpa [Core.putLine] using hx
    exact clean x (List.mem_filter.mp kept).1
  next => exact ⟨clean, fun _ _ => rfl⟩

theorem State.foldl_clean {α : Type} {c : Nat} (f : State → α → State)
    (step : ∀ s a, s.clean c → (f s a).clean c ∧ ∀ d p, (f s a).spotByte d p = s.spotByte d p) (l : List α) {s : State}
    (clean : s.clean c) : (l.foldl f s).clean c ∧ ∀ d p, (l.foldl f s).spotByte d p = s.spotByte d p := by
  induction l generalizing s with
  | nil => exact ⟨clean, fun _ _ => rfl⟩
  | cons a r ih =>
    obtain ⟨still, same⟩ := step s a clean
    obtain ⟨still', same'⟩ := ih still
    exact ⟨still', fun d p => (same' d p).trans (same d p)⟩

theorem State.flushRange_clean {s : State} {c : Nat} (clean : s.clean c) (dom : Byte) (lo hi : Nat) :
    (s.flushRange c dom lo hi false).clean c ∧ ∀ d p, (s.flushRange c dom lo hi false).spotByte d p = s.spotByte d p :=
  State.foldl_clean _ (fun _ _ h => State.flushVa_dropped h _ _) _ clean

/-! ### The retirement -/

/-- The core once a command has retired: its tiles are popped, its range entries free, and `rest` is the queue. -/
def Core.retired (k : Core) (m m' : MatCmd) (rest : List MatCmd) : Core :=
  { (k.popTiles m').freeRanges m.t.id with mats := rest }

theorem Core.popTiles_only (k : Core) (m : MatCmd) : k.popTiles m = { k with ring := (k.popTiles m).ring } := by
  unfold Core.popTiles
  split
  · split <;> rfl
  · rfl

theorem Core.retired_only (k : Core) (m m' : MatCmd) (rest : List MatCmd) : k.retired m m' rest = { k with
    ring := (k.popTiles m').ring
    ranges := k.ranges.filter fun e => e.2.owner != .command m.t.id
    mats := rest } := by
  unfold Core.retired
  rw [Core.popTiles_only]
  rfl

theorem Core.retired_store (k : Core) (m m' : MatCmd) (rest : List MatCmd) : (k.retired m m' rest).store = k.store := by
  rw [Core.retired_only]

theorem Core.SlotsL1Only.retired {k k' : Core} (h : k.SlotsL1Only k') (m m' : MatCmd) (rest : List MatCmd) :
    (k.retired m m' rest).SlotsL1Only (k'.retired m m' rest) := by
  have ring : (k'.popTiles m').ring = (k.popTiles m').ring := by
    rw [h.1]
    unfold Core.popTiles
    split
    · split <;> rfl
    · rfl
  have slots (k : Core) (tid : Nat) : (k.retired m m' rest).slotOf tid = k.slotOf tid := by rw [Core.retired_only]; rfl
  refine ⟨?_, fun tid => by rw [slots, slots, h.2]⟩
  rw [k.retired_only, k'.retired_only, ring, h.1]

/-- The oldest command retires once its work is done: what it leaves in the core, its status, and the bytes. -/
theorem State.matRetire_run {s s1 : State} {c : Nat} {m m' : MatCmd} {rest : List MatCmd} (queue : (s.core c).mats = m :: rest)
    (started : m.started = true) (worked : m.work = 0) (due : m.ready ≤ (s.core c).cycle)
    (run : s.matWork c m (·.matRun c m) = .done m' s1) (on : s1.onSlot c m.t.tid m.t.d) :
    ∃ t, exec (.matrixCommandRetire c) s = .next t ∧ ((s1.core c).retired m m' rest).SlotsL1Only (t.core c)
      ∧ t.got c m.t.tid m.t.d m'.status ∧ (s1.clean c → ∀ d p, t.spotByte d p = s1.spotByte d p) := by
  have go : (m.started && m.work == 0 && decide (m.ready ≤ (s.core c).cycle)) = true := by simp [started, worked, due]
  simp only [exec, execMatrixCommandRetire, queue, go, Bool.not_true, Bool.false_eq_true, if_false, run]
  generalize hu : List.foldl _ s1 _ = u
  have flushed : s1.SlotsL1Only u := hu ▸ .foldl (fun s (e : Nat × RangeEnt) => .flushRange s c _ _ _ _) _ _
  have same (clean : s1.clean c) : ∀ d p, u.spotByte d p = s1.spotByte d p :=
    hu ▸ (State.foldl_clean _ (fun s (e : Nat × RangeEnt) h => State.flushRange_clean h m.t.dom e.2.lo e.2.hi) _ clean).2
  have core : ((u.modCore c fun k => { (k.popTiles m').freeRanges m.t.id with mats := rest }).core c) =
      (u.core c).retired m m' rest := State.core_modCore_same ..
  have store (d : Nat) (p : Nat × Nat) : (u.modCore c fun k => { (k.popTiles m').freeRanges m.t.id with mats := rest }).spotByte d p
      = u.spotByte d p := State.spotByte_modCore u c d p (Core.retired_store (u.core c) m m' rest)
  generalize (u.modCore c fun k => { (k.popTiles m').freeRanges m.t.id with mats := rest }) = v at *
  have only : ((s1.core c).retired m m' rest).SlotsL1Only (v.core c) := by
    rw [core]
    exact (flushed.2 c).retired m m' rest
  have slots : (v.core c).slotOf m.t.tid = (s1.core c).slotOf m.t.tid := by
    rw [only.2, Core.retired_only]
    rfl
  have on' : v.onSlot c m.t.tid m.t.d := by
    unfold State.onSlot
    rw [slots]
    exact on
  have got := State.got_fillG on' m'.status
  obtain ⟨⟨i, slot⟩, -⟩ := on'
  refine ⟨_, rfl, only.trans ((State.SlotsL1Only.fillG slot _ _).2 c), got, fun clean d p => ?_⟩
  rw [State.fillG_slot slot, State.spotByte_setCore v c d p (Core.modThread_store ..), store, same clean]

/-! ### What a command changes beside its rows -/

/-- Core `k'` differs from `k` in its accumulators and in the events counted. -/
def Core.AccOnly (k k' : Core) : Prop := k' = { k with acc := k'.acc, tally := k'.tally }

theorem Core.AccOnly.setAcc (k : Core) (a : Nat) (f : Nat → Nat → BitVec 32) : k.AccOnly (k.setAcc a f) := by
  unfold Core.setAcc
  dsimp only
  generalize List.foldl _ _ _ = acc
  rfl

theorem Core.AccOnly.trans {k k' k'' : Core} (h : k.AccOnly k') (h' : k'.AccOnly k'') : k.AccOnly k'' := by
  unfold Core.AccOnly at *
  rw [h', h]

theorem Core.AccOnly.count (k : Core) (code : Nat) (slot : Option Nat) (d n : Nat) : k.AccOnly (k.count code slot d n) := by
  unfold Core.count
  split <;> rfl

theorem State.matEnd_only (s : State) (c : Nat) (m : MatCmd) : (s.core c).AccOnly ((s.matEnd c m).core c) := by
  unfold State.matEnd
  dsimp only
  split
  · rw [State.core_setCore_same]
    exact (Core.AccOnly.setAcc ..).trans (.count ..)
  · rw [State.core_setCore_same]
    exact .setAcc ..
  · split
    · rw [State.core_setCore_same]
      exact .setAcc ..
    · rfl
  · split
    · rw [State.core_setCore_same]
      exact .setAcc ..
    · rfl

/-- A command that moves no rows does its work at once; one whose accumulator has passed leaves every element (R235). -/
theorem State.matWork_still {s : State} {c : Nat} {m : MatCmd} (still : m.op.moves = false) :
    ∃ s1, s.matWork c m (·.matRun c m) = .done m s1 ∧ (s.core c).AccOnly (s1.core c)
      ∧ (s1.core c).acc = if (s.core c).accLost m = true then (s.core c).acc else ((s.matEnd c m).core c).acc := by
  have run (s : State) : s.matRun c m = .done m (s.matEnd c m) := by
    rw [State.matRun, still]
    rfl
  unfold State.matWork
  dsimp only
  simp only [run]
  split
  next lost =>
    refine ⟨_, rfl, ?_, ?_⟩
    · rw [State.core_modCore_same]
      have only := State.matEnd_only (s.setCore c { s.core c with acc := (s.core c).acc.filter fun e => e.1 / 4096 != m.acc }) c m
      rw [State.core_setCore_same] at only
      generalize (State.matEnd _ c m).core c = x at *
      unfold Core.AccOnly at *
      rw [only]
    · rw [State.core_modCore_same]
  next => exact ⟨_, rfl, State.matEnd_only s c m, rfl⟩

theorem State.onSlot_accOnly {s t : State} {c tid d : Nat} (h : (s.core c).AccOnly (t.core c)) (on : s.onSlot c tid d) :
    t.onSlot c tid d := by
  unfold State.onSlot at *
  rw [h]
  exact on

/-- What a command that moves no rows leaves when it retires. -/
theorem State.matRetire_still {s : State} {c : Nat} {m : MatCmd} {rest : List MatCmd} (queue : (s.core c).mats = m :: rest)
    (started : m.started = true) (worked : m.work = 0) (due : m.ready ≤ (s.core c).cycle) (on : s.onSlot c m.t.tid m.t.d)
    (still : m.op.moves = false) :
    ∃ t, exec (.matrixCommandRetire c) s = .next t ∧ (t.core c).mats = rest ∧ t.got c m.t.tid m.t.d m.status
      ∧ (t.core c).ring = ((s.core c).popTiles m).ring
      ∧ (t.core c).acc = if (s.core c).accLost m = true then (s.core c).acc else ((s.matEnd c m).core c).acc := by
  obtain ⟨s1, run, only, acc⟩ := State.matWork_still still
  obtain ⟨t, step, core, got, -⟩ := State.matRetire_run queue started worked due run (State.onSlot_accOnly only on)
  have ring : ((s1.core c).popTiles m).ring = ((s.core c).popTiles m).ring := by
    rw [only]
    unfold Core.popTiles
    split
    · split <;> rfl
    · rfl
  refine ⟨t, step, ?_, got, ?_, ?_⟩
  · rw [core.1, Core.retired_only]
  · rw [core.1, Core.retired_only, ← ring]
  · rw [core.1, Core.retired_only, ← acc]

end Sys2Proof.Machine
end

section
/-! SUPPORT. The events of the matrix engine: a command starts, a row of a drain is done, a drain, a load, an MZERO and an MMA
retire (R167, R236, R240, R245 to R249). -/

namespace Sys2Proof.Machine

theorem State.spots_stand {s : State} {c d va n : Nat} {need : BitVec 4} {f : Nat → Nat × Nat} (h : s.spots c d va n need f) :
    ∀ i, i < n → s.stands c d (va + i) need (f i) ∧ inWin (va + i) = inWin va :=
  fun i lt => ⟨State.stands_of_spot (h i lt).1, (h i lt).2⟩

theorem State.matWork_own {s : State} {c : Nat} {m : MatCmd} (own : (s.core c).accLost m = false) (f : State → Rows) :
    s.matWork c m f = f s := by
  unfold State.matWork
  dsimp only
  rw [own, if_neg Bool.false_ne_true]

theorem State.matStart_ready {s : State} {c i : Nat} {m : MatCmd} (listed : (s.core c).mats[i]? = some m)
    (ready : (s.core c).matReady i = true) : ∃ t, exec (.matrixCommandStart c i) s = .next t
      ∧ (t.core c).mats = (s.core c).mats.set i { m with started := true, work := (s.core c).matTime m } := by
  simp only [exec, execMatrixCommandStart, listed, ready, if_true]
  exact ⟨_, rfl, by rw [State.core_modCore_same]⟩

/-- The draws of a drain. -/
def drainDraws (mode : Nat) (seed : Word) : List Nat := if mode = 2 then (drawList 4096 seed).1 else []

section
variable {s : State} {c : Nat} {m : MatCmd} {ea otype mode : Nat} {seed : Word} {am : Option Nat} {clr : Bool}
    (op : m.op = .drain ea otype mode seed am clr) (own : (s.core c).accLost m = false) (held : c ∉ s.tampered)
    (unfinished : m.fin = false)
include op own held unfinished

/-- The event of a drain that has started writes its next row (R247). -/
theorem State.drainStep_run {i : Nat} {P : Nat → Nat × Nat} (listed : (s.core c).mats[i]? = some m) (started : m.started = true)
    (more : m.done < 64)
    (spots : s.spots c m.t.dom.toNat (ea + m.done * (64 * outBytes otype)) (64 * outBytes otype) 2 P)
    (distinct : Distinct (64 * outBytes otype) P) :
    ∃ t m', exec (.matrixCommandStart c i) s = .next t ∧ (t.core c).mats = (s.core c).mats.set i m'
      ∧ m'.done = m.done + 1 ∧ m'.fin = false ∧ m'.op = m.op ∧ m'.t = m.t ∧ m'.acc = m.acc
      ∧ (t.core c).acc = (s.core c).acc
      ∧ Moved s t m.t.dom.toNat (64 * outBytes otype) P fun j => (leBytes (outBytes otype)
          ((s.core c).drainBits m.acc otype mode (drainDraws mode seed) (64 * m.done + j / outBytes otype))).getD (j % outBytes otype) 0 := by
  have notReady : (s.core c).matReady i = false := by simp [Core.matReady, listed, started]
  have moves : m.op.moves = true := by rw [op]; rfl
  have draws : m.draws = drainDraws mode seed := by rw [MatCmd.draws, op]; rfl
  have at_ : ea + m.done * (64 * outBytes otype) = ea + 64 * m.done * outBytes otype := by ring
  rw [at_] at spots
  obtain ⟨t, row, wrote⟩ := State.drainRow_of_stands (m := m) (mode := mode) (ds := drainDraws mode seed) held (State.spots_stand spots)
  have bytes := wrote.1
  have len := (s.core c).drained_length m.acc otype mode (drainDraws mode seed) (64 * m.done) 64
  have moved := wrote.moved (by rwa [len])
  rw [len] at moved
  simp only [exec, execMatrixCommandStart, listed, notReady, started, moves, unfinished, Bool.false_eq_true, if_false, Bool.not_false,
    Bool.and_self, if_true]
  rw [State.matWork_own own, State.matUnit_drainRow op unfinished more, draws, row]
  generalize Core.drainMax _ _ _ _ _ _ _ _ = mx
  dsimp only
  refine ⟨_, { m with done := m.done + 1, mx }, rfl, ?_, rfl, unfinished, rfl, rfl, rfl, ?_, ?_⟩
  · rw [State.core_modCore_same, bytes.2 c]
  · rw [State.core_modCore_same, bytes.2 c]
  · have still (p : Nat × Nat) := State.spotByte_modCore t c m.t.dom.toNat p
      (f := fun k => { k with mats := k.mats.set i { m with done := m.done + 1, mx } }) rfl
    refine ⟨fun j lt => ?_, fun p out => ?_⟩
    · exact (still _).trans ((moved.1 j lt).trans (Core.drained_getD _ _ _ _ _ _ _ _ lt))
    · rw [still, moved.2 p out]

end

/-! ### Retirements -/

section
variable {s : State} {c : Nat} {m : MatCmd} {rest : List MatCmd} (queue : (s.core c).mats = m :: rest)
    (started : m.started = true) (worked : m.work = 0) (due : m.ready ≤ (s.core c).cycle) (on : s.onSlot c m.t.tid m.t.d)
include queue started worked due on

/-- R246. -/
theorem State.zeroRetire_run (op : m.op = .zero) : ∃ t, exec (.matrixCommandRetire c) s = .next t ∧ (t.core c).mats = rest
    ∧ t.got c m.t.tid m.t.d 0 ∧ ∀ a i j, i < 64 → j < 64 → (t.core c).accAt a i j =
      if a = m.acc ∧ (s.core c).accLost m = false then 0 else (s.core c).accAt a i j := by
  obtain ⟨t, run, mats, got, -, acc⟩ := State.matRetire_still queue started worked due on (by rw [op]; rfl)
  have status : m.status = 0 := by rw [MatCmd.status, op]
  refine ⟨t, run, mats, status ▸ got, fun a i j hi hj => ?_⟩
  have zeroed : (s.matEnd c m).core c = (s.core c).setAcc m.acc fun _ _ => 0 := by
    rw [State.matEnd, op]
    exact State.core_setCore_same ..
  rw [zeroed] at acc
  cases lost : (s.core c).accLost m with
  | true =>
    rw [lost, if_pos rfl] at acc
    rw [Core.accAt_congr acc, if_neg (by simp)]
  | false =>
    rw [lost, if_neg Bool.false_ne_true] at acc
    rw [Core.accAt_congr acc, Core.accAt_setAcc _ _ _ _ _ _ hi hj]
    simp only [and_true]

/-- What a drain or a load leaves once its memory work is done: `s2` is the state then. -/
theorem State.movesRetire_run {m2 : MatCmd} {s2 : State} (own : (s.core c).accLost m = false) (moves : m.op.moves = true)
    (units : s.matUnits c m m.draws 66 = .done m2 s2) (bytes : s.BytesOnly s2) :
    ∃ t, exec (.matrixCommandRetire c) s = .next t ∧ (t.core c).mats = rest ∧ t.got c m.t.tid m.t.d m2.status
      ∧ (s.clean c → ∀ d p, t.spotByte d p = (s2.matEnd c m2).spotByte d p)
      ∧ (t.core c).acc = ((s2.matEnd c m2).core c).acc := by
  have run : s.matWork c m (·.matRun c m) = .done m2 (s2.matEnd c m2) := by
    rw [State.matWork_own own, State.matRun, if_pos moves, units]
  have only := State.matEnd_only s2 c m2
  have on2 : s2.onSlot c m.t.tid m.t.d := by
    unfold State.onSlot at on ⊢
    rw [bytes.2 c]
    exact on
  obtain ⟨t, step, core, got, same⟩ := State.matRetire_run queue started worked due run (State.onSlot_accOnly only on2)
  refine ⟨t, step, ?_, got, fun clean => same ?_, ?_⟩
  · rw [core.1, Core.retired_only]
  · unfold State.clean at clean ⊢
    rw [only, bytes.2 c]
    exact clean
  · rw [core.1, Core.retired_only]

/-- R249. -/
theorem State.loadRetire_run {ea : Nat} {Q : Nat → Nat × Nat} (op : m.op = .load ea) (good : m.cause = 0 ∧ m.code = 0)
    (own : (s.core c).accLost m = false) (held : c ∉ s.tampered) (unfinished : m.fin = false) (some : m.vals.length ≤ 4096)
    (rows : m.done = m.vals.length / 64)
    (spots : s.spots c m.t.dom.toNat (ea + 4 * m.vals.length) (4 * (4096 - m.vals.length)) 1 Q) :
    ∃ t, exec (.matrixCommandRetire c) s = .next t ∧ (t.core c).mats = rest
      ∧ t.got c m.t.tid m.t.d (rowStatus 64 0 0 false) ∧ ∀ a i j, i < 64 → j < 64 → (t.core c).accAt a i j =
        if a = m.acc then
          let v := if 64 * i + j < m.vals.length then m.vals.getD (64 * i + j) 0
            else s.wordAt m.t.dom.toNat Q (64 * i + j - m.vals.length)
          if (f32 v).isNan then 0x7FC00000 else v
        else (s.core c).accAt a i j := by
  obtain ⟨s2, units, wrote⟩ := State.matUnits_load (ds := m.draws) op held unfinished rows some 66 (by omega) (State.spots_stand spots)
  have word (e : Nat) (lt : e < 4096) : (m.vals ++ (List.range (4096 - m.vals.length)).map (s.wordAt m.t.dom.toNat Q)).getD e 0 =
      if e < m.vals.length then m.vals.getD e 0 else s.wordAt m.t.dom.toNat Q (e - m.vals.length) := by
    split
    next early => rw [List.getD_append _ _ _ _ early]
    next late =>
      rw [List.getD_append_right _ _ _ _ (Nat.not_lt.mp late), List.getD_eq_getElem _ _ (by simp; omega)]
      simp
  generalize m.vals ++ (List.range (4096 - m.vals.length)).map (s.wordAt m.t.dom.toNat Q) = vals at units word
  obtain ⟨t, run, mats, got, -, acc⟩ := State.movesRetire_run queue started worked due on own (by rw [op]; rfl) units wrote.1
  have status : ({ m with vals, done := 64, fin := true } : MatCmd).status = rowStatus 64 0 0 false := by
    unfold MatCmd.status
    dsimp only
    rw [op, good.1, good.2]
    rfl
  have loaded : (s2.matEnd c { m with vals, done := 64, fin := true }).core c = (s2.core c).setAcc m.acc fun i j =>
      if (f32 (vals.getD (64 * i + j) 0)).isNan then 0x7FC00000 else vals.getD (64 * i + j) 0 := by
    unfold State.matEnd
    dsimp only
    rw [op]
    dsimp only
    rw [if_pos good.2]
    exact State.core_setCore_same ..
  rw [status] at got
  rw [loaded] at acc
  refine ⟨t, run, mats, got, fun a i j hi hj => ?_⟩
  have before : (s2.core c).accAt a i j = (s.core c).accAt a i j := by rw [wrote.1.2 c]; rfl
  rw [Core.accAt_congr acc, Core.accAt_setAcc _ _ _ _ _ _ hi hj, before, word _ (by omega)]

end

end Sys2Proof.Machine
end

section
/-! SUPPORT. A drain and an MMA retire (R167, R237, R240, R245, R247). -/

namespace Sys2Proof.Machine

/-- Bytes written at distinct places, and others at places apart from these, are read back. -/
theorem State.spotByte_placed_append (s : State) (d : Nat) {f g : Nat → Nat × Nat} {bs cs : List Byte}
    (distinct : Distinct bs.length f) (apart : ∀ i j, i < cs.length → j < bs.length → g i ≠ f j) {j : Nat} (lt : j < bs.length) :
    (s.putBytes d (placed f bs ++ placed g cs)).spotByte d (f j) = bs.getD j 0 := by
  refine State.spotByte_putBytes _ _ _ (List.mem_append_left _ (List.mem_map.mpr ⟨j, List.mem_range.mpr lt, rfl⟩)) fun e he same => ?_
  rcases List.mem_append.mp he with he | he
  · obtain ⟨i, hi, rfl⟩ := List.mem_map.mp he
    rw [distinct i j (List.mem_range.mp hi) lt same]
  · obtain ⟨i, hi, rfl⟩ := List.mem_map.mp he
    exact (apart i j (List.mem_range.mp hi) lt same).elim

theorem State.spotByte_append_placed (s : State) (d : Nat) {f g : Nat → Nat × Nat} {bs cs : List Byte}
    (distinct : Distinct cs.length g) (apart : ∀ i j, i < cs.length → j < bs.length → g i ≠ f j) {i : Nat} (lt : i < cs.length) :
    (s.putBytes d (placed f bs ++ placed g cs)).spotByte d (g i) = cs.getD i 0 := by
  refine State.spotByte_putBytes _ _ _ (List.mem_append_right _ (List.mem_map.mpr ⟨i, List.mem_range.mpr lt, rfl⟩)) fun e he same => ?_
  rcases List.mem_append.mp he with he | he
  · obtain ⟨j, hj, rfl⟩ := List.mem_map.mp he
    exact (apart i j lt (List.mem_range.mp hj) same.symm).elim
  · obtain ⟨j, hj, rfl⟩ := List.mem_map.mp he
    rw [distinct j i (List.mem_range.mp hj) lt same]

theorem State.spotByte_placed_out (s : State) (d : Nat) {f g : Nat → Nat × Nat} {bs cs : List Byte} {p : Nat × Nat}
    (hf : ∀ j, j < bs.length → f j ≠ p) (hg : ∀ i, i < cs.length → g i ≠ p) :
    (s.putBytes d (placed f bs ++ placed g cs)).spotByte d p = s.spotByte d p := by
  refine State.spotByte_putBytes_out _ _ _ fun e he => ?_
  rcases List.mem_append.mp he with he | he
  · obtain ⟨j, hj, rfl⟩ := List.mem_map.mp he
    exact hf j (List.mem_range.mp hj)
  · obtain ⟨i, hi, rfl⟩ := List.mem_map.mp he
    exact hg i (List.mem_range.mp hi)

theorem Core.drainMax_eq (k : Core) (a otype mode : Nat) (ds : List Nat) (lo : Nat) (mx : BitVec 32) (h : lo ≤ 4096) :
    (((List.range 4096).drop lo).map fun e => k.drainSeen a otype mode ds e &&& 0x7FFFFFFF).foldl fmax mx =
      k.drainMax a otype mode ds lo (4096 - lo) mx := by
  have split : (List.range 4096).drop lo = (List.range (4096 - lo)).map (lo + ·) := by
    rw [show 4096 = lo + (4096 - lo) by omega, List.range_add, List.drop_left' (by simp), Nat.add_sub_cancel_left]
  rw [split, List.map_map, List.foldl_map]
  rfl

section
variable {s : State} {c : Nat} {m : MatCmd} {rest : List MatCmd} (queue : (s.core c).mats = m :: rest)
    (started : m.started = true) (worked : m.work = 0) (due : m.ready ≤ (s.core c).cycle) (on : s.onSlot c m.t.tid m.t.d)
include queue started worked due on

/-- R247: a drain leaves its elements, its maximum and, where it clears, zeros in its accumulator. -/
theorem State.drainRetire_run {ea otype mode : Nat} {seed : Word} {am : Option Nat} {clr : Bool} {P A : Nat → Nat × Nat}
    (op : m.op = .drain ea otype mode seed am clr) (rows : m.done ≤ 64) (unfinished : m.fin = false)
    (good : m.cause = 0 ∧ m.code = 0) (own : (s.core c).accLost m = false) (held : c ∉ s.tampered) (clean : s.clean c)
    (spots : s.spots c m.t.dom.toNat (ea + 64 * m.done * outBytes otype) ((4096 - 64 * m.done) * outBytes otype) 2 P)
    (distinct : Distinct ((4096 - 64 * m.done) * outBytes otype) P)
    (max : ∀ a, am = some a → s.spots c m.t.dom.toNat a 4 1 A ∧ s.spots c m.t.dom.toNat a 4 2 A ∧ Distinct 4 A
      ∧ ∀ i j, i < 4 → j < (4096 - 64 * m.done) * outBytes otype → A i ≠ P j) :
    let k := s.core c
    let d := m.t.dom.toNat
    let ds := drainDraws mode seed
    let mx := k.drainMax m.acc otype mode ds (64 * m.done) (4096 - 64 * m.done) m.mx
    ∃ t, exec (.matrixCommandRetire c) s = .next t ∧ (t.core c).mats = rest
      ∧ t.got c m.t.tid m.t.d (rowStatus 64 0 0 false)
      ∧ (∀ j, j < (4096 - 64 * m.done) * outBytes otype → t.spotByte d (P j) =
          (leBytes (outBytes otype) (k.drainBits m.acc otype mode ds (64 * m.done + j / outBytes otype))).getD (j % outBytes otype) 0)
      ∧ (am.isSome = true → ∀ j, j < 4 → t.spotByte d (A j) = (leBytes 4
          (fmax (BitVec.ofNat 32 (ofLe ((List.range 4).map fun i => s.spotByte d (A i)))) mx).toNat).getD j 0)
      ∧ (∀ p, (∀ j, j < (4096 - 64 * m.done) * outBytes otype → P j ≠ p) → (am.isSome = true → ∀ j, j < 4 → A j ≠ p) →
          t.spotByte d p = s.spotByte d p)
      ∧ ∀ a i j, i < 64 → j < 64 → (t.core c).accAt a i j = if a = m.acc ∧ clr = true then 0 else k.accAt a i j := by
  have draws : m.draws = drainDraws mode seed := by rw [MatCmd.draws, op]; rfl
  have len := (s.core c).drained_length m.acc otype mode (drainDraws mode seed) (64 * m.done) (4096 - 64 * m.done)
  have byte (j : Nat) (lt : j < (4096 - 64 * m.done) * outBytes otype) :=
    (s.core c).drained_getD m.acc otype mode (drainDraws mode seed) (64 * m.done) (4096 - 64 * m.done) j lt
  have stand := State.spots_stand spots
  dsimp only
  generalize hmx : (s.core c).drainMax m.acc otype mode (drainDraws mode seed) (64 * m.done) (4096 - 64 * m.done) m.mx = mx
  generalize hcs : leBytes 4 (fmax (BitVec.ofNat 32 (ofLe ((List.range 4).map fun i => s.spotByte m.t.dom.toNat (A i)))) mx).toNat = cs
  have clen : cs.length = 4 := by rw [← hcs, length_leBytes]
  obtain ⟨s2, es, units, wrote, es_eq⟩ : ∃ s2 es, s.matUnits c m m.draws 66 = .done { m with done := 64, mx, fin := true } s2
      ∧ s.Wrote s2 m.t.dom.toNat (placed P ((s.core c).drained m.acc otype mode (drainDraws mode seed) (64 * m.done) (4096 - 64 * m.done))
        ++ placed A es) ∧ es = if am.isSome then cs else [] := by
    rw [draws]
    cases am with
    | none =>
      obtain ⟨s2, units, wrote⟩ := State.matUnits_drain (ds := drainDraws mode seed) unfinished held rows stand op
      rw [hmx] at units
      exact ⟨s2, [], units, by rw [show placed A [] = [] from rfl, List.append_nil]; exact wrote, rfl⟩
    | some a =>
      obtain ⟨read, write, -, apart⟩ := max a rfl
      obtain ⟨s2, units, wrote⟩ := State.matUnits_drain_max (ds := drainDraws mode seed) unfinished held rows stand op
        (State.spots_stand read) (State.spots_stand write) apart
      rw [hmx] at units wrote
      rw [hcs] at wrote
      exact ⟨s2, cs, units, wrote, rfl⟩
  obtain ⟨t, run, mats, got, same, acc⟩ := State.movesRetire_run queue started worked due on own (by rw [op]; rfl) units wrote.1
  have status : ({ m with done := 64, mx, fin := true } : MatCmd).status = rowStatus 64 0 0 false := by
    unfold MatCmd.status
    dsimp only
    rw [op, good.1, good.2]
    rfl
  have ended : s2.matEnd c { m with done := 64, mx, fin := true } =
      if clr then s2.setCore c ((s2.core c).setAcc m.acc fun _ _ => 0) else s2 := by
    unfold State.matEnd
    dsimp only
    rw [op]
    simp only [good.2, beq_self_eq_true, Bool.and_true]
  have bytes (p : Nat × Nat) : t.spotByte m.t.dom.toNat p = (s.putBytes m.t.dom.toNat
      (placed P ((s.core c).drained m.acc otype mode (drainDraws mode seed) (64 * m.done) (4096 - 64 * m.done)) ++ placed A es)).spotByte
      m.t.dom.toNat p := by
    rw [same clean, ended, ← wrote.2]
    split
    · exact State.spotByte_setCore _ _ _ _ (Core.setAcc_store ..)
    · rfl
  have fewer (i : Nat) (h : i < es.length) : i < 4 ∧ am.isSome = true := by
    rw [es_eq] at h
    split at h
    next yes => exact ⟨by omega, yes⟩
    next => exact absurd h (Nat.not_lt_zero i)
  have apart (i j : Nat) (hi : i < es.length) (hj : j < (4096 - 64 * m.done) * outBytes otype) : A i ≠ P j := by
    obtain ⟨lt, yes⟩ := fewer i hi
    obtain ⟨a, some⟩ := Option.isSome_iff_exists.mp yes
    exact (max a some).2.2.2 i j lt hj
  refine ⟨t, run, mats, status ▸ got, fun j lt => ?_, fun yes j lt => ?_, fun p outP outA => ?_, fun a i j hi hj => ?_⟩
  · rw [bytes, State.spotByte_placed_append s _ (by rwa [len]) (by rwa [len]) (by rwa [len]), byte j lt]
  · obtain ⟨a, some⟩ := Option.isSome_iff_exists.mp yes
    rw [if_pos yes] at es_eq
    subst es_eq
    rw [bytes, State.spotByte_append_placed s _ (by rw [clen]; exact (max a some).2.2.1) (by rwa [len]) (by rwa [clen])]
  · rw [bytes, State.spotByte_placed_out s _ (by rwa [len]) fun i hi => outA (fewer i hi).2 i (fewer i hi).1]
  · have before : (s2.core c).accAt a i j = (s.core c).accAt a i j := by rw [wrote.1.2 c]; rfl
    rw [ended] at acc
    cases clr with
    | true =>
      rw [if_pos rfl, State.core_setCore_same] at acc
      rw [Core.accAt_congr acc, Core.accAt_setAcc _ _ _ _ _ _ hi hj, before]
      simp only [and_true]
    | false =>
      rw [if_neg Bool.false_ne_true] at acc
      rw [Core.accAt_congr acc, before]
      exact (if_neg (by simp)).symm

end

/-! ### The sums of an MMA (R167) -/

/-- An element after the first `q` K-blocks. -/
def Core.mmaPart (k : Core) (ga gb : Ring) (a0 b0 : Nat) (sa sb z : BitVec 32) (i j q : Nat) : BitVec 32 :=
  let per := layBytes ga.layout / blockBytes (layFmt ga.layout)
  (List.range q).foldl (fun acc q =>
    let el := fun g s r => (List.range 16).map fun e => k.operand g (s + q / per) r (q % per) e
    mmaStep acc sa sb (el ga a0 i) (el gb b0 j)) z

theorem mmaStep_products (acc sa sb : BitVec 32) (x y : Nat → FV) :
    mmaStep acc sa sb ((List.range 16).map x) ((List.range 16).map y) =
      toF32 0 0 ((f32 acc).add (((f32 sa).mul (f32 sb)).mul
        ((List.range 15).foldl (fun p e => p.add ((x (e + 1)).mul (y (e + 1)))) ((x 0).mul (y 0))))) := by
  have products : List.zipWith FV.mul ((List.range 16).map x) ((List.range 16).map y) =
      (x 0).mul (y 0) :: (List.range 15).map fun e => (x (e + 1)).mul (y (e + 1)) := by
    rw [List.range_succ_eq_map, List.map_cons, List.map_cons, List.zipWith_cons_cons, List.map_map, List.map_map,
      List.zipWith_map, List.zipWith_self]
    rfl
  unfold mmaStep
  rw [products, sumFV, List.foldl_map]

theorem Core.mmaPart_succ (k : Core) (ga gb : Ring) (a0 b0 : Nat) (sa sb z : BitVec 32) (i j q : Nat) :
    let per := layBytes ga.layout / blockBytes (layFmt ga.layout)
    let prod (e : Nat) : FV := (k.operand ga (a0 + q / per) i (q % per) e).mul (k.operand gb (b0 + q / per) j (q % per) e)
    k.mmaPart ga gb a0 b0 sa sb z i j (q + 1) = toF32 0 0 ((f32 (k.mmaPart ga gb a0 b0 sa sb z i j q)).add
      (((f32 sa).mul (f32 sb)).mul ((List.range 15).foldl (fun p e => p.add (prod (e + 1))) (prod 0)))) := by
  unfold Core.mmaPart
  dsimp only
  rw [List.range_succ (n := q), List.foldl_append]
  exact mmaStep_products _ _ _ _ _

/-- A byte of an operand, zero where the domain has left the bank (R362). -/
def Core.ownByte (k : Core) (d : Nat) (g : Ring) (slot o : Nat) : Byte :=
  let off := g.base + slot % g.tiles * tileBytes g.layout + swizzle g.layout o
  if k.ownsBank d (off / 32768) then Tab.get 0 k.store off else 0

/-- Element `e` of K-block `b` of row `r` of an operand. -/
def Core.ownOperand (k : Core) (d : Nat) (g : Ring) (slot r b e : Nat) : FV :=
  let fmt := layFmt g.layout
  let blk := ofLe ((List.range (blockBytes fmt)).map fun j => k.ownByte d g slot (r * layBytes g.layout + b * blockBytes fmt + j))
  if fmt = 1 then .ofBits fmtBf16 (blk / 2 ^ (16 * e) % 65536) else sgElem fmt blk e

/-- The store without the banks that the domain does not own. -/
def Core.ownStore (k : Core) (d : Nat) : Core := { k with store := k.store.filter fun e => k.ownsBank d (e.1 / 32768) }

theorem Core.operand_ownStore (k : Core) (d : Nat) (g : Ring) (slot r b e : Nat) :
    (k.ownStore d).operand g slot r b e = k.ownOperand d g slot r b e := by
  have byte (o : Nat) : (k.ownStore d).tileByte g slot o = k.ownByte d g slot o :=
    Tab.get_filter_key 0 k.store (fun e => k.ownsBank d (e / 32768)) _
  simp only [Core.operand, Core.ownOperand, byte]

/-- The sum of the products of a K-block. -/
def Core.mmaBlock (k : Core) (d : Nat) (ga gb : Ring) (a0 b0 i j q : Nat) : FV :=
  let per := layBytes ga.layout / blockBytes (layFmt ga.layout)
  let prod (e : Nat) : FV := (k.ownOperand d ga (a0 + q / per) i (q % per) e).mul (k.ownOperand d gb (b0 + q / per) j (q % per) e)
  (List.range 15).foldl (fun p e => p.add (prod (e + 1))) (prod 0)

theorem Core.mmaPart_ownStore (k : Core) (d : Nat) (ga gb : Ring) (a0 b0 : Nat) (sa sb z : BitVec 32) (i j q : Nat) :
    (k.ownStore d).mmaPart ga gb a0 b0 sa sb z i j (q + 1) =
      toF32 0 0 ((f32 ((k.ownStore d).mmaPart ga gb a0 b0 sa sb z i j q)).add
        (((f32 sa).mul (f32 sb)).mul (k.mmaBlock d ga gb a0 b0 i j q))) := by
  rw [Core.mmaPart_succ]
  dsimp only
  simp only [Core.operand_ownStore]
  rfl

/-- R245: an MMA adds its products to the elements of its accumulator, block by block, and a lost one none. -/
theorem State.mmaRetire_run {s : State} {c : Nat} {m : MatCmd} {rest : List MatCmd} (queue : (s.core c).mats = m :: rest)
    (started : m.started = true) (worked : m.work = 0) (due : m.ready ≤ (s.core c).cycle) (on : s.onSlot c m.t.tid m.t.d)
    {zero : Bool} {ra rb n a0 b0 : Nat} {sa sb : BitVec 32} (op : m.op = .mma zero ra rb n a0 b0 sa sb) :
    let k := s.core c
    let n := if m.lost then 0 else n
    let ga := k.ringAt ra
    let per := layBytes ga.layout / blockBytes (layFmt ga.layout)
    ∃ t, exec (.matrixCommandRetire c) s = .next t ∧ (t.core c).mats = rest ∧ t.got c m.t.tid m.t.d (word (n <<< 16))
      ∧ (m.lost = true → ∀ r, (t.core c).ringAt r = k.ringAt r)
      ∧ ∃ acc : Nat → Nat → Nat → BitVec 32, (∀ i j, acc i j 0 = if zero then 0 else k.accAt m.acc i j)
        ∧ (∀ i j q, q < n * per → acc i j (q + 1) =
          toF32 0 0 ((f32 (acc i j q)).add (((f32 sa).mul (f32 sb)).mul (k.mmaBlock m.t.dom.toNat ga (k.ringAt rb) a0 b0 i j q))))
        ∧ ∀ a i j, i < 64 → j < 64 → (t.core c).accAt a i j =
            if a = m.acc ∧ k.accLost m = false then acc i j (n * per) else k.accAt a i j := by
  obtain ⟨t, run, mats, got, ring, acc⟩ := State.matRetire_still queue started worked due on (by rw [op]; rfl)
  have status : m.status = word ((if m.lost then 0 else n) <<< 16) := by rw [MatCmd.status, op]
  dsimp only
  refine ⟨t, run, mats, status ▸ got, fun lost r => ?_, fun i j q => ((s.core c).ownStore m.t.dom.toNat).mmaPart
    ((s.core c).ringAt ra) ((s.core c).ringAt rb) a0 b0 sa sb (if zero then 0 else (s.core c).accAt m.acc i j) i j q,
    fun i j => rfl, fun i j q _ => Core.mmaPart_ownStore .., fun a i j hi hj => ?_⟩
  · have popped : (s.core c).popTiles m = s.core c := by
      rw [Core.popTiles, op]
      exact if_pos lost
    unfold Core.ringAt
    rw [ring, popped]
  · have summed : ((s.matEnd c m).core c).acc = ((s.core c).setAcc m.acc fun i j =>
        ((s.core c).ownStore m.t.dom.toNat).mmaPart ((s.core c).ringAt ra) ((s.core c).ringAt rb) a0 b0 sa sb
          (if zero then 0 else (s.core c).accAt m.acc i j) i j ((if m.lost then 0 else n)
            * (layBytes ((s.core c).ringAt ra).layout / blockBytes (layFmt ((s.core c).ringAt ra).layout)))).acc := by
      rw [State.matEnd, op]
      dsimp only
      rw [State.core_setCore_same, Core.count_acc]
      rfl
    rw [summed] at acc
    cases lost : (s.core c).accLost m with
    | true =>
      rw [lost, if_pos rfl] at acc
      rw [Core.accAt_congr acc, if_neg (by simp)]
    | false =>
      rw [lost, if_neg Bool.false_ne_true] at acc
      rw [Core.accAt_congr acc, Core.accAt_setAcc _ _ _ _ _ _ hi hj]
      simp only [and_true]

end Sys2Proof.Machine
end

section
/-! SUPPORT. Barriers: objects, arrivals, replies and waits (R218, R219, R231 to R233). -/

namespace Sys2Proof.Machine

/-! ### Objects (R218, R219) -/

theorem or_shift {x y k : Nat} (h : y < 2 ^ k) : y ||| x <<< k = y + 2 ^ k * x := by
  rw [Nat.or_comm, ← Nat.shiftLeft_add_eq_or_of_lt h, Nat.shiftLeft_eq, Nat.mul_comm, Nat.add_comm]

/-- An arrival past the expected count sets the error bit alone. -/
theorem arrive_over {o : Word} {n : Nat} (h : fld o 16 16 < fld o 0 16 + n * fld o 40 8) :
    (arrive o n).2 = word (fld o 32 4 + 512) ∧ (arrive o n).1.getLsbD 36 = true
      ∧ ∀ j, j ≠ 36 → (arrive o n).1.getLsbD j = o.getLsbD j := by
  have phase : fld o 32 4 < 16 := fld_lt _ _ _
  unfold arrive
  dsimp only
  rw [if_pos h]
  refine ⟨congrArg word (or_shift (x := 1) (k := 9) (by omega)), ?_, fun j other => ?_⟩
  · rw [getLsbD_setFld]
    rfl
  · rw [getLsbD_setFld, if_neg (by omega)]

/-- The arrival that reaches the expected count starts the next phase. -/
theorem arrive_last {o : Word} {n : Nat} (h : fld o 0 16 + n * fld o 40 8 = fld o 16 16) :
    (arrive o n).2 = word (fld o 32 4 + 256) ∧ fld (arrive o n).1 0 16 = 0 ∧ fld (arrive o n).1 32 4 = (fld o 32 4 + 1) % 16
      ∧ ∀ j, 16 ≤ j → j < 32 ∨ 36 ≤ j → (arrive o n).1.getLsbD j = o.getLsbD j := by
  have phase : fld o 32 4 < 16 := fld_lt _ _ _
  unfold arrive
  dsimp only
  rw [if_neg (by omega), if_pos h]
  refine ⟨congrArg word (or_shift (x := 1) (k := 8) (by omega)), ?_, fld_setFld_same _ (by decide), fun j low range => ?_⟩
  · rw [fld_setFld_apart _ (Or.inl (by decide)), fld_setFld_same _ (by decide), Nat.zero_mod]
  · rw [getLsbD_setFld, if_neg (by omega), getLsbD_setFld, if_neg (by omega)]

/-- An earlier arrival is counted. -/
theorem arrive_before {o : Word} {n : Nat} (h : fld o 0 16 + n * fld o 40 8 < fld o 16 16) :
    (arrive o n).2 = word (fld o 32 4 + 65536 * (fld o 0 16 + n * fld o 40 8))
      ∧ fld (arrive o n).1 0 16 = fld o 0 16 + n * fld o 40 8 ∧ ∀ j, 16 ≤ j → (arrive o n).1.getLsbD j = o.getLsbD j := by
  have phase : fld o 32 4 < 16 := fld_lt _ _ _
  have bound : fld o 16 16 < 65536 := fld_lt _ _ _
  unfold arrive
  dsimp only
  rw [if_neg (by omega), if_neg (by omega)]
  refine ⟨congrArg word (or_shift (k := 16) (by omega)), ?_, fun j low => ?_⟩
  · rw [fld_setFld_same _ (by decide), Nat.mod_eq_of_lt (by omega)]
  · rw [getLsbD_setFld, if_neg (by omega)]

theorem fld_word (x lo len : Nat) (h : x < 2 ^ 64) : fld (word x) lo len = x / 2 ^ lo % 2 ^ len := by
  rw [fld, word, BitVec.extractLsb'_toNat, BitVec.toNat_ofNat, Nat.mod_eq_of_lt h, Nat.shiftRight_eq_div_pow]

/-- The fields of a new object. -/
theorem barrierInit_fields (v : Word) : let o := barrierInit v
    fld o 0 16 = 0 ∧ fld o 16 16 = fld v 0 16 ∧ fld o 32 4 = fld v 24 4 ∧ fld o 36 4 = 0 ∧ fld o 40 8 = fld v 16 8
      ∧ fld o 48 16 = 0 := by
  have count : fld v 0 16 < 65536 := fld_lt _ _ _
  have step : fld v 16 8 < 256 := fld_lt _ _ _
  have phase : fld v 24 4 < 16 := fld_lt _ _ _
  have sum : fld v 16 8 <<< 40 ||| fld v 24 4 <<< 32 ||| fld v 0 16 <<< 16 =
      fld v 16 8 * 2 ^ 40 + fld v 24 4 * 2 ^ 32 + fld v 0 16 * 2 ^ 16 := by
    have high : fld v 24 4 <<< 32 ||| fld v 0 16 <<< 16 = fld v 24 4 * 2 ^ 32 + fld v 0 16 * 2 ^ 16 := by
      rw [Nat.shiftLeft_eq (fld v 0 16), ← Nat.shiftLeft_add_eq_or_of_lt (by omega), Nat.shiftLeft_eq]
    rw [Nat.or_assoc, high, ← Nat.shiftLeft_add_eq_or_of_lt (by omega), Nat.shiftLeft_eq, Nat.add_assoc]
  dsimp only
  unfold barrierInit
  rw [sum]
  simp only [fld_word _ _ _ (show fld v 16 8 * 2 ^ 40 + fld v 24 4 * 2 ^ 32 + fld v 0 16 * 2 ^ 16 < 2 ^ 64 by omega)]
  refine ⟨?_, ?_, ?_, ?_, ?_, ?_⟩ <;> omega

/-! ### Requests and their replies (R231, R232) -/

section
variable {s : State} {i : Nat} {r : BarReq} (listed : s.bars[i]? = some r) (new : r.reply = none)
include listed new

theorem State.arrivalApply_gone (gone : (s.core r.target).ownsBank r.t.dom.toNat (r.off / 32768) = false) :
    ∃ v, exec (.barrierArrivalApply i) s = .next { s with free := s.free + 4, bars := s.bars.set i { r with reply := some v } } := by
  simp only [exec, execBarrierArrivalApply, listed, new, gone, Option.isSome_none, Bool.false_eq_true, if_false, Bool.not_false, if_true]
  exact ⟨_, rfl⟩

theorem State.arrivalApply_init (own : (s.core r.target).ownsBank r.t.dom.toNat (r.off / 32768) = true) (init : r.init = true) :
    exec (.barrierArrivalApply i) s = .next { (s.wrStore r.target r.off (leBytes 8 (barrierInit r.value).toNat ++ List.replicate 8 0)) with
      bars := s.bars.set i { r with reply := some (word (ofLe (s.rdStore r.target r.off 8))) } } := by
  simp only [exec, execBarrierArrivalApply, listed, new, own, init, Option.isSome_none, Bool.false_eq_true, if_false, Bool.not_true,
    if_true]

theorem State.arrivalApply_arrive (own : (s.core r.target).ownsBank r.t.dom.toNat (r.off / 32768) = true) (init : r.init = false) :
    let o := word (ofLe (s.rdStore r.target r.off 8))
    exec (.barrierArrivalApply i) s = .next { ((s.wrStore r.target r.off (leBytes 8 (arrive o r.n).1.toNat)).modCore r.core
      fun k => k.count 38 none r.t.dom.toNat 1) with bars := s.bars.set i { r with reply := some (arrive o r.n).2 } } := by
  simp only [exec, execBarrierArrivalApply, listed, new, own, init, Option.isSome_none, Bool.false_eq_true, if_false, Bool.not_true]

end

/-- An update of a thread that keeps its number and its g registers. -/
def Thread.KeepsG (f : Thread → Thread) : Prop := ∀ t, (f t).tid = t.tid ∧ (f t).g = t.g ∧ (f t).full = t.full

/-- An event that pends for a thread on its slot leaves its registers, and the package's barrier requests. -/
theorem State.got_pendOn {s : State} {c tid d : Nat} {v : Word} {f : Thread → Thread} (keeps : Thread.KeepsG f) (got : s.got c tid d v) :
    (s.pendOn c tid f).got c tid d v ∧ (s.pendOn c tid f).bars = s.bars := by
  obtain ⟨i, a, slot, held, value, full⟩ := got
  have hi := (Core.slotOf_some slot).1
  obtain ⟨tid_, g, full_⟩ := keeps a
  have pended : s.pendOn c tid f = s.setCore c ((s.core c).setThread i (some (f a))) := by
    unfold State.pendOn State.modCaller
    dsimp only
    rw [slot]
    dsimp only
    rw [Core.modThread, held]
    rfl
  rw [pended]
  refine ⟨⟨i, f a, ?_, ?_, ?_, ?_⟩, rfl⟩
  · rw [State.core_setCore_same, Core.slotOf_setThread held tid_, slot]
  · rw [State.core_setCore_same, Core.threadAt_setThread_same _ _ _ hi]
  · rw [g, value]
  · simpa only [Thread.isFull, full_] using full

theorem Thread.performed_g (t : Thread) (saving : Bool) (r : BarReq) :
    (t.performed saving r).tid = t.tid ∧ (t.performed saving r).g = t.g ∧ (t.performed saving r).full = t.full := by
  unfold Thread.performed
  split <;> exact ⟨rfl, rfl, rfl⟩

/-- A register that a reply fills holds the value, whatever pends for the thread with it. -/
theorem State.got_reply {s : State} {c tid d : Nat} (on : s.onSlot c tid d) (v : Word) {f : Thread → Thread} (keeps : Thread.KeepsG f) :
    ((s.fillG c tid d v).pendOn c tid f).got c tid d v ∧ ((s.fillG c tid d v).pendOn c tid f).bars = s.bars := by
  obtain ⟨got, bars⟩ := State.got_pendOn keeps (State.got_fillG on v)
  obtain ⟨⟨j, slot⟩, -⟩ := on
  exact ⟨got, bars.trans (by rw [State.fillG_slot slot]; rfl)⟩

/-- The state without barrier request `i`. -/
def State.unbar (s : State) (i : Nat) : State := { s with bars := s.bars.eraseIdx i }

/-- What the reply of an arrival does to its thread beside the fill. -/
def Thread.arrived (t : Thread) (saving : Thread → Bool) (v : Word) (r : BarReq) : Thread :=
  let t := if t.status = .reply then { t with status := .running } else t
  (if v.getLsbD 9 then t.pendEvent 2 18 0 (r.t.pc.setWidth 64) v 0 else t).performed (saving t) r

theorem Thread.keepsG_arrived (saving : Thread → Bool) (v : Word) (r : BarReq) : Thread.KeepsG (·.arrived saving v r) := by
  intro t
  unfold Thread.arrived
  dsimp only
  generalize hu : (if t.status = .reply then { t with status := .running } else t) = u
  have goes : u.tid = t.tid ∧ u.g = t.g ∧ u.full = t.full := by
    subst hu
    split <;> exact ⟨rfl, rfl, rfl⟩
  generalize hw : (if v.getLsbD 9 then u.pendEvent 2 18 0 (r.t.pc.setWidth 64) v 0 else u) = w
  have pends : w.tid = u.tid ∧ w.g = u.g ∧ w.full = u.full := by
    subst hw
    split <;> exact ⟨rfl, rfl, rfl⟩
  obtain ⟨tid, g, full⟩ := w.performed_g (saving u) r
  exact ⟨tid.trans (pends.1.trans goes.1), g.trans (pends.2.1.trans goes.2.1), full.trans (pends.2.2.trans goes.2.2)⟩

section
variable {s : State} {c i : Nat} {r : BarReq} {v : Word} (listed : s.bars[i]? = some r) (replied : r.reply = some v) (mine : r.core = c)
    (held : c ∉ s.tampered) (on : s.onSlot c r.t.tid r.t.d)
include held

theorem State.takeReply_kept : (s.unbar i).takeReply c r v = (s.unbar i, v) := by
  unfold State.takeReply
  rw [State.engLost_kept (s := s.unbar i) held]

include listed replied mine on

/-- R232: the reply of an arrival fills its register. -/
theorem State.bararvReply_run (init : r.init = false) :
    ∃ t, exec (.bararvReply c i) s = .next t ∧ t.got c r.t.tid r.t.d v ∧ t.bars = s.bars.eraseIdx i := by
  have go : (r.init || decide (r.core ≠ c)) = false := by simp [init, mine]
  have taken := State.takeReply_kept (i := i) (r := r) (v := v) held
  unfold State.unbar at taken
  refine ⟨((s.unbar i).fillG c r.t.tid r.t.d v).pendOn c r.t.tid (·.arrived (fun t => ((s.unbar i).core c).saving t.dom) v r), ?_,
    State.got_reply (s := s.unbar i) on v (Thread.keepsG_arrived _ v r)⟩
  simp only [exec, execBararvReply, listed, replied, go, Bool.false_eq_true, if_false, taken]
  rfl

/-- R231: the reply of a BARINIT fills its register with the old bits. -/
theorem State.barinitReply_run (init : r.init = true) :
    ∃ t, exec (.barinitReply c i) s = .next t ∧ t.got c r.t.tid r.t.d v ∧ t.bars = s.bars.eraseIdx i := by
  have go : (!r.init || decide (r.core ≠ c)) = false := by simp [init, mine]
  have taken := State.takeReply_kept (i := i) (r := r) (v := v) held
  unfold State.unbar at taken
  have step : exec (.barinitReply c i) s = .next (if r.events.isEmpty then (s.unbar i).fillG c r.t.tid r.t.d v else
      ((s.unbar i).fillG c r.t.tid r.t.d v).pendOn c r.t.tid fun t => t.performed (((s.unbar i).core c).saving t.dom) r) := by
    simp only [exec, execBarinitReply, listed, replied, go, Bool.false_eq_true, if_false, taken]
    rfl
  refine ⟨_, step, ?_⟩
  split
  · refine ⟨State.got_fillG (s := s.unbar i) on v, ?_⟩
    obtain ⟨⟨j, slot⟩, -⟩ := on
    rw [State.fillG_slot (s := s.unbar i) slot]
    rfl
  · exact State.got_reply (s := s.unbar i) on v fun t => t.performed_g _ r

end

/-! ### Waits (R233) -/

/-- The core without its waiting BARWT `i`. -/
def State.unwait (s : State) (c i : Nat) : State := s.modCore c fun k => { k with barwts := k.barwts.eraseIdx i }

theorem State.unwait_now (s : State) (c i : Nat) (w : BarWait) :
    (s.unwait c i).objectThere w = s.objectThere w ∧ (s.unwait c i).barrierNow w = s.barrierNow w := by
  have core (j : Nat) : ((s.unwait c i).core j) = { s.core j with barwts := ((s.unwait c i).core j).barwts } := by
    unfold State.unwait
    rw [State.core_modCore]
    split
    next here => rw [here]
    next => rfl
  have there : (s.unwait c i).objectThere w = s.objectThere w := by
    unfold State.objectThere
    rw [core]
    rfl
  have read : (s.unwait c i).rdStore w.target w.off 8 = s.rdStore w.target w.off 8 := by
    unfold State.rdStore
    rw [core]
  refine ⟨there, ?_⟩
  unfold State.barrierNow
  rw [there, read]
  rfl

/-- What a wait that ends leaves. -/
theorem State.barwtEnd_run {s : State} {c i : Nat} {w : BarWait} (on : s.onSlot c w.t.tid w.t.d) (late : Bool) :
    (((s.unwait c i).barwtEnd c w late).core c).barwts = (s.core c).barwts.eraseIdx i
      ∧ ((s.unwait c i).barwtEnd c w late).got c w.t.tid w.t.d
          (word ((s.barrierNow w).1 ||| (if late then 256 else 0) ||| (s.barrierNow w).2 <<< 9)) := by
  have now := (s.unwait_now c i w).2
  have waits : ((s.unwait c i).core c).barwts = (s.core c).barwts.eraseIdx i := by rw [State.unwait, State.core_modCore_same]
  have on1 : (s.unwait c i).onSlot c w.t.tid w.t.d := by
    unfold State.onSlot State.unwait at *
    rw [State.core_modCore_same]
    exact on
  unfold State.barwtEnd
  rw [now]
  generalize s.barrierNow w = p
  obtain ⟨ph, er⟩ := p
  generalize s.unwait c i = u at *
  dsimp only
  generalize hv : (if ph ≠ w.phase ∧ er = 0 then State.acquire (if u.objectThere w = true then u else { u with free := u.free + 1 })
    c w.t.dom w.t.scope else if u.objectThere w = true then u else { u with free := u.free + 1 }) = v
  have core : (u.core c).SlotsL1Only (v.core c) := by
    have free : (if u.objectThere w = true then u else { u with free := u.free + 1 }).core c = u.core c := by split <;> rfl
    subst hv
    split
    · have := (State.SlotsL1Only.acquire (if u.objectThere w = true then u else { u with free := u.free + 1 }) c w.t.dom w.t.scope).2 c
      rwa [free] at this
    · rw [free]
      exact .refl _
  have on2 : v.onSlot c w.t.tid w.t.d := by
    obtain ⟨⟨j, slot⟩, range⟩ := on1
    exact ⟨⟨j, (core.2 _).trans slot⟩, range⟩
  refine ⟨?_, State.got_fillG on2 _⟩
  obtain ⟨⟨j, slot⟩, -⟩ := on2
  rw [((State.SlotsL1Only.fillG slot _ _).2 c).1, core.1]
  exact waits

theorem State.barrierNow_there {s : State} {w : BarWait} (there : s.objectThere w = true) :
    s.barrierNow w = (fld (word (ofLe (s.rdStore w.target w.off 8))) 32 4, fld (word (ofLe (s.rdStore w.target w.off 8))) 36 1) := by
  rw [State.barrierNow, if_pos there]

section
variable {s : State} {c i : Nat} {w : BarWait} (listed : (s.core c).barwts[i]? = some w) (on : s.onSlot c w.t.tid w.t.d)
include listed on

theorem State.barwtWake_run (done : s.barwtDone w = true) :
    let o := word (ofLe (s.rdStore w.target w.off 8))
    ∃ t, exec (.barwtWake c i) s = .next t ∧ (t.core c).barwts = (s.core c).barwts.eraseIdx i
      ∧ (s.objectThere w = true → t.got c w.t.tid w.t.d (word (fld o 32 4 + 512 * fld o 36 1))) := by
  dsimp only
  obtain ⟨waits, got⟩ := State.barwtEnd_run (i := i) on false
  refine ⟨(s.unwait c i).barwtEnd c w false, ?_, waits, fun there => ?_⟩
  · simp only [exec, execBarwtWake, listed, done, if_true]
    rfl
  · rw [State.barrierNow_there there] at got
    have phase : fld (word (ofLe (s.rdStore w.target w.off 8))) 32 4 < 16 := fld_lt _ _ _
    rwa [if_neg Bool.false_ne_true, Nat.or_zero, or_shift (show _ < 2 ^ 9 by omega)] at got

theorem State.barwtBoundExpiry_run (waiting : s.barwtDone w = false) (due : w.deadline ≤ (s.core c).cycle) :
    let o := word (ofLe (s.rdStore w.target w.off 8))
    ∃ t, exec (.barwtBoundExpiry c i) s = .next t ∧ (t.core c).barwts = (s.core c).barwts.eraseIdx i
      ∧ (s.objectThere w = true → t.got c w.t.tid w.t.d (word (fld o 32 4 + 256))) := by
  dsimp only
  obtain ⟨waits, got⟩ := State.barwtEnd_run (i := i) on true
  refine ⟨(s.unwait c i).barwtEnd c w true, ?_, waits, fun there => ?_⟩
  · simp only [exec, execBarwtBoundExpiry, listed, due, if_true]
    rw [show (s.modCore c fun k => { k with barwts := k.barwts.eraseIdx i }) = s.unwait c i from rfl, waiting]
    rfl
  · have now := State.barrierNow_there there
    have phase : fld (word (ofLe (s.rdStore w.target w.off 8))) 32 4 < 16 := fld_lt _ _ _
    have bit : fld (word (ofLe (s.rdStore w.target w.off 8))) 36 1 < 2 := fld_lt _ _ _
    have clear : fld (word (ofLe (s.rdStore w.target w.off 8))) 36 1 = 0 := by
      rw [State.barwtDone, now] at waiting
      have : fld (word (ofLe (s.rdStore w.target w.off 8))) 36 1 ≠ 1 := by
        intro one
        simp [one] at waiting
      omega
    rw [now, clear, Nat.zero_shiftLeft, Nat.or_zero, if_pos rfl] at got
    rwa [show 256 = 1 <<< 8 from rfl, or_shift (show _ < 2 ^ 8 by omega)] at got

end

end Sys2Proof.Machine
end

section
/-! SUPPORT. Lines of the L1 (R278), the page table's search and its answer (R256 to R259), and shoot-downs (R260). -/

namespace Sys2Proof.Machine

/-! ### Lines of the L1 -/

theorem State.flushLine_bytes (s : State) (l : Line) (n j : Nat) (lt : j < n) (written : l.written.getLsbD j = true) :
    ((List.range n).foldl (fun s i => if l.written.getLsbD i then s.wrPa l.dom.toNat (l.pa + i) (l.byte i) else s) s).rdPa
      l.dom.toNat (l.pa + j) = l.byte j := by
  induction n with
  | zero => omega
  | succ n ih =>
    rw [List.range_succ, List.foldl_append]
    simp only [List.foldl_cons, List.foldl_nil]
    by_cases last : j = n
    · subst last
      rw [if_pos written, State.rdPa_wrPa, if_pos rfl]
    · split
      · rw [State.rdPa_wrPa, if_neg (by omega)]
        exact ih (by omega)
      · exact ih (by omega)

/-- A written byte that has been written back reads in memory (R278). -/
theorem State.l1WriteBack_run {s : State} {c i : Nat} {l : Line} (listed : (s.core c).lines[i]? = some l) (written : l.written ≠ 0)
    (held : c ∉ s.tampered) : ∃ t, exec (.l1WriteBack c i) s = .next t
      ∧ ∀ j, j < 32 → l.written.getLsbD j = true → t.rdPa l.dom.toNat (l.pa + j) = l.byte j := by
  simp only [exec, execL1WriteBack, listed, written, if_false]
  refine ⟨_, rfl, fun j lt bit => ?_⟩
  have kept : ¬ (s.tampered.contains c && l.written != 0) = true := by simp [held]
  unfold State.writeBack
  rw [if_neg kept]
  exact s.flushLine_bytes l 32 j lt bit

theorem State.l1LineDrop_run {s : State} {c i : Nat} {l : Line} (listed : (s.core c).lines[i]? = some l) (clean : l.written = 0) :
    exec (.l1LineDrop c i) s = .next (s.modCore c fun k =>
      { k with lines := k.lines.filter fun x => x.dom != l.dom || x.va != l.va }) := by
  have put (k : Core) : k.putLine l none = { k with lines := k.lines.filter fun x => x.dom != l.dom || x.va != l.va } := by
    rw [Core.putLine, Option.toList_none, List.append_nil]
  simp only [exec, execL1LineDrop, listed, clean, if_true, put]

/-! ### Entries of the page table (R256, R257) -/

/-- Word `i` of the entry at a place of the search. -/
def State.entryWord (s : State) (p : Nat × Bool) (i : Nat) : Word := s.rdWord (p.1 + 8 * i)

/-- The entry breaks no must-be-zero rule. -/
def State.entrySound (s : State) (p : Nat × Bool) : Prop :=
  let w := s.entryWord p
  fld (w 0) 60 2 = 0 ∧ fld (w 0) 0 16 = 0 ∧ fld (w 1) 46 18 = 0 ∧ fld (w 1) 6 10 = 0 ∧ fld (w 1) 4 1 = 0
    ∧ ((w 0).getLsbD 62 = true → fld (w 0) 16 5 = 0 ∧ fld (w 1) 16 5 = 0)

def State.entryBroken (s : State) (p : Nat × Bool) : Prop := (s.entryWord p 0).getLsbD 63 = true ∧ ¬ s.entrySound p

/-- The entry translates the address for the domain. -/
def State.entryFits (s : State) (d va : Nat) (p : Nat × Bool) : Prop :=
  let w := s.entryWord p
  (w 0).getLsbD 63 = true ∧ s.entrySound p ∧ fld (w 0) 52 8 = d ∧ (w 0).getLsbD 62 = p.2
    ∧ if p.2 then fld (w 0) 21 31 = va / 2 ^ 21 else fld (w 0) 16 36 = va / 2 ^ 16

/-- What a search finds in an entry that fits. -/
def State.entryTlb (s : State) (d : Nat) (p : Nat × Bool) : Tlb :=
  { dom := BitVec.ofNat 8 d, big := p.2, vpn := fld (s.entryWord p 0) 16 36, ppn := fld (s.entryWord p 1) 16 30
    rights := (s.entryWord p 1).extractLsb' 0 4, mig := (s.entryWord p 1).getLsbD 5, ent := p.1, dirtied := false }

theorem State.entrySound_iff (s : State) (p : Nat × Bool) :
    s.entrySound p ↔ entryBad (s.entryWord p 0) (s.entryWord p 1) = false := by
  simp only [State.entrySound, entryBad, Bool.or_eq_false_iff, Bool.and_eq_false_iff, bne_eq_false_iff_eq, ← and_assoc]
  refine and_congr_right fun _ => ?_
  cases (s.entryWord p 0).getLsbD 62 <;> simp

theorem State.probe_of_fits {s : State} {d va : Nat} {p : Nat × Bool} (h : s.entryFits d va p) :
    s.probe p.1 d va p.2 = .hit (s.entryTlb d p) := by
  obtain ⟨valid, sound, dom, big, page⟩ := h
  have valid : ¬ (s.rdWord p.1).getLsbD 63 = false := by
    rw [show (s.rdWord p.1).getLsbD 63 = true from valid]
    exact Bool.noConfusion
  unfold State.probe
  dsimp only
  rw [if_neg valid, if_neg (by rw [show entryBad (s.rdWord p.1) (s.rdWord (p.1 + 8)) = false from (s.entrySound_iff p).mp sound]
                               exact Bool.false_ne_true), if_pos ⟨dom, big, page⟩]
  rfl

theorem State.probe_of_broken {s : State} {d va : Nat} {p : Nat × Bool} (h : s.entryBroken p) : s.probe p.1 d va p.2 = .bad := by
  obtain ⟨valid, unsound⟩ := h
  have valid : ¬ (s.rdWord p.1).getLsbD 63 = false := by
    rw [show (s.rdWord p.1).getLsbD 63 = true from valid]
    exact Bool.noConfusion
  have bad : entryBad (s.rdWord p.1) (s.rdWord (p.1 + 8)) = true :=
    Bool.eq_true_of_not_eq_false fun good => unsound ((s.entrySound_iff p).mpr good)
  unfold State.probe
  dsimp only
  rw [if_neg valid, if_pos bad]

theorem State.probe_of_neither {s : State} {d va : Nat} {p : Nat × Bool} (unfit : ¬ s.entryFits d va p) (whole : ¬ s.entryBroken p) :
    s.probe p.1 d va p.2 = .miss := by
  unfold State.probe
  dsimp only
  split
  next => rfl
  next valid =>
    have valid : (s.entryWord p 0).getLsbD 63 = true := Bool.eq_true_of_not_eq_false valid
    have sound : s.entrySound p := by
      by_contra unsound
      exact whole ⟨valid, unsound⟩
    split
    next bad => exact absurd ((s.entrySound_iff p).mp sound) (by rw [show entryBad (s.entryWord p 0) (s.entryWord p 1) = true from bad]; exact Bool.noConfusion)
    next =>
      exact if_neg fun same => unfit ⟨valid, sound, same⟩

/-- An entry that does not fit is passed over, and recorded where it is broken. -/
theorem State.search_unfit {s : State} {d va : Nat} {p : Nat × Bool} (unfit : ¬ s.entryFits d va p) (r : List (Nat × Bool)) :
    ∃ v, s.search d va (p :: r) = ({ s with pterr := v } : State).search d va r ∧ (¬ s.entryBroken p → v = s.pterr)
      ∧ (s.entryBroken p → v = 0x8000000000000000 ||| word (p.1 % 2 ^ 46)) := by
  by_cases broken : s.entryBroken p
  · exact ⟨_, by rw [State.search, State.probe_of_broken broken], fun h => (h broken).elim, fun _ => rfl⟩
  · exact ⟨s.pterr, by rw [State.search, State.probe_of_neither unfit broken], fun _ => rfl, fun h => (broken h).elim⟩

/-- The first entry that fits is found. -/
theorem State.search_fits {s : State} {d va : Nat} {before after : List (Nat × Bool)} {p : Nat × Bool}
    (unfit : ∀ q ∈ before, ¬ s.entryFits d va q) (fits : s.entryFits d va p) :
    (s.search d va (before ++ p :: after)).1 = some (s.entryTlb d p) := by
  induction before generalizing s with
  | nil => rw [List.nil_append, State.search, State.probe_of_fits fits]
  | cons q before ih =>
    obtain ⟨v, step, -⟩ := State.search_unfit (unfit q List.mem_cons_self) (before ++ p :: after)
    rw [List.cons_append, step]
    exact ih (s := { s with pterr := v }) (fun q hq => unfit q (List.mem_cons_of_mem _ hq)) fits

theorem State.search_none {s : State} {d va : Nat} {order : List (Nat × Bool)} (unfit : ∀ q ∈ order, ¬ s.entryFits d va q) :
    (s.search d va order).1 = none := by
  induction order generalizing s with
  | nil => rfl
  | cons q order ih =>
    obtain ⟨v, step, -⟩ := State.search_unfit (unfit q List.mem_cons_self) order
    rw [step]
    exact ih (s := { s with pterr := v }) fun q hq => unfit q (List.mem_cons_of_mem _ hq)

theorem State.search_whole {s : State} {d va : Nat} {order : List (Nat × Bool)}
    (plain : ∀ q ∈ order, ¬ s.entryFits d va q ∧ ¬ s.entryBroken q) : (s.search d va order).2.pterr = s.pterr := by
  induction order generalizing s with
  | nil => rfl
  | cons q order ih =>
    obtain ⟨unfit, whole⟩ := plain q List.mem_cons_self
    obtain ⟨v, step, same, -⟩ := State.search_unfit unfit order
    rw [step, ih (s := { s with pterr := v }) fun q hq => plain q (List.mem_cons_of_mem _ hq)]
    exact same whole

/-- The last broken entry on the way is recorded. -/
theorem State.search_broken {s : State} {d va : Nat} {before after : List (Nat × Bool)} {p : Nat × Bool}
    (unfit : ∀ q ∈ before, ¬ s.entryFits d va q) (broken : s.entryBroken p)
    (plain : ∀ q ∈ after, ¬ s.entryFits d va q ∧ ¬ s.entryBroken q) :
    (s.search d va (before ++ p :: after)).2.pterr = 0x8000000000000000 ||| word (p.1 % 2 ^ 46) := by
  induction before generalizing s with
  | nil =>
    obtain ⟨v, step, -, recorded⟩ := State.search_unfit (d := d) (va := va) (p := p) (fun fits => broken.2 fits.2.1) after
    rw [List.nil_append, step, State.search_whole (s := { s with pterr := v }) plain]
    exact recorded broken
  | cons q before ih =>
    obtain ⟨v, step, -⟩ := State.search_unfit (unfit q List.mem_cons_self) (before ++ p :: after)
    rw [List.cons_append, step]
    exact ih (s := { s with pterr := v }) (fun q hq => unfit q (List.mem_cons_of_mem _ hq)) broken plain

/-! ### The answer of the page table -/

theorem ofLe_leBytes_eight (v : Word) : word (ofLe (leBytes 8 v.toNat)) = v := by
  have lt := v.isLt
  refine BitVec.eq_of_toNat_eq ?_
  simp only [word, BitVec.toNat_ofNat, leBytes, List.range_succ, List.range_zero, List.nil_append, List.map_cons,
    List.map_nil, List.cons_append, ofLe, List.foldr_cons, List.foldr_nil, Nat.shiftRight_eq_div_pow]
  omega

theorem State.rdWord_wrWord (s : State) (pa : Nat) (v : Word) : (s.wrWord pa v).rdWord pa = v := by
  have back := s.rdRaw_wrRaw pa (leBytes 8 v.toNat)
  rw [length_leBytes] at back
  rw [State.rdWord, State.wrWord, back, ofLe_leBytes_eight]

/-- The third word of the entry holds its marks (R258). -/
theorem State.cache_mark (s : State) (e : Nat) (write : Bool) (cl : Nat) (ts : List Tlb) :
    (s.cache e write cl ts).rdWord (e + 16) = s.rdWord (e + 16) ||| (if write then 3 else 1) := by
  change (s.markEntry e write).rdWord (e + 16) = _
  rw [State.markEntry, State.rdWord_wrWord]

/-- What is found in an entry that fits covers the address. -/
theorem State.entryTlb_covers {s : State} {d va : Nat} {p : Nat × Bool} (h : s.entryFits d va p) :
    (s.entryTlb d p).covers d va = true := by
  obtain ⟨-, -, dom, -, page⟩ := h
  have small : d < 256 := dom ▸ fld_lt _ _ _
  have same : (BitVec.ofNat 8 d).toNat = d := by rw [BitVec.toNat_ofNat, Nat.mod_eq_of_lt small]
  unfold Tlb.covers State.entryTlb
  dsimp only
  rw [same, BEq.rfl, Bool.true_and]
  cases big : p.2 with
  | true =>
    rw [big, if_pos rfl] at page
    rw [if_pos rfl, beq_iff_eq, ← page]
    simp only [fld, BitVec.extractLsb'_toNat, Nat.shiftRight_eq_div_pow]
    omega
  | false =>
    rw [big, if_neg Bool.false_ne_true] at page
    rw [if_neg Bool.false_ne_true, beq_iff_eq, page]

section
variable {s : State} {cl d va : Nat} {nd : BitVec 4} (table : ¬ fld s.ptcfg 0 5 < 6)
    (unheld : ∀ x ∈ Tab.get [] s.tlb cl, x.covers d va = false)
include table unheld

omit table in
theorem State.port_unheld : (s.port cl).find? (·.covers d va) = none :=
  List.find?_eq_none.mpr fun x hx => by rw [unheld x hx]; exact Bool.false_ne_true

theorem State.translate_unfound (none_ : (s.search d va (s.searchOrder d va)).1 = none) :
    s.translate cl d va nd = (.missing, (s.search d va (s.searchOrder d va)).2) := by
  rw [State.translate_table table, State.lookupPage_absent nd (State.port_unheld unheld)]
  generalize s.search d va (s.searchOrder d va) = r at none_
  obtain ⟨t, s1⟩ := r
  cases none_
  rfl

/-- An access that the match of the table does not serve. -/
theorem State.translate_unserved {t : Tlb} (found : (s.search d va (s.searchOrder d va)).1 = some t) (lacks : ¬ s.serves t va nd) :
    (s.translate cl d va nd).1 = s.answer t va nd := by
  rw [State.translate_table table, State.lookupPage_absent nd (State.port_unheld unheld)]
  cases searched : s.search d va (s.searchOrder d va) with
  | mk u s1 =>
    rw [searched] at found
    cases found
    have only := State.search_state searched
    have decoders : s1.decoders = s.decoders := by rw [only]
    have lacks1 : ¬ s1.serves t va nd := fun serves => lacks ((State.serves_congr decoders ..).mp serves)
    have answers (u : State) (h : u.decoders = s.decoders) : u.answer t va nd = s.answer t va nd := by
      have backed (a n : Nat) : u.backed a n = s.backed a n := by simp only [State.backed, h]
      rw [State.answer, State.answer, backed]
    dsimp only
    rw [if_pos (by by_contra serves; exact lacks1 (State.serves_iff.mpr serves))]
    dsimp only
    rcases s1.gainRights_cases cl d va nd t with ⟨-, same⟩ | ⟨-, u, again, serves, -⟩ | ⟨-, -, same⟩
    · rw [same]
      exact answers s1 decoders
    · rw [State.search_again searched] at again
      cases again
      exact (lacks1 serves).elim
    · rw [same]
      exact answers _ (by rw [State.search_only]; exact decoders)

/-- An access that it serves: the port's cache holds the translation, and the entry is marked (R258). -/
theorem State.translate_served {t : Tlb} (found : (s.search d va (s.searchOrder d va)).1 = some t) (serves : s.serves t va nd)
    (covers : t.covers d va = true) :
    (s.translate cl d va nd).1 = .ok (t.phys va) ∧ (∃ x ∈ Tab.get [] (s.translate cl d va nd).2.tlb cl, x.covers d va = true)
      ∧ (s.translate cl d va nd).2.rdWord (t.ent + 16) = s.rdWord (t.ent + 16) ||| (if nd.getLsbD 1 then 3 else 1) := by
  rw [State.translate_table table, State.lookupPage_absent nd (State.port_unheld unheld)]
  cases searched : s.search d va (s.searchOrder d va) with
  | mk u s1 =>
    rw [searched] at found
    cases found
    have only := State.search_state searched
    have decoders : s1.decoders = s.decoders := by rw [only]
    have serves1 : s1.serves t va nd := (State.serves_congr decoders ..).mpr serves
    have read : s1.rdWord (t.ent + 16) = s.rdWord (t.ent + 16) := by rw [only]; rfl
    dsimp only
    rw [if_neg (State.serves_iff.mp serves1)]
    dsimp only
    have serves2 : (s1.cache t.ent (nd.getLsbD 1) cl ({ t with dirtied := nd.getLsbD 1 } :: s.port cl)).serves
        { t with dirtied := nd.getLsbD 1 } va nd := (State.serves_congr (State.cache_decoders ..) ..).mpr serves1
    have same : (s1.cache t.ent (nd.getLsbD 1) cl ({ t with dirtied := nd.getLsbD 1 } :: s.port cl)).gainRights cl d va nd
        { t with dirtied := nd.getLsbD 1 } = ({ t with dirtied := nd.getLsbD 1 },
          s1.cache t.ent (nd.getLsbD 1) cl ({ t with dirtied := nd.getLsbD 1 } :: s.port cl)) := if_pos serves2.1
    rw [same]
    refine ⟨State.answer_of_serves serves2, ⟨{ t with dirtied := nd.getLsbD 1 }, ?_, covers⟩, ?_⟩
    · change _ ∈ (State.cache ..).port cl
      rw [State.cache_port]
      exact List.mem_cons_self
    · rw [← read]
      exact State.cache_mark ..

end

/-! ### Shoot-downs (R260) -/

theorem State.SlotsL1Only.tlb {s t : State} (h : s.SlotsL1Only t) : t.tlb = s.tlb := by rw [h.1]

theorem State.shootNow_tlb (s : State) (r : Shoot) :
    (s.shootNow r).tlb = s.tlb.map fun (e : Nat × List Tlb) => (e.1, e.2.filter fun t => !r.drops t) := by
  unfold State.shootNow
  refine (State.SlotsL1Only.tlb (.foldl (fun s c => ?_) _ _)).trans rfl
  exact .foldl (fun s _ => .flushVa s _ _ _ _) _ _

theorem State.shootDownComplete_run {s : State} {i : Nat} {r : Shoot} (listed : s.shoot[i]? = some r) :
    ∃ t, exec (.shootDownComplete i) s = .next t ∧ t.shoot = s.shoot.eraseIdx i ∧ ∀ e ∈ t.tlb, ∀ x ∈ e.2, r.drops x = false := by
  simp only [exec, execShootDownComplete, listed]
  refine ⟨_, rfl, rfl, fun e he x hx => ?_⟩
  have held : e ∈ (s.shootNow r).tlb := he
  rw [State.shootNow_tlb] at held
  obtain ⟨e', -, rfl⟩ := List.mem_map.mp held
  simpa using (List.mem_filter.mp hx).2

end Sys2Proof.Machine
end

section
/-! SUPPORT. A copy's row and its end in the terms of the rules (R212, R217). -/

namespace Sys2Proof.Machine

theorem State.copyAt_of_spots {s : State} {c : Nat} {cp : Copy} {es : List Nat} {P Q : Nat → Nat → Nat × Nat} (held : c ∉ s.tampered)
    (kept : cp.lost = false)
    (source : cp.fill = false → ∀ e ∈ es, s.spots c cp.t.dom.toNat (cp.srcAt e) cp.blk.ses 1 (Q e)
      ∧ cp.overlaps c (s.core c) e = false ∧ ∀ e' ∈ es, ∀ j j', j < cp.blk.ses → j' < cp.blk.des → Q e j ≠ P e' j')
    (dest : ∀ e ∈ es, ∀ j, j < cp.blk.des → s.spot c cp.t.dom.toNat (cp.dstByte c (s.core c) e j) 2 = some (P e j)
      ∧ inWin (cp.dstByte c (s.core c) e j) = inWin (cp.dstByte c (s.core c) e 0)
      ∧ (cp.toRing.isSome = true → inWin (cp.dstByte c (s.core c) e j) = true ∧ (P e j).1 = c + 1)) : s.CopyAt c cp es P Q where
  held := held
  kept := kept
  source fill e he := State.spots_stand (source fill e he).1
  apart fill e he := (source fill e he).2
  dest e he j lt := by
    obtain ⟨spot, window, inRing⟩ := dest e he j lt
    exact ⟨State.stands_of_spot spot, window, inRing⟩

/-- The status of a copy that has ended (R217). -/
theorem Copy.status_eq {cp : Copy} (rows : cp.done < 2 ^ 24) (byte : cp.cause < 256) :
    rowStatus cp.done cp.cause (if cp.cause == 0 then 0 else 1) (!(cp.cause == 0)) =
      word (if cp.cause = 0 then 0xFFFFFF * 2 ^ 40 + cp.done * 2 ^ 16
        else cp.done * 2 ^ 40 + cp.done * 2 ^ 16 + cp.cause * 2 ^ 8 + 1) := by
  by_cases good : cp.cause = 0
  · rw [good, rowStatus_eq _ rows (by decide) (by decide)]
    simp
  · rw [beq_false_of_ne good, rowStatus_eq _ rows byte (by decide), if_neg good]
    rfl

theorem Copy.ring?_lost {cp : Copy} (lost : cp.lost = true) : cp.ring? = none := if_pos lost

theorem Copy.ring?_kept {cp : Copy} (kept : cp.lost = false) : cp.ring? = cp.toRing := if_neg (by rw [kept]; exact Bool.false_ne_true)

/-- R206, R217, R222, on the core and the thread that the copy leaves. -/
theorem State.copyComplete_leaves {s : State} {c i : Nat} {cp : Copy} (listed : (s.core c).copies[i]? = some cp) (ended : cp.ended = true)
    (caughtUp : (s.core c).copyCaughtUp = true) (on : s.onSlot c cp.t.tid cp.t.d) (rows : cp.done < 2 ^ 24) (byte : cp.cause < 256) :
    let status := word (if cp.cause = 0 then 0xFFFFFF * 2 ^ 40 + cp.done * 2 ^ 16
      else cp.done * 2 ^ 40 + cp.done * 2 ^ 16 + cp.cause * 2 ^ 8 + 1)
    ∃ t, exec (.copyComplete c i) s = .next t
      ∧ (t.core c).copies = (if cp.cause = 0 ∧ cp.follow.isSome = true then (s.core c).copies.set i { cp with filled := true }
          else (s.core c).copies.eraseIdx i)
      ∧ (t.core c).ranges = (s.core c).ranges.filter (fun e => e.2.owner != .command cp.t.id)
      ∧ (cp.follow = none ∨ cp.cause = 0 → t.got c cp.t.tid cp.t.d status)
      ∧ (∀ w, cp.follow = some w → cp.cause ≠ 0 →
          (0 < fld w 42 6 → fld w 42 6 < 32 → t.got c cp.t.tid (fld w 42 6) 2)
          ∧ (fld w 42 6 ≠ cp.t.d → t.got c cp.t.tid cp.t.d status))
      ∧ ∀ r, (t.core c).ringAt r = if cp.ring? = some r
          then ((s.core c).ringAt r).finish cp.slot0 cp.slots (if cp.cause == 0 then cp.blk.layout else 0) else (s.core c).ringAt r := by
  obtain ⟨t, run, only, fill, follow⟩ := State.copyComplete_run listed ended caughtUp on
  rw [Copy.status_eq rows byte] at fill follow
  have core := only.1
  refine ⟨t, run, ?_, ?_, fill, follow, fun r => ?_⟩
  · rw [core, Core.copyEnded_only]
    simp only [Bool.and_eq_true, beq_iff_eq]
  · rw [core, Core.copyEnded_only]
  · rw [← Core.copyEnded_ringAt _ _ i, core]
    rfl

end Sys2Proof.Machine
end

section
/-! SUPPORT. Translations in the terms of the rules (R256 to R259, R263). -/

namespace Sys2Proof.Machine

theorem State.translationMiss_run {s : State} {cl : Nat} (table : 6 ≤ fld s.ptcfg 0 5) (held : ∀ c ∈ s.tampered, clusterOf c ≠ cl)
    (d page : Nat) (write : Bool) :
    exec (.translationMiss cl d page write) s = .next (s.lookupPage cl d (page * 65536) (if write then 2 else 0)).2 := by
  have kept : (s.tampered.find? fun c => clusterOf c == cl && s.walks cl d (page * 65536) (if write then 2 else 0)) = none :=
    List.find?_eq_none.mpr fun c hc same => held c hc (beq_iff_eq.mp (Bool.and_eq_true_iff.mp same).1)
  have there : ¬ fld s.ptcfg 0 5 < 6 := Nat.not_lt.mpr table
  simp only [exec, execTranslationMiss, kept, there, if_false]

theorem State.translate_identity_answer {s : State} (identity : fld s.ptcfg 0 5 < 6) (cl d va : Nat) (nd : BitVec 4) :
    (s.translate cl d va nd).1 = if d ≠ 0 then .refused else if s.backed va 1 then .ok va else .rights := by
  rw [State.translate_identity identity, ite_not]
  split <;> rfl

/-- Only a translation that succeeds changes what the ports hold (R258). -/
theorem State.translate_failed_tlb {s : State} {cl d va : Nat} {nd : BitVec 4} (failed : ∀ pa, (s.translate cl d va nd).1 ≠ .ok pa) :
    (s.translate cl d va nd).2.tlb = s.tlb := by
  by_cases identity : fld s.ptcfg 0 5 < 6
  · rw [State.translate_identity identity]
    split <;> rfl
  · rcases State.translate_port identity cl d va nd with ⟨⟨pa, ok⟩, -⟩ | ⟨same, -⟩
    · exact (failed pa ok).elim
    · exact same

/-- The places that a search visits, big pages before small ones (R256, R257). -/
theorem State.searchOrder_eq (s : State) (d va : Nat) : s.searchOrder d va = [true, false].flatMap fun big =>
    let x := (if big then 1 else 0) <<< 44 ||| d <<< 36 ||| (if big then va / 2 ^ 21 else va / 2 ^ 16)
    (List.range (fld s.ptcfg 8 4)).flatMap fun j => (List.range 8).map fun i =>
      (s.ptbase.toNat + (((x ^^^ x >>> 15 ^^^ x >>> 30) % 2 ^ fld s.ptcfg 0 5 + j) % 2 ^ fld s.ptcfg 0 5) * 256 + 32 * i, big) := by
  rw [List.flatMap_cons, List.flatMap_cons, List.flatMap_nil, List.append_nil]
  rfl

section
variable {s : State} {cl d va : Nat} {nd : BitVec 4} {before after : List (Nat × Bool)} {p : Nat × Bool}
    (table : ¬ fld s.ptcfg 0 5 < 6) (unheld : ∀ x ∈ Tab.get [] s.tlb cl, x.covers d va = false)
    (order : s.searchOrder d va = before ++ p :: after) (unfit : ∀ q ∈ before, ¬ s.entryFits d va q)
include table unheld order unfit

theorem State.translate_broken (broken : s.entryBroken p) (plain : ∀ q ∈ after, ¬ s.entryFits d va q ∧ ¬ s.entryBroken q) :
    (s.translate cl d va nd).2.pterr = 0x8000000000000000 ||| word (p.1 % 2 ^ 46) := by
  have none_ : ∀ q ∈ s.searchOrder d va, ¬ s.entryFits d va q := by
    intro q hq
    rw [order, List.mem_append, List.mem_cons] at hq
    rcases hq with early | rfl | late
    · exact unfit q early
    · exact fun fits => broken.2 fits.2.1
    · exact (plain q late).1
  rw [State.translate_unfound table unheld (State.search_none none_), order]
  exact State.search_broken unfit broken plain

/-- What the first entry that fits gives (R257 to R259, R263). -/
theorem State.translate_first (fits : s.entryFits d va p) :
    let lacks := nd &&& ~~~(s.entryTlb d p).rights ≠ 0
    let pa := (s.entryTlb d p).phys va
    let moving := nd.getLsbD 1 = true ∧ (s.entryTlb d p).mig = true
    let t := s.translate cl d va nd
    (lacks → t.1 = .rights)
      ∧ (¬ lacks → s.backed pa 1 = false → t.1 = .rights)
      ∧ (¬ lacks → s.backed pa 1 = true → moving → t.1 = .missing)
      ∧ (¬ lacks → s.backed pa 1 = true → ¬ moving → t.1 = .ok pa
          ∧ (∃ x ∈ Tab.get [] t.2.tlb cl, x.covers d va = true)
          ∧ t.2.rdWord (p.1 + 16) = s.rdWord (p.1 + 16) ||| (if nd.getLsbD 1 then 3 else 1)) := by
  have found : (s.search d va (s.searchOrder d va)).1 = some (s.entryTlb d p) := by
    rw [order]
    exact State.search_fits unfit fits
  have unserved := State.translate_unserved (nd := nd) table unheld found
  intro lacks pa moving t
  refine ⟨fun l => ?_, fun l b => ?_, fun l b m => ?_, fun l b m => ?_⟩
  · rw [unserved fun serves => l serves.1]
    exact if_pos l
  · rw [unserved fun serves => Bool.false_ne_true (b.symm.trans serves.2.1)]
    exact (if_neg l).trans (if_pos b)
  · have still : (nd.getLsbD 1 && (s.entryTlb d p).mig) = true := by rw [m.1, m.2]; rfl
    rw [unserved fun serves => serves.2.2 m]
    exact (if_neg l).trans ((if_neg (by rw [b]; exact Bool.noConfusion)).trans (if_pos still))
  · exact State.translate_served table unheld found ⟨not_not.mp l, b, m⟩ (State.entryTlb_covers fits)

end

end Sys2Proof.Machine
end

section
/-! THE OBLIGATION about the events of engines, barriers, the L1 and the translation (O51). -/

namespace Sys2Proof.Machine

/-- An element of row `r` as a drain writes it. -/
theorem Core.drainBits_row (k : Core) (a otype mode : Nat) (ds : List Nat) (r : Nat) {j : Nat} (lt : j < 64) :
    k.drainBits a otype mode ds (64 * r + j) = if otype = 0 then (k.accAt a r j).toNat
      else (f32 (k.accAt a r j)).round (fmtOf otype) mode (ds.getD (64 * r + j) 0) := by
  have row : (64 * r + j) / 64 = r := by omega
  have column : (64 * r + j) % 64 = j := by omega
  rw [Core.drainBits, row, column]

theorem Moved.congr {s t : State} {d n : Nat} {f : Nat → Nat × Nat} {v w : Nat → Byte} (h : Moved s t d n f v)
    (same : ∀ j, j < n → v j = w j) : Moved s t d n f w := ⟨fun j lt => (h.1 j lt).trans (same j lt), h.2⟩

/-- The status of a drain or a load that has done its 64 rows (R217). -/
theorem rowStatus_all : rowStatus 64 0 0 false = word (0xFFFFFF * 2 ^ 40 + 64 * 2 ^ 16) := by decide

/-- Settles O51, clause by clause: a copy's start, row and end (`State.copyStart_run`, `State.copyRow_done`,
`State.copyComplete_leaves`), the commands of the matrix engine (`State.drainRetire_run` and its like), the barriers, the
lines of the L1, the page table's search (`State.translate_first`) and the shoot-downs. -/
theorem engineEvents : Obligations.EngineEvents := by
  unfold Obligations.EngineEvents
  intro s c k
  refine ⟨fun i cp listed => ⟨State.copyStart_run listed, Core.copyLost_iff _ cp, ?_, ?_, ?_, ?_⟩,
    fun i m listed => State.matStart_ready listed, ?_, ?_, ?_, ?_, barrierInit_fields, ?_, ?_, ?_, ?_, ?_, ?_⟩
  · -- a row of a copy
    intro started filled cause more free d b es
    have open_ : cp.started = true ∧ cp.filled = false ∧ cp.cause = 0 ∧ cp.done < cp.rows ∧ (s.core c).copyFree = true :=
      ⟨started, filled, cause, more, free⟩
    refine ⟨fun P Q held kept source dest => ?_, fun pg s1 => State.copyRow_wait listed open_,
      fun x s1 => State.copyRow_fail listed open_⟩
    have moves : s.CopyAt c cp (cp.row cp.done) P Q := State.copyAt_of_spots held kept source fun e he j lt =>
      ⟨(dest e he j lt).1, (dest e he j lt).2.1, (dest e he j lt).2.2.1⟩
    obtain ⟨t, run, copies, sum, bytes, others⟩ := State.copyRow_done listed open_ moves fun e he j lt => (dest e he j lt).2.2.2
    exact ⟨t, run, copies, by rw [sum, Copy.moved_eq], bytes, others⟩
  · -- the end of a copy
    intro ended caughtUp on rows byte status
    obtain ⟨t, run, copies, ranges, fill, follow, rings⟩ := State.copyComplete_leaves listed ended caughtUp on rows byte
    refine ⟨t, run, copies, ranges, fill, follow, fun lost r => ?_, fun r ring kept => ?_⟩
    · rw [rings, Copy.ring?_lost lost, if_neg (Option.some_ne_none r).symm]
    · intro g g' none_ some_ fits
      have finished : g' = g.finish cp.slot0 cp.slots (if cp.cause == 0 then cp.blk.layout else 0) := by
        refine (rings r).trans (if_pos ?_)
        rw [Copy.ring?_kept kept, ring]
      rw [finished]
      refine ⟨fun j lt => ?_, Ring.finish_first none_ some_ fits, Ring.finish_behind none_ some_ fits⟩
      simp only [← beq_iff_eq (a := cp.cause)]
      exact g.setTags_get _ _ _ lt
  · exact fun r e j ring => Copy.dstByte_ring ring c (s.core c) e j
  · -- the follow-on
    intro w filled follow alive mw checks ready tags clear
    exact State.followOnIssue_run listed filled follow alive checks ready tags clear
  · -- a row of a drain
    intro i m ea otype mode seed am clr P listed started unfinished op small more own held clean d es n bits spots distinct
    obtain ⟨t, m', run, mats, done, fin, op', target, acc, accs, moved⟩ :=
      State.drainStep_run op own held unfinished listed started more spots distinct
    refine ⟨t, m', run, mats, done, fin, op', target, acc, Core.accAt_congr accs, moved.congr fun j lt => ?_⟩
    have column : j / outBytes otype < 64 := Nat.div_lt_of_lt_mul (by rw [Nat.mul_comm]; exact lt)
    rw [Core.drainBits_row _ _ _ _ _ _ column]
    rfl
  · -- the retirement of a matrix command
    intro m rest queue started worked due on
    refine ⟨?_, ?_, fun op => State.zeroRetire_run queue started worked due on op, ?_⟩
    · intro ea otype mode seed am clr P A op small rows unfinished cause code own held clean d es lo n draws bits seen most
        spots distinct max
      obtain ⟨t, run, mats, got, bytes, largest, others, accs⟩ := State.drainRetire_run queue started worked due on op rows
        unfinished ⟨cause, code⟩ own held clean spots distinct max
      rw [rowStatus_all] at got
      rw [← Core.drainMax_eq _ _ _ _ _ _ _ (by omega)] at largest
      exact ⟨t, run, mats, got, bytes, largest, others, accs⟩
    · intro ea Q op cause code own held unfinished some_ rows L spots
      obtain ⟨t, run, mats, got, accs⟩ := State.loadRetire_run queue started worked due on op ⟨cause, code⟩ own held unfinished
        some_ rows spots
      rw [rowStatus_all] at got
      exact ⟨t, run, mats, got, accs⟩
    · intro zero ra rb n a0 b0 sa sb op small n'
      obtain ⟨t, run, mats, got, lost, acc, first, next, accs⟩ := State.mmaRetire_run queue started worked due on op
      rw [Nat.shiftLeft_eq] at got
      exact ⟨t, run, mats, got, lost, acc, first, next, accs⟩
  · -- arrivals and replies
    intro i r listed
    refine ⟨State.arrivalApply_gone listed, fun new own => ⟨State.arrivalApply_init listed new own,
      State.arrivalApply_arrive listed new own⟩, fun v replied mine held on => ⟨?_, ?_⟩⟩
    · exact State.bararvReply_run listed replied mine held on
    · exact State.barinitReply_run listed replied mine held on
  · exact fun o n => ⟨arrive_over, arrive_last, arrive_before⟩
  · exact fun i w listed on => ⟨State.barwtWake_run listed on, State.barwtBoundExpiry_run listed on⟩
  · exact fun i l listed => ⟨State.l1WriteBack_run listed, State.l1LineDrop_run listed⟩
  · exact fun cl d page write table held => ⟨_, State.translationMiss_run table held d page write, rfl⟩
  · -- a translation
    intro cl d va nd m t
    refine ⟨fun identity => State.translate_identity_answer identity cl d va nd, State.translate_failed_tlb, fun table unheld => ?_⟩
    have table : ¬ fld s.ptcfg 0 5 < 6 := Nat.not_lt.mpr table
    rw [← State.searchOrder_eq]
    refine ⟨fun unfit => ?_, fun before p after order unfit => ?_, fun before p after order unfit => ?_⟩
    · exact congrArg Prod.fst (State.translate_unfound table unheld (State.search_none unfit))
    · exact State.translate_broken table unheld order unfit
    · exact State.translate_first table unheld order unfit
  · exact fun v => ⟨_, _, rfl, rfl, rfl, rfl, rfl, rfl⟩
  · exact fun i r => State.shootDownComplete_run

end Sys2Proof.Machine
end

section
/-! Words and their encodings (R45, R52 to R60, R65, R128, R129): the theorems that settle O55 and O56, and SUPPORT for them:
the fields of a word are read back, class and opcode select the constructor, and a cue's action is read back. -/

namespace Sys2Proof

/-! ### Fields of a word put together from fields -/

/-- A field that stands at its own place. -/
@[simp] theorem extractLsb'_setWidth_shiftLeft_same {m n : Nat} (x : BitVec n) (k : Nat) (h : k + n ≤ m) :
    (x.setWidth m <<< k).extractLsb' k n = x := by
  ext i hi
  have fits : k + i < m := by omega
  simp [fits, BitVec.getLsbD_eq_getElem hi]

/-- A field that stands beside the bits that are looked at. -/
@[simp] theorem extractLsb'_setWidth_shiftLeft_disjoint {m n : Nat} (x : BitVec n) (k lo len : Nat)
    (h : k + n ≤ lo ∨ lo + len ≤ k) : (x.setWidth m <<< k).extractLsb' lo len = 0#len := by
  ext i hi
  simp only [BitVec.getElem_extractLsb', BitVec.getLsbD_shiftLeft, BitVec.getLsbD_setWidth, BitVec.getElem_zero]
  by_cases below : lo + i < k
  · simp [below]
  · simp [BitVec.getLsbD_of_ge x (lo + i - k) (by omega)]

@[simp] theorem extractLsb'_setWidth_same {m n : Nat} (x : BitVec n) (h : n ≤ m) :
    (x.setWidth m).extractLsb' 0 n = x := by
  simpa using extractLsb'_setWidth_shiftLeft_same x 0 (m := m) (by omega)

@[simp] theorem extractLsb'_setWidth_above {m n : Nat} (x : BitVec n) (lo len : Nat) (h : n ≤ lo) :
    (x.setWidth m).extractLsb' lo len = 0#len := by
  simpa using extractLsb'_setWidth_shiftLeft_disjoint x 0 lo len (m := m) (by omega)

/-! ### The fields of the formats are read back (R52 to R58) -/

theorem FmtA.ofWord_toWord (x : FmtA) (cls : BitVec 3) (op : Byte) : .ofWord (x.toWord cls op) = x := by
  simp [FmtA.ofWord, FmtA.toWord, packTop, BitVec.extractLsb'_or, BitVec.getLsbD_of_ge]

theorem FmtB.ofWord_toWord (x : FmtB) (cls : BitVec 3) (op : Byte) : .ofWord (x.toWord cls op) = x := by
  simp [FmtB.ofWord, FmtB.toWord, packTop, BitVec.extractLsb'_or, BitVec.getLsbD_of_ge]

theorem FmtM.ofWord_toWord (x : FmtM) (cls : BitVec 3) (op : Byte) : .ofWord (x.toWord cls op) = x := by
  simp [FmtM.ofWord, FmtM.toWord, packTop, BitVec.extractLsb'_or, BitVec.getLsbD_of_ge]

theorem FmtM2.ofWord_toWord (x : FmtM2) (cls : BitVec 3) (op : Byte) : .ofWord (x.toWord cls op) = x := by
  simp [FmtM2.ofWord, FmtM2.toWord, packTop, BitVec.extractLsb'_or, BitVec.getLsbD_of_ge]

theorem FmtV.ofWord_toWord (x : FmtV) (cls : BitVec 3) (op : Byte) : .ofWord (x.toWord cls op) = x := by
  simp [FmtV.ofWord, FmtV.toWord, packTop, BitVec.extractLsb'_or, BitVec.getLsbD_of_ge]

theorem FmtT.ofWord_toWord (x : FmtT) (cls : BitVec 3) (op : Byte) : .ofWord (x.toWord cls op) = x := by
  simp [FmtT.ofWord, FmtT.toWord, packTop, BitVec.extractLsb'_or, BitVec.getLsbD_of_ge]

theorem FmtS.ofWord_toWord (x : FmtS) (cls : BitVec 3) (op : Byte) : .ofWord (x.toWord cls op) = x := by
  simp [FmtS.ofWord, FmtS.toWord, packTop, BitVec.extractLsb'_or, BitVec.getLsbD_of_ge]

/-! ### Class and opcode (R45), and the constructor that they select (R60) -/

theorem FmtA.toWord_top (x : FmtA) (cls : BitVec 3) (op : Byte) :
    (x.toWord cls op).extractLsb' 56 3 = cls ∧ (x.toWord cls op).extractLsb' 48 8 = op := by
  constructor <;> simp [FmtA.toWord, packTop, BitVec.extractLsb'_or]

theorem FmtB.toWord_top (x : FmtB) (cls : BitVec 3) (op : Byte) :
    (x.toWord cls op).extractLsb' 56 3 = cls ∧ (x.toWord cls op).extractLsb' 48 8 = op := by
  constructor <;> simp [FmtB.toWord, packTop, BitVec.extractLsb'_or]

theorem FmtM.toWord_top (x : FmtM) (cls : BitVec 3) (op : Byte) :
    (x.toWord cls op).extractLsb' 56 3 = cls ∧ (x.toWord cls op).extractLsb' 48 8 = op := by
  constructor <;> simp [FmtM.toWord, packTop, BitVec.extractLsb'_or]

theorem FmtM2.toWord_top (x : FmtM2) (cls : BitVec 3) (op : Byte) :
    (x.toWord cls op).extractLsb' 56 3 = cls ∧ (x.toWord cls op).extractLsb' 48 8 = op := by
  constructor <;> simp [FmtM2.toWord, packTop, BitVec.extractLsb'_or]

theorem FmtV.toWord_top (x : FmtV) (cls : BitVec 3) (op : Byte) :
    (x.toWord cls op).extractLsb' 56 3 = cls ∧ (x.toWord cls op).extractLsb' 48 8 = op := by
  constructor <;> simp [FmtV.toWord, packTop, BitVec.extractLsb'_or]

theorem FmtT.toWord_top (x : FmtT) (cls : BitVec 3) (op : Byte) :
    (x.toWord cls op).extractLsb' 56 3 = cls ∧ (x.toWord cls op).extractLsb' 48 8 = op := by
  constructor <;> simp [FmtT.toWord, packTop, BitVec.extractLsb'_or]

theorem FmtS.toWord_top (x : FmtS) (cls : BitVec 3) (op : Byte) :
    (x.toWord cls op).extractLsb' 56 3 = cls ∧ (x.toWord cls op).extractLsb' 48 8 = op := by
  constructor <;> simp [FmtS.toWord, packTop, BitVec.extractLsb'_or]

theorem FmtA.select_toWord (x : FmtA) {op : Byte} {f : FmtA → Instr} (listed : class0[op.toNat]? = some f) :
    select (x.toWord 0 op) = .ok (f x) := by
  obtain ⟨cls, code⟩ := x.toWord_top 0 op
  simp only [select, cls, code, listed, Option.map_some, x.ofWord_toWord]
  rfl

theorem FmtB.select_toWord (x : FmtB) {op : Byte} {f : FmtB → Instr} (listed : class1[op.toNat]? = some f) :
    select (x.toWord 1 op) = .ok (f x) := by
  obtain ⟨cls, code⟩ := x.toWord_top 1 op
  simp only [select, cls, code, listed, Option.map_some, x.ofWord_toWord]
  rfl

theorem FmtM.select_toWord (x : FmtM) {op : Byte} {f : FmtM → Instr}
    (listed : class2[op.toNat]? = some fun w => f (.ofWord w)) : select (x.toWord 2 op) = .ok (f x) := by
  obtain ⟨cls, code⟩ := x.toWord_top 2 op
  simp only [select, cls, code, listed, Option.map_some, x.ofWord_toWord]
  rfl

theorem FmtM2.select_toWord (x : FmtM2) {op : Byte} {f : FmtM2 → Instr}
    (listed : class2[op.toNat]? = some fun w => f (.ofWord w)) : select (x.toWord 2 op) = .ok (f x) := by
  obtain ⟨cls, code⟩ := x.toWord_top 2 op
  simp only [select, cls, code, listed, Option.map_some, x.ofWord_toWord]
  rfl

theorem FmtV.select_toWord (x : FmtV) {op : Byte} {f : FmtV → Instr} (listed : class3[op.toNat]? = some f) :
    select (x.toWord 3 op) = .ok (f x) := by
  obtain ⟨cls, code⟩ := x.toWord_top 3 op
  simp only [select, cls, code, listed, Option.map_some, x.ofWord_toWord]
  rfl

theorem FmtT.select_toWord_class4 (x : FmtT) {op : Byte} {f : FmtT → Instr} (listed : class4[op.toNat]? = some f) :
    select (x.toWord 4 op) = .ok (f x) := by
  obtain ⟨cls, code⟩ := x.toWord_top 4 op
  simp only [select, cls, code, listed, Option.map_some, x.ofWord_toWord]
  rfl

theorem FmtT.select_toWord_class5 (x : FmtT) {op : Byte} {f : FmtT → Instr} (listed : class5[op.toNat]? = some f) :
    select (x.toWord 5 op) = .ok (f x) := by
  obtain ⟨cls, code⟩ := x.toWord_top 5 op
  simp only [select, cls, code, listed, Option.map_some, x.ofWord_toWord]
  rfl

theorem FmtS.select_toWord (x : FmtS) {op : Byte} {f : FmtS → Instr} (listed : class6[op.toNat]? = some f) :
    select (x.toWord 6 op) = .ok (f x) := by
  obtain ⟨cls, code⟩ := x.toWord_top 6 op
  simp only [select, cls, code, listed, Option.map_some, x.ofWord_toWord]
  rfl

/-- R60: class and opcode of the word of an instruction select it, with its fields. -/
theorem select_encode {i : Instr} {w : Word} (h : encode i = some w) : select w = .ok i := by
  cases i with
  | add x | sub x | mul x | mulh x | mulhn x | div x | divn x | rem x | remn x | and x | or x | xor x | andn x
  | orn x | shl x | shr x | sar x | rol x | ror x | min x | max x | minn x | maxn x | clz x | ctz x | popc x
  | bswap x | extr x | ins x | madd x | sel x | cmp x | cmpn x | tst x | flagr x | flagw x =>
    cases h; exact x.select_toWord rfl
  | addi x | andi x | ori x | xori x | shli x | shri x | sari x | muli x | cmpi x | cmpni x | tsti x | ldi x | ldih x =>
    cases h; exact x.select_toWord rfl
  | ld x | st x | vld x | vst x | vlds x | vsts x | vgth x | vsct x | pref x | wbl x | invl x | fence x | amoadd x
  | amoand x | amoor x | amoxor x | amomin x | amomax x | amominn x | amomaxn x | amoswp x | amofmax x | cas x
  | cas2 x =>
    cases h; exact x.select_toWord rfl
  | vadd x | vsub x | vmul x | vfma x | vfms x | vfnma x | vmin x | vmax x | vabs x | vneg x | vdiv x | vsqrt x
  | vrsq x | vrcp x | vexp2 x | vlog2 x | vtanh x | vand x | vor x | vxor x | vshl x | vshr x | vsar x | vcmp x
  | vsel x | vmsk x | vcnt x | vcvt x | vqnt x | vdqt x | vbcst x | vmovg x | viota x | vperm x | vscan x | vredadd x
  | vredmax x | vredmin x | vamax x | vtopk x =>
    cases h; exact x.select_toWord rfl
  | mma x | mmaz x | mzero x | mdrn x | mlda x | mscl x =>
    cases h; exact x.select_toWord_class4 rfl
  | cpy x | cpym x | cpyf x | rngini x | rngpop x | rngadv x | rngq x | rlck x | rfree x | barinit x | bararv x
  | barwt x | route x | rtret x | splini x | splq x | rxbind x | rxtake x | rxfree x | rxeos x =>
    cases h; exact x.select_toWord_class5 rfl
  | nop x | cuew x | cuecut x | cuerd x | cuesel x | cntw x | cntr x | spawn x | spawnr x | launch x | park x
  | yield x | exit x | send x | segw x | segr x | trap x | sysr x | sysw x | time x | evtr x | bkpt x | halt x =>
    cases h; exact x.select_toWord rfl
  | _ => cases h

theorem illegal_of_wellFormed {i : Instr} (wf : i.WellFormed = true) : i.illegal = none := by
  simpa [Instr.WellFormed] using wf

/-- R65: the word of a well-formed instruction decodes to it. -/
theorem decode_encode {i : Instr} {w : Word} (wf : i.WellFormed = true) (h : encode i = some w) : decode w = .ok i := by
  simp only [decode, select_encode h, illegal_of_wellFormed wf, h, if_true]

/-! ### The action of a cue (R128, R129) -/

/-- The step that a kind names, with the fields of the action; none for a reserved kind. -/
def cueStep (kind : Nat) (q : CueAct) : Option Instr :=
  match kind with
  | 0 => some (.next q)
  | 1 => some (.call q)
  | 2 => some (.icall q)
  | 3 => some (.ret q)
  | 4 => some (.gate q)
  | 5 => some (.gret q)
  | 6 => some (.eret q)
  | 7 => some (.missTrap q)
  | _ => none

/-- The fields of an action. -/
def CueAct.ofAction (act : BitVec 128) : CueAct where
  wordA := act.extractLsb' 96 32
  wordB := act.extractLsb' 64 32
  nset := act.extractLsb' 56 8
  rset := act.extractLsb' 48 8
  prm := act.extractLsb' 32 16
  cnt := act.extractLsb' 24 4

/-- The step of an action whose bits [23:0] are zero, where it is well-formed. -/
theorem decodeCue_eq {act : BitVec 128} {i : Instr} (low : act.extractLsb' 0 24 = 0)
    (step : cueStep (act.extractLsb' 28 4).toNat (.ofAction act) = some i) (wf : i.WellFormed = true) :
    decodeCue act = some i := by
  have filtered : decodeCue act = (cueStep (act.extractLsb' 28 4).toNat (.ofAction act)).filter (·.illegal == none) :=
    if_pos low
  rw [filtered, step]
  simp [Option.filter, illegal_of_wellFormed wf]

theorem CueAct.ofAction_encodeCue (kind : BitVec 4) (q : CueAct) : .ofAction (encodeCue kind q) = q := by
  simp [CueAct.ofAction, encodeCue, BitVec.extractLsb'_or]

theorem encodeCue_kind (kind : BitVec 4) (q : CueAct) : (encodeCue kind q).extractLsb' 28 4 = kind := by
  simp [encodeCue, BitVec.extractLsb'_or]

theorem encodeCue_low (kind : BitVec 4) (q : CueAct) : (encodeCue kind q).extractLsb' 0 24 = 0 := by
  simp [encodeCue, BitVec.extractLsb'_or]

/-- R128, R129: the action of a well-formed step of a cue decodes to it. -/
theorem decodeCue_encodeCue {kind : BitVec 4} {q : CueAct} {i : Instr} (step : cueStep kind.toNat q = some i)
    (wf : i.WellFormed = true) : decodeCue (encodeCue kind q) = some i :=
  decodeCue_eq (encodeCue_low kind q) (by rw [encodeCue_kind, CueAct.ofAction_encodeCue, step]) wf

/-- Settles O56: `decode_encode` for the instructions, `decodeCue_encodeCue` for the steps of a cue. -/
theorem encodeDecode : Obligations.EncodeDecode := by
  unfold Obligations.EncodeDecode
  refine ⟨fun i w => decode_encode, fun q => ?_⟩
  exact ⟨decodeCue_encodeCue rfl, decodeCue_encodeCue rfl, decodeCue_encodeCue rfl, decodeCue_encodeCue rfl,
    decodeCue_encodeCue rfl, decodeCue_encodeCue rfl, decodeCue_encodeCue rfl, decodeCue_encodeCue rfl⟩

/-- Settles O55: each word is decoded. -/
theorem decodeWords : Obligations.DecodeWords := by
  unfold Obligations.DecodeWords
  decide

end Sys2Proof
end

section
/-! SUPPORT. Effects that keep a property of the state, whether they run to their end or stop: the rules by which a longer
effect is taken apart, and what a translation and a notice leave alone. -/

namespace Sys2Proof.Machine

/-! ### Effects from one property of the state to another -/

/-- From a state with `P` the effect ends in one with `Q`, which may name its result, or stops in one with `E`. -/
structure M.Ends {α : Type} (P : State → Prop) (m : M α) (Q : α → State → Prop) (E : State → Prop) : Prop where
  ok : ∀ s a u, P s → m s = .ok (a, u) → Q a u
  stop : ∀ s x u, P s → m s = .error (x, u) → E u

/-- The effect keeps `P`, also where it stops. -/
abbrev M.Stays {α : Type} (P : State → Prop) (m : M α) : Prop := M.Ends P m (fun _ => P) P

section
variable {α β : Type} {P E : State → Prop}

theorem M.Ends.bind {m : M α} {f : α → M β} {Q : α → State → Prop} {R : β → State → Prop} (hm : M.Ends P m Q E)
    (hf : ∀ a, M.Ends (Q a) (f a) R E) : M.Ends P (m >>= f) R E where
  ok s b u hs run := by
    rw [M.bind_apply] at run
    split at run
    next a v first => exact (hf a).ok v b u (hm.ok s a v hs first) run
    next => cases run
  stop s x u hs run := by
    rw [M.bind_apply] at run
    split at run
    next a v first => exact (hf a).stop v x u (hm.ok s a v hs first) run
    next e first => cases run; exact hm.stop s x u hs first

theorem M.Ends.pure {a : α} {Q : α → State → Prop} (h : ∀ s, P s → Q a s) : M.Ends P (pure a : M α) Q E where
  ok s b u hs run := by cases run; exact h s hs
  stop s x u hs run := by cases run

/-- What never stops is judged by its result and its state. -/
theorem M.Ends.of_ok {m : M α} {Q : α → State → Prop} {f : State → α} {g : State → State}
    (total : ∀ s, m s = .ok (f s, g s)) (h : ∀ s, P s → Q (f s) (g s)) : M.Ends P m Q E where
  ok s b u hs run := by rw [total] at run; cases run; exact h s hs
  stop s x u hs run := by rw [total] at run; cases run

/-- What stops at once, in the state as it is. -/
theorem M.Ends.of_error {m : M α} {Q : α → State → Prop} {x : Stop} (stops : ∀ s, m s = .error (x, s))
    (h : ∀ s, P s → E s) : M.Ends P m Q E where
  ok s b u hs run := by rw [stops] at run; cases run
  stop s x u hs run := by rw [stops] at run; cases run; exact h s hs

theorem M.Stays.bind {m : M α} {f : α → M β} (hm : M.Stays P m) (hf : ∀ a, M.Stays P (f a)) : M.Stays P (m >>= f) :=
  M.Ends.bind hm hf

theorem M.Stays.pure (a : α) : M.Stays P (Pure.pure a : M α) := M.Ends.pure fun _ => id

theorem M.Stays.raise (c n : Nat) (x y : Word) : M.Stays P (raise c n x y : M α) :=
  M.Ends.of_error (fun _ => rfl) fun _ => id

theorem M.Stays.need (b : Bool) (c n : Nat) (x y : Word) : M.Stays P (need b c n x y) := by
  cases b
  · exact .raise c n x y
  · exact .pure ()

theorem M.Stays.waitFor (b : Bool) (c : Nat) : M.Stays P (waitFor b c) := by
  cases b
  · exact M.Ends.of_error (fun _ => rfl) fun _ => id
  · exact .pure ()

theorem M.Stays.ite (c : Prop) [Decidable c] {m n : M α} (hm : M.Stays P m) (hn : M.Stays P n) :
    M.Stays P (if c then m else n) := by
  split <;> assumption

/-- A check that is made under a condition alone. -/
theorem M.Stays.optional (c : Prop) [Decidable c] {m : M α} {n : M β} (hm : M.Stays P m) (hn : M.Stays P n) :
    M.Stays P (if c then m >>= fun _ => n else n) := .ite c (.bind hm fun _ => hn) hn

/-- An effect that only reads. -/
theorem M.Stays.reads {m : M α} {f : State → α} (run : ∀ s, m s = .ok (f s, s)) : M.Stays P m := M.Ends.of_ok run fun _ => id

/-- An effect that only changes the state. -/
theorem M.Stays.changes {m : M α} {f : State → α} {g : State → State} (run : ∀ s, m s = .ok (f s, g s))
    (keeps : ∀ s, P s → P (g s)) : M.Stays P m := M.Ends.of_ok run keeps

/-- An effect that gives an answer or stops, in the state as it is. -/
theorem M.Stays.checks {m : M α} (ok : ∀ s a u, m s = .ok (a, u) → u = s) (stop : ∀ s x u, m s = .error (x, u) → u = s) :
    M.Stays P m where
  ok s a u hs run := ok s a u run ▸ hs
  stop s x u hs run := stop s x u run ▸ hs

end

/-! ### Checks -/

section
variable {P : State → Prop}

theorem segOf_stays (seg off n : Nat) (nd : Need) : M.Stays P (segOf seg off n nd) := by
  refine .bind (.reads fun _ => rfl) fun t => ?_
  split
  · exact .pure _
  · exact .raise ..

theorem storeCheck_stays (x n : Nat) : M.Stays P (storeCheck x n) := by
  refine .checks (fun s a u h => ?_) fun s y u h => ?_ <;> unfold storeCheck at h <;> split at h <;> cases h <;> rfl

theorem noRangeHit_stays (ea n : Nat) (write : Bool) : M.Stays P (noRangeHit ea n write) := by
  refine .bind (.reads fun _ => rfl) fun t => .bind (.reads fun _ => rfl) fun k => ?_
  split
  · exact .raise ..
  · exact .pure _

theorem afterInit_stays (ls : List Lane) : M.Stays P (afterInit ls) := by
  refine .checks (fun s a u h => ?_) fun s y u h => ?_ <;> unfold afterInit at h <;> split at h <;> cases h <;> rfl

theorem afterAll_stays : M.Stays P afterAll := by
  refine .checks (fun s a u h => ?_) fun s y u h => ?_ <;> unfold afterAll at h <;> split at h <;> cases h <;> rfl

theorem missingPage_stays {α : Type} (va : Nat) (write : Bool) : M.Stays P (missingPage va write : M α) := by
  refine .bind (.reads fun _ => rfl) fun t => ?_
  split
  · exact .raise ..
  · exact M.Ends.of_error (fun _ => rfl) fun _ => id

end

/-! ### A notice (R364, R373) -/

/-- The thread with other messages at its ports. -/
def Thread.withPorts (t : Thread) (q : Vector (List Msg) 4) : Thread := { t with q := q }

/-- Core `k'` differs from `k` in the messages at the ports of its threads and in the mark of a dropped notice. -/
def Core.PortsOnly (k k' : Core) : Prop :=
  k' = { k with slots := k'.slots, noticeLost := k'.noticeLost }
    ∧ ∀ i a, k.threadAt i = some a → ∃ q, k'.threadAt i = some (a.withPorts q)

theorem Core.PortsOnly.refl (k : Core) : k.PortsOnly k := ⟨rfl, fun _ a held => ⟨a.q, held⟩⟩

theorem Core.PortsOnly.trans {k k' k'' : Core} (h : k.PortsOnly k') (h' : k'.PortsOnly k'') : k.PortsOnly k'' := by
  obtain ⟨eq, threads⟩ := h
  obtain ⟨eq', threads'⟩ := h'
  refine ⟨by rw [eq', eq], fun i a held => ?_⟩
  obtain ⟨q, held'⟩ := threads i a held
  obtain ⟨q', held''⟩ := threads' i _ held'
  exact ⟨q', held''⟩

theorem Core.PortsOnly.setThread {k : Core} {i : Nat} {a : Thread} (held : k.threadAt i = some a) (q : Vector (List Msg) 4) :
    k.PortsOnly (k.setThread i (some (a.withPorts q))) := by
  have lt : i < 8 := by
    by_contra out
    simp [Core.threadAt, Core.slot, rd, out] at held
  refine ⟨rfl, fun j b there => ?_⟩
  by_cases here : j = i
  · subst here
    rw [held] at there
    cases there
    exact ⟨q, Core.threadAt_setThread_same _ _ _ lt⟩
  · exact ⟨b.q, (Core.threadAt_setThread_ne _ _ _ _ here).trans there⟩

/-- State `t` differs from `s` in the packets that fail and in its cores' ports and notice marks. -/
def State.PortsOnly (s t : State) : Prop :=
  t = { s with cores := t.cores, tampered := t.tampered } ∧ ∀ j, (s.core j).PortsOnly (t.core j)

theorem State.PortsOnly.trans {s t u : State} (h : s.PortsOnly t) (h' : t.PortsOnly u) : s.PortsOnly u := by
  obtain ⟨eq, cores⟩ := h
  obtain ⟨eq', cores'⟩ := h'
  exact ⟨by rw [eq', eq], fun j => (cores j).trans (cores' j)⟩

theorem State.PortsOnly.setCore {s : State} {c : Nat} {x : Core} (h : (s.core c).PortsOnly x) :
    s.PortsOnly (s.setCore c x) := by
  refine ⟨rfl, fun j => ?_⟩
  rw [State.core_setCore]
  split
  next here => exact here ▸ h
  next => exact .refl _

theorem State.PortsOnly.notice (s : State) (c dom cause sub slot : Nat) (taddr : Word) :
    s.PortsOnly (s.notice c dom cause sub slot taddr) := by
  unfold State.notice
  dsimp only
  split
  next t sent =>
    obtain ⟨b, found, pushed⟩ := Option.bind_eq_some_iff.mp sent
    have held := (Option.filter_eq_some_iff.mp found).1
    have port : t = b.withPorts t.q := by
      unfold Thread.push at pushed
      split at pushed <;> cases pushed
      rfl
    exact .trans (.setCore (port ▸ .setThread held t.q)) (.setCore ⟨rfl, fun _ a there => ⟨a.q, there⟩⟩)
  next => exact .setCore ⟨rfl, fun _ a there => ⟨a.q, there⟩⟩

theorem State.PortsOnly.packetLost (s : State) (c dom slot : Nat) (taddr : Word) :
    s.PortsOnly (s.packetLost c dom slot taddr) :=
  .trans ⟨rfl, fun _ => .refl _⟩ (.notice _ _ _ _ _ _ _)

/-- The issuing thread keeps everything but the messages at its ports. -/
theorem State.PortsOnly.thread? {s t : State} (h : s.PortsOnly t) {a : Thread} (held : s.thread? = some a) :
    ∃ q, t.thread? = some (a.withPorts q) := by
  obtain ⟨eq, cores⟩ := h
  obtain ⟨same, threads⟩ := cores s.cur
  have cur : t.cur = s.cur := by rw [eq]
  have turn : (t.core s.cur).turnSlot = (s.core s.cur).turnSlot := by
    unfold Core.turnSlot
    rw [same]
  obtain ⟨q, there⟩ := threads _ a held
  exact ⟨q, by simpa only [State.thread?, State.me, cur, turn] using there⟩

theorem walkLost_stays {P : State → Prop} (lost : ∀ s t : State, s.PortsOnly t → P s → P t) (l : Lane) (nd : Need) :
    M.Stays P (walkLost l nd) where
  ok s a u hs run := by
    unfold walkLost at run
    dsimp only at run
    split at run <;> cases run
    · exact lost s _ (.packetLost ..) hs
    · exact hs
  stop s x u hs run := by
    unfold walkLost at run
    dsimp only at run
    split at run <;> cases run

theorem packetFails_stays {P : State → Prop} (lost : ∀ s t : State, s.PortsOnly t → P s → P t) (scope : Nat) (l : Lane) :
    M.Stays P (packetFails scope l) where
  ok s a u hs run := by
    unfold packetFails at run
    dsimp only at run
    split at run
    · cases run; exact hs
    · split at run <;> cases run
      · exact lost s _ (.packetLost ..) hs
      · exact hs
  stop s x u hs run := by
    unfold packetFails at run
    dsimp only at run
    split at run
    · cases run
    · split at run <;> cases run

/-! ### A translation (R256 to R263) -/

/-- State `t` differs from `s` in memory, in the translations held at the ports and in PTERR. -/
def State.TableOnly (s t : State) : Prop := t = { s with mem := t.mem, tlb := t.tlb, pterr := t.pterr }

theorem State.TableOnly.refl (s : State) : s.TableOnly s := rfl

theorem State.TableOnly.trans {s t u : State} (h : s.TableOnly t) (h' : t.TableOnly u) : s.TableOnly u := by
  unfold State.TableOnly at h h'
  unfold State.TableOnly
  rw [h', h]

theorem State.TableOnly.search (s : State) (dom va : Nat) (order : List (Nat × Bool)) :
    s.TableOnly (s.search dom va order).2 := by
  unfold State.TableOnly
  rw [State.search_only]

theorem State.TableOnly.marked (s : State) (e : Nat) (write : Bool) (ts : Tab (List Tlb)) :
    s.TableOnly { s.markEntry e write with tlb := ts } := by
  unfold State.TableOnly State.markEntry State.wrWord
  rw [State.wrRaw_eq]

theorem State.TableOnly.lookupPage (s : State) (cl dom va : Nat) (need : BitVec 4) :
    s.TableOnly (s.lookupPage cl dom va need).2 := by
  unfold State.lookupPage
  dsimp only
  split
  · split
    · exact .marked ..
    · exact .refl s
  · have found := State.TableOnly.search s dom va (s.searchOrder dom va)
    split
    next s1 eq => rw [eq] at found; exact found
    next t s1 eq =>
      rw [eq] at found
      split
      · exact found
      · exact found.trans (.marked ..)

theorem State.TableOnly.gainRights (s : State) (cl dom va : Nat) (need : BitVec 4) (t : Tlb) :
    s.TableOnly (s.gainRights cl dom va need t).2 := by
  unfold State.gainRights
  split
  · exact .refl s
  · have found := State.TableOnly.search s dom va (s.searchOrder dom va)
    split
    next u s1 eq =>
      rw [eq] at found
      split
      · exact found.trans (.marked ..)
      · exact found
    next s1 eq => rw [eq] at found; exact found

theorem State.TableOnly.translate (s : State) (cl dom va : Nat) (need : BitVec 4) :
    s.TableOnly (s.translate cl dom va need).2 := by
  unfold State.translate
  dsimp only
  split
  · split <;> exact .refl s
  · have looked := State.TableOnly.lookupPage s cl dom va need
    split
    next s1 eq => rw [eq] at looked; exact looked
    next t0 s0 eq =>
      rw [eq] at looked
      have gained := looked.trans (.gainRights s0 cl dom va need t0)
      split
      · exact gained
      · split
        · exact gained
        · split <;> exact gained

theorem State.TableOnly.thread? {s t : State} (h : s.TableOnly t) : t.thread? = s.thread? := by
  unfold State.TableOnly at h
  rw [h]
  rfl

end Sys2Proof.Machine
end

section
/-! A step runs the instruction to which the fetched word decodes: the theorem that settles O57, and SUPPORT for it: a fetch
leaves the thread at its word. -/

namespace Sys2Proof.Machine

/-! ### The fetch (R131, R253) -/

/-- The issuing thread stands at word `pc`, or, where `atLookup`, at a lookup. -/
def State.standsAt (pc : BitVec 32) (atLookup : Bool) (s : State) : Prop :=
  ∃ a, s.thread? = some a ∧ a.pc = pc ∧ a.atLookup = atLookup

section
variable {pc : BitVec 32} {atLookup : Bool}

theorem State.standsAt.portsOnly {s t : State} (h : s.standsAt pc atLookup) (only : s.PortsOnly t) :
    t.standsAt pc atLookup := by
  obtain ⟨a, held, word, kind⟩ := h
  obtain ⟨q, held'⟩ := only.thread? held
  exact ⟨_, held', word, kind⟩

theorem State.standsAt.tableOnly {s t : State} (h : s.standsAt pc atLookup) (only : s.TableOnly t) :
    t.standsAt pc atLookup := by
  obtain ⟨a, held, at_⟩ := h
  exact ⟨a, only.thread?.trans held, at_⟩

theorem State.standsAt.count {s : State} (h : s.standsAt pc atLookup) (code : Nat) (slot : Option Nat) (d n : Nat) :
    (s.modMe fun k => k.count code slot d n).standsAt pc atLookup := by
  obtain ⟨a, held, at_⟩ := h
  refine ⟨a, ?_, at_⟩
  rw [← held]
  simp [State.thread?, Core.threadAt, Core.slot, Core.turnSlot]

/-- A change of the thread that leaves it at its word. -/
theorem State.standsAt.modThread {s : State} (h : s.standsAt pc atLookup) {f : Thread → Thread}
    (word : ∀ t, (f t).pc = t.pc) (kind : ∀ t, (f t).atLookup = t.atLookup) : (s.modThread f).standsAt pc atLookup := by
  obtain ⟨a, held, here, there⟩ := h
  exact ⟨f a, by simp [held], (word a).trans here, (kind a).trans there⟩

theorem tally_standsAt (code n : Nat) : M.Stays (State.standsAt pc atLookup) (tally code n) :=
  .changes (fun _ => rfl) fun _ h => h.count ..

theorem xlate_standsAt (va : Nat) (nd : Need) : M.Stays (State.standsAt pc atLookup) (xlate va nd) := by
  refine .changes (fun _ => rfl) fun s h => ?_
  refine State.standsAt.tableOnly ?_ (.translate ..)
  unfold State.countMiss
  split
  · exact h.count ..
  · exact h

theorem xlateVas_standsAt (nd : Need) (vas : List Nat) : M.Stays (State.standsAt pc atLookup) (xlateVas nd vas) := by
  induction vas with
  | nil => exact .pure _
  | cons va r ih =>
    refine .bind (xlate_standsAt va nd) fun x => ?_
    cases x with
    | ok pa => exact .bind ih fun _ => .pure _
    | rights => exact .raise ..
    | refused => exact .bind (tally_standsAt ..) fun _ => .raise ..
    | missing => exact .bind ih fun _ => .pure _

theorem xlateLanes_standsAt (nd : Need) (n : Nat) (eas : List Nat) :
    M.Stays (State.standsAt pc atLookup) (xlateLanes nd n eas) := by
  induction eas with
  | nil => exact .pure _
  | cons ea r ih =>
    exact .bind (walkLost_stays (fun _ _ only h => h.portsOnly only) ..) fun lost => .bind (xlateVas_standsAt ..) fun _ => .bind ih fun _ => .pure _

theorem pendError_standsAt (ea : Nat) : M.Stays (State.standsAt pc atLookup) (pendError ea) :=
  .changes (fun _ => rfl) fun _ h => h.modThread (fun _ => rfl) fun _ => rfl

theorem fetchAt_standsAt (n : Nat) (nd : Need) : M.Stays (State.standsAt pc atLookup) (fetchAt n nd) := by
  refine .bind (segOf_stays ..) fun ea => .optional _ (storeCheck_stays ..) ?_
  refine .bind (noRangeHit_stays ..) fun _ => .bind (xlateLanes_standsAt ..) fun found => ?_
  obtain ⟨ls, miss⟩ := found
  cases miss with
  | some va => exact missingPage_stays ..
  | none =>
    refine .bind (afterInit_stays _) fun _ => .bind (packetFails_stays (fun _ _ only h => h.portsOnly only) ..) fun lost => ?_
    refine .bind (.reads fun _ => rfl) fun s => .ite _ (.bind (pendError_standsAt ea) fun _ => .pure _) (.pure _)

theorem fetch_standsAt : M.Stays (State.standsAt pc atLookup) fetch :=
  .bind (.reads fun _ => rfl) fun _ => fetchAt_standsAt ..

end

/-! ### The step (R65, R335, R402) -/

/-- A thread that may issue, with no event due, at a word: its cycle issues the word. -/
theorem State.cycle_issues {s : State} {a : Thread} (held : s.thread? = some a)
    (runs : a.status = .running ∨ a.status = .waiting) (skips : a.wskip = 0) (hold : a.holdUntil ≤ s.me.cycle)
    (shut : s.me.shut = false) (drains : a.yield = false) (saved : s.heldForSave s.cur s.me.turnSlot = false)
    (word : a.atLookup = false) (quiet : s.dueEvent = none) : s.cycle = s.issueWord := by
  have closed : s.closed = false := by simp [State.closed, held, hold]
  have yielding : s.yielding = false := by simp [State.yielding, State.thread_of_some held, drains]
  unfold State.cycle
  rw [State.thread_of_some held]
  rcases runs with status | status <;> simp [closed, yielding, skips, shut, saved, quiet, word, status]

section
variable {s s1 : State} {w : Word} (unbroken : s.breakAt = false) (fetched : fetch s.started = .ok (some w, s1))
include unbroken fetched

/-- A fetched word that holds an instruction runs. -/
theorem State.issueWord_runs {i : Instr} (decoded : decode w = .ok i) : s.issueWord = s1.run i w := by
  simp [State.issueWord, unbroken, fetched, decoded]

/-- One that holds none raises the illegal-instruction trap. -/
theorem State.issueWord_illegal {sub : Nat} (decoded : decode w = .error sub) :
    s.issueWord = endCycle (s1.perform (raise 1 sub w)) := by
  simp [State.issueWord, unbroken, fetched, decoded]

end

/-- Settles O57: the cycle issues the word (`State.cycle_issues`), and the fetch leaves the thread at it
(`fetch_standsAt`), so that a trap names its address. -/
theorem stepRunsDecoded : Obligations.StepRunsDecoded := by
  unfold Obligations.StepRunsDecoded
  intro s s1 a w agenda on due held runs skips hold shut drains saved word quiet unbroken fetched
  have issues : step s = s.issueWord := by
    simp only [step, agenda, on, due]
    exact State.cycle_issues held runs skips hold shut drains saved word quiet
  rw [issues]
  refine ⟨fun i decoded => ?_, fun sub decoded => ?_⟩
  · rw [State.issueWord_runs unbroken fetched decoded]
    rfl
  · have at_word : s.standsAt a.pc false := ⟨a, held, rfl, word⟩
    have starts : s.started.standsAt a.pc false := at_word.modThread (fun _ => rfl) fun _ => rfl
    obtain ⟨b, held', here, at_⟩ := fetch_standsAt.ok _ _ _ starts fetched
    have thread : s1.started.thread = { b with status := .running } := State.thread_modThread held' _
    rw [State.issueWord_illegal unbroken fetched decoded]
    simp [endCycle, State.perform, State.settle, State.stopped, thread, Thread.taddrNow, here, at_, trapKind]

end Sys2Proof.Machine
end

section
/-! SUPPORT. The scalar instructions (R111 to R118): the three shapes of their effects, and what each outcome leaves alone. -/

namespace Sys2Proof.Machine

/-! ### Operands that are read (R50) -/

/-- The thread once a message of a port has been taken. -/
def Thread.taking (t : Thread) (q : Vector (List Msg) 4) (tag : Byte) : Thread := { t with q := q, tag := tag }

/-- A source that is no port changes nothing. -/
theorem Thread.readSrc_unported {t : Thread} {bank : Vector Word 16} {who : Word} {sp : Spec}
    (h : sp.toNat < 48 ∨ 52 ≤ sp.toNat) : (t.readSrc bank who sp).2 = t := by
  have port : ¬ sp.toNat < 48 → ¬ sp.toNat < 52 := by omega
  by_cases bank : sp.toNat < 48
  · simp [Thread.readSrc, bank, apply_ite Prod.snd]
  · have g : ¬ sp.toNat < 32 := by omega
    simp [Thread.readSrc, g, bank, port bank, apply_ite Prod.snd]

/-- A port gives its oldest message. -/
theorem Thread.readSrc_port {t : Thread} {bank : Vector Word 16} {who : Word} {sp : Spec} (lo : 48 ≤ sp.toNat)
    (hi : sp.toNat < 52) {m : Msg} {rest : List Msg} (msgs : rd t.q (sp.toNat - 48) [] = m :: rest) :
    t.readSrc bank who sp = (m.value, t.taking (wr t.q (sp.toNat - 48) rest) m.tag) := by
  have g : ¬ sp.toNat < 32 := by omega
  have h : ¬ sp.toNat < 48 := by omega
  simp [Thread.readSrc, g, h, hi, msgs, Thread.taking]

theorem Thread.readSrc_thread (t : Thread) (bank : Vector Word 16) (who : Word) (sp : Spec) :
    ∃ q tag, (t.readSrc bank who sp).2 = t.taking q tag := by
  by_cases port : 48 ≤ sp.toNat ∧ sp.toNat < 52
  · cases msgs : rd t.q (sp.toNat - 48) [] with
    | nil =>
      have g : ¬ sp.toNat < 32 := by omega
      have h : ¬ sp.toNat < 48 := by omega
      exact ⟨t.q, t.tag, by simp [Thread.readSrc, g, h, port, msgs, Thread.taking]⟩
    | cons m rest => exact ⟨_, _, congrArg Prod.snd (Thread.readSrc_port port.1 port.2 msgs)⟩
  · exact ⟨t.q, t.tag, Thread.readSrc_unported (by omega)⟩

/-- The sources take messages of the ports, and no other register changes (R50). -/
theorem Thread.readSrcs_thread (t : Thread) (bank : Vector Word 16) (who : Word) (ss : List Spec) :
    ∃ q tag, (t.readSrcs bank who ss).2 = t.taking q tag := by
  induction ss generalizing t with
  | nil => exact ⟨t.q, t.tag, rfl⟩
  | cons sp r ih =>
    obtain ⟨q, tag, first⟩ := t.readSrc_thread bank who sp
    obtain ⟨q', tag', others⟩ := ih (t.taking q tag)
    exact ⟨q', tag', by simp only [Thread.readSrcs, first, others]; rfl⟩

/-! ### The three shapes -/

/-- A result computed from the operands (R111, R116). -/
def computes (d : Spec) (ss : List Spec) (f : List Word → Word) : M Unit := do
  waitDst d
  let vs ← srcs ss
  write d (f vs)

/-- A result taken from the thread's registers, or from the word itself (R112, R116, R118). -/
def copies (d : Spec) (f : Thread → Word) : M Unit := do
  waitDst d
  let t ← thread
  write d (f t)

/-- The operands change flags or a counter (R105, R112, R117). -/
def marks (ss : List Spec) (g : List Word → Thread → Thread) : M Unit := do
  let vs ← srcs ss
  modThread (g vs)

theorem waitDst_wait {s : State} {d : Spec} (h : ¬ s.canWrite d) : waitDst d s.started = .error (.wait 3, s.started) := by
  have full : (decide (32 ≤ d.toNat) || s.started.thread.isFull d.toNat) = false := by simpa [State.canWrite] using h
  simp [waitDst, waitFor_apply, full]

section
variable {s : State} (on : s.thread?.isSome = true) (e : Bool) (w : BitVec 4)
include on

theorem State.computes_result {d : Spec} {ss : List Spec} (f : List Word → Word) (ready : s.started.thread.srcReady ss = true)
    (full : s.canWrite d) : s.instr e w (computes d ss f) = s.scalarResult ss d e w (f (s.reading ss).1) :=
  State.instr_ok on e w (by simp [computes, waitDst_ok full, srcs_started ⟨on, ready⟩])

theorem State.computes_waits {d : Spec} {ss : List Spec} (f : List Word → Word)
    (lack : s.started.thread.srcReady ss = false ∨ ¬ s.canWrite d) :
    ∃ c, s.instr e w (computes d ss f) = .next (s.waits c) := by
  by_cases full : s.canWrite d
  · obtain ⟨c, wait⟩ := srcs_wait (lack.resolve_right (not_not_intro full))
    exact ⟨c, State.instr_wait on e w (by simp [computes, waitDst_ok full, wait]) s.trail_started⟩
  · exact ⟨3, State.instr_wait on e w (by simp [computes, waitDst_wait full]) s.trail_started⟩

theorem State.copies_result {d : Spec} (f : Thread → Word) (full : s.canWrite d) :
    s.instr e w (copies d f) = (s.started.write d (f s.started.thread)).goesOn e w :=
  State.instr_ok on e w (by simp [copies, waitDst_ok full])

theorem State.copies_waits {d : Spec} (f : Thread → Word) (full : ¬ s.canWrite d) :
    ∃ c, s.instr e w (copies d f) = .next (s.waits c) :=
  ⟨3, State.instr_wait on e w (by simp [copies, waitDst_wait full]) s.trail_started⟩

theorem State.marks_result {ss : List Spec} (g : List Word → Thread → Thread)
    (ready : s.started.thread.srcReady ss = true) :
    s.instr e w (marks ss g) = ((s.taken ss).modThread (g (s.reading ss).1)).goesOn e w :=
  State.instr_ok on e w (by simp [marks, srcs_started ⟨on, ready⟩])

theorem State.marks_waits {ss : List Spec} (g : List Word → Thread → Thread)
    (lack : s.started.thread.srcReady ss = false) : ∃ c, s.instr e w (marks ss g) = .next (s.waits c) := by
  obtain ⟨c, wait⟩ := srcs_wait lack
  exact ⟨c, State.instr_wait on e w (by simp [marks, wait]) s.trail_started⟩

end

/-! ### What is left alone (R49, R96, R100) -/

theorem OnlyThisSlot.refl (s : State) : OnlyThisSlot s s := ⟨⟨rfl, fun _ _ => rfl⟩, rfl, fun _ _ => rfl⟩

theorem OnlyThisSlot.trans {s t u : State} (h : OnlyThisSlot s t) (h' : OnlyThisSlot t u) : OnlyThisSlot s u := by
  obtain ⟨⟨eq, cores⟩, me, slots⟩ := h
  obtain ⟨⟨eq', cores'⟩, me', slots'⟩ := h'
  have cur : t.cur = s.cur := by rw [eq]
  have turn : t.me.turnSlot = s.me.turnSlot := by rw [me]; rfl
  rw [cur] at cores'
  rw [turn] at slots'
  refine ⟨⟨by rw [eq', eq], fun c other => (cores' c other).trans (cores c other)⟩, by rw [me', me], fun i other => ?_⟩
  exact (slots' i other).trans (slots i other)

/-- A change of the issuing core that keeps its other slots and everything else. -/
theorem OnlyThisSlot.modMe {s : State} {f : Core → Core}
    (only : f s.me = { s.me with slots := (f s.me).slots, hPend := (f s.me).hPend, tally := (f s.me).tally })
    (slots : ∀ i, i ≠ s.me.turnSlot → (f s.me).slot i = s.me.slot i) : OnlyThisSlot s (s.modMe f) := by
  refine ⟨⟨rfl, fun c other => State.core_modMe_ne _ _ _ other⟩, ?_, ?_⟩
  · rw [State.me_modMe]; exact only
  · rw [State.me_modMe]; exact slots

theorem OnlyThisSlot.modThread (s : State) (f : Thread → Thread) : OnlyThisSlot s (s.modThread f) :=
  .modMe rfl fun _ other => Core.slot_setSlot_ne _ _ _ _ other

theorem OnlyThisSlot.count (s : State) (code : Nat) (slot : Option Nat) (d n : Nat) :
    OnlyThisSlot s (s.modMe fun k => k.count code slot d n) := by
  refine .modMe ?_ fun i _ => ?_
  · unfold Core.count; split <;> rfl
  · simp [Core.slot]

theorem OnlyThisSlot.write (s : State) (d : Spec) (v : Word) : OnlyThisSlot s (s.write d v) := by
  unfold State.write
  split
  · exact .modThread ..
  · split
    · exact .modMe rfl fun _ _ => rfl
    · exact .refl s

@[simp] theorem State.modThread_hPend (s : State) (f : Thread → Thread) : (s.modThread f).me.hPend = s.me.hPend := by
  simp [State.modThread]

/-- A write reaches g register `d`, or the pending writes of h register `d - 32`. -/
theorem State.write_g {s : State} {d : Spec} {v : Word} (h : d.toNat < 32) :
    s.write d v = s.modThread (·.setG d.toNat v) := if_pos h

theorem State.write_h {s : State} {d : Spec} {v : Word} (lo : 32 ≤ d.toNat) (hi : d.toNat < 48) :
    s.write d v = s.modMe fun k => { k with hPend := k.hPend ++ [(k.hbank s.thread.dom.toNat, d.toNat - 32, v)] } := by
  rw [State.write, if_neg (by omega), if_pos hi]

theorem State.write_none {s : State} {d : Spec} {v : Word} (h : 48 ≤ d.toNat) : s.write d v = s := by
  rw [State.write, if_neg (by omega), if_neg (by omega)]

theorem ScalarThreadFrame.refl (d : Nat) (fs : Byte) (cs : Option Nat) (a : Thread) : ScalarThreadFrame d fs cs a a :=
  ⟨rfl, fun _ _ _ => ⟨rfl, rfl⟩, rfl, fun _ _ => rfl⟩

theorem ScalarThreadFrame.trans {d : Nat} {fs : Byte} {cs : Option Nat} {a b c : Thread}
    (h : ScalarThreadFrame d fs cs a b) (h' : ScalarThreadFrame d fs cs b c) : ScalarThreadFrame d fs cs a c := by
  obtain ⟨eq, g, f, n⟩ := h
  obtain ⟨eq', g', f', n'⟩ := h'
  refine ⟨by rw [eq', eq], fun i lt other => ?_, f'.trans f, fun i other => (n' i other).trans (n i other)⟩
  exact ⟨((g' i lt other).1).trans (g i lt other).1, ((g' i lt other).2).trans (g i lt other).2⟩

/-- A change of the thread's wait, of its place and of its ports alone. -/
theorem ScalarThreadFrame.of_eq {d : Nat} {fs : Byte} {cs : Option Nat} {a b : Thread}
    (eq : b = { a with status := b.status, pc := b.pc, atLookup := b.atLookup, first := b.first, chosen := b.chosen,
                       wskip := b.wskip, skipBp := b.skipBp, q := b.q, tag := b.tag }) :
    ScalarThreadFrame d fs cs a b := by
  rw [eq]
  exact ⟨rfl, fun _ _ _ => ⟨rfl, rfl⟩, rfl, fun _ _ => rfl⟩

theorem Thread.setG_isFull_ne (t : Thread) (d i : Nat) (v : Word) (other : i ≠ d) :
    (t.setG d v).isFull i = t.isFull i := by
  unfold Thread.setG
  split
  · rfl
  · have bit : (BitVec.ofNat 32 (2 ^ d)).getLsbD i = false := by
      rw [BitVec.getLsbD_ofNat, Nat.testBit_two_pow_of_ne other.symm, Bool.and_false]
    rw [Thread.isFull, BitVec.getLsbD_or, bit, Bool.or_false, Thread.isFull]

theorem ScalarThreadFrame.setG (a : Thread) (d : Nat) (v : Word) (fs : Byte) (cs : Option Nat) :
    ScalarThreadFrame d fs cs a (a.setG d v) := by
  refine ⟨by unfold Thread.setG; split <;> rfl, fun i lt other => ⟨?_, a.setG_isFull_ne d i v other⟩, by simp, by simp⟩
  rw [Thread.setG_g _ _ _ _ lt, if_neg fun h => other h.2]

/-- What an instruction of classes 0 and 1, CNTW, CNTR or NOP leaves alone: `d` is the g or h register that it names, `fs`
its flags, `cs` its counter. -/
def ScalarKeeps (s : State) (a : Thread) (d : Nat) (fs : Byte) (cs : Option Nat) (t : State) : Prop :=
  OnlyThisSlot s t ∧ (∃ b, t.thread? = some b ∧ ScalarThreadFrame d fs cs a b)
    ∧ (t.me.hPend = s.me.hPend ∨ 32 ≤ d ∧ d < 48 ∧ ∃ v, t.me.hPend = s.me.hPend ++ [(s.me.hbank a.dom.toNat, d - 32, v)])

section
variable {s : State} {a : Thread} {d : Nat} {fs : Byte} {cs : Option Nat}

theorem ScalarKeeps.refl (held : s.thread? = some a) : ScalarKeeps s a d fs cs s :=
  ⟨.refl s, ⟨a, held, .refl ..⟩, .inl rfl⟩

/-- A change of the issuing thread within the frame. -/
theorem ScalarKeeps.modThread {t : State} (h : ScalarKeeps s a d fs cs t) {f : Thread → Thread}
    (frame : ∀ b, t.thread? = some b → ScalarThreadFrame d fs cs b (f b)) : ScalarKeeps s a d fs cs (t.modThread f) := by
  obtain ⟨only, ⟨b, held, kept⟩, pend⟩ := h
  exact ⟨only.trans (.modThread ..), ⟨f b, by simp [held], kept.trans (frame b held)⟩, by simpa using pend⟩

theorem ScalarKeeps.started (held : s.thread? = some a) : ScalarKeeps s a d fs cs s.started :=
  (ScalarKeeps.refl held).modThread fun _ _ => .of_eq rfl

theorem ScalarKeeps.taken (held : s.thread? = some a) (ss : List Spec) : ScalarKeeps s a d fs cs (s.taken ss) := by
  refine (ScalarKeeps.started held).modThread fun b started => ?_
  obtain ⟨q, tag, read⟩ := s.started.thread.readSrcs_thread (s.started.me.bankOf s.started.thread.dom.toNat)
    (whoWord s.started.thread.dom.toNat s.started.cur s.started.me.turnSlot) ss
  rw [State.thread_of_some started] at read
  exact .of_eq (by simp only [State.reading, State.thread_of_some started, read]; rfl)

theorem ScalarKeeps.waits (held : s.thread? = some a) (c : Nat) : ScalarKeeps s a d fs cs (s.waits c) := by
  obtain ⟨only, ⟨b, held', kept⟩, -⟩ := (ScalarKeeps.refl (d := d) (fs := fs) (cs := cs) held).modThread
    (f := fun t => { t with status := .waiting }) fun _ _ => .of_eq rfl
  refine ⟨only.trans (.count ..), ⟨b, ?_, kept⟩, .inl ?_⟩
  · rw [← held']
    simp [State.waits, State.thread?, Core.threadAt, Core.slot, Core.turnSlot]
  · simp [State.waits]

/-- A result reaches the register that it names. -/
theorem ScalarKeeps.write {u : State} {x : Spec} (h : ScalarKeeps s a x.toNat fs cs u) (v : Word)
    (pend : u.me.hPend = s.me.hPend) : ScalarKeeps s a x.toNat fs cs (u.write x v) := by
  by_cases g : x.toNat < 32
  · rw [State.write_g g]
    exact h.modThread fun b _ => .setG b ..
  · by_cases bank : x.toNat < 48
    · obtain ⟨only, ⟨b, held, kept⟩, -⟩ := h
      have mine : b.dom = a.dom := by rw [kept.1]
      have parts : u.me.hbank = s.me.hbank := by
        funext n
        rw [Core.hbank, only.2.1]
        rfl
      refine ⟨only.trans (.write ..), ⟨b, ?_, kept⟩, .inr ⟨by omega, bank, v, ?_⟩⟩ <;>
        rw [State.write_h (by omega) bank]
      · rw [← held]
        simp [State.thread?, Core.threadAt, Core.slot, Core.turnSlot]
      · simp [State.thread_of_some held, mine, parts, pend]
    · rw [State.write_none (by omega)]
      exact h

/-- The instruction has gone on. -/
theorem ScalarKeeps.goesOn {u t : State} (h : ScalarKeeps s a d fs cs u) {e : Bool} {w : BitVec 4}
    (run : u.goesOn e w = .next t) : ScalarKeeps s a d fs cs t := by
  cases run
  exact h.modThread fun _ _ => .of_eq rfl

end

/-! ### The frame of each shape -/

section
variable {s t : State} {a : Thread} (held : s.thread? = some a) {e : Bool} {w : BitVec 4}
include held

theorem ScalarKeeps.computes {d : Spec} {ss : List Spec} {f : List Word → Word}
    (run : s.instr e w (computes d ss f) = .next t) : ScalarKeeps s a d.toNat 0 none t := by
  have on : s.thread?.isSome = true := by simp [held]
  by_cases ready : s.started.thread.srcReady ss = true ∧ s.canWrite d
  · rw [State.computes_result on e w f ready.1 ready.2] at run
    exact ((ScalarKeeps.taken held ss).write _ (by simp [State.taken, State.started])).goesOn run
  · obtain ⟨c, wait⟩ := State.computes_waits on e w f (not_and_or.mp ready |>.imp_left Bool.eq_false_of_not_eq_true)
    cases wait.symm.trans run
    exact .waits held c

theorem ScalarKeeps.copies {d : Spec} {f : Thread → Word} (run : s.instr e w (copies d f) = .next t) :
    ScalarKeeps s a d.toNat 0 none t := by
  have on : s.thread?.isSome = true := by simp [held]
  by_cases full : s.canWrite d
  · rw [State.copies_result on e w f full] at run
    exact ((ScalarKeeps.started held).write _ (by simp [State.started])).goesOn run
  · obtain ⟨c, wait⟩ := State.copies_waits on e w f full
    cases wait.symm.trans run
    exact .waits held c

theorem ScalarKeeps.marks {fs : Byte} {cs : Option Nat} {ss : List Spec} {g : List Word → Thread → Thread}
    (frame : ∀ vs b, ScalarThreadFrame 64 fs cs b (g vs b)) (run : s.instr e w (marks ss g) = .next t) :
    ScalarKeeps s a 64 fs cs t := by
  have on : s.thread?.isSome = true := by simp [held]
  by_cases ready : s.started.thread.srcReady ss = true
  · rw [State.marks_result on e w g ready] at run
    exact ((ScalarKeeps.taken held ss).modThread fun b _ => frame _ b).goesOn run
  · obtain ⟨c, wait⟩ := State.marks_waits on e w g (Bool.eq_false_of_not_eq_true ready)
    cases wait.symm.trans run
    exact .waits held c

theorem ScalarKeeps.nothing (run : s.instr e w (pure ()) = .next t) : ScalarKeeps s a 64 0 none t :=
  (ScalarKeeps.started held).goesOn ((State.instr_ok (by simp [held]) e w rfl).symm.trans run)

end

/-- A write of flag `n` keeps the others (R105). -/
theorem ScalarThreadFrame.setFlag (n : BitVec 3) (v : Bool) (b : Thread) :
    ScalarThreadFrame 64 (BitVec.ofNat 8 (2 ^ n.toNat)) none b (b.setFlag n.toNat v) := by
  refine ⟨rfl, fun _ _ _ => ⟨rfl, rfl⟩, BitVec.eq_of_getLsbD_eq fun j lt => ?_, fun _ _ => rfl⟩
  rw [BitVec.getLsbD_and, BitVec.getLsbD_and, Thread.setFlag, getLsbD_setFld]
  by_cases named : j = n.toNat
  · have bit : (~~~BitVec.ofNat 8 (2 ^ n.toNat)).getLsbD j = false := by
      rw [BitVec.getLsbD_not, BitVec.getLsbD_ofNat, named, Nat.testBit_two_pow_self, Bool.and_true, Bool.and_not_self]
    rw [bit, Bool.and_false, Bool.and_false]
  · rw [if_neg (by omega)]

theorem ScalarThreadFrame.setFlags (f : Byte) (b : Thread) : ScalarThreadFrame 64 0xFF none b { b with f := f } :=
  ⟨rfl, fun _ _ _ => ⟨rfl, rfl⟩, by simp, fun _ _ => rfl⟩

theorem ScalarThreadFrame.setCounter (n : Nat) (v : BitVec 32) (b : Thread) :
    ScalarThreadFrame 64 0 (some n) b { b with c := wr b.c n v } :=
  ⟨rfl, fun _ _ _ => ⟨rfl, rfl⟩, rfl, fun _ other => rd_wr_ne _ _ _ _ _ fun h => other (congrArg some h.symm)⟩

/-- Settles O7: each effect has one of the shapes `computes`, `copies` and `marks`, and each shape has its frame. -/
theorem scalarFrame : Obligations.ScalarFrame := by
  unfold Obligations.ScalarFrame
  intro i s t a held run keeps one
  cases i with
  | add x | sub x | mul x | mulh x | mulhn x | div x | divn x | rem x | remn x | and x | or x | xor x | andn x | orn x
  | shl x | shr x | sar x | rol x | ror x | min x | max x | minn x | maxn x | clz x | ctz x | popc x | bswap x | extr x
  | ins x | madd x | sel x => exact ScalarKeeps.computes held run
  | addi x | andi x | ori x | xori x | shli x | shri x | sari x | muli x | ldih x => exact ScalarKeeps.computes held run
  | flagr x | cntr x => exact ScalarKeeps.copies held run
  | ldi x => exact ScalarKeeps.copies (f := fun _ => immS x) held run
  | cmp x | cmpn x | tst x => exact ScalarKeeps.marks held (fun _ _ => .setFlag ..) run
  | cmpi x | cmpni x | tsti x => exact ScalarKeeps.marks held (fun _ _ => .setFlag ..) run
  | flagw x => exact ScalarKeeps.marks held (fun _ _ => .setFlags ..) run
  | cntw x => exact ScalarKeeps.marks held (fun _ _ => .setCounter ..) run
  | nop x => exact ScalarKeeps.nothing held run
  | _ => trivial

end Sys2Proof.Machine
end

section
/-! The comparisons, what makes a scalar instruction wait, and the scalar operands: the theorems that settle O4, O8 and O9,
and SUPPORT for them. -/

namespace Sys2Proof.Machine

/-! ### Comparisons (R59) -/

/-- A comparison writes the flag that it names. -/
theorem State.marks_flag {s : State} {ss : List Spec} (read : s.canRead ss) (e : Bool) (w : BitVec 4) (n : BitVec 3)
    (f : List Word → Bool) :
    s.instr e w (marks ss fun vs t => t.setFlag n.toNat (f vs)) = s.flagResult ss n e w (f (s.reading ss).1) :=
  State.marks_result read.1 e w _ read.2

theorem condS_eq (c : BitVec 3) (a b : Word) : condS c a b = condOf c.toNat (a == b) (decide (a.toInt < b.toInt)) := rfl

theorem condU_eq (c : BitVec 3) (a b : Word) : condU c a b = condOf c.toNat (a == b) (decide (a.toNat < b.toNat)) := rfl

theorem immS_toInt (x : FmtB) : (immS x).toInt = x.imm.toInt := BitVec.toInt_signExtend_of_le (by decide)

theorem immZ_toNat (x : FmtB) : (immZ x).toNat = x.imm.toNat := BitVec.toNat_setWidth_of_le (by decide)

/-- Settles O4: each comparison has the shape `marks` of a flag, and the conditions of R59 are those of `condOf`. -/
theorem comparisons : Obligations.Comparisons := by
  unfold Obligations.Comparisons
  intro holds
  have same (c : BitVec 3) (eq lt : Bool) : holds c eq lt = condOf c.toNat eq lt := by
    revert c eq lt
    decide
  simp only [same]
  refine ⟨fun x s read => ⟨?_, ?_, ?_⟩, fun x s read => ⟨?_, ?_, ?_⟩⟩
  · exact State.marks_flag read ..
  · exact State.marks_flag read ..
  · exact State.marks_flag read ..
  · refine (State.marks_flag read ..).trans ?_
    rw [condS_eq, immS_toInt]
    rfl
  · refine (State.marks_flag read ..).trans ?_
    rw [condU_eq, immZ_toNat]
    rfl
  · exact State.marks_flag read ..

/-! ### Waits (R68, R97) -/

/-- What a wait leaves of the issuing thread. -/
theorem State.waits_thread? {s : State} {a : Thread} (held : s.thread? = some a) (c : Nat) :
    (s.waits c).thread? = some { a with status := .waiting } := by
  have own : (s.modThread fun t => { t with status := .waiting }).thread? = some { a with status := .waiting } := by
    simp [held]
  rw [← own]
  simp [State.waits, State.thread?, Core.threadAt, Core.slot, Core.turnSlot]

theorem OnlyThisSlot.waits (s : State) (c : Nat) : OnlyThisSlot s (s.waits c) :=
  (OnlyThisSlot.modThread ..).trans (.count ..)

theorem State.waits_hPend (s : State) (c : Nat) : (s.waits c).me.hPend = s.me.hPend := by
  simp [State.waits]

/-- Settles O8: each effect has one of the shapes `computes`, `copies` and `marks`, and each shape waits. -/
theorem scalarWaits : Obligations.ScalarWaits := by
  unfold Obligations.ScalarWaits
  intro s a held waits lacks
  have on : s.thread?.isSome = true := by simp [held]
  have waiting {i : Instr} (run : ∃ c, exec i s = .next (s.waits c)) : waits i := by
    obtain ⟨c, wait⟩ := run
    exact ⟨_, _, wait, State.waits_thread? held c, rfl, .waits s c, s.waits_hPend c⟩
  refine ⟨fun x => ⟨fun lack => ?_, fun lack => ?_, fun lack => ?_, fun lack => ?_, fun lack => ?_, fun lack => ?_,
    fun empty => ?_⟩, fun x => ⟨fun lack => ?_, fun empty => ?_, fun lack => ?_⟩,
    fun x => ⟨fun lack => ?_, fun empty => ?_⟩⟩
  · and_intros <;> exact waiting (State.computes_waits on _ _ _ lack)
  · and_intros <;> exact waiting (State.computes_waits on _ _ _ lack)
  · and_intros <;> exact waiting (State.computes_waits on _ _ _ lack)
  · exact waiting (State.computes_waits on _ _ _ lack)
  · and_intros <;> exact waiting (State.marks_waits on _ _ _ lack)
  · exact waiting (State.marks_waits on _ _ _ lack)
  · exact waiting (State.copies_waits on _ _ _ empty)
  · and_intros <;> exact waiting (State.computes_waits on _ _ _ lack)
  · exact waiting (State.copies_waits on _ _ (fun _ => immS x) empty)
  · and_intros <;> exact waiting (State.marks_waits on _ _ _ lack)
  · exact waiting (State.marks_waits on _ _ _ lack)
  · exact waiting (State.copies_waits on _ _ _ empty)

end Sys2Proof.Machine
end

section
/-! The scalar operands: the theorem that settles O9, and SUPPORT for it. -/

namespace Sys2Proof.Machine

/-! ### The sources in order (R50) -/

/-- The last source is read after the ones before it. -/
theorem Thread.readSrcs_concat (t : Thread) (bank : Vector Word 16) (who : Word) (ss : List Spec) (sp : Spec) :
    t.readSrcs bank who (ss ++ [sp]) = ((t.readSrcs bank who ss).1 ++ [((t.readSrcs bank who ss).2.readSrc bank who sp).1],
      ((t.readSrcs bank who ss).2.readSrc bank who sp).2) := by
  induction ss generalizing t with
  | nil => rfl
  | cons first r ih => simp only [List.cons_append, Thread.readSrcs, ih]

theorem Thread.readSrcs_length (t : Thread) (bank : Vector Word 16) (who : Word) (ss : List Spec) :
    (t.readSrcs bank who ss).1.length = ss.length := by
  induction ss generalizing t with
  | nil => rfl
  | cons first r ih => simp [Thread.readSrcs, ih]

section
variable {s : State} {a : Thread} (held : s.thread? = some a) (ss : List Spec) (sp : Spec)
include held

theorem State.started_thread : s.started.thread = { a with status := .running } := by
  simp [State.started, held, State.thread]

/-- The operands come from the thread, its domain's bank and the layout of `who`. -/
theorem State.reading_eq : s.reading ss = { a with status := .running }.readSrcs
    (rd s.me.h (s.me.hbank a.dom.toNat) (Vector.replicate 16 0)) (whoWord a.dom.toNat s.cur s.me.turnSlot) ss := by
  simp only [State.reading, State.started_thread held]
  simp [State.started, State.modThread, Core.bankOf, Core.hbank, Core.turnSlot]

theorem State.taken_thread : (s.taken ss).thread = (s.reading ss).2 := by
  simp [State.taken, State.started, held, State.thread]

/-- The last operand, and the thread after it. -/
theorem State.readSrc_last :
    (s.operand (ss ++ [sp]) ss.length, (s.taken (ss ++ [sp])).thread) = (s.taken ss).thread.readSrc
      (rd s.me.h (s.me.hbank a.dom.toNat) (Vector.replicate 16 0)) (whoWord a.dom.toNat s.cur s.me.turnSlot) sp := by
  have last (vs : List Word) (v : Word) (h : vs.length = ss.length) : arg (vs ++ [v]) ss.length = v := by
    simp [arg, ← h]
  simp only [State.taken_thread held, State.operand, State.reading_eq held, Thread.readSrcs_concat,
    last _ _ (Thread.readSrcs_length ..)]

/-- The sources before have taken messages alone. -/
theorem State.taken_taking : ∃ q tag, (s.taken ss).thread = { a with status := .running }.taking q tag := by
  rw [State.taken_thread held, State.reading_eq held]
  exact Thread.readSrcs_thread ..

end

/-- The identity, who, prm and tag (R102, R103). -/
theorem Thread.readSrc_constant (t : Thread) (bank : Vector Word 16) (who : Word) (sp : Spec) :
    let v := (t.readSrc bank who sp).1
    let n := sp.toNat
    (n = 52 → v.toNat = t.ident.ex.toNat) ∧ (n = 53 → v.toNat = t.ident.ey.toNat)
    ∧ (n = 54 → v.toNat = t.ident.ez.toNat) ∧ (n = 55 → v.toNat = t.ident.ox.toNat)
    ∧ (n = 56 → v.toNat = t.ident.oy.toNat) ∧ (n = 57 → v.toNat = t.ident.oz.toNat)
    ∧ (n = 58 → v.toNat = t.ident.stg.toNat) ∧ (n = 59 → v = who)
    ∧ (n = 60 → v.toNat = t.prm.toNat) ∧ (n = 61 → v.toNat = t.tag.toNat) := by
  and_intros <;> intro h <;> simp [Thread.readSrc, h, BitVec.toNat_setWidth_of_le, -BitVec.toNat_setWidth]

/-- A g register, and an h register of the bank (R96, R99). -/
theorem Thread.readSrc_register (t : Thread) (bank : Vector Word 16) (who : Word) (sp : Spec) :
    let v := (t.readSrc bank who sp).1
    let n := sp.toNat
    (n = 0 → v = 0) ∧ (0 < n → n < 32 → v = rd t.g n 0) ∧ (32 ≤ n → n < 48 → v = rd bank (n - 32) 0) := by
  refine ⟨fun zero => ?_, fun pos lt => ?_, fun lo hi => ?_⟩
  · simp [Thread.readSrc, zero]
  · simp [Thread.readSrc, lt, Nat.ne_of_gt pos]
  · simp [Thread.readSrc, hi, Nat.not_lt.mpr lo]

/-! ### The layout of `who` (R103) -/

theorem whoWord_toNat {dom core slot : Nat} (d : dom < 256) (c : core < 1024) (t : slot < 8) :
    (whoWord dom core slot).toNat = dom * 65536 + core * 32 + slot * 4 := by
  have low : slot <<< 2 < 2 ^ 5 := by rw [Nat.shiftLeft_eq]; omega
  have mid : core <<< 5 < 2 ^ 16 := by rw [Nat.shiftLeft_eq]; omega
  have upper : dom <<< 16 ||| core <<< 5 = (dom * 2048 + core) <<< 5 := by
    rw [← Nat.shiftLeft_add_eq_or_of_lt mid]
    simp only [Nat.shiftLeft_eq]
    omega
  rw [whoWord, word, BitVec.toNat_ofNat, upper, ← Nat.shiftLeft_add_eq_or_of_lt low]
  simp only [Nat.shiftLeft_eq]
  omega

theorem fld_toNat {n : Nat} (w : BitVec n) (lo len : Nat) : fld w lo len = w.toNat / 2 ^ lo % 2 ^ len := by
  rw [fld, BitVec.extractLsb'_toNat, Nat.shiftRight_eq_div_pow]

theorem whoWord_fields {dom core slot : Nat} (d : dom < 256) (c : core < 1024) (t : slot < 8) :
    let v := whoWord dom core slot
    fld v 0 2 = 0 ∧ fld v 2 3 = slot ∧ fld v 5 10 = core ∧ fld v 15 1 = 0 ∧ fld v 16 8 = dom ∧ fld v 24 40 = 0 := by
  simp only [fld_toNat, whoWord_toNat d c t]
  and_intros <;> omega

/-! ### The writes of a turn reach the h registers (log 36) -/

/-- One pending write reaches its h register. -/
def landOne (h : Vector (Vector Word 16) 8) (w : Nat × Nat × Word) : Vector (Vector Word 16) 8 :=
  wr h w.1 (wr (rd h w.1 (Vector.replicate 16 0)) w.2.1 w.2.2)

theorem rd_landOne (h : Vector (Vector Word 16) 8) (w : Nat × Nat × Word) {b r : Nat} (hb : b < 8) (hr : r < 16) :
    rd (rd (landOne h w) b (Vector.replicate 16 0)) r 0 =
      if w.1 = b ∧ w.2.1 = r then w.2.2 else rd (rd h b (Vector.replicate 16 0)) r 0 := by
  by_cases bank : w.1 = b
  · subst bank
    rw [landOne, rd_wr_same _ _ _ _ hb]
    by_cases reg : w.2.1 = r
    · subst reg
      rw [rd_wr_same _ _ _ _ hr, if_pos ⟨rfl, rfl⟩]
    · rw [rd_wr_ne _ _ _ _ _ (Ne.symm reg), if_neg fun both => reg both.2]
  · rw [landOne, rd_wr_ne _ _ _ _ _ (Ne.symm bank), if_neg fun both => bank both.1]

/-- Each h register takes the latest write to it. -/
theorem rd_foldl_landOne (ws : List (Nat × Nat × Word)) (h : Vector (Vector Word 16) 8) {b r : Nat} (hb : b < 8)
    (hr : r < 16) : rd (rd (ws.foldl landOne h) b (Vector.replicate 16 0)) r 0 =
      (((ws.filter fun w => w.1 == b && w.2.1 == r).getLast?).map fun w => w.2.2).getD
        (rd (rd h b (Vector.replicate 16 0)) r 0) := by
  induction ws generalizing h with
  | nil => rfl
  | cons w ws ih =>
    rw [List.foldl_cons, ih, rd_landOne _ _ hb hr]
    by_cases hit : w.1 = b ∧ w.2.1 = r
    · rw [if_pos hit, List.filter_cons_of_pos (by simpa using hit), List.getLast?_cons]
      cases (ws.filter fun w => w.1 == b && w.2.1 == r).getLast? <;> rfl
    · rw [if_neg hit, List.filter_cons_of_neg (by simpa using hit)]

/-- Settles O9: the last source is read from the thread as the sources before it leave it, and each kind of source and of
destination has its rule. -/
theorem scalarOperands : Obligations.ScalarOperands := by
  unfold Obligations.ScalarOperands
  refine ⟨fun s a ss sp held => ?_, fun s a d v held => ⟨fun zero => ?_, fun lo hi => ?_, fun lo hi => ?_⟩,
    fun k b r hb hr => ⟨rd_foldl_landOne k.hPend k.h hb hr, rfl⟩⟩
  · intro u v u' n
    obtain ⟨q, tag, before⟩ := State.taken_taking held ss
    have last := State.readSrc_last held ss sp
    have value : v = (u.readSrc _ _ sp).1 := congrArg Prod.fst last
    have after : u' = (u.readSrc _ _ sp).2 := congrArg Prod.snd last
    have ident : u.ident = a.ident := (congrArg Thread.ident before).trans rfl
    have prm : u.prm = a.prm := (congrArg Thread.prm before).trans rfl
    have regs : u.g = a.g := (congrArg Thread.g before).trans rfl
    obtain ⟨g0, g, h⟩ := u.readSrc_register _ _ sp
    obtain ⟨ex, ey, ez, ox, oy, oz, stg, who, const, mark⟩ := u.readSrc_constant _ _ sp
    rw [← value] at g0 g h ex ey ez ox oy oz stg who const mark
    rw [ident] at ex ey ez ox oy oz stg
    refine ⟨fun none => ?_, fun none => after.trans (Thread.readSrc_unported none), g0, regs ▸ g, h,
      fun lo hi m rest msgs => ?_, ex, ey, ez, ox, oy, oz, stg, fun h cur => ?_, prm ▸ const, mark⟩
    · simp [u, none, State.taken_thread held, State.reading_eq held, Thread.readSrcs]
    · rw [Thread.readSrc_port lo hi msgs] at value after
      rw [after]
      exact ⟨value, rfl, rd_wr_same _ _ _ _ (by omega), fun p _ other => rd_wr_ne _ _ _ _ _ other, rfl⟩
    · rw [who h]
      exact whoWord_fields a.dom.isLt cur s.me.turnSlot_lt
  · rw [State.write_g (by omega), zero]
    exact congrArg s.modThread (funext fun _ => rfl)
  · refine ⟨a.setG d.toNat v, by simp [State.write_g hi, held], ?_, a.setG_isFull v hi⟩
    rw [Thread.setG_g _ _ _ _ hi, if_pos ⟨by omega, rfl⟩]
  · rw [State.write_h lo hi, State.thread_of_some held]
    simp

end Sys2Proof.Machine
end

section
/-! SUPPORT. What an instruction of class 4 or 5 may change in the issuing thread, its h bank and memory: a relation of the
states before and after, and the rule of each change that the instructions make. -/

namespace Sys2Proof.Machine

/-! ### The relation -/

/-- What may change: g registers of the issuing thread, bytes of device memory, bytes of the core's own store, and the
commands that wait on splices. -/
structure Reach where
  regs : List Nat
  bytes : Nat → Prop
  cleared : Nat → Prop
  spliced : Nat → Prop

/-- The parts of a thread that stay. -/
def Thread.kept (t : Thread) := (t.tid, t.dom, t.f, t.c, t.v, t.m, t.pend, t.seg, t.cfg, t.ident, t.csp, t.hndl)

/-- Thread `b` keeps those parts of `a`, and its g registers but for some. -/
structure Thread.Within (m : Reach) (a b : Thread) : Prop where
  kept : b.kept = a.kept
  regs : ∀ r, r < 32 → r ∉ m.regs → rd b.g r 0 = rd a.g r 0

/-- The parts of the state that stay. -/
def State.anchors (s : State) := (s.cur, s.tlb, s.pterr, s.me.cycle, s.me.saved, s.me.h)

/-- From state `s` to `u` nothing has changed in the issuing thread, its h bank and memory that may not; and no line of the
core's L1 has got written bytes. -/
structure State.Within (m : Reach) (s u : State) : Prop where
  anchors : u.anchors = s.anchors
  thread : ∀ a, s.thread? = some a → ∃ b, u.thread? = some b ∧ a.Within m b
  lines : ∀ l ∈ u.me.lines, l.written ≠ 0 → l ∈ s.me.lines
  bytes : ∀ d pa, s.settled pa → ¬ m.bytes pa → u.rdPa d pa = s.rdPa d pa
  stores : ∀ c off, ¬ (c = s.cur ∧ m.cleared off) → Tab.get 0 (u.core c).store off = Tab.get 0 (s.core c).store off
  target : ∀ n, ¬ m.spliced n → (u.me.spliceAt n).t = (s.me.spliceAt n).t

variable {m : Reach}

theorem Thread.Within.refl (a : Thread) : a.Within m a := ⟨rfl, fun _ _ _ => rfl⟩

theorem Thread.Within.trans {a b c : Thread} (h : a.Within m b) (h' : b.Within m c) : a.Within m c :=
  ⟨h'.kept.trans h.kept, fun r lt out => (h'.regs r lt out).trans (h.regs r lt out)⟩

theorem Thread.Within.tid {a b : Thread} (h : a.Within m b) : b.tid = a.tid := congrArg (·.1) h.kept

/-- A change of the other parts. -/
theorem Thread.Within.of_eq {a b : Thread} (kept : b.kept = a.kept) (g : b.g = a.g) : a.Within m b :=
  ⟨kept, fun r _ _ => by rw [g]⟩

theorem Thread.Within.setG (a : Thread) {d : Nat} (own : d ∈ m.regs) (v : Word) : a.Within m (a.setG d v) where
  kept := by unfold Thread.setG; split <;> rfl
  regs r lt out := by
    rw [Thread.setG_g _ _ _ _ lt, if_neg]
    rintro ⟨-, rfl⟩
    exact out own

theorem Thread.Within.emptyG (a : Thread) (d : Nat) : a.Within m (a.emptyG d) := by
  unfold Thread.emptyG
  split
  · exact .refl a
  · exact .of_eq rfl rfl

theorem State.Within.cur {s u : State} (h : State.Within m s u) : u.cur = s.cur := congrArg (·.1) h.anchors

theorem State.Within.saved {s u : State} (h : State.Within m s u) : u.me.saved = s.me.saved :=
  congrArg (·.2.2.2.2.1) h.anchors

theorem State.Within.settled {s u : State} (h : State.Within m s u) {pa : Nat} (there : s.settled pa) : u.settled pa :=
  fun l held written => there l (h.lines l held written) written

theorem State.Within.refl (s : State) : State.Within m s s :=
  ⟨rfl, fun a held => ⟨a, held, .refl a⟩, fun _ held _ => held, fun _ _ _ _ => rfl, fun _ _ _ => rfl, fun _ _ => rfl⟩

theorem State.Within.trans {s u v : State} (h : State.Within m s u) (h' : State.Within m u v) : State.Within m s v where
  anchors := h'.anchors.trans h.anchors
  thread a held := by
    obtain ⟨b, held', kept⟩ := h.thread a held
    obtain ⟨c, held'', kept'⟩ := h'.thread b held'
    exact ⟨c, held'', kept.trans kept'⟩
  lines l held written := h.lines l (h'.lines l held written) written
  bytes d pa there out := (h'.bytes d pa (h.settled there) out).trans (h.bytes d pa there out)
  stores c off out := (h'.stores c off (h.cur ▸ out)).trans (h.stores c off out)
  target n out := (h'.target n out).trans (h.target n out)

/-- More may change. -/
theorem State.Within.mono {m' : Reach} {s u : State} (h : State.Within m s u) (regs : m'.regs = m.regs)
    (bytes : m'.bytes = m.bytes) (cleared : ∀ off, m.cleared off → m'.cleared off)
    (spliced : ∀ n, m.spliced n → m'.spliced n) : State.Within m' s u where
  anchors := h.anchors
  thread a held := by
    obtain ⟨b, held', kept⟩ := h.thread a held
    exact ⟨b, held', kept.kept, fun r lt out => kept.regs r lt (regs ▸ out)⟩
  lines := h.lines
  bytes d pa there out := h.bytes d pa there (bytes ▸ out)
  stores c off out := h.stores c off fun own => out ⟨own.1, cleared off own.2⟩
  target n out := h.target n fun own => out (spliced n own)

/-! ### Changes of the state -/

/-- The parts of the state of which the relation speaks. -/
def State.spoken (s : State) := (s.cores, s.halfNs, s.cur, s.tlb, s.pterr, s.mem, s.blockKey, s.cipherKey, s.epoch)

/-- A change of other parts of the state. -/
theorem State.Within.of_spoken {s u : State} (same : u.spoken = s.spoken) : State.Within m s u := by
  simp only [State.spoken, Prod.mk.injEq] at same
  obtain ⟨cores, half, cur, tlb, pterr, mem, block, cipher, epoch⟩ := same
  have core (c : Nat) : u.core c = s.core c := by rw [State.core, State.core, cores, half]
  have me : u.me = s.me := by rw [State.me, State.me, cur, core]
  exact {
    anchors := by rw [State.anchors, State.anchors, me, cur, tlb, pterr]
    thread := fun a held => ⟨a, by rw [← held, State.thread?, State.thread?, me], .refl a⟩
    lines := fun l held _ => me ▸ held
    bytes := fun d pa _ _ => State.rdPa_congr (by rw [State.keyOf, State.keyOf, epoch])
      (by rw [State.keyAt, State.keyAt, block, cipher]) fun _ _ => by rw [mem]
    stores := fun c off _ => by rw [core]
    target := fun n _ => by rw [me] }

/-- A change of the core whose cycle it is. -/
theorem State.Within.modMe {s : State} {f : Core → Core}
    (same : ((f s.me).cycle, (f s.me).saved, (f s.me).h) = (s.me.cycle, s.me.saved, s.me.h))
    (thread : (f s.me).threadAt s.me.turnSlot = s.me.threadAt s.me.turnSlot)
    (lines : ∀ l ∈ (f s.me).lines, l.written ≠ 0 → l ∈ s.me.lines)
    (store : ∀ off, ¬ m.cleared off → Tab.get 0 (f s.me).store off = Tab.get 0 s.me.store off)
    (target : ∀ n, ¬ m.spliced n → ((f s.me).spliceAt n).t = (s.me.spliceAt n).t) : State.Within m s (s.modMe f) := by
  simp only [Prod.mk.injEq] at same
  obtain ⟨cycle, saved, h⟩ := same
  exact {
    anchors := by rw [State.anchors, State.me_modMe, cycle, saved, h]; rfl
    thread := fun a held => ⟨a, by
      rw [← held, State.thread?, State.thread?, State.me_modMe, Core.turnSlot, cycle]
      exact thread, .refl a⟩
    lines := by rw [State.me_modMe]; exact lines
    bytes := fun _ _ _ _ => State.rdPa_congr rfl rfl fun _ _ => rfl
    stores := fun c off out => by
      by_cases own : c = s.cur
      · subst own
        exact (congrArg (fun k : Core => Tab.get 0 k.store off) (s.me_modMe f)).trans (store off fun cl => out ⟨rfl, cl⟩)
      · rw [State.core_modMe_ne _ _ _ own]
    target := by rw [State.me_modMe]; exact target }

/-- The parts of a core of which the relation speaks, but for the splices. -/
def Core.framed (k : Core) := (k.cycle, k.slots, k.saved, k.h, k.lines, k.store)

/-- The parts of a core of which the relation speaks. -/
def Core.spoken (k : Core) := (k.framed, k.splice)

/-- A change of other parts of the core whose cycle it is. -/
theorem State.Within.aside {s : State} {f : Core → Core} (same : (f s.me).spoken = s.me.spoken) :
    State.Within m s (s.modMe f) := by
  simp only [Core.spoken, Core.framed, Prod.mk.injEq] at same
  obtain ⟨⟨cycle, slots, saved, h, lines, store⟩, splice⟩ := same
  exact .modMe (by rw [cycle, saved, h]) (by rw [Core.threadAt, Core.threadAt, Core.slot, Core.slot, slots]) (fun _ held _ => lines ▸ held) (fun _ _ => by rw [store])
    fun _ _ => by rw [Core.spliceAt, Core.spliceAt, splice]

/-- A change of the issuing thread. -/
theorem State.Within.modThread {s : State} {g : Thread → Thread} (h : ∀ a, s.thread? = some a → a.Within m (g a)) :
    State.Within m s (s.modThread g) where
  anchors := by simp [State.anchors, State.modThread]
  thread a held := ⟨g a, by simp [held], h a held⟩
  lines l held _ := by simpa [State.modThread] using held
  bytes _ _ _ _ := State.rdPa_congr rfl rfl fun _ _ => rfl
  stores c off _ := by
    by_cases own : c = s.cur
    · subst own
      have same : (s.modThread g).me.store = s.me.store := by simp [State.modThread]
      exact congrArg (Tab.get 0 · off) same
    · rw [State.modThread, State.core_modMe_ne _ _ _ own]
  target n _ := by simp [State.modThread, Core.spliceAt]

theorem State.Within.ports {s u : State} (h : s.PortsOnly u) : State.Within m s u := by
  have ⟨eq, cores⟩ := h
  have cur : u.cur = s.cur := by rw [eq]
  have me : u.me = { s.me with slots := u.me.slots, noticeLost := u.me.noticeLost } := by
    have own := (cores s.cur).1
    rw [State.me, State.me, cur]
    exact own
  exact {
    anchors := by rw [State.anchors, me, eq]; rfl
    thread := fun a held => by
      obtain ⟨q, there⟩ := h.thread? held
      exact ⟨_, there, .of_eq rfl rfl⟩
    lines := fun l held _ => by rw [me] at held; exact held
    bytes := fun _ _ _ _ => by rw [eq]; exact State.rdPa_congr rfl rfl fun _ _ => rfl
    stores := fun c off _ => by rw [(cores c).1]
    target := fun n _ => by rw [me]; rfl }

end Sys2Proof.Machine
end

section
/-! SUPPORT. Write-backs, releases, acquires and fills: what they leave of the issuing thread and of memory. -/

namespace Sys2Proof.Machine

variable {m : Reach}

/-! ### Write-backs (R278, R280, R281, R284) -/

/-- A domain's write reaches its block alone, for every domain (R374). -/
theorem State.rdPa_wrPa_block (s : State) (d p : Nat) (b : Byte) (d' : Nat) {pa : Nat} (other : pa / 256 ≠ p / 256) :
    (s.wrPa d p b).rdPa d' pa = s.rdPa d' pa := by
  have cipher : pa / 16 ≠ p / 16 := by omega
  rw [← s.rdPa_noteTail p d' pa]
  unfold State.wrPa
  generalize s.noteTail p = u
  have rekeyed : (u.rekey d p).rdPa d' pa = u.rdPa d' pa := by
    rcases u.rekey_cases d p with ⟨-, eq⟩ | ⟨-, -, eq⟩ | eq <;> rw [eq]
    · exact State.rdPa_congr rfl (by simp [State.keyAt, Tab.get_put_ne _ _ _ _ _ other]) fun _ _ => rfl
    · refine State.rdPa_congr (by simp [State.keyOf]) (by simp [State.keyAt, Tab.get_put_ne _ _ _ _ _ cipher]) fun x hx => ?_
      exact State.wrRaw_get_ne _ _ _ _ (by simp [State.rdPas]; omega)
  rw [← rekeyed]
  exact State.rdPa_congr rfl rfl fun x hx => Tab.get_set_ne _ _ _ _ _ fun here => cipher (by rw [← hx, here])

/-- A line's written bytes reach the blocks of the line alone. -/
theorem State.rdPa_flushLine (s : State) (l : Line) (d : Nat) {pa : Nat} (lo : l.pa / 256 ≠ pa / 256)
    (hi : (l.pa + 31) / 256 ≠ pa / 256) : (s.flushLine l).rdPa d pa = s.rdPa d pa := by
  have bytes (is : List Nat) (within : ∀ i ∈ is, i < 32) (u : State) :
      (is.foldl (fun s i => if l.written.getLsbD i then s.wrPa l.dom.toNat (l.pa + i) (l.byte i) else s) u).rdPa d pa
        = u.rdPa d pa := by
    induction is generalizing u with
    | nil => rfl
    | cons i r ih =>
      obtain ⟨lt, rest⟩ := List.forall_mem_cons.mp within
      rw [List.foldl_cons, ih rest]
      split
      · exact u.rdPa_wrPa_block _ _ _ _ (by omega)
      · rfl
  exact bytes _ (fun i h => List.mem_range.mp h) s

theorem State.flushLine_unwritten (s : State) {l : Line} (h : l.written = 0) : s.flushLine l = s := by
  simp [State.flushLine, h]

/-- A change of memory alone. -/
theorem State.Within.memory {s u : State}
    (only : u = { s with cores := u.cores, mem := u.mem, blockKey := u.blockKey, cipherKey := u.cipherKey,
                         rereads := u.rereads, tampered := u.tampered })
    (core : ∀ c, u.core c = s.core c) (bytes : ∀ d pa, s.settled pa → ¬ m.bytes pa → u.rdPa d pa = s.rdPa d pa) :
    State.Within m s u := by
  have cur : u.cur = s.cur := by rw [only]
  have me : u.me = s.me := by rw [State.me, State.me, cur, core]
  exact {
    anchors := by rw [State.anchors, me, only]; rfl
    thread := fun a held => ⟨a, by rw [← held, State.thread?, State.thread?, me], .refl a⟩
    lines := fun l held _ => me ▸ held
    bytes
    stores := fun c off _ => by rw [core]
    target := fun n _ => by rw [me] }

theorem State.Within.flushLine {s : State} {l : Line} (held : l ∈ s.me.lines) : State.Within m s (s.flushLine l) := by
  refine .memory (State.SlotsL1Only.flushLine s l).1 (fun c => s.flushLine_core l c) fun d pa there _ => ?_
  by_cases written : l.written = 0
  · rw [s.flushLine_unwritten written]
  · obtain ⟨lo, hi⟩ := there l held written
    exact s.rdPa_flushLine l d lo hi

theorem State.Within.writeBack {s : State} {c : Nat} (own : c = s.cur) {l : Line} (held : l ∈ s.me.lines) (keep : Bool) :
    State.Within m s (s.writeBack c l keep) := by
  unfold State.writeBack
  generalize ht : (if s.tampered.contains c && l.written != 0 then s.packetLost c l.dom.toNat 0 0 else s.flushLine l) = t
  have first : State.Within m s t := by
    subst ht
    split
    · exact .ports (.packetLost ..)
    · exact .flushLine held
  rw [own, ← first.cur]
  refine first.trans (.modMe ?_ ?_ (fun x there written => ?_) (fun off _ => ?_) fun n _ => ?_)
  · dsimp only
    split <;> simp [Core.putLine]
  · dsimp only
    split <;> simp [Core.putLine, Core.threadAt, Core.slot]
  · have lines : x ∈ (t.me.putLine l (if keep then some { l with written := 0 } else none)).lines := by
      dsimp only at there
      split at there <;> simpa using there
    rcases List.mem_append.mp lines with old | new
    · exact (List.mem_filter.mp old).1
    · cases keep with
      | true => simp only [if_true, Option.toList_some, List.mem_singleton] at new; exact absurd (new ▸ rfl) written
      | false => simp at new
  · dsimp only
    split <;> simp [Core.putLine]
  · dsimp only
    split <;> simp [Core.putLine, Core.spliceAt]

theorem State.Within.flushVa {s : State} {c : Nat} (own : c = s.cur) (dom : Byte) (va : Nat) (keep : Bool) :
    State.Within m s (s.flushVa c dom va keep) := by
  subst own
  unfold State.flushVa
  split
  next l found =>
    split
    · exact .refl s
    · exact .writeBack rfl (Core.lineAt_some found).1 keep
  next => exact .refl s

/-- Steps of the core whose cycle it is, one after another. -/
theorem State.Within.foldl {α : Type} {c : Nat} {f : State → α → State}
    (step : ∀ (u : State) (x : α), c = u.cur → State.Within m u (f u x)) (l : List α) {s : State} (own : c = s.cur) :
    State.Within m s (l.foldl f s) := by
  induction l generalizing s with
  | nil => exact .refl s
  | cons x r ih =>
    have first := step s x own
    exact first.trans (ih (own.trans first.cur.symm))

theorem State.Within.flushRange {s : State} {c : Nat} (own : c = s.cur) (dom : Byte) (lo hi : Nat) (keep : Bool) :
    State.Within m s (s.flushRange c dom lo hi keep) :=
  .foldl (fun _ l own => .flushVa own dom l.va keep) _ own

theorem State.Within.engIssue {s : State} {c : Nat} (own : c = s.cur) (dom : Byte) (rs : List (Nat × Nat × Bool)) :
    State.Within m s (s.engIssue c dom rs) :=
  .foldl (fun _ r own => .flushRange own dom r.1 r.2.1 (!r.2.2)) _ own

theorem Core.count_spoken (k : Core) (code : Nat) (slot : Option Nat) (d n : Nat) :
    (k.count code slot d n).spoken = k.spoken := by
  simp [Core.spoken, Core.framed]

theorem State.Within.count {s : State} {c : Nat} (own : c = s.cur) (code : Nat) (slot : Option Nat) (d n : Nat) :
    State.Within m s (s.modCore c fun k => k.count code slot d n) :=
  own ▸ .aside (Core.count_spoken ..)

theorem State.Within.release {s : State} {c : Nat} (own : c = s.cur) (dom scope : Nat) :
    State.Within m s (s.release c dom scope) := by
  unfold State.release
  split
  · exact .refl s
  · exact .trans (.count own ..) (.foldl (fun _ e own => .flushVa own e.1 e.2 true) _ own)

theorem State.Within.acquire {s : State} {c : Nat} (own : c = s.cur) (dom : Byte) (scope : Nat) :
    State.Within m s (s.acquire c dom scope) := by
  unfold State.acquire
  split
  · exact .refl s
  · have flushed := State.Within.foldl (m := m) (fun _ (l : Line) own => .flushVa own dom l.va false)
      ((s.core c).lines.filter (·.dom == dom)) own
    exact flushed.trans (.count (own.trans flushed.cur.symm) ..)

/-! ### Fills (R96, R98) -/

/-- A fill of a thread on a slot. -/
theorem State.Within.fillSlot {s : State} {c tid i d : Nat} (own : c = s.cur) (slot : (s.core c).slotOf tid = some i)
    (reg : d ∈ m.regs) (v : Word) : State.Within m s (s.fillG c tid d v) := by
  subst own
  rw [State.fillG_slot slot]
  by_cases here : i = s.me.turnSlot
  · subst here
    exact .modThread fun a _ => .setG a reg v
  · exact .modMe (f := (·.modThread i (·.setG d v))) rfl (Core.threadAt_setThread_ne _ _ _ _ (Ne.symm here))
      (fun _ held _ => held) (fun _ _ => rfl) fun _ _ => rfl

theorem State.rdPa_wrRaw_apart (s : State) (p : Nat) (bs : List Byte) (d : Nat) {pa : Nat}
    (apart : pa + 16 ≤ p ∨ p + bs.length + 16 ≤ pa) : (s.wrRaw p bs).rdPa d pa = s.rdPa d pa := by
  refine State.rdPa_congr (by simp [State.keyOf]) (by simp [State.keyAt]) fun x hx => ?_
  exact State.wrRaw_get_ne _ _ _ _ (by omega)

theorem State.Within.wrRaw {s : State} {p : Nat} {bs : List Byte}
    (may : ∀ pa, p < pa + 16 → pa < p + bs.length + 16 → m.bytes pa) : State.Within m s (s.wrRaw p bs) := by
  refine .memory (State.SlotsL1Only.wrRaw s p bs).1 (fun c => by rw [State.wrRaw_eq]; rfl) fun d pa _ out => ?_
  refine s.rdPa_wrRaw_apart p bs d ?_
  by_contra near
  exact out (may pa (by omega) (by omega))

/-- A fill of any thread: of one that has been saved it reaches the register in its frame and the mask of full registers
there (R98). -/
theorem State.Within.fillG {s : State} {c tid d : Nat} (own : c = s.cur) (reg : d ∈ m.regs)
    (frame : ∀ f ∈ s.me.saved, f.thread.tid = tid →
      ∀ pa, f.frame < pa + 16 → pa < f.frame + 0x218 + 8 * d → m.bytes pa) (v : Word) :
    State.Within m s (s.fillG c tid d v) := by
  cases slot : (s.core c).slotOf tid with
  | some i => exact .fillSlot own slot reg v
  | none =>
    subst own
    unfold State.fillG
    dsimp only
    rw [slot]
    dsimp only
    split
    next f found =>
      have there := frame f (List.mem_of_find?_eq_some found) (by simpa using List.find?_some found)
      split
      · exact .refl s
      · split
        · exact .ports (.packetLost ..)
        · refine .trans (.wrRaw fun pa lo hi => there pa ?_ ?_) (.wrRaw fun pa lo hi => there pa ?_ ?_) <;>
            rw [length_leBytes] at hi <;> omega
    next => exact .refl s

end Sys2Proof.Machine
end

section
/-! SUPPORT. The outcomes of an instruction (R10, R68, R80, R337), and the effects that the instructions of classes 4 and 5
share: what they leave of the issuing thread and of memory. -/

namespace Sys2Proof.Machine

variable {m : Reach}

/-! ### Outcomes -/

theorem State.Within.stepped {s : State} {e : Bool} {w : BitVec 4} :
    State.Within m s (s.modThread (·.advance e w)) := .modThread fun _ _ => .of_eq rfl rfl

theorem State.Within.started (s : State) : State.Within m s s.started := .modThread fun _ _ => .of_eq rfl rfl

/-- An effect that stopped leaves counts alone: it has translated nothing. -/
theorem State.Within.trail {s a : State} (h : State.Within m s a) : State.Within m s (s.trail a) := by
  have tlb : a.tlb = s.tlb := congrArg (·.2.1) h.anchors
  have pterr : a.pterr = s.pterr := congrArg (·.2.2.1) h.anchors
  have none_new : s.newXlats a = [] := by
    rw [State.newXlats, tlb]
    exact List.filter_eq_nil_iff.mpr fun x held => by simpa using held
  unfold State.trail
  split
  · exact .refl s
  · rw [none_new, tlb, pterr]
    exact .aside rfl

theorem State.Within.take (s : State) (cause sub : Nat) (taddr det0 det1 : Word) (kind : Nat) :
    State.Within m s (s.take cause sub taddr det0 det1 kind) := by
  unfold State.take
  dsimp only
  generalize ht : (if s.thread.tret.getLsbD 56 then _ else _ : Thread) = t'
  have trapped : s.thread.Within m t' := by
    subst ht
    split
    · exact .of_eq rfl rfl
    · split <;> exact .of_eq rfl rfl
  have registers : State.Within m s (s.modThread fun _ => { t' with refused := none }) :=
    .modThread fun a held => by
      rw [State.thread_of_some held] at trapped
      exact trapped.trans (.of_eq rfl rfl)
  have counted := registers.trans (.aside (f := fun k =>
    (k.count 11 (some k.turnSlot) s.thread.dom.toNat 1).count (if cause = 11 then 10 else if cause = 7 then 21 else 255)
      none s.thread.dom.toNat 1) (by rw [Core.count_spoken, Core.count_spoken]))
  split
  · exact counted.trans (.ports (.notice ..))
  · exact counted

theorem State.Within.pageFault (s : State) (va : Nat) (write : Bool) : State.Within m s (s.pageFault va write) := by
  have stalled : State.Within m s (s.modThread fun t =>
      { t with status := if t.resident then .stalled va write else .faulted va write }) := .modThread fun _ _ => .of_eq rfl rfl
  have reported : State.Within m s { s.modThread (fun t =>
      { t with status := if t.resident then .stalled va write else .faulted va write }) with
      reports := s.reports ++ [(s.thread.dom.toNat, va / 65536)] } := stalled.trans (.of_spoken rfl)
  exact reported.trans (.aside (Core.count_spoken ..))

theorem State.Within.waits (s : State) (code : Nat) : State.Within m s (s.waits code) := by
  have waiting : State.Within m s (s.modThread fun t => { t with status := .waiting }) := .modThread fun _ _ => .of_eq rfl rfl
  exact waiting.trans (.aside (Core.count_spoken ..))

/-- What an issue that stops leaves. -/
theorem State.Within.stopped {s t : State} {x : Stop} (run : s.stopped x = .next t) : State.Within m s t := by
  cases x with
  | trap cause sub d0 d1 => cases run; exact (State.Within.started s).trans (.take ..)
  | wait code => cases run; exact .waits ..
  | pageFault va w => cases run; exact (State.Within.started s).trans (.pageFault ..)
  | stop f => cases run

/-- The outcome of an instruction whose effect keeps within `m`, also where it stops. -/
theorem State.Within.outcome {s t : State} {e : Bool} {w : BitVec 4} {eff : M Unit}
    (keeps : M.Ends (· = s.started) eff (fun _ => State.Within m s) (State.Within m s))
    (run : s.instr e w eff = .next t) : State.Within m s t := by
  rcases s.instr_cases e w eff with nothing | ⟨u, ends, next⟩ | ⟨x, a, ends, next⟩
  · cases nothing.symm.trans run; exact .refl s
  · cases next.symm.trans run
    exact (keeps.ok _ _ _ rfl ends).trans .stepped
  · exact (State.Within.trail (keeps.stop _ _ _ rfl ends)).trans (.stopped (next.symm.trans run))

/-! ### Effects with a result of which something is known -/

section
variable {α β : Type} {P E : State → Prop}

/-- What is known of an effect's result is known in the rest. -/
theorem M.Ends.bindFact {P' : State → Prop} {eff : M α} {f : α → M β} {F : α → Prop} {R : β → State → Prop}
    (first : M.Ends P eff (fun a u => P' u ∧ F a) E) (rest : ∀ a, F a → M.Ends P' (f a) R E) :
    M.Ends P (eff >>= f) R E :=
  .bind first fun a => {
    ok := fun s b u hs => (rest a hs.2).ok s b u hs.1
    stop := fun s x u hs => (rest a hs.2).stop s x u hs.1 }

theorem M.Stays.bindFact {eff : M α} {f : α → M β} {F : α → Prop} (first : M.Ends P eff (fun a u => P u ∧ F a) P)
    (rest : ∀ a, F a → M.Stays P (f a)) : M.Stays P (eff >>= f) := M.Ends.bindFact first rest

/-- A step that is made under a condition alone. -/
theorem M.Ends.optional (c : Prop) [Decidable c] {first : M α} {rest : M β} {R : β → State → Prop} (hf : M.Stays P first)
    (hr : M.Ends P rest R P) : M.Ends P (if c then first >>= fun _ => rest else rest) R P := by
  split
  · exact .bind hf fun _ => hr
  · exact hr

/-- Two ways to a value with which the rest goes on. -/
theorem M.Stays.either (c : Prop) [Decidable c] {m n : M α} {rest : α → M β} (hm : M.Stays P m) (hn : M.Stays P n)
    (h : ∀ a, M.Stays P (rest a)) : M.Stays P (if c then m >>= fun a => rest a else n >>= fun a => rest a) :=
  .ite c (.bind hm h) (.bind hn h)

/-- A value that is read under a condition alone. -/
theorem M.Stays.chosen {γ : Type} (c : Prop) [Decidable c] {m : M α} {f : α → β} {b : β} {rest : β → M γ} (hm : M.Stays P m)
    (h : ∀ b, M.Stays P (rest b)) :
    M.Stays P (if c then m >>= fun a => Pure.pure (f a) >>= fun b => rest b else Pure.pure b >>= fun b => rest b) :=
  .ite c (.bind hm fun _ => h _) (h b)

/-- What stands behind a trap never runs. -/
theorem M.Stays.raise_bind (c n : Nat) (x y : Word) (f : α → M β) : M.Stays P ((Machine.raise c n x y : M α) >>= f) where
  ok s a u hs run := by cases run
  stop s x u hs run := by cases run; exact hs

theorem M.Ends.weaken {eff : M α} {Q Q' : α → State → Prop} {P' E' : State → Prop} (h : M.Ends P eff Q E)
    (pre : ∀ s, P' s → P s) (post : ∀ a s, Q a s → Q' a s) (stop : ∀ s, E s → E' s) : M.Ends P' eff Q' E' where
  ok s a u hs run := post a u (h.ok s a u (pre s hs) run)
  stop s x u hs run := stop u (h.stop s x u (pre s hs) run)

end

/-- An instruction whose effect keeps within `m`. -/
theorem State.Within.issued {s t : State} {e : Bool} {w : BitVec 4} {eff : M Unit} (run : s.instr e w eff = .next t)
    (keeps : M.Stays (State.Within m s) eff) : State.Within m s t :=
  .outcome (keeps.weaken (fun _ h => h ▸ .started s) (fun _ _ => id) fun _ => id) run

/-! ### The shared effects -/

section
variable {s : State} {α : Type}

/-- An effect that only changes the state, within `m`. -/
theorem M.Stays.moves {eff : M α} {f : State → α} {g : State → State} (run : ∀ u, eff u = .ok (f u, g u))
    (step : ∀ u, State.Within m u (g u)) : M.Stays (State.Within m s) eff :=
  .changes run fun u within => within.trans (step u)

theorem modMe_stays {f : Core → Core} (same : ∀ k, (f k).spoken = k.spoken) : M.Stays (State.Within m s) (modMe f) :=
  .moves (fun _ => rfl) fun u => .aside (same u.me)

theorem modify_stays {g : State → State} (step : ∀ u, State.Within m u (g u)) :
    M.Stays (State.Within m s) (modify g : M Unit) := .moves (fun _ => rfl) step

theorem thread_stays : M.Stays (State.Within m s) thread := .reads fun _ => rfl

theorem core_stays : M.Stays (State.Within m s) core := .reads fun _ => rfl

theorem waitDst_stays {P : State → Prop} (d : Spec) : M.Stays P (waitDst d) :=
  .bind (.reads fun _ => rfl) fun _ => .waitFor ..

theorem srcs_stays (ss : List Spec) : M.Stays (State.Within m s) (srcs ss) where
  ok u vs v within run := by
    unfold srcs at run
    dsimp only at run
    split at run
    · cases run
      refine within.trans (.modThread fun a held => ?_)
      obtain ⟨q, tag, read⟩ := u.thread.readSrcs_thread (u.me.bankOf u.thread.dom.toNat)
        (whoWord u.thread.dom.toNat u.cur u.me.turnSlot) ss
      rw [read, State.thread_of_some held]
      exact .of_eq rfl rfl
    · cases run
  stop u x v within run := by
    unfold srcs at run
    dsimp only at run
    split at run <;> cases run
    exact within

theorem src_stays (a : Spec) : M.Stays (State.Within m s) (src a) := .bind (srcs_stays _) fun _ => .pure _

theorem write_stays {d : Spec} (own : d.toNat ∈ m.regs) (v : Word) : M.Stays (State.Within m s) (write d v) :=
  .moves (fun _ => rfl) fun u => by
    by_cases g : d.toNat < 32
    · rw [State.write_g g]
      exact .modThread fun a _ => .setG a own v
    · by_cases bank : d.toNat < 48
      · rw [State.write_h (by omega) bank]
        exact .aside rfl
      · rw [State.write_none (by omega)]
        exact .refl u

theorem emptyG_stays (d : Nat) : M.Stays (State.Within m s) (emptyG d) :=
  .moves (fun _ => rfl) fun _ => .modThread fun a _ => .emptyG a d

theorem fresh_stays : M.Stays (State.Within m s) fresh := .moves (fun _ => rfl) fun _ => .of_spoken rfl

/-- The status of a command goes to the issuing thread. -/
theorem targetOf_stays {a : Thread} (held : s.thread? = some a) (d scope : Nat) :
    M.Ends (State.Within m s) (targetOf d scope) (fun t u => State.Within m s u ∧ (t.tid = a.tid ∧ t.d = d))
      (State.Within m s) := by
  refine .bind fresh_stays fun id => .bind (Q := fun t u => State.Within m s u ∧ t.tid = a.tid)
    (.of_ok (fun _ => rfl) fun u within => ?_) fun t => .pure fun u h => ⟨h.1, h.2, rfl⟩
  obtain ⟨b, there, kept⟩ := within.thread a held
  rw [State.thread_of_some there]
  exact ⟨within, kept.tid⟩

theorem countWindow_stays (x : Nat) : M.Stays (State.Within m s) (countWindow x) :=
  .moves (fun _ => rfl) fun _ => .aside (Core.count_spoken ..)

theorem release_stays (scope : Nat) : M.Stays (State.Within m s) (release scope) :=
  .bind afterAll_stays fun _ => modify_stays fun _ => .release rfl ..

theorem engStart_stays (rs : List (Nat × Nat × Bool)) : M.Stays (State.Within m s) (engStart rs) :=
  .bind afterAll_stays fun _ => modify_stays fun _ => .engIssue rfl ..

theorem sendFill_stays (d : Nat) (v : Word) (bad : Bool) (ea : Nat) : M.Stays (State.Within m s) (sendFill d v bad ea) :=
  .bind thread_stays fun _ => .bind (emptyG_stays d) fun _ => modMe_stays fun _ => rfl

theorem Thread.watchAll_within (t : Thread) (saving : Bool) (kind : Nat) (ls : List Lane) :
    t.Within m (t.watchAll saving kind ls) := by
  have one (t : Thread) (i : Nat) : t.Within m (t.watchOne saving kind ls i) := by
    unfold Thread.watchOne
    split
    · exact .refl t
    · split
      · exact .of_eq rfl rfl
      · exact .refl t
  exact (one t 0).trans (one _ 1)

theorem watch_stays (kind : Nat) (ls : List Lane) : M.Stays (State.Within m s) (watch kind ls) :=
  .moves (fun _ => rfl) fun _ => .modThread fun t _ => t.watchAll_within ..

theorem lost_within (u v : State) (h : u.PortsOnly v) (within : State.Within m s u) : State.Within m s v :=
  within.trans (.ports h)

/-- The place that a store address names. -/
theorem threadStore_stays (x n al cause sub : Nat) (write : Bool) :
    M.Ends (State.Within m s) (threadStore x n al cause sub write)
      (fun p u => State.Within m s u ∧ p = storeLoc s.cur x) (State.Within m s) := by
  refine .bindFact (F := (· = storeLoc s.cur x)) ?_ fun p place => .bind (M.Stays.need ..) fun _ => .bind (noRangeHit_stays ..) fun _ =>
    .bind (afterInit_stays _) fun _ => .bind (countWindow_stays x) fun _ => .pure fun u within => ⟨within, place⟩
  refine ⟨fun u p v within run => ?_, (storeCheck_stays x n).stop⟩
  unfold storeCheck at run
  split at run <;> cases run
  exact ⟨within, by rw [within.cur]⟩

/-- A block that is read holds the bytes of before, where nothing of a store has been cleared. -/
theorem blockAt_stays (d : Nat) (p : Nat × Nat) (n : Nat) :
    M.Ends (State.Within m s) (blockAt d p n)
      (fun r u => State.Within m s u ∧ ((∀ off, ¬ m.cleared off) → ∀ b ∈ r, b = s.rdStore p.1 p.2 n))
      (State.Within m s) := by
  refine .bind (packetFails_stays lost_within ..) fun failed => ?_
  cases failed
  · refine .bind (watch_stays ..) fun _ => .bind (Q := fun v u => State.Within m s u ∧ v = u)
      (.of_ok (fun _ => rfl) fun u within => ⟨within, rfl⟩) fun v => .pure ?_
    rintro u ⟨within, rfl⟩
    refine ⟨within, ?_⟩
    rintro whole b ⟨⟩
    exact List.map_congr_left fun i _ => within.stores p.1 _ fun own => whole _ own.2
  · exact .bind (sendFill_stays ..) fun _ => .pure fun u within => ⟨within, by simp⟩

theorem modeOf_stays (rnd : Nat) : M.Stays (State.Within m s) (modeOf rnd) := .bind thread_stays fun _ => .pure _

theorem draws_stays (mode n : Nat) : M.Stays (State.Within m s) (draws mode n) :=
  .moves (f := fun u => (u.drawn mode n).1) (g := fun u => (u.drawn mode n).2) (fun _ => rfl) fun u => by
    unfold State.drawn
    split
    · dsimp only
      obtain ⟨r, st⟩ := drawList n (u.me.rngOf u.thread.dom.toNat)
      exact .aside (Core.count_spoken { u.me with rng := Tab.set 1 u.me.rng u.thread.dom.toNat st } ..)
    · exact .refl u

theorem alignedAt_stays (seg off al : Nat) : M.Stays (State.Within m s) (alignedAt seg off al) :=
  .bind thread_stays fun _ => .need ..

end

end Sys2Proof.Machine
end

section
/-! SUPPORT. The effects of the matrix instructions and of the copies (class 4, R222 to R250): what they leave of the issuing
thread and of memory. -/

namespace Sys2Proof.Machine

/-! ### Changes of the core's queues and tables -/

theorem Core.addRange_spoken (k : Core) (e : RangeEnt) : (k.addRange e).spoken = k.spoken := by
  unfold Core.addRange
  split <;> rfl

theorem Core.addRanges_spoken (k : Core) (t : Target) (rs : List (Nat × Nat × Bool)) :
    (k.addRanges t rs).spoken = k.spoken := by
  unfold Core.addRanges
  induction rs generalizing k with
  | nil => rfl
  | cons r rs ih => exact (ih _).trans (Core.addRange_spoken ..)

theorem Core.claim_spoken (k : Core) (w : MmaWord) : (k.claim w).spoken = k.spoken := rfl

theorem Core.mmaEnter_spoken (k : Core) (core : Nat) (t : Target) (w : MmaWord) (zero : Bool) (sa sb : BitVec 32) :
    (k.mmaEnter core t w zero sa sb).spoken = k.spoken :=
  (Core.claim_spoken (k.addRanges t (k.mmaRanges core w)) w).trans (Core.addRanges_spoken ..)

section
variable {m : Reach} {s : State} {a : Thread}

theorem accOf_stays (acc : Nat) : M.Stays (State.Within m s) (accOf acc) :=
  .bind core_stays fun _ => .bind thread_stays fun _ => .need ..

theorem ringOf_stays (r : Nat) : M.Stays (State.Within m s) (ringOf r) :=
  .bind core_stays fun _ => .bind thread_stays fun _ => .bind (.need ..) fun _ => .pure _

/-! ### The matrix instructions -/

section
variable (held : s.thread? = some a)
include held

theorem mma_stays (x : FmtT) (zero : Bool) : M.Stays (State.Within m s) (mma x zero) := by
  refine .bind (waitDst_stays _) fun _ => .bind core_stays fun k => .bind thread_stays fun t => ?_
  cases k.mmaCheck t.dom.toNat (mmaOf x) with
  | some sub => exact .raise_bind ..
  | none =>
    exact .bind (.waitFor ..) fun _ => .bind (.need ..) fun _ => .bind afterAll_stays fun _ =>
      .bindFact (targetOf_stays held ..) fun _ _ => .bind (emptyG_stays _) fun _ =>
      modify_stays fun u => .aside (Core.mmaEnter_spoken ..)

variable {t : State}

theorem mzero_within {x : FmtT} (run : exec (.mzero x) s = .next t) : State.Within m s t :=
  .issued run <| .bind (waitDst_stays _) fun _ => .bind (accOf_stays _) fun _ => .bind core_stays fun _ =>
    .bind thread_stays fun _ => .bind (.waitFor ..) fun _ => .bind afterAll_stays fun _ =>
    .bindFact (targetOf_stays held ..) fun _ _ => .bind (emptyG_stays _) fun _ => modMe_stays fun _ => rfl

theorem mdrn_within {x : FmtT} (run : exec (.mdrn x) s = .next t) : State.Within m s t := by
  refine .issued run <| .bind (waitDst_stays _) fun _ => .bind (srcs_stays _) fun vs => .bind (accOf_stays _) fun _ =>
    .bind (alignedAt_stays ..) fun _ => .bind (segOf_stays ..) fun ea => .optional _ (alignedAt_stays ..) ?_
  exact .chosen _ (segOf_stays ..) fun am => .bind thread_stays fun _ => .bind core_stays fun _ => .bind (.waitFor ..) fun _ =>
    .bind (.waitFor ..) fun _ => .bind (modeOf_stays _) fun _ => .bind (draws_stays ..) fun _ =>
    .bindFact (targetOf_stays held ..) fun _ _ => .bind (engStart_stays _) fun _ => .bind (emptyG_stays _) fun _ =>
    modMe_stays fun _ => Core.addRanges_spoken ..

theorem mlda_within {x : FmtT} (run : exec (.mlda x) s = .next t) : State.Within m s t :=
  .issued run <| .bind (waitDst_stays _) fun _ => .bind (src_stays _) fun _ => .bind (accOf_stays _) fun _ =>
    .bind (alignedAt_stays ..) fun _ => .bind (segOf_stays ..) fun _ => .bind thread_stays fun _ =>
    .bind core_stays fun _ => .bind (.waitFor ..) fun _ => .bind (.waitFor ..) fun _ =>
    .bindFact (targetOf_stays held ..) fun _ _ => .bind (engStart_stays _) fun _ => .bind (emptyG_stays _) fun _ =>
    modMe_stays fun _ => Core.addRanges_spoken ..

/-! ### The copies -/

theorem copyCmd_stays (x : FmtT) (fill followed : Bool) : M.Stays (State.Within m s) (copyCmd x fill followed) := by
  refine .bind (waitDst_stays _) fun _ => .bind (srcs_stays _) fun vs => .bind (waitDst_stays _) fun _ =>
    .bindFact (threadStore_stays ..) fun p _ => .bindFact (blockAt_stays ..) fun block _ => ?_
  cases block with
  | none => exact .pure ()
  | some bs =>
    exact .bind thread_stays fun _ => .bind core_stays fun _ => .bind (.need ..) fun _ => .bind (.need ..) fun _ =>
      .either _ (.pure _) (segOf_stays ..) fun _ => .either _ (.pure _) (segOf_stays ..) fun _ => .bind (.waitFor ..) fun _ =>
      .bind (.waitFor ..) fun _ => .bind (.reads fun _ => rfl) fun _ => .bindFact (targetOf_stays held ..) fun _ _ =>
      .bind (engStart_stays _) fun _ => .bind (emptyG_stays _) fun _ => .bind (emptyG_stays _) fun _ =>
      modMe_stays fun _ => Core.addRanges_spoken ..

end

theorem mscl_within {x : FmtT} {t : State} (own : x.d.toNat ∈ m.regs) (run : exec (.mscl x) s = .next t) :
    State.Within m s t :=
  .issued run <| .bind (waitDst_stays _) fun _ => .bind (src_stays _) fun _ => .bind (ringOf_stays _) fun _ =>
    .bind (modMe_stays fun _ => rfl) fun _ => write_stays own _

end

end Sys2Proof.Machine
end

section
/-! SUPPORT. The effects of the ring, range, barrier and receive instructions (class 5, R225 to R233, R318 to R323): what they
leave of the issuing thread and of memory. -/

namespace Sys2Proof.Machine

variable {m : Reach} {s t : State} {a : Thread}

/-! ### A value of the state -/

/-- The rest of an effect, from the state that it has looked at. -/
theorem get_stays {α : Type} {f : State → M α}
    (rest : ∀ v, State.Within m s v → M.Ends (· = v) (f v) (fun _ => State.Within m s) (State.Within m s)) :
    M.Stays (State.Within m s) (get >>= f) where
  ok u x v within run := (rest u within).ok u x v rfl run
  stop u x v within run := (rest u within).stop u x v rfl run

/-! ### Rings and ranges (R225 to R229) -/

theorem rngini_within {x : FmtT} (own : x.d.toNat ∈ m.regs) (run : exec (.rngini x) s = .next t) : State.Within m s t :=
  .issued run <| .bind (waitDst_stays _) fun _ => .bind (srcs_stays _) fun _ => .bind (ringOf_stays _) fun _ =>
    .bind core_stays fun _ => .bind thread_stays fun _ => .bind (.need ..) fun _ => .bind (.need ..) fun _ =>
    .bind (storeCheck_stays ..) fun _ => .bind (modMe_stays fun _ => rfl) fun _ => write_stays own _

theorem rngpop_within {x : FmtT} (own : x.d.toNat ∈ m.regs) (run : exec (.rngpop x) s = .next t) : State.Within m s t :=
  .issued run <| .bind (waitDst_stays _) fun _ => .bind (ringOf_stays _) fun _ => .bind (.need ..) fun _ =>
    .ite _ (.bind (modMe_stays fun _ => rfl) fun _ => write_stays own _) (write_stays own _)

theorem rngadv_within {x : FmtT} (own : x.d.toNat ∈ m.regs) (run : exec (.rngadv x) s = .next t) : State.Within m s t :=
  .issued run <| .bind (waitDst_stays _) fun _ => .bind (ringOf_stays _) fun _ => .bind (.need ..) fun _ =>
    .bind core_stays fun _ => .ite _ (.bind (modMe_stays fun _ => rfl) fun _ => write_stays own _) (write_stays own _)

theorem rngq_within {x : FmtT} (own : x.d.toNat ∈ m.regs) (run : exec (.rngq x) s = .next t) : State.Within m s t :=
  .issued run <| .bind (waitDst_stays _) fun _ => .bind (ringOf_stays _) fun _ => write_stays own _

theorem rlck_within {x : FmtT} (own : x.d.toNat ∈ m.regs) (run : exec (.rlck x) s = .next t) : State.Within m s t :=
  .issued run <| .bind (waitDst_stays _) fun _ => .bind (srcs_stays _) fun _ => .ite _ (write_stays own _) <|
    .bind (segOf_stays ..) fun _ => .bind thread_stays fun _ => .bind core_stays fun _ =>
    .ite _ (.bind fresh_stays fun _ => .bind (modMe_stays fun _ => Core.addRange_spoken ..) fun _ => write_stays own _)
      (write_stays own _)

theorem rfree_within {x : FmtT} (run : exec (.rfree x) s = .next t) : State.Within m s t :=
  .issued run <| .bind (waitDst_stays _) fun _ => .bind (src_stays _) fun _ => .bind thread_stays fun _ =>
    .bind core_stays fun _ => .bind (.need ..) fun _ => .bind (release_stays _) fun _ => .bind fresh_stays fun _ =>
    .bind (emptyG_stays _) fun _ => modMe_stays fun _ => rfl

/-! ### Barriers (R231 to R233) -/

theorem barrierSent_stays (d : Nat) (p : Nat × Nat) : M.Stays (State.Within m s) (barrierSent d p) :=
  .bind (packetFails_stays lost_within ..) fun _ => .ite _ (.bind (sendFill_stays ..) fun _ => .pure _) (.pure _)

theorem barinit_within {x : FmtT} (held : s.thread? = some a) (run : exec (.barinit x) s = .next t) : State.Within m s t :=
  .issued run <| .bind (waitDst_stays _) fun _ => .bind (srcs_stays _) fun _ => .bindFact (threadStore_stays ..) fun _ _ =>
    .bind (.need ..) fun _ => .bindFact (targetOf_stays held ..) fun _ _ => .bind (release_stays _) fun _ =>
    .bind (barrierSent_stays ..) fun _ => .ite _ (.bind (emptyG_stays _) fun _ => modify_stays fun _ => .of_spoken rfl) (.pure ())

theorem bararv_within {x : FmtT} (held : s.thread? = some a) (run : exec (.bararv x) s = .next t) : State.Within m s t :=
  .issued run <| .bind (waitDst_stays _) fun _ => .bind (src_stays _) fun _ => .bindFact (threadStore_stays ..) fun _ _ =>
    .bindFact (targetOf_stays held ..) fun _ _ => .bind (release_stays _) fun _ => .bind (barrierSent_stays ..) fun _ =>
    .ite _ (.bind (emptyG_stays _) fun _ => .bind (.moves (fun _ => rfl) fun _ => .modThread fun _ _ => .of_eq rfl rfl) fun _ =>
      modify_stays fun _ => .of_spoken rfl) (.pure ())

/-- A thread stands on a slot of its core. -/
theorem Core.slotOf_of_threadAt {k : Core} {i : Nat} {a : Thread} (lt : i < 8) (held : k.threadAt i = some a) :
    ∃ j, k.slotOf a.tid = some j :=
  Option.isSome_iff_exists.mp (List.find?_isSome.mpr ⟨i, List.mem_range.mpr lt, by simp [held]⟩)

/-- A fill of the issuing thread. -/
theorem State.Within.fillOwn (held : s.thread? = some a) {d : Nat} (reg : d ∈ m.regs) (v : Word) :
    State.Within m s (s.fillG s.cur a.tid d v) := by
  obtain ⟨j, slot⟩ := Core.slotOf_of_threadAt s.me.turnSlot_lt held
  exact .fillSlot rfl slot reg v

theorem State.Within.barwtEnd (held : s.thread? = some a) {w : BarWait} (own : w.t.tid = a.tid) (reg : w.t.d ∈ m.regs)
    (late : Bool) : State.Within m s (s.barwtEnd s.cur w late) := by
  unfold State.barwtEnd
  generalize s.barrierNow w = now
  obtain ⟨ph, er⟩ := now
  dsimp only
  generalize hu : (if s.objectThere w then s else { s with free := s.free + 1 }) = u
  have first : State.Within m s u := by
    subst hu
    split
    · exact .refl s
    · exact .of_spoken rfl
  generalize hv : (if ph ≠ w.phase ∧ er = 0 then u.acquire s.cur w.t.dom w.t.scope else u) = v
  have second : State.Within m s v := by
    subst hv
    split
    · exact first.trans (.acquire first.cur.symm ..)
    · exact first
  obtain ⟨b, there, kept⟩ := second.thread a held
  rw [← second.cur, own, ← kept.tid]
  exact second.trans (.fillOwn there reg _)

theorem barwt_within {x : FmtT} (own : x.d.toNat ∈ m.regs) (held : s.thread? = some a) (run : exec (.barwt x) s = .next t) :
    State.Within m s t := by
  refine .issued run <| .bind (waitDst_stays _) fun _ => .bind (srcs_stays _) fun _ => .bindFact (threadStore_stays ..)
    fun p _ => .bindFact (targetOf_stays held ..) fun tg mine => .bind core_stays fun k => .bind (barrierSent_stays ..) fun sent => ?_
  cases sent
  · exact .pure ()
  · refine .bind (watch_stays ..) fun _ => .bind (emptyG_stays _) fun _ => get_stays fun v within => ?_
    obtain ⟨b, there, kept⟩ := within.thread a held
    have ends (late : Bool) {w : BarWait} (mine : w.t.tid = a.tid ∧ w.t.d = x.d.toNat) :
        M.Ends (· = v) (set (v.barwtEnd v.cur w late) : M Unit) (fun _ => State.Within m s) (State.Within m s) :=
      .of_ok (f := fun _ => ()) (fun _ => rfl) fun _ _ =>
        within.trans (.barwtEnd there (mine.1.trans kept.tid.symm) (mine.2 ▸ own) late)
    split
    · exact ends false mine
    · split
      · exact ends true mine
      · exact .of_ok (fun _ => rfl) fun _ here => here ▸ within.trans (.aside rfl)

/-! ### Receive queues (R319 to R323) -/

theorem State.Within.sendPkt (s : State) (dom : Byte) (package dst : Nat) (kind : PktKind) (unread : Option (Nat × Nat)) :
    State.Within m s (s.sendPkt dom package dst kind unread) := .of_spoken rfl

theorem rtret_within {x : FmtT} (held : s.thread? = some a) (run : exec (.rtret x) s = .next t) : State.Within m s t := by
  refine .issued run <| .bind (waitDst_stays _) fun _ => .bind (srcs_stays _) fun _ => .bind (.need ..) fun _ =>
    .bind thread_stays fun _ => .bind (.reads fun _ => rfl) fun _ => .bind (.reads fun _ => rfl) fun _ => .ite _ ?_ ?_
  · exact .bind afterAll_stays fun _ => .ite _ (sendFill_stays ..) <| .bindFact (targetOf_stays held ..) fun _ _ =>
      .bind (emptyG_stays _) fun _ => modify_stays fun _ => .sendPkt ..
  · exact .bind (storeCheck_stays ..) fun _ => .bind (.need ..) fun _ => .bind core_stays fun _ => .bind (.waitFor ..) fun _ =>
      .bind afterAll_stays fun _ => .bindFact (targetOf_stays held ..) fun _ _ => .bind (emptyG_stays _) fun _ =>
      .bind (modMe_stays fun _ => Core.addRanges_spoken ..) fun _ => .ite _ (modMe_stays fun _ => rfl)
        (modify_stays fun _ => .sendPkt ..)

theorem rxeos_within {x : FmtT} (held : s.thread? = some a) (run : exec (.rxeos x) s = .next t) : State.Within m s t :=
  .issued run <| .bind (waitDst_stays _) fun _ => .bind thread_stays fun _ => .bind core_stays fun _ =>
    .bind (.need ..) fun _ => .ite _ (sendFill_stays ..) <| .bindFact (targetOf_stays held ..) fun _ _ =>
    .bind (emptyG_stays _) fun _ => modify_stays fun _ => .sendPkt ..

theorem rxbind_within {x : FmtT} (own : x.d.toNat ∈ m.regs) (run : exec (.rxbind x) s = .next t) : State.Within m s t := by
  refine .issued run <| .bind (waitDst_stays _) fun _ => .bind (src_stays _) fun _ => .bind thread_stays fun _ =>
    .bind core_stays fun _ => .bind (.need ..) fun _ => .bind (.need ..) fun _ => .bind (.need ..) fun _ =>
    .bindFact (threadStore_stays ..) fun _ _ => .bindFact (blockAt_stays ..) fun block _ => ?_
  cases block with
  | none => exact .pure ()
  | some b => exact .bind (.need ..) fun _ => .bind (modMe_stays fun _ => rfl) fun _ => write_stays own _

theorem queueOf_stays (n : Nat) : M.Stays (State.Within m s) (queueOf n) := by
  refine .bind core_stays fun k => .bind thread_stays fun _ => .bind (.need ..) fun _ => ?_
  cases k.queueAt n with
  | none => exact .raise ..
  | some q => exact .bind (.need ..) fun _ => .pure _

theorem State.Within.takeLater {s : State} {c : Nat} (own : c = s.cur) (n : Nat) (t : Target) (v : Word) :
    State.Within m s (s.takeLater c n t v) := own ▸ .aside rfl

theorem State.Within.serveTakes {c : Nat} (n fuel : Nat) {s : State} (own : c = s.cur) :
    State.Within m s (s.serveTakes c n fuel) := by
  induction fuel generalizing s with
  | zero => exact .refl s
  | succ fuel ih =>
    subst own
    unfold State.serveTakes
    dsimp only
    split
    next => exact .refl s
    next q found =>
      split
      next t ts p ps _ _ =>
        have handed : State.Within m s (s.modMe fun k => k.setQueue n
          { q with takes := ts, handed := ps, taken := q.taken ++ [p] }) := .aside rfl
        have flushed := handed.trans (.flushRange handed.cur.symm q.dom p.addr
          (p.addr + (Tab.get {} (s.core s.cur).pool q.dom.toNat).size) false)
        have taken := flushed.trans (.takeLater flushed.cur.symm n t (word p.addr))
        exact taken.trans (ih taken.cur.symm)
      next t ts _ _ =>
        split
        · have taken : State.Within m s ((s.modMe fun k => k.setQueue n { q with takes := ts }).takeLater s.cur n t 0) :=
            .trans (.aside rfl) (.takeLater rfl ..)
          exact taken.trans (ih taken.cur.symm)
        · exact .refl s
      next => exact .refl s

theorem rxtake_within {x : FmtT} (held : s.thread? = some a) (run : exec (.rxtake x) s = .next t) : State.Within m s t :=
  .issued run <| .bind (waitDst_stays _) fun _ => .bind (queueOf_stays _) fun _ => .bindFact (targetOf_stays held ..) fun _ _ =>
    .bind (emptyG_stays _) fun _ => .bind (modMe_stays fun _ => rfl) fun _ => modify_stays fun _ => .serveTakes _ _ rfl

theorem rxfree_within {x : FmtT} (run : exec (.rxfree x) s = .next t) : State.Within m s t := by
  refine .issued run <| .bind (waitDst_stays _) fun _ => .bind (src_stays _) fun addr => .bind (queueOf_stays _) fun q => ?_
  cases q.taken.find? (·.addr == addr.toNat) with
  | none => exact .raise ..
  | some p =>
    exact .bind core_stays fun _ => .bind (modify_stays fun _ => .flushRange rfl ..) fun _ =>
      .bind (modMe_stays fun _ => rfl) fun _ =>
      .bind (modify_stays fun _ => .foldl (fun _ _ _ => .sendPkt ..) _ rfl) fun _ => .bind (emptyG_stays _) fun _ =>
      modMe_stays fun _ => rfl

end Sys2Proof.Machine
end

section
/-! SPLQ, SPLINI and ROUTE (R299, R310 to R321), and the theorem that settles O39. -/

namespace Sys2Proof.Machine

variable {m : Reach} {s t : State} {a : Thread}

/-! ### Splices (R310 to R313) -/

theorem Core.spliceAt_setSplice (k : Core) (n n' : Nat) (p : Splice) :
    (k.setSplice n p).spliceAt n' = if n' = n then p else k.spliceAt n' := by
  unfold Core.spliceAt Core.setSplice
  split
  next here => rw [here]; exact Tab.get_put_same ..
  next there => exact Tab.get_put_ne _ _ _ _ _ there

/-- The splice that an instruction finds awaits the command that it awaited before. -/
theorem spliceOf_stays {n : Nat} (same : ¬ m.spliced n) :
    M.Ends (State.Within m s) (spliceOf n) (fun p u => State.Within m s u ∧ p.t = (s.me.spliceAt n).t)
      (State.Within m s) :=
  .bind core_stays fun _ => .bind thread_stays fun _ => .bind (M.Stays.need ..) fun _ =>
    .bind (Q := fun k u => State.Within m s u ∧ k = u.me) (.of_ok (fun _ => rfl) fun _ within => ⟨within, rfl⟩) fun _ =>
    .pure fun _ h => ⟨h.1, h.2 ▸ h.1.target n same⟩

theorem splq_within {x : FmtT} (own : x.d.toNat ∈ m.regs) (same : ¬ m.spliced x.id1.toNat)
    (run : exec (.splq x) s = .next t) : State.Within m s t :=
  .issued run <| .bind (waitDst_stays _) fun _ => .bind (srcs_stays _) fun _ => .bindFact (spliceOf_stays same) fun _ _ =>
    write_stays own _

/-- The status of the command that awaits a splice may be filled. -/
structure Reach.Awaits (m : Reach) (k : Core) (n : Nat) : Prop where
  reg : (k.spliceAt n).t.d ∈ m.regs
  frame : ∀ f ∈ k.saved, f.thread.tid = (k.spliceAt n).t.tid →
    ∀ pa, f.frame < pa + 16 → pa < f.frame + 0x218 + 8 * (k.spliceAt n).t.d → m.bytes pa

theorem State.Within.fillAwaited {u : State} (within : State.Within m s u) {n : Nat} (may : m.Awaits s.me n) (v : Word) :
    State.Within m s (u.fillG s.cur (s.me.spliceAt n).t.tid (s.me.spliceAt n).t.d v) :=
  within.trans (.fillG within.cur.symm may.reg (fun f held => may.frame f (within.saved ▸ held)) v)

/-! ### SPLINI (R320) -/

/-- The first source, read where the effect begins. -/
theorem src_operand (sp : Spec) :
    M.Ends (· = s.started) (src sp) (fun v u => State.Within m s u ∧ v = s.operand [sp] 0) (State.Within m s) := by
  refine .bind (Q := fun vs u => State.Within m s u ∧ vs = (s.reading [sp]).1) ⟨?_, ?_⟩ fun vs => .pure fun u h =>
    ⟨h.1, by rw [h.2]; rfl⟩
  · rintro u vs v rfl run
    refine ⟨(srcs_stays [sp]).ok _ vs v (.started s) run, ?_⟩
    unfold srcs at run
    dsimp only at run
    split at run <;> cases run
    rfl
  · rintro u x v rfl run
    exact (srcs_stays [sp]).stop _ x v (.started s) run

/-- The output tile of a splice that SPLINI makes ready of the block at address `x`. -/
def State.outputTile (s : State) (x off : Nat) : Prop :=
  let p := storeLoc s.cur x
  let q := Splice.ofBytes (s.rdStore p.1 p.2 32)
  let o := (storeLoc s.cur q.out).2
  o ≤ off ∧ off < o + q.rows * q.cols * 4

/-- Before the output is cleared. -/
def Reach.before (m : Reach) : Reach := { m with cleared := fun _ => False, spliced := fun _ => False }

theorem State.Within.of_before {u : State} (h : State.Within m.before s u) : State.Within m s u :=
  h.mono rfl rfl (fun _ => False.elim) fun _ => False.elim

/-- The output is cleared, and the splice stands for the SPLINI. -/
theorem State.Within.makeReady {g : Core → Core} (same : (g s.me).spoken = s.me.spoken) {lo hi n : Nat} {p : Splice}
    (tile : ∀ off, lo ≤ off → off < hi → m.cleared off) (mine : m.spliced n) :
    State.Within m s (s.modMe fun k => ((g k).clearStore lo hi).setSplice n p) := by
  simp only [Core.spoken, Core.framed, Prod.mk.injEq] at same
  obtain ⟨⟨cycle, slots, saved, h, lines, store⟩, splice⟩ := same
  refine .modMe ?_ ?_ (fun l held _ => lines ▸ held) (fun off out => ?_) fun n' other => ?_
  · exact congrArg₂ _ cycle (congrArg₂ _ saved h)
  · exact congrArg (fun z => (rd z s.me.turnSlot {}).thread) slots
  · have apart : off < lo ∨ hi ≤ off := by
      by_contra inside
      exact out (tile off (by omega) (by omega))
    have cleared := Tab.get_filter_key 0 (g s.me).store (fun o => o < lo || hi ≤ o) off
    rw [if_pos (by simpa using apart), store] at cleared
    rw [← cleared, ← store]
    rfl
  · have apart : n' ≠ n := by
      rintro rfl
      exact other mine
    rw [Core.spliceAt_setSplice, if_neg apart]
    exact congrArg (fun z => (Tab.get {} z n').t) splice

theorem get_cur : M.Ends (State.Within m s) (get : M State) (fun v u => State.Within m s u ∧ v.cur = s.cur)
    (State.Within m s) := .of_ok (fun _ => rfl) fun _ h => ⟨h, h.cur⟩

theorem splini_within {x : FmtT} (held : s.thread? = some a)
    (may : m.Awaits s.me x.id1.toNat) (tile : ∀ off, s.outputTile (s.operand [x.a] 0).toNat off → m.cleared off)
    (mine : m.spliced x.id1.toNat) (run : exec (.splini x) s = .next t) : State.Within m s t := by
  have may' : m.before.Awaits s.me x.id1.toNat := ⟨may.reg, may.frame⟩
  refine .outcome (M.Ends.weaken (E := State.Within m.before s) ?_ (fun _ h => h) (fun _ _ => id) fun _ => .of_before) run
  refine .bind (M.Ends.weaken (waitDst_stays _) (fun _ h => h) (fun _ _ => id) fun _ here => here ▸ .started s) fun _ =>
    .bindFact (src_operand x.a) fun v operand => .bindFact (spliceOf_stays not_false) fun old awaits =>
    .bind (M.Stays.need ..) fun _ => .bindFact get_cur fun u cur => ?_
  refine .optional _ (.changes (fun _ => rfl) fun w within => ?_) ?_
  · rw [cur, awaits]
    have freed : State.Within m.before s (w.modCore s.cur fun k => k.freeRanges (s.me.spliceAt x.id1.toNat).t.id) :=
      within.trans (within.cur ▸ .aside rfl)
    exact freed.fillAwaited may' 3
  refine .bindFact (threadStore_stays ..) fun bp place => .bindFact (blockAt_stays ..) fun block bytes => ?_
  cases block with
  | none => exact .pure fun _ h => h.of_before
  | some b =>
    refine .bind (M.Stays.reads fun _ => rfl) fun s0 => .bind thread_stays fun th => .bind (M.Stays.need ..) fun _ =>
      .bind (release_stays _) fun _ => .bind (M.Stays.waitFor ..) fun _ => .bind (waitDst_stays _) fun _ =>
      .bindFact (targetOf_stays held ..) fun tg _ => .bind (Q := fun _ => State.Within m s) (.of_ok (fun _ => rfl) fun w within => ?_)
      fun _ => .of_ok (fun _ => rfl) fun _ within => within.trans (.modThread fun b _ => .emptyG b _)
    refine within.of_before.trans (.makeReady (g := fun k => k.addRanges tg _) (Core.addRanges_spoken ..) ?_ mine)
    rw [bytes (fun _ => not_false) b rfl, place, operand, cur]
    exact fun off lo hi => tile off ⟨lo, hi⟩

/-! ### ROUTE (R318) -/

/-- A splice that awaits the same command takes its place. -/
theorem State.Within.setSplice {f : Core → Core} {n : Nat} {p : Splice} {ps : Tab Splice}
    (same : (f s.me).framed = s.me.framed) (splice : (f s.me).splice = ps.put n p) (before : ps = s.me.splice) (awaits : p.t = (s.me.spliceAt n).t) :
    State.Within m s (s.modMe f) := by
  simp only [Core.framed, Prod.mk.injEq] at same
  obtain ⟨cycle, slots, saved, h, lines, store⟩ := same
  refine .modMe (by rw [cycle, saved, h]) ?_ (fun l held _ => lines ▸ held) (fun off _ => by rw [store]) fun n' _ => ?_
  · exact congrArg (fun z => (rd z s.me.turnSlot {}).thread) slots
  · have found : (f s.me).spliceAt n' = (s.me.setSplice n p).spliceAt n' := by
      rw [Core.spliceAt, splice, before]
      rfl
    rw [found, Core.spliceAt_setSplice]
    split
    next here => rw [here, awaits]
    next => rfl

theorem State.fillG_routes (s : State) (c tid d : Nat) (v : Word) (j : Nat) :
    ((s.fillG c tid d v).core j).routes = (s.core j).routes := by
  unfold State.fillG
  dsimp only
  split
  · rw [State.core_setCore]
    split
    next here => rw [here]; rfl
    next => rfl
  · split
    · split
      · rfl
      · split
        · exact (congrArg Core.routes ((State.PortsOnly.packetLost ..).2 j).1).trans rfl
        · rw [State.wrRaw_eq, State.wrRaw_eq]
          rfl
    · rfl

theorem State.spliceEnd_routes (s : State) (c n code : Nat) :
    ((s.spliceEnd c n code).core c).routes = (s.core c).routes :=
  (State.fillG_routes ..).trans (by rw [State.core_modCore_same]; rfl)

theorem State.Within.spliceEnd {u : State} (within : State.Within m s u) {n : Nat} (may : m.Awaits s.me n)
    (same : ¬ m.spliced n) (code : Nat) : State.Within m s (u.spliceEnd s.cur n code) := by
  have awaits : (u.me.spliceAt n).t = (s.me.spliceAt n).t := within.target n same
  unfold State.spliceEnd
  rw [← within.cur]
  have ended : State.Within m s (u.modMe fun k => (k.freeRanges (u.me.spliceAt n).t.id).setSplice n
      { u.me.spliceAt n with state := 0, deadline := none }) :=
    within.trans (.setSplice rfl rfl rfl rfl)
  have filled := ended.fillAwaited may ((u.me.spliceAt n).report code)
  rw [← awaits, ← within.cur] at filled
  exact filled

/-- The last command of the route port ends. -/
theorem State.Within.routeEnd {u : State} (within : State.Within m s u) (held : s.thread? = some a) {rs : List RouteCmd}
    {r : RouteCmd} (last : u.me.routes = rs ++ [r]) (own : r.t.tid = a.tid) (reg : r.t.d ∈ m.regs) :
    State.Within m s (u.routeEnd s.cur rs.length) := by
  have found : (u.core s.cur).routes[rs.length]? = some r := by
    rw [← within.cur]
    exact last ▸ List.getElem?_concat_length ..
  unfold State.routeEnd
  rw [found]
  dsimp only
  have freed : State.Within m s (u.modCore s.cur fun k =>
      { k.freeRanges r.t.id with routes := k.routes.eraseIdx rs.length }) := within.trans (within.cur ▸ .aside rfl)
  obtain ⟨b, there, kept⟩ := freed.thread a held
  rw [own, ← kept.tid]
  exact freed.trans (freed.cur ▸ .fillOwn there reg _)

theorem route_within {x : FmtT} (held : s.thread? = some a) (own : x.d.toNat ∈ m.regs) (may : m.Awaits s.me x.id1.toNat)
    (same : ¬ m.spliced x.id1.toNat) (run : exec (.route x) s = .next t) : State.Within m s t := by
  refine .issued run <| .bind (waitDst_stays _) fun _ => .bind (srcs_stays _) fun vs => .bindFact (spliceOf_stays same)
    fun p awaits => .bind (.need ..) fun _ => .bind (storeCheck_stays ..) fun at_ => .bind (storeCheck_stays ..) fun _ =>
    .bind (.need ..) fun _ => .bindFact (threadStore_stays ..) fun vp _ => .bindFact (blockAt_stays ..) fun block _ => ?_
  cases block with
  | none => exact .pure ()
  | some recs =>
    refine .bind (.need ..) fun _ => .bind thread_stays fun th => .bind core_stays fun k => .bind (.waitFor ..) fun _ =>
      .bind afterAll_stays fun _ => .bindFact (targetOf_stays held ..) fun tg mine => .bind (emptyG_stays _) fun _ => ?_
    have kept (l : List (Nat × Nat × Word)) (p : Splice) : (l.foldl (fun (p : Splice) q =>
        p.setSlot q.1 q.2.1 { status := 1, weight := q.2.2.extractLsb' 0 32 }) p).t = p.t := by
      induction l generalizing p with
      | nil => rfl
      | cons q r ih => exact (ih _).trans rfl
    refine M.Ends.bind (Q := fun _ u => State.Within m s u ∧ ∃ rs r, u.me.routes = rs ++ [r] ∧ r.t.tid = a.tid
      ∧ r.t.d = x.d.toNat) (.of_ok (fun _ => rfl) fun u within => ⟨within.trans ?_, ?_⟩) fun _ => ?_
    · have added := Core.addRanges_spoken u.me tg
        [(winAddr at_.1 at_.2, winAddr at_.1 at_.2 + p.rows * (p.cols * elSize p.stype), false)]
      refine .setSplice (congrArg Prod.fst added) rfl (congrArg Prod.snd added) ?_
      exact (kept _ _).trans (awaits.trans (within.target _ same).symm)
    · exact ⟨u.me.routes, _, congrArg Core.routes (State.me_modMe ..), mine⟩
    · split
      · refine .of_ok (fun _ => rfl) ?_
        rintro u ⟨within, rs, r, last, own', reg⟩
        have length : u.me.routes.length - 1 = rs.length := by simp [last]
        rw [length, within.cur]
        have ended := within.spliceEnd may same 0
        refine ended.routeEnd held ?_ own' (reg ▸ own)
        rw [State.me, ended.cur, State.spliceEnd_routes, ← within.cur]
        exact last
      · exact .pure fun _ h => h.1

/-! ### The frame of classes 4 and 5 -/

/-- Only the instruction's own status register changes. -/
def Reach.own (x : FmtT) : Reach where
  regs := [x.d.toNat]
  bytes := fun _ => False
  cleared := fun _ => False
  spliced := fun _ => False

/-- What an instruction of splice `n` may change beside the output that it clears. -/
def Reach.ofSplice (k : Core) (n d : Nat) (cleared spliced : Nat → Prop) : Reach where
  regs := [d, (k.spliceAt n).t.d]
  bytes := fun pa => ∃ f ∈ k.saved, f.thread.tid = (k.spliceAt n).t.tid
    ∧ f.frame < pa + 16 ∧ pa < f.frame + 0x218 + 8 * (k.spliceAt n).t.d
  cleared
  spliced

theorem Reach.ofSplice_awaits (k : Core) (n d : Nat) (cleared spliced : Nat → Prop) :
    (Reach.ofSplice k n d cleared spliced).Awaits k n where
  reg := by simp [Reach.ofSplice]
  frame f held mine _ lo hi := ⟨f, held, mine, lo, hi⟩

/-- Settles O39: each instruction's effect is taken apart into steps that keep within its reach, and so are its stops. -/
theorem commandFrame : Obligations.CommandFrame := by
  unfold Obligations.CommandFrame
  intro i s t a held run memory never frame tile keeps
  have framed {m : Reach} (within : State.Within m s t) : keeps m.regs ∧ memory m.bytes m.cleared := by
    obtain ⟨b, there, kept, regs⟩ := within.thread a held
    simp only [Thread.kept, Prod.mk.injEq] at kept
    obtain ⟨-, -, f, c, v, masks, pend, seg, cfg, ident, csp, hndl⟩ := kept
    have bank : t.me.h = s.me.h := congrArg (·.2.2.2.2.2) within.anchors
    exact ⟨⟨b, there, f, c, v, masks, pend, seg, cfg, ident, csp, hndl, bank, regs⟩, within.bytes, within.stores⟩
  have own (x : FmtT) : x.d.toNat ∈ (Reach.own x).regs := List.mem_singleton_self _
  cases i with
  | mma x => exact framed (m := .own x) (.issued run (mma_stays held x false))
  | mmaz x => exact framed (m := .own x) (.issued run (mma_stays held x true))
  | mzero x => exact framed (m := .own x) (mzero_within held run)
  | mdrn x => exact framed (m := .own x) (mdrn_within held run)
  | mlda x => exact framed (m := .own x) (mlda_within held run)
  | mscl x => exact framed (mscl_within (own x) run)
  | cpy x => exact framed (m := .own x) (.issued run (copyCmd_stays held x false false))
  | cpym x => exact framed (m := .own x) (.issued run (copyCmd_stays held x false true))
  | cpyf x => exact framed (m := .own x) (.issued run (copyCmd_stays held x true false))
  | rngini x => exact framed (rngini_within (own x) run)
  | rngpop x => exact framed (rngpop_within (own x) run)
  | rngadv x => exact framed (rngadv_within (own x) run)
  | rngq x => exact framed (rngq_within (own x) run)
  | rlck x => exact framed (rlck_within (own x) run)
  | rfree x => exact framed (m := .own x) (rfree_within run)
  | barinit x => exact framed (m := .own x) (barinit_within held run)
  | bararv x => exact framed (m := .own x) (bararv_within held run)
  | barwt x => exact framed (barwt_within (own x) held run)
  | rtret x => exact framed (m := .own x) (rtret_within held run)
  | splq x => exact framed (splq_within (own x) not_false run)
  | rxbind x => exact framed (rxbind_within (own x) run)
  | rxfree x => exact framed (m := .own x) (rxfree_within run)
  | rxeos x => exact framed (m := .own x) (rxeos_within held run)
  | rxtake x => exact framed (m := .own x) (rxtake_within held run)
  | route x =>
    exact framed (route_within held (List.mem_cons_self ..) (Reach.ofSplice_awaits s.me _ x.d.toNat (fun _ => False)
      fun _ => False) not_false run)
  | splini x =>
    exact framed (splini_within held (Reach.ofSplice_awaits s.me _ x.d.toNat (s.outputTile (s.operand [x.a] 0).toNat)
      fun _ => True) (fun _ => id) trivial run)
  | _ => trivial

end Sys2Proof.Machine
end

section
/-! What reset leaves: the theorem that settles O59, and SUPPORT for it (R72, R201, R397, R398). -/

namespace Sys2Proof.Machine

/-- After reset a core is as the boot ROM leaves it, but for the slots of core 0. -/
theorem reset_core (c : Nat) : State.reset.core c =
    { Core.boot with slots := if c = 0 then Core.boot.slots.set 0 { thread := some Thread.boot } else Core.boot.slots } := by
  by_cases zero : c = 0
  · subst zero; rfl
  · have other : ¬ 0 = c := fun h => zero h.symm
    simp [State.core, State.reset, Tab.get, zero, other]
    rfl

/-- At boot domain 0 has every slot, bank, accumulator and cue entry, and the whole of what is shared out. -/
theorem boot_shares : let k := Core.boot
    k.slotMask 0 = 0xFF ∧ k.hbank 0 = 0 ∧ k.accMask 0 = 0xF ∧ k.bankBase 0 = 0 ∧ k.bankCount 0 = 44 ∧ k.cueBase 0 = 0
      ∧ k.cueCount 0 = 1024 ∧ k.cueQuota 0 = 64 ∧ k.dequeShare 0 = 64 ∧ k.copyShare 0 = 16 ∧ k.matShare 0 = 8
      ∧ k.rangeQuota 0 = 32 := by
  decide

/-- At boot domain 0 has all rings, splice tables and receive queues. -/
theorem boot_ranges (i : Nat) (lt : i < 16) :
    inRange i (fld bootPart1 8 4) (fld bootPart1 12 5) = true ∧ inRange i (fld bootPart1 20 4) (fld bootPart1 24 5) = true
      ∧ inRange i (fld bootPart1 32 4) (fld bootPart1 36 5) = true := by
  have whole (base count : Nat) (b : base = 0) (n : count = 16) : inRange i base count = true := by
    subst b n; simp [inRange, lt]
  exact ⟨whole _ _ (by decide) (by decide), whole _ _ (by decide) (by decide), whole _ _ (by decide) (by decide)⟩

theorem rd_replicate {α : Type} (n : Nat) (x : α) (i : Nat) : rd (Vector.replicate n x) i x = x := by
  unfold rd; split <;> simp

/-- On core 0 the boot's thread stands on slot 0. -/
theorem reset_threadAt_zero : (State.reset.core 0).threadAt 0 = some Thread.boot := rfl

/-- No other slot of the package holds a thread after reset. -/
theorem reset_threadAt_none {c i : Nat} (other : c ≠ 0 ∨ i ≠ 0) : (State.reset.core c).threadAt i = none := by
  rw [reset_core]
  by_cases zero : c = 0
  · have next : i ≠ 0 := other.resolve_left (not_not_intro zero)
    have away : rd (Core.boot.slots.set 0 { thread := some Thread.boot }) i {} = rd Core.boot.slots i {} := by
      unfold rd
      split
      · exact Vector.getElem_set_ne _ _ next.symm
      · rfl
    simp only [if_pos zero, Core.threadAt, Core.slot, away]
    exact congrArg Slot.thread (rd_replicate 8 ({} : Slot) i)
  · simp only [if_neg zero, Core.threadAt, Core.slot]
    exact congrArg Slot.thread (rd_replicate 8 ({} : Slot) i)

/-- The segments of the boot's context that name nothing. -/
theorem boot_seg_empty (i : Nat) (lo : 2 ≤ i) (hi : i < 7) : rd Ctx.boot.seg i {} = {} := by
  interval_cases i <;> rfl

/-- Settles O59: every core is the boot ROM's, and the one thread is the boot's. -/
theorem resetInv : Obligations.ResetInv := by
  unfold Obligations.ResetInv
  refine ⟨reset_mem_wf, rfl, fun c => ?_, fun c i _ other => reset_threadAt_none other, Thread.boot, reset_threadAt_zero, ?_⟩
  case refine_1 =>
    rw [reset_core]
    obtain ⟨slots, hbank, acc, base, count, cues, cueCount, cueQuota, deque, copy, mat, range⟩ := boot_shares
    refine ⟨rfl, slots, hbank, acc, base, count, cues, cueCount, cueQuota, deque, copy, mat, range, boot_ranges,
      (by decide : fld (256 : Word) 0 9 = 256), rfl, fun d present => ?_, fun b i _ _ => ?_⟩
    · have absent : ¬ 0 = d := fun h => present h.symm
      simp [Core.present, Core.slotMask, Core.boot, Tab.get, absent, fld]
    · show rd (rd (Vector.replicate 8 (Vector.replicate 16 0)) b (Vector.replicate 16 0)) i 0 = (0 : Word)
      rw [rd_replicate, rd_replicate]
  case refine_2 =>
    refine ⟨rfl, rfl, rfl, rfl, rfl, rfl, rfl, rfl, by decide, rfl, fun i _ => rd_replicate _ _ i, fun i _ => rd_replicate _ _ i,
      fun i _ => ⟨rd_replicate _ _ i, rd_replicate _ _ i, rd_replicate _ _ i⟩, rfl, ⟨rfl, rfl, by decide, rfl⟩,
      ⟨by decide, rfl, rfl⟩, boot_seg_empty, rfl⟩

end Sys2Proof.Machine
end

section
/-! SUPPORT. Updates of the same core or thread in a row, and the operands of an instruction that are read one after the
other (R49, R50). -/

namespace Sys2Proof.Machine

/-! ### Updates in a row -/

theorem Tab.erase_ins_same {α : Type} (t : Tab α) (k : Nat) (v : α) : (Tab.ins k v t).erase k = t.erase k := by
  induction t with
  | nil => simp [Tab.ins, Tab.erase]
  | cons e r ih =>
    obtain ⟨j, x⟩ := e
    simp only [Tab.ins]
    split
    · simp [Tab.erase]
    · simp only [Tab.erase, List.filter_cons] at ih ⊢
      rw [ih]

/-- Of two writes to one key the later stands. -/
@[simp] theorem Tab.put_put {α : Type} (t : Tab α) (k : Nat) (v w : α) : (t.put k v).put k w = t.put k w := by
  have twice : (t.erase k).erase k = t.erase k := by simp [Tab.erase]
  rw [Tab.put, Tab.put, Tab.erase_ins_same, twice, ← Tab.put]

@[simp] theorem wr_wr {α : Type} {n : Nat} (v : Vector α n) (i : Nat) (x y : α) : wr (wr v i x) i y = wr v i y := by
  simp [wr]

/-- The element that stands there, written again, changes nothing. -/
theorem wr_rd {α : Type} {n : Nat} (v : Vector α n) (i : Nat) (d : α) : wr v i (rd v i d) = v := by
  refine Vector.ext fun j lt => ?_
  by_cases same : j = i
  · subst same
    simp [wr, rd, lt]
  · exact Vector.getElem_setIfInBounds_ne _ (Ne.symm same)

@[simp] theorem State.setCore_setCore (s : State) (c : Nat) (x y : Core) : (s.setCore c x).setCore c y = s.setCore c y := by
  simp [State.setCore]

@[simp] theorem State.modCore_setCore (s : State) (c : Nat) (x : Core) (f : Core → Core) :
    (s.setCore c x).modCore c f = s.setCore c (f x) := by simp [State.modCore]

@[simp] theorem State.modCore_modCore (s : State) (c : Nat) (f g : Core → Core) :
    (s.modCore c f).modCore c g = s.modCore c (g ∘ f) := by simp [State.modCore]

/-- A slot with its own thread written back. -/
theorem Core.setThread_self (k : Core) (i : Nat) : k.setThread i (k.threadAt i) = k := by
  show { k with slots := wr k.slots i (rd k.slots i {}) } = k
  rw [wr_rd]

theorem Core.modThread_none {k : Core} {i : Nat} (h : k.threadAt i = none) (f : Thread → Thread) : k.modThread i f = k := by
  rw [Core.modThread, h, Option.map_none, ← h, Core.setThread_self]

@[simp] theorem Core.setThread_setThread (k : Core) (i : Nat) (t u : Option Thread) (lt : i < 8) :
    (k.setThread i t).setThread i u = k.setThread i u := by
  simp only [Core.setThread, Core.slot_setSlot_same _ _ _ lt]
  simp [Core.setSlot]

theorem State.modThread_eq (s : State) (f : Thread → Thread) :
    s.modThread f = s.setCore s.cur (s.me.setThread s.me.turnSlot (s.thread?.map f)) := rfl

@[simp] theorem State.modThread_modThread (s : State) (f g : Thread → Thread) :
    (s.modThread f).modThread g = s.modThread fun t => g (f t) := by
  rw [(s.modThread f).modThread_eq, State.thread?_modThread, Option.map_map, s.modThread_eq, s.modThread_eq]
  simp [State.me, Core.turnSlot_lt, Function.comp_def]

@[simp] theorem State.me_modThread (s : State) (f : Thread → Thread) : (s.modThread f).me = s.me.modThread s.me.turnSlot f := by
  simp [State.modThread]

/-! ### Operands in order (R49, R50) -/

theorem State.taken_eq (s : State) (ss : List Spec) : s.taken ss = s.modThread fun _ => (s.reading ss).2 := by
  simp [State.taken, State.started]

/-- The domain's h bank is found through the partition alone. -/
@[simp] theorem Core.bankOf_modThread (k : Core) (i : Nat) (f : Thread → Thread) (d : Nat) :
    (k.modThread i f).bankOf d = k.bankOf d := rfl

theorem State.taken_dom {s : State} {a : Thread} (held : s.thread? = some a) (ss : List Spec) :
    (s.taken ss).thread.dom = a.dom := by
  obtain ⟨q, tag, taking⟩ := State.taken_taking held ss
  rw [taking]; rfl

/-- With no operand nothing but the slot's state changes. -/
@[simp] theorem State.taken_nil (s : State) : s.taken [] = s.started := by
  cases held : s.thread? with
  | none =>
    have same (f g : Thread → Thread) : s.modThread f = s.modThread g := by
      rw [s.modThread_eq, s.modThread_eq, held]
      rfl
    simp only [State.taken, State.started, State.modThread_modThread]
    exact same _ _
  | some a =>
    have here : s.started.thread = { a with status := .running } := State.started_thread held
    simp only [State.taken, State.reading, Thread.readSrcs, here]
    simp only [State.started, State.modThread_modThread]
    rw [s.modThread_eq, s.modThread_eq, held]
    rfl

section
variable {s : State} {x y : Spec}

theorem Thread.srcReady_first {t : Thread} (ready : t.srcReady [x, y] = true) : t.srcReady [x] = true := by
  simp only [Thread.srcReady, Bool.and_eq_true, List.all_eq_true, List.mem_cons, List.not_mem_nil, or_false, forall_eq_or_imp,
    forall_eq, decide_eq_true_eq, portUses, List.countP_cons, List.countP_nil] at ready ⊢
  exact ⟨ready.1.1, fun p hp => by have := ready.2 p hp; omega⟩

/-- The second operand is ready once the first has been read. -/
theorem Thread.srcReady_second {t : Thread} (ready : t.srcReady [x, y] = true) (bank : Vector Word 16) (who : Word) :
    (t.readSrc bank who x).2.srcReady [y] = true := by
  simp only [Thread.srcReady, Bool.and_eq_true, List.all_eq_true, List.mem_cons, List.not_mem_nil, or_false, forall_eq_or_imp,
    forall_eq, decide_eq_true_eq, portUses, List.countP_cons, List.countP_nil, List.mem_range] at ready ⊢
  obtain ⟨⟨-, second⟩, ports⟩ := ready
  by_cases port : 48 ≤ x.toNat ∧ x.toNat < 52
  · have held := ports (x.toNat - 48) (by omega)
    have named : (x.toNat == 48 + (x.toNat - 48)) = true := beq_iff_eq.mpr (by omega)
    rw [if_pos named] at held
    obtain ⟨m, rest, msgs⟩ := List.exists_cons_of_length_pos (l := rd t.q (x.toNat - 48) []) (by omega)
    rw [Thread.readSrc_port port.1 port.2 msgs]
    refine ⟨second, fun p lt => ?_⟩
    by_cases same : p = x.toNat - 48
    · rw [msgs, List.length_cons] at held
      rw [same, Thread.taking, rd_wr_same _ _ _ _ (by omega)]
      omega
    · rw [Thread.taking, rd_wr_ne _ _ _ _ _ same]
      have := ports p lt
      omega
  · rw [Thread.readSrc_unported (by omega)]
    exact ⟨second, fun p lt => by have := ports p lt; omega⟩

/-- Of two operands that are read one after the other the first is read as if it were alone. -/
theorem srcs_first (h : s.canRead [x, y]) : src x s.started = .ok (s.operand [x, y] 0, s.taken [x]) := by
  simp only [src, M.bind_apply, srcs_started ⟨h.1, Thread.srcReady_first h.2⟩]
  rfl

/-- The second is read from what the first leaves, and then both have been read. -/
theorem srcs_second (h : s.canRead [x, y]) : src y (s.taken [x]) = .ok (s.operand [x, y] 1, s.taken [x, y]) := by
  obtain ⟨a, held⟩ := Option.isSome_iff_exists.mp h.1
  have last := State.readSrc_last held [x] y
  have ready : (s.taken [x]).thread.srcReady [y] = true := by
    rw [State.taken_thread held, State.reading_eq held, ← State.started_thread held]
    exact Thread.srcReady_second h.2 _ _
  have bank : (s.taken [x]).me.bankOf a.dom.toNat = rd s.me.h (s.me.hbank a.dom.toNat) (Vector.replicate 16 0) := by
    simp [State.taken_eq, Core.bankOf, Core.hbank]
  have place : (s.taken [x]).me.turnSlot = s.me.turnSlot := by simp [State.taken_eq]
  have here : (s.taken [x]).cur = s.cur := rfl
  have both : s.taken [x, y] = (s.taken [x]).modThread fun _ => (s.taken [x, y]).thread := by
    rw [State.taken_thread held]
    simp [State.taken_eq]
  simp only [src, M.bind_apply, srcs_ready ready, State.taken_dom held, bank, place, here, Thread.readSrcs, ← last]
  rw [both]
  rfl

end

end Sys2Proof.Machine
end

section
/-! SUPPORT. SYSR, SYSW, SEGW, SEGR, TIME and EVTR run to their end where the domain may use what they name (R93, R353, R354,
R381, R382, R396). -/

namespace Sys2Proof.Machine

/-! ### The register that a SYSR or SYSW names (R353, R354) -/

/-- The register that the word `x` names with index `idx`. -/
def State.named (s : State) (x : FmtS) (idx : Nat) : RegRef where
  num := x.imm.toNat
  idx
  slot := if crossOf x then targetField x else s.me.turnSlot
  dom := if crossOf x then targetField x else s.thread.dom.toNat

theorem regInfo_count_pos (n : Nat) : 0 < (regInfo n).count := by
  unfold regInfo; split <;> decide

/-- What is there with some index is there with index 0. -/
theorem privFault3_zero {x : FmtS} {k : Core} {idx : Nat} (h : privFault3 x k idx = false) : privFault3 x k 0 = false := by
  simp only [privFault3, Bool.or_eq_false_iff] at h ⊢
  exact ⟨⟨decide_eq_false (Nat.not_le.mpr (regInfo_count_pos _)), h.1.2⟩, h.2⟩

theorem regRef_ok {x : FmtS} {u : State} {idx : Word} (h : privFault3 x u.me idx.toNat = false) :
    regRef x idx u = .ok (u.named x idx.toNat, u) := by
  simp [regRef, need_apply, h, State.named]

section
variable {s : State} {a : Thread} (held : s.thread? = some a) (ss : List Spec)
include held

theorem State.taken_named (x : FmtS) (idx : Nat) : (s.taken ss).named x idx = s.named x idx := by
  simp only [State.named, State.taken_dom held, State.thread_of_some held]
  simp [State.taken_eq]

theorem State.taken_isFull (d : Nat) : (s.taken ss).thread.isFull d = s.started.thread.isFull d := by
  obtain ⟨q, tag, taking⟩ := State.taken_taking held ss
  rw [taking, State.started_thread held]; rfl

/-- The sources do not empty the destination. -/
theorem waitDst_taken {d : Spec} (full : s.canWrite d) : waitDst d (s.taken ss) = .ok ((), s.taken ss) := by
  have ready : (decide (32 ≤ d.toNat) || (s.taken ss).thread.isFull d.toNat) = true := by
    rw [State.taken_isFull held]
    simpa [State.canWrite] using full
  simp [waitDst, waitFor_apply, ready]

end

theorem State.started_eq_taken (s : State) : s.started = s.taken [] := s.taken_nil.symm

theorem State.taken_me (s : State) (ss : List Spec) : (s.taken ss).me = s.me.modThread s.me.turnSlot fun _ => (s.reading ss).2 := by
  rw [State.taken_eq, State.me_modThread]

theorem sysr_run {x : FmtS} {s : State} (read : s.canRead [x.a]) (full : s.canWrite x.d)
    (allowed : privFault2 x s.thread.dom = false) (there : privFault3 x s.me (s.operand [x.a] 0).toNat = false) :
    exec (.sysr x) s = s.scalarResult [x.a] x.d x.e x.w
      ((s.taken [x.a]).readReg s.cur (s.named x (s.operand [x.a] 0).toNat)) := by
  obtain ⟨a, held⟩ := Option.isSome_iff_exists.mp read.1
  have dom : s.started.thread.dom = s.thread.dom := by rw [State.started_thread held, State.thread_of_some held]
  have target : regRef x 0#64 s.started = .ok (s.named x 0, s.started) := by
    rw [State.started_eq_taken, ← State.taken_named held []]
    exact regRef_ok (by rw [State.taken_me]; exact privFault3_zero there)
  have register : regRef x (s.operand [x.a] 0) (s.taken [x.a]) = .ok (s.named x (s.operand [x.a] 0).toNat, s.taken [x.a]) := by
    rw [← State.taken_named held [x.a]]
    exact regRef_ok (by rw [State.taken_me]; exact there)
  have first : src x.a s.started = .ok (s.operand [x.a] 0, s.taken [x.a]) := by
    simp only [src, M.bind_apply, srcs_started read]; rfl
  refine State.instr_ok read.1 x.e x.w ?_
  simp [need_apply, dom, allowed, target, first, register, waitDst_taken held _ full]
  rfl

theorem sysw_run {x : FmtS} {s : State} (read : s.canRead [x.a, x.b]) (allowed : privFault2 x s.thread.dom = false)
    (there : privFault3 x s.me (s.operand [x.a, x.b] 0).toNat = false)
    (open_ : privFault4 s.me s.thread.dom (s.named x (s.operand [x.a, x.b] 0).toNat) = false)
    (backed : let r := regBytes (s.named x (s.operand [x.a, x.b] 0).toNat) (s.operand [x.a, x.b] 1)
      s.backed r.1 r.2 = true) :
    exec (.sysw x) s = ((s.taken [x.a, x.b]).writeReg s.cur (s.named x (s.operand [x.a, x.b] 0).toNat)
      (s.operand [x.a, x.b] 1)).goesOn x.e x.w := by
  obtain ⟨a, held⟩ := Option.isSome_iff_exists.mp read.1
  have dom : s.started.thread.dom = s.thread.dom := by rw [State.started_thread held, State.thread_of_some held]
  have target : regRef x 0#64 s.started = .ok (s.named x 0, s.started) := by
    rw [State.started_eq_taken, ← State.taken_named held []]
    exact regRef_ok (by rw [State.taken_me]; exact privFault3_zero there)
  have register : regRef x (s.operand [x.a, x.b] 0) (s.taken [x.a]) =
      .ok (s.named x (s.operand [x.a, x.b] 0).toNat, s.taken [x.a]) := by
    rw [← State.taken_named held [x.a]]
    exact regRef_ok (by rw [State.taken_me]; exact there)
  have unlocked : privFault4 (s.taken [x.a]).me (s.taken [x.a]).thread.dom (s.named x (s.operand [x.a, x.b] 0).toNat) = false := by
    rw [State.taken_me, State.taken_dom held, ← State.thread_of_some held]
    exact open_
  have memory : needBacked (regBytes (s.named x (s.operand [x.a, x.b] 0).toNat) (s.operand [x.a, x.b] 1)).1
      (regBytes (s.named x (s.operand [x.a, x.b] 0).toNat) (s.operand [x.a, x.b] 1)).2 (s.taken [x.a, x.b]) =
      .ok ((), s.taken [x.a, x.b]) := if_pos backed
  refine State.instr_ok read.1 x.e x.w ?_
  simp [need_apply, dom, allowed, target, Thread.srcReady_first read.2, srcs_first read, srcs_second read, register, unlocked,
    memory]
  rfl

/-! ### SEGW and SEGR (R381, R382) -/

theorem segw_run {x : FmtS} {s : State} (read : s.canRead [x.a, x.b]) {o : Seg} {v w : Word} (old : rd s.thread.seg (segField x) {} = o)
    (first : s.operand [x.a, x.b] 0 = v) (second : s.operand [x.a, x.b] 1 = w) (own : o.dom = s.thread.dom)
    (short : fld v 0 52 + fld w 0 52 ≤ 2 ^ 52)
    (narrows : s.thread.dom ≠ 0 → o.base.toNat ≤ fld v 0 52 ∧ fld v 0 52 + fld w 0 52 ≤ o.base.toNat + o.limit.toNat
      ∧ w.extractLsb' 52 6 &&& ~~~o.rights = 0) :
    exec (.segw x) s = ((s.taken [x.a, x.b]).modThread fun t => { t with
      seg := wr t.seg (segField x) { dom := o.dom, base := BitVec.ofNat 52 (fld v 0 52), rights := w.extractLsb' 52 6
                                     limit := BitVec.ofNat 53 (fld w 0 52) } }).goesOn x.e x.w := by
  obtain ⟨a, held⟩ := Option.isSome_iff_exists.mp read.1
  obtain ⟨q, tag, taking⟩ := State.taken_taking held [x.a, x.b]
  have dom : (s.taken [x.a, x.b]).thread.dom = s.thread.dom := by rw [State.taken_dom held, State.thread_of_some held]
  have seg : (s.taken [x.a, x.b]).thread.seg = s.thread.seg := by rw [taking, State.thread_of_some held]; rfl
  simp only [State.operand] at first second
  have same : ¬ o.dom ≠ s.thread.dom := not_not_intro own
  have inside : ¬ 2 ^ 52 < fld v 0 52 + fld w 0 52 := Nat.not_lt.mpr short
  refine State.instr_ok read.1 x.e x.w ?_
  simp only [M.bind_apply, srcs_started read, thread_apply, dom, seg, old, first, second]
  rw [if_neg same, if_neg inside]
  by_cases zero : s.thread.dom = 0
  · rw [if_neg (not_not_intro zero)]
    rfl
  · obtain ⟨lo, hi, rights⟩ := narrows zero
    have within : ¬ (decide (fld v 0 52 < o.base.toNat) || decide (o.base.toNat + o.limit.toNat < fld v 0 52 + fld w 0 52)) = true := by
      simp [lo, hi]
    rw [if_pos zero, if_neg within, if_neg (not_not_intro rights)]
    rfl

theorem segr_run {x : FmtS} {s : State} (read : s.canRead []) (full : s.canWrite x.d) :
    let g := rd s.thread.seg (fld x.op 0 3) {}
    exec (.segr x) s = s.scalarResult [] x.d x.e x.w (if x.op.getLsbD 3 then g.w1 else g.w0) := by
  obtain ⟨a, held⟩ := Option.isSome_iff_exists.mp read.1
  refine State.instr_ok read.1 x.e x.w ?_
  simp [waitDst_ok full, State.started_thread held, State.thread_of_some held, segField]

/-! ### TIME and EVTR (R93, R396) -/

theorem time_run {x : FmtS} {s : State} (read : s.canRead []) (full : s.canWrite x.d) :
    exec (.time x) s = s.scalarResult [] x.d x.e x.w (if fld x.op 0 2 = 0 then word s.me.cycle
      else word (s.halfNs / 2 - (Config.clockSkew s.cur s.me.cycle).val)) := by
  refine State.instr_ok read.1 x.e x.w ?_
  have cycle : s.started.me.cycle = s.me.cycle := by rw [State.started, State.me_modThread]; rfl
  have time : s.started.halfNs = s.halfNs := rfl
  have here : s.started.cur = s.cur := rfl
  simp [waitDst_ok full, cycle, time, here]

theorem evtr_run {x : FmtS} {s : State} (read : s.canRead []) (full : s.canWrite x.d) :
    exec (.evtr x) s = s.scalarResult [] x.d x.e x.w
      (if s.thread.dom = 0 ∨ fld (rd s.me.evsel (fld x.op 0 3) 0) 48 8 = s.thread.dom.toNat
        then rd s.me.evcnt (fld x.op 0 3) 0 else BitVec.allOnes 64) := by
  obtain ⟨a, held⟩ := Option.isSome_iff_exists.mp read.1
  have me : s.started.me = s.me.modThread s.me.turnSlot fun t => { t with status := .running } := s.me_modThread _
  refine State.instr_ok read.1 x.e x.w ?_
  simp [waitDst_ok full, State.started_thread held, State.thread_of_some held, me]
  congr

end Sys2Proof.Machine
end

section
/-! SUPPORT. What each register reads as, and what a write leaves in it (R121, R348 to R351, R357, R361, R383, R398). -/

namespace Sys2Proof.Machine

/-! ### Words put together from numbers -/

theorem sum_pow_lt (b : Nat → Bool) (n : Nat) : ((List.range n).map fun i => if b i then 2 ^ i else 0).sum < 2 ^ n := by
  induction n with
  | zero => simp
  | succ n ih =>
    simp only [List.range_succ, List.map_append, List.sum_append, List.map_cons, List.map_nil, List.sum_singleton, pow_succ]
    split <;> omega

/-- A mask that is the sum of the powers of its bits. -/
theorem testBit_sum_pow (b : Nat → Bool) (n j : Nat) :
    ((List.range n).map fun i => if b i then 2 ^ i else 0).sum.testBit j = (decide (j < n) && b j) := by
  induction n with
  | zero => simp
  | succ n ih =>
    have lt := sum_pow_lt b n
    have all := sum_pow_lt b (n + 1)
    rcases Nat.lt_trichotomy j n with low | same | high
    · simp only [List.range_succ, List.map_append, List.sum_append, List.map_cons, List.map_nil, List.sum_singleton]
      split
      · rw [Nat.add_comm, Nat.testBit_two_pow_add_gt low, ih]
        simp [low, Nat.lt_succ_of_lt low]
      · rw [Nat.add_zero, ih]
        simp [low, Nat.lt_succ_of_lt low]
    · subst same
      simp only [List.range_succ, List.map_append, List.sum_append, List.map_cons, List.map_nil, List.sum_singleton]
      split
      · next set => rw [Nat.add_comm, Nat.testBit_two_pow_add_eq, Nat.testBit_lt_two_pow lt]; simp [set]
      · next clear => rw [Nat.add_zero, Nat.testBit_lt_two_pow lt]; simp [clear]
    · rw [Nat.testBit_lt_two_pow (Nat.lt_of_lt_of_le all (Nat.pow_le_pow_right (by decide) high))]
      simp [show ¬ j < n + 1 by omega]

/-- PREQ (R351). -/
theorem Core.preqMask_bit (k : Core) (j : Nat) :
    (word k.preqMask).getLsbD j = (decide (j < 8) && (k.threadAt j).any (·.preq.isSome)) := by
  rw [word, BitVec.getLsbD_ofNat, Core.preqMask, testBit_sum_pow fun i => (k.threadAt i).any (·.preq.isSome)]
  by_cases low : j < 8
  · simp [low, show j < 64 by omega]
  · simp [low]

/-- CUEDESC (R121). -/
theorem CueDesc.word_fields (y : CueDesc) (sello : y.sello < 64) (selreg : y.selreg < 32) (count : y.count < 2048)
    (base : y.base < 1024) :
    fld y.word 48 16 = y.cut.toNat ∧ fld y.word 40 8 = y.dom.toNat ∧ fld y.word 38 2 = 0 ∧ fld y.word 32 6 = y.sello
      ∧ fld y.word 27 5 = y.selreg ∧ fld y.word 16 11 = y.count ∧ fld y.word 10 6 = 0 ∧ fld y.word 0 10 = y.base := by
  have value : y.word.toNat = y.cut.toNat * 2 ^ 48 + y.dom.toNat * 2 ^ 40 + y.sello * 2 ^ 32 + y.selreg * 2 ^ 27
      + y.count * 2 ^ 16 + y.base := by
    have cut := y.cut.isLt
    have dom := y.dom.isLt
    have low : y.sello <<< 32 ||| y.selreg <<< 27 ||| y.count <<< 16 ||| y.base =
        y.sello * 2 ^ 32 + (y.selreg * 2 ^ 27 + (y.count * 2 ^ 16 + y.base)) := by
      rw [Nat.or_assoc, ← Nat.shiftLeft_add_eq_or_of_lt (by omega : y.base < 2 ^ 16), Nat.shiftLeft_eq y.count, Nat.or_assoc,
        ← Nat.shiftLeft_add_eq_or_of_lt (by omega : y.count * 2 ^ 16 + y.base < 2 ^ 27), Nat.shiftLeft_eq y.selreg,
        ← Nat.shiftLeft_add_eq_or_of_lt (by omega), Nat.shiftLeft_eq]
    have high (n : Nat) {m : Nat} (x : BitVec m) (small : x.toNat * 2 ^ n < 2 ^ 64) (fits : m ≤ 64) :
        (x.setWidth 64 <<< n : Word).toNat = x.toNat <<< n := by
      rw [BitVec.toNat_shiftLeft, BitVec.toNat_setWidth_of_le fits, Nat.mod_eq_of_lt (by rwa [Nat.shiftLeft_eq])]
    rw [CueDesc.word, BitVec.toNat_or, BitVec.toNat_or, high 48 _ (by omega) (by decide), high 40 _ (by omega) (by decide), low,
      Machine.word, BitVec.toNat_ofNat, Nat.mod_eq_of_lt (by omega), Nat.or_assoc,
      ← Nat.shiftLeft_add_eq_or_of_lt (by omega : y.sello * 2 ^ 32 + (y.selreg * 2 ^ 27 + (y.count * 2 ^ 16 + y.base)) < 2 ^ 40),
      Nat.shiftLeft_eq y.dom.toNat, ← Nat.shiftLeft_add_eq_or_of_lt (by omega), Nat.shiftLeft_eq]
    omega
  have cut := y.cut.isLt
  have dom := y.dom.isLt
  simp only [fld_toNat, value]
  and_intros <;> omega

/-- The geometry and the state of a ring (R225, R227). -/
theorem Ring.geom_eq (g : Ring) (base : g.base < 2 ^ 21) : g.geom = Machine.word (g.base + g.tiles * 2 ^ 24) := by
  rw [Ring.geom, or_shift (Nat.lt_trans base (by decide)), Nat.mul_comm]

theorem Ring.state_eq (g : Ring) (head : g.head < 256) (ready : g.ready < 256) (held : g.held < 256) (claims : g.claims < 256) :
    g.state = Machine.word (g.head + g.ready * 2 ^ 8 + g.held * 2 ^ 16 + g.claims * 2 ^ 24 + g.tiles * 2 ^ 32) := by
  rw [Ring.state, or_shift (k := 8) head, or_shift (by omega : g.head + 2 ^ 8 * g.ready < 2 ^ 16),
    or_shift (by omega : g.head + 2 ^ 8 * g.ready + 2 ^ 16 * g.held < 2 ^ 24),
    or_shift (by omega : g.head + 2 ^ 8 * g.ready + 2 ^ 16 * g.held + 2 ^ 24 * g.claims < 2 ^ 32)]
  simp only [Nat.mul_comm]

/-- A flag in the lowest bit of a word, which the register shows above it as it is stored. -/
theorem getLsbD_setFld_flag (w : Word) (b : Bool) :
    (setFld w 0 1 (if b then 1 else 0)).getLsbD 0 = b
      ∧ ∀ j, 0 < j → (setFld w 0 1 (if b then 1 else 0)).getLsbD j = w.getLsbD j := by
  refine ⟨?_, fun j pos => ?_⟩
  · rw [getLsbD_setFld, if_pos (by decide)]
    cases b <;> rfl
  · rw [getLsbD_setFld, if_neg (by omega)]

/-- KEYC (R372): the busy bit, and the epoch above it. -/
theorem keyc_fields (e : Nat) (b : Bool) :
    (∀ j, j < 32 → (setFld (word (e % 2 ^ 32) <<< 32) 1 1 (if b then 1 else 0)).getLsbD j = (j == 1 && b))
      ∧ fld (setFld (word (e % 2 ^ 32) <<< 32) 1 1 (if b then 1 else 0)) 32 32 = e % 2 ^ 32 := by
  refine ⟨fun j lt => ?_, ?_⟩
  · rw [getLsbD_setFld]
    by_cases one : j = 1
    · subst one
      rw [if_pos (by decide)]
      cases b <;> rfl
    · rw [if_neg (by omega), BitVec.getLsbD_shiftLeft]
      simp [lt, one]
  · rw [fld_setFld_apart _ (Or.inr (by decide))]
    refine Nat.eq_of_testBit_eq fun j => ?_
    rw [testBit_fld, BitVec.getLsbD_shiftLeft, word, BitVec.getLsbD_ofNat, Nat.testBit_mod_two_pow, Nat.testBit_mod_two_pow]
    by_cases low : j < 32
    · simp [low, show 32 + j < 64 by omega, show j < 64 by omega]
    · simp [low]

/-! ### What a write leaves in a register of a slot (R350) -/

theorem cfgStored_fields (v : Word) : fld (cfgStored v) 4 60 = 0 ∧ (cfgStored v).getLsbD 3 = v.getLsbD 3
    ∧ (cfgStored v).getLsbD 0 = v.getLsbD 0 ∧ fld (cfgStored v) 1 2 = if fld v 1 2 = 3 then 0 else fld v 1 2 := by
  have upper : fld (v &&& 0xF) 4 60 = 0 := by
    rw [fld_toNat, BitVec.toNat_and]
    have := Nat.and_lt_two_pow v.toNat (show (0xF : Word).toNat < 2 ^ 4 by decide)
    rw [Nat.div_eq_of_lt this]; rfl
  have bit (j : Nat) (lt : j < 4) : (v &&& 0xF).getLsbD j = v.getLsbD j := by
    rw [BitVec.getLsbD_and]
    interval_cases j <;> simp
  have mode : fld (v &&& 0xF) 1 2 = fld v 1 2 := by
    refine Nat.eq_of_testBit_eq fun j => ?_
    rw [testBit_fld, testBit_fld]
    by_cases low : j < 2
    · rw [bit _ (by omega)]
    · simp [low]
  unfold cfgStored
  split
  · rw [fld_setFld_apart _ (Or.inr (by decide)), getLsbD_setFld, getLsbD_setFld, if_neg (by decide), if_neg (by decide),
      fld_setFld_same _ (by decide)]
    exact ⟨upper, bit 3 (by decide), bit 0 (by decide), rfl⟩
  · exact ⟨upper, bit 3 (by decide), bit 0 (by decide), mode⟩

theorem tret_written (a : Thread) (v : Word) : let r := (a.writeReg 0x005 v).tret
    r.getLsbD 57 = v.getLsbD 57 ∧ fld r 54 2 = (if fld v 54 2 = 3 then fld a.tret 54 2 else fld v 54 2)
      ∧ ∀ j, j ≠ 54 → j ≠ 55 → j ≠ 57 → r.getLsbD j = a.tret.getLsbD j := by
  have flag : (fld v 57 1).testBit 0 = v.getLsbD 57 := by rw [testBit_fld]; simp
  have skip : (setFld a.tret 57 1 (fld v 57 1)).getLsbD 57 = v.getLsbD 57 := by
    rw [getLsbD_setFld, if_pos (by decide)]
    simpa using flag
  have rest (j : Nat) (other : j ≠ 57) : (setFld a.tret 57 1 (fld v 57 1)).getLsbD j = a.tret.getLsbD j := by
    rw [getLsbD_setFld, if_neg (by omega)]
  have kind : fld (setFld a.tret 57 1 (fld v 57 1)) 54 2 = fld a.tret 54 2 := fld_setFld_apart _ (Or.inl (by decide))
  have stored : (a.writeReg 0x005 v).tret = if fld v 54 2 = 3 then setFld a.tret 57 1 (fld v 57 1)
      else setFld (setFld a.tret 57 1 (fld v 57 1)) 54 2 (fld v 54 2) := rfl
  simp only [stored]
  split
  · exact ⟨skip, kind, fun j _ _ other => rest j other⟩
  · refine ⟨?_, ?_, fun j h54 h55 h57 => ?_⟩
    · rw [getLsbD_setFld, if_neg (by decide)]
      exact skip
    · rw [fld_setFld_same _ (by decide), Nat.mod_eq_of_lt (fld_lt ..)]
    · rw [getLsbD_setFld, if_neg (by omega)]
      exact rest j h57

/-- PWRCAP (R383). -/
theorem pwrcap_stored (v : Word) : word (Nat.max 800 (Nat.min v.toNat 3200)) =
    if v.toNat < 800 then 800 else if 3200 < v.toNat then 3200 else v := by
  show word (max 800 (min v.toNat 3200)) = _
  split
  · next low => rw [Nat.min_eq_left (by omega), Nat.max_eq_left (by omega)]; rfl
  · next low =>
    split
    · next high => rw [Nat.min_eq_right (by omega)]; rfl
    · next high => rw [Nat.min_eq_left (by omega), Nat.max_eq_right (by omega), word, BitVec.ofNat_toNat, BitVec.setWidth_eq]

/-- A write of a slot's register reaches its thread. -/
theorem State.writeReg_slot {s : State} {c slot n i d : Nat} {v : Word} {a : Thread} (held : (s.core c).threadAt slot = some a)
    (own : (regInfo n).held = .slot) :
    ((s.writeReg c { num := n, idx := i, slot, dom := d } v).core c).threadAt slot = some (a.writeReg n v) := by
  simp [State.writeReg, own, Core.threadAt_lt held, held]

/-- A slot with no thread discards it (R348). -/
theorem State.writeReg_empty {s : State} {c slot n i d : Nat} {v : Word} (free : (s.core c).threadAt slot = none)
    (own : (regInfo n).held = .slot) : (s.writeReg c { num := n, idx := i, slot, dom := d } v).core c = s.core c := by
  simp [State.writeReg, own, Core.modThread_none free]

end Sys2Proof.Machine
end

section
/-! What each register of a domain, of the core and of the package reads as, and what a write leaves in it: SUPPORT for the
theorem that settles O43 (R121, R348 to R351, R357, R361, R383, R398). -/

namespace Sys2Proof.Machine

/-! ### Reads -/

section
variable (s : State) (c slot d i : Nat)

theorem State.readReg_thread : let a := ((s.core c).threadAt slot).getD {}
    let gives (n : Nat) : Word := s.readReg c { num := n, idx := i, slot, dom := d }
    gives 0x000 = a.cfg ∧ gives 0x001 = a.tcause ∧ gives 0x002 = a.taddr ∧ gives 0x003 = a.tdet0 ∧ gives 0x004 = a.tdet1
      ∧ gives 0x005 = a.tret ∧ gives 0x006 = a.tpend ∧ gives 0x007 = a.hndl
      ∧ (∀ j, j < 4 → gives (0x010 + j) = rd a.dbi j 0) ∧ gives 0x014 = rd a.dbw 0 0 ∧ gives 0x015 = rd a.dbw 1 0 := by
  refine ⟨rfl, rfl, rfl, rfl, rfl, rfl, rfl, rfl, fun j lt => ?_, rfl, rfl⟩
  interval_cases j <;> rfl

theorem State.readReg_domain : let k := s.core c
    let gives (n : Nat) (i : Nat := i) : Word := s.readReg c { num := n, idx := i, slot, dom := d }
    gives 0x020 = Tab.get 1048576 k.quant d ∧ gives 0x021 = Tab.get 1 k.rseed d ∧ gives 0x022 = rd (k.bankOf d) i 0
      ∧ gives 0x023 0 = Tab.get 0 k.frBase d ∧ gives 0x023 1 = Tab.get 0 k.frCount d
      ∧ (let p := Tab.get {} k.pool d
         gives 0x024 0 = word p.base ∧ gives 0x024 1 = word p.size ∧ gives 0x024 2 = word p.count)
      ∧ gives 0x025 0 = Tab.get 0 k.part0 d ∧ gives 0x025 1 = Tab.get 0 k.part1 d ∧ gives 0x025 2 = Tab.get 0 k.part2 d
      ∧ gives 0x025 3 = Tab.get 0 k.plock d
      ∧ (gives 0x025 4).getLsbD 0 = s.busy (.restore c d 0)
      ∧ (∀ j, 0 < j → (gives 0x025 4).getLsbD j = (Tab.get 0 k.sealReg d).getLsbD j)
      ∧ (∀ j, j < 32 → (gives 0x025 5).getLsbD j = (j == 1 && s.busy (.keys d)))
      ∧ fld (gives 0x025 5) 32 32 = Tab.get 0 s.epoch d % 2 ^ 32
      ∧ (∀ j, j < 6 → gives 0x025 (6 + j) = word (ofLe (((s.measOf d).drop (8 * j)).take 8)))
      ∧ gives 0x025 12 = (if s.busy (.extend c d 0) = true then 1 else 0)
      ∧ gives 0x025 13 = (if s.busy (.attest c d 0) = true then 1 else 0)
          + (if Tab.get false s.attested d = true then 2 else 0) := by
  have sealed := getLsbD_setFld_flag (Tab.get 0 (s.core c).sealReg d) (s.busy (.restore c d 0))
  have keyc := keyc_fields (Tab.get 0 s.epoch d) (s.busy (.keys d))
  have attest (a b : Bool) : ((if a then 1 else 0) ||| if b then 2 else 0 : Word) = (if a then 1 else 0) + if b then 2 else 0 := by
    cases a <;> cases b <;> rfl
  refine ⟨rfl, rfl, rfl, rfl, rfl, ⟨rfl, rfl, rfl⟩, rfl, rfl, rfl, rfl, sealed.1, sealed.2, keyc.1, keyc.2, fun j lt => ?_, ?_,
    attest _ _⟩
  · interval_cases j <;> rfl
  · simp only [State.busy, DomWork.like_extend c d 0]
    rfl

theorem State.busy_iff (w : DomWork) : s.busy w = true ↔ ∃ x ∈ s.work, w.like x = true := List.any_eq_true

/-- An entry of a table of `n` words an entry, and the word of it. -/
theorem entry_word {n j i : Nat} (lt : i < n) : (n * j + i) / n = j ∧ (n * j + i) % n = i := by
  rw [Nat.mul_add_div (by omega), Nat.div_eq_of_lt lt, Nat.mul_add_mod, Nat.mod_eq_of_lt lt]
  exact ⟨rfl, rfl⟩

theorem State.readReg_core : let k := s.core c
    let gives (n : Nat) (i : Nat := i) : Word := s.readReg c { num := n, idx := i, slot, dom := d }
    (∀ j, (gives 0x030).getLsbD j = (decide (j < 8) && (k.threadAt j).any (·.preq.isSome))) ∧ gives 0x031 = word k.lb
      ∧ gives 0x040 = (k.descOf i).word
      ∧ (∀ j, let y := (k.cueAt j).live
         gives 0x041 (4 * j) = y.value ∧ gives 0x041 (4 * j + 1) = y.mask
          ∧ gives 0x041 (4 * j + 2) = y.action.extractLsb' 0 64 ∧ gives 0x041 (4 * j + 3) = y.action.extractLsb' 64 64)
      ∧ (∀ j, let g := k.ringAt j
         gives 0x042 (4 * j) = g.geom ∧ gives 0x042 (4 * j + 1) = g.layout ∧ gives 0x042 (4 * j + 2) = g.state
          ∧ gives 0x042 (4 * j + 3) = g.sigma.setWidth 64)
      ∧ (∀ j, gives 0x043 (2 * j) = (k.routeAt j).1 ∧ gives 0x043 (2 * j + 1) = (k.routeAt j).2)
      ∧ gives 0x060 = rd k.evsel i 0 ∧ gives 0x061 = rd k.evcnt i 0 := by
  have four (j : Nat) {r : Nat} (lt : r < 4) := entry_word (j := j) lt
  have two (j : Nat) {r : Nat} (lt : r < 2) := entry_word (j := j) lt
  have even (j : Nat) : (4 * j) / 4 = j ∧ (4 * j) % 4 = 0 := entry_word (n := 4) (i := 0) (by decide)
  have pair (j : Nat) : (2 * j) / 2 = j ∧ (2 * j) % 2 = 0 := entry_word (n := 2) (i := 0) (by decide)
  refine ⟨Core.preqMask_bit _, rfl, rfl, fun j => ⟨?_, ?_, ?_, ?_⟩, fun j => ⟨?_, ?_, ?_, ?_⟩, fun j => ⟨?_, ?_⟩, rfl, rfl⟩
  all_goals simp only [State.readReg, regInfo, Core.readReg, even, pair, four j (show 1 < 4 by decide), four j (show 2 < 4 by decide),
      four j (show 3 < 4 by decide), two j (show 1 < 2 by decide), Core.ringAt, Core.routeAt]
  all_goals rfl

theorem State.readReg_package :
    let gives (n : Nat) : Word := s.readReg c { num := n, idx := i, slot, dom := d }
    gives 0x050 = s.ptbase ∧ gives 0x051 = s.ptcfg ∧ gives 0x052 = s.pterr ∧ gives 0x053 = (if s.shoot = [] then 0 else 1)
      ∧ gives 0x070 = s.qtab ∧ gives 0x071 = s.pwrcap ∧ (∀ j, 8 ≤ j → (gives 0x072).getLsbD j = (rd s.therm i 0).getLsbD j)
      ∧ gives 0x073 = s.rstinfo ∧ gives 0x074 = rd s.link i 0 ∧ gives 0x075 = s.pkgid := by
  refine ⟨rfl, rfl, rfl, ?_, rfl, rfl, fun j above => ?_, rfl, rfl, rfl⟩
  · show (if s.shoot.isEmpty then 0 else 1 : Word) = _
    simp only [List.isEmpty_iff]
  · show (setFld (rd s.therm i 0) 0 8 _).getLsbD j = _
    rw [getLsbD_setFld, if_neg (by omega)]

/-! ### Writes -/

variable (v : Word)

theorem State.writeReg_thread {a : Thread} (held : (s.core c).threadAt slot = some a) :
    let now (n : Nat) : Thread := (((s.writeReg c { num := n, idx := i, slot, dom := d } v).core c).threadAt slot).getD {}
    (fld (now 0x000).cfg 4 60 = 0 ∧ (now 0x000).cfg.getLsbD 3 = v.getLsbD 3 ∧ (now 0x000).cfg.getLsbD 0 = v.getLsbD 0
        ∧ fld (now 0x000).cfg 1 2 = if fld v 1 2 = 3 then 0 else fld v 1 2)
      ∧ ((now 0x005).tret.getLsbD 57 = v.getLsbD 57
        ∧ fld (now 0x005).tret 54 2 = (if fld v 54 2 = 3 then fld a.tret 54 2 else fld v 54 2)
        ∧ ∀ j, j ≠ 54 → j ≠ 55 → j ≠ 57 → (now 0x005).tret.getLsbD j = a.tret.getLsbD j)
      ∧ (∀ j, j < 4 → now (0x010 + j) = { a with dbi := wr a.dbi j (v &&& 0x80000000FFFFFFFF) })
      ∧ ∀ j, j < 2 → now (0x014 + j) = { a with dbw := wr a.dbw j (v &&& 0xFF0FFFFFFFFFFFFF) } := by
  have now (n : Nat) (own : (regInfo n).held = .slot) :
      (((s.writeReg c { num := n, idx := i, slot, dom := d } v).core c).threadAt slot).getD {} = a.writeReg n v := by
    rw [State.writeReg_slot held own, Option.getD_some]
  dsimp only
  refine ⟨?_, ?_, fun j lt => ?_, fun j lt => ?_⟩
  · rw [now 0x000 rfl]
    exact cfgStored_fields v
  · rw [now 0x005 rfl]
    exact tret_written a v
  · rw [now _ (by interval_cases j <;> rfl)]
    interval_cases j <;> rfl
  · rw [now _ (by interval_cases j <;> rfl)]
    interval_cases j <;> rfl

theorem State.writeReg_domain : let k := s.core c
    let kept (n : Nat) (i : Nat := i) : Core := (s.writeReg c { num := n, idx := i, slot, dom := d } v).core c
    Tab.get 1048576 (kept 0x020).quant d = word (Nat.max 65536 (fld v 0 32))
      ∧ Tab.get 1 (kept 0x021).rseed d = (if v = 0 then 1 else v)
      ∧ (kept 0x022).hPend = k.hPend ++ [(k.hbank d, i, v)] ∧ (kept 0x022).h = k.h
      ∧ Tab.get 0 (kept 0x023 0).frBase d = word (v.toNat / 8192 * 8192)
      ∧ Tab.get 0 (kept 0x023 1).frCount d = v &&& 0xFFFF
      ∧ (∀ j, j < 4 → (kept 0x025 j).partPend = k.partPend ++ [⟨d, j, v⟩] ∧ (kept 0x025 j).part0 = k.part0
          ∧ (kept 0x025 j).part1 = k.part1 ∧ (kept 0x025 j).part2 = k.part2 ∧ (kept 0x025 j).plock = k.plock) := by
  have kept (n i : Nat) (f : Core → Core) (own : (regInfo n).held = .domain)
      (does : s.writeDom c { num := n, idx := i, slot, dom := d } v = s.modCore c f) :
      (s.writeReg c { num := n, idx := i, slot, dom := d } v).core c = f (s.core c) := by
    simp only [State.writeReg, own, does, State.core_modCore_same]
  dsimp only
  have frame (j : Nat) := kept 0x023 j (fun k => if j = 0 then { k with frBase := Tab.set 0 k.frBase d (word (v.toNat / 8192 * 8192)) }
    else { k with frCount := Tab.set 0 k.frCount d (v &&& 0xFFFF) }) rfl rfl
  rw [kept 0x020 i (fun k => { k with quant := Tab.set 1048576 k.quant d (word (Nat.max 65536 (fld v 0 32))) }) rfl rfl,
    kept 0x021 i (·.rseedWrite d v) rfl rfl, kept 0x022 i (·.hbankWrite d i v) rfl rfl, frame 0, frame 1]
  refine ⟨Tab.get_set_same .., Tab.get_set_same .., rfl, rfl, Tab.get_set_same .., Tab.get_set_same .., fun j lt => ?_⟩
  rw [kept 0x025 j (·.writeLater d j v) rfl (by interval_cases j <;> rfl)]
  exact ⟨rfl, rfl, rfl, rfl, rfl⟩

/-- What a write of SEAL leaves: its area, and a restore where bit 3 asks for one (R371). -/
theorem State.sealWrite_work : (s.sealWrite c d v).work = s.work ++ (if v.getLsbD 3 = true then [.restore c d v] else []) := by
  rw [State.sealWrite]
  split
  · rfl
  · exact (List.append_nil _).symm

theorem State.sealWrite_area : fld (Tab.get 0 ((s.sealWrite c d v).core c).sealReg d) 16 36 = fld v 16 36 := by
  have kept (k : Core) : fld (Tab.get 0 (Tab.set 0 k.sealReg d (setFld (Tab.get 0 k.sealReg d) 16 36 (fld v 16 36))) d) 16 36 =
      fld v 16 36 := by
    rw [Tab.get_set_same, fld_setFld_same _ (by decide), Nat.mod_eq_of_lt (fld_lt ..)]
  have core : ((s.sealWrite c d v).core c).sealReg =
      Tab.set 0 (s.core c).sealReg d (setFld (Tab.get 0 (s.core c).sealReg d) 16 36 (fld v 16 36)) := by
    have asked (s' : State) (w : DomWork) : (s'.ask w).core c = s'.core c := rfl
    rw [State.sealWrite]
    split
    · rw [asked, State.core_modCore_same]
    · rw [State.core_modCore_same]
  rw [core, kept]

/-- What writes of SEAL, KEYC, MEXT and ATTEST ask for (R371, R372, R376, R377). -/
theorem State.writeReg_work :
    let left (n i : Nat) : State := s.writeReg c { num := n, idx := i, slot, dom := d } v
    fld (Tab.get 0 ((left 0x025 4).core c).sealReg d) 16 36 = fld v 16 36
      ∧ (left 0x025 4).work = s.work ++ (if v.getLsbD 3 = true then [.restore c d v] else [])
      ∧ (left 0x025 5).work = s.work ++ (if v.getLsbD 0 = true then [.keys d] else [])
      ∧ (left 0x025 12).work = s.work ++ [.extend c d v.toNat]
      ∧ (left 0x025 13).work = s.work ++ [.attest c d (v.toNat / 256 * 256)]
      ∧ Tab.get false (left 0x025 13).attested d = false := by
  have kept (i : Nat) : s.writeReg c { num := 0x025, idx := i, slot, dom := d } v =
      s.writeDom c { num := 0x025, idx := i, slot, dom := d } v := rfl
  dsimp only
  rw [kept 4, kept 5, kept 12, kept 13]
  refine ⟨s.sealWrite_area c d v, s.sealWrite_work c d v, ?_, rfl, rfl, ?_⟩
  · show (if v.getLsbD 0 then s.ask (.keys d) else s).work = _
    split
    · rfl
    · exact (List.append_nil _).symm
  · exact Tab.get_set_same false s.attested d false

theorem State.writeReg_core : let k := s.core c
    let kept (n : Nat) (i : Nat := i) : Core := (s.writeReg c { num := n, idx := i, slot, dom := d } v).core c
    (kept 0x030).partPend = k.partPend ++ [⟨0, 4, v⟩]
      ∧ (kept 0x031).lbPend = (if k.lbOk v then some (fld v 0 5, 8 * (k.turn + 1)) else k.lbPend)
      ∧ (kept 0x040).descOf i = { cut := (k.descOf i).cut, dom := v.extractLsb' 40 8, sello := Nat.min (fld v 32 6) 48
                                  selreg := fld v 27 5, count := Nat.min (fld v 16 11) 1024, base := fld v 0 10 }
      ∧ (∀ j, j < 16 → (kept 0x042 (4 * j)).ringAt j = { k.ringAt j with base := fld v 0 21, tiles := fld v 24 8 }
          ∧ (kept 0x042 (4 * j + 1)).ringAt j = { k.ringAt j with layout := v }
          ∧ (kept 0x042 (4 * j + 2)).ringAt j = k.ringAt j
          ∧ (kept 0x042 (4 * j + 3)).ringAt j = { k.ringAt j with sigma := v.extractLsb' 0 32 })
      ∧ (i < 8 → rd (kept 0x060).evsel i 0 = v &&& 0x80FFFF800000FFFF ∧ rd (kept 0x061).evcnt i 0 = v &&& 0x8000FFFFFFFFFFFF) := by
  have kept (n i : Nat) (own : (regInfo n).held = .core) : (s.writeReg c { num := n, idx := i, slot, dom := d } v).core c =
      (s.core c).writeReg { num := n, idx := i, slot, dom := d } v := by
    simp only [State.writeReg, own, State.core_modCore_same]
  have ring (j r : Nat) (lt : j < 16) (word : r < 4) :
      ((s.writeReg c { num := 0x042, idx := 4 * j + r, slot, dom := d } v).core c).ringAt j = ((s.core c).ringAt j).write r v := by
    rw [kept _ _ rfl]
    simp only [Core.writeReg, entry_word word, Core.ringAt, rd_wr_same _ _ _ _ lt]
  dsimp only
  rw [kept 0x030 i rfl, kept 0x031 i rfl, kept 0x040 i rfl, kept 0x060 i rfl, kept 0x061 i rfl]
  refine ⟨rfl, ?_, Tab.get_set_same .., fun j lt => ⟨ring j 0 lt (by decide), ring j 1 lt (by decide), ring j 2 lt (by decide),
    ring j 3 lt (by decide)⟩, fun lt => ⟨rd_wr_same _ _ _ _ lt, rd_wr_same _ _ _ _ lt⟩⟩
  show ((s.core c).l1cfgWrite v).lbPend = _
  unfold Core.l1cfgWrite
  split <;> rfl

theorem State.writeReg_package :
    let left (n : Nat) : State := s.writeReg c { num := n, idx := i, slot, dom := d } v
    (left 0x050).ptbase = v &&& 0x3FFFFFFFFFFF ∧ ((left 0x051).core c).ptPend = some v ∧ (left 0x051).ptcfg = s.ptcfg
      ∧ (left 0x052).pterr = 0 ∧ (left 0x053).shoot.length = s.shoot.length + 1
      ∧ (left 0x070).qtab = v &&& 0x3FFFFFF80000
      ∧ (left 0x071).pwrcap = (if v.toNat < 800 then 800 else if 3200 < v.toNat then 3200 else v)
      ∧ fld (left 0x075).pkgid 0 19 = fld v 0 19 ∧ ∀ j, 19 ≤ j → (left 0x075).pkgid.getLsbD j = s.pkgid.getLsbD j := by
  refine ⟨rfl, ?_, rfl, rfl, List.length_append, rfl, pwrcap_stored v, ?_, fun j above => ?_⟩
  · show ((s.modCore c fun k => { k with ptPend := some v }).core c).ptPend = _
    rw [State.core_modCore_same]
  · show fld (setFld s.pkgid 0 19 (fld v 0 19)) 0 19 = _
    rw [fld_setFld_same _ (by decide), Nat.mod_eq_of_lt (fld_lt ..)]
  · show (setFld s.pkgid 0 19 (fld v 0 19)).getLsbD j = _
    rw [getLsbD_setFld, if_neg (by omega)]

end

/-- Settles O43: SYSR and SYSW pass their checks, what a register reads as and what a write leaves is said by the lemma about
its holder, and SEGW, SEGR, TIME and EVTR run to their end. -/
theorem systemRegisters : Obligations.SystemRegisters := by
  unfold Obligations.SystemRegisters
  refine ⟨fun x s read full => sysr_run read full, fun x s read => sysw_run read, fun s c slot d i => ?_,
    fun s c slot d i v => ?_, fun x s read => ?_, fun x s read full => ?_⟩
  case refine_1 =>
    obtain ⟨preq, lb, desc, cue, ring, route, evsel, evcnt⟩ := s.readReg_core c slot d i
    refine ⟨s.readReg_thread c slot d i, s.readReg_domain c slot d i, s.busy_iff, ⟨preq, lb, ?_, cue, ?_, route, evsel, evcnt⟩,
      s.readReg_package c slot d i⟩
    · intro y sello selreg count base
      rw [desc]
      exact y.word_fields sello selreg count base
    · intro j g base _ head ready held claims
      obtain ⟨geom, layout, state, sigma⟩ := ring j
      exact ⟨geom.trans (g.geom_eq base), layout, state.trans (g.state_eq head ready held claims), sigma⟩
  case refine_2 =>
    refine ⟨fun a held => s.writeReg_thread c slot d i v held, fun free => ?_, s.writeReg_domain c slot d i v,
      s.writeReg_work c slot d v, s.writeReg_core c slot d i v, s.writeReg_package c slot d i v⟩
    exact ⟨State.writeReg_empty free rfl, State.writeReg_empty free rfl, State.writeReg_empty free rfl,
      State.writeReg_empty free rfl⟩
  case refine_3 =>
    intro ss o nb nl nr own short narrows
    exact segw_run read rfl rfl rfl own short narrows
  case refine_4 =>
    refine ⟨segr_run read full, fun zero => ?_, fun other => ⟨(Config.clockSkew s.cur s.me.cycle).val, ?_, ?_⟩, evtr_run read full⟩
    · rw [time_run read full, if_pos zero]
    · exact Nat.le_of_lt_succ (Config.clockSkew s.cur s.me.cycle).isLt
    · rw [time_run read full, if_neg other]

end Sys2Proof.Machine
end

section
/-! SUPPORT. PARK, HALT, YIELD, EXIT and SEND run to their end (R89 to R92, R355). -/

namespace Sys2Proof.Machine

/-- Updates of the issuing thread that agree on it agree. -/
theorem State.modThread_congr {s : State} {a : Thread} (held : s.thread? = some a) {f g : Thread → Thread} (same : f a = g a) :
    s.modThread f = s.modThread g := by
  rw [s.modThread_eq, s.modThread_eq, held, Option.map_some, Option.map_some, same]

/-! ### The wake of a parked thread (R89) -/

/-- A message at a port of the mask wakes the thread in the cycle in which it parks. -/
theorem Thread.wake_ready {t : Thread} {mask : BitVec 4} {deadline : Option Nat} {cycle : Nat} (d : Nat)
    (ready : t.readyPorts mask ≠ 0) (early : deadline.any (· < cycle) = false) :
    { t with status := .parked mask deadline d }.wake cycle = { t with status := .running }.setG d (word (t.readyPorts mask)) := by
  have ports : { t with status := .parked mask deadline d }.readyPorts mask = t.readyPorts mask := rfl
  simp [Thread.wake, ports, ready, early]

theorem Thread.wake_idle {t : Thread} {mask : BitVec 4} {deadline : Option Nat} {cycle : Nat} (d : Nat)
    (idle : t.readyPorts mask = 0) (early : deadline.any (· < cycle) = false) :
    { t with status := .parked mask deadline d }.wake cycle = { t with status := .parked mask deadline d } := by
  have ports : { t with status := .parked mask deadline d }.readyPorts mask = t.readyPorts mask := rfl
  simp [Thread.wake, ports, idle, early]

/-- A timeout that counts from this cycle is not over in it. -/
theorem timeout_early (v : Word) (cycle : Nat) :
    (if v = 0 then none else some (cycle + v.toNat) : Option Nat).any (· < cycle) = false := by
  split <;> simp

/-! ### The instructions -/

section
variable {x : FmtS} {s : State} {a : Thread}

theorem State.started_cycle (s : State) : s.started.me.cycle = s.me.cycle := by
  rw [State.started, State.me_modThread]; rfl

theorem State.taken_cycle (s : State) (ss : List Spec) : (s.taken ss).me.cycle = s.me.cycle := by
  rw [State.taken_me]; rfl

theorem src_taken (read : s.canRead [x.a]) : src x.a s.started = .ok (s.operand [x.a] 0, s.taken [x.a]) := by
  simp only [src, M.bind_apply, srcs_started read]; rfl

/-- PARK empties d and parks the thread, which wakes at once where its condition holds. -/
theorem park_run (read : s.canRead [x.a]) (full : s.canWrite x.d) :
    exec (.park x) s = ((s.taken [x.a]).modThread fun t =>
      { t.emptyG x.d.toNat with
        status := .parked (x.op.extractLsb' 0 4)
          (if s.operand [x.a] 0 = 0 then none else some (s.me.cycle + (s.operand [x.a] 0).toNat)) x.d.toNat }.wake
        s.me.cycle).goesOn x.e x.w := by
  refine State.instr_ok read.1 x.e x.w ?_
  simp [waitDst_ok full, src_taken read, State.taken_cycle, emptyG]

theorem State.taken_status (held : s.thread? = some a) (ss : List Spec) :
    ∃ b, (s.taken ss).thread? = some b ∧ b.status = .running := by
  obtain ⟨q, tag, taking⟩ := State.taken_taking held ss
  refine ⟨(s.taken ss).thread, ?_, by rw [taking]; rfl⟩
  rw [State.taken_thread held, State.taken_eq, State.thread?_modThread, held]
  rfl

theorem Thread.emptyG_readyPorts (t : Thread) (d : Nat) (mask : BitVec 4) : (t.emptyG d).readyPorts mask = t.readyPorts mask := by
  unfold Thread.emptyG; split <;> rfl

theorem park_idle (read : s.canRead [x.a]) (full : s.canWrite x.d)
    (idle : (s.taken [x.a]).thread.readyPorts (x.op.extractLsb' 0 4) = 0) :
    exec (.park x) s = (((s.taken [x.a]).emptied x.d).modThread fun t => { t with
      status := .parked (x.op.extractLsb' 0 4)
        (if s.operand [x.a] 0 = 0 then none else some (s.me.cycle + (s.operand [x.a] 0).toNat)) x.d.toNat }).goesOn x.e x.w := by
  obtain ⟨a, held⟩ := Option.isSome_iff_exists.mp read.1
  obtain ⟨b, there, -⟩ := State.taken_status held [x.a]
  rw [State.thread_of_some there] at idle
  rw [park_run read full, State.emptied, State.modThread_modThread]
  refine congrArg (State.goesOn · x.e x.w) (State.modThread_congr there ?_)
  exact Thread.wake_idle _ (by rwa [Thread.emptyG_readyPorts]) (timeout_early ..)

theorem park_ready (read : s.canRead [x.a]) (full : s.canWrite x.d)
    (ready : (s.taken [x.a]).thread.readyPorts (x.op.extractLsb' 0 4) ≠ 0) :
    exec (.park x) s = (((s.taken [x.a]).emptied x.d).modThread fun t =>
      t.setG x.d.toNat (word ((s.taken [x.a]).thread.readyPorts (x.op.extractLsb' 0 4)))).goesOn x.e x.w := by
  obtain ⟨a, held⟩ := Option.isSome_iff_exists.mp read.1
  obtain ⟨b, there, running⟩ := State.taken_status held [x.a]
  rw [State.thread_of_some there] at ready ⊢
  rw [park_run read full, State.emptied, State.modThread_modThread]
  refine congrArg (State.goesOn · x.e x.w) (State.modThread_congr there ?_)
  have same : { b.emptyG x.d.toNat with status := .running } = b.emptyG x.d.toNat := by
    rw [← running, ← Thread.emptyG_status b x.d.toNat]
  rw [Thread.wake_ready _ (by rwa [Thread.emptyG_readyPorts]) (timeout_early ..), Thread.emptyG_readyPorts, same]

theorem yield_run (read : s.canRead []) :
    exec (.yield x) s = (s.started.modThread fun t => { t with yield := !t.resident, yieldAt := s.me.cycle }).goesOn x.e x.w := by
  refine State.instr_ok read.1 x.e x.w ?_
  simp only [M.bind_apply, core_apply, modThread_apply, State.started_cycle]

/-- HALT parks for a message at any port, with no timeout. -/
theorem halt_run (read : s.canRead []) (zero : s.thread.dom = 0) :
    exec (.halt x) s = (s.started.modThread fun t =>
      { t with status := .parked 0xF none 0 }.wake s.me.cycle).goesOn x.e x.w := by
  obtain ⟨a, held⟩ := Option.isSome_iff_exists.mp read.1
  have dom : s.started.thread.dom = 0 := by rw [State.started_thread held, ← zero, State.thread_of_some held]
  refine State.instr_ok read.1 x.e x.w ?_
  simp only [M.bind_apply, thread_apply, need_apply, dom, beq_self_eq_true, if_true, core_apply, modThread_apply,
    State.started_cycle]

theorem halt_idle (read : s.canRead []) (zero : s.thread.dom = 0) (idle : s.thread.readyPorts 0xF = 0) :
    exec (.halt x) s = (s.started.modThread fun t => { t with status := .parked 0xF none 0 }).goesOn x.e x.w := by
  obtain ⟨a, held⟩ := Option.isSome_iff_exists.mp read.1
  rw [State.thread_of_some held] at idle
  rw [halt_run read zero, State.started, State.modThread_modThread, State.modThread_modThread]
  exact congrArg (State.goesOn · x.e x.w) (State.modThread_congr held (Thread.wake_idle 0 idle rfl))

theorem halt_ready (read : s.canRead []) (zero : s.thread.dom = 0) (ready : s.thread.readyPorts 0xF ≠ 0) :
    exec (.halt x) s = (s.started.modThread fun t => { t with status := .running }).goesOn x.e x.w := by
  obtain ⟨a, held⟩ := Option.isSome_iff_exists.mp read.1
  rw [State.thread_of_some held] at ready
  rw [halt_run read zero, State.started, State.modThread_modThread, State.modThread_modThread]
  exact congrArg (State.goesOn · x.e x.w) (State.modThread_congr held (Thread.wake_ready 0 ready rfl))

theorem exit_run (read : s.canRead [x.a]) :
    exec (.exit x) s = .next ((s.taken [x.a]).modThread fun t => { t with status := .exiting (s.operand [x.a] 0) }) := by
  refine (State.atPoint_eq read.1 _).trans ?_
  simp only [M.bind_apply, src_taken read, modThread_apply, State.settle_ok]

theorem State.taken_tid (held : s.thread? = some a) (ss : List Spec) : (s.taken ss).thread.tid = a.tid := by
  obtain ⟨q, tag, taking⟩ := State.taken_taking held ss
  rw [taking]; rfl

theorem State.taken_pc (held : s.thread? = some a) (ss : List Spec) : (s.taken ss).thread.pc = a.pc := by
  obtain ⟨q, tag, taking⟩ := State.taken_taking held ss
  rw [taking]; rfl

theorem send_run (read : s.canRead [x.a, x.b]) (full : s.canWrite x.d) (room : (s.me.slot s.me.turnSlot).sendq.length < 2) :
    exec (.send x) s = (((s.taken [x.a, x.b]).emptied x.d).modMe fun k =>
      k.setSlot k.turnSlot { k.slot k.turnSlot with sendq := (k.slot k.turnSlot).sendq ++ [
        { dst := s.operand [x.a, x.b] 0, msg := ⟨s.operand [x.a, x.b] 1, x.imm.extractLsb' 0 8⟩, d := x.d.toNat
          tid := s.thread.tid, dom := s.thread.dom, pc := s.thread.pc }] }).goesOn x.e x.w := by
  obtain ⟨a, held⟩ := Option.isSome_iff_exists.mp read.1
  have queue : (s.started.me.slot s.started.me.turnSlot).sendq = (s.me.slot s.me.turnSlot).sendq := by
    rw [State.started, State.me_modThread]
    simp [Core.modThread, Core.setThread, Core.turnSlot_lt]
  refine State.instr_ok read.1 x.e x.w ?_
  simp only [M.bind_apply, waitDst_ok full, core_apply, waitFor_apply, queue, room, decide_true, if_true, srcs_started read,
    thread_apply, emptyG, modThread_apply, modMe_apply, State.taken_tid held, State.taken_dom held, State.taken_pc held,
    State.thread_of_some held]
  rfl

end

end Sys2Proof.Machine
end

section
/-! SUPPORT. What accesses leave alone where no packet is lost (R278, R279, R373): of the cores the lines of their L1 and
counts change, of the package memory and the translations held; and an access whose checks pass reaches its elements (R268). -/

namespace Sys2Proof.Machine

/-! ### States of which memory, translations and the L1s have changed -/

/-- Core `k'` differs from `k` in the lines and the dirty list of its L1 and in the events counted. -/
def Core.LinesOnly (k k' : Core) : Prop := k' = { k with lines := k'.lines, dirty := k'.dirty, tally := k'.tally }

theorem Core.LinesOnly.refl (k : Core) : k.LinesOnly k := rfl

theorem Core.LinesOnly.trans {k k' k'' : Core} (h : k.LinesOnly k') (h' : k'.LinesOnly k'') : k.LinesOnly k'' := by
  unfold Core.LinesOnly at h h' ⊢
  rw [h', h]

theorem Core.LinesOnly.count (k : Core) (code : Nat) (slot : Option Nat) (d n : Nat) : k.LinesOnly (k.count code slot d n) := by
  unfold Core.LinesOnly Core.count; split <;> rfl

/-- State `t` differs from `s` in memory with its keys, in translations and in the L1s of cores. -/
def State.LinesOnly (s t : State) : Prop :=
  t = { s with cores := t.cores, mem := t.mem, blockKey := t.blockKey, cipherKey := t.cipherKey, rereads := t.rereads,
               tlb := t.tlb, pterr := t.pterr }
    ∧ ∀ j, (s.core j).LinesOnly (t.core j)

theorem State.LinesOnly.refl (s : State) : s.LinesOnly s := ⟨rfl, fun _ => rfl⟩

theorem State.LinesOnly.trans {s t u : State} (h : s.LinesOnly t) (h' : t.LinesOnly u) : s.LinesOnly u := by
  obtain ⟨eq, cores⟩ := h
  obtain ⟨eq', cores'⟩ := h'
  exact ⟨by rw [eq', eq], fun j => (cores j).trans (cores' j)⟩

theorem State.LinesOnly.modCore {s : State} {c : Nat} {f : Core → Core} (h : (s.core c).LinesOnly (f (s.core c))) :
    s.LinesOnly (s.modCore c f) := by
  refine ⟨rfl, fun j => ?_⟩
  rw [State.core_modCore]
  split
  next here => exact here ▸ h
  next => exact rfl

theorem State.LinesOnly.count (s : State) (c code : Nat) (slot : Option Nat) (d n : Nat) :
    s.LinesOnly (s.modCore c fun k => k.count code slot d n) := .modCore (.count ..)

section
variable {s t : State} (h : s.LinesOnly t)
include h

theorem State.LinesOnly.cur : t.cur = s.cur := by rw [h.1]
theorem State.LinesOnly.tampered : t.tampered = s.tampered := by rw [h.1]
theorem State.LinesOnly.ctxs : t.ctxs = s.ctxs := by rw [h.1]
theorem State.LinesOnly.homes : t.homes = s.homes := by rw [h.1]
theorem State.LinesOnly.launches : t.launches = s.launches := by rw [h.1]
theorem State.LinesOnly.bars : t.bars = s.bars := by rw [h.1]

theorem State.LinesOnly.me : s.me.LinesOnly t.me := by
  have here := h.2 s.cur
  rwa [State.me, State.me, h.cur]

theorem State.LinesOnly.thread? : t.thread? = s.thread? := by
  have here := h.me
  unfold Core.LinesOnly at here
  rw [State.thread?, here]
  rfl

theorem State.LinesOnly.thread : t.thread = s.thread := by rw [State.thread, State.thread, h.thread?]

theorem State.LinesOnly.spawns : t.me.spawns = s.me.spawns := by
  rw [show t.me = _ from h.me]

theorem State.LinesOnly.clear (free : s.clear) : t.clear := by
  refine ⟨?_, ?_⟩
  · rw [State.toObject, h.bars, h.cur, h.thread]
    exact free.1
  · rw [h.cur, h.tampered]
    exact free.2

end

/-- Steps at a core of which no packet fails leave the rest alone, one after another. -/
theorem State.LinesOnly.foldl {α : Type} {c : Nat} {f : State → α → State}
    (step : ∀ (u : State) (x : α), c ∉ u.tampered → u.LinesOnly (f u x)) (l : List α) {s : State} (free : c ∉ s.tampered) :
    s.LinesOnly (l.foldl f s) := by
  induction l generalizing s with
  | nil => exact .refl s
  | cons x r ih =>
    have first := step s x free
    exact first.trans (ih (by rwa [first.tampered]))

/-! ### Memory -/

/-- State `t` differs from `s` in memory, its keys and translations. -/
def State.MemoryOnly (s t : State) : Prop :=
  t = { s with mem := t.mem, blockKey := t.blockKey, cipherKey := t.cipherKey, rereads := t.rereads, tlb := t.tlb,
               pterr := t.pterr }

theorem State.MemoryOnly.trans {s t u : State} (h : s.MemoryOnly t) (h' : t.MemoryOnly u) : s.MemoryOnly u := by
  unfold State.MemoryOnly at h h' ⊢
  rw [h', h]

theorem State.MemoryOnly.lines {s t : State} (h : s.MemoryOnly t) : s.LinesOnly t := by
  refine ⟨by rw [h], fun j => ?_⟩
  have core : t.core j = s.core j := by rw [h]; rfl
  rw [core]
  exact .refl _

theorem State.TableOnly.lines {s t : State} (h : s.TableOnly t) : s.LinesOnly t := by
  refine State.MemoryOnly.lines ?_
  unfold State.MemoryOnly
  rw [h]

theorem State.MemoryOnly.wrPa (s : State) (d pa : Nat) (b : Byte) : s.MemoryOnly (s.wrPa d pa b) := by
  have tail : s.MemoryOnly (s.noteTail pa) := by
    unfold State.noteTail
    dsimp only
    split <;> exact rfl
  have rekey (u : State) : u.MemoryOnly (u.rekey d pa) := by
    rcases u.rekey_cases d pa with ⟨-, eq⟩ | ⟨-, -, eq⟩ | eq <;> rw [eq]
    · exact rfl
    · exact rfl
    · unfold State.MemoryOnly
      rw [State.wrRaw_eq]
  exact tail.trans ((rekey _).trans rfl)

theorem State.MemoryOnly.flushLine (s : State) (l : Line) : s.MemoryOnly (s.flushLine l) := by
  unfold State.flushLine
  generalize List.range 32 = is
  induction is generalizing s with
  | nil => exact rfl
  | cons i r ih =>
    rw [List.foldl_cons]
    split
    · exact .trans (.wrPa ..) (ih _)
    · exact ih s

/-! ### Write-backs, fills and reads of elements -/

section
variable {s : State} {c : Nat} (free : c ∉ s.tampered)
include free

theorem State.LinesOnly.writeBack (l : Line) (keep : Bool) : s.LinesOnly (s.writeBack c l keep) := by
  unfold State.writeBack
  rw [if_neg (by simp [free])]
  refine (State.MemoryOnly.flushLine s l).lines.trans (.modCore ?_)
  have line : ∀ k : Core, k.LinesOnly { k.putLine l (if keep then some { l with written := 0 } else none) with
      dirty := (k.putLine l (if keep then some { l with written := 0 } else none)).dirty.filter (· != (l.dom, l.va)) } :=
    fun _ => rfl
  dsimp only
  split
  · exact line _
  · exact (line _).trans (.count ..)

theorem State.LinesOnly.flushVa (dom : Byte) (va : Nat) (keep : Bool) : s.LinesOnly (s.flushVa c dom va keep) := by
  unfold State.flushVa
  split
  · split
    · exact .refl s
    · exact .writeBack free _ _
  · exact .refl s

theorem State.LinesOnly.fillLine (dom : Byte) (va pa : Nat) : s.LinesOnly (s.fillLine c dom va pa).2 := by
  unfold State.fillLine
  dsimp only
  split
  · exact .refl s
  · have counted := State.LinesOnly.count s c 13 none dom.toNat 1
    have free' := free
    rw [← counted.tampered] at free'
    refine counted.trans ?_
    generalize (s.modCore c fun k => k.count 13 none dom.toNat 1) = u at free'
    have placed (l : Line) (w : State) : w.LinesOnly (w.modCore c fun k => k.putLine l (some l)) := .modCore rfl
    refine .trans (t := match (u.core c).lines with
      | l :: r => if (u.core c).lb * 1024 ≤ r.length + 1 then u.writeBack c l false else u
      | [] => u) ?_ (placed _ _)
    split
    · split
      · exact .writeBack free' _ _
      · exact .refl u
    · exact .refl u

/-- An element that is read where no packet fails. -/
theorem State.LinesOnly.load (dom : Byte) (scope : Nat) (l : Lane) : s.LinesOnly (s.load c dom scope l).2 := by
  unfold State.load
  split
  · exact .count ..
  · split
    · have counted : s.LinesOnly (s.countL1 c dom l) := .count ..
      have bytes (is : List Nat) (bs : List Byte) (u : State) (free : c ∉ u.tampered) :
          u.LinesOnly (is.foldl (fun (p : List Byte × State) i =>
            (p.1 ++ [(p.2.rdL1 c dom (l.ea + i) (l.phys i)).1], (p.2.rdL1 c dom (l.ea + i) (l.phys i)).2)) (bs, u)).2 := by
        induction is generalizing bs u with
        | nil => exact .refl u
        | cons i r ih =>
          have first : u.LinesOnly (u.rdL1 c dom (l.ea + i) (l.phys i)).2 := State.LinesOnly.fillLine free ..
          exact first.trans (ih _ _ (by rwa [first.tampered]))
      exact counted.trans (bytes _ _ _ (by rwa [counted.tampered]))
    · exact .foldl (fun u va free => .flushVa free _ _ _) _ free

theorem State.LinesOnly.release (dom scope : Nat) : s.LinesOnly (s.release c dom scope) := by
  unfold State.release
  split
  · exact .refl s
  · have counted := State.LinesOnly.count s c 15 none dom 1
    exact counted.trans (.foldl (fun u e free => .flushVa free _ _ _) _ (by rwa [counted.tampered]))

end

theorem State.LinesOnly.element {s : State} (free : s.clear) (scope : Nat) (l : Lane) : s.LinesOnly (s.element scope l).2 := by
  unfold State.element
  split
  · exact .refl s
  · exact .load free.2 ..

theorem State.LinesOnly.released {s : State} (free : s.clear) (scope : Nat) : s.LinesOnly (s.released scope) :=
  .release free.2 ..

/-! ### An access whose checks pass (R254, R268) -/

theorem forM_ok {α : Type} {f : α → M PUnit} {s : State} {l : List α} (h : ∀ a ∈ l, f a s = .ok (⟨⟩, s)) :
    l.forM f s = .ok (⟨⟩, s) := by
  induction l with
  | nil => rfl
  | cons a r ih =>
    obtain ⟨first, rest⟩ := List.forall_mem_cons.mp h
    show (f a >>= fun _ => r.forM f) s = _
    rw [M.bind_apply, first]
    exact ih rest

theorem mapM_ok {α β : Type} {f : α → M β} {g : α → β} {s : State} {l : List α} (h : ∀ a ∈ l, f a s = .ok (g a, s)) :
    l.mapM f s = .ok (l.map g, s) := by
  induction l with
  | nil => rfl
  | cons a r ih =>
    obtain ⟨first, rest⟩ := List.forall_mem_cons.mp h
    simp only [List.mapM_cons, M.bind_apply, first, ih rest, M.pure_apply, List.map_cons]

section
variable {nd : Need} {n : Nat}

theorem State.LinesOnly.countMiss (s : State) (c dom va : Nat) : s.LinesOnly (s.countMiss c dom va) := by
  unfold State.countMiss
  split
  · exact .count ..
  · exact .refl s

theorem State.LinesOnly.physOf {s s1 : State} {va pa : Nat} (h : s.physOf nd va = some (pa, s1)) : s.LinesOnly s1 := by
  unfold State.physOf at h
  have after := (State.LinesOnly.countMiss s s.cur s.thread.dom.toNat va).trans
    (State.TableOnly.translate _ (clusterOf s.cur) s.thread.dom.toNat va (nd.setWidth 4)).lines
  split at h
  next eq => cases h; rwa [eq] at after
  next => cases h

theorem xlate_physOf {s s1 : State} {va pa : Nat} (h : s.physOf nd va = some (pa, s1)) : xlate va nd s = .ok (.ok pa, s1) := by
  unfold State.physOf at h
  split at h
  next eq => cases h; simp only [xlate, eq]
  next => cases h

/-- Pages that all translate. -/
theorem xlateVas_physAll {s s1 : State} {vas ps : List Nat} (h : s.physAll nd vas = some (ps, s1)) :
    (xlateVas nd vas s = Except.ok ((ps, none), s1)) ∧ s.LinesOnly s1 := by
  induction vas generalizing s ps with
  | nil => cases h; exact ⟨rfl, .refl _⟩
  | cons va r ih =>
    rw [State.physAll] at h
    split at h
    next => cases h
    next pa s2 first =>
      obtain ⟨⟨qs, s3⟩, rest, eq⟩ := Option.map_eq_some_iff.mp h
      cases eq
      obtain ⟨run, only⟩ := ih rest
      refine ⟨?_, (State.LinesOnly.physOf first).trans only⟩
      simp only [xlateVas, M.bind_apply, xlate_physOf first, run, M.pure_apply]

/-- Elements that are all found; none of their searches loses its packet. -/
theorem xlateLanes_lanesAt {s s1 : State} {eas : List Nat} {ls : List Lane} (free : s.clear)
    (h : s.lanesAt nd n eas = some (ls, s1)) :
    (xlateLanes nd n eas s = .ok ((ls, none), s1)) ∧ s.LinesOnly s1 ∧ ∀ l ∈ ls, l.lost = false := by
  induction eas generalizing s ls with
  | nil => cases h; exact ⟨rfl, .refl _, by simp⟩
  | cons ea r ih =>
    rw [State.lanesAt] at h
    dsimp only at h
    split at h
    next => cases h
    next ps s2 first =>
      obtain ⟨⟨ks, s3⟩, rest, eq⟩ := Option.map_eq_some_iff.mp h
      cases eq
      obtain ⟨pages, only⟩ := xlateVas_physAll first
      obtain ⟨run, only', whole⟩ := ih (only.clear free) rest
      refine ⟨?_, only.trans only', List.forall_mem_cons.mpr ⟨rfl, whole⟩⟩
      have pages : xlateVas nd (if Lane.win { ea, n } = true then [] else Lane.vas { ea, n }) s = .ok ((ps, none), s2) := pages
      simp only [xlateLanes, M.bind_apply, walkLost_clear free, Bool.or_false, pages, run, M.pure_apply, Option.or_none]

variable {s s1 : State} {seg al : Nat} {offs : List Nat} {ls : List Lane} (free : s.clear)
  (h : s.reach seg offs n al nd = some (ls, s1))
include free h

/-- R268: an access that passes every check reaches its elements. -/
theorem access_reach : (access seg offs n al nd s = .ok (ls, s1)) ∧ s.LinesOnly s1 ∧ ∀ l ∈ ls, l.lost = false := by
  unfold State.reach at h
  dsimp only at h
  split at h
  next checks =>
    obtain ⟨aligned, inside, stores, ranges⟩ := checks
    obtain ⟨run, only, whole⟩ := xlateLanes_lanesAt free h
    refine ⟨?_, only, whole⟩
    have first : offs.forM (fun o => alignedAt seg o al) s = .ok (⟨⟩, s) :=
      forM_ok fun o ho => by simp [alignedAt, need_apply, aligned o ho]
    have second : offs.mapM (fun o => segOf seg o n nd) s =
        .ok (offs.map fun o => (rd s.thread.seg seg {}).base.toNat + o, s) :=
      mapM_ok fun o ho => by simp only [segOf, M.bind_apply, thread_apply, inside o ho, M.pure_apply]
    have third : ((offs.map fun o => (rd s.thread.seg seg {}).base.toNat + o).filter inWin).forM
        (fun ea => do let _ ← storeCheck ea n : Nat → M PUnit) s = .ok (⟨⟩, s) := by
      refine forM_ok fun ea hea => ?_
      obtain ⟨there, window⟩ := List.mem_filter.mp hea
      simp [storeCheck, stores ea there window]
    have fourth : (offs.map fun o => (rd s.thread.seg seg {}).base.toNat + o).forM
        (fun ea => noRangeHit ea n (nd.getLsbD 1)) s = .ok (⟨⟩, s) :=
      forM_ok fun ea hea => by
        simp only [noRangeHit, M.bind_apply, thread_apply, core_apply, ranges ea hea, M.pure_apply]
    unfold access
    simp only [M.bind_apply, first, second, third, fourth, run, afterInit_clear (only.clear free), M.pure_apply]
  next => cases h

end

end Sys2Proof.Machine
end

section
/-! SUPPORT. SPAWN and SPAWNR run to their end (R86): what the read of a task record leaves alone, and the request that waits. -/

namespace Sys2Proof.Machine

/-! ### What a check of a task record reads (R86, R88) -/

/-- What a thread passes on to a task, and what names it. -/
def Thread.placed (t : Thread) := (t.tid, t.dom, t.launch, t.ctx, t.home)

/-- From `s` to `t` nothing has changed of what the checks of a record read, of the queues of requests and launches, and
of what the issuing thread passes on. -/
structure State.Calm (s t : State) : Prop where
  package : (t.cur, t.ctxs, t.homes, t.launches, t.bars, t.tampered) = (s.cur, s.ctxs, s.homes, s.launches, s.bars, s.tampered)
  core : (t.me.spawns, t.me.desc, t.me.part0) = (s.me.spawns, s.me.desc, s.me.part0)
  thread : ∃ a b, s.thread? = some a ∧ t.thread? = some b ∧ b.placed = a.placed

theorem State.Calm.trans {s t u : State} (h : s.Calm t) (h' : t.Calm u) : s.Calm u := by
  refine ⟨h'.package.trans h.package, h'.core.trans h.core, ?_⟩
  obtain ⟨a, b, held, there, same⟩ := h.thread
  obtain ⟨b', c, held', there', same'⟩ := h'.thread
  cases there.symm.trans held'
  exact ⟨a, c, held, there', same'.trans same⟩

theorem State.LinesOnly.calm {s t : State} (h : s.LinesOnly t) {a : Thread} (held : s.thread? = some a) : s.Calm t := by
  refine ⟨by rw [h.1], ?_, a, a, held, h.thread?.trans held, rfl⟩
  rw [show t.me = _ from h.me]

theorem State.Calm.modThread {s : State} {a : Thread} (held : s.thread? = some a) {f : Thread → Thread}
    (same : (f a).placed = a.placed) : s.Calm (s.modThread f) := by
  refine ⟨rfl, by rw [State.me_modThread]; rfl, a, f a, held, ?_, same⟩
  rw [State.thread?_modThread, held]
  rfl

/-- A change of the core beside its slots leaves the issuing thread. -/
theorem State.thread?_modMe_same {s : State} {f : Core → Core} (slots : (f s.me).slots = s.me.slots)
    (cycle : (f s.me).cycle = s.me.cycle) : (s.modMe f).thread? = s.thread? := by
  simp only [State.thread?, State.me_modMe, Core.threadAt, Core.slot, Core.turnSlot, slots, cycle]

@[simp] theorem State.withId_thread? (u : State) : u.withId.thread? = u.thread? := rfl

section
variable {s t : State} (h : s.Calm t)
include h

theorem State.Calm.held : ∃ b, t.thread? = some b := by
  obtain ⟨a, b, -, there, -⟩ := h.thread
  exact ⟨b, there⟩

theorem State.Calm.cur : t.cur = s.cur := congrArg (·.1) h.package
theorem State.Calm.launches : t.launches = s.launches := congrArg (·.2.2.2.1) h.package
theorem State.Calm.spawns : t.me.spawns = s.me.spawns := congrArg (·.1) h.core

theorem State.Calm.placed : t.thread.placed = s.thread.placed := by
  obtain ⟨a, b, held, there, same⟩ := h.thread
  rw [State.thread_of_some held, State.thread_of_some there, same]

theorem State.Calm.tid : t.thread.tid = s.thread.tid := congrArg (·.1) h.placed
theorem State.Calm.dom : t.thread.dom = s.thread.dom := congrArg (·.2.1) h.placed
theorem State.Calm.launch : t.thread.launch = s.thread.launch := congrArg (·.2.2.1) h.placed

theorem State.Calm.clear (free : s.clear) : t.clear := by
  have bars : t.bars = s.bars := congrArg (·.2.2.2.2.1) h.package
  have tampered : t.tampered = s.tampered := congrArg (·.2.2.2.2.2) h.package
  refine ⟨?_, ?_⟩
  · rw [State.toObject, bars, h.cur, h.tid]
    exact free.1
  · rw [h.cur, tampered]
    exact free.2

/-- A record passes its check for the thread before as for the thread after. -/
theorem State.Calm.recordOk (r : RawTask) {a b : Thread} (same : b.placed = a.placed) : t.recordOk r b = s.recordOk r a := by
  have ctxs : t.ctxs = s.ctxs := congrArg (·.2.1) h.package
  have desc : t.me.desc = s.me.desc := congrArg (·.2.1) h.core
  have part0 : t.me.part0 = s.me.part0 := congrArg (·.2.2) h.core
  have ctx : t.ctx b.ctx = s.ctx a.ctx := by
    rw [State.ctx, State.ctx, ctxs, show b.ctx = a.ctx from congrArg (·.2.2.2.1) same]
  have valid (d set : Nat) : t.me.setValid d set = s.me.setValid d set := by
    rw [Core.setValid, Core.setValid, Core.descOf, Core.descOf, Core.cueBase, Core.cueBase, Core.cueCount, Core.cueCount, desc,
      part0]
  rw [State.recordOk, State.recordOk, ctx, valid]

theorem State.Calm.stageOk (r : RawTask) {a b : Thread} (same : b.placed = a.placed) : t.stageOk r b = s.stageOk r a := by
  have homes : t.homes = s.homes := congrArg (·.2.2.1) h.package
  have home : b.home = a.home := congrArg (·.2.2.2.2) same
  simp only [State.stageOk, State.homeCores, homes, home]

end

/-! ### Events that a read pends (R273, R346) -/

theorem Thread.watchOne_eq (t : Thread) (saving : Bool) (kind : Nat) (ls : List Lane) (i : Nat) :
    t.watchOne saving kind ls i = t ∨ ∃ bit a b c d e, t.watchOne saving kind ls i = t.pendEvent bit a b c d e := by
  unfold Thread.watchOne
  split
  · exact .inl rfl
  · split
    · exact .inr ⟨_, _, _, _, _, _, rfl⟩
    · exact .inl rfl

/-- A watchpoint changes nothing that is passed on, and no register. -/
theorem Thread.watchAll_placed (t : Thread) (saving : Bool) (kind : Nat) (ls : List Lane) :
    (t.watchAll saving kind ls).placed = t.placed ∧ (t.watchAll saving kind ls).full = t.full := by
  have one (t : Thread) (i : Nat) :
      (t.watchOne saving kind ls i).placed = t.placed ∧ (t.watchOne saving kind ls i).full = t.full := by
    rcases t.watchOne_eq saving kind ls i with eq | ⟨bit, a, b, c, d, e, eq⟩ <;> rw [eq] <;> exact ⟨rfl, rfl⟩
  obtain ⟨first, kept⟩ := one t 0
  obtain ⟨second, kept'⟩ := one (t.watchOne saving kind ls 0) 1
  exact ⟨second.trans first, kept'.trans kept⟩

theorem State.Calm.erring {s : State} {a : Thread} (held : s.thread? = some a) (bad : Bool) (ea : Nat) :
    s.Calm (s.erring bad ea) := by
  unfold State.erring
  split
  · exact .modThread held rfl
  · exact (State.LinesOnly.refl s).calm held

theorem State.Calm.watched {s : State} {a : Thread} (held : s.thread? = some a) (kind : Nat) (ls : List Lane) :
    s.Calm (s.watched kind ls) := .modThread held (a.watchAll_placed ..).1

theorem State.Calm.taken {s : State} {a : Thread} (held : s.thread? = some a) (ss : List Spec) : s.Calm (s.taken ss) := by
  obtain ⟨q, tag, taking⟩ := State.taken_taking held ss
  have there : (s.taken ss).thread? = some (s.reading ss).2 := by
    rw [State.taken_eq, State.thread?_modThread, held]
    rfl
  rw [State.thread_of_some there] at taking
  rw [State.taken_eq]
  exact .modThread held (by rw [taking]; rfl)

/-! ### A destination that waits for its value (R96) -/

theorem Thread.emptyG_isFull (t : Thread) {d : Nat} (nonzero : d ≠ 0) (lt : d < 32) : (t.emptyG d).isFull d = false := by
  have bit : (BitVec.ofNat 32 (2 ^ d)).getLsbD d = true := by
    rw [BitVec.getLsbD_ofNat, Nat.testBit_two_pow_self, Bool.and_true, decide_eq_true lt]
  rw [Thread.emptyG, if_neg nonzero, Thread.isFull, BitVec.getLsbD_and, BitVec.getLsbD_not, bit]
  simp [nonzero]

/-- The issuing thread awaits the value of d, also when other parts of the state have changed. -/
theorem State.awaits_of {t : State} {b : Thread} {d : Spec} (there : t.thread? = some b)
    (full : ∃ a : Thread, b.full = (a.emptyG d.toNat).full) : t.awaits d := by
  intro nonzero lt
  obtain ⟨a, same⟩ := full
  refine ⟨b, there, ?_⟩
  have empty := a.emptyG_isFull nonzero lt
  simp only [Thread.isFull, same] at empty ⊢
  exact empty

/-- A data error pends, or not, before the rest (R273). -/
theorem pendError_optional {α : Type} (bad : Bool) (ea : Nat) (rest : M α) (u : State) :
    (if bad = true then pendError ea >>= fun _ => rest else rest) u = rest (u.erring bad ea) := by
  cases bad <;> rfl

theorem watch_watched (kind : Nat) (ls : List Lane) (u : State) : watch kind ls u = .ok ((), u.watched kind ls) := rfl

/-- What names the register that awaits a value. -/
def State.target (s : State) (d scope : Nat) : Target :=
  { id := s.nextId, dom := s.thread.dom, tid := s.thread.tid, d, pc := s.thread.pc, scope }

theorem targetOf_target (d scope : Nat) (u : State) : targetOf d scope u = .ok (u.target d scope, u.withId) := rfl

/-! ### SPAWN and SPAWNR (R86) -/

/-- The state in which a record that has been read by SPAWN is checked: the data error and the watchpoints are pending, and
what the thread has written is released. -/
def State.spawnRead (s : State) (l : Lane) : State :=
  (((s.element 1 l).2.erring (s.laneBad s.cur s.thread.dom 1 l) l.ea).watched 1 [l]).released 3

/-- The request of a SPAWN whose record `r` has been read. -/
def State.spawnReq (s : State) (d : Nat) (resident : Bool) (r : RawTask) : SpawnReq :=
  let t := s.thread
  { t := s.target d 1, resident
    valid := s.recordOk r t && s.stageOk r t && !r.ident.empty
    task := { dom := t.dom, kind := r.kind, launch := t.launch, ctx := t.ctx, hndl := t.hndl
              nosteal := r.f 5 4 1 == 1, home := t.home } }

def Core.queueSpawn (k : Core) (q : SpawnReq) : Core := { k with spawns := k.spawns ++ [q] }

theorem State.spawns_queued (u : State) (d : Spec) (q : SpawnReq) (e : Bool) (w : BitVec 4) :
    (((u.withId.emptied d).modMe (·.queueSpawn q)).modThread (·.advance e w)).me.spawns = u.me.spawns ++ [q] := by
  rw [State.me_modThread, State.me_modMe, State.emptied, State.me_modThread]
  rfl

section
variable {s : State} {a : Thread} (held : s.thread? = some a) (free : s.clear) (l : Lane)
include held free

theorem State.Calm.spawnWatched :
    (s.element 1 l).2.Calm (((s.element 1 l).2.erring (s.laneBad s.cur s.thread.dom 1 l) l.ea).watched 1 [l]) := by
  obtain ⟨b, there⟩ := ((State.LinesOnly.element free 1 l).calm held).held
  have pended := State.Calm.erring there (s.laneBad s.cur s.thread.dom 1 l) l.ea
  obtain ⟨c, there'⟩ := pended.held
  exact pended.trans (.watched there' 1 [l])

theorem State.clear_spawnWatched :
    (((s.element 1 l).2.erring (s.laneBad s.cur s.thread.dom 1 l) l.ea).watched 1 [l]).clear :=
  (State.Calm.spawnWatched held free l).clear ((State.LinesOnly.element free 1 l).clear free)

theorem State.Calm.spawnRead : (s.element 1 l).2.Calm (s.spawnRead l) := by
  have watched := State.Calm.spawnWatched held free l
  obtain ⟨b, there⟩ := watched.held
  exact watched.trans ((State.LinesOnly.released (State.clear_spawnWatched held free l) 3).calm there)

end

section
variable {x : FmtS} {s s1 : State} {l : Lane} (resident : Bool)

/-- The whole effect of a SPAWN. -/
theorem spawn_ok (read : s.canRead [x.a]) (full : s.canWrite x.d) (free : s.clear)
    (reach : (s.taken [x.a]).reach (fld x.op 0 3) [(s.operand [x.a] 0 + x.imm.signExtend 64 * 64).toNat] 64 64 needR =
      some ([l], s1)) :
    spawn x resident s.started = .ok ((), ((s1.spawnRead l).withId.emptied x.d).modMe
      (·.queueSpawn ((s1.spawnRead l).spawnReq x.d.toNat resident ⟨ofLe (s1.element 1 l).1⟩))) := by
  obtain ⟨a, held⟩ := Option.isSome_iff_exists.mp read.1
  have taken := State.Calm.taken held [x.a]
  obtain ⟨b, there⟩ := taken.held
  obtain ⟨run, only, whole⟩ := access_reach (taken.clear free) reach
  have free1 := only.clear (taken.clear free)
  have loaded := load_clear free1 1 (whole l (List.mem_singleton.mpr rfl))
  unfold spawn
  simp only [M.bind_apply, waitDst_ok full, src_taken read, recOff, run, List.forIn_cons, loaded, pendError_optional,
    watch_watched, release_clear (State.clear_spawnWatched (only.thread?.trans there) free1 l), M.get_apply, targetOf_target, emptyG,
    modThread_apply, modMe_apply, M.pure_apply, List.forIn_nil]
  rfl

theorem spawn_next (i : Instr) (effect : exec i s = s.instr x.e x.w (spawn x resident)) (read : s.canRead [x.a])
    (full : s.canWrite x.d) (free : s.clear)
    (reach : (s.taken [x.a]).reach (fld x.op 0 3) [(s.operand [x.a] 0 + x.imm.signExtend 64 * 64).toNat] 64 64 needR =
      some ([l], s1)) :
    let p := s1.element 1 l
    let r : RawTask := ⟨ofLe p.1⟩
    ∃ t q, exec i s = .next t ∧ t.awaits x.d
      ∧ t.me.spawns = s.me.spawns ++ [q] ∧ q.resident = resident ∧ q.t.d = x.d.toNat ∧ q.t.tid = s.thread.tid
      ∧ q.valid = (p.2.recordOk r s.thread && p.2.stageOk r s.thread && !r.ident.empty)
      ∧ q.task.kind = r.kind ∧ q.task.dom = s.thread.dom ∧ q.task.launch = s.thread.launch := by
  obtain ⟨a, held⟩ := Option.isSome_iff_exists.mp read.1
  have taken := State.Calm.taken held [x.a]
  obtain ⟨b, there⟩ := taken.held
  obtain ⟨-, only, -⟩ := access_reach (taken.clear free) reach
  have held1 : s1.thread? = some b := only.thread?.trans there
  have free1 := only.clear (taken.clear free)
  have element := (State.LinesOnly.element free1 1 l).calm held1
  have read1 := State.Calm.spawnRead held1 free1 l
  have before := (taken.trans (only.calm there)).trans element
  have all := before.trans read1
  obtain ⟨c, there'⟩ := all.held
  have run := State.instr_ok read.1 x.e x.w (spawn_ok resident read full free reach)
  refine ⟨_, (s1.spawnRead l).spawnReq x.d.toNat resident ⟨ofLe (s1.element 1 l).1⟩, effect.trans run, ?_, ?_, rfl, rfl,
    all.tid, ?_, rfl, all.dom, all.launch⟩
  · refine State.awaits_of (b := (c.emptyG x.d.toNat).advance x.e x.w) ?_ ⟨c, rfl⟩
    rw [State.thread?_modThread, State.thread?_modMe_same rfl rfl, State.emptied, State.thread?_modThread, State.withId_thread?,
      there']
    rfl
  · exact (State.spawns_queued ..).trans (congrArg (· ++ _) all.spawns)
  · have same : (s1.spawnRead l).thread.placed = s.thread.placed := all.placed
    exact congrArg₂ (· && ·) (congrArg₂ (· && ·) (read1.recordOk _ same) (read1.stageOk _ same)) rfl

end

end Sys2Proof.Machine
end

section
/-! SUPPORT. LAUNCH runs to its end (R76 to R78, R88), and the theorem that settles O42. -/

namespace Sys2Proof.Machine

/-! ### The task records of a LAUNCH (R88, R273) -/

theorem State.awaits.same {s t : State} {d : Spec} (waits : s.awaits d) (thread : t.thread? = s.thread?) : t.awaits d := by
  intro nonzero lt
  obtain ⟨b, there, empty⟩ := waits nonzero lt
  exact ⟨b, thread.trans there, empty⟩

theorem State.awaits.modThread {s : State} {d : Spec} (waits : s.awaits d) {f : Thread → Thread}
    (full : ∀ a, (f a).full = a.full) : (s.modThread f).awaits d := by
  intro nonzero lt
  obtain ⟨b, there, empty⟩ := waits nonzero lt
  refine ⟨f b, by rw [State.thread?_modThread, there]; rfl, ?_⟩
  rwa [Thread.isFull, full]

theorem State.awaits.erring {s : State} {d : Spec} (waits : s.awaits d) (bad : Bool) (ea : Nat) : (s.erring bad ea).awaits d := by
  unfold State.erring
  split
  · exact waits.modThread fun _ => rfl
  · exact waits

theorem State.recordsAt_cons (v : State) (scope : Nat) (l : Lane) (r : List Lane) :
    v.recordsAt scope (l :: r) =
      let u := (v.element scope l).2.erring (v.laneBad v.cur v.thread.dom scope l) l.ea
      (⟨ofLe (v.element scope l).1⟩ :: (u.recordsAt scope r).1, (u.recordsAt scope r).2) := rfl

/-- The records of a LAUNCH are read in order. -/
theorem records_read {v : State} {a : Thread} (held : v.thread? = some a) (free : v.clear) {ls : List Lane}
    (whole : ∀ l ∈ ls, l.lost = false) (scope : Nat) :
    ((ls.mapM fun l => do
        let (bs, bad) ← load scope l
        if bad then pendError l.ea
        return (⟨ofLe bs⟩ : RawTask)) v = .ok (v.recordsAt scope ls))
      ∧ v.Calm (v.recordsAt scope ls).2 ∧ ∀ d, v.awaits d → (v.recordsAt scope ls).2.awaits d := by
  induction ls generalizing v a with
  | nil => exact ⟨rfl, (State.LinesOnly.refl v).calm held, fun _ h => h⟩
  | cons l r ih =>
    obtain ⟨first, rest⟩ := List.forall_mem_cons.mp whole
    have read := State.LinesOnly.element free scope l
    obtain ⟨b, there⟩ := (read.calm held).held
    have calm := (read.calm held).trans (.erring there (v.laneBad v.cur v.thread.dom scope l) l.ea)
    obtain ⟨c, there'⟩ := calm.held
    obtain ⟨run, calm', waits⟩ := ih there' (calm.clear free) rest
    rw [State.recordsAt_cons]
    refine ⟨?_, calm.trans calm', fun d h => waits d ((h.same read.thread?).erring _ _)⟩
    simp only [List.mapM_cons, M.bind_apply, load_clear free scope first, pendError_optional, M.pure_apply, run]

/-! ### The launch (R76, R77) -/

/-- A change of the cores' steal requests. -/
theorem State.core_wakeSteals (s : State) (d c : Nat) :
    (s.wakeSteals d).core c = s.core c ∨ (s.wakeSteals d).core c = (s.core c).askAgain d := by
  have mapped (boot : Core) (t : Tab Core) :
      Tab.get boot (t.map fun e => (e.1, e.2.askAgain d)) c = Tab.get boot t c
        ∨ Tab.get boot (t.map fun e => (e.1, e.2.askAgain d)) c = (Tab.get boot t c).askAgain d := by
    induction t with
    | nil => exact .inl rfl
    | cons e r ih =>
      obtain ⟨j, k⟩ := e
      simp only [List.map_cons, Tab.get]
      split
      · exact .inr rfl
      · exact ih
  exact mapped _ s.cores

theorem State.wakeSteals_thread? (s : State) (d : Nat) : (s.wakeSteals d).thread? = s.thread? := by
  have cur : (s.wakeSteals d).cur = s.cur := rfl
  rcases s.core_wakeSteals d s.cur with same | asked
  · rw [State.thread?, State.me, cur, same]; rfl
  · rw [State.thread?, State.me, cur, asked]; rfl

/-- The launch that thread `t` submits from `s` for the live records among `n`; its target waits for the status. -/
def State.deviceLaunch (s : State) (t : Thread) (x : FmtS) (tg : Target) (n : Nat) (live : List RawTask) (cores : List Nat) :
    Launch :=
  { id := tg.id, die := dieOf s.cur, dom := t.dom, cls := x.lclass, scope := x.lscope
    ctx := t.ctx, hndl := t.hndl, live := live.length, left := live.length, since := s.halfNs
    units := .device (live.map fun r =>
      { dom := t.dom, kind := r.kind, launch := some tg.id, ctx := t.ctx, hndl := t.hndl
        nosteal := r.f 5 4 1 == 1, home := some tg.id }) cores x.place
    req := .thread s.cur tg (n - live.length) }

/-- A LAUNCH that enters nothing answers with its status. -/
def State.answered (s v : State) (x : FmtS) (code : Nat) : State :=
  v.modMe fun k => k.addFill { tid := s.thread.tid, d := x.d.toNat, value := word code }

/-- The state in which a LAUNCH reads its records: its operands are taken, d is empty and what the thread has written is
released. -/
def State.launching (s : State) (x : FmtS) : State := ((s.taken [x.a, x.b]).withId.emptied x.d).released x.lscope

section
variable {x : FmtS} {s : State} (read : s.canRead [x.a, x.b]) (full : s.canWrite x.d) (free : s.clear)
include read

theorem State.Calm.emptied : s.Calm ((s.taken [x.a, x.b]).withId.emptied x.d) := by
  obtain ⟨a, held⟩ := Option.isSome_iff_exists.mp read.1
  have taken := State.Calm.taken held [x.a, x.b]
  obtain ⟨b, there⟩ := taken.held
  have named : (s.taken [x.a, x.b]).Calm (s.taken [x.a, x.b]).withId := ⟨rfl, rfl, b, b, there, there, rfl⟩
  refine taken.trans (named.trans (.modThread (s := (s.taken [x.a, x.b]).withId) there ?_))
  unfold Thread.emptyG
  split <;> rfl

include free

theorem State.Calm.launching : s.Calm (s.launching x) := by
  have emptied := State.Calm.emptied read
  obtain ⟨b, there⟩ := emptied.held
  exact emptied.trans ((State.LinesOnly.released (emptied.clear free) x.lscope).calm there)

theorem State.launching_awaits : (s.launching x).awaits x.d := by
  have emptied := State.Calm.emptied read
  obtain ⟨b, there⟩ := emptied.held
  refine (State.awaits_of there ?_).same (State.LinesOnly.released (emptied.clear free) x.lscope).thread?
  obtain ⟨a, held⟩ := Option.isSome_iff_exists.mp read.1
  obtain ⟨c, there'⟩ := (State.Calm.taken held [x.a, x.b]).held
  rw [State.emptied, State.thread?_modThread, State.withId_thread?, there'] at there
  cases there
  exact ⟨c, rfl⟩

theorem launch_releases :
    release x.lscope ((s.taken [x.a, x.b]).withId.modThread (·.emptyG x.d.toNat)) = .ok ((), s.launching x) :=
  release_clear ((State.Calm.emptied read).clear free) _

include full

variable (aligned : (s.operand [x.a, x.b] 0 + x.imm.signExtend 64 * 64).toNat % 64 = 0)
  (inside : ∃ ea, (s.taken [x.a, x.b]).segAt (fld x.op 0 3) (s.operand [x.a, x.b] 0 + x.imm.signExtend 64 * 64).toNat
    ((s.operand [x.a, x.b] 1).toNat * 64) needR ea)
include aligned inside

/-- R88: with no record, or with too many, none is read. -/
theorem launch_unread {code : Nat} (none_read : (65535 < (s.operand [x.a, x.b] 1).toNat ∧ code = 4)
      ∨ ((s.operand [x.a, x.b] 1).toNat = 0 ∧ code = 0)) :
    exec (.launch x) s = (s.answered (s.launching x) x code).goesOn x.e x.w := by
  obtain ⟨ea, segment⟩ := inside
  have tid := (State.Calm.launching read free).tid
  have released := launch_releases read free
  simp only [State.operand] at aligned segment none_read
  simp only [State.segAt] at segment
  refine State.instr_ok read.1 x.e x.w ?_
  simp only [M.bind_apply, waitDst_ok full, srcs_started read, recOff, alignedAt, thread_apply, need_apply, aligned,
    beq_self_eq_true, if_true, segOf, segment, M.pure_apply, targetOf_target, emptyG, modThread_apply, released, tid]
  rcases none_read with ⟨many, eq⟩ | ⟨zero, eq⟩
  · rw [if_pos many, eq]
    rfl
  · rw [if_neg (by omega), if_pos zero, eq]
    rfl

/-- The records of a LAUNCH are read and checked; the first that stands against it gives its status (R77, R78, R88). -/
theorem launch_read {ls : List Lane} {v1 : State} (some_ : 1 ≤ (s.operand [x.a, x.b] 1).toNat)
    (few : (s.operand [x.a, x.b] 1).toNat ≤ 65535)
    (reach : (s.launching x).reach (fld x.op 0 3) ((List.range (s.operand [x.a, x.b] 1).toNat).map fun i =>
      (s.operand [x.a, x.b] 0 + x.imm.signExtend 64 * 64).toNat + 64 * i) 64 64 needR = some (ls, v1)) :
    let q := v1.recordsAt x.lscope ls
    let w := q.2.watched 1 ls
    let t := (s.launching x).thread
    let live := q.1.filter fun r => !r.ident.empty
    let cores := w.placement t.dom.toNat x.place x.lclass
    exec (.launch x) s = State.goesOn
      (if (q.1.any fun r => !w.recordOk r t) = true then s.answered w x 3
      else if w.quotaFull (dieOf w.cur) t.dom.toNat = true then s.answered w x 5
      else if w.rejects t.dom.toNat x.lclass cores live.length = true then s.answered w x 4
      else (w.addLaunch (w.deviceLaunch t x ((s.taken [x.a, x.b]).target x.d.toNat x.lscope)
        (s.operand [x.a, x.b] 1).toNat live cores)).wakeSteals t.dom.toNat) x.e x.w := by
  obtain ⟨ea, segment⟩ := inside
  have calm := State.Calm.launching read free
  obtain ⟨b, there⟩ := calm.held
  have tid := calm.tid
  have released := launch_releases read free
  obtain ⟨run, only, whole⟩ := access_reach (calm.clear free) reach
  obtain ⟨records, -, -⟩ := records_read (only.thread?.trans there) (only.clear (calm.clear free)) whole x.lscope
  simp only [State.operand] at aligned segment some_ few run
  simp only [State.segAt] at segment
  dsimp only
  refine State.instr_ok read.1 x.e x.w ?_
  simp only [M.bind_apply, waitDst_ok full, srcs_started read, recOff, alignedAt, thread_apply, need_apply, aligned,
    beq_self_eq_true, if_true, segOf, segment, M.pure_apply, targetOf_target, emptyG, modThread_apply, released,
    if_neg (Nat.not_lt.mpr few), if_neg (Nat.ne_of_gt some_), run, records, watch_watched, M.get_apply, tid]
  split
  · rfl
  · split
    · rfl
    · split <;> rfl

end

/-- What the outcome of a LAUNCH that reads its records says of the records, the launch and the register that waits. -/
theorem launch_enters {x : FmtS} {s : State} (read : s.canRead [x.a, x.b]) (full : s.canWrite x.d) (free : s.clear)
    (aligned : (s.operand [x.a, x.b] 0 + x.imm.signExtend 64 * 64).toNat % 64 = 0)
    (inside : ∃ ea, (s.taken [x.a, x.b]).segAt (fld x.op 0 3) (s.operand [x.a, x.b] 0 + x.imm.signExtend 64 * 64).toNat
      ((s.operand [x.a, x.b] 1).toNat * 64) needR ea)
    {ls : List Lane} {v1 : State} (some_ : 1 ≤ (s.operand [x.a, x.b] 1).toNat) (few : (s.operand [x.a, x.b] 1).toNat ≤ 65535)
    (reach : (s.launching x).reach (fld x.op 0 3) ((List.range (s.operand [x.a, x.b] 1).toNat).map fun i =>
      (s.operand [x.a, x.b] 0 + x.imm.signExtend 64 * 64).toNat + 64 * i) 64 64 needR = some (ls, v1)) :
    let n := (s.operand [x.a, x.b] 1).toNat
    let q := v1.recordsAt x.lscope ls
    let w := q.2.watched 1 ls
    let live := q.1.filter fun r => !r.ident.empty
    let cores := w.placement s.thread.dom.toNat x.place x.lclass
    ((∃ r ∈ q.1, w.recordOk r s.thread = false) → exec (.launch x) s = (s.answered w x 3).goesOn x.e x.w)
    ∧ ((∀ r ∈ q.1, w.recordOk r s.thread = true) →
      (w.quotaFull (dieOf s.cur) s.thread.dom.toNat = true → exec (.launch x) s = (s.answered w x 5).goesOn x.e x.w)
      ∧ (w.quotaFull (dieOf s.cur) s.thread.dom.toNat = false →
        (w.rejects s.thread.dom.toNat x.lclass cores live.length = true →
          exec (.launch x) s = (s.answered w x 4).goesOn x.e x.w)
        ∧ (w.rejects s.thread.dom.toNat x.lclass cores live.length = false →
          ∃ t lc tg recs, exec (.launch x) s = .next t ∧ t.awaits x.d ∧ t.launches = s.launches ++ [lc]
            ∧ lc.cls = x.lclass ∧ lc.dom = s.thread.dom ∧ lc.live = live.length ∧ lc.left = live.length
            ∧ lc.units = .device recs cores x.place ∧ recs.map (·.kind) = live.map (·.kind)
            ∧ lc.req = .thread s.cur tg (n - live.length) ∧ tg.d = x.d.toNat ∧ tg.tid = s.thread.tid
            ∧ lc.err = false))) := by
  have run := launch_read read full free aligned inside some_ few reach
  have calm := State.Calm.launching read free
  obtain ⟨a, held⟩ := Option.isSome_iff_exists.mp read.1
  obtain ⟨b, there⟩ := calm.held
  obtain ⟨-, only, whole⟩ := access_reach (calm.clear free) reach
  have held1 := only.thread?.trans there
  obtain ⟨-, reads, waits⟩ := records_read held1 (only.clear (calm.clear free)) whole x.lscope
  have before := (calm.trans (only.calm there)).trans reads
  obtain ⟨c, there'⟩ := before.held
  have all := before.trans (.watched there' 1 ls)
  have awaits : ((v1.recordsAt x.lscope ls).2.watched 1 ls).awaits x.d :=
    (waits x.d ((State.launching_awaits read free).same only.thread?)).modThread fun t => (t.watchAll_placed ..).2
  obtain ⟨e, wheld⟩ := all.held
  dsimp only at run ⊢
  generalize (v1.recordsAt x.lscope ls).2.watched 1 ls = w at run all awaits wheld ⊢
  generalize (v1.recordsAt x.lscope ls).1 = rs at run ⊢
  have same (r : RawTask) : w.recordOk r (s.launching x).thread = w.recordOk r s.thread :=
    ((State.LinesOnly.refl w).calm wheld).recordOk r calm.placed
  rw [all.cur, calm.dom] at run
  simp only [same] at run
  have passing (good : ∀ r ∈ rs, w.recordOk r s.thread = true) : ¬ (rs.any fun r => !w.recordOk r s.thread) = true := by
    simpa using good
  refine ⟨fun bad => ?_, fun good => ⟨fun quota => ?_, fun quota => ⟨fun rejected => ?_, fun accepted => ?_⟩⟩⟩
  · have failing : (rs.any fun r => !w.recordOk r s.thread) = true := by simpa using bad
    rw [run, if_pos failing]
  · rw [run, if_neg (passing good), if_pos quota]
  · rw [run, if_neg (passing good), if_neg (by simp [quota]), if_pos rejected]
  · rw [if_neg (passing good), if_neg (by simp [quota]), if_neg (by simp [accepted])] at run
    refine ⟨_, _, _, _, run, ?_, congrArg (· ++ _) all.launches, rfl, calm.dom, rfl, rfl, rfl, ?_,
      congrArg (Requester.thread · _ _) all.cur, rfl, ?_, rfl⟩
    · exact (awaits.same (State.wakeSteals_thread? ..)).modThread fun _ => rfl
    · simp only [List.map_map]
      rfl
    · exact (State.Calm.taken held [x.a, x.b]).tid

/-- Settles O42: the spawns by `spawn_next`, LAUNCH by `launch_unread` and `launch_enters`, and each other instruction by
the lemma that says how it runs. -/
theorem scheduling : Obligations.Scheduling := by
  unfold Obligations.Scheduling
  refine ⟨fun x s s1 l read full free reach => ?_, fun x s read full free => ?_, fun x s read full => ?_, fun x s read => ?_,
    fun x s read => exit_run read, fun x s read full room => send_run read full room⟩
  case refine_1 =>
    exact ⟨spawn_next false (.spawn x) rfl read full free reach, spawn_next true (.spawnr x) rfl read full free reach⟩
  case refine_2 =>
    intro ss u off n v answers aligned inside
    refine ⟨fun many => launch_unread read full free aligned inside (.inl ⟨many, rfl⟩),
      fun zero => launch_unread read full free aligned inside (.inr ⟨zero, rfl⟩), fun ls v1 some_ few reach => ?_⟩
    exact launch_enters read full free aligned inside some_ few reach
  case refine_3 => exact ⟨park_idle read full, park_ready read full⟩
  case refine_4 => exact ⟨yield_run read, fun zero => ⟨halt_idle read zero, halt_ready read zero⟩⟩

end Sys2Proof.Machine
end

section
/-! SUPPORT. A delivery whose status fill is lost brings a notice (R92, R98, R364, R373), which the statement on the events of
threads does not allow for; and the theorem that refutes O49. -/

namespace Sys2Proof.Machine

/-- The message of a SEND of thread 1 to port 0 of slot 0 of core 0; its status register is g1. -/
def unfilledSend : Sending := { dst := 0, msg := ⟨0x1234, 0⟩, d := 1, tid := 1, dom := 0 }

/-- Thread 1 of domain 0 has left slot 0 of core 0 for its frame, with its message still in the slot's send queue; the boot
thread stands on the slot now, with empty ports. The core's next packet fails, which is the one of the fill of g1 in the
frame, and PLOCK names port 0 of that slot for the notices of the core. -/
def sendAfterSave : State :=
  { State.reset.modCore 0 fun k => { k.setSlot 0 { k.slot 0 with sendq := [unfilledSend] } with
      saved := [{ frame := 0x10000, thread := { Thread.boot with tid := 1 } }] } with
    tampered := [0] }

/-- The number of messages at port 0 of slot 0 of core 0 after an outcome. -/
def messagesAfter : Result → Option Nat
  | .next t => ((t.core 0).threadAt 0).map fun b => (rd b.q 0 []).length
  | _ => none

/-- The message arrives, and then the notice of the lost fill. -/
theorem messagesAfter_sendDelivery : messagesAfter (exec (.sendDelivery 0 0) sendAfterSave) = some 2 := by decide +kernel

theorem sendAfterSave_thread : (sendAfterSave.core 0).threadAt 0 = some Thread.boot := by decide +kernel

theorem sendAfterSave_sendq : ((sendAfterSave.core 0).slot 0).sendq = [unfilledSend] := by decide +kernel

/-- Refutes O49: a message goes from core 0 to port 0 of a slot of the same core, and its sender has been saved; the fill of
the status register goes to the frame, and its packet fails (R373), so that domain 0 gets a notice (R364). PLOCK names the
same port, which then holds the message and the notice; the statement, which for a target on the same die puts no condition
on packets that fail, lets it hold the message alone. -/
theorem not_threadEvents : ¬ Obligations.ThreadEvents := by
  unfold Obligations.ThreadEvents
  intro h
  obtain ⟨-, -, -, -, -, -, delivery, -⟩ := h sendAfterSave 0 0 Thread.boot sendAfterSave_thread
  obtain ⟨-, addressed⟩ := delivery unfilledSend [] sendAfterSave_sendq
  obtain ⟨-, there⟩ := addressed (by decide) (.inr rfl)
  obtain ⟨-, received⟩ := there Thread.boot sendAfterSave_thread rfl
  obtain ⟨t, b, run, held, queue, -⟩ := received (by decide)
  have counted := messagesAfter_sendDelivery
  have target : (t.core 0).threadAt 0 = some b := held
  have one : rd b.q 0 [] = [unfilledSend.msg] := queue
  rw [run, messagesAfter, target, Option.map_some, one] at counted
  exact absurd counted (by decide)

end Sys2Proof.Machine
end

section
/-! SUPPORT. Work that starts and moves (R69, R72 to R77): what a record starts, a thief's requests and answers, and a move from
the pending list. -/

namespace Sys2Proof.Machine

/-! ### A record that starts a task (R69, R72) -/

theorem Core.freeSlot_lt {k : Core} {d i : Nat} (h : k.freeSlot d = some i) : i < 8 := by
  unfold Core.freeSlot firstIx at h
  exact List.mem_range.mp (List.mem_of_find?_eq_some h)

theorem Core.freeSlot_none {k : Core} {d i : Nat} (h : k.freeSlot d = some i) : k.threadAt i = none := by
  unfold Core.freeSlot firstIx at h
  have found := List.find?_some h
  simp only [Bool.and_eq_true, Option.isNone_iff_eq_none] at found
  exact found.1

/-- A thread stays where it is found when another one is set on another slot. -/
theorem Core.slotOf_setThread_other {k : Core} {tid i j : Nat} {t : Thread} (slot : k.slotOf tid = some j) (apart : j ≠ i)
    (other : t.tid ≠ tid) : (k.setThread i (some t)).slotOf tid = some j := by
  unfold Core.slotOf firstIx at slot ⊢
  obtain ⟨here, there, before⟩ := List.find?_range_eq_some.mp slot
  refine List.find?_range_eq_some.mpr ⟨?_, there, fun n lt => ?_⟩
  · rwa [Core.threadAt_setThread_ne _ _ _ _ apart]
  · by_cases same : n = i
    · subst same
      have in_ : n < 8 := lt.trans (List.mem_range.mp there)
      simp [in_, other]
    · rw [Core.threadAt_setThread_ne _ _ _ _ same]
      exact before n lt

section
variable {s : State} {c i : Nat} {r : Rec} {entry : BitVec 32} {cset : Nat} {ident : Ident} {args : List Word}
  (task : r.kind = .task entry cset ident args)
include task

/-- What a new task finds in its registers (R72). -/
theorem State.newThread_task (resident : Bool) (tid cycle start : Nat) :
    let b := s.newThread r resident tid cycle start
    b.pc = entry ∧ b.cset = cset ∧ b.ident = ident ∧ b.dom = r.dom ∧ b.seg = (s.ctx r.ctx).seg ∧ b.launch = r.launch
      ∧ b.resident = resident ∧ b.tid = tid ∧ b.csp = 0 ∧ b.prm = 0 ∧ b.full = BitVec.allOnes 32 ∧ b.f = 0
      ∧ (∀ j, j < 16 → rd b.v j 0 = 0)
      ∧ ∀ j, j < 32 → rd b.g j 0 = if 1 ≤ j ∧ j ≤ 6 then args.getD (j - 1) 0 else 0 := by
  dsimp only
  unfold State.newThread
  rw [task]
  refine ⟨rfl, rfl, rfl, rfl, rfl, rfl, rfl, rfl, rfl, rfl, rfl, rfl, fun j lt => ?_, fun j lt => ?_⟩
  · simp [rd, lt]
  · simp [rd, lt]

/-- The task's thread stands on its slot. -/
theorem State.startRec_task (lt : i < 8) (resident : Bool) :
    let k := s.core c
    ((s.startRec c i r resident).core c).threadAt i = some (s.newThread r resident s.nextId k.cycle (k.startCycle i)) := by
  simp only [State.startRec, task, State.fresh, State.core_modCore_same]
  exact Core.threadAt_setThread_same _ _ _ lt

/-- The other threads of the core stay on their slots. -/
theorem State.startRec_slotOf {tid j : Nat} (slot : (s.core c).slotOf tid = some j) (apart : j ≠ i) (new : tid ≠ s.nextId)
    (resident : Bool) : ((s.startRec c i r resident).core c).slotOf tid = some j := by
  have acquired := State.SlotsL1Only.acquire { s with nextId := s.nextId + 1 } c r.dom 3
  have kept : (({ s with nextId := s.nextId + 1 }.acquire c r.dom 3).core c).slotOf tid = some j := ((acquired.2 c).2 tid).trans slot
  simp only [State.startRec, task, State.fresh, State.core_modCore_same]
  refine Core.slotOf_setThread_other kept apart ?_
  rw [(State.newThread_task task ..).2.2.2.2.2.2.2.1]
  exact Ne.symm new

end

/-- The work that is next comes from a core or a launch alone. -/
theorem State.nextWork_ctxs {s s1 : State} {c d : Nat} {r : Rec} (h : s.nextWork c d = some (r, s1)) : s1.ctxs = s.ctxs := by
  unfold State.nextWork at h
  dsimp only at h
  split at h
  · cases h; rfl
  · split at h
    · cases h; rfl
    · split at h <;> cases h
      rfl

/-! ### Steals (R74) -/

theorem Core.dropSteal_stealOf (k : Core) (d : Nat) : (k.dropSteal d).stealOf d = none := by
  simp [Core.dropSteal, Core.stealOf]

theorem Core.setSteal_stealOf (k : Core) (st : Steal) : (k.setSteal st).stealOf st.dom.toNat = some st := by
  have dropped : (k.dropSteal st.dom.toNat).steals.find? (·.dom.toNat == st.dom.toNat) = none := k.dropSteal_stealOf _
  simp [Core.setSteal, Core.stealOf, List.find?_append, dropped]

section
variable {s : State} {c : Nat}

/-- R74: the next core that a thief asks answers with its top movable record or with empty. -/
theorem stealRequest_run {victim d : Nat} (may : s.maySteal c d = true) (fresh : (s.core c).stealOf d = none)
    (next : (s.stealLeft d (stealOrder c)).head? = some victim) (small : d < 256) :
    let v := s.core victim
    let top := v.deque.find? fun r => r.dom.toNat == d && s.movable c r
    ∃ t st, exec (.stealRequest c victim d) s = .next t ∧ (t.core c).stealOf d = some st ∧ st.asked = some victim
      ∧ st.answer = some top ∧ (victim ≠ c → ∀ r, top = some r → (t.core victim).deque = v.deque.erase r) := by
  have dom : (BitVec.ofNat 8 d).toNat = d := by rw [BitVec.toNat_ofNat, Nat.mod_eq_of_lt (by omega)]
  have stored (k : Core) (st : Steal) (own : st.dom = BitVec.ofNat 8 d) : (k.setSteal st).stealOf d = some st := by
    have here := k.setSteal_stealOf st
    rwa [own, dom] at here
  simp only [exec, execStealRequest, fresh, Option.getD_none, may, next, Option.isNone_none, Bool.and_self, beq_self_eq_true, if_true]
  cases top : (s.core victim).deque.find? fun r => r.dom.toNat == d && s.movable c r with
  | none =>
    refine ⟨_, { dom := BitVec.ofNat 8 d, left := (s.stealLeft d (stealOrder c)).drop 1, asked := some victim, answer := some none },
      rfl, ?_, rfl, rfl, fun _ r absent => by cases absent⟩
    rw [State.core_modCore_same]
    exact stored _ _ rfl
  | some r =>
    refine ⟨_, { dom := BitVec.ofNat 8 d, left := (s.stealLeft d (stealOrder c)).drop 1, asked := some victim,
                 answer := some (some r) }, rfl, ?_, rfl, rfl, fun other r' same => ?_⟩
    · rw [State.core_modCore_same]
      exact stored _ _ rfl
    · cases same
      rw [State.core_modCore_ne _ _ _ _ other, State.core_setCore_same]

variable {st : Steal} (first : (s.core c).steals.find? (·.answer.isSome) = some st)
include first

/-- An empty answer: the thief goes on, where it still may steal. -/
theorem stealAnswer_empty (empty : st.answer = some none) : ∃ t, exec (.stealAnswer c) s = .next t
    ∧ (s.maySteal c st.dom.toNat = true →
      ∃ st', (t.core c).stealOf st.dom.toNat = some st' ∧ st'.asked = none ∧ st'.answer = none)
    ∧ (s.maySteal c st.dom.toNat = false → (t.core c).stealOf st.dom.toNat = none) := by
  simp only [exec, execStealAnswer, first, empty]
  refine ⟨_, rfl, fun may => ?_, fun may => ?_⟩
  · rw [State.core_setCore_same, if_pos may]
    exact ⟨_, Core.setSteal_stealOf _ { st with left := _, asked := none, answer := none }, rfl, rfl⟩
  · rw [State.core_setCore_same, if_neg (by simp [may])]
    exact Core.dropSteal_stealOf ..

/-- A record starts on the free slot, or joins the thief's share where no slot may take it. -/
theorem stealAnswer_record {r : Rec} (gained : st.answer = some (some r)) :
    let k := s.core c
    let d := st.dom.toNat
    let u := s.setCore c (k.setSteal { dom := st.dom, left := [] })
    (∀ i, k.freeSlot d = some i → k.frozen d = false → exec (.stealAnswer c) s = .next (u.startRec c i r false))
    ∧ (k.freeSlot d = none ∨ k.frozen d = true → exec (.stealAnswer c) s = .next (s.pended (u.modCore c (·.pushResume r)) d)) := by
  simp only [exec, execStealAnswer, first, gained]
  refine ⟨fun i free open_ => ?_, fun closed => ?_⟩
  · simp [free, open_, Option.filter]
  · rcases closed with taken | frozen
    · simp [taken]
    · simp [frozen]

end

/-! ### The pending list (R77) -/

section
variable {s : State} {c d : Nat} (room : (s.core c).shareFull d = false) (apart : ∀ l ∈ s.launches, l.cls ≠ 2)
include apart

theorem State.no_concurrent : (s.launches.find? fun l =>
    l.dom.toNat == d && l.cls == 2 && l.cursor.isEmpty && l.live != 0 && s.concReady l l.cores) = none := by
  refine List.find?_eq_none.mpr fun l listed => ?_
  simp [apart l listed]

include room

theorem pendingMove_head {r : Rec} (head : (s.core c).pendHead.find? (·.dom.toNat == d) = some r) :
    ∃ t, exec (.pendingMove c d) s = .next t ∧ (t.core c).deque = (s.core c).deque ++ [r]
      ∧ (t.core c).pendHead = (s.core c).pendHead.erase r ∧ t.launches = s.launches := by
  have none_ := State.no_concurrent (d := d) apart
  refine ⟨s.setCore c ({ s.core c with pendHead := (s.core c).pendHead.erase r }.pushBottom r), ?_, ?_, ?_, rfl⟩
  · simp [exec, execPendingMove, none_, room, head]
  · rw [State.core_setCore_same]; rfl
  · rw [State.core_setCore_same]; rfl

theorem pendingMove_launch {l : Launch} {r : Rec} (empty : ∀ r' ∈ (s.core c).pendHead, r'.dom.toNat ≠ d)
    (pending : s.pendingLaunch c d = some (l, r)) : exec (.pendingMove c d) s =
      .next ((s.modLaunch l.id (·.take c)).modCore c fun k => k.pushBottom { r with since := k.cycle }) := by
  have none_ := State.no_concurrent (d := d) apart
  have headless : (s.core c).pendHead.find? (·.dom.toNat == d) = none :=
    List.find?_eq_none.mpr fun r' listed => by simpa using empty r' listed
  simp [exec, execPendingMove, none_, room, headless, pending]

end

end Sys2Proof.Machine
end

section
/-! SUPPORT. Values that fill when work of a thread is done (R79, R86, R96, R273): a spawn's status, the value of an access, and
the status of a launch. -/

namespace Sys2Proof.Machine

/-! ### A spawn's status (R86) -/

/-- The state once a request has been taken off the queue of spawns. -/
def State.unspawn (s : State) (c j : Nat) : State :=
  s.setCore c { s.core c with spawns := (s.core c).spawns.eraseIdx j }

section
variable {s : State} {c j : Nat} {r : SpawnReq} (listed : (s.core c).spawns[j]? = some r)
  (open_ : r.resident = true → (s.core c).frozen r.t.dom.toNat = false)

theorem State.unspawn_core (s : State) (c j : Nat) :
    (s.unspawn c j).core c = { s.core c with spawns := (s.core c).spawns.eraseIdx j } := State.core_setCore_same ..

theorem State.unspawn_onSlot {tid d : Nat} (on : s.onSlot c tid d) : (s.unspawn c j).onSlot c tid d := by
  obtain ⟨⟨i, slot⟩, range⟩ := on
  refine ⟨⟨i, ?_⟩, range⟩
  rw [State.unspawn_core, ← slot]
  rfl

include listed open_

/-- The push or the start that a request asks for, and its status. -/
theorem spawnStatusFill_run : exec (.spawnStatusFill c j) s = .next (
    let u := s.unspawn c j
    if r.valid = false then u.fillG c r.t.tid r.t.d 3
    else if r.resident = true then
      match (s.core c).freeSlot r.t.dom.toNat with
      | none => u.fillG c r.t.tid r.t.d 2
      | some i => (u.startRec c i { r.task with launch := none } true).fillG c r.t.tid r.t.d 0
    else if (s.core c).shareFull r.t.dom.toNat = true then u.fillG c r.t.tid r.t.d 1
    else ((match r.task.launch with
      | some id => u.modLaunch id fun l => { l with left := l.left + 1 }
      | none => u).modCore c fun k => k.pushBottom { r.task with since := k.cycle }).fillG c r.t.tid r.t.d 0) := by
  have thawed : (r.resident && (s.core c).frozen r.t.dom.toNat) = false := by
    cases resident : r.resident with
    | false => rfl
    | true => exact open_ resident
  simp only [exec, execSpawnStatusFill, listed, thawed, Bool.false_eq_true, if_false]
  cases r.valid with
  | false => rfl
  | true =>
    cases r.resident with
    | false =>
      cases (s.core c).shareFull r.t.dom.toNat with
      | true => rfl
      | false => rfl
    | true =>
      cases (s.core c).freeSlot r.t.dom.toNat with
      | none => rfl
      | some i => rfl

end

/-- A fill of a thread on its slot leaves the core's share. -/
theorem State.fillG_deque {s : State} {c tid d : Nat} (on : s.onSlot c tid d) (v : Word) :
    ((s.fillG c tid d v).core c).deque = (s.core c).deque := by
  obtain ⟨⟨i, slot⟩, -⟩ := on
  exact (congrArg Core.deque ((State.SlotsL1Only.fillG slot d v).2 c).1).trans rfl

/-- The other slots keep their threads. -/
theorem State.fillG_threadAt_ne {s : State} {c tid d i j : Nat} (slot : (s.core c).slotOf tid = some j) (apart : i ≠ j) (v : Word) :
    ((s.fillG c tid d v).core c).threadAt i = (s.core c).threadAt i := by
  rw [State.fillG_slot slot, State.core_setCore_same, Core.threadAt_modThread_ne _ _ _ _ apart]

theorem State.onSlot_of_slotOf {s t : State} {c tid d : Nat} (on : s.onSlot c tid d)
    (same : (t.core c).slotOf tid = (s.core c).slotOf tid) : t.onSlot c tid d := by
  obtain ⟨⟨i, slot⟩, range⟩ := on
  exact ⟨⟨i, same.trans slot⟩, range⟩

/-- A resident program starts on the free slot, with its status filled (R83, R86). -/
theorem spawnStatusFill_starts {s : State} {c i tid d : Nat} {r : Rec} {entry : BitVec 32} {cset : Nat} {ident : Ident}
    {args : List Word} (on : s.onSlot c tid d) (free : (s.core c).threadAt i = none) (lt : i < 8)
    (task : r.kind = .task entry cset ident args) (new : tid ≠ s.nextId) :
    let t := (s.startRec c i { r with launch := none } true).fillG c tid d 0
    t.got c tid d 0 ∧ ∃ b, (t.core c).threadAt i = some b ∧ b.resident = true ∧ b.launch = none
      ∧ b.dom = r.dom ∧ b.pc = entry ∧ b.cset = cset ∧ b.ident = ident ∧ b.seg = (s.ctx r.ctx).seg
      ∧ ∀ j, j < 32 → rd b.g j 0 = if 1 ≤ j ∧ j ≤ 6 then args.getD (j - 1) 0 else 0 := by
  obtain ⟨⟨j, slot⟩, range⟩ := on
  obtain ⟨-, a, held, -⟩ := Core.slotOf_some slot
  have apart : j ≠ i := by
    rintro rfl
    rw [free] at held
    cases held
  have task' : { r with launch := none }.kind = .task entry cset ident args := task
  have slot' := State.startRec_slotOf task' slot apart new true
  have there := State.startRec_task (s := s) (c := c) task' lt true
  have fields := State.newThread_task (s := s) task' true s.nextId (s.core c).cycle ((s.core c).startCycle i)
  obtain ⟨pc, cset_, ident_, dom, seg, launch, resident, -, -, -, -, -, -, g⟩ := fields
  refine ⟨State.got_fillG ⟨⟨j, slot'⟩, range⟩ 0, _, ?_, resident, launch, dom, pc, cset_, ident_, seg, g⟩
  rw [State.fillG_threadAt_ne slot' (Ne.symm apart), there]

/-- What a spawn's status says of the record, in each of its cases (R86). -/
theorem spawnStatusFill_cases {s : State} {c j : Nat} {r : SpawnReq} (listed : (s.core c).spawns[j]? = some r)
    (open_ : r.resident = true → (s.core c).frozen r.t.dom.toNat = false) (on : s.onSlot c r.t.tid r.t.d) :
    let k := s.core c
    ∃ t, exec (.spawnStatusFill c j) s = .next t
      ∧ (r.valid = false → t.got c r.t.tid r.t.d 3 ∧ (t.core c).deque = k.deque)
      ∧ (r.valid = true → r.resident = true → k.freeSlot r.t.dom.toNat = none → t.got c r.t.tid r.t.d 2)
      ∧ (∀ i entry cset ident args, r.valid = true → r.resident = true → k.freeSlot r.t.dom.toNat = some i →
          r.task.kind = .task entry cset ident args → r.t.tid ≠ s.nextId →
          t.got c r.t.tid r.t.d 0 ∧ ∃ b, (t.core c).threadAt i = some b ∧ b.resident = true ∧ b.launch = none
            ∧ b.dom = r.task.dom ∧ b.pc = entry ∧ b.cset = cset ∧ b.ident = ident ∧ b.seg = (s.ctx r.task.ctx).seg
            ∧ ∀ j, j < 32 → rd b.g j 0 = if 1 ≤ j ∧ j ≤ 6 then args.getD (j - 1) 0 else 0)
      ∧ (r.valid = true → r.resident = false → k.shareFull r.t.dom.toNat = true →
          t.got c r.t.tid r.t.d 1 ∧ (t.core c).deque = k.deque)
      ∧ (r.valid = true → r.resident = false → k.shareFull r.t.dom.toNat = false →
          t.got c r.t.tid r.t.d 0 ∧ (t.core c).deque = k.deque ++ [{ r.task with since := k.cycle }]) := by
  have on' : (s.unspawn c j).onSlot c r.t.tid r.t.d := State.unspawn_onSlot on
  have deque : ((s.unspawn c j).core c).deque = (s.core c).deque := by rw [State.unspawn_core]
  refine ⟨_, spawnStatusFill_run listed open_, fun valid => ?_, fun valid resident full => ?_,
    fun i entry cset ident args valid resident free task new => ?_, fun valid resident full => ?_, fun valid resident room => ?_⟩
  · dsimp only
    rw [if_pos valid]
    exact ⟨State.got_fillG on' 3, (State.fillG_deque on' 3).trans deque⟩
  · simp only [valid, resident, full, Bool.true_eq_false, if_false, if_true]
    exact State.got_fillG on' 2
  · simp only [valid, resident, free, Bool.true_eq_false, if_false, if_true]
    refine spawnStatusFill_starts on' ?_ (Core.freeSlot_lt free) task new
    rw [State.unspawn_core]
    exact Core.freeSlot_none free
  · simp only [valid, resident, full, Bool.true_eq_false, Bool.false_eq_true, if_false, if_true]
    exact ⟨State.got_fillG on' 1, (State.fillG_deque on' 1).trans deque⟩
  · simp only [valid, resident, room, Bool.true_eq_false, Bool.false_eq_true, if_false]
    generalize hu : (match r.task.launch with
      | some id => (s.unspawn c j).modLaunch id fun l => { l with left := l.left + 1 }
      | none => s.unspawn c j) = u
    have core : u.core c = (s.unspawn c j).core c := by
      rw [← hu]
      split <;> rfl
    have pushed : (u.modCore c fun k => k.pushBottom { r.task with since := k.cycle }).onSlot c r.t.tid r.t.d := by
      refine State.onSlot_of_slotOf on' ?_
      rw [State.core_modCore_same, core]
      rfl
    refine ⟨State.got_fillG pushed 0, (State.fillG_deque pushed 0).trans ?_⟩
    rw [State.core_modCore_same, core, State.unspawn_core]
    rfl


end Sys2Proof.Machine
end

section
/-! SUPPORT. The value of an access fills (R96, R273), a launch completes (R79) and a domain is sealed (R344, R370); and the theorem
that settles O50. -/

namespace Sys2Proof.Machine

/-! ### The value of an access (R96, R273) -/

/-- An event that comes last in the list of those that are pending shows in its bit. -/
theorem pendBits_append (es : List (Nat × Word × Word × Word × Word)) (e : Word × Word × Word × Word) :
    (pendBits (es ++ [(0, e)])).getLsbD 0 = true := by
  rw [pendBits, List.foldl_append, List.foldl_cons, List.foldl_nil, if_pos (Nat.zero_lt_succ 5 : 0 < 6), BitVec.getLsbD_or]
  exact (congrArg (_ || ·) (by decide : (word (2 ^ 0)).getLsbD 0 = true)).trans (Bool.or_true _)

section
variable {s : State} {c j : Nat} {f : Fill} (listed : (s.core c).fills[j]? = some f)
include listed

/-- R323: the value of an RXTAKE waits for those of the earlier ones of its thread and queue. -/
theorem loadDataFill_behind (queued : f.queue ≠ none) (earlier : ∃ x ∈ (s.core c).fills.take j, x.queue = f.queue ∧ x.tid = f.tid) :
    exec (.loadDataFill c j) s = .next s := by
  obtain ⟨x, before, queue, tid⟩ := earlier
  have behind : (s.core c).fillReady j f = false := by
    have some_ : f.queue.isNone = false := by simpa using Option.isSome_iff_ne_none.mpr queued
    have all : ((s.core c).fills.take j).all (fun x => x.queue != f.queue || x.tid != f.tid) = false :=
      List.all_eq_false.mpr ⟨x, before, by simp [queue, tid]⟩
    rw [Core.fillReady, some_, all, Bool.or_self, Bool.and_false]
  simp only [exec, execLoadDataFill, listed, behind, Bool.not_false, if_true]

/-- The core once a value has been taken off the list, with the range entries that it frees. -/
def Core.unfill (k : Core) (j : Nat) (f : Fill) : Core :=
  match f.frees with
  | some id => { k with fills := k.fills.eraseIdx j }.freeRanges id
  | none => { k with fills := k.fills.eraseIdx j }

omit listed in
theorem Core.unfill_kept (k : Core) (j : Nat) (f : Fill) :
    (k.unfill j f).fills = k.fills.eraseIdx j ∧ (k.unfill j f).slots = k.slots := by
  unfold Core.unfill
  split <;> exact ⟨rfl, rfl⟩

variable (due : f.due ≤ (s.core c).cycle)
  (first : f.queue = none ∨ ∀ x ∈ (s.core c).fills.take j, x.queue ≠ f.queue ∨ x.tid ≠ f.tid)
include due first

theorem loadDataFill_run : exec (.loadDataFill c j) s = .next (
    let s1 := (s.setCore c ((s.core c).unfill j f)).fillG c f.tid f.d f.value
    match f.error with
    | none => s1
    | some (pc, ea) => s1.pendOn c f.tid fun t => t.pendEvent 0 10 0 (pc.setWidth 64) ea 0) := by
  have ready : (s.core c).fillReady j f = true := by
    simp only [Core.fillReady, due, decide_true, Bool.true_and, Bool.or_eq_true, Option.isNone_iff_eq_none, List.all_eq_true,
      bne_iff_ne]
    exact first
  simp only [exec, execLoadDataFill, listed, ready, Bool.not_true, Bool.false_eq_true, if_false]
  cases f.error with
  | none => rfl
  | some e => rfl

end

theorem State.pendOn_slot {s : State} {c tid i : Nat} (slot : (s.core c).slotOf tid = some i) (f : Thread → Thread) :
    s.pendOn c tid f = s.setCore c ((s.core c).modThread i f) := by
  unfold State.pendOn State.modCaller
  dsimp only
  rw [slot]

/-- A data error pends for a thread on its slot (R273, R336); its registers stay. -/
theorem State.pendOn_dataError {s : State} {c tid d : Nat} {v : Word} (got : s.got c tid d v) (taddr ea : Word) :
    let t := s.pendOn c tid fun t => t.pendEvent 0 10 0 taddr ea 0
    t.got c tid d v ∧ (t.core c).fills = (s.core c).fills ∧ ∃ i b, (t.core c).slotOf tid = some i ∧ (t.core c).threadAt i = some b
      ∧ (0, word 10, taddr, ea, 0) ∈ b.events ∧ b.tpend.getLsbD 0 = true := by
  refine ⟨(State.got_pendOn (f := fun t => t.pendEvent 0 10 0 taddr ea 0) (fun _ => ⟨rfl, rfl, rfl⟩) got).1, ?_⟩
  obtain ⟨i, b, slot, held, -, -⟩ := got
  rw [State.pendOn_slot slot, State.core_setCore_same]
  refine ⟨rfl, i, b.pendEvent 0 10 0 taddr ea 0, ?_, ?_, List.mem_append_right _ (List.mem_singleton.mpr rfl), pendBits_append ..⟩
  · rw [Core.modThread, held]
    exact (Core.slotOf_setThread (t' := b.pendEvent 0 10 0 taddr ea 0) held rfl tid).trans slot
  · rw [Core.threadAt_modThread_same _ _ _ (Core.slotOf_some slot).1, held]
    rfl

/-- A value lands, with the data error that it brings. -/
theorem loadDataFill_fills {s : State} {c j : Nat} {f : Fill} (listed : (s.core c).fills[j]? = some f)
    (due : f.due ≤ (s.core c).cycle)
    (first : f.queue = none ∨ ∀ x ∈ (s.core c).fills.take j, x.queue ≠ f.queue ∨ x.tid ≠ f.tid) (on : s.onSlot c f.tid f.d) :
    ∃ t, exec (.loadDataFill c j) s = .next t ∧ t.got c f.tid f.d f.value ∧ (t.core c).fills = (s.core c).fills.eraseIdx j
      ∧ ∀ pc ea, f.error = some (pc, ea) → ∃ i b, (t.core c).slotOf f.tid = some i ∧ (t.core c).threadAt i = some b
        ∧ (0, word 10, pc.setWidth 64, ea, 0) ∈ b.events ∧ b.tpend.getLsbD 0 = true := by
  obtain ⟨fills, slots⟩ := (s.core c).unfill_kept j f
  have on' : (s.setCore c ((s.core c).unfill j f)).onSlot c f.tid f.d := by
    refine State.onSlot_of_slotOf on ?_
    rw [State.core_setCore_same]
    simp only [Core.slotOf, Core.threadAt, Core.slot, slots]
  have got := State.got_fillG on' f.value
  have kept : (((s.setCore c ((s.core c).unfill j f)).fillG c f.tid f.d f.value).core c).fills = (s.core c).fills.eraseIdx j := by
    obtain ⟨⟨i, slot⟩, -⟩ := on'
    refine (congrArg Core.fills ((State.SlotsL1Only.fillG slot f.d f.value).2 c).1).trans ?_
    rw [State.core_setCore_same]
    exact fills
  refine ⟨_, loadDataFill_run listed due first, ?_⟩
  dsimp only
  generalize (s.setCore c ((s.core c).unfill j f)).fillG c f.tid f.d f.value = s1 at got kept ⊢
  cases error : f.error with
  | none => exact ⟨got, kept, fun pc ea absent => by cases absent⟩
  | some e =>
    obtain ⟨pc, ea⟩ := e
    obtain ⟨got', same, events⟩ := State.pendOn_dataError got (pc.setWidth 64) ea
    exact ⟨got', same.trans kept, fun pc' ea' named => by cases named; exact events⟩

/-! ### The status of a launch (R79) -/

theorem State.SlotsL1Only.release (s : State) (c dom scope : Nat) : s.SlotsL1Only (s.release c dom scope) := by
  unfold State.release
  split
  · exact .refl s
  · exact .trans (.modCore fun k => .count ..) (.foldl (fun s e => .flushVa s _ _ _ _) _ _)

theorem launchCompletion_fills {s : State} {l : Launch} {c : Nat} {tg : Target} {skipped : Nat}
    (listed : s.launch? l.id = some l) (ended : l.left = 0) (req : l.req = .thread c tg skipped) (on : s.onSlot c tg.tid tg.d) :
    ∃ t, exec (.launchCompletion l.id) s = .next t ∧ t.launches = s.launches.filter (·.id != l.id)
      ∧ t.got c tg.tid tg.d (word ((if l.err then 256 else 0) ||| skipped <<< 16 ||| l.live <<< 32)) := by
  have complete : l.over = true := by simp [Launch.over, ended]
  let u : State := { s with launches := s.launches.filter (·.id != l.id) }
  have released : u.SlotsL1Only ((l.servers.filter fun c => s.cores.any (·.1 == c)).foldl
      (fun s c => s.release c l.dom.toNat l.scope) u) := .foldl (fun s c => .release s _ _ _) _ _
  have settled := released.trans (.acquire _ c tg.dom l.scope)
  have on' := settled.onSlot (c := c) (tid := tg.tid) (d := tg.d) on
  refine ⟨_, ?_, ?_, State.got_fillG on' _⟩
  · simp only [exec, execLaunchCompletion, listed, complete, Bool.not_true, Bool.false_eq_true, if_false, req]
    rfl
  · obtain ⟨⟨i, slot⟩, -⟩ := on'
    rw [(State.SlotsL1Only.fillG slot _ _).1]
    exact congrArg State.launches settled.1

/-! ### A domain is sealed (R344, R370) -/

/-- What a seal writes in the registers of the domain on its core. -/
theorem State.sealDomain_core (s : State) (c d : Nat) : ∃ u : Core,
    ((s.sealDomain c d).core c).sealReg = Tab.set 0 u.sealReg d (setFld (Tab.get 0 (s.core c).sealReg d) 1 1 1)
      ∧ ((s.sealDomain c d).core c).sealCtr = Tab.set 0 u.sealCtr d (Tab.get 0 (s.core c).sealCtr d + 1)
      ∧ ((s.sealDomain c d).core c).preqDom = u.preqDom.filter (· != d) := by
  have outer (t : State) (zs : List Sealed) : { t with sealed := zs }.core c = t.core c := rfl
  unfold State.sealDomain
  dsimp only
  rw [outer, State.core_modCore_same]
  exact ⟨_, rfl, rfl, rfl⟩

theorem domainSave_seals {s : State} {c d : Nat} (asked : d ∈ (s.core c).preqDom) (quiet : (s.core c).quiet d = true)
    (apart : ∀ b ∈ s.bars, b.core ≠ c ∨ b.t.dom.toNat ≠ d)
    (backed : s.backed (sealArea (Tab.get 0 (s.core c).sealReg d)) (s.sealImage c d).length = true) :
    ∃ t, exec (.domainSave c d) s = .next t ∧ (Tab.get 0 (t.core c).sealReg d).getLsbD 1 = true
      ∧ Tab.get 0 (t.core c).sealCtr d = Tab.get 0 (s.core c).sealCtr d + 1 ∧ d ∉ (t.core c).preqDom := by
  have due : ((s.core c).preqDom.contains d && (s.core c).quiet d && s.bars.all fun b => b.core != c || b.t.dom.toNat != d) = true := by
    simpa [asked, quiet] using apart
  refine ⟨s.sealDomain c d, ?_, ?_⟩
  · simp only [exec, execDomainSave, due, Bool.not_true, Bool.false_eq_true, if_false, backed, if_true]
  · obtain ⟨u, reg, ctr, asks⟩ := s.sealDomain_core c d
    refine ⟨?_, by rw [ctr, Tab.get_set_same], by rw [asks]; simp⟩
    rw [reg, Tab.get_set_same, getLsbD_setFld]
    rfl

/-! ### A slot takes the next work (R69, R72) -/

theorem takeWork_starts {s s1 : State} {c i d : Nat} {r : Rec} {entry : BitVec 32} {cset : Nat} {ident : Ident} {args : List Word}
    (own : (s.core c).slotDom i = some d) (free : (s.core c).freeSlot d = some i) (open_ : (s.core c).frozen d = false)
    (next : s.nextWork c d = some (r, s1)) (task : r.kind = .task entry cset ident args) :
    ∃ t b, exec (.takeWork c i) s = .next t ∧ (t.core c).threadAt i = some b ∧ b.pc = entry ∧ b.cset = cset
      ∧ b.ident = ident ∧ b.dom = r.dom ∧ b.seg = (s.ctx r.ctx).seg ∧ b.launch = r.launch ∧ b.csp = 0 ∧ b.prm = 0
      ∧ b.full = BitVec.allOnes 32 ∧ b.f = 0 ∧ (∀ j, j < 16 → rd b.v j 0 = 0)
      ∧ ∀ j, j < 32 → rd b.g j 0 = if 1 ≤ j ∧ j ≤ 6 then args.getD (j - 1) 0 else 0 := by
  have run : exec (.takeWork c i) s = .next (s1.startRec c i r false) := by
    simp [exec, execTakeWork, own, free, open_, next]
  have ctx : s1.ctx r.ctx = s.ctx r.ctx := by rw [State.ctx, State.ctx, State.nextWork_ctxs next]
  obtain ⟨pc, cset_, ident_, dom, seg, launch, -, -, csp, prm, full, f, v, g⟩ :=
    State.newThread_task (s := s1) task false s1.nextId (s1.core c).cycle ((s1.core c).startCycle i)
  exact ⟨_, _, run, State.startRec_task task (Core.freeSlot_lt free) false, pc, cset_, ident_, dom, seg.trans (congrArg _ ctx), launch,
    csp, prm, full, f, v, g⟩

/-- R336: the event that is due is taken as a trap. -/
theorem deferredEventTaken_run {s : State} {e : Nat × Word × Word × Word × Word} (due : s.dueEvent = some e) :
    exec .deferredEventTaken s = .next (((s.modThread fun t =>
      t.setEvents (t.events.erase e)).take (fld e.2.1 0 8) (fld e.2.1 8 8) e.2.2.1 e.2.2.2.1 e.2.2.2.2
        (if s.thread.atLookup || e.1 == 6 then 2 else 0)).modThread (·.keepReply s.thread.status)) := by
  simp only [exec, execDeferredEventTaken, due]

/-- Settles O50: each event by the lemma that says what it does where it is due. -/
theorem workEvents : Obligations.WorkEvents := by
  unfold Obligations.WorkEvents
  intro s c
  refine ⟨fun e due => deferredEventTaken_run due,
    fun i d r s1 entry cset ident args own free open_ next task => takeWork_starts own free open_ next task,
    fun d room apart => ⟨fun r head => pendingMove_head room apart head,
      fun l r empty pending => pendingMove_launch room apart empty pending⟩,
    fun victim d may fresh next small => stealRequest_run may fresh next small,
    fun st first => ⟨fun empty => stealAnswer_empty first empty, fun r gained => stealAnswer_record first gained⟩,
    fun j r listed open_ on => spawnStatusFill_cases listed open_ on,
    fun j f listed queued earlier => loadDataFill_behind listed queued earlier,
    fun j f listed due first on => loadDataFill_fills listed due first on,
    fun l tg skipped listed ended req on => launchCompletion_fills listed ended req on,
    fun d asked quiet apart backed => domainSave_seals asked quiet apart backed⟩

end Sys2Proof.Machine
end

section
/-! The values of classes 0 and 1 (R112 to R116), the flags and the counters: the theorems that settle O1, O2, O3, O5 and O6,
and SUPPORT for them. -/

namespace Sys2Proof.Machine

/-! ### Products and quotients (R112, R113) -/

/-- The high half of a product of 128 bits. -/
theorem ofInt_high (z : Int) : BitVec.ofInt 64 (z / 2 ^ 64) = (BitVec.ofInt 128 z).extractLsb' 64 64 := by
  refine BitVec.eq_of_toNat_eq ?_
  simp only [BitVec.toNat_ofInt, BitVec.extractLsb'_toNat, Nat.shiftRight_eq_div_pow]
  omega

theorem aluMulh_eq (a b : Word) : aluMulh a b = (a.signExtend 128 * b.signExtend 128).extractLsb' 64 64 := by
  rw [aluMulh, ofInt_high, BitVec.ofInt_mul]
  rfl

theorem aluMulhn_eq (a b : Word) : aluMulhn a b = (a.setWidth 128 * b.setWidth 128).extractLsb' 64 64 := by
  have product : a.toNat * b.toNat < 2 ^ 128 := by
    rw [show 2 ^ 128 = 2 ^ 64 * 2 ^ 64 from rfl]
    exact Nat.mul_lt_mul'' a.isLt b.isLt
  have width (x : Word) : (x.setWidth 128).toNat = x.toNat := BitVec.toNat_setWidth_of_le (by decide)
  refine BitVec.eq_of_toNat_eq ?_
  simp only [aluMulhn, word, BitVec.toNat_ofNat, BitVec.extractLsb'_toNat, BitVec.toNat_mul, width, Nat.shiftRight_eq_div_pow,
    Nat.mod_eq_of_lt product]

theorem aluDiv_eq (a b : Word) : aluDiv a b = if b = 0 then BitVec.allOnes 64 else a.sdiv b := by
  unfold aluDiv
  split
  · rfl
  · exact BitVec.eq_of_toInt_eq (by rw [BitVec.toInt_ofInt, BitVec.toInt_sdiv])

theorem aluDivn_eq (a b : Word) : aluDivn a b = if b = 0 then BitVec.allOnes 64 else a / b := by
  unfold aluDivn
  split
  · rfl
  · rw [word, ← BitVec.toNat_udiv, BitVec.ofNat_toNat, BitVec.setWidth_eq]

theorem aluRem_eq (a b : Word) : aluRem a b = if b = 0 then a else a.srem b := by
  rw [aluRem, ← BitVec.toInt_srem, BitVec.ofInt_toInt]

theorem aluRemn_eq (a b : Word) : aluRemn a b = if b = 0 then a else a % b := by
  rw [aluRemn, word, ← BitVec.toNat_umod, BitVec.ofNat_toNat, BitVec.setWidth_eq]

/-! ### Rotates, the lesser and the greater (R112) -/

theorem amt_lt (b : Word) : amt b < 64 := (b.extractLsb' 0 6).isLt

theorem aluRol_eq (a b : Word) : aluRol a b = a <<< amt b ||| a >>> (64 - amt b) := by
  rw [aluRol, BitVec.rotateLeft_def, Nat.mod_eq_of_lt (amt_lt b)]

theorem aluRor_eq (a b : Word) : aluRor a b = a >>> amt b ||| a <<< (64 - amt b) := by
  rw [aluRor, BitVec.rotateRight_def, Nat.mod_eq_of_lt (amt_lt b)]

section
variable (a b : Word)

theorem aluMin_eq : aluMin a b = if a.toInt ≤ b.toInt then a else b := by
  rcases lt_trichotomy a.toInt b.toInt with lt | eq | gt
  · simp [aluMin, BitVec.slt, lt, lt.le]
  · simp [aluMin, BitVec.slt, BitVec.eq_of_toInt_eq eq]
  · simp [aluMin, BitVec.slt, gt.not_gt, gt.not_ge]

theorem aluMax_eq : aluMax a b = if a.toInt ≤ b.toInt then b else a := by
  rcases lt_trichotomy a.toInt b.toInt with lt | eq | gt
  · simp [aluMax, BitVec.slt, lt, lt.le]
  · simp [aluMax, BitVec.slt, BitVec.eq_of_toInt_eq eq]
  · simp [aluMax, BitVec.slt, gt.not_gt, gt.not_ge]

theorem aluMinn_eq : aluMinn a b = if a.toNat ≤ b.toNat then a else b := by
  rcases lt_trichotomy a.toNat b.toNat with lt | eq | gt
  · simp [aluMinn, BitVec.ult, lt, lt.le]
  · simp [aluMinn, BitVec.ult, BitVec.eq_of_toNat_eq eq]
  · simp [aluMinn, BitVec.ult, gt.not_gt, gt.not_ge]

theorem aluMaxn_eq : aluMaxn a b = if a.toNat ≤ b.toNat then b else a := by
  rcases lt_trichotomy a.toNat b.toNat with lt | eq | gt
  · simp [aluMaxn, BitVec.ult, lt, lt.le]
  · simp [aluMaxn, BitVec.ult, BitVec.eq_of_toNat_eq eq]
  · simp [aluMaxn, BitVec.ult, gt.not_gt, gt.not_ge]

end

/-! ### Counts of bits and the order of bytes (R112) -/

theorem length_bitsOf {n : Nat} (a : BitVec n) : (bitsOf a).length = n := by simp [bitsOf]

theorem getElem_bitsOf {n : Nat} (a : BitVec n) (i : Nat) (h : i < (bitsOf a).length) : (bitsOf a)[i] = a.getLsbD i := by
  simp [bitsOf]

/-- The zeros before the first one of a list of bits. -/
theorem length_takeWhile_not (l : List Bool) : (l.takeWhile (!·)).length = l.findIdx id := by
  rw [List.takeWhile_eq_take_findIdx_not, List.length_take, Nat.min_eq_left List.findIdx_le_length]
  exact congrArg (List.findIdx · l) (funext fun b => Bool.not_not b)

theorem ctzOf_spec (a : Word) : ctzOf a ≤ 64 ∧ (∀ i, i < ctzOf a → a.getLsbD i = false)
    ∧ (ctzOf a < 64 → a.getLsbD (ctzOf a) = true) := by
  have length := length_bitsOf a
  have index : ctzOf a = (bitsOf a).findIdx id := length_takeWhile_not _
  have le : (bitsOf a).findIdx id ≤ (bitsOf a).length := List.findIdx_le_length
  rw [index]
  refine ⟨by omega, fun i lt => ?_, fun lt => ?_⟩
  · rw [← getElem_bitsOf a i (by omega)]
    exact List.not_of_lt_findIdx lt
  · rw [← getElem_bitsOf a _ (by omega)]
    exact List.findIdx_getElem (p := id)

theorem clzOf_eq (a : Word) : clzOf a = if a = 0 then 64 else 63 - a.toNat.log2 := by
  have length : (bitsOf a).reverse.length = 64 := by rw [List.length_reverse, length_bitsOf]
  have bit (i : Nat) (h : i < (bitsOf a).reverse.length) : id (bitsOf a).reverse[i] = a.toNat.testBit (63 - i) := by
    rw [List.getElem_reverse, getElem_bitsOf, length_bitsOf]
    rfl
  rw [clzOf, length_takeWhile_not]
  split
  next zero =>
    subst zero
    rw [List.findIdx_eq_length_of_false, length]
    intro b member
    obtain ⟨i, lt, rfl⟩ := List.getElem_of_mem member
    exact (bit i lt).trans (Nat.zero_testBit _)
  next some =>
    have pos : a.toNat ≠ 0 := fun zero => some (BitVec.eq_of_toNat_eq zero)
    have top : a.toNat.log2 < 64 := (Nat.log2_lt pos).mpr a.isLt
    rw [List.findIdx_eq (by omega)]
    refine ⟨?_, fun i lt => ?_⟩
    · rw [bit, show 63 - (63 - a.toNat.log2) = a.toNat.log2 by omega]
      exact Nat.testBit_log2 pos
    · rw [bit]
      exact Nat.testBit_lt_two_pow (Nat.lt_log2_self.trans_le (Nat.pow_le_pow_right (by decide) (by omega)))

theorem popOf_eq (a : Word) : popOf a = ((List.range 64).map fun i => (a.getLsbD i).toNat).sum := by
  have count (l : List Bool) : l.countP id = (l.map Bool.toNat).sum := by
    induction l with
    | nil => rfl
    | cons b r ih => cases b <;> simp [ih, Nat.add_comm]
  rw [popOf, count, bitsOf, List.map_map]
  rfl

/-- Byte `i` of the value of bytes. -/
theorem ofLe_byte (bs : List Byte) (i : Nat) : ofLe bs / 2 ^ (8 * i) % 256 = (bs.getD i 0).toNat := by
  induction bs generalizing i with
  | nil => simp [ofLe]
  | cons b r ih =>
    have low := b.isLt
    have split : ofLe (b :: r) = b.toNat + 256 * ofLe r := rfl
    cases i with
    | zero => simp [split]; omega
    | succ i =>
      have up : 2 ^ (8 * (i + 1)) = 256 * 2 ^ (8 * i) := by rw [Nat.mul_add, Nat.pow_add, Nat.mul_comm]
      have high : (b.toNat + 256 * ofLe r) / 256 = ofLe r := by omega
      rw [split, up, ← Nat.div_div_eq_div_mul, high, ih]
      rfl

/-- A byte of a word, as a number. -/
theorem extractLsb'_byte (v : Word) (i : Nat) : (v.extractLsb' (8 * i) 8).toNat = v.toNat / 2 ^ (8 * i) % 256 := by
  rw [BitVec.extractLsb'_toNat, Nat.shiftRight_eq_div_pow]

theorem aluBswap_byte (a : Word) (i : Nat) (h : i < 8) :
    (aluBswap a).extractLsb' (8 * i) 8 = a.extractLsb' (8 * (7 - i)) 8 := by
  have turned : (leBytes 8 a.toNat).reverse.getD i 0 = BitVec.ofNat 8 (a.toNat >>> (8 * (7 - i))) := by
    rw [List.getD_eq_getElem _ _ (by simpa [leBytes] using h), List.getElem_reverse]
    simp [leBytes]
  have top : 2 ^ 64 = 2 ^ (8 * i) * (256 * 2 ^ (56 - 8 * i)) := by
    rw [show 256 = 2 ^ 8 from rfl, ← Nat.pow_add, ← Nat.pow_add]
    congr 1
    omega
  refine BitVec.eq_of_toNat_eq ?_
  rw [extractLsb'_byte, extractLsb'_byte, aluBswap, word, BitVec.toNat_ofNat, top, Nat.mod_mul_right_div_self,
    Nat.mod_mul_right_mod, ofLe_byte, turned, BitVec.toNat_ofNat, Nat.shiftRight_eq_div_pow]

/-! ### Fields (R114) -/

/-- The mask of a field of the width of `n`, at most a word (R114). -/
theorem fieldMask_bit (n i : Nat) (h : i < 64) : (word (2 ^ Nat.min n 64 - 1)).getLsbD i = decide (i < n) := by
  have width : i < Nat.min n 64 ↔ i < n := lt_min_iff.trans (and_iff_left h)
  rw [word, BitVec.getLsbD_ofNat, Nat.testBit_two_pow_sub_one, decide_eq_decide.mpr width, decide_eq_true h, Bool.true_and]

theorem aluExtr_bit (a b c : Word) (i : Nat) (h : i < 64) :
    (aluExtr a b c).getLsbD i = (decide (i < c.toNat) && a.getLsbD (i + amt b)) := by
  rw [aluExtr, BitVec.getLsbD_and, fieldMask_bit _ _ h, BitVec.getLsbD_ushiftRight, Bool.and_comm, Nat.add_comm]

theorem aluIns_bit (a b c old : Word) (i : Nat) (h : i < 64) : (aluIns a b c old).getLsbD i =
    if amt b ≤ i ∧ i < amt b + Nat.min c.toNat 64 then a.getLsbD (i - amt b) else old.getLsbD i := by
  have inside : amt b ≤ i ∧ i < amt b + Nat.min c.toNat 64 ↔ ¬ i < amt b ∧ i - amt b < c.toNat := by
    rw [show Nat.min c.toNat 64 = min c.toNat 64 from rfl]
    omega
  rw [if_congr inside rfl rfl]
  simp only [aluIns, BitVec.getLsbD_or, BitVec.getLsbD_and, BitVec.getLsbD_not, BitVec.getLsbD_shiftLeft, h, decide_true,
    Bool.true_and, fieldMask_bit _ (i - amt b) (by omega)]
  by_cases below : i < amt b
  · simp [below]
  · by_cases field : i - amt b < c.toNat <;> simp [below, field]

/-! ### The results -/

/-- The low half of the operand under the immediate (R116). -/
theorem ldih_eq (x : FmtB) (a : Word) : ((a &&& 0xFFFFFFFF) ||| immZ x <<< 32 : Word) = x.imm ++ a.extractLsb' 0 32 := by
  refine BitVec.eq_of_getLsbD_eq fun i lt => ?_
  change ((a &&& word (2 ^ Nat.min 32 64 - 1)) ||| immZ x <<< 32).getLsbD i = _
  simp only [BitVec.getLsbD_or, BitVec.getLsbD_and, fieldMask_bit _ _ lt, BitVec.getLsbD_shiftLeft, immZ,
    BitVec.getLsbD_setWidth, BitVec.getLsbD_append, BitVec.getLsbD_extractLsb', lt]
  by_cases half : i < 32
  · simp [half]
  · have fits : i - 32 < 64 := by omega
    simp [half, fits]

section
variable {s : State}

/-- A result of two sources is the value of its rule. -/
theorem alu2_result {x : FmtA} (read : s.canRead [x.a, x.b]) (full : s.canWrite x.d) {f : Word → Word → Word} {v : Word}
    (value : f (s.operand [x.a, x.b] 0) (s.operand [x.a, x.b] 1) = v) :
    s.instr x.e x.w (alu2 x f) = s.scalarResult [x.a, x.b] x.d x.e x.w v :=
  value ▸ State.computes_result read.1 _ _ (fun vs => f (arg vs 0) (arg vs 1)) read.2 full

theorem alu1_result {x : FmtA} (read : s.canRead [x.a]) (full : s.canWrite x.d) {f : Word → Word} {v : Word}
    (value : f (s.operand [x.a] 0) = v) : s.instr x.e x.w (alu1 x f) = s.scalarResult [x.a] x.d x.e x.w v :=
  value ▸ State.computes_result read.1 _ _ (fun vs => f (arg vs 0)) read.2 full

theorem alu3_result {x : FmtA} (read : s.canRead [x.a, x.b, x.c]) (full : s.canWrite x.d) (f : Word → Word → Word → Word) :
    s.instr x.e x.w (alu3 x f) = s.scalarResult [x.a, x.b, x.c] x.d x.e x.w
      (f (s.operand [x.a, x.b, x.c] 0) (s.operand [x.a, x.b, x.c] 1) (s.operand [x.a, x.b, x.c] 2)) :=
  State.computes_result read.1 _ _ (fun vs => f (arg vs 0) (arg vs 1) (arg vs 2)) read.2 full

theorem aluImm_result {x : FmtB} (read : s.canRead [x.a]) (full : s.canWrite x.d) {f : Word → Word} {v : Word}
    (value : f (s.operand [x.a] 0) = v) : s.instr x.e x.w (aluImm x f) = s.scalarResult [x.a] x.d x.e x.w v :=
  value ▸ State.computes_result read.1 _ _ (fun vs => f (arg vs 0)) read.2 full

/-- A result taken from the thread's registers, which an effect's beginning leaves as they are. -/
theorem copies_scalarResult (read : s.canRead []) {d : Spec} (full : s.canWrite d) {f : Thread → Word} {v : Word}
    (value : f s.started.thread = v) (e : Bool) (w : BitVec 4) :
    s.instr e w (copies d f) = s.scalarResult [] d e w v := by
  rw [State.copies_result read.1 e w f full, value, State.scalarResult, State.taken_nil]

/-- SEL takes a where the flag is set, else b (R112). -/
theorem ite_apply_two (c : Bool) (a b : Word) :
    (if c then fun a _ => a else fun _ b => b : Word → Word → Word) a b = if c then a else b := by
  cases c <;> rfl

end

/-- Settles O1: each instruction has the shape `alu2`, and the value of its rule. -/
theorem scalarTwoSources : Obligations.ScalarTwoSources := by
  unfold Obligations.ScalarTwoSources
  intro x s read full A B n gives
  have result {f : Word → Word → Word} {v : Word} (value : f A B = v) : s.instr x.e x.w (alu2 x f) = gives v :=
    alu2_result read full value
  exact ⟨result rfl, result rfl, result rfl, result (aluMulh_eq A B), result (aluMulhn_eq A B), result (aluDiv_eq A B),
    result (aluDivn_eq A B), result (aluRem_eq A B), result (aluRemn_eq A B), result rfl, result rfl, result rfl, result rfl,
    result rfl, result rfl, result rfl, result rfl, result (aluRol_eq A B), result (aluRor_eq A B), result (aluMin_eq A B),
    result (aluMax_eq A B), result (aluMinn_eq A B), result (aluMaxn_eq A B), result (ite_apply_two ..)⟩

/-- Settles O2: each instruction has the shape `alu1`; the counts by the bits, the reversal by the bytes. -/
theorem scalarOneSource : Obligations.ScalarOneSource := by
  unfold Obligations.ScalarOneSource
  intro x s read full A gives
  have result {f : Word → Word} {v : Word} (value : f A = v) : s.instr x.e x.w (alu1 x f) = gives v :=
    alu1_result read full value
  obtain ⟨le, before, here⟩ := ctzOf_spec A
  refine ⟨result ?_, ⟨ctzOf A, le, result rfl, before, here⟩, result ?_, aluBswap A, result rfl, aluBswap_byte A⟩
  · rw [aluClz, clzOf_eq]
    split <;> rfl
  · rw [aluPopc, popOf_eq]
    rfl

/-- Settles O3: EXTR and MADD have the shape `alu3`, and INS computes from its four operands; the fields bit by bit. -/
theorem scalarThreeSources : Obligations.ScalarThreeSources := by
  unfold Obligations.ScalarThreeSources
  refine ⟨fun x s read full => ⟨alu3_result read full _, _, alu3_result read full _, aluExtr_bit _ _ _⟩,
    fun x s read full => ⟨_, ?_, aluIns_bit _ _ _ _⟩⟩
  exact State.computes_result read.1 _ _ (fun vs => aluIns (arg vs 0) (arg vs 1) (arg vs 2) (arg vs 3)) read.2 full

/-- Settles O5: each instruction but LDI has the shape `aluImm`. -/
theorem scalarImmediates : Obligations.ScalarImmediates := by
  unfold Obligations.ScalarImmediates
  refine ⟨fun x s read full => ?_, fun x s read full => copies_scalarResult read full (f := fun _ => immS x) rfl _ _⟩
  intro A S Z n gives
  have result {f : Word → Word} {v : Word} (value : f A = v) : s.instr x.e x.w (aluImm x f) = gives v :=
    aluImm_result read full value
  have shift : amt Z = n := congrArg BitVec.toNat (BitVec.extractLsb'_setWidth_of_le (by decide))
  refine ⟨result rfl, result rfl, result rfl, result rfl, result rfl, result ?_, result ?_, result ?_, result (ldih_eq x A)⟩
  · exact congrArg (A <<< ·) shift
  · exact congrArg (A >>> ·) shift
  · exact congrArg A.sshiftRight shift

/-- Settles O6: FLAGR and CNTR have the shape `copies`, FLAGW and CNTW the shape `marks`, and NOP's effect is none. -/
theorem flagsAndCounters : Obligations.FlagsAndCounters := by
  unfold Obligations.FlagsAndCounters
  have kept (s : State) (on : s.thread?.isSome = true) :
      s.started.thread.f = s.thread.f ∧ s.started.thread.c = s.thread.c := by
    obtain ⟨a, held⟩ := Option.isSome_iff_exists.mp on
    rw [State.started_thread held, State.thread_of_some held]
    exact ⟨rfl, rfl⟩
  refine ⟨fun x s read full => ?_, fun x s read => ?_, fun x s read => ?_, fun x s read full => ?_, fun x s read => ?_⟩
  · exact copies_scalarResult read full (f := fun t => t.f.setWidth 64) (by rw [(kept s read.1).1]) _ _
  · exact State.marks_result read.1 _ _ (fun vs t => { t with f := (arg vs 0).setWidth 8 }) read.2
  · exact State.marks_result read.1 _ _
      (fun vs t => { t with c := wr t.c (cntN x) ((arg vs 0 + x.imm.setWidth 64).setWidth 32) }) read.2
  · exact copies_scalarResult read full (f := fun t => (rd t.c (cntN x) 0).setWidth 64) (by rw [(kept s read.1).2]; rfl) _ _
  · exact State.instr_ok read.1 _ _ rfl

end Sys2Proof.Machine
end

section
/-! Pending results (R107, R108, R170): what one that lands writes, and the trap of an instruction that uses one too early:
the theorem that settles O19, and SUPPORT for it. -/

namespace Sys2Proof.Machine

/-! ### A result that lands (R107) -/

theorem Thread.land_fields (t : Thread) (p : Pending) : t.land p = { t with v := (t.land p).v, m := (t.land p).m } := by
  unfold Thread.land
  split <;> rfl

theorem Thread.land_v (t : Thread) (p : Pending) {r : Nat} (h : r < 16) : rd (t.land p).v r 0 =
    if r = p.reg then blend (rd t.v r 0) p.value p.keep else rd t.v r 0 := by
  unfold Thread.land
  split
  next =>
    split
    next same => rw [← same]; exact rd_wr_same _ _ _ _ h
    next other => exact rd_wr_ne _ _ _ _ _ other
  next mask => rw [if_neg (by omega)]

/-- The low bits of a blend are the blend of the low bits. -/
theorem blend_setWidth (old : BitVec 64) (new keep : BitVec 2048) : (blend (old.setWidth 2048) new keep).setWidth 64 =
    (old &&& ~~~(keep.setWidth 64)) ||| (new.setWidth 64 &&& keep.setWidth 64) := by
  refine BitVec.eq_of_getLsbD_eq fun i lt => ?_
  have wide : i < 2048 := by omega
  simp only [blend, BitVec.getLsbD_setWidth, BitVec.getLsbD_or, BitVec.getLsbD_and, BitVec.getLsbD_not, lt, wide, decide_true,
    Bool.true_and]

theorem Thread.land_m (t : Thread) (p : Pending) {r : Nat} (h : r < 4) : rd (t.land p).m r 0 =
    if 16 + r = p.reg then (blend ((rd t.m r 0).setWidth 2048) p.value p.keep).setWidth 64 else rd t.m r 0 := by
  unfold Thread.land
  split
  next vector => rw [if_neg (by omega)]
  next mask =>
    split
    next same =>
      have place : p.reg - 16 = r := by omega
      rw [place]
      exact rd_wr_same _ _ _ _ h
    next other => exact rd_wr_ne _ _ _ _ _ (by omega)

/-! ### The check of a register (R108) -/

/-- The issuing thread has WCHK and a pending result to register `r`. -/
def State.early (s : State) (r : Nat) : Prop := s.thread.cfg.getLsbD 0 = true ∧ ∃ p ∈ s.thread.pend, p.reg = r

/-- The effect takes the undersized-wait trap before it has changed anything. -/
def M.Refuses {α : Type} (s : State) (m : M α) : Prop := m s = .error (.trap 3 0 0 0, s)

/-- The effect takes that trap where `b`. -/
def M.Guards {α : Type} (s : State) (b : Prop) (m : M α) : Prop := b → M.Refuses s m

/-- It does, and where it takes no trap it has only read. -/
structure M.Checks {α : Type} (s : State) (b : Prop) (m : M α) : Prop where
  guards : M.Guards s b m
  reads : M.Refuses s m ∨ ∃ x, m s = .ok (x, s)

section
variable {α β : Type} {s : State} {b b' c' : Prop}

theorem M.Refuses.bind {m : M α} (h : M.Refuses s m) (f : α → M β) : M.Refuses s (m >>= f) := by
  rw [M.Refuses, M.bind_apply, h]

theorem M.Refuses.after {m : M α} {x : α} (run : m s = .ok (x, s)) {f : α → M β} (h : M.Refuses s (f x)) :
    M.Refuses s (m >>= f) := by
  rw [M.Refuses, M.bind_apply, run]
  exact h

theorem M.Guards.nothing {m : M α} : M.Guards s False m := False.elim

/-- A guarded effect comes first. -/
theorem M.Guards.first {m : M α} (h : M.Guards s b m) (f : α → M β) : M.Guards s b (m >>= f) := fun early => (h early).bind f

/-- A check comes first. -/
theorem M.Checks.andThen {m : M α} {f : α → M β} (first : M.Checks s b m) (rest : ∀ x, M.Guards s b' (f x)) :
    M.Guards s (b ∨ b') (m >>= f) := by
  intro any
  rcases first.reads with stops | ⟨x, run⟩
  · exact stops.bind f
  · exact any.elim (fun early => (first.guards early).bind f) fun early => (rest x early).after run

theorem M.Checks.pure (x : α) : M.Checks s False (pure x : M α) := ⟨.nothing, .inr ⟨x, rfl⟩⟩

theorem M.Checks.ite {c : Prop} [Decidable c] {m n : M α} (hm : M.Checks s b m) (hn : M.Checks s b' n) :
    M.Checks s (c ∧ b ∨ ¬ c ∧ b') (if c then m else n) := by
  split
  next yes => exact ⟨fun h => hm.guards (h.elim And.right fun no => absurd yes no.1), hm.reads⟩
  next no => exact ⟨fun h => hn.guards (h.elim (fun yes => absurd yes.1 no) And.right), hn.reads⟩

/-- One of two checks comes first. -/
theorem M.Checks.choose {c : Prop} [Decidable c] {m n : M α} {f : α → M β} (hm : M.Checks s b m) (hn : M.Checks s b' n)
    (rest : ∀ x, M.Guards s c' (f x)) :
    M.Guards s ((c ∧ b ∨ ¬ c ∧ b') ∨ c') (if c then m >>= f else n >>= f) := by
  rw [← apply_ite (· >>= f)]
  exact (hm.ite hn).andThen rest

theorem M.Checks.after {m : M α} {f : α → M β} (first : M.Checks s b m) (reads : ∀ x, ∃ y, f x s = .ok (y, s)) :
    M.Checks s b (m >>= f) where
  guards := first.guards.first f
  reads := by
    rcases first.reads with stops | ⟨x, run⟩
    · exact .inl (stops.bind f)
    · exact .inr ((reads x).imp fun y last => by rw [M.bind_apply, run]; exact last)

end

section
variable (s : State)

theorem checkPend_checks (r : Nat) : M.Checks s (s.early r) (checkPend r) := by
  have apply : checkPend r s = need (!(s.thread.cfg.getLsbD 0 && s.thread.pend.any fun p => p.reg == r)) 3 0 0 0 s := rfl
  rw [need_apply] at apply
  refine ⟨fun early => ?_, ?_⟩
  · have late : (s.thread.cfg.getLsbD 0 && s.thread.pend.any fun p => p.reg == r) = true := by
      simpa [State.early] using early
    rwa [late] at apply
  · split at apply
    · exact .inr ⟨(), apply⟩
    · exact .inl apply

theorem readV_checks (r : Spec) : M.Checks s (s.early r.toNat) (readV r) := (checkPend_checks s r.toNat).after fun _ => ⟨_, rfl⟩

theorem readM_checks (r : Nat) : M.Checks s (s.early (16 + r)) (readM r) := (checkPend_checks s (16 + r)).after fun _ => ⟨_, rfl⟩

theorem maskIn_checks (x : FmtV) :
    M.Checks s (x.me = true ∧ s.early (16 + x.mask.toNat) ∨ ¬ x.me = true ∧ False) (maskIn x) :=
  .ite (readM_checks s _) (.pure _)

/-- The destination is checked before the sources are read. -/
theorem vin_some (x : FmtV) (useA useB useC : Bool) (r : Nat) :
    vin x useA useB useC (some r) = checkPend r >>= fun _ => vin x useA useB useC none := rfl

/-- The registers that the reading of the sources checks, where it reads any of a, b and c. -/
theorem vin_guards (x : FmtV) (useA useB useC : Bool) :
    M.Guards s (useA = true ∧ s.early x.va.toNat ∨ useB = true ∧ x.sc = false ∧ s.early x.vb.toNat
      ∨ useC = true ∧ s.early x.vc.toNat ∨ x.me = true ∧ s.early (16 + x.mask.toNat)) (vin x useA useB useC none) := by
  have reads : M.Guards s _ (vin x useA useB useC none) :=
    M.Checks.choose (readV_checks s x.va) (.pure 0) fun a => M.Checks.choose (readV_checks s x.vb) (.pure 0) fun b =>
    M.Checks.choose (readV_checks s x.vc) (.pure 0) fun c => (maskIn_checks s x).andThen fun m => .nothing
  refine fun early => reads ?_
  simpa [and_assoc] using early

theorem vin_some_guards (x : FmtV) (useA useB useC : Bool) (r : Nat) :
    M.Guards s (s.early r ∨ useA = true ∧ s.early x.va.toNat ∨ useB = true ∧ x.sc = false ∧ s.early x.vb.toNat
      ∨ useC = true ∧ s.early x.vc.toNat ∨ x.me = true ∧ s.early (16 + x.mask.toNat)) (vin x useA useB useC (some r)) :=
  (checkPend_checks s r).andThen fun _ => vin_guards s x useA useB useC

end

/-! ### The moves between lanes and g registers (R193) -/

/-- VMOVG of a lane to a g register. -/
def movesLane (x : FmtV) : M Unit := do
  let a ← readV x.va
  waitDst x.vd
  write x.vd (extend 4 (x.op.getLsbD 2) (lane a x.lane).toNat)

/-- VMOVG of a scalar to one lane. -/
def setsLane (x : FmtV) : M Unit := do
  checkPend x.vd.toNat
  let g ← src x.vc
  result 0 x.vd.toNat ((g.setWidth 32).setWidth 2048 <<< (32 * x.lane))
    ((BitVec.allOnes 32).setWidth 2048 <<< (32 * x.lane))

/-- VMOVG of a mask to a g register. -/
def movesMask (x : FmtV) : M Unit := do
  let m ← readM x.va.toNat
  waitDst x.vd
  write x.vd m

theorem exec_vmovg (x : FmtV) (s : State) : exec (.vmovg x) s =
    s.instr x.e x.w (if x.sub2 = 0 then movesLane x else if x.sub2 = 1 then setsLane x else movesMask x) := by
  show execVmovg x s = _
  unfold execVmovg
  split
  next sub => rw [if_pos sub]; rfl
  next sub => rw [if_neg (by omega), if_pos sub]; rfl
  next other one => rw [if_neg other, if_neg one]; rfl

/-! ### The trap (R108) -/

section
variable {s : State} {a : Thread} (held : s.thread? = some a) (at_ : a.atLookup = false)
include held at_

/-- An effect whose guard fails takes the trap at the instruction's own word. -/
theorem State.instr_refused {e : Bool} {w : BitVec 4} {m : M Unit} {b : Prop} (guards : M.Guards s.started b m) (any : b) :
    s.instr e w m = .next (s.started.take 3 0 (a.pc.setWidth 64) 0 0 0) := by
  rw [State.instr_trap (by simp [held]) e w (guards any) s.trail_started, State.started_thread held]
  simp [at_, Thread.taddrNow, trapKind]

/-- So does an instruction that reads its sources together. -/
theorem vin_traps {x : FmtV} (useA useB useC : Bool) {r : Nat} (any : s.started.early r
    ∨ useA = true ∧ s.started.early x.va.toNat ∨ useB = true ∧ x.sc = false ∧ s.started.early x.vb.toNat
    ∨ useC = true ∧ s.started.early x.vc.toNat ∨ x.me = true ∧ s.started.early (16 + x.mask.toNat)) (f : VIn → M Unit) :
    s.instr x.e x.w (vin x useA useB useC (some r) >>= f) = .next (s.started.take 3 0 (a.pc.setWidth 64) 0 0 0) :=
  State.instr_refused held at_ (M.Guards.first (vin_some_guards s.started x useA useB useC r) f) any

/-- VSEL checks the mask that selects before all else. -/
theorem vsel_traps {x : FmtV} (any : s.started.early (16 + fld x.op 0 2) ∨ s.started.early x.vd.toNat
    ∨ s.started.early x.va.toNat ∨ x.sc = false ∧ s.started.early x.vb.toNat
    ∨ x.me = true ∧ s.started.early (16 + x.mask.toNat)) :
    exec (.vsel x) s = .next (s.started.take 3 0 (a.pc.setWidth 64) 0 0 0) := by
  refine State.instr_refused held at_ ((readM_checks _ (fld x.op 0 2)).andThen fun _ =>
    M.Guards.first (vin_some_guards s.started x true true false x.vd.toNat) _) ?_
  simpa using any

theorem vmsk_traps {x : FmtV} (any : s.started.early (16 + x.vd.toNat)
    ∨ fld x.op 0 3 ≠ 5 ∧ s.started.early (16 + x.va.toNat)
    ∨ (fld x.op 0 3 ≠ 4 ∧ x.sc = false) ∧ s.started.early (16 + x.vb.toNat)
    ∨ x.me = true ∧ s.started.early (16 + x.mask.toNat)) :
    exec (.vmsk x) s = .next (s.started.take 3 0 (a.pc.setWidth 64) 0 0 0) := by
  refine State.instr_refused held at_ ((checkPend_checks s.started (16 + x.vd.toNat)).andThen fun _ =>
    M.Checks.choose (.pure 0) (readM_checks ..) fun _ => M.Checks.choose (.pure 0) (readM_checks ..) fun _ =>
    (maskIn_checks ..).andThen fun _ => .nothing) ?_
  simpa using any

/-- VBCST reads the lane that it broadcasts in its second form alone. -/
theorem vbcst_traps {x : FmtV} (any : s.started.early x.vd.toNat ∨ x.op.getLsbD 0 = true ∧ s.started.early x.va.toNat
    ∨ x.me = true ∧ s.started.early (16 + x.mask.toNat)) :
    exec (.vbcst x) s = .next (s.started.take 3 0 (a.pc.setWidth 64) 0 0 0) :=
  vin_traps held at_ (x.op.getLsbD 0) false false (by simpa using any) _

theorem vmovg_traps {x : FmtV} (any : x.sub2 = 0 ∧ s.started.early x.va.toNat ∨ x.sub2 = 1 ∧ s.started.early x.vd.toNat
    ∨ x.sub2 = 2 ∧ s.started.early (16 + x.va.toNat)) :
    exec (.vmovg x) s = .next (s.started.take 3 0 (a.pc.setWidth 64) 0 0 0) := by
  rw [exec_vmovg]
  rcases any with ⟨sub, early⟩ | ⟨sub, early⟩ | ⟨sub, early⟩
  · rw [if_pos sub]
    exact State.instr_refused held at_ ((readV_checks ..).guards.first _) early
  · rw [if_neg (by omega), if_pos sub]
    exact State.instr_refused held at_ ((checkPend_checks ..).guards.first _) early
  · rw [if_neg (by omega), if_neg (by omega)]
    exact State.instr_refused held at_ ((readM_checks ..).guards.first _) early

end

/-- Settles O19: a result lands in the register that it names, and each instruction checks its registers before it reads a
scalar operand or waits. -/
theorem pendingResults : Obligations.PendingResults := by
  unfold Obligations.PendingResults
  refine ⟨fun t p _ => ⟨t.land_fields p, fun r lt => t.land_v p lt, fun r lt => ?_⟩, fun s a held wchk at_ => ?_⟩
  · rw [t.land_m p lt, blend_setWidth]
  intro traps pends
  have early {r : Nat} : pends r ↔ s.started.early r := by
    rw [State.early, State.started_thread held]
    exact (and_iff_right wchk).symm
  simp only [early]
  have trap {e : Bool} {w : BitVec 4} {m : M Unit} {b : Prop} (guards : M.Guards s.started b m) (any : b) :=
    State.instr_refused held at_ (e := e) (w := w) guards any
  refine ⟨fun x => ?_, fun x => ⟨fun d => ?_, fun any => ?_⟩, fun x d => ?_⟩
  · refine ⟨fun any => ?_, fun any => ?_, fun any => ?_, fun any => ?_, fun any => ?_, fun any => ?_, fun any => ?_,
      fun any => ?_, fun any => ?_, fun any => ?_, fun sub va => ?_, fun sub d => ?_, fun sub va => ?_⟩
    · have one := vin_traps held at_ (x := x) (r := x.vd.toNat) true false false (by simpa using any)
      exact ⟨one _, one _, one _, one _, one _, one _, one _, one _, one _, one _, one _, one _, one _⟩
    · have two := vin_traps held at_ (x := x) (r := x.vd.toNat) true true false (by simpa using any)
      exact ⟨⟨two _, two _, two _, two _, two _, two _, two _, two _, two _⟩, two _, two _, two _, two _⟩
    · have three := vin_traps held at_ (x := x) (r := x.vd.toNat) true true true (by simpa using any)
      exact ⟨three _, three _, three _⟩
    · refine vsel_traps held at_ ?_
      obtain d | va | vb | sel | mask := any
      · exact .inr (.inl d)
      · exact .inr (.inr (.inl va))
      · exact .inr (.inr (.inr (.inl vb)))
      · exact .inl sel
      · exact .inr (.inr (.inr (.inr mask)))
    · exact vin_traps held at_ true true false (by simpa using any) _
    · exact vmsk_traps held at_ (any.imp_right (.imp_right (.imp_left and_assoc.mpr)))
    · have one (f : VIn → M Unit) := trap (e := x.e) (w := x.w) ((vin_guards s.started x true false false).first f)
        (by simpa using any)
      exact ⟨one _, one _, one _, one _⟩
    · exact trap ((checkPend_checks ..).andThen fun _ => (readV_checks ..).guards.first _) any
    · exact vbcst_traps held at_ (any.imp_right Or.symm)
    · exact vin_traps held at_ false false false (by simpa using any) _
    · exact vmovg_traps held at_ (.inl ⟨congrArg BitVec.toNat sub, va⟩)
    · exact vmovg_traps held at_ (.inr (.inl ⟨congrArg BitVec.toNat sub, d⟩))
    · exact vmovg_traps held at_ (.inr (.inr ⟨congrArg BitVec.toNat sub, va⟩))
  · have first (f : Unit → M Unit) := trap (e := x.e) (w := x.w) ((checkPend_checks _ x.d.toNat).guards.first f) d
    exact ⟨first _, first _⟩
  · have both (f : BitVec 2048 → M Unit) := trap (e := x.e) (w := x.w)
      ((checkPend_checks _ x.d.toNat).andThen fun _ => (readV_checks _ x.a).guards.first f) any
    exact ⟨both _, both _⟩
  · have first (f : Unit → M Unit) := trap (e := x.e) (w := x.w) ((checkPend_checks _ x.d.toNat).guards.first f) d
    exact ⟨first _, first _⟩

end Sys2Proof.Machine
end

section
/-! SUPPORT. What an instruction of class 3 leaves alone (R107, R174, R196): the steps of its effect, which first reads and
then writes, and the frame of each. -/

namespace Sys2Proof.Machine

/-! ### The frame -/

/-- On the issuing core only the issuing slot, the generator of domain `d`, the fills and the counts of events differ. -/
structure VectorOnly (d : Nat) (s t : State) : Prop where
  core : OnlyThisCore s t
  me : t.me = { s.me with slots := t.me.slots, rng := t.me.rng, fills := t.me.fills, tally := t.me.tally }
  rng : ∀ d', d' ≠ d → t.me.rngOf d' = s.me.rngOf d'
  slots : ∀ j, j ≠ s.me.turnSlot → t.me.slot j = s.me.slot j

/-- What a class 3 instruction leaves alone in its thread, where results due by cycle `n` land. -/
structure VectorThreadFrame (dst : Dest) (d n : Nat) (a b : Thread) : Prop where
  rest : b = { a with status := b.status, pc := b.pc, atLookup := b.atLookup, first := b.first, chosen := b.chosen,
                      wskip := b.wskip, skipBp := b.skipBp, q := b.q, tag := b.tag, g := b.g, full := b.full, v := b.v,
                      m := b.m, pend := b.pend }
  g : ∀ r, r < 32 → (dst = .g → r ≠ d) → rd b.g r 0 = rd a.g r 0 ∧ b.isFull r = a.isFull r
  v : ∀ r, r < 16 → (dst = .v → r ≠ d) → rd b.v r 0 = rd a.v r 0 ∨ rd b.v r 0 = rd (a.landDue n).v r 0
  m : ∀ r, r < 4 → (dst = .m → r ≠ d) → rd b.m r 0 = rd a.m r 0 ∨ rd b.m r 0 = rd (a.landDue n).m r 0

theorem VectorOnly.refl (d : Nat) (s : State) : VectorOnly d s s :=
  ⟨⟨rfl, fun _ _ => rfl⟩, rfl, fun _ _ => rfl, fun _ _ => rfl⟩

theorem VectorOnly.trans {d : Nat} {s t u : State} (h : VectorOnly d s t) (h' : VectorOnly d t u) : VectorOnly d s u := by
  obtain ⟨⟨eq, cores⟩, me, rng, slots⟩ := h
  obtain ⟨⟨eq', cores'⟩, me', rng', slots'⟩ := h'
  have cur : t.cur = s.cur := by rw [eq]
  have turn : t.me.turnSlot = s.me.turnSlot := by rw [me]; rfl
  rw [cur] at cores'
  rw [turn] at slots'
  exact ⟨⟨by rw [eq', eq], fun c other => (cores' c other).trans (cores c other)⟩, by rw [me', me],
    fun e other => (rng' e other).trans (rng e other), fun i other => (slots' i other).trans (slots i other)⟩

/-- A change of the issuing core that keeps the rest of it. -/
theorem VectorOnly.modMe {d : Nat} {s : State} {f : Core → Core}
    (me : f s.me = { s.me with slots := (f s.me).slots, rng := (f s.me).rng, fills := (f s.me).fills, tally := (f s.me).tally })
    (rng : ∀ d', d' ≠ d → (f s.me).rngOf d' = s.me.rngOf d')
    (slots : ∀ i, i ≠ s.me.turnSlot → (f s.me).slot i = s.me.slot i) : VectorOnly d s (s.modMe f) := by
  refine ⟨⟨rfl, fun c other => State.core_modMe_ne _ _ _ other⟩, ?_, ?_, ?_⟩ <;> rw [State.me_modMe] <;> assumption

theorem VectorOnly.modThread (d : Nat) (s : State) (f : Thread → Thread) : VectorOnly d s (s.modThread f) :=
  .modMe rfl (fun _ _ => rfl) fun _ other => Core.slot_setSlot_ne _ _ _ _ other

theorem VectorOnly.count (d : Nat) (s : State) (code : Nat) (slot : Option Nat) (e n : Nat) :
    VectorOnly d s (s.modMe fun k => k.count code slot e n) := by
  refine .modMe ?_ (fun d' _ => ?_) fun i _ => ?_
  · unfold Core.count; split <;> rfl
  · simp [Core.rngOf]
  · simp [Core.slot]

theorem VectorOnly.addFill (d : Nat) (s : State) (f : Fill) : VectorOnly d s (s.modMe fun k => k.addFill f) :=
  .modMe rfl (fun _ _ => rfl) fun _ _ => rfl

/-- The draws of the domain move its generator alone (R164). -/
theorem VectorOnly.drawn (s : State) (mode n : Nat) : VectorOnly s.thread.dom.toNat s (s.drawn mode n).2 := by
  unfold State.drawn
  split
  · dsimp only
    generalize drawList n (s.me.rngOf s.thread.dom.toNat) = p
    obtain ⟨rs, st⟩ := p
    refine .modMe ?_ (fun d' other => ?_) fun i _ => ?_
    · unfold Core.count; split <;> rfl
    · simp [Core.rngOf, Tab.get_set_ne _ _ _ _ _ other]
    · simp [Core.slot]
  · exact .refl ..

/-! ### The thread (R107) -/

/-- The thread once its operands have been read. -/
def Thread.reading (a : Thread) (q : Vector (List Msg) 4) (tag : Byte) : Thread := { a with status := .running }.taking q tag

theorem Thread.land_reading (a : Thread) (q : Vector (List Msg) 4) (tag : Byte) (p : Pending) :
    (a.reading q tag).land p = (a.land p).reading q tag := by
  unfold Thread.land
  split <;> rfl

theorem Thread.foldl_land_reading (ps : List Pending) (a : Thread) (q : Vector (List Msg) 4) (tag : Byte) :
    ps.foldl Thread.land (a.reading q tag) = (ps.foldl Thread.land a).reading q tag := by
  induction ps generalizing a with
  | nil => rfl
  | cons p r ih => rw [List.foldl_cons, Thread.land_reading, ih]; rfl

theorem Thread.landDue_reading (a : Thread) (q : Vector (List Msg) 4) (tag : Byte) (n : Nat) :
    (a.reading q tag).landDue n = (a.landDue n).reading q tag := by
  unfold Thread.landDue
  rw [show (a.reading q tag).pend = a.pend from rfl, Thread.foldl_land_reading]
  rfl

theorem Thread.foldl_land_fields (ps : List Pending) (t : Thread) :
    ps.foldl Thread.land t = { t with v := (ps.foldl Thread.land t).v, m := (ps.foldl Thread.land t).m } := by
  induction ps generalizing t with
  | nil => rfl
  | cons p r ih => rw [List.foldl_cons, ih, t.land_fields p]

theorem Thread.landDue_fields (t : Thread) (n : Nat) :
    t.landDue n = { t with v := (t.landDue n).v, m := (t.landDue n).m, pend := (t.landDue n).pend } := by
  unfold Thread.landDue
  rw [Thread.foldl_land_fields]

theorem VectorThreadFrame.reading (dst : Dest) (d n : Nat) (a : Thread) (q : Vector (List Msg) 4) (tag : Byte) :
    VectorThreadFrame dst d n a (a.reading q tag) :=
  ⟨rfl, fun _ _ _ => ⟨rfl, rfl⟩, fun _ _ _ => .inl rfl, fun _ _ _ => .inl rfl⟩

section
variable {dst : Dest} {d n : Nat} {a b : Thread}

/-- A change of the wait and of the place alone. -/
theorem VectorThreadFrame.advance (h : VectorThreadFrame dst d n a b) (e : Bool) (w : BitVec 4) :
    VectorThreadFrame dst d n a (b.advance e w) :=
  ⟨by rw [h.rest]; rfl, h.g, h.v, h.m⟩

/-- A result reaches the register that it names, now or later. -/
theorem VectorThreadFrame.addResult {p : Pending} {wmin : Nat} (due : wmin = 0 → p.due = n)
    (v : ∀ r, r < 16 → (dst = .v → r ≠ d) → r ≠ p.reg) (m : ∀ r, r < 4 → (dst = .m → r ≠ d) → 16 + r ≠ p.reg)
    (q : Vector (List Msg) 4) (tag : Byte) : VectorThreadFrame dst d n a ((a.reading q tag).addResult wmin p) := by
  cases wmin with
  | zero =>
    have now : (a.reading q tag).addResult 0 p = ((a.landDue n).land p).reading q tag := by
      rw [Thread.addResult, if_pos rfl, due rfl, Thread.landDue_reading, Thread.land_reading]
    rw [now]
    refine ⟨?_, fun r _ _ => ?_, fun r lt other => .inr ?_, fun r lt other => .inr ?_⟩
    · rw [Thread.land_fields, Thread.landDue_fields]
      rfl
    · rw [Thread.land_fields, Thread.landDue_fields]
      exact ⟨rfl, rfl⟩
    · exact (Thread.land_v _ p lt).trans (if_neg (v r lt other))
    · exact (Thread.land_m _ p lt).trans (if_neg (m r lt other))
  | succ wmin => exact ⟨rfl, fun _ _ _ => ⟨rfl, rfl⟩, fun _ _ _ => .inl rfl, fun _ _ _ => .inl rfl⟩

theorem VectorThreadFrame.setG (v : Word) (q : Vector (List Msg) 4) (tag : Byte) :
    VectorThreadFrame .g d n a ((a.reading q tag).setG d v) := by
  refine ⟨by unfold Thread.setG; split <;> rfl, fun r lt other => ⟨?_, ?_⟩, fun r _ _ => .inl ?_, fun r _ _ => .inl ?_⟩
  · rw [Thread.setG_g _ _ _ _ lt, if_neg fun h => other rfl h.2]
    rfl
  · exact Thread.setG_isFull_ne _ _ _ _ (other rfl)
  · unfold Thread.setG; split <;> rfl
  · unfold Thread.setG; split <;> rfl

theorem Thread.emptyG_isFull_ne (t : Thread) (d i : Nat) (lt : i < 32) (other : i ≠ d) :
    (t.emptyG d).isFull i = t.isFull i := by
  unfold Thread.emptyG
  split
  · rfl
  · have bit : (~~~BitVec.ofNat 32 (2 ^ d)).getLsbD i = true := by
      rw [BitVec.getLsbD_not, BitVec.getLsbD_ofNat, Nat.testBit_two_pow_of_ne other.symm, decide_eq_true lt, Bool.and_false]
      rfl
    rw [Thread.isFull, BitVec.getLsbD_and, bit, Bool.and_true, Thread.isFull]

theorem VectorThreadFrame.emptyG (q : Vector (List Msg) 4) (tag : Byte) :
    VectorThreadFrame .g d n a ((a.reading q tag).emptyG d) := by
  refine ⟨by unfold Thread.emptyG; split <;> rfl, fun r lt other => ⟨?_, Thread.emptyG_isFull_ne _ _ _ lt (other rfl)⟩,
    fun r _ _ => .inl ?_, fun r _ _ => .inl ?_⟩ <;> unfold Thread.emptyG <;> split <;> rfl

end

/-! ### Effects that first read and then write -/

section
variable (s : State) (a : Thread)

/-- The operands of the instruction have been read, and nothing else has been done. -/
def State.HasRead (u : State) : Prop := ∃ q tag, u = s.modThread fun _ => a.reading q tag

/-- So it is, but for draws of the domain's generator. -/
def State.HasDrawn (u : State) : Prop := VectorOnly a.dom.toNat s u ∧ ∃ q tag, u.thread? = some (a.reading q tag)

/-- The result has been written. -/
def State.HasWritten (dst : Dest) (d : Nat) (u : State) : Prop :=
  VectorOnly a.dom.toNat s u ∧ ∃ b, u.thread? = some b ∧ VectorThreadFrame dst d (8 * (s.me.turn + 1)) a b

/-- From a state with `P` the effect ends in one with `Q`; it stops with the trap of R108 or a wait, and then before it
has done more than read operands. -/
structure M.Steps {α : Type} (P : State → Prop) (m : M α) (Q : State → Prop) : Prop where
  ok : ∀ u x v, P u → m u = .ok (x, v) → Q v
  stop : ∀ u y v, P u → m u = .error (y, v) → (y = .trap 3 0 0 0 ∨ ∃ c, y = .wait c) ∧ s.HasRead a v

end

section
variable {s : State} {a : Thread} {α β : Type} {P Q R : State → Prop}

theorem M.Steps.bind {m : M α} {f : α → M β} (hm : M.Steps s a P m Q) (hf : ∀ x, M.Steps s a Q (f x) R) :
    M.Steps s a P (m >>= f) R where
  ok u y w hu run := by
    rw [M.bind_apply] at run
    split at run
    next x v first => exact (hf x).ok v y w (hm.ok u x v hu first) run
    next => cases run
  stop u y w hu run := by
    rw [M.bind_apply] at run
    split at run
    next x v first => exact (hf x).stop v y w (hm.ok u x v hu first) run
    next e first => cases run; exact hm.stop u y w hu first

/-- An effect that never stops. -/
theorem M.Steps.total {m : M α} {f : State → α} {g : State → State} (run : ∀ u, m u = .ok (f u, g u))
    (h : ∀ u, P u → Q (g u)) : M.Steps s a P m Q where
  ok u x v hu ran := by rw [run] at ran; cases ran; exact h u hu
  stop u y v _ ran := by rw [run] at ran; cases ran

theorem M.Steps.looks {m : M α} {f : State → α} (run : ∀ u, m u = .ok (f u, u)) : M.Steps s a P m P := .total run fun _ => id

theorem M.Steps.pure (x : α) : M.Steps s a P (Pure.pure x : M α) P := .looks fun _ => rfl

theorem M.Steps.of_imp {m : M α} {P' : State → Prop} (h : M.Steps s a P' m Q) (sub : ∀ u, P u → P' u) : M.Steps s a P m Q :=
  ⟨fun u x v hu => h.ok u x v (sub u hu), fun u y v hu => h.stop u y v (sub u hu)⟩

theorem M.Steps.ite {c : Prop} [Decidable c] {m n : M α} (hm : M.Steps s a P m Q) (hn : M.Steps s a P n Q) :
    M.Steps s a P (if c then m else n) Q := by
  split <;> assumption

/-- One of two effects, and then the rest. -/
theorem M.Steps.choose {c : Prop} [Decidable c] {m n : M α} {f : α → M β} (hm : M.Steps s a P m Q) (hn : M.Steps s a P n Q)
    (rest : ∀ x, M.Steps s a Q (f x) R) : M.Steps s a P (if c then m >>= f else n >>= f) R := .ite (hm.bind rest) (hn.bind rest)

end

/-! ### What is read -/

section
variable {s : State} {a : Thread}

theorem checkPend_steps (r : Nat) : M.Steps s a (s.HasRead a) (checkPend r) (s.HasRead a) where
  ok u x v hu run := by
    rcases (checkPend_checks u r).reads with stops | ⟨y, ran⟩
    · cases stops.symm.trans run
    · cases ran.symm.trans run; exact hu
  stop u y v hu run := by
    rcases (checkPend_checks u r).reads with stops | ⟨x, ran⟩
    · cases stops.symm.trans run; exact ⟨.inl rfl, hu⟩
    · cases ran.symm.trans run

theorem readV_steps (r : Spec) : M.Steps s a (s.HasRead a) (readV r) (s.HasRead a) :=
  .bind (checkPend_steps _) fun _ => .looks fun _ => rfl

theorem readM_steps (r : Nat) : M.Steps s a (s.HasRead a) (readM r) (s.HasRead a) :=
  .bind (checkPend_steps _) fun _ => .looks fun _ => rfl

theorem maskIn_steps (x : FmtV) : M.Steps s a (s.HasRead a) (maskIn x) (s.HasRead a) := .ite (readM_steps _) (.pure _)

theorem waitDst_steps (d : Spec) : M.Steps s a (s.HasRead a) (waitDst d) (s.HasRead a) := by
  refine .bind (.looks fun _ => rfl) fun t => ⟨fun u x v hu run => ?_, fun u y v hu run => ?_⟩
  · rw [waitFor_apply] at run
    split at run <;> cases run
    exact hu
  · rw [waitFor_apply] at run
    split at run <;> cases run
    exact ⟨.inr ⟨_, rfl⟩, hu⟩

theorem modeOf_steps {P : State → Prop} (rnd : Nat) : M.Steps s a P (modeOf rnd) P := .looks fun _ => rfl

/-- The sources take messages of the ports (R50). -/
theorem srcs_steps (held : s.thread? = some a) (ss : List Spec) : M.Steps s a (s.HasRead a) (srcs ss) (s.HasRead a) where
  ok u vs v hu run := by
    unfold srcs at run
    dsimp only at run
    split at run <;> cases run
    obtain ⟨q, tag, rfl⟩ := hu
    obtain ⟨q', tag', taken⟩ := (s.modThread fun _ => a.reading q tag).thread.readSrcs_thread
      ((s.modThread fun _ => a.reading q tag).me.bankOf (s.modThread fun _ => a.reading q tag).thread.dom.toNat)
      (whoWord (s.modThread fun _ => a.reading q tag).thread.dom.toNat (s.modThread fun _ => a.reading q tag).cur
        (s.modThread fun _ => a.reading q tag).me.turnSlot) ss
    refine ⟨q', tag', ?_⟩
    rw [taken, State.modThread_modThread, State.thread_modThread held]
    rfl
  stop u y v hu run := by
    unfold srcs at run
    dsimp only at run
    split at run <;> cases run
    exact ⟨.inr ⟨_, rfl⟩, hu⟩

theorem src_steps (held : s.thread? = some a) (sp : Spec) : M.Steps s a (s.HasRead a) (src sp) (s.HasRead a) :=
  .bind (srcs_steps held _) fun _ => .pure _

theorem sigmaIn_steps (held : s.thread? = some a) (x : FmtV) : M.Steps s a (s.HasRead a) (sigmaIn x) (s.HasRead a) :=
  .ite (.bind (src_steps held _) fun _ => .pure _) (.pure _)

/-- The sources that an instruction reads together. -/
theorem vin_steps (held : s.thread? = some a) (x : FmtV) (useA useB useC : Bool) (dst : Option Nat) :
    M.Steps s a (s.HasRead a) (vin x useA useB useC dst) (s.HasRead a) := by
  have sources : M.Steps s a (s.HasRead a) (vin x useA useB useC none) (s.HasRead a) :=
    .choose (readV_steps _) (.pure _) fun _ => .choose (readV_steps _) (.pure _) fun _ =>
    .choose (readV_steps _) (.pure _) fun _ => .bind (maskIn_steps x) fun _ =>
    .ite (.bind (src_steps held _) fun _ => .pure _) (.pure _)
  cases dst with
  | none => exact sources
  | some r => exact .bind (checkPend_steps r) fun _ => sources

/-! ### What is written -/

theorem State.HasRead.drawn (held : s.thread? = some a) {u : State} (h : s.HasRead a u) : s.HasDrawn a u := by
  obtain ⟨q, tag, rfl⟩ := h
  exact ⟨.modThread .., q, tag, by simp [held]⟩

theorem draws_steps (mode n : Nat) : M.Steps s a (s.HasDrawn a) (draws mode n) (s.HasDrawn a) := by
  refine .total (f := fun u => (u.drawn mode n).1) (g := fun u => (u.drawn mode n).2) (fun _ => rfl) fun u h => ?_
  obtain ⟨only, q, tag, there⟩ := h
  have moved := VectorOnly.drawn u mode n
  rw [State.thread_of_some there] at moved
  refine ⟨only.trans moved, q, tag, there ▸ ?_⟩
  unfold State.drawn
  split
  · simp [State.thread?, Core.threadAt, Core.slot, Core.turnSlot]
  · rfl

theorem result_steps {dst : Dest} {d wmin reg : Nat} (v : ∀ r, r < 16 → (dst = .v → r ≠ d) → r ≠ reg)
    (m : ∀ r, r < 4 → (dst = .m → r ≠ d) → 16 + r ≠ reg) (value keep : BitVec 2048) :
    M.Steps s a (s.HasDrawn a) (result wmin reg value keep) (s.HasWritten a dst d) := by
  refine .total (f := fun _ => ()) (g := fun u => u.modThread _) (fun _ => rfl) fun u h => ?_
  obtain ⟨only, q, tag, there⟩ := h
  have turn : u.me.turn = s.me.turn := by rw [only.me]; rfl
  refine ⟨only.trans (.modThread ..), _, by simp [there], .addResult (wmin := wmin) (p := ⟨reg, 8 * (u.me.turn + wmin + 1), value, keep⟩)
    (fun now => ?_) v m q tag⟩
  rw [now, turn]

/-- A v register below 16 takes the result. -/
theorem result_steps_v {d : Nat} (lt : d < 16) (wmin : Nat) (value keep : BitVec 2048) :
    M.Steps s a (s.HasDrawn a) (result wmin d value keep) (s.HasWritten a .v d) :=
  result_steps (fun _ _ other => other rfl) (fun _ _ _ => by omega) value keep

theorem result_steps_m (d wmin : Nat) (value keep : BitVec 2048) :
    M.Steps s a (s.HasDrawn a) (result wmin (16 + d) value keep) (s.HasWritten a .m d) :=
  result_steps (fun _ _ _ => by omega) (fun _ _ other same => other rfl (by omega)) value keep

theorem write_steps {d : Spec} (lt : d.toNat < 32) (v : Word) :
    M.Steps s a (s.HasDrawn a) (write d v) (s.HasWritten a .g d.toNat) := by
  refine .total (f := fun _ => ()) (g := fun u => u.write d v) (fun _ => rfl) fun u h => ?_
  obtain ⟨only, q, tag, there⟩ := h
  rw [State.write_g lt]
  exact ⟨only.trans (.modThread ..), _, by simp [there], .setG v q tag⟩

theorem reduceFill_steps (d : Spec) (turns : Nat) (v : Word) :
    M.Steps s a (s.HasDrawn a) (reduceFill d turns v) (s.HasWritten a .g d.toNat) := by
  refine .total (f := fun _ => ()) (g := fun u => (u.modThread (·.emptyG d.toNat)).modMe _) (fun _ => rfl) fun u h => ?_
  obtain ⟨only, q, tag, there⟩ := h
  refine ⟨(only.trans (.modThread ..)).trans (.addFill ..), _, ?_, .emptyG (n := _) q tag⟩
  rw [State.thread?_modMe_same rfl rfl, State.thread?_modThread, there]
  rfl

end

end Sys2Proof.Machine
end

section
/-! The frame of class 3 (R107, R174, R196): the theorem that settles O20, and SUPPORT for it. -/

namespace Sys2Proof.Machine

/-! ### The instructions -/

section
variable {s : State} {a : Thread} (held : s.thread? = some a)
include held

/-- The last of what is read. -/
theorem M.Steps.last {α : Type} {m : M α} (h : M.Steps s a (s.HasRead a) m (s.HasRead a)) :
    M.Steps s a (s.HasRead a) m (s.HasDrawn a) :=
  ⟨fun u x v hu run => (h.ok u x v hu run).drawn held, h.stop⟩

theorem vin_last (x : FmtV) (useA useB useC : Bool) (dst : Option Nat) :
    M.Steps s a (s.HasRead a) (vin x useA useB useC dst) (s.HasDrawn a) := .last held (vin_steps held ..)

theorem src_last (sp : Spec) : M.Steps s a (s.HasRead a) (src sp) (s.HasDrawn a) := .last held (src_steps held sp)

end

section
variable {s : State} {a : Thread} {x : FmtV}

theorem vmap_steps (lt : x.vd.toNat < 16) (wmin : Nat) (m : BitVec 64) (f : Nat → BitVec 32) :
    M.Steps s a (s.HasDrawn a) (vmap x wmin m f) (s.HasWritten a .v x.vd.toNat) := result_steps_v lt ..

theorem vmapF_steps (lt : x.vd.toNat < 16) (ty wmin : Nat) (m : BitVec 64) (f : Nat → FV) :
    M.Steps s a (s.HasDrawn a) (vmapF x ty wmin m f) (s.HasWritten a .v x.vd.toNat) :=
  .bind (modeOf_steps _) fun _ => .bind (draws_steps ..) fun _ => vmap_steps lt ..

theorem maskRes_steps (wmin : Nat) (m r : BitVec 64) :
    M.Steps s a (s.HasDrawn a) (maskRes x wmin m r) (s.HasWritten a .m x.vd.toNat) := result_steps_m ..

end

section
variable {s : State} {a : Thread} (held : s.thread? = some a) {x : FmtV}
include held

/-- A reduction empties the register that it fills (R196). -/
theorem reduction_steps (f : VIn → M Unit) (fills : ∀ v, M.Steps s a (s.HasDrawn a) (f v) (s.HasWritten a .g x.vd.toNat)) :
    M.Steps s a (s.HasRead a) (vin x true false false none >>= fun v => waitDst x.vd >>= fun _ => f v)
      (s.HasWritten a .g x.vd.toNat) :=
  .bind (vin_steps held ..) fun v => .bind (.last held (waitDst_steps _)) fun _ => fills v

theorem movesLane_steps (lt : x.vd.toNat < 32) :
    M.Steps s a (s.HasRead a) (movesLane x) (s.HasWritten a .g x.vd.toNat) :=
  .bind (readV_steps _) fun _ => .bind (.last held (waitDst_steps _)) fun _ => write_steps lt _

theorem movesMask_steps (lt : x.vd.toNat < 32) :
    M.Steps s a (s.HasRead a) (movesMask x) (s.HasWritten a .g x.vd.toNat) :=
  .bind (readM_steps _) fun _ => .bind (.last held (waitDst_steps _)) fun _ => write_steps lt _

section
variable (lt : x.vd.toNat < 16)
include lt

theorem setsLane_steps : M.Steps s a (s.HasRead a) (setsLane x) (s.HasWritten a .v x.vd.toNat) :=
  .bind (checkPend_steps _) fun _ => .bind (src_last held _) fun _ => result_steps_v lt ..

theorem varith_steps (f : FV → FV → FV) (g : Int → Int → Int) :
    M.Steps s a (s.HasRead a) (varith x f g) (s.HasWritten a .v x.vd.toNat) :=
  .bind (vin_last held ..) fun _ => .ite (vmapF_steps lt ..) (vmap_steps lt ..)

theorem vfused_steps (f : FV → FV → FV → FV) :
    M.Steps s a (s.HasRead a) (vfused x f) (s.HasWritten a .v x.vd.toNat) :=
  .bind (vin_last held ..) fun _ => vmapF_steps lt ..

theorem vsign_steps (f : FV → FV) (g : Int → Int) :
    M.Steps s a (s.HasRead a) (vsign x f g) (s.HasWritten a .v x.vd.toNat) :=
  .bind (vin_last held ..) fun _ => vmap_steps lt ..

theorem vapprox_steps (op : Nat) : M.Steps s a (s.HasRead a) (vapprox x op) (s.HasWritten a .v x.vd.toNat) :=
  .bind (vin_last held ..) fun _ => .ite (vmap_steps lt ..) (vmapF_steps lt ..)

theorem vbits_steps (wmin : Nat) (f : BitVec 32 → BitVec 32 → BitVec 32) :
    M.Steps s a (s.HasRead a) (vbits x wmin f) (s.HasWritten a .v x.vd.toNat) :=
  .bind (vin_last held ..) fun _ => vmap_steps lt ..

/-- Lane by lane from the sources alone. -/
theorem lanes_steps (useA useB useC : Bool) (wmin : Nat) (m : VIn → BitVec 64) (f : VIn → Nat → BitVec 32) :
    M.Steps s a (s.HasRead a) (vin x useA useB useC (some x.vd.toNat) >>= fun v => vmap x wmin (m v) (f v))
      (s.HasWritten a .v x.vd.toNat) :=
  .bind (vin_last held ..) fun _ => vmap_steps lt ..

/-- The same, rounded to a type. -/
theorem roundedLanes_steps (useA useB useC : Bool) (ty wmin : Nat) (m : VIn → BitVec 64) (f : VIn → Nat → FV) :
    M.Steps s a (s.HasRead a) (vin x useA useB useC (some x.vd.toNat) >>= fun v => vmapF x ty wmin (m v) (f v))
      (s.HasWritten a .v x.vd.toNat) :=
  .bind (vin_last held ..) fun _ => vmapF_steps lt ..

end

end

/-- What an instruction of class 3 leaves in the end: the trap of R108, or its frame. -/
theorem State.instr_class3 {s t : State} {a : Thread} (held : s.thread? = some a) {e : Bool} {w : BitVec 4} {m : M Unit}
    {dst : Dest} {d : Nat} (steps : M.Steps s a (s.HasRead a) m (s.HasWritten a dst d)) (run : s.instr e w m = .next t) :
    (∃ k, t = s.started.take 3 0 (a.pc.setWidth 64) 0 0 k) ∨ s.HasWritten a dst d t := by
  have on : s.thread?.isSome = true := by simp [held]
  have begins : s.HasRead a s.started := ⟨a.q, a.tag, by
    rw [State.started, State.modThread_eq, State.modThread_eq, held]
    rfl⟩
  rcases result : m s.started with ⟨y, v⟩ | ⟨x, v⟩
  · obtain ⟨kind, q, tag, rfl⟩ := steps.stop _ y v begins result
    rw [State.instr_stop on e w result, State.trail_modThread] at run
    rcases kind with rfl | ⟨c, rfl⟩
    · cases run
      rw [State.started_thread held]
      exact .inl ⟨_, rfl⟩
    · cases run
      exact .inr ⟨.trans (.modThread ..) (.count ..), _, State.waits_thread? held c,
        rfl, fun _ _ _ => ⟨rfl, rfl⟩, fun _ _ _ => .inl rfl, fun _ _ _ => .inl rfl⟩
  · obtain ⟨only, b, there, frame⟩ := steps.ok _ x v begins result
    rw [State.instr_ok on e w result] at run
    cases run
    exact .inr ⟨only.trans (.modThread ..), _, by simp [there], frame.advance e w⟩

/-- R65: a well-formed instruction keeps every condition on its fields. -/
theorem uses_ok_of_wellFormed {i : Instr} (wf : i.WellFormed = true) {c : Bool} (listed : c ∈ i.uses.ok) : c = true := by
  have legal := illegal_of_wellFormed wf
  have all : i.uses.ok.all id = true := by
    by_contra some
    rw [Instr.illegal, if_neg some] at legal
    split at legal <;> cases legal
  exact List.all_eq_true.mp all c listed

theorem vd_lt_of_wellFormed {i : Instr} (wf : i.WellFormed = true) {d : Spec} (listed : isV d ∈ i.uses.ok) : d.toNat < 16 :=
  of_decide_eq_true (uses_ok_of_wellFormed wf listed)

/-- The second form of VMOVG writes a lane of a v register, the others a g register (R193). -/
theorem vmovg_steps {s : State} {a : Thread} (held : s.thread? = some a) {x : FmtV}
    (wf : (Instr.vmovg x).WellFormed = true) :
    M.Steps s a (s.HasRead a) (if x.sub2 = 0 then movesLane x else if x.sub2 = 1 then setsLane x else movesMask x)
      (s.HasWritten a (if x.op.extractLsb' 0 2 = 1#2 then .v else .g) x.vd.toNat) := by
  have sub : x.op.extractLsb' 0 2 = 1#2 ↔ x.sub2 = 1 := BitVec.toNat_inj.symm
  have fits := uses_ok_of_wellFormed wf (c := if x.sub2 == 1 then isV x.vd else isG x.vd) (List.mem_of_getElem? (i := 1) rfl)
  rw [if_congr sub rfl rfl]
  by_cases one : x.sub2 = 1
  · rw [if_pos (beq_iff_eq.mpr one)] at fits
    rw [if_neg (by omega), if_pos one, if_pos one]
    exact setsLane_steps held (of_decide_eq_true fits)
  · rw [if_neg (mt beq_iff_eq.mp one)] at fits
    rw [if_neg one, if_neg one]
    exact .ite (movesLane_steps held (of_decide_eq_true fits)) (movesMask_steps held (of_decide_eq_true fits))

/-- Settles O20: each instruction first reads and then writes, and each step has its frame. -/
theorem vectorFrame : Obligations.VectorFrame := by
  unfold Obligations.VectorFrame
  intro x s t a held keeps
  have frame {i : Instr} {e : Bool} {w : BitVec 4} {m : M Unit} {dst : Dest} (run : exec i s = s.instr e w m)
      (steps : i.WellFormed = true → M.Steps s a (s.HasRead a) m (s.HasWritten a dst x.vd.toNat)) : keeps i dst := by
    intro wf ran
    refine (State.instr_class3 held (steps wf) (run ▸ ran)).imp_right fun written => ?_
    obtain ⟨only, b, there, kept⟩ := written
    exact ⟨only.core, only.me, only.rng, only.slots, b, there, kept.rest, kept.g, kept.v, kept.m⟩
  have vector {i : Instr} {e : Bool} {w : BitVec 4} {m : M Unit} (run : exec i s = s.instr e w m)
      (first : i.uses.ok.head? = some (isV x.vd))
      (steps : x.vd.toNat < 16 → M.Steps s a (s.HasRead a) m (s.HasWritten a .v x.vd.toNat)) : keeps i .v :=
    frame run fun wf => steps (vd_lt_of_wellFormed wf (List.mem_of_head? first))
  have arith (f : FV → FV → FV) (g : Int → Int → Int) (lt : x.vd.toNat < 16) := varith_steps held lt f g
  have fused (f : FV → FV → FV → FV) (lt : x.vd.toNat < 16) := vfused_steps held lt f
  have lanes (useA useB useC : Bool) (wmin : Nat) (f : VIn → Nat → BitVec 32) (lt : x.vd.toNat < 16) :=
    lanes_steps held lt useA useB useC wmin VIn.m f
  have rounded (useA useB useC : Bool) (wmin : Nat) (f : VIn → Nat → FV) (lt : x.vd.toNat < 16) :=
    roundedLanes_steps held lt useA useB useC x.ty.toNat wmin VIn.m f
  have approximates (op : Nat) (lt : x.vd.toNat < 16) := vapprox_steps held lt op
  have bits (wmin : Nat) (f : BitVec 32 → BitVec 32 → BitVec 32) (lt : x.vd.toNat < 16) := vbits_steps held lt wmin f
  have vcmp : keeps (.vcmp x) .m := frame rfl fun _ => .bind (vin_last held ..) fun _ => maskRes_steps ..
  have vsel : keeps (.vsel x) .v := vector rfl rfl fun lt => .bind (readM_steps _) fun _ => .bind (vin_last held ..) fun _ =>
    vmap_steps lt ..
  have vmsk : keeps (.vmsk x) .m := frame rfl fun _ => .bind (checkPend_steps _) fun _ =>
    .choose (.pure _) (readM_steps _) fun _ => .choose (.pure _) (readM_steps _) fun _ => .bind (maskIn_steps x) fun _ =>
    .choose (src_last held _) (.last held (.pure _)) fun _ => maskRes_steps ..
  have vcvt : keeps (.vcvt x) .v := vector rfl rfl fun lt => .bind (vin_last held ..) fun _ => .bind (modeOf_steps _) fun _ =>
    .choose (draws_steps ..) (.pure _) fun _ => vmap_steps lt ..
  have vqnt : keeps (.vqnt x) .v := vector rfl rfl fun lt => .bind (checkPend_steps _) fun _ => .bind (readV_steps _) fun _ =>
    .bind (.last held (sigmaIn_steps held x)) fun _ => .bind (modeOf_steps _) fun _ => .bind (draws_steps ..) fun _ =>
    result_steps_v lt ..
  have vdqt : keeps (.vdqt x) .v := vector rfl rfl fun lt => .bind (vin_steps held ..) fun _ =>
    .bind (.last held (sigmaIn_steps held x)) fun _ => vmapF_steps lt ..
  have vbcst : keeps (.vbcst x) .v := vector rfl rfl fun lt => .bind (vin_steps held ..) fun _ =>
    .choose (.last held (.pure _)) (src_last held _) fun _ => vmap_steps lt ..
  have viota : keeps (.viota x) .v := vector rfl rfl fun lt => .bind (vin_steps held ..) fun _ =>
    .bind (src_last held _) fun _ => vmap_steps lt ..
  have vscan : keeps (.vscan x) .v := vector rfl rfl fun lt => .bind (vin_last held ..) fun _ =>
    .bind (modeOf_steps _) fun _ => .choose (draws_steps ..) (.pure _) fun _ => vmap_steps lt ..
  have vtopk : keeps (.vtopk x) .v := vector rfl rfl fun lt => .bind (vin_last held ..) fun _ => result_steps_v lt ..
  have vmovg : keeps (.vmovg x) (if x.op.extractLsb' 0 2 = 1#2 then .v else .g) :=
    frame (exec_vmovg x s) fun wf => vmovg_steps held wf
  have vredadd : keeps (.vredadd x) .g := frame rfl fun _ => reduction_steps held _ fun _ =>
    .ite (.bind (modeOf_steps _) fun _ => .bind (draws_steps ..) fun _ => reduceFill_steps ..) (reduceFill_steps ..)
  have vredmax : keeps (.vredmax x) .g := frame rfl fun _ => reduction_steps held _ fun _ =>
    .ite (reduceFill_steps ..) (reduceFill_steps ..)
  have vredmin : keeps (.vredmin x) .g := frame rfl fun _ => reduction_steps held _ fun _ =>
    .ite (reduceFill_steps ..) (reduceFill_steps ..)
  have vamax : keeps (.vamax x) .g := frame rfl fun _ => reduction_steps held _ fun _ => reduceFill_steps ..
  exact ⟨⟨vector rfl rfl (arith _ _), vector rfl rfl (arith _ _), vector rfl rfl (arith _ _), vector rfl rfl (fused _),
      vector rfl rfl (fused _), vector rfl rfl (fused _), vector rfl rfl (lanes true true false 1 _),
      vector rfl rfl (lanes true true false 1 _), vector rfl rfl fun lt => vsign_steps held lt _ _,
      vector rfl rfl fun lt => vsign_steps held lt _ _, vector rfl rfl (rounded true true false 5 _),
      vector rfl rfl (rounded true false false 5 _)⟩,
    ⟨vector rfl rfl (approximates 0), vector rfl rfl (approximates 1), vector rfl rfl (approximates 2),
      vector rfl rfl (approximates 3), vector rfl rfl (approximates 4), vector rfl rfl (bits 0 _), vector rfl rfl (bits 0 _),
      vector rfl rfl (bits 0 _), vector rfl rfl (bits 0 _), vector rfl rfl (bits 0 _), vector rfl rfl (bits 0 _), vcmp, vsel,
      vmsk, vector rfl rfl (lanes true false false 1 _)⟩,
    ⟨vcvt, vqnt, vdqt, vbcst, viota, vector rfl rfl (lanes true true false 1 _), vscan, vtopk⟩,
    vmovg, vredadd, vredmax, vredmin, vamax⟩

end Sys2Proof.Machine
end

section
/-! A scalar load whose checks pass (R96, R269, R270, R273): the theorem that settles O21, and SUPPORT for it. -/

namespace Sys2Proof.Machine

/-! ### The order of a load (R269, R279) -/

/-- Before a load nothing is released, and nothing holds it back. -/
theorem before_load {s : State} (free : s.clear) {o : Nat × Nat} (acquires : o.1 < 2) : before o s = .ok ((), s) := by
  have first : afterAll s = .ok ((), s) := if_neg (by simp [free.1])
  rw [before, if_neg (by omega)]
  split
  · exact first
  · rfl

theorem after_apply (o : Nat × Nat) (s : State) : after o s = .ok ((), s.acquiring o) := by
  unfold after State.acquiring
  split <;> rfl

theorem ordering_apply (isLoad : Bool) (order : BitVec 2) (scope : BitVec 3) (s : State) :
    ordering isLoad order scope s = .ok (s.orderOf isLoad order scope, s) := rfl

theorem sendFill_apply (d : Spec) (v : Word) (bad : Bool) (ea : Nat) (s : State) :
    sendFill d.toNat v bad ea s = .ok ((), s.onItsWay d v bad ea) := rfl

/-- The access passes its checks (`access_reach`), and then nothing holds the load back (`load_clear`). -/
theorem exec_ld {x : FmtM} {s s1 : State} {l : Lane} {o : Nat × Nat} (read : s.canRead [x.a]) (full : s.canWrite x.d)
    (free : s.clear) (order : (s.taken [x.a]).orderOf true x.order x.scope = o) (acquires : o.1 < 2)
    (found : (s.taken [x.a]).reach x.seg.toNat [offset (s.operand [x.a] 0) (x.off.signExtend 64)] (Machine.sizeOf x.size)
      (Machine.sizeOf x.size) needR = some ([l], s1)) :
    exec (.ld x) s = ((((s1.element o.2 l).2.onItsWay x.d (extend (Machine.sizeOf x.size) x.sext (ofLe (s1.element o.2 l).1))
      (s1.laneBad s1.cur s1.thread.dom o.2 l) l.ea).watched 1 [l]).acquiring o).goesOn x.e x.w := by
  obtain ⟨a, held⟩ := Option.isSome_iff_exists.mp read.1
  have taken := (State.Calm.taken held [x.a]).clear free
  obtain ⟨passes, only, whole⟩ := access_reach taken found
  have free1 := only.clear taken
  have loads := load_clear free1 o.2 (whole l (List.mem_singleton.mpr rfl))
  have address : src x.a s.started = .ok (s.operand [x.a] 0, s.taken [x.a]) := by
    simp only [src, M.bind_apply, srcs_started read]
    rfl
  refine State.instr_ok read.1 x.e x.w ?_
  simp only [M.bind_apply, waitDst_ok full, address, ordering_apply, order, passes, List.forIn_cons, List.forIn_nil,
    before_load free1 acquires, loads, sendFill_apply, M.pure_apply, watch_watched, after_apply]

/-- Settles O21: `exec_ld`, whose address and value are those of the statement. (The name `load` is the model's.) -/
theorem scalarLoad : Obligations.Load := by
  unfold Obligations.Load
  intro x s s1 l read full free n o acquires found bad r v
  exact exec_ld read full free rfl acquires found

end Sys2Proof.Machine
end

section
/-! The cuts of a turn (R139, R141): the theorem that settles O41, and SUPPORT for it: a cut is a list of changes, each of which
goes to its own entry and to no other. -/

namespace Sys2Proof.Machine

/-! ### The changes of one entry -/

section
variable (e : CueEnt) (c : Option CueImg)

@[simp] theorem CueEnt.commit_live : (e.commit c).live = c.getD e.live := by
  cases c <;> simp only [CueEnt.commit] <;> split <;> rfl

@[simp] theorem CueEnt.commit_valid : (e.commit c).valid = c.isSome := by
  cases c <;> simp only [CueEnt.commit] <;> split <;> rfl

@[simp] theorem CueEnt.commit_shadow : (e.commit c).shadow = e.shadow := by
  cases c <;> simp only [CueEnt.commit] <;> split <;> rfl

@[simp] theorem CueEnt.commit_wrote : (e.commit c).wrote = e.wrote := by
  cases c <;> simp only [CueEnt.commit] <;> split <;> rfl

/-- An entry whose change a cut has taken up is staged no longer, unless a later CUEW has staged it again. -/
theorem CueEnt.commit_staged : (e.commit c).staged = (e.staged && !e.taken) ∧ (e.commit c).taken = false := by
  cases taken : e.taken <;> cases c <;> simp [CueEnt.commit, taken]

end

/-- The entry after changes in order. -/
def CueEnt.commits (e : CueEnt) (cs : List (Option CueImg)) : CueEnt := cs.foldl CueEnt.commit e

section
variable (e : CueEnt) (cs : List (Option CueImg))

/-- The last change decides whether the entry is valid, and what its live copy is where it brings an image. -/
theorem CueEnt.commits_concat (c : Option CueImg) : e.commits (cs ++ [c]) = (e.commits cs).commit c := by
  simp [CueEnt.commits]

theorem CueEnt.commits_live : (e.commits cs).live = ((cs.filterMap id).getLast?).getD e.live := by
  induction cs using List.reverseRecOn with
  | nil => rfl
  | append_singleton cs c ih => cases c <;> simp [CueEnt.commits_concat, ih]

theorem CueEnt.commits_kept : (e.commits cs).shadow = e.shadow ∧ (e.commits cs).wrote = e.wrote := by
  induction cs using List.reverseRecOn with
  | nil => exact ⟨rfl, rfl⟩
  | append_singleton cs c ih => simpa [CueEnt.commits_concat] using ih

theorem CueEnt.commits_staged : (e.commits cs).staged = (e.staged && (!e.taken || cs.isEmpty)) := by
  induction cs generalizing e with
  | nil => simp [CueEnt.commits]
  | cons c cs ih =>
    obtain ⟨staged, taken⟩ := e.commit_staged c
    have rest := ih (e.commit c)
    rw [staged, taken] at rest
    simpa [CueEnt.commits] using rest

end

/-! ### The changes of a table -/

/-- A change reaches the entry that it names. -/
def Tab.commitAt (t : Tab CueEnt) (ch : Nat × Option CueImg) : Tab CueEnt :=
  Tab.set {} t ch.1 ((Tab.get {} t ch.1).commit ch.2)

/-- Each entry has its own changes, in their order. -/
theorem Tab.get_commitAt (chs : List (Nat × Option CueImg)) (t : Tab CueEnt) (i : Nat) :
    Tab.get {} (chs.foldl Tab.commitAt t) i = (Tab.get {} t i).commits ((chs.filter (·.1 == i)).map (·.2)) := by
  induction chs generalizing t with
  | nil => rfl
  | cons ch chs ih =>
    rw [List.foldl_cons, ih]
    by_cases here : ch.1 = i
    · subst here
      simp [Tab.commitAt, CueEnt.commits]
    · simp [Tab.commitAt, Tab.get_set_ne _ _ _ _ _ (Ne.symm here), here]

/-! ### The cuts of a core -/

/-- One cut: its changes, and the number of its set (R139). -/
def Core.commitCut (k : Core) (c : Cut) : Core :=
  { k with
    cue := c.changes.foldl Tab.commitAt k.cue
    desc := Tab.set {} k.desc c.set { k.descOf c.set with cut := (k.descOf c.set).cut + 1 } }

theorem Core.commitCuts_eq (k : Core) : k.commitCuts = { k.cuts.foldl Core.commitCut k with cuts := [] } := rfl

theorem Core.commitCut_foldl_cue (cs : List Cut) (k : Core) :
    (cs.foldl Core.commitCut k).cue = (cs.flatMap (·.changes)).foldl Tab.commitAt k.cue := by
  induction cs generalizing k with
  | nil => rfl
  | cons c cs ih => simp [ih, Core.commitCut]

theorem Core.commitCut_descOf (k : Core) (c : Cut) (set : Nat) :
    (k.commitCut c).descOf set =
      { k.descOf set with cut := (k.descOf set).cut + if c.set == set then 1 else 0 } := by
  by_cases here : c.set = set
  · subst here
    simp [Core.descOf, Core.commitCut]
  · simp [Core.descOf, Core.commitCut, here, Tab.get_set_ne _ _ _ _ _ (Ne.symm here)]

theorem Core.commitCut_foldl_descOf (cs : List Cut) (k : Core) (set : Nat) :
    (cs.foldl Core.commitCut k).descOf set = { k.descOf set with
      cut := (k.descOf set).cut + BitVec.ofNat 16 (cs.filter (·.set == set)).length } := by
  induction cs generalizing k with
  | nil => simp
  | cons c cs ih =>
    rw [List.foldl_cons, ih, Core.commitCut_descOf]
    by_cases here : c.set = set
    · simp only [here, beq_self_eq_true, if_true, List.filter_cons_of_pos, List.length_cons]
      congr 1
      bv_omega
    · simp [here]

theorem Core.commitCuts_cueAt (k : Core) (i : Nat) :
    k.commitCuts.cueAt i = (k.cueAt i).commits (((k.cuts.flatMap (·.changes)).filter (·.1 == i)).map (·.2)) := by
  rw [Core.commitCuts_eq, Core.cueAt, Core.commitCut_foldl_cue, Tab.get_commitAt]
  rfl

/-- Settles O41: each entry has the changes of all cuts that name it, in order (`Core.commitCuts_cueAt`), and of these the
last is committed last (`CueEnt.commits_concat`). -/
theorem cutsCommit : Obligations.CutsCommit := by
  unfold Obligations.CutsCommit
  intro k
  refine ⟨rfl, fun set => Core.commitCut_foldl_descOf k.cuts k set, fun i => ?_⟩
  dsimp only
  rw [Core.commitCuts_cueAt]
  generalize ((k.cuts.flatMap (·.changes)).filter (·.1 == i)).map (·.2) = ch
  obtain ⟨shadow, wrote⟩ := (k.cueAt i).commits_kept ch
  refine ⟨fun none => by subst none; rfl, fun img last => ?_, fun last => ⟨?_, (k.cueAt i).commits_live ch⟩, shadow, wrote,
    (k.cueAt i).commits_staged ch⟩
  · obtain ⟨before, rfl⟩ := List.getLast?_eq_some_iff.mp last
    simp [CueEnt.commits_concat]
  · obtain ⟨before, rfl⟩ := List.getLast?_eq_some_iff.mp last
    simp [CueEnt.commits_concat]

end Sys2Proof.Machine
end

section
/-! A step at a lookup (R126, R127, R130, R402): the theorem that settles O58, and SUPPORT for it: the cycle looks up, and a
thread with no save asked for goes on to the chosen shot. -/

namespace Sys2Proof.Machine

/-- A thread that may issue, with no event due, at a lookup: its cycle looks up. -/
theorem State.cycle_looksUp {s : State} {a : Thread} (held : s.thread? = some a)
    (runs : a.status = .running ∨ a.status = .waiting) (skips : a.wskip = 0) (hold : a.holdUntil ≤ s.me.cycle)
    (shut : s.me.shut = false) (drains : a.yield = false) (saved : s.heldForSave s.cur s.me.turnSlot = false)
    (point : a.atLookup = true) (quiet : s.dueEvent = none) : s.cycle = s.lookup := by
  have closed : s.closed = false := by simp [State.closed, held, hold]
  have yielding : s.yielding = false := by simp [State.yielding, State.thread_of_some held, drains]
  unfold State.cycle
  rw [State.thread_of_some held]
  rcases runs with status | status <;> simp [closed, yielding, skips, shut, saved, quiet, point, status]

/-! ### After the chosen cue -/

/-- A lookup of domain `d` that does not wait is counted (R395). -/
def State.lookedUp (s : State) (d : Nat) : State :=
  if s.thread?.any (·.status == .waiting) then s else s.modMe fun k => k.count 7 none d 1

theorem State.lookedUp_eq (s : State) (d : Nat) :
    s.lookedUp d = if s.thread?.any (·.status == .waiting) then s else s.modMe fun k => k.count 7 none d 1 := rfl

/-- The slot has a thread, which has a word to issue and stands at no lookup. -/
theorem State.wordFollows_held {s : State} (issues : s.wordFollows = true) :
    ∃ b, s.thread? = some b ∧ b.atLookup = false := by
  unfold State.wordFollows at issues
  split at issues
  next => cases issues
  next b held => exact ⟨b, held, by simp_all⟩

section
variable {s : State} {b : Thread} (held : s.thread? = some b) (unasked : b.preq = none)
include held unasked

/-- A thread of which no save is asked is not saved (R343). -/
theorem execPreemptSave_unasked : execPreemptSave s.cur s.me.turnSlot s = .next s := by
  have here : (s.core s.cur).threadAt s.me.turnSlot = some b := held
  simp only [execPreemptSave, here, unasked]

theorem State.heldForSave_unasked : s.heldForSave s.cur s.me.turnSlot = false := by
  have here : (s.core s.cur).threadAt s.me.turnSlot = some b := held
  simp [State.heldForSave, here, unasked]

end

section
variable {s t u : State} (chosen : s.chosenCue = .next t) (counted : t.lookedUp s.thread.dom.toNat = u)
include chosen counted

theorem State.lookup_ends (unissued : u.wordFollows = false) : s.lookup = .next (u.passes 255 false) := by
  simp only [State.lookup, chosen, ← State.lookedUp_eq, counted, unissued, Bool.false_eq_true, if_false]

/-- With no save asked for, a thread that has a word to issue enters the chosen shot. -/
theorem State.lookup_enters (issues : u.wordFollows = true) (unasked : u.thread.preq = none) :
    s.lookup = u.enterShot := by
  obtain ⟨b, held, -⟩ := State.wordFollows_held issues
  rw [State.thread_of_some held] at unasked
  simp only [State.lookup, chosen, ← State.lookedUp_eq, counted, issues, if_true, execPreemptSave_unasked held unasked,
    State.heldForSave_unasked held unasked, held]
  rfl

end

/-! ### The chosen shot (R126, R143) -/

/-- A shot of which no wait is foretold issues its first word in this cycle. -/
theorem State.enterShot_issues {s : State} (buffered : ∀ r, s.pred ≠ false :: r) :
    s.enterShot = { s with pred := s.pred.tail }.issueWord := by
  cases eq : s.pred with
  | nil =>
    have same : { s with pred := [] } = s := by rw [← eq]
    simp only [State.enterShot, eq, List.tail_nil, same]
  | cons bit r =>
    cases bit with
    | false => exact absurd eq (buffered r)
    | true => simp only [State.enterShot, eq, List.tail_cons]

/-- A fetched word that holds no instruction takes the illegal-instruction trap at its own address. -/
theorem State.issueWord_traps {s s1 : State} {b : Thread} {w : Word} {sub : Nat} (held : s.thread? = some b)
    (word : b.atLookup = false) (unbroken : s.breakAt = false) (fetched : fetch s.started = .ok (some w, s1))
    (decoded : decode w = .error sub) :
    s.issueWord = .next ((s1.started.take 1 sub (s.thread.pc.setWidth 64) w 0 0).passes 255 false) := by
  have at_word : s.standsAt b.pc false := ⟨b, held, rfl, word⟩
  have starts : s.started.standsAt b.pc false := at_word.modThread (fun _ => rfl) fun _ => rfl
  obtain ⟨c, held', here, at_⟩ := fetch_standsAt.ok _ _ _ starts fetched
  have thread : s1.started.thread = { c with status := .running } := State.thread_modThread held' _
  rw [State.issueWord_illegal unbroken fetched decoded, State.thread_of_some held]
  simp [endCycle, State.perform, State.settle, State.stopped, thread, Thread.taddrNow, here, at_, trapKind]

/-- Settles O58: the cycle looks up (`State.cycle_looksUp`), and what follows the chosen cue's effect is the end of the cycle
(`State.lookup_ends`) or the chosen shot (`State.lookup_enters`). -/
theorem stepLooksUp : Obligations.StepLooksUp := by
  unfold Obligations.StepLooksUp
  intro s t a agenda on due held runs skips hold shut drains saved point quiet effect
  have looks : step s = s.lookup := by
    simp only [step, agenda, on, due]
    exact State.cycle_looksUp held runs skips hold shut drains saved point quiet
  have thread := State.thread_of_some held
  have chosen : s.chosenCue = .next t := by
    rw [State.chosenCue, thread]
    exact effect
  intro t'
  have counted : t.lookedUp s.thread.dom.toNat = t' := by rw [thread]; rfl
  refine ⟨fun unissued => looks.trans (State.lookup_ends chosen counted unissued), fun issues unasked => ?_⟩
  have enters : step s = t'.enterShot := looks.trans (State.lookup_enters chosen counted issues unasked)
  refine ⟨fun r waits => ?_, ?_⟩
  · rw [enters, State.enterShot, waits]
  · intro w s1 buffered u unbroken fetched
    have issued : step s = u.issueWord := enters.trans (State.enterShot_issues buffered)
    obtain ⟨b, there, word⟩ := State.wordFollows_held issues
    have there : u.thread? = some b := there
    refine ⟨fun i decoded => ?_, fun sub decoded => ?_⟩
    · rw [issued, State.issueWord_runs unbroken fetched decoded]
      rfl
    · rw [issued, State.issueWord_traps there word unbroken fetched decoded]

end Sys2Proof.Machine
end

section
/-! SUPPORT. A lookup's key (R124, R125), the outcomes of a chosen cue (R136), and the accesses that a lookup makes: call
frames in s7 (R132, R133) and words of s0 (R131, R134). -/

namespace Sys2Proof.Machine

/-! ### The key and the outcome of a chosen cue (R124, R125, R136) -/

section
variable {s : State} {a : Thread} (held : s.thread? = some a)
include held

@[simp] theorem State.lookupKey_started : s.started.lookupKey = s.lookupKey := by
  simp only [State.lookupKey, State.started_thread held, State.thread_of_some held]
  simp only [State.started, State.me_modThread, Core.descOf, Core.modThread_desc, Core.turnSlot, Core.modThread_cycle]
  rfl

/-- R125: a full selector lets the lookup have its key at once. -/
theorem keyNow_started (full : s.selFull = true) : keyNow s.started = .ok (s.lookupKey, s.started) := by
  have full' : s.started.selFull = true := by
    simp only [State.selFull, State.started_thread held, State.thread_of_some held] at full ⊢
    simpa [State.started, Core.descOf, Thread.isFull] using full
  simp [keyNow, full', State.lookupKey_started held]

/-- The slot's state holds no access back. -/
theorem State.clear.started (free : s.clear) : s.started.clear :=
  (State.Calm.modThread held (f := fun t => { t with status := .running }) rfl).clear free

theorem State.atPoint_ok {t : State} {m : M Unit} (run : m s.started = .ok ((), t)) : s.atPoint m = .next t := by
  rw [State.atPoint_eq (by simp [held]), run, State.settle_ok]

/-- A trap of a lookup is taken from the state before it, at the thread's own word (R136). -/
theorem State.atPoint_trap {m : M Unit} {c n : Nat} {d0 d1 : Word} (kind : trapKind c n = 2)
    (run : m s.started = .error (.trap c n d0 d1, s.started)) :
    s.atPoint m = .next (s.started.take c n (a.pc.setWidth 64) d0 d1 2) := by
  rw [State.atPoint_eq (by simp [held]), run]
  simp [State.settle, State.stopped, State.started_thread held, Thread.taddrNow, kind]

end

theorem lookupTrap_apply {α : Type} (c n : Nat) (badframe explicit : Bool) (s : State) :
    (lookupTrap c n badframe explicit : M α) s =
      .error (.trap c n s.lookupKey (lookupDet s.thread.cset badframe explicit), s) := rfl

/-- What an access of a lookup answers where it does not trap. -/
theorem inLookup_ok {α : Type} {m : M α} {s t : State} {x : α} (run : m s = .ok (x, t)) : inLookup m s = .ok (x, t) := by
  rw [inLookup, run]

theorem countWindow_counted (x : Nat) (s : State) : countWindow x s = .ok ((), s.counted x) := rfl

theorem finishCue_apply (q : CueAct) (key : Word) (ns : BitVec 32) (nset : Nat) (np : BitVec 16) (s : State) :
    finishCue q key ns nset np s = .ok ((), s.modThread fun t => (t.counterOp q.cnt key).goto ns nset np) := rfl

/-! ### Call frames (R132, R133, R136, R211) -/

/-- The frame of 16 bytes at `off` of s7 passes its checks for the rights `nd`: it is element `l`, found in `v`. -/
def State.frameAt (u : State) (off : Nat) (nd : Need) (l : Lane) (v : State) : Prop :=
  ∃ ea, u.segAt 7 off 16 needRW ea ∧ (inWin ea = true → u.storeAt ea 16)
    ∧ u.me.rangeHit u.thread.dom u.thread.tid ea 16 (nd.getLsbD 1) = none ∧ u.lanesAt nd 16 [ea] = some ([l], v)

/-- A segment check that passes gives the same address for fewer rights. -/
theorem segCheck_fewer {sg : Seg} {dom : Byte} {off n : Nat} {nd nd' : Need} {ea : Nat} (fewer : nd' &&& ~~~nd = 0)
    (passes : segCheck sg dom off n nd = .ok ea) : segCheck sg dom off n nd' = .ok ea := by
  have rights : nd &&& ~~~sg.rights = 0 → nd' &&& ~~~sg.rights = 0 := by
    intro has
    have split : nd' &&& ~~~sg.rights = ((nd' &&& ~~~nd) &&& ~~~sg.rights) ||| (nd' &&& (nd &&& ~~~sg.rights)) := by
      ext i; simp; grind
    rw [split, fewer, has]
    simp
  unfold segCheck at passes ⊢
  split at passes
  · cases passes
  · split at passes
    · cases passes
    · split at passes
      · cases passes
      next own inside has =>
        rw [if_neg own, if_neg inside, if_neg (not_not.mpr (rights (not_not.mp has)))]
        exact passes

theorem segCheck_inside {sg : Seg} {dom : Byte} {off n : Nat} {nd : Need} {ea : Nat}
    (passes : segCheck sg dom off n nd = .ok ea) : off + n ≤ sg.limit.toNat := by
  unfold segCheck at passes
  split at passes
  · cases passes
  · split at passes
    · cases passes
    · omega

theorem segOf_ok {u : State} {seg off n : Nat} {nd : Need} {ea : Nat} (there : u.segAt seg off n nd ea) :
    segOf seg off n nd u = .ok (ea, u) := by
  unfold State.segAt at there
  simp only [segOf, M.bind_apply, thread_apply, there, M.pure_apply]

theorem noRangeHit_ok {u : State} {ea n : Nat} {write : Bool}
    (none : u.me.rangeHit u.thread.dom u.thread.tid ea n write = none) : noRangeHit ea n write u = .ok ((), u) := by
  simp only [noRangeHit, M.bind_apply, thread_apply, core_apply, none, M.pure_apply]

section
variable {u v : State} {off : Nat} {nd : Need} {l : Lane} (free : u.clear) (frame : u.frameAt off nd l v)
include free frame

theorem State.frameAt.reached (fewer : nd &&& ~~~needRW = 0) :
    (frameAccess off nd u = .ok ([l], v)) ∧ u.LinesOnly v ∧ l.lost = false := by
  obtain ⟨ea, inside, stored, range, found⟩ := frame
  obtain ⟨run, only, whole⟩ := xlateLanes_lanesAt free found
  refine ⟨inLookup_ok ?_, only, whole l (List.mem_singleton.mpr rfl)⟩
  have inside' : u.segAt 7 off 16 nd ea := segCheck_fewer fewer inside
  have store : inWin ea = true → u.storeFault u.thread.dom.toNat u.cur ea 16 = none := stored
  cases win : inWin ea with
  | true =>
    simp only [M.bind_apply, segOf_ok inside, segOf_ok inside', win, if_true, storeCheck, store win, noRangeHit_ok range, run,
      afterInit_clear (only.clear free), M.pure_apply]
  | false =>
    simp only [M.bind_apply, segOf_ok inside, segOf_ok inside', win, Bool.false_eq_true, if_false, noRangeHit_ok range, run,
      afterInit_clear (only.clear free), M.pure_apply]

end

/-- A store that nothing loses is made. -/
theorem store_clear {s : State} (free : s.clear) (n : Nat) {l : Lane} (whole : l.lost = false) (bs : List Byte) :
    store n l bs s = .ok ((), s.storeTo s.cur s.thread.dom n l bs) := by
  simp only [store, M.bind_apply, packetFails_clear free n whole]
  rfl

/-- The frame of `shot`, `set` and `prm` is written at `l`, and the stack grows by it (R132). -/
def State.pushed (v : State) (l : Lane) (shot : BitVec 32) (set : Byte) (prm : BitVec 16) : State :=
  ((v.storeTo v.cur v.thread.dom 0 l (leBytes 16 (shot.toNat ||| set.toNat <<< 32 ||| prm.toNat <<< 48))).watched 2
    [l]).modThread fun t => { t with csp := t.csp + 16 }

theorem pushFrame_pushed {u v : State} {l : Lane} (free : u.clear) (frame : u.frameAt u.thread.csp.toNat needW l v)
    (shot : BitVec 32) (set : Byte) (prm : BitVec 16) :
    pushFrame shot set prm u = .ok ((), v.pushed l shot set prm) := by
  obtain ⟨run, only, whole⟩ := frame.reached free (by decide)
  obtain ⟨ea, inside, -⟩ := frame
  have limit : ¬ (rd u.thread.seg 7 {}).limit.toNat < u.thread.csp.toNat + 16 := not_lt.mpr (segCheck_inside inside)
  simp only [pushFrame, M.bind_apply, thread_apply, if_neg limit, run, List.forIn_cons, List.forIn_nil,
    store_clear (only.clear free) 0 whole, watch_watched, modThread_apply, M.pure_apply]
  rfl

/-! ### A word of s0 (R131, R134, R253) -/

/-- Translations change memory, the translations held and the events counted, also where they stop. -/
theorem xlateVas_lines (u : State) (nd : Need) (vas : List Nat) : M.Stays u.LinesOnly (xlateVas nd vas) := by
  have counts (code n : Nat) : M.Stays u.LinesOnly (tally code n) :=
    .changes (fun _ => rfl) fun s only => only.trans (.count ..)
  have one (va : Nat) : M.Stays u.LinesOnly (xlate va nd) :=
    .changes (fun _ => rfl) fun s only =>
      only.trans ((State.LinesOnly.countMiss s s.cur s.thread.dom.toNat va).trans (State.TableOnly.translate ..).lines)
  induction vas with
  | nil => exact .pure _
  | cons va r ih =>
    refine .bind (one va) fun x => ?_
    cases x with
    | ok pa => exact .bind ih fun _ => .pure _
    | rights => exact .raise ..
    | refused => exact .bind (counts ..) fun _ => .raise ..
    | missing => exact .bind ih fun _ => .pure _

section
variable {u : State} (free : u.clear)
include free

/-- No search loses its packet where the next packet authenticates (R373). -/
theorem walkLost_lines (l : Lane) (nd : Need) : M.Stays u.LinesOnly (walkLost l nd) where
  ok s a v only run := by
    rw [walkLost_clear (only.clear free)] at run
    cases run
    exact only
  stop s x v only run := by
    rw [walkLost_clear (only.clear free)] at run
    cases run

theorem xlateLanes_lines (nd : Need) (n : Nat) (eas : List Nat) : M.Stays u.LinesOnly (xlateLanes nd n eas) := by
  induction eas with
  | nil => exact .pure _
  | cons ea r ih =>
    exact .bind (walkLost_lines free ..) fun _ => .bind (xlateVas_lines u ..) fun _ => .bind ih fun _ => .pure _

theorem packetFails_lines (scope : Nat) (l : Lane) : M.Stays u.LinesOnly (packetFails scope l) where
  ok s a v only run := by
    have free := only.clear free
    cases lost : l.lost with
    | false =>
      rw [packetFails_clear free scope lost] at run
      cases run
      exact only
    | true =>
      simp only [packetFails, lost, if_true] at run
      cases run
      exact only
  stop s x v only run := by
    have free := only.clear free
    cases lost : l.lost with
    | false => rw [packetFails_clear free scope lost] at run; cases run
    | true => simp only [packetFails, lost, if_true] at run; cases run

/-- A word that is read changes nothing but what its reading changes: only one that is not read pends an event (R273). -/
theorem fetchAt_lines (pc : Nat) (nd : Need) :
    M.Ends u.LinesOnly (fetchAt pc nd) (fun w v => w.isSome = true → u.LinesOnly v) u.LinesOnly := by
  refine .bind (segOf_stays ..) fun ea => .optional _ (storeCheck_stays ..) ?_
  refine .bind (noRangeHit_stays ..) fun _ => .bind (xlateLanes_lines free ..) fun found => ?_
  obtain ⟨ls, miss⟩ := found
  cases miss with
  | some va => exact .weaken (missingPage_stays ..) (fun _ only => only) (fun _ _ only _ => only) fun _ only => only
  | none =>
    refine .bind (afterInit_stays _) fun _ => .bind (packetFails_lines free ..) fun lost => ?_
    refine .bind (M.Stays.reads fun _ => rfl) fun s => ?_
    dsimp only
    split
    · exact .bind (Q := fun _ _ => True) (.of_ok (fun _ => rfl) fun _ _ => trivial) fun _ =>
        .pure fun _ _ read => by cases read
    · exact .pure fun _ only _ => only

end

end Sys2Proof.Machine
end

section
/-! The effects of the cue actions (R130 to R136, R339, R365 to R367): the theorem that settles O47, and SUPPORT for it. -/

namespace Sys2Proof.Machine

/-! ### What the actions share -/

/-- The thread goes on at the shot, set and parameter of a cue, after its counter operation (R130, R131). -/
def State.goesTo (v : State) (q : CueAct) (key : Word) (ns : BitVec 32) (nset : Nat) (np : BitVec 16) : State :=
  v.modThread fun t => (t.counterOp q.cnt key).goto ns nset np

theorem State.gateEntry_listed {s : State} {x : Ctx} {k : Nat} {w : Word × Word × Word} (entry : s.gateEntry x k = some w) :
    k < x.gateCount := by
  by_contra out
  simp [State.gateEntry, Nat.not_lt.mp out] at entry

/-- The entry is read where no packet fails. -/
theorem gateRead_clear {s : State} (free : s.clear) {x : Ctx} {k : Nat}
    (listed : k < x.gateCount) : gateRead x k s = .ok (false, s) := by
  simp [gateRead, Nat.not_le.mpr listed, packetFails_clear free]

/-- A release at scope slot writes nothing back (R280). -/
theorem release_slot {s : State} (free : s.clear) : release 0 s = .ok ((), s) := by
  rw [release_clear free, State.released, State.release, if_pos (by decide)]

theorem State.LinesOnly.counted (u : State) (x : Nat) : u.LinesOnly (u.counted x) := .count ..

/-- The record that a GATE queues for the entry of words `w0`, `w1` and `w2` (R366). -/
def State.gateRec (s : State) (a : Thread) (q : CueAct) (w0 w1 w2 : Word) : Rec where
  dom := BitVec.ofNat 8 (fld w0 48 8)
  launch := none
  ctx := fld w2 0 32
  hndl := (s.ctx (fld w2 0 32)).hndl
  nosteal := true
  since := s.me.cycle
  kind := .gate (w0.extractLsb' 0 32) (fld w0 32 6) q.prm
    ((passRegs (w1.extractLsb' 0 32)).map fun i => (i, rd a.g i 0)) ⟨a.tid, w1.extractLsb' 0 32⟩

section
variable {s : State} {a : Thread} {q : CueAct} (held : s.thread? = some a) (full : s.selFull = true)
include held full

/-! ### NEXT, CALL, ICALL and RET (R130 to R134) -/

theorem exec_next : exec (.next q) s = .next (s.started.goesTo q s.lookupKey q.wordA q.nset.toNat q.prm) := by
  refine State.atPoint_ok held ?_
  simp only [M.bind_apply, keyNow_started held full, finishCue_apply]
  rfl

theorem exec_call (free : s.clear) {l : Lane} {v : State} (frame : s.started.frameAt a.csp.toNat needW l v) :
    exec (.call q) s =
      .next ((v.pushed l q.wordB q.rset a.prm).goesTo q s.lookupKey q.wordA q.nset.toNat q.prm) := by
  have thread := State.started_thread held
  have frame : s.started.frameAt s.started.thread.csp.toNat needW l v := by rw [thread]; exact frame
  refine State.atPoint_ok held ?_
  simp only [M.bind_apply, keyNow_started held full, thread_apply, pushFrame_pushed (free.started held) frame, finishCue_apply,
    thread]
  rfl

/-- The shot is that of the function table's entry `fe`, whose signature is word B (R134). -/
theorem exec_icall (free : s.clear) {fe : Word} {l : Lane} {v v' : State} {index : Nat} (key : fld s.lookupKey 48 16 = index)
    (listed : index < (s.ctx a.ctx).ftCount)
    (fetched : fetchAt ((s.ctx a.ctx).ftBase + index) needX s.started = .ok (some fe, v))
    (signed : fld fe 32 32 = q.wordB.toNat)
    (frame : (v.counted ((rd a.seg 0 {}).base.toNat + 8 * ((s.ctx a.ctx).ftBase + index))).frameAt a.csp.toNat needW l v') :
    exec (.icall q) s =
      .next ((v'.pushed l q.wordA q.rset a.prm).goesTo q s.lookupKey (fe.extractLsb' 0 32) q.nset.toNat q.prm) := by
  subst key
  have thread := State.started_thread held
  have start := free.started held
  have word := (fetchAt_lines start _ _).ok _ _ _ (.refl _) fetched rfl
  have counted := word.trans (.counted v ((rd a.seg 0 {}).base.toNat + 8 * ((s.ctx a.ctx).ftBase + fld s.lookupKey 48 16)))
  have free' : (v.counted _).clear := counted.clear start
  have thread' : (v.counted _).thread = { a with status := .running } := counted.thread.trans thread
  have ctx : s.started.ctx a.ctx = s.ctx a.ctx := rfl
  refine State.atPoint_ok held ?_
  have pushes := pushFrame_pushed (l := l) (v := v') free' (by rw [thread']; exact frame)
  simp only [M.bind_apply, keyNow_started held full, thread_apply, thread, M.get_apply, ctx, if_neg (not_le.mpr listed),
    inLookup_ok fetched, countWindow_counted, signed, ne_eq, not_true_eq_false, if_false, pushes, finishCue_apply]
  rfl

/-- The shot, set and parameter are those of the frame, whose set is one of the thread's domain (R132, R133). -/
theorem exec_ret (free : s.clear) {l : Lane} {v : State} (nonempty : a.csp ≠ 0)
    (frame : s.started.frameAt (a.csp - 16).toNat needR l v) (good : v.laneBad v.cur v.thread.dom 0 l = false) {fr : Nat}
    (bytes : ofLe (v.load v.cur v.thread.dom 0 l).1 = fr) (own : s.me.ownSet a.dom (fr / 2 ^ 32 % 256) = true) :
    exec (.ret q) s = .next ((((v.load v.cur v.thread.dom 0 l).2.watched 1 [l]).modThread fun t =>
      { t with csp := t.csp - 16 }).goesTo q s.lookupKey (BitVec.ofNat 32 fr) (fr / 2 ^ 32 % 256)
        (BitVec.ofNat 16 (fr / 2 ^ 48))) := by
  subst bytes
  have thread := State.started_thread held
  have start := free.started held
  obtain ⟨found, only, whole⟩ := frame.reached start (by decide)
  have free' := only.clear start
  have loaded := only.trans (.load free'.2 v.thread.dom 0 l)
  have own' : ((v.load v.cur v.thread.dom 0 l).2.watched 1 [l]).me.ownSet a.dom
      (ofLe (v.load v.cur v.thread.dom 0 l).1 / 2 ^ 32 % 256) = true := by
    rw [State.watched, State.me_modThread, show (v.load v.cur v.thread.dom 0 l).2.me = _ from loaded.me]
    simpa [State.started, Core.ownSet, Core.descOf] using own
  refine State.atPoint_ok held ?_
  simp only [M.bind_apply, keyNow_started held full, thread_apply, thread, nonempty, if_false, found, List.forIn_cons,
    List.forIn_nil, load_clear free' 0 whole, State.element, good, Bool.false_eq_true, watch_watched, core_apply, own', if_true,
    M.pure_apply, modThread_apply, finishCue_apply]
  rfl

/-! ### GATE and GRET (R365 to R367) -/

theorem exec_gate (free : s.clear) {w0 w1 w2 : Word}
    (entry : s.gateEntry (s.ctx a.ctx) q.wordB.toNat = some (w0, w1, w2)) (present : s.me.present (fld w0 48 8) = true)
    (room : s.me.shareFull (fld w0 48 8) = false) (passes : ∀ i ∈ passRegs (w1.extractLsb' 0 32), a.isFull i = true) :
    exec (.gate q) s = .next ((s.started.modMe (·.pushBottom (s.gateRec a q w0 w1 w2))).modThread fun t =>
      { t with status := .gateWait q.wordA q.cnt s.lookupKey }) := by
  have thread := State.started_thread held
  have start := free.started held
  have ctx (x : Nat) : s.started.ctx x = s.ctx x := rfl
  have entry' : s.started.gateEntry (s.ctx a.ctx) q.wordB.toNat = some (w0, w1, w2) := entry
  have present' : s.started.me.present (fld w0 48 8) = true := by
    rw [State.started, State.me_modThread]
    exact present
  have room' : s.started.me.shareFull (fld w0 48 8) = false := by
    rw [State.started, State.me_modThread]
    exact room
  have passes' : (passRegs (w1.extractLsb' 0 32)).all { a with status := .running }.isFull = true :=
    List.all_eq_true.mpr passes
  have queued : s.started.modMe (fun k => k.pushBottom { s.gateRec a q w0 w1 w2 with since := k.cycle }) =
      s.started.modMe (·.pushBottom (s.gateRec a q w0 w1 w2)) :=
    congrArg (fun n => s.started.setCore s.cur (s.started.me.pushBottom { s.gateRec a q w0 w1 w2 with since := n }))
      (State.started_cycle s)
  refine State.atPoint_ok held ?_
  simp only [M.bind_apply, keyNow_started held full, M.get_apply, thread_apply, thread, ctx,
    gateRead_clear start (State.gateEntry_listed entry), Bool.false_eq_true, if_false, entry', present', if_true, room',
    waitFor_apply, passes', release_slot start, modMe_apply, modThread_apply]
  rw [← queued]
  rfl

theorem exec_gret {g : GateLink} (serves : a.gate = some g) (passes : ∀ i ∈ passRegs g.pass, a.isFull i = true) :
    exec (.gret q) s = .next (s.started.modThread fun t =>
      { t with status := .returning q.cnt s.lookupKey s.me.cycle }) := by
  have thread := State.started_thread held
  have serves' : s.started.thread.gate = some g := by rw [thread]; exact serves
  have passes' : (passRegs g.pass).all s.started.thread.isFull = true := by
    rw [thread]
    exact List.all_eq_true.mpr passes
  have cycle : s.started.me.cycle = s.me.cycle := State.started_cycle s
  refine State.atPoint_ok held ?_
  simp only [M.bind_apply, keyNow_started held full, thread_apply, serves', waitFor_apply, passes', if_true, core_apply,
    cycle, modThread_apply]

/-! ### ERET and MISS-TRAP (R136, R339) -/

/-- The E bit of the word that TRET names, where the thread can read it. -/
def State.lastE (s : State) (pc : Nat) : Bool :=
  match fetchAt pc 0 s with
  | .ok (some w, _) => w.getLsbD 63
  | _ => false

theorem exec_eret (handles : a.tret.getLsbD 56 = true) :
    exec (.eret q) s = .next (
      (if fld a.tret 54 2 = 1 then s.started.counted ((rd a.seg 0 {}).base.toNat + 8 * fld a.tret 0 32)
        else s.started).modThread fun t =>
      t.leave (((s.ctx a.ctx).coreSet (fld t.tret 48 6)).getD 0) (s.started.lastE (fld a.tret 0 32))) := by
  have thread := State.started_thread held
  have ctx : s.started.ctx a.ctx = s.ctx a.ctx := rfl
  have there : s.started.thread? = some { a with status := .running } := by
    rw [State.started, State.thread?_modThread, held]
    rfl
  refine State.atPoint_ok held ?_
  by_cases counts : fld a.tret 54 2 = 1
  · simp only [M.bind_apply, keyNow_started held full, M.get_apply, thread, handles, if_true, ctx, counts, countWindow_counted,
      modThread_apply]
    exact congrArg (fun v => Except.ok ((), v)) (State.modThread_congr ((State.LinesOnly.counted ..).thread?.trans there) rfl)
  · simp only [M.bind_apply, keyNow_started held full, M.get_apply, thread, handles, if_true, ctx, counts, if_false,
      modThread_apply]
    exact congrArg (fun v => Except.ok ((), v)) (State.modThread_congr there rfl)

theorem exec_eret_missed (outside : a.tret.getLsbD 56 = false) :
    exec (.eret q) s = .next (s.started.take 11 0 (a.pc.setWidth 64) s.lookupKey (word (a.cset ||| 256)) 2) := by
  have thread := State.started_thread held
  refine State.atPoint_trap held rfl ?_
  simp only [M.bind_apply, keyNow_started held full, M.get_apply, thread, outside, Bool.false_eq_true, if_false,
    lookupTrap_apply, State.lookupKey_started held, lookupDet, if_true, Nat.or_zero]

theorem exec_missTrap :
    exec (.missTrap q) s = .next (s.started.take 11 1 (a.pc.setWidth 64) s.lookupKey (word (a.cset ||| 512)) 2) := by
  have thread := State.started_thread held
  refine State.atPoint_trap held rfl ?_
  simp only [M.bind_apply, keyNow_started held full, lookupTrap_apply, thread, State.lookupKey_started held, lookupDet,
    Bool.false_eq_true, if_false, if_true, Nat.or_zero]

end

/-- Settles O47: the effect of each cue action is that of its lemma, `exec_next` to `exec_missTrap`. -/
theorem cueActions : Obligations.CueActions := by
  unfold Obligations.CueActions
  intro q s a held full free u key x frame goes pushed
  refine ⟨exec_next held full, fun l v => exec_call held full free, ?_, ?_, ?_, fun g => exec_gret held full, ?_,
    exec_eret_missed held full, exec_missTrap held full⟩
  case refine_1 =>
    intro fe v l v' listed fetched signed
    exact exec_icall held full free rfl listed fetched signed
  case refine_2 =>
    intro l v nonempty found good p fr own
    exact exec_ret held full free nonempty found good rfl own
  case refine_3 =>
    intro w0 w1 w2 entry present room passes
    refine ⟨_, s.gateRec a q w0 w1 w2, exec_gate held full free entry present room passes, ?_, ?_, ?_, rfl, rfl, rfl⟩
    · rw [State.me_modThread, State.me_modMe, State.started, State.me_modThread]
      rfl
    · rw [State.thread?_modThread, State.thread?_modMe_same rfl rfl, State.started, State.thread?_modThread, held]
      rfl
    · exact Nat.mod_eq_of_lt (w0.extractLsb' 48 8).isLt
  case refine_4 =>
    intro handles lastE last
    subst last
    exact exec_eret held full handles

end Sys2Proof.Machine
end

section
/-! CUEW, CUECUT, CUERD and CUESEL (R120 to R123, R144 to R150): the theorem that settles O40, and SUPPORT for it. -/

namespace Sys2Proof.Machine

/-! ### The set that an instruction names (R120, R150) -/

/-- A trap that resumes with a reissue of the thread's word (R334), with one detail. -/
theorem State.instr_trapped {s u : State} {a : Thread} (held : s.thread? = some a) (word : a.atLookup = false) {e : Bool}
    {w : BitVec 4} {m : M Unit} {c n : Nat} {d0 : Word} (kind : trapKind c n = 0)
    (run : m s.started = .error (.trap c n d0 0, u)) (undone : s.trail u = s) : s.instr e w m = s.trapped c n d0 := by
  rw [State.instr_trap (by simp [held]) e w run undone]
  simp [State.trapped, State.started_thread held, State.thread_of_some held, word, kind, Thread.taddrNow]

theorem setMap_some {s : State} {n cs : Nat} (mapped : s.mapped n = some cs) : setMap n s = .ok (cs, s) := by
  simp only [setMap, M.bind_apply, M.get_apply, mapped, M.pure_apply]

theorem setMap_none {s : State} {n : Nat} (unmapped : s.mapped n = none) :
    setMap n s = .error (.trap 16 1 0 0, s) := by
  simp only [setMap, M.bind_apply, M.get_apply, unmapped, raise_apply]

@[simp] theorem State.trail_taken (s : State) (ss : List Spec) : s.trail (s.taken ss) = s := by
  rw [State.taken_eq, State.trail_modThread]

section
variable (s : State) (ss : List Spec)

@[simp] theorem State.taken_ctx (h : Nat) : (s.taken ss).ctx h = s.ctx h := rfl
@[simp] theorem State.taken_descOf (n : Nat) : (s.taken ss).me.descOf n = s.me.descOf n := by rw [State.taken_me]; rfl
@[simp] theorem State.taken_cueAt (i : Nat) : (s.taken ss).me.cueAt i = s.me.cueAt i := by rw [State.taken_me]; rfl
@[simp] theorem State.taken_cuts : (s.taken ss).me.cuts = s.me.cuts := by rw [State.taken_me]; rfl
@[simp] theorem State.taken_stagedOf (d : CueDesc) : (s.taken ss).me.stagedOf d = s.me.stagedOf d := by
  rw [State.taken_me]; rfl

end

section
variable {s : State} {a : Thread} (held : s.thread? = some a) (ss : List Spec)
include held

/-- Reading the operands leaves the thread's context and set. -/
theorem State.taken_context : (s.taken ss).thread.ctx = s.thread.ctx ∧ (s.taken ss).thread.cset = s.thread.cset := by
  obtain ⟨q, tag, taking⟩ := State.taken_taking held ss
  rw [taking, State.thread_of_some held]
  exact ⟨rfl, rfl⟩

theorem State.taken_mapped (n : Nat) : (s.taken ss).mapped n = s.mapped n := by
  have own (d : Byte) (set : Nat) : (s.taken ss).me.ownSet d set = s.me.ownSet d set := by simp [Core.ownSet]
  have own : (s.taken ss).me.ownSet a.dom = s.me.ownSet a.dom := funext (own a.dom)
  simp only [State.mapped, (State.taken_context held ss).1, State.taken_dom held, State.thread_of_some held, State.taken_ctx,
    own]

theorem State.started_mapped (n : Nat) : s.started.mapped n = s.mapped n := by
  rw [State.started_eq_taken, State.taken_mapped held]

end

/-- The last operand is that of the last source. -/
theorem State.reading_getLastD (s : State) (ss : List Spec) :
    (s.reading ss).1.getLastD 0 = s.operand ss (ss.length - 1) := by
  have length : (s.reading ss).1.length = ss.length := Thread.readSrcs_length ..
  rw [State.operand, arg, ← length, List.getLastD_eq_getLast?, List.getLast?_eq_getElem?, List.getD_eq_getElem?_getD]

/-! ### CUEW (R144, R145) -/

/-- The sources of a CUEW: value, mask and action of the image, and the index; the index alone where it disables. -/
def cuewSources (x : FmtS) : List Spec :=
  if x.op.getLsbD 6 then [x.b] else if x.a = 0 then [0, 0, 0, 0, x.b] else [x.a, x.a + 1, x.a + 2, x.a + 3, x.b]

theorem cuewSources_eq (x : FmtS) : cuewSources x =
    if x.op.getLsbD 6 then [x.b] else if x.a = 0 then [0, 0, 0, 0, x.b] else [x.a, x.a + 1, x.a + 2, x.a + 3, x.b] := rfl

/-- The index of the entry that a CUEW names in its set. -/
def State.cuewIndex (s : State) (x : FmtS) : Nat := (s.operand (cuewSources x) (if x.op.getLsbD 6 then 0 else 4)).toNat

/-- The action that a CUEW gives. -/
def State.cuewAction (s : State) (x : FmtS) : BitVec 128 := s.operand (cuewSources x) 3 ++ s.operand (cuewSources x) 2

theorem cuewSources_index (s : State) (x : FmtS) : ((s.reading (cuewSources x)).1.getLastD 0).toNat = s.cuewIndex x := by
  have last : (cuewSources x).length - 1 = if x.op.getLsbD 6 then 0 else 4 := by
    unfold cuewSources
    split
    · rfl
    · split <;> rfl
  rw [State.reading_getLastD, last, State.cuewIndex]

theorem concat_words (v w : Word) : v.setWidth 128 <<< 64 ||| w.setWidth 128 = v ++ w := by
  have fits (u : Word) : u.toNat < 2 ^ 128 := u.isLt.trans (by decide)
  have high : v.toNat <<< 64 < 2 ^ 128 := by
    rw [Nat.shiftLeft_eq]
    have := v.isLt
    omega
  apply BitVec.eq_of_toNat_eq
  rw [BitVec.toNat_or, BitVec.toNat_shiftLeft, BitVec.toNat_setWidth, BitVec.toNat_setWidth, BitVec.toNat_append,
    Nat.mod_eq_of_lt (fits v), Nat.mod_eq_of_lt (fits w), Nat.mod_eq_of_lt high]

/-- A change of the entry at `c` of the cue table (R145). -/
def State.changeCue (u : State) (c : Nat) (f : CueEnt → CueEnt) : State := u.modMe fun k => k.putCue c (f (k.cueAt c))

theorem State.changeCue_cueAt (u : State) (c : Nat) (f : CueEnt → CueEnt) (j : Nat) :
    (u.changeCue c f).me.cueAt j = if j = c then f (u.me.cueAt c) else u.me.cueAt j := by
  rw [State.changeCue, State.me_modMe]
  split
  next here => subst here; simp [Core.putCue, Core.cueAt]
  next other => simp [Core.putCue, Core.cueAt, Tab.get_set_ne _ _ _ _ _ other]

/-- A CUEW changes the entry that it names and no other. -/
theorem State.staged_cueAt (s : State) (x : FmtS) (c : Nat) (f : CueEnt → CueEnt) :
    let t := ((s.taken (cuewSources x)).changeCue c f).modThread (·.advance x.e x.w)
    t.me.cueAt c = f (s.me.cueAt c) ∧ ∀ j, j ≠ c → t.me.cueAt j = s.me.cueAt j := by
  have entry (j : Nat) : (((s.taken (cuewSources x)).changeCue c f).modThread (·.advance x.e x.w)).me.cueAt j =
      if j = c then f (s.me.cueAt c) else s.me.cueAt j := by
    rw [State.me_modThread, ← s.taken_cueAt (cuewSources x) c, ← s.taken_cueAt (cuewSources x) j, ← State.changeCue_cueAt]
    rfl
  exact ⟨(entry c).trans (if_pos rfl), fun j other => (entry j).trans (if_neg other)⟩

/-- The entry with its disabling staged. -/
def CueEnt.disabling (e : CueEnt) : CueEnt := { e with sdis := true, staged := true, taken := false }

/-- The entry with an image staged in its shadow. -/
def CueEnt.staging (img : CueImg) (e : CueEnt) : CueEnt :=
  { e with shadow := img, sdis := false, staged := true, taken := false, wrote := true }

/-- The image that a CUEW stages: its sets are the core's (R120, R145). -/
def State.cuewImage (s : State) (x : FmtS) : CueImg :=
  ⟨s.operand (cuewSources x) 0, s.operand (cuewSources x) 1, mapSets (s.cuewAction x) fun o => (s.mapped o).getD 0⟩

section
variable {x : FmtS} {s : State} {a : Thread} (held : s.thread? = some a)
include held

/-! A set that the map does not hold, and an index that the set does not have (R150). -/

section
variable (word : a.atLookup = false)
include word

theorem exec_cuew_unmapped (unmapped : s.mapped (fld x.op 0 6) = none) (read : s.canRead (cuewSources x)) :
    exec (.cuew x) s = s.trapped 16 1 := by
  have none' : (s.taken (cuewSources x)).mapped (cueSet x) = none := (State.taken_mapped held ..).trans unmapped
  refine State.instr_trapped held word rfl ?_ (s.trail_taken (cuewSources x))
  simp only [← cuewSources_eq, M.bind_apply, srcs_started read, setMap_none none']

theorem exec_cuew_beyond {cs : Nat} (mapped : s.mapped (fld x.op 0 6) = some cs) (read : s.canRead (cuewSources x))
    (beyond : (s.me.descOf cs).count ≤ s.cuewIndex x) : exec (.cuew x) s = s.trapped 16 2 := by
  have set : (s.taken (cuewSources x)).mapped (cueSet x) = some cs := (State.taken_mapped held ..).trans mapped
  refine State.instr_trapped held word rfl ?_ (s.trail_taken (cuewSources x))
  simp only [← cuewSources_eq, M.bind_apply, srcs_started read, setMap_some set, core_apply, State.taken_descOf,
    cuewSources_index, need_apply, not_lt.mpr beyond, decide_false, Bool.false_eq_true, if_false]

theorem exec_cuecut_unmapped (unmapped : s.mapped (fld x.op 0 6) = none) (full : s.canWrite x.d) :
    exec (.cuecut x) s = s.trapped 16 1 := by
  have none' : s.started.mapped (cueSet x) = none := (State.started_mapped held _).trans unmapped
  refine State.instr_trapped held word rfl ?_ s.trail_started
  simp only [M.bind_apply, waitDst_ok full, setMap_none none']

theorem exec_cuesel_unmapped (unmapped : s.mapped (fld x.op 0 6) = none) (full : s.canWrite x.d)
    (named : x.op.getLsbD 6 = false) : exec (.cuesel x) s = s.trapped 16 1 := by
  have none' : s.started.mapped (cueSet x) = none := (State.started_mapped held _).trans unmapped
  refine State.instr_trapped held word rfl ?_ s.trail_started
  simp only [M.bind_apply, waitDst_ok full, named, Bool.false_eq_true, if_false, M.pure_apply, setMap_none none']

end

/-! An entry of a set that the map holds (R145). -/

section
variable {cs : Nat} (mapped : s.mapped (fld x.op 0 6) = some cs) (read : s.canRead (cuewSources x))
  (inside : s.cuewIndex x < (s.me.descOf cs).count)
include mapped read inside

theorem exec_cuew_disables (dis : x.op.getLsbD 6 = true) :
    exec (.cuew x) s = ((s.taken (cuewSources x)).changeCue ((s.me.descOf cs).base + s.cuewIndex x)
      CueEnt.disabling).goesOn x.e x.w := by
  have set : (s.taken (cuewSources x)).mapped (cueSet x) = some cs := (State.taken_mapped held ..).trans mapped
  refine State.instr_ok read.1 x.e x.w ?_
  simp only [← cuewSources_eq, M.bind_apply, srcs_started read, setMap_some set, core_apply, State.taken_descOf,
    cuewSources_index, need_apply, inside, decide_true, if_true]
  simp only [dis, if_true]
  rfl

theorem exec_cuew_stages (stages : x.op.getLsbD 6 = false) (legal : (decodeCue (s.cuewAction x)).isSome = true)
    (next : usesNset (fld (s.cuewAction x) 28 4) = true → (s.mapped (fld (s.cuewAction x) 56 8)).isSome = true)
    (return_ : usesRset (fld (s.cuewAction x) 28 4) = true → (s.mapped (fld (s.cuewAction x) 48 8)).isSome = true) :
    exec (.cuew x) s = ((s.taken (cuewSources x)).changeCue ((s.me.descOf cs).base + s.cuewIndex x)
      (CueEnt.staging (s.cuewImage x))).goesOn x.e x.w := by
  have set : (s.taken (cuewSources x)).mapped (cueSet x) = some cs := (State.taken_mapped held ..).trans mapped
  have action : arg (s.reading (cuewSources x)).1 3 ++ arg (s.reading (cuewSources x)).1 2 = s.cuewAction x := rfl
  have mapped' := State.taken_mapped held (cuewSources x)
  have known {used : Bool} {o : Option Nat} (h : used = true → o.isSome = true) : (!used || o.isSome) = true := by
    cases used
    · rfl
    · exact h rfl
  refine State.instr_ok read.1 x.e x.w ?_
  simp only [← cuewSources_eq, M.bind_apply, srcs_started read, setMap_some set, core_apply, State.taken_descOf,
    cuewSources_index, need_apply, inside, decide_true, if_true]
  simp only [stages, Bool.false_eq_true, if_false, M.bind_apply, need_apply, concat_words, action, legal, M.get_apply, mapped',
    known next, known return_, if_true]
  rfl

end

end

/-! ### CUECUT (R146) -/

/-- The core after a CUECUT: the cut waits for the end of the turn, and its changes are taken up (R139). -/
def Core.cutting (k : Core) (c : Cut) : Core :=
  { k with
    cuts := k.cuts ++ [c]
    cue := c.changes.foldl (fun t ch => Tab.set {} t ch.1 { Tab.get {} t ch.1 with taken := true }) k.cue }

/-- The events of code `code` are counted for the issuing slot. -/
def State.tallied (s : State) (code n : Nat) : State :=
  s.modMe fun k => k.count code (some k.turnSlot) s.thread.dom.toNat n

theorem tally_tallied (code n : Nat) (u : State) : tally code n u = .ok ((), u.tallied code n) := rfl

theorem State.tallied_kept (u : State) (code n : Nat) :
    (u.tallied code n).thread? = u.thread? ∧ (u.tallied code n).me.cue = u.me.cue
      ∧ (u.tallied code n).me.cuts = u.me.cuts := by
  refine ⟨State.thread?_modMe_same (Core.count_slots ..) (Core.count_cycle ..), ?_, ?_⟩
  · rw [State.tallied, State.me_modMe, Core.count_cue]
  · rw [State.tallied, State.me_modMe, Core.count_cuts]

/-- A cut alters no live entry. -/
theorem Core.cutting_live (k : Core) (c : Cut) (j : Nat) : ((k.cutting c).cueAt j).live = (k.cueAt j).live := by
  have takes (changes : List (Nat × Option CueImg)) (t : Tab CueEnt) :
      (Tab.get {} (changes.foldl (fun t ch => Tab.set {} t ch.1 { Tab.get {} t ch.1 with taken := true }) t) j).live =
        (Tab.get {} t j).live := by
    induction changes generalizing t with
    | nil => rfl
    | cons ch r ih =>
      rw [List.foldl_cons, ih]
      by_cases here : j = ch.1
      · subst here
        rw [Tab.get_set_same]
      · rw [Tab.get_set_ne _ _ _ _ _ here]
  exact takes c.changes k.cue

/-- The cut that a CUECUT of set `cs` orders. -/
def State.cutOf (s : State) (cs : Nat) : Cut := ⟨cs, s.me.stagedOf (s.me.descOf cs)⟩

/-- The state in which a CUECUT writes the cut number. -/
def State.cutOrdered (s : State) (cs : Nat) : State := (s.started.modMe (·.cutting (s.cutOf cs))).tallied 9 1

theorem State.cutOrdered_kept (s : State) (cs : Nat) :
    (s.cutOrdered cs).me.cuts = s.me.cuts ++ [s.cutOf cs]
      ∧ (∀ j, ((s.cutOrdered cs).me.cueAt j).live = (s.me.cueAt j).live)
      ∧ (s.cutOrdered cs).thread? = s.started.thread? ∧ (s.cutOrdered cs).mem = s.mem := by
  obtain ⟨thread, cue, cuts⟩ := (s.started.modMe (·.cutting (s.cutOf cs))).tallied_kept 9 1
  have entries := s.taken_cueAt []
  have before := s.taken_cuts []
  rw [State.taken_nil] at entries before
  refine ⟨?_, fun j => ?_, thread.trans (State.thread?_modMe_same rfl rfl), rfl⟩
  · rw [State.cutOrdered, cuts, State.me_modMe, Core.cutting, before]
  · rw [State.cutOrdered, Core.cueAt, cue, State.me_modMe, ← Core.cueAt, Core.cutting_live, entries]

theorem exec_cuecut {x : FmtS} {s : State} {a : Thread} {cs : Nat} (held : s.thread? = some a)
    (mapped : s.mapped (fld x.op 0 6) = some cs) (full : s.canWrite x.d) :
    exec (.cuecut x) s = ((s.cutOrdered cs).write x.d
      (((s.me.descOf cs).cut + BitVec.ofNat 16 ((s.me.cuts.filter (·.set == cs)).length + 1)).setWidth 64)).goesOn
        x.e x.w := by
  have set : s.started.mapped (cueSet x) = some cs := (State.started_mapped held _).trans mapped
  have desc := s.taken_descOf [] cs
  have cuts := s.taken_cuts []
  have staged := s.taken_stagedOf []
  rw [State.taken_nil] at desc cuts staged
  refine State.instr_ok (by simp [held]) x.e x.w ?_
  simp only [M.bind_apply, waitDst_ok full, setMap_some set, core_apply, modMe_apply, desc, cuts, staged, tally_tallied,
    write_apply]
  rfl

/-! ### CUERD and CUESEL (R148, R149) -/

/-- The sources of a CUERD: the index, where its item is one of an entry. -/
def cuerdSources (x : FmtS) : List Spec := if 1 ≤ x.item ∧ x.item ≤ 5 then [x.b] else []

theorem cuerdSources_eq (x : FmtS) : cuerdSources x = if 1 ≤ x.item ∧ x.item ≤ 5 then [x.b] else [] := rfl

/-- What a CUERD of set `cs` reads (R148). -/
def State.cueItem (s : State) (x : FmtS) (cs : Nat) : Word :=
  let dsc := s.me.descOf cs
  let e := s.me.cueAt (dsc.base + (s.operand (cuerdSources x) 0).toNat)
  let sh := x.op.getLsbD 9
  let img := if sh then e.shadow else e.live
  let act := if sh = true ∧ e.wrote = false then 0 else mapSets img.action (s.ctx s.thread.ctx).objSet
  match x.item with
  | 0 => dsc.cut.setWidth 64
  | 1 => img.value
  | 2 => img.mask
  | 3 => act.extractLsb' 0 64
  | 4 => act.extractLsb' 64 64
  | 5 => word ((if e.valid then 1 else 0) + (if e.staged then 2 else 0) + if e.sdis then 4 else 0)
  | _ => word (dsc.count ||| dsc.selreg <<< 16 ||| dsc.sello <<< 24 ||| cs <<< 32)

section
variable {x : FmtS} {s : State} {a : Thread} (held : s.thread? = some a)
include held

theorem exec_cuerd {cs : Nat} (mapped : s.mapped (fld x.op 0 6) = some cs) (read : s.canRead (cuerdSources x))
    (full : s.canWrite x.d)
    (inside : 1 ≤ x.item → x.item ≤ 5 → (s.operand (cuerdSources x) 0).toNat < (s.me.descOf cs).count) :
    exec (.cuerd x) s = s.scalarResult (cuerdSources x) x.d x.e x.w (s.cueItem x cs) := by
  have set : (s.taken (cuerdSources x)).mapped (cueSet x) = some cs := (State.taken_mapped held ..).trans mapped
  have operand : arg (s.reading (cuerdSources x)).1 0 = s.operand (cuerdSources x) 0 := rfl
  have checked (rest : M Unit) (u : State) : (if 1 ≤ x.item ∧ x.item ≤ 5 then
      need (decide ((s.operand (cuerdSources x) 0).toNat < (s.me.descOf cs).count)) 16 2 >>= fun _ => rest else rest) u =
        rest u := by
    split
    next indexed => simp only [M.bind_apply, need_apply, inside indexed.1 indexed.2, decide_true, if_true]
    next => rfl
  refine State.instr_ok read.1 x.e x.w ?_
  simp only [← cuerdSources_eq, M.bind_apply, waitDst_ok full, srcs_started read, setMap_some set, core_apply,
    State.taken_descOf, State.taken_cueAt, operand, checked]
  simp only [M.get_apply, thread_apply, write_apply, State.taken_ctx, (State.taken_context held _).1,
    Bool.and_eq_true, Bool.not_eq_true']
  rfl

theorem exec_cuesel_named {cs : Nat} (mapped : s.mapped (fld x.op 0 6) = some cs) (full : s.canWrite x.d)
    (named : x.op.getLsbD 6 = false) :
    exec (.cuesel x) s = ((s.started.write x.d (word ((s.ctx s.thread.ctx).objSet s.thread.cset))).modThread
      fun t => { t with cset := cs }).goesOn x.e x.w := by
  have set : s.started.mapped (cueSet x) = some cs := (State.started_mapped held _).trans mapped
  have context := State.taken_context held []
  have ctx := s.taken_ctx []
  rw [State.taken_nil] at context ctx
  refine State.instr_ok (by simp [held]) x.e x.w ?_
  simp only [M.bind_apply, waitDst_ok full, named, Bool.false_eq_true, if_false, M.pure_apply, setMap_some set, M.get_apply,
    thread_apply, ctx, context, write_apply, modThread_apply]

theorem exec_cuesel_register {cs : Nat} (full : s.canWrite x.d) (read : s.canRead [x.a]) (register : x.op.getLsbD 6 = true)
    (mapped : s.mapped (fld (s.operand [x.a] 0) 0 6) = some cs) :
    exec (.cuesel x) s = (((s.taken [x.a]).write x.d (word ((s.ctx s.thread.ctx).objSet s.thread.cset))).modThread
      fun t => { t with cset := cs }).goesOn x.e x.w := by
  have set : (s.taken [x.a]).mapped (fld (s.operand [x.a] 0) 0 6) = some cs := (State.taken_mapped held ..).trans mapped
  refine State.instr_ok read.1 x.e x.w ?_
  simp only [M.bind_apply, waitDst_ok full, register, if_true, src_taken read, M.pure_apply, setMap_some set, M.get_apply,
    thread_apply, State.taken_ctx, State.taken_context held [x.a], write_apply, modThread_apply]

end

/-- Settles O40: a set that the map does not hold traps (`exec_cuew_unmapped` and its kin), and in a set that it holds each
instruction has the effect of its own lemma. -/
theorem cueInstructions : Obligations.CueInstructions := by
  unfold Obligations.CueInstructions
  refine ⟨fun x s a held word => ⟨fun unmapped => ⟨exec_cuew_unmapped held word unmapped,
    exec_cuecut_unmapped held word unmapped, exec_cuesel_unmapped held word unmapped⟩,
    fun cs mapped => exec_cuew_beyond held word mapped⟩,
    fun x s cs mapped => ⟨?_, ?_, ?_, ?_, ?_⟩⟩
  case refine_1 =>
    intro dis ss i act e read inside legal
    obtain ⟨a, held⟩ := Option.isSome_iff_exists.mp read.1
    cases dis_eq : x.op.getLsbD 6 with
    | true =>
      obtain ⟨here, others⟩ := s.staged_cueAt x ((s.me.descOf cs).base + i) CueEnt.disabling
      exact ⟨_, _, exec_cuew_disables held mapped read inside dis_eq, here, rfl, rfl, rfl, dis_eq.symm, fun _ => rfl,
        fun off => absurd (dis_eq.symm.trans off) (by decide), others⟩
    | false =>
      obtain ⟨here, others⟩ := s.staged_cueAt x ((s.me.descOf cs).base + i) (CueEnt.staging (s.cuewImage x))
      obtain ⟨known, next, return_⟩ := legal dis_eq
      exact ⟨_, _, exec_cuew_stages held mapped read inside dis_eq known next return_, here, rfl, rfl, rfl, dis_eq.symm,
        fun on => absurd (dis_eq.symm.trans on) (by decide), fun _ => rfl, others⟩
  case refine_2 =>
    intro read full n
    obtain ⟨a, held⟩ := Option.isSome_iff_exists.mp read.1
    obtain ⟨cuts, live, thread, mem⟩ := s.cutOrdered_kept cs
    exact ⟨s.cutOrdered cs, cuts, live, thread, mem, exec_cuecut held mapped full⟩
  case refine_3 =>
    intro ss i e sh img act read full inside
    obtain ⟨a, held⟩ := Option.isSome_iff_exists.mp read.1
    exact exec_cuerd held mapped read full inside
  case refine_4 =>
    intro named read full
    obtain ⟨a, held⟩ := Option.isSome_iff_exists.mp read.1
    exact exec_cuesel_named held mapped full named
  case refine_5 =>
    intro register read full cn selected
    obtain ⟨a, held⟩ := Option.isSome_iff_exists.mp read.1
    exact exec_cuesel_register held full read register selected

end Sys2Proof.Machine
end

section
/-! SUPPORT. What an instruction of class 3 reads, and when its result is that of the statements (R107, R108, R171, R174,
R175). -/

namespace Sys2Proof.Machine

/-! ### Lanes -/

theorem lane_ofLanes (l : List (BitVec 32)) {i : Nat} (h : i < 64) : lane (ofLanes l) i = l.getD i 0 := by
  induction l generalizing i with
  | nil => simp [ofLanes, lane]
  | cons first r ih =>
    have step : ofLanes (first :: r) = ofLanes r <<< 32 ||| first.setWidth 2048 := rfl
    refine BitVec.eq_of_getLsbD_eq fun j lt => ?_
    have inside : 32 * i + j < 2048 := by omega
    simp only [lane, step, BitVec.getLsbD_extractLsb', BitVec.getLsbD_or, BitVec.getLsbD_shiftLeft, BitVec.getLsbD_setWidth,
      lt, inside, decide_true, Bool.true_and]
    cases i with
    | zero => simp [lt]
    | succ i =>
      have prev := congrArg (·.getLsbD j) (ih (i := i) (by omega))
      simp only [lane, BitVec.getLsbD_extractLsb', lt, decide_true, Bool.true_and] at prev
      have back : 32 * (i + 1) + j - 32 = 32 * i + j := by omega
      rw [back, prev, BitVec.getLsbD_of_ge first _ (by omega), decide_eq_false (by omega)]
      simp

/-- A lane of the register whose lanes a function gives. -/
theorem lane_ofLanes_map (f : Nat → BitVec 32) {i : Nat} (h : i < 64) : lane (ofLanes ((List.range 64).map f)) i = f i := by
  simp [lane_ofLanes _ h, h]

theorem lane_blend (old new keep : BitVec 2048) {i : Nat} (h : i < 64) :
    lane (blend old new keep) i = (lane old i &&& ~~~lane keep i) ||| (lane new i &&& lane keep i) := by
  refine BitVec.eq_of_getLsbD_eq fun j lt => ?_
  have inside : 32 * i + j < 2048 := by omega
  simp [lane, blend, lt, inside]

theorem lane_blend_kept (old new : BitVec 2048) {keep : BitVec 2048} {i : Nat} (h : i < 64) (zero : lane keep i = 0#32) :
    lane (blend old new keep) i = lane old i := by
  rw [lane_blend _ _ _ h, zero, BitVec.not_zero, BitVec.and_allOnes, BitVec.and_zero, BitVec.or_zero]

theorem lane_blend_written (old new : BitVec 2048) {keep : BitVec 2048} {i : Nat} (h : i < 64)
    (ones : lane keep i = BitVec.allOnes 32) : lane (blend old new keep) i = lane new i := by
  rw [lane_blend _ _ _ h, ones, BitVec.not_allOnes, BitVec.and_zero, BitVec.zero_or, BitVec.and_allOnes]

theorem lane_allOnes {i : Nat} (h : i < 64) : lane (BitVec.allOnes 2048) i = BitVec.allOnes 32 := by
  refine BitVec.eq_of_getLsbD_eq fun j lt => ?_
  rw [lane, BitVec.getLsbD_extractLsb', BitVec.getLsbD_allOnes, BitVec.getLsbD_allOnes, decide_eq_true (show 32 * i + j < 2048 by omega),
    Bool.and_true]

/-! ### The thread while the instruction is at work -/

/-- What the effect of a class 3 instruction finds unchanged at each of its steps up to its result: the turn, and of the
thread its vector state, its configuration and its number. -/
structure State.Keeps3 (s u : State) : Prop where
  turn : u.me.turn = s.me.turn
  v : u.thread.v = s.thread.v
  m : u.thread.m = s.thread.m
  cfg : u.thread.cfg = s.thread.cfg
  pend : u.thread.pend = s.thread.pend
  tid : u.thread.tid = s.thread.tid

theorem State.Keeps3.trans {s t u : State} (h : s.Keeps3 t) (h' : t.Keeps3 u) : s.Keeps3 u :=
  ⟨h'.turn.trans h.turn, h'.v.trans h.v, h'.m.trans h.m, h'.cfg.trans h.cfg, h'.pend.trans h.pend, h'.tid.trans h.tid⟩

theorem State.Keeps3.mode {s u : State} (h : s.Keeps3 u) (rnd : Nat) : u.thread.mode rnd = s.thread.mode rnd := by
  rw [Thread.mode, h.cfg]; rfl

/-- Reading operands takes messages alone. -/
theorem State.keeps3_taken {s : State} (on : s.thread?.isSome = true) (ss : List Spec) : s.Keeps3 (s.taken ss) := by
  obtain ⟨a, held⟩ := Option.isSome_iff_exists.mp on
  obtain ⟨q, tag, taking⟩ := State.taken_taking held ss
  refine ⟨?_, ?_, ?_, ?_, ?_, ?_⟩
  · rw [Core.turn, State.taken_cycle]; rfl
  all_goals rw [taking, State.thread_of_some held]; rfl

theorem State.keeps3_started {s : State} (on : s.thread?.isSome = true) : s.Keeps3 s.started :=
  s.taken_nil ▸ State.keeps3_taken on []

/-- Draws move the generator alone (R164). -/
theorem State.drawn_thread (s : State) (mode n : Nat) : (s.drawn mode n).2.thread = s.thread := by
  unfold State.drawn
  split
  · simp [State.thread, State.thread?, Core.threadAt, Core.slot, Core.turnSlot]
  · rfl

theorem State.keeps3_drawn (s : State) (mode n : Nat) : s.Keeps3 (s.drawn mode n).2 := by
  have same := s.drawn_thread mode n
  refine ⟨?_, ?_, ?_, ?_, ?_, ?_⟩
  · rw [Core.turn, (VectorOnly.drawn s mode n).me]; rfl
  all_goals rw [same]

/-- Where one of two effects runs, the rest follows. -/
theorem M.choose_run {α β : Type} {c : Prop} [Decidable c] {m n : M α} {f : α → M β} {s t : State} {v : α}
    (run : (if c then m else n) s = .ok (v, t)) : (if c then m >>= f else n >>= f) s = f v t := by
  rw [← apply_ite (· >>= f), M.bind_apply, run]

/-! ### Reading the sources (R108, R171, R174, R175) -/

section
variable {s : State}

/-- A scalar source that is the first to be read. -/
theorem src_read {sp : Spec} (read : s.canRead [sp]) : src sp s.started = .ok (s.operand [sp] 0, s.taken [sp]) := by
  simp only [src, M.bind_apply, srcs_started read]; rfl

theorem modeOf_apply (rnd : Nat) : modeOf rnd s = .ok (s.thread.mode rnd, s) := rfl
theorem draws_apply (mode n : Nat) : draws mode n s = .ok (s.drawn mode n) := rfl

variable (on : s.thread?.isSome = true) {regs : List Nat} (free : s.noPending regs)
include on free

/-- A register with no pending result passes its check. -/
theorem checkPend_free {r : Nat} (listed : r ∈ regs) : checkPend r s.started = .ok ((), s.started) := by
  have kept := State.keeps3_started on
  have passes : (s.started.thread.cfg.getLsbD 0 && s.started.thread.pend.any fun p => p.reg == r) = false := by
    rw [kept.cfg, kept.pend, Bool.and_eq_false_iff]
    refine free.imp_right fun none_ => List.any_eq_false.mpr fun p member same => none_ p member ?_
    rwa [beq_iff_eq.mp same]
  simp only [checkPend, M.bind_apply, thread_apply, need_apply, passes]
  rfl

theorem readV_free {r : Spec} (listed : r.toNat ∈ regs) : readV r s.started = .ok (s.vreg r.toNat, s.started) := by
  simp only [readV, M.bind_apply, checkPend_free on free listed, thread_apply, M.pure_apply, (State.keeps3_started on).v]
  rfl

theorem readM_free {r : Nat} (listed : 16 + r ∈ regs) : readM r s.started = .ok (s.mreg r, s.started) := by
  simp only [readM, M.bind_apply, checkPend_free on free listed, thread_apply, M.pure_apply, (State.keeps3_started on).m]
  rfl

omit on free in
/-- The enabling mask, as a class 3 instruction reads it. -/
def State.enabling (s : State) (x : FmtV) : BitVec 64 := if x.me then s.mreg x.mask.toNat else BitVec.allOnes 64

omit on free in
/-- What a class 3 instruction reads together. -/
def State.sources (s : State) (x : FmtV) (useA useB useC : Bool) : VIn where
  a := if useA then s.vreg x.va.toNat else 0
  b := if useB then (if x.sc then ofLanes (List.replicate 64 ((s.operand [x.vb] 0).setWidth 32)) else s.vreg x.vb.toNat) else 0
  c := if useC then s.vreg x.vc.toNat else 0
  m := s.enabling x

theorem maskIn_free {x : FmtV} (listed : ∀ r ∈ maskRegs x, r ∈ regs) :
    maskIn x s.started = .ok (s.enabling x, s.started) := by
  unfold maskIn State.enabling
  split
  next masked => exact readM_free on free (listed _ (by simp [maskRegs, masked]))
  next => rfl

/-- An instruction whose registers have no pending result reads its sources and then, where b is one, its scalar. -/
theorem vin_free {x : FmtV} (useA useB useC : Bool) (dst : Option Nat) (read : useB = true → s.canRead (scalarB x))
    (d : ∀ r ∈ dst, r ∈ regs) (a : useA = true → x.va.toNat ∈ regs) (b : useB = true → x.sc = false → x.vb.toNat ∈ regs)
    (c : useC = true → x.vc.toNat ∈ regs) (m : ∀ r ∈ maskRegs x, r ∈ regs) :
    vin x useA useB useC dst s.started
      = .ok (s.sources x useA useB useC, s.taken (if useB then scalarB x else [])) := by
  have readA : (if useA = true then readV x.va else pure 0) s.started = .ok ((s.sources x useA useB useC).a, s.started) := by
    cases useA with
    | false => rfl
    | true => exact readV_free on free (a rfl)
  have readC : (if useC = true then readV x.vc else pure 0) s.started = .ok ((s.sources x useA useB useC).c, s.started) := by
    cases useC with
    | false => rfl
    | true => exact readV_free on free (c rfl)
  have sources : vin x useA useB useC none s.started
      = .ok (s.sources x useA useB useC, s.taken (if useB then scalarB x else [])) := by
    refine (M.choose_run readA).trans ?_
    cases useB with
    | false =>
      refine (M.choose_run rfl).trans ((M.choose_run readC).trans ?_)
      simp only [M.bind_apply, maskIn_free on free m, Bool.false_and, Bool.false_eq_true, if_false, State.taken_nil]
      rfl
    | true =>
      cases scalar : x.sc with
      | false =>
        have plain : (if (true && !x.sc) = true then readV x.vb else pure 0) s.started = .ok (s.vreg x.vb.toNat, s.started) := by
          simpa [scalar] using readV_free on free (b rfl scalar)
        rw [scalar] at plain
        refine (M.choose_run plain).trans ((M.choose_run readC).trans ?_)
        simp only [M.bind_apply, maskIn_free on free m, scalar, Bool.and_false, Bool.false_eq_true, if_false, if_true, scalarB,
          State.taken_nil, State.sources]
        rfl
      | true =>
        have there : s.canRead [x.vb] := by simpa [scalarB, scalar] using read rfl
        refine (M.choose_run rfl).trans ((M.choose_run readC).trans ?_)
        simp only [M.bind_apply, maskIn_free on free m, scalar, Bool.and_true, if_true, src_read there, scalarB, State.sources]
        rfl
  cases dst with
  | none => exact sources
  | some r => rw [vin_some, M.bind_apply, checkPend_free on free (d r rfl)]; exact sources

end

/-! ### The lanes of the sources -/

section
variable (s : State) (x : FmtV) (useA useB useC : Bool)

@[simp] theorem State.sources_la (i : Nat) : (s.sources x true useB useC).la i = s.laneA x i := rfl

@[simp] theorem State.sources_lc (i : Nat) : (s.sources x useA useB true).lc i = s.laneC x i := rfl

@[simp] theorem State.sources_m : (s.sources x useA useB useC).m = s.enabling x := rfl

theorem State.sources_lb {i : Nat} (h : i < 64) : (s.sources x useA true useC).lb i = s.laneB x i := by
  unfold VIn.lb State.sources State.laneB
  simp only [if_true]
  split
  · rw [lane_ofLanes _ h, List.getD_replicate _ h]
  · rfl

theorem State.enabling_bit {i : Nat} (h : i < 64) : (s.enabling x).getLsbD i = s.laneOn x i := by
  unfold State.enabling State.laneOn
  cases x.me <;> simp [h, -BitVec.reduceAllOnes]

end

/-! ### Results (R107, R174) -/

section
variable {s u : State} {x : FmtV}

/-- The result of a lane-by-lane instruction. -/
def lanesResult (s : State) (x : FmtV) (wmin : Nat) (m : BitVec 64) (f : Nat → BitVec 32) : Pending where
  reg := x.vd.toNat
  due := 8 * (s.me.turn + wmin + 1)
  value := ofLanes ((List.range 64).map f)
  keep := if x.me then laneBits m else BitVec.allOnes 2048

theorem lanesResult_lane (s : State) (x : FmtV) (wmin : Nat) (f : Nat → BitVec 32) (old : BitVec 2048) {i : Nat} (h : i < 64) :
    lane (blend old (lanesResult s x wmin (s.enabling x) f).value (lanesResult s x wmin (s.enabling x) f).keep) i
      = if s.laneOn x i then f i else lane old i := by
  have keep : lane (lanesResult s x wmin (s.enabling x) f).keep i = if s.laneOn x i then BitVec.allOnes 32 else 0 := by
    rw [← s.enabling_bit x h, lanesResult]
    cases masked : x.me with
    | true => exact lane_ofLanes_map _ h
    | false =>
      have all : (s.enabling x).getLsbD i = true := by rw [s.enabling_bit x h]; simp [State.laneOn, masked]
      rw [all]
      exact lane_allOnes h
  split
  next enabled =>
    rw [if_pos enabled] at keep
    rw [lane_blend_written _ _ h keep]
    exact lane_ofLanes_map f h
  next masked =>
    rw [if_neg masked] at keep
    exact lane_blend_kept _ _ h keep

theorem vmap_apply (kept : s.Keeps3 u) (wmin : Nat) (m : BitVec 64) (f : Nat → BitVec 32) :
    vmap x wmin m f u = .ok ((), u.modThread (·.addResult wmin (lanesResult s x wmin m f))) := by
  simp only [vmap, result, M.bind_apply, core_apply, modThread_apply, lanesResult, kept.turn]

/-- An instruction that comes down to a lane-by-lane result has it. -/
theorem State.vectorResult_of_vmap (on : s.thread?.isSome = true) (kept : s.Keeps3 u) {m : M Unit} {wmin : Nat}
    {f g : Nat → BitVec 32} (run : m s.started = vmap x wmin (s.enabling x) f u)
    (same : ∀ i, i < 64 → s.laneOn x i = true → f i = g i) : VectorResult s u x wmin g (s.instr x.e x.w m) := by
  refine ⟨lanesResult s x wmin (s.enabling x) f, rfl, rfl, fun old i h => ?_, ?_⟩
  · rw [lanesResult_lane _ _ _ _ _ h]
    exact ite_congr rfl (same i h) fun _ => rfl
  · exact State.instr_ok on x.e x.w (run.trans (vmap_apply kept ..))

/-- One that rounds each lane draws for each lane first (R163, R164). -/
theorem vmapF_apply (kept : s.Keeps3 u) (ty wmin : Nat) (m : BitVec 64) (f : Nat → FV) :
    vmapF x ty wmin m f u = vmap x wmin m
      (fun i => laneF ty (s.thread.mode x.rnd.toNat) ((u.drawn (s.thread.mode x.rnd.toNat) 64).1.getD i 0) (f i))
      (u.drawn (s.thread.mode x.rnd.toNat) 64).2 := by
  simp only [vmapF, M.bind_apply, modeOf_apply, draws_apply, kept.mode]

/-- So has one that comes down to a rounded result. -/
theorem State.vectorResult_of_vmapF (on : s.thread?.isSome = true) (kept : s.Keeps3 u) {m : M Unit} {ty wmin : Nat}
    {f g : Nat → FV} (run : m s.started = vmapF x ty wmin (s.enabling x) f u) (same : ∀ i, i < 64 → f i = g i) :
    VectorResult s (u.drawn (s.thread.mode x.rnd.toNat) 64).2 x wmin
      (fun i => laneF ty (s.thread.mode x.rnd.toNat) ((u.drawn (s.thread.mode x.rnd.toNat) 64).1.getD i 0) (g i))
      (s.instr x.e x.w m) :=
  State.vectorResult_of_vmap on (kept.trans (u.keeps3_drawn ..)) (run.trans (vmapF_apply kept ..))
    fun i h _ => by rw [same i h]

end

end Sys2Proof.Machine
end

section
/-! Vector arithmetic on floating types (R155, R162, R163, R181 to R185): the theorem that settles O12, and SUPPORT for it. -/

namespace Sys2Proof.Machine

/-! ### Sources of one, two and three registers -/

section
variable {s : State} {x : FmtV}

theorem vin_one (can : s.canV1 x) :
    vin x true false false (some x.vd.toNat) s.started = .ok (s.sources x true false false, s.started) := by
  have run := vin_free can.1 can.2 (x := x) true false false (some x.vd.toNat) (by simp) (by simp) (by simp) (by simp) (by simp)
    fun r mask => by simp [mask]
  simpa using run

theorem vin_two (can : s.canV2 x) :
    vin x true true false (some x.vd.toNat) s.started = .ok (s.sources x true true false, s.taken (scalarB x)) :=
  vin_free can.1.1 can.2 true true false _ (fun _ => can.1) (by simp) (by simp) (fun _ plain => by simp [plain]) (by simp)
    fun r mask => by simp [mask]

/-- Registers of two lists without pending results. -/
theorem State.noPending.append {regs more : List Nat} (h : s.noPending regs) (h' : s.noPending more) :
    s.noPending (regs ++ more) := by
  rcases h with off | free
  · exact .inl off
  · refine h'.imp_right fun free' p member listed => ?_
    exact (List.mem_append.mp listed).elim (free p member) (free' p member)

theorem vin_three (can : s.canV2 x) (freeC : s.noPending [x.vc.toNat]) :
    vin x true true true (some x.vd.toNat) s.started = .ok (s.sources x true true true, s.taken (scalarB x)) :=
  vin_free can.1.1 (can.2.append freeC) true true true _ (fun _ => can.1) (by simp) (by simp) (fun _ plain => by simp [plain])
    (by simp) fun r mask => by simp [mask]

/-! ### Shapes of instructions -/

/-- One source, a lane at a time. -/
theorem vectorResult_one (can : s.canV1 x) {m : M Unit} {k : VIn → M Unit} {wmin : Nat} {f : Nat → BitVec 32}
    (shape : m = vin x true false false (some x.vd.toNat) >>= k)
    (rest : k (s.sources x true false false) s.started = vmap x wmin (s.enabling x) f s.started) :
    VectorResult s s.started x wmin f (s.instr x.e x.w m) :=
  State.vectorResult_of_vmap can.1 (State.keeps3_started can.1) (by rw [shape, M.bind_apply, vin_one can]; exact rest)
    fun _ _ _ => rfl

/-- One source, rounded. -/
theorem roundedResult_one (can : s.canV1 x) {ty wmin : Nat} (f : BitVec 32 → FV) :
    VectorResult s (s.started.drawn (s.thread.mode x.rnd.toNat) 64).2 x wmin
      (fun i => laneF ty (s.thread.mode x.rnd.toNat) ((s.started.drawn (s.thread.mode x.rnd.toNat) 64).1.getD i 0)
        (f (s.laneA x i)))
      (s.instr x.e x.w (vin x true false false (some x.vd.toNat) >>= fun v => vmapF x ty wmin v.m fun i => f (v.la i))) :=
  State.vectorResult_of_vmapF can.1 (State.keeps3_started can.1) (by rw [M.bind_apply, vin_one can]; rfl) fun _ _ => rfl

/-- Two sources, rounded. -/
theorem roundedResult_two (can : s.canV2 x) {ty wmin : Nat} (f : BitVec 32 → BitVec 32 → FV) :
    VectorResult s ((s.taken (scalarB x)).drawn (s.thread.mode x.rnd.toNat) 64).2 x wmin
      (fun i => laneF ty (s.thread.mode x.rnd.toNat)
        (((s.taken (scalarB x)).drawn (s.thread.mode x.rnd.toNat) 64).1.getD i 0) (f (s.laneA x i) (s.laneB x i)))
      (s.instr x.e x.w (vin x true true false (some x.vd.toNat) >>= fun v =>
        vmapF x ty wmin v.m fun i => f (v.la i) (v.lb i))) :=
  State.vectorResult_of_vmapF can.1.1 (State.keeps3_taken can.1.1 _) (by rw [M.bind_apply, vin_two can]; rfl)
    fun i h => by rw [s.sources_lb x true false h]; rfl

/-- Three sources, rounded once. -/
theorem roundedResult_three (can : s.canV2 x) (freeC : s.noPending [x.vc.toNat]) (f : FV → FV → FV → FV) :
    VectorResult s ((s.taken (scalarB x)).drawn (s.thread.mode x.rnd.toNat) 64).2 x 2
      (fun i => laneF x.ty.toNat (s.thread.mode x.rnd.toNat)
        (((s.taken (scalarB x)).drawn (s.thread.mode x.rnd.toNat) 64).1.getD i 0)
        (f (elemF x.ty.toNat (s.laneA x i)) (elemF x.ty.toNat (s.laneB x i)) (elemF x.ty.toNat (s.laneC x i))))
      (s.instr x.e x.w (vfused x f)) :=
  State.vectorResult_of_vmapF can.1.1 (State.keeps3_taken can.1.1 _)
    (by rw [vfused, M.bind_apply, vin_three can freeC]; rfl) fun i h => by rw [s.sources_lb x true true h]; rfl

/-- VADD, VSUB and VMUL on a floating type. -/
theorem varith_float (can : s.canV2 x) (float : x.ty.toNat < 3) (f : FV → FV → FV) (g : Int → Int → Int) :
    VectorResult s ((s.taken (scalarB x)).drawn (s.thread.mode x.rnd.toNat) 64).2 x 1
      (fun i => laneF x.ty.toNat (s.thread.mode x.rnd.toNat)
        (((s.taken (scalarB x)).drawn (s.thread.mode x.rnd.toNat) 64).1.getD i 0)
        (f (elemF x.ty.toNat (s.laneA x i)) (elemF x.ty.toNat (s.laneB x i))))
      (s.instr x.e x.w (varith x f g)) := by
  have isFloat : isF x.ty.toNat = true := decide_eq_true float
  simp only [varith, isFloat, if_true]
  exact roundedResult_two can fun a b => f (elemF _ a) (elemF _ b)

/-- VRSQ to VTANH on f32: the approximation is the result. -/
theorem vapprox_f32 (can : s.canV1 x) (single : x.ty.toNat = 0) (op : Nat) :
    VectorResult s s.started x 3 (fun i => approx op (s.laneA x i)) (s.instr x.e x.w (vapprox x op)) := by
  simp only [vapprox, single, if_true]
  exact vectorResult_one can rfl rfl

/-- On a narrower type the approximation is rounded. -/
theorem vapprox_narrow (can : s.canV1 x) (narrow : x.ty.toNat ≠ 0) (op : Nat) :
    VectorResult s (s.started.drawn (s.thread.mode x.rnd.toNat) 64).2 x 3
      (fun i => laneF x.ty.toNat (s.thread.mode x.rnd.toNat) ((s.started.drawn (s.thread.mode x.rnd.toNat) 64).1.getD i 0)
        (f32 (approx op (toF32 0 0 (elemF x.ty.toNat (s.laneA x i))))))
      (s.instr x.e x.w (vapprox x op)) := by
  simp only [vapprox, narrow, if_false]
  exact roundedResult_one can fun a => f32 (approx op (toF32 0 0 (elemF x.ty.toNat a)))

theorem vapprox_completes (can : s.canV1 x) (op : Nat) : ∃ f : Nat → BitVec 32,
    VectorResult s (if x.ty.toNat = 0 then s.started else (s.started.drawn (s.thread.mode x.rnd.toNat) 64).2) x 3 f
      (s.instr x.e x.w (vapprox x op)) := by
  split
  next single => exact ⟨_, vapprox_f32 can single op⟩
  next narrow => exact ⟨_, vapprox_narrow can narrow op⟩

end

/-! ### Rounding -/

/-- A format of the machine has a significand and an exponent of two bits or more. -/
theorem fmtOf_wide (ty : Nat) : 2 ≤ (fmtOf ty).p ∧ 2 ≤ (fmtOf ty).e := by
  unfold fmtOf
  split
  · decide
  · split <;> decide

/-- Settles O12: the rounding by `roundMag_rounds`, each instruction by the shape of its sources. -/
theorem vectorFloatArithmetic : Obligations.VectorFloatArithmetic := by
  unfold Obligations.VectorFloatArithmetic
  refine ⟨fun ty md r neg n d _ mode draw pos => ⟨rfl, rfl, _, rfl, ?_⟩, fun x s float => ⟨fun can => ?_, fun can => ?_⟩⟩
  · obtain ⟨p, e⟩ := fmtOf_wide ty
    exact roundMag_rounds _ md r n d p e mode draw pos
  · refine ⟨varith_float can float .., varith_float can float .., varith_float can float ..,
      roundedResult_two can fun a b => (elemF _ a).div (elemF _ b), fun freeC => ?_⟩
    exact ⟨roundedResult_three can freeC fun a b c => (a.mul b).add c, roundedResult_three can freeC fun a b c => (a.mul b).sub c,
      roundedResult_three can freeC fun a b c => (a.mul b).neg.add c⟩
  · refine ⟨roundedResult_one can fun a => (elemF _ a).sqrt, fun i listed => ?_⟩
    simp only [List.mem_cons, List.not_mem_nil, or_false] at listed
    rcases listed with rfl | rfl | rfl | rfl | rfl
    · exact vapprox_completes can 0
    · exact vapprox_completes can 1
    · exact vapprox_completes can 2
    · exact vapprox_completes can 3
    · exact vapprox_completes can 4

end Sys2Proof.Machine
end

section
/-! SUPPORT. The order of numbers in scans, reductions and selections (R168, R181, R195 to R197): −0 lies below +0, the
infinities at the ends, and what a running extremum comes to. -/

namespace Sys2Proof.Machine

/-! ### Floating values in order -/

/-- A finite value has a positive denominator. -/
def FV.Proper : FV → Prop
  | .fin _ _ d => 0 < d
  | _ => True

theorem dyadic_proper (neg : Bool) (n : Nat) (k : Int) : (dyadic neg n k).Proper := by
  unfold dyadic
  split
  · exact Nat.one_pos
  · exact Nat.two_pow_pos _

theorem ofBits_proper (f : Fmt) (b : Nat) : (FV.ofBits f b).Proper := by
  simp only [FV.ofBits]
  split
  · split <;> trivial
  · split <;> exact dyadic_proper ..

theorem elemF_proper (ty : Nat) (a : BitVec 32) : (elemF ty a).Proper := ofBits_proper ..

theorem FV.Proper.abs {a : FV} (h : a.Proper) : a.abs.Proper := by cases a <;> exact h

/-- A floating value that is a number. -/
def FV.Number (a : FV) : Prop := a.Proper ∧ a.isNan = false

theorem FV.Number.abs {a : FV} (h : a.Number) : a.abs.Number := ⟨h.1.abs, by cases a <;> simp_all [FV.Number, FV.abs, FV.isNan]⟩

/-- Where a value stands: the infinities by their sign, finite values by their value, and −0 before +0. -/
def FV.rank : FV → ℤ ×ₗ ℚ ×ₗ ℕ
  | .nan => toLex (2, toLex (0, 0))
  | .inf s => toLex (if s then -1 else 1, toLex (0, 0))
  | .fin s n d => toLex (0, toLex ((FV.fin s n d).rat, if s then 0 else 1))

theorem FV.fin_lt_iff {s t : Bool} {n d m e : Nat} (hd : 0 < d) (he : 0 < e) :
    (FV.fin s n d).lt (.fin t m e) = decide ((FV.fin s n d).rat < (FV.fin t m e).rat) := by
  have D : (0 : ℚ) < d := by exact_mod_cast hd
  have E : (0 : ℚ) < e := by exact_mod_cast he
  have cross : (FV.fin s n d).rat < (FV.fin t m e).rat
      ↔ (if s then -1 else 1 : ℚ) * (n * e) < (if t then -1 else 1) * (m * d) := by
    simp only [FV.rat]
    rw [← mul_div_assoc, ← mul_div_assoc, div_lt_div_iff₀ D E, mul_assoc, mul_assoc]
  rw [FV.lt, decide_eq_decide, cross]
  have cast (b : Bool) : ((if b then -1 else 1 : Int) : ℚ) = if b then -1 else 1 := by cases b <;> simp
  rw [← @Int.cast_lt ℚ]
  push_cast [cast]
  rfl

/-- The order of R168 and R181 is that of the ranks. -/
theorem FV.below_eq {a b : FV} (ha : a.Number) (hb : b.Number) : a.below b = decide (a.rank < b.rank) := by
  obtain ⟨pa, na⟩ := ha
  obtain ⟨pb, nb⟩ := hb
  unfold FV.below
  cases a with
  | nan => exact absurd na (by decide)
  | inf s =>
    cases b with
    | nan => exact absurd nb (by decide)
    | inf t => cases s <;> cases t <;> simp [FV.lt, FV.rank, FV.isNeg, Prod.Lex.toLex_lt_toLex]
    | fin t m e => cases s <;> simp [FV.lt, FV.rank, FV.isNeg, Prod.Lex.toLex_lt_toLex]
  | fin s n d =>
    cases b with
    | nan => exact absurd nb (by decide)
    | inf t => cases t <;> simp [FV.lt, FV.rank, FV.isNeg, Prod.Lex.toLex_lt_toLex]
    | fin t m e =>
      rw [FV.fin_lt_iff pa pb, FV.fin_lt_iff pb pa]
      simp only [FV.rank, Prod.Lex.toLex_lt_toLex, FV.isNeg, lt_irrefl, false_or, true_and]
      generalize (FV.fin s n d).rat = p
      generalize (FV.fin t m e).rat = q
      rcases lt_trichotomy p q with less | same | more
      · simp [less]
      · subst same
        cases s <;> cases t <;> simp
      · simp [more, more.ne']

/-- Below a value without a sign there is no zero of another sign. -/
theorem FV.lt_eq {a b : FV} (ha : a.Number) (hb : b.Number) (pos : a.isNeg = false) : a.lt b = decide (a.rank < b.rank) := by
  rw [← FV.below_eq ha hb, FV.below, pos, Bool.and_false, Bool.false_and, Bool.or_false]

/-- `a` goes before `b` as the greater or as the lesser. -/
def FV.beats (greater : Bool) (a b : FV) : Bool := if greater then b.below a else a.below b

/-! ### A running extremum -/

/-- A choice between two at each step leaves one that no other goes before. -/
theorem foldl_best {α β : Type} [LinearOrder β] (key : α → β) (takes : α → α → Bool) (init : α) (l : List α)
    (yes : ∀ a ∈ init :: l, ∀ b ∈ init :: l, takes a b = true → key a ≤ key b)
    (no : ∀ a ∈ init :: l, ∀ b ∈ init :: l, takes a b = false → key b ≤ key a) :
    l.foldl (fun a b => if takes a b then b else a) init ∈ init :: l
      ∧ ∀ v ∈ init :: l, key v ≤ key (l.foldl (fun a b => if takes a b then b else a) init) := by
  induction l generalizing init with
  | nil => simp
  | cons first r ih =>
    have next : (if takes init first then first else init) ∈ [init, first] := by split <;> simp
    have sub : ∀ v ∈ (if takes init first then first else init) :: r, v ∈ init :: first :: r := by
      intro v member
      rcases List.mem_cons.mp member with rfl | member
      · exact List.mem_append_left r next
      · simp [member]
    obtain ⟨inside, best⟩ := ih _ (fun a ha b hb => yes a (sub a ha) b (sub b hb)) fun a ha b hb => no a (sub a ha) b (sub b hb)
    refine ⟨sub _ inside, fun v member => ?_⟩
    have step : key init ≤ key (if takes init first then first else init)
        ∧ key first ≤ key (if takes init first then first else init) := by
      split
      next t => exact ⟨yes _ (by simp) _ (by simp) t, le_rfl⟩
      next t => exact ⟨le_rfl, no _ (by simp) _ (by simp) (by simpa using t)⟩
    have reached := best _ (List.mem_cons_self ..)
    simp only [List.mem_cons] at member
    rcases member with rfl | rfl | member
    · exact step.1.trans reached
    · exact step.2.trans reached
    · exact best v (List.mem_cons_of_mem _ member)

/-- The greater or the lesser at each step leaves one that no other beats. -/
theorem foldl_beats (greater : Bool) {init : FV} {l : List FV} (nums : ∀ a ∈ init :: l, a.Number) :
    l.foldl (fun a b => if a.below b == greater then b else a) init ∈ init :: l
      ∧ ∀ v ∈ init :: l, v.beats greater (l.foldl (fun a b => if a.below b == greater then b else a) init) = false := by
  cases greater with
  | true =>
    obtain ⟨inside, best⟩ := foldl_best FV.rank (fun a b => a.below b == true) init l
      (fun a ha b hb h => by
        rw [FV.below_eq (nums a ha) (nums b hb), beq_iff_eq, decide_eq_true_iff] at h
        exact h.le)
      fun a ha b hb h => by
        rw [FV.below_eq (nums a ha) (nums b hb), beq_eq_false_iff_ne, ne_eq, decide_eq_true_iff] at h
        exact not_lt.mp h
    refine ⟨inside, fun v member => ?_⟩
    rw [FV.beats, if_pos rfl, FV.below_eq (nums _ inside) (nums v member)]
    exact decide_eq_false (not_lt.mpr (best v member))
  | false =>
    obtain ⟨inside, best⟩ := foldl_best (OrderDual.toDual ∘ FV.rank) (fun a b => a.below b == false) init l
      (fun a ha b hb h => by
        rw [FV.below_eq (nums a ha) (nums b hb), beq_iff_eq, decide_eq_false_iff_not] at h
        exact not_lt.mp h)
      fun a ha b hb h => by
        rw [FV.below_eq (nums a ha) (nums b hb), beq_eq_false_iff_ne, ne_eq, decide_eq_false_iff_not, not_not] at h
        exact h.le
    refine ⟨inside, fun v member => ?_⟩
    rw [FV.beats, if_neg Bool.false_ne_true, FV.below_eq (nums v member) (nums _ inside)]
    exact decide_eq_false (not_lt.mpr (best v member))

/-- The same of integers. -/
theorem foldl_greatest (init : Int) (l : List Int) :
    l.foldl (fun a b => if decide (a < b) == true then b else a) init ∈ init :: l
      ∧ ∀ v ∈ init :: l, v ≤ l.foldl (fun a b => if decide (a < b) == true then b else a) init :=
  foldl_best id (fun a b => decide (a < b) == true) init l
    (fun a _ b _ h => by
      have less : a < b := by simpa using h
      exact less.le)
    fun a _ b _ h => by simpa using h

theorem foldl_least (init : Int) (l : List Int) :
    l.foldl (fun a b => if decide (a < b) == false then b else a) init ∈ init :: l
      ∧ ∀ v ∈ init :: l, l.foldl (fun a b => if decide (a < b) == false then b else a) init ≤ v :=
  foldl_best OrderDual.toDual (fun a b => decide (a < b) == false) init l (fun a _ b _ h => by simpa using h)
    fun a _ b _ h => by
      have less : a < b := by simpa using h
      exact less.le

/-! ### Elements of integer types (R172) -/

theorem intW_pos (ty : Nat) : 0 < intW ty := by unfold intW; split <;> [skip; split] <;> decide

theorem intW_le (ty : Nat) : intW ty ≤ 32 := by unfold intW; split <;> [skip; split] <;> decide

/-- An element lies in the range of its type. -/
theorem elemI_range (ty : Nat) (a : BitVec 32) : intLo ty ≤ elemI ty a ∧ elemI ty a ≤ intHi ty := by
  unfold elemI intLo intHi
  dsimp only
  generalize BitVec.ofNat (intW ty) a.toNat = b
  split
  · have lo := BitVec.le_toInt b
    have hi := BitVec.toInt_lt (x := b)
    push_cast
    omega
  · have hi := b.isLt
    omega

theorem intHi_sub_intLo (ty : Nat) : intHi ty - intLo ty = 2 ^ intW ty - 1 := by
  unfold intHi intLo
  split
  · have twice : 2 ^ intW ty = 2 * 2 ^ (intW ty - 1) := by
      rw [← pow_succ', Nat.sub_add_cancel (intW_pos ty)]
    have whole : (2 ^ intW ty : Int) = 2 * 2 ^ (intW ty - 1) := by exact_mod_cast twice
    push_cast
    omega
  · push_cast
    ring

/-- The low bits of a lane are the element that has been written to it. -/
theorem setWidth_laneI (ty : Nat) (v : Int) : (laneI ty v).setWidth (intW ty) = BitVec.ofInt (intW ty) v := by
  have fits := intW_le ty
  refine BitVec.eq_of_getLsbD_eq fun j lt => ?_
  have wide : j < 32 := by omega
  unfold laneI
  dsimp only
  split <;> simp [lt, wide, BitVec.getElem_signExtend]

/-- What a lane holds to which a number has been written: the number reduced to the type. -/
theorem elemI_laneI (ty : Nat) (v : Int) : elemI ty (laneI ty v) =
    if intSigned ty then (BitVec.ofInt (intW ty) v).toInt else ((BitVec.ofInt (intW ty) v).toNat : Int) := by
  rw [elemI, BitVec.ofNat_toNat, setWidth_laneI]

/-- Writing keeps the number modulo 2^w. -/
theorem elemI_laneI_dvd (ty : Nat) (v : Int) : (2 ^ intW ty : Int) ∣ elemI ty (laneI ty v) - v := by
  rw [elemI_laneI]
  split
  · rw [BitVec.toInt_ofInt]
    exact_mod_cast Int.dvd_bmod_sub_self
  · rw [BitVec.toNat_ofInt, Int.toNat_of_nonneg (Int.emod_nonneg _ (by positivity))]
    exact_mod_cast Int.dvd_emod_sub_self

/-- A number in the range of the type is written as it is. -/
theorem elemI_laneI_of_range {ty : Nat} {v : Int} (lo : intLo ty ≤ v) (hi : v ≤ intHi ty) : elemI ty (laneI ty v) = v := by
  obtain ⟨lo', hi'⟩ := elemI_range ty (laneI ty v)
  have width := intHi_sub_intLo ty
  refine sub_eq_zero.mp (Int.eq_zero_of_abs_lt_dvd (elemI_laneI_dvd ty v) (abs_lt.mpr ⟨?_, ?_⟩)) <;> omega

/-- An element that is written back. -/
@[simp] theorem elemI_laneI_elemI (ty : Nat) (a : BitVec 32) : elemI ty (laneI ty (elemI ty a)) = elemI ty a :=
  elemI_laneI_of_range (elemI_range ty a).1 (elemI_range ty a).2

theorem clampI_range (ty : Nat) (v : Int) : intLo ty ≤ clampI ty v ∧ clampI ty v ≤ intHi ty := by
  have width := intHi_sub_intLo ty
  have pos : (1 : Int) ≤ 2 ^ intW ty := one_le_pow₀ (by decide)
  unfold clampI
  omega

theorem elemI_laneI_clampI (ty : Nat) (v : Int) : elemI ty (laneI ty (clampI ty v)) = clampI ty v :=
  elemI_laneI_of_range (clampI_range ty v).1 (clampI_range ty v).2

end Sys2Proof.Machine
end

section
/-! The reductions (R168, R196): the theorem that settles O18, and SUPPORT for it. -/

namespace Sys2Proof.Machine

/-! ### What is reduced, and the fill -/

section
variable {s u : State} {x : FmtV}

/-- The lanes that are enabled, as the mask that is read gives them. -/
theorem State.filter_enabling (s : State) (x : FmtV) :
    ((List.range 64).filter fun i => (s.enabling x).getLsbD i) = (List.range 64).filter (s.laneOn x) :=
  List.filter_congr fun _ member => s.enabling_bit x (List.mem_range.mp member)

theorem present_sources (useB useC : Bool) : present (s.sources x true useB useC) = s.presentLanes x := by
  unfold present State.presentLanes
  rw [s.sources_m, s.filter_enabling]
  rfl

theorem popOf_enabling (s : State) (x : FmtV) : popOf (s.enabling x) = (s.presentLanes x).length := by
  rw [State.presentLanes, List.length_map, ← s.filter_enabling, ← List.countP_eq_length_filter, popOf, bitsOf, List.countP_map]
  rfl

/-- A reduction reads a and its mask and finds its register full. -/
theorem reduction_reads (read : s.canRead []) (full : s.canWrite x.vd) (free : s.noPending (x.va.toNat :: maskRegs x))
    (f : VIn → M Unit) : (vin x true false false none >>= fun v => waitDst x.vd >>= fun _ => f v) s.started
      = f (s.sources x true false false) s.started := by
  have sources := vin_free read.1 free (x := x) true false false none (by simp) (by simp) (by simp) (by simp) (by simp)
    fun r mask => by simp [mask]
  simp only [Bool.false_eq_true, if_false, State.taken_nil] at sources
  simp only [M.bind_apply, sources, waitDst_ok full]

/-- What fills the register is due as the statement says. -/
theorem State.reductionResult_of_fill (on : s.thread?.isSome = true) (kept : s.Keeps3 u) {m : M Unit} {turns : Nat} {v : Word}
    (run : m s.started = reduceFill x.vd turns v u) : ReductionResult s u x turns v (s.instr x.e x.w m) := by
  have fill : reduceFill x.vd turns v u = .ok ((), (u.modThread (·.emptyG x.vd.toNat)).modMe fun k => k.addFill
      { tid := s.thread.tid, d := x.vd.toNat, value := v, due := 8 * (s.me.turn + turns + 1) }) := by
    simp only [reduceFill, emptyG, M.bind_apply, thread_apply, core_apply, modThread_apply, modMe_apply, kept.tid, kept.turn]
  exact State.instr_ok on x.e x.w (run.trans fill)

end

/-! ### Extrema -/

/-- Only the infinity itself is not beaten by a number. -/
theorem FV.eq_inf_of_beats {greater : Bool} {a : FV} (num : a.isNan = false) (h : a.beats greater (.inf greater) = false) :
    a = .inf greater := by
  cases a with
  | nan => exact absurd num (by decide)
  | inf s => revert h; cases s <;> cases greater <;> decide
  | fin s n d => cases greater <;> simp [FV.beats, FV.below, FV.lt] at h

/-- The choice of VREDMAX and VREDMIN starts from the infinity that every number beats. -/
theorem runningExtremum_mem {greater : Bool} {fs : List FV} (nums : ∀ a ∈ fs, a.Number) (some_ : fs ≠ []) :
    ∃ m ∈ fs, fs.foldl (fun a b => if a.below b == greater then b else a) (.inf greater) = m
      ∧ ∀ a ∈ fs, a.beats greater m = false := by
  obtain ⟨inside, best⟩ := foldl_beats greater (init := .inf greater) (List.forall_mem_cons.mpr ⟨⟨trivial, rfl⟩, nums⟩)
  refine ⟨_, ?_, rfl, fun a member => best a (List.mem_cons_of_mem _ member)⟩
  rcases List.mem_cons.mp inside with start | member
  · obtain ⟨a, member⟩ := List.exists_mem_of_ne_nil fs some_
    have same := FV.eq_inf_of_beats (nums a member).2 (start ▸ best a (List.mem_cons_of_mem _ member))
    rw [start, ← same]
    exact member
  · exact member

theorem FV.isNeg_abs (a : FV) : a.abs.isNeg = false := by cases a <;> rfl

/-- A magnitude that is no greater than +0 is +0. -/
theorem FV.abs_eq_zero {a : FV} (num : a.isNan = false) (h : (FV.fin false 0 1).lt a.abs = false) : ∃ d, a.abs = .fin false 0 d := by
  cases a with
  | nan => exact absurd num (by decide)
  | inf s => simp [FV.abs, FV.lt] at h
  | fin s n d =>
    have zero : n = 0 := by simpa [FV.abs, FV.lt] using h
    exact ⟨d, by rw [FV.abs, zero]⟩

/-- The choice of VAMAX starts from +0, which no magnitude is below. -/
theorem runningMagnitude_mem {fs : List FV} (nums : ∀ a ∈ fs, a.Number) (some_ : fs ≠ []) :
    ∃ m ∈ fs, toF32 0 0 ((fs.map FV.abs).foldl (fun a b => if a.lt b then b else a) (.fin false 0 1)) = toF32 0 0 m.abs
      ∧ ∀ a ∈ fs, m.abs.lt a.abs = false := by
  have all : ∀ a ∈ FV.fin false 0 1 :: fs.map FV.abs, a.Number ∧ a.isNeg = false := by
    refine List.forall_mem_cons.mpr ⟨⟨⟨Nat.one_pos, rfl⟩, rfl⟩, fun b listed => ?_⟩
    obtain ⟨a, member, rfl⟩ := List.mem_map.mp listed
    exact ⟨(nums a member).abs, a.isNeg_abs⟩
  obtain ⟨inside, best⟩ := foldl_best FV.rank FV.lt (.fin false 0 1) (fs.map FV.abs)
    (fun a ha b hb h => by
      rw [FV.lt_eq (all a ha).1 (all b hb).1 (all a ha).2, decide_eq_true_iff] at h
      exact h.le)
    fun a ha b hb h => by
      rw [FV.lt_eq (all a ha).1 (all b hb).1 (all a ha).2, decide_eq_false_iff_not] at h
      exact not_lt.mp h
  generalize (fs.map FV.abs).foldl _ _ = r at inside best
  have top : ∀ a ∈ fs, r.lt a.abs = false := fun a member => by
    have listed := List.mem_cons_of_mem (FV.fin false 0 1) (List.mem_map_of_mem member (f := FV.abs))
    rw [FV.lt_eq (all _ inside).1 (all _ listed).1 (all _ inside).2]
    exact decide_eq_false (not_lt.mpr (best _ listed))
  rcases List.mem_cons.mp inside with rfl | listed
  · obtain ⟨m, member⟩ := List.exists_mem_of_ne_nil fs some_
    obtain ⟨d, zero⟩ := FV.abs_eq_zero (nums m member).2 (top m member)
    refine ⟨m, member, by simp [zero, toF32, FV.round, roundMag], fun a other => ?_⟩
    obtain ⟨e, zero'⟩ := FV.abs_eq_zero (nums a other).2 (top a other)
    rw [zero, zero']
    simp [FV.lt]
  · obtain ⟨m, member, rfl⟩ := List.mem_map.mp listed
    exact ⟨m, member, rfl, top⟩

theorem any_isNan {fs : List FV} (nan : ∃ a ∈ fs, a.isNan = true) : fs.any FV.isNan = true := List.any_eq_true.mpr nan

theorem any_isNan_eq_false {fs : List FV} (nums : ∀ a ∈ fs, a.isNan = false) : fs.any FV.isNan = false :=
  List.any_eq_false.mpr fun a member => by simp [nums a member]

/-- The f32 that VREDMAX and VREDMIN give. -/
theorem extremum_word (greater : Bool) {fs : List FV} (proper : ∀ a ∈ fs, a.Proper) :
    let v := toF32 0 0 (if fs.any FV.isNan then .nan
      else fs.foldl (fun a b => if a.below b == greater then b else a) (.inf greater))
    ((∃ a ∈ fs, a.isNan = true) → v = 0x7FC00000) ∧ (fs = [] → v = toF32 0 0 (.inf greater))
      ∧ (fs ≠ [] → (∀ a ∈ fs, a.isNan = false) → ∃ m ∈ fs, v = toF32 0 0 m ∧ ∀ a ∈ fs, a.beats greater m = false) := by
  refine ⟨fun nan => ?_, fun none_ => ?_, fun some_ nums => ?_⟩
  · rw [any_isNan nan]; rfl
  · rw [none_]; rfl
  · obtain ⟨m, member, eq, best⟩ := runningExtremum_mem (greater := greater) (fun a h => ⟨proper a h, nums a h⟩) some_
    rw [any_isNan_eq_false nums]
    exact ⟨m, member, congrArg _ eq, best⟩

theorem FV.isNan_abs (a : FV) : a.abs.isNan = a.isNan := by cases a <;> rfl

/-- The f32 that VAMAX gives. -/
theorem magnitude_word {fs : List FV} (proper : ∀ a ∈ fs, a.Proper) :
    let v := toF32 0 0 (if (fs.map FV.abs).any FV.isNan then .nan
      else (fs.map FV.abs).foldl (fun a b => if a.lt b then b else a) (.fin false 0 1))
    ((∃ a ∈ fs, a.isNan = true) → v = 0x7FC00000) ∧ (fs = [] → v = 0)
      ∧ (fs ≠ [] → (∀ a ∈ fs, a.isNan = false) → ∃ m ∈ fs, v = toF32 0 0 m.abs ∧ ∀ a ∈ fs, m.abs.lt a.abs = false) := by
  have same : (fs.map FV.abs).any FV.isNan = fs.any FV.isNan := by
    rw [List.any_map]
    exact congrArg fs.any (funext FV.isNan_abs)
  rw [same]
  refine ⟨fun nan => ?_, fun none_ => ?_, fun some_ nums => ?_⟩
  · rw [any_isNan nan]; rfl
  · rw [none_]; rfl
  · obtain ⟨m, member, eq, best⟩ := runningMagnitude_mem (fun a h => ⟨proper a h, nums a h⟩) some_
    rw [any_isNan_eq_false nums]
    exact ⟨m, member, eq, best⟩

/-- The integer that VREDMAX gives, and that of VREDMIN. -/
theorem greatest_of_range {lo : Int} {vs : List Int} (low : ∀ v ∈ vs, lo ≤ v) :
    let m := vs.foldl (fun a b => if decide (a < b) == true then b else a) lo
    (∀ v ∈ vs, v ≤ m) ∧ (vs = [] → m = lo) ∧ (vs ≠ [] → m ∈ vs) := by
  obtain ⟨inside, best⟩ := foldl_greatest lo vs
  refine ⟨fun v member => best v (List.mem_cons_of_mem _ member), fun none_ => by rw [none_]; rfl, fun some_ => ?_⟩
  rcases List.mem_cons.mp inside with start | member
  · obtain ⟨v, member⟩ := List.exists_mem_of_ne_nil vs some_
    have lowest : v = lo := le_antisymm (start ▸ best v (List.mem_cons_of_mem _ member)) (low v member)
    rw [start, ← lowest]
    exact member
  · exact member

theorem least_of_range {hi : Int} {vs : List Int} (high : ∀ v ∈ vs, v ≤ hi) :
    let m := vs.foldl (fun a b => if decide (a < b) == false then b else a) hi
    (∀ v ∈ vs, m ≤ v) ∧ (vs = [] → m = hi) ∧ (vs ≠ [] → m ∈ vs) := by
  obtain ⟨inside, best⟩ := foldl_least hi vs
  refine ⟨fun v member => best v (List.mem_cons_of_mem _ member), fun none_ => by rw [none_]; rfl, fun some_ => ?_⟩
  rcases List.mem_cons.mp inside with start | member
  · obtain ⟨v, member⟩ := List.exists_mem_of_ne_nil vs some_
    have highest : v = hi := le_antisymm (high v member) (start ▸ best v (List.mem_cons_of_mem _ member))
    rw [start, ← highest]
    exact member
  · exact member

/-! ### The instructions -/

section
variable {s : State} {x : FmtV} (read : s.canRead []) (full : s.canWrite x.vd) (free : s.noPending (x.va.toNat :: maskRegs x))
include read full free

theorem vredadd_int (int : ¬ x.ty.toNat < 3) : ReductionResult s s.started x 2
    (BitVec.ofInt 64 ((s.presentLanes x).map (elemI x.ty.toNat)).sum) (exec (.vredadd x) s) := by
  refine State.reductionResult_of_fill read.1 (State.keeps3_started read.1) ((reduction_reads read full free _).trans ?_)
  have kind : isF x.ty.toNat = false := decide_eq_false int
  simp only [kind, Bool.false_eq_true, if_false, present_sources]

theorem vredadd_float (float : x.ty.toNat < 3) :
    let md := s.thread.mode x.rnd.toNat
    let d := s.started.drawn md ((s.presentLanes x).length - 1)
    ReductionResult s d.2 x 2 ((toF32 0 0 (treeSum md ((List.range 64).map fun i =>
      if s.laneOn x i then some (elemF x.ty.toNat (s.laneA x i)) else none) d.1)).setWidth 64) (exec (.vredadd x) s) := by
  intro md d
  have kept := State.keeps3_started read.1
  refine State.reductionResult_of_fill read.1 (kept.trans (s.started.keeps3_drawn md _)) ((reduction_reads read full free _).trans ?_)
  have kind : isF x.ty.toNat = true := decide_eq_true float
  have lanes : ((List.range 64).map fun i => if (s.sources x true false false).m.getLsbD i then
        some (elemF x.ty.toNat ((s.sources x true false false).la i)) else none)
      = (List.range 64).map fun i => if s.laneOn x i then some (elemF x.ty.toNat (s.laneA x i)) else none :=
    List.map_congr_left fun i member => by rw [s.sources_m, s.enabling_bit x (List.mem_range.mp member), s.sources_la]
  have count : popOf (s.sources x true false false).m = (s.presentLanes x).length := popOf_enabling s x
  simp only [kind, if_true, M.bind_apply, modeOf_apply, draws_apply, kept.mode, count, lanes]
  rfl

theorem vredm_int (int : ¬ x.ty.toNat < 3) (greater : Bool) : ReductionResult s s.started x 1
    (BitVec.ofInt 64 (((s.presentLanes x).map (elemI x.ty.toNat)).foldl (fun a b => if decide (a < b) == greater then b else a)
      (if greater then intLo x.ty.toNat else intHi x.ty.toNat))) (s.instr x.e x.w (vredm x greater)) := by
  refine State.reductionResult_of_fill read.1 (State.keeps3_started read.1) ((reduction_reads read full free _).trans ?_)
  have kind : isF x.ty.toNat = false := decide_eq_false int
  simp only [kind, Bool.false_eq_true, if_false, present_sources]

theorem vredm_float (float : x.ty.toNat < 3) (greater : Bool) :
    let fs := (s.presentLanes x).map (elemF x.ty.toNat)
    ReductionResult s s.started x 1 ((toF32 0 0 (if fs.any FV.isNan then .nan
      else fs.foldl (fun a b => if a.below b == greater then b else a) (.inf greater))).setWidth 64)
      (s.instr x.e x.w (vredm x greater)) := by
  intro fs
  refine State.reductionResult_of_fill read.1 (State.keeps3_started read.1) ((reduction_reads read full free _).trans ?_)
  have kind : isF x.ty.toNat = true := decide_eq_true float
  simp only [kind, if_true, present_sources]
  rfl

theorem vamax_float :
    let fs := ((s.presentLanes x).map (elemF x.ty.toNat)).map FV.abs
    ReductionResult s s.started x 1 ((toF32 0 0 (if fs.any FV.isNan then .nan
      else fs.foldl (fun a b => if a.lt b then b else a) (.fin false 0 1))).setWidth 64) (exec (.vamax x) s) := by
  intro fs
  refine State.reductionResult_of_fill read.1 (State.keeps3_started read.1) ((reduction_reads read full free _).trans ?_)
  simp only [present_sources, fs, List.map_map]
  rfl

end

/-- Settles O18: each instruction fills gd with its fold over the present lanes, whose value the folds' lemmas give. -/
theorem vectorReductions : Obligations.VectorReductions := by
  unfold Obligations.VectorReductions
  intro x s read full free ty vs
  have ranges : ∀ v ∈ vs, intLo ty ≤ v ∧ v ≤ intHi ty := fun v member => by
    obtain ⟨l, _, rfl⟩ := List.mem_map.mp member
    exact elemI_range ty l
  refine ⟨fun int _ => ⟨vredadd_int read full free (by omega), ⟨_, vredm_int read full free (by omega) true,
      greatest_of_range fun v member => (ranges v member).1⟩, ⟨_, vredm_int read full free (by omega) false,
      least_of_range fun v member => (ranges v member).2⟩⟩, fun float => ⟨vredadd_float read full free float, ?_⟩⟩
  intro fs below gives
  have proper : ∀ a ∈ fs, a.Proper := fun a member => by
    obtain ⟨l, _, rfl⟩ := List.mem_map.mp member
    exact elemF_proper ty l
  exact ⟨⟨_, vredm_float read full free float true, extremum_word true proper⟩,
    ⟨_, vredm_float read full free float false, extremum_word false proper⟩,
    ⟨_, vamax_float read full free, magnitude_word proper⟩⟩

end Sys2Proof.Machine
end

section
/-! SUPPORT. VSCAN (R168, R195): what each lane of a running result holds. -/

namespace Sys2Proof.Machine

/-! ### Elements that are written back -/

theorem elemF_normLane {ty : Nat} (float : ty < 3) (a : BitVec 32) : elemF ty (normLane ty a) = elemF ty a := by
  have kind : isF ty = true := decide_eq_true float
  rw [normLane, if_pos kind, elemF_laneF]

theorem elemI_normLane {ty : Nat} (int : ¬ ty < 3) (a : BitVec 32) : elemI ty (normLane ty a) = elemI ty a := by
  have kind : isF ty = false := decide_eq_false int
  rw [normLane, if_neg (by simp [kind]), elemI_laneI_elemI]

/-- The choice of R181 between two elements: a NaN is passed on. -/
def FV.chosen (greater : Bool) (a b : FV) : FV :=
  if a.isNan || b.isNan then .nan else if a.below b == greater then b else a

theorem FV.chosen_nan (greater : Bool) {a b : FV} (nan : a.isNan = true ∨ b.isNan = true) : a.chosen greater b = .nan :=
  if_pos (by simpa using nan)

theorem ite_bne {α : Type} (b c : Bool) (p q : α) : (if b != c then p else q) = if b == c then q else p := by
  cases b <;> cases c <;> rfl

theorem elemF_minmaxLane {ty : Nat} (float : ty < 3) (greater : Bool) (a b : BitVec 32) :
    elemF ty (minmaxLane ty greater a b) = (elemF ty a).chosen greater (elemF ty b) := by
  have kind : isF ty = true := decide_eq_true float
  rw [minmaxLane, if_pos kind, FV.chosen]
  dsimp only
  rw [ite_bne]
  split
  · exact elemF_nan ty
  · split <;> exact elemF_laneF ty _

theorem elemI_minmaxLane {ty : Nat} (int : ¬ ty < 3) (greater : Bool) (a b : BitVec 32) :
    elemI ty (minmaxLane ty greater a b)
      = if decide (elemI ty a < elemI ty b) == greater then elemI ty b else elemI ty a := by
  have kind : isF ty = false := decide_eq_false int
  rw [minmaxLane, if_neg (by simp [kind])]
  dsimp only
  rw [ite_bne]
  split <;> exact elemI_laneI_elemI ty _

/-! ### The running lane -/

/-- What a running lane comes to over the lanes of a list, after `acc` where there is one. -/
def runningLane (f : BitVec 32 → BitVec 32 → BitVec 32) : Option (BitVec 32) → List (BitVec 32) → BitVec 32
  | some p, ls => ls.foldl f p
  | none, [] => 0
  | none, v :: r => r.foldl f v

theorem scanLane_getD (f : BitVec 32 → BitVec 32 → BitVec 32) (a : BitVec 2048) (m : BitVec 64) (is : List Nat)
    (acc : Option (BitVec 32)) {k i : Nat} (place : is[k]? = some i) (on : m.getLsbD i = true) :
    (scanLane f a m is acc).getD k 0 = runningLane f acc (((is.take (k + 1)).filter m.getLsbD).map (lane a)) := by
  induction is generalizing acc k with
  | nil => simp at place
  | cons first r ih =>
    cases k with
    | zero =>
      obtain rfl : first = i := by simpa using place
      cases acc <;> simp [scanLane, on, runningLane]
    | succ k =>
      have rest := fun acc => ih acc (k := k) (by simpa using place)
      by_cases here : m.getLsbD first = true
      · cases acc <;> simp only [scanLane, here, if_true, List.getD_cons_succ, rest, List.take_succ_cons,
          List.filter_cons_of_pos, List.map_cons, runningLane, List.foldl_cons]
      · simp only [scanLane, here, Bool.false_eq_true, if_false, List.getD_cons_succ, rest, List.take_succ_cons,
          List.filter_cons_of_neg, not_false_eq_true]

/-- The present lanes up to lane `i`. -/
def State.lanesUpTo (s : State) (x : FmtV) (i : Nat) : List (BitVec 32) :=
  ((List.range (i + 1)).filter (s.laneOn x)).map (s.laneA x)

theorem State.lanesUpTo_ne_nil {s : State} {x : FmtV} {i : Nat} (on : s.laneOn x i = true) : s.lanesUpTo x i ≠ [] := by
  refine List.ne_nil_of_mem (a := s.laneA x i) (List.mem_map_of_mem (List.mem_filter.mpr ⟨?_, on⟩))
  simp

/-- A present lane of a scan. -/
theorem scanLane_present (f : BitVec 32 → BitVec 32 → BitVec 32) {s : State} {x : FmtV} {i : Nat} (h : i < 64)
    (on : s.laneOn x i = true) : ∃ v r, s.lanesUpTo x i = v :: r
      ∧ (scanLane f (s.vreg x.va.toNat) (s.enabling x) (List.range 64) none).getD i 0 = r.foldl f v := by
  have bit : (s.enabling x).getLsbD i = true := (s.enabling_bit x h).trans on
  have lanes : ((List.range 64).take (i + 1)).filter (s.enabling x).getLsbD = (List.range (i + 1)).filter (s.laneOn x) := by
    rw [List.take_range, min_eq_left (by omega)]
    exact List.filter_congr fun j member => s.enabling_bit x (by have := List.mem_range.mp member; omega)
  obtain ⟨v, r, split⟩ := List.exists_cons_of_ne_nil (State.lanesUpTo_ne_nil on)
  refine ⟨v, r, split, ?_⟩
  rw [scanLane_getD f _ _ _ none (by simp [h]) bit, lanes]
  exact congrArg (runningLane f none) split

/-- The element of a running lane is the running element. -/
theorem foldl_elem {β : Type} {elem : BitVec 32 → β} {f : BitVec 32 → BitVec 32 → BitVec 32} {g : β → β → β}
    (step : ∀ p q, elem (f p q) = g (elem p) (elem q)) (r : List (BitVec 32)) (v : BitVec 32) :
    elem (r.foldl f v) = (r.map elem).foldl g (elem v) := by
  induction r generalizing v with
  | nil => rfl
  | cons first r ih => rw [List.foldl_cons, ih, step, List.map_cons, List.foldl_cons]

/-! ### Integer types -/

/-- A running sum is the sum modulo 2^w. -/
theorem foldl_sum_dvd (ty : Nat) (r : List (BitVec 32)) (v : BitVec 32) : (2 ^ intW ty : Int) ∣
    elemI ty (r.foldl (fun p q => laneI ty (elemI ty p + elemI ty q)) v) - ((v :: r).map (elemI ty)).sum := by
  induction r generalizing v with
  | nil => simp
  | cons first r ih =>
    have whole := dvd_add (ih (laneI ty (elemI ty v + elemI ty first))) (elemI_laneI_dvd ty (elemI ty v + elemI ty first))
    refine (dvd_of_eq rfl).trans (whole.trans (dvd_of_eq ?_))
    simp only [List.foldl_cons, List.map_cons, List.sum_cons]
    ring

/-! ### Floating types -/

theorem foldl_chosen_nan (greater : Bool) (l : List FV) {init : FV} (nan : ∃ v ∈ init :: l, v.isNan = true) :
    l.foldl (FV.chosen greater) init = .nan := by
  induction l generalizing init with
  | nil => simpa [FV.isNan] using nan
  | cons first r ih =>
    refine ih ?_
    simp only [List.mem_cons, exists_eq_or_imp] at nan
    rcases nan with here | here | later
    · exact ⟨_, List.mem_cons_self .., by rw [FV.chosen_nan greater (.inl here)]; rfl⟩
    · exact ⟨_, List.mem_cons_self .., by rw [FV.chosen_nan greater (.inr here)]; rfl⟩
    · obtain ⟨v, member, is⟩ := later
      exact ⟨v, List.mem_cons_of_mem _ member, is⟩

theorem foldl_chosen_numbers (greater : Bool) (l : List FV) {init : FV} (nums : ∀ v ∈ init :: l, v.isNan = false) :
    l.foldl (FV.chosen greater) init = l.foldl (fun a b => if a.below b == greater then b else a) init := by
  induction l generalizing init with
  | nil => rfl
  | cons first r ih =>
    have one := nums init (by simp)
    have two := nums first (by simp)
    have step : init.chosen greater first = if init.below first == greater then first else init := by
      rw [FV.chosen, if_neg (by simp [one, two])]
    rw [List.foldl_cons, List.foldl_cons, step]
    refine ih fun v member => ?_
    rcases List.mem_cons.mp member with rfl | member
    · split <;> assumption
    · exact nums v (by simp [member])

/-! ### Running floating sums -/

theorem headD_drop (l : List Nat) (n : Nat) : (l.drop n).headD 0 = l.getD n 0 := by
  simp [List.headD_eq_head?_getD]

/-- The running f32 sum at present lane `m`: `ps` are the present lanes, `e` their elements, `rs` the draws. -/
def runningSum (ty mode : Nat) (e : Nat → FV) (ps rs : List Nat) : Nat → FV
  | 0 => e (ps.getD 0 0)
  | m + 1 => f32 (toF32 mode (rs.getD (if ty = 0 then m else 2 * m + 1) 0) ((runningSum ty mode e ps rs m).add (e (ps.getD (m + 1) 0))))

/-- The lane that an add scan writes for the running sum at present lane `m`. -/
def sumLane (ty mode : Nat) (rs : List Nat) (m : Nat) (v : FV) : BitVec 32 :=
  if ty = 0 then toF32 0 0 v else laneF ty mode (rs.getD (2 * m) 0) v

/-- Where `q` present lanes have been added, the scan holds their sum and has used their draws. -/
def ScanHolds (ty : Nat) (S : Nat → FV) (rs0 : List Nat) : Nat → Option FV → List Nat → Prop
  | 0, sum, rs => sum = none ∧ rs = rs0
  | p + 1, sum, rs => sum = some (S p) ∧ rs = rs0.drop (if ty = 0 then p else 2 * p + 1)

/-- The running sum at present lane `q` follows from the one before it and the element of lane `j`. -/
def SumStep (ty mode : Nat) (S : Nat → FV) (rs0 : List Nat) (v : FV) : Nat → Prop
  | 0 => S 0 = v
  | p + 1 => S (p + 1) = f32 (toF32 mode (rs0.getD (if ty = 0 then p else 2 * p + 1) 0) ((S p).add v))

section
variable {ty mode : Nat} {a : BitVec 2048} {m : BitVec 64} {S : Nat → FV} {rs0 : List Nat}

/-- A present lane takes its draws and is written with its sum. -/
theorem scanAddF_present {q i : Nat} {sum : Option FV} {rs r : List Nat} (holds : ScanHolds ty S rs0 q sum rs)
    (step : SumStep ty mode S rs0 (elemF ty (lane a i)) q) (on : m.getLsbD i = true) :
    scanAddF ty mode a m (i :: r) sum rs = sumLane ty mode rs0 q (S q)
      :: scanAddF ty mode a m r (some (S q)) (rs0.drop (if ty = 0 then q else 2 * q + 1)) := by
  cases q with
  | zero =>
    obtain ⟨rfl, rfl⟩ := holds
    have first : elemF ty (lane a i) = S 0 := step.symm
    simp only [scanAddF, on, if_true, first, sumLane]
    split
    · simp
    · have next : rs.headD 0 = rs.getD (2 * 0) 0 := headD_drop rs 0
      rw [next]
  | succ p =>
    obtain ⟨rfl, rfl⟩ := holds
    have sum : f32 (toF32 mode ((rs0.drop (if ty = 0 then p else 2 * p + 1)).headD 0) ((S p).add (elemF ty (lane a i)))) = S (p + 1) := by
      rw [headD_drop]; exact step.symm
    simp only [scanAddF, on, if_true, sum, sumLane]
    split
    next single => simp [single]
    next =>
      have next : 2 * p + 1 + 1 = 2 * (p + 1) := rfl
      simp only [List.drop_drop, headD_drop, next]

theorem scanAddF_getD (n : Nat) : ∀ (b q : Nat) (sum : Option FV) (rs : List Nat), ScanHolds ty S rs0 q sum rs →
    (∀ t j, ((List.range' b n).filter m.getLsbD)[t]? = some j → SumStep ty mode S rs0 (elemF ty (lane a j)) (q + t)) →
    ∀ t j, ((List.range' b n).filter m.getLsbD)[t]? = some j →
      (scanAddF ty mode a m (List.range' b n) sum rs).getD (j - b) 0 = sumLane ty mode rs0 (q + t) (S (q + t)) := by
  induction n with
  | zero => intro b q sum rs _ _ t j place; simp at place
  | succ n ih =>
    intro b q sum rs holds sums t j place
    rw [List.range'_succ] at sums place ⊢
    have after {t : Nat} (place : ((List.range' (b + 1) n).filter m.getLsbD)[t]? = some j) : j - b = (j - (b + 1)) + 1 := by
      have member := (List.mem_filter.mp (List.mem_of_getElem? place)).1
      have := List.mem_range'_1.mp member
      omega
    by_cases on : m.getLsbD b = true
    · rw [List.filter_cons_of_pos on] at sums place
      rw [scanAddF_present holds (sums 0 b rfl) on]
      cases t with
      | zero =>
        obtain rfl : b = j := by simpa using place
        simp
      | succ t =>
        rw [List.getElem?_cons_succ] at place
        rw [after place, List.getD_cons_succ, ih (b + 1) (q + 1) _ _ ⟨rfl, rfl⟩ (fun t j place => ?_) t j place,
          Nat.add_right_comm]
        · rfl
        · have := sums (t + 1) j place
          rwa [← Nat.add_assoc, Nat.add_right_comm] at this
    · rw [List.filter_cons_of_neg on] at sums place
      rw [scanAddF, if_neg on, after place, List.getD_cons_succ]
      exact ih (b + 1) q sum rs holds sums t j place

end

/-! ### The instruction -/

/-- The running lanes of VSCAN. -/
def scanned (ty fn mode : Nat) (v : VIn) (rs : List Nat) : List (BitVec 32) :=
  if fn = 0 then
    if isF ty then scanAddF ty mode v.a v.m (List.range 64) none rs
    else scanLane (fun p q => laneI ty (elemI ty p + elemI ty q)) v.a v.m (List.range 64) none
  else scanLane (fun p q => minmaxLane ty (fn == 1) p q) v.a v.m (List.range 64) none

/-- How many draws an add scan takes of `n` present lanes. -/
def scanDraws (ty n : Nat) : Nat := if ty = 0 then n - 1 else if n = 0 then 0 else 2 * n - 1

section
variable {s : State} {x : FmtV}

/-- The draws of VSCAN, and the state after them. -/
def State.scanDrawn (s : State) (x : FmtV) : List Nat × State :=
  if fld x.op 0 2 = 0 ∧ x.ty.toNat < 3 then
    s.started.drawn (s.thread.mode x.rnd.toNat) (scanDraws x.ty.toNat (s.presentLanes x).length)
  else ([], s.started)

theorem exec_vscan (can : s.canV1 x) : VectorResult s (s.scanDrawn x).2 x 2
    (fun i => normLane x.ty.toNat ((scanned x.ty.toNat (fld x.op 0 2) (s.thread.mode x.rnd.toNat) (s.sources x true false false)
      (s.scanDrawn x).1).getD i 0)) (exec (.vscan x) s) := by
  have kept := State.keeps3_started can.1
  have keeps : s.Keeps3 (s.scanDrawn x).2 := by
    unfold State.scanDrawn
    split
    · exact kept.trans (State.keeps3_drawn ..)
    · exact kept
  have count : popOf (s.sources x true false false).m = (s.presentLanes x).length := popOf_enabling s x
  refine State.vectorResult_of_vmap can.1 keeps ?_ fun _ _ _ => rfl
  rw [M.bind_apply, vin_one can]
  simp only [M.bind_apply, modeOf_apply, kept.mode, count]
  by_cases adds : fld x.op 0 2 = 0 ∧ x.ty.toNat < 3
  · have adds' : fld x.op 0 2 = 0 ∧ isF x.ty.toNat = true := ⟨adds.1, decide_eq_true adds.2⟩
    simp only [State.scanDrawn, if_pos adds, if_pos adds']
    rfl
  · have adds' : ¬ (fld x.op 0 2 = 0 ∧ isF x.ty.toNat = true) := fun h => adds ⟨h.1, of_decide_eq_true h.2⟩
    simp only [State.scanDrawn, if_neg adds, if_neg adds']
    rfl

end

end Sys2Proof.Machine
end

section
/-! SUPPORT. VTOPK (R168, R197): the candidates in the order of their selection. -/

namespace Sys2Proof.Machine

/-! ### The order of selection -/

/-- A value as VTOPK compares it. -/
def topKey (ty : Nat) (a : BitVec 32) : ℤ ×ₗ ℚ ×ₗ ℕ :=
  if ty < 3 then (elemF ty a).rank else toLex (0, toLex ((elemI ty a : ℚ), 0))

/-- A lane that may be selected: not a NaN. -/
def Selectable (ty : Nat) (a : BitVec 32) : Prop := ty < 3 → (elemF ty a).isNan = false

theorem topBelow_eq {ty : Nat} {a b : BitVec 32} (ha : Selectable ty a) (hb : Selectable ty b) :
    topBelow ty a b = decide (topKey ty a < topKey ty b) := by
  unfold topBelow topKey
  by_cases float : ty < 3
  · have kind : isF ty = true := decide_eq_true float
    rw [if_pos kind, if_pos float, if_pos float]
    exact FV.below_eq ⟨elemF_proper .., ha float⟩ ⟨elemF_proper .., hb float⟩
  · have kind : isF ty = false := decide_eq_false float
    rw [if_neg (by simp [kind]), if_neg float, if_neg float]
    simp [Prod.Lex.toLex_lt_toLex]

/-- The place of a candidate, a lane number with its element: the greater element first, of equal ones the lower lane. -/
def topPlace (ty : Nat) (e : Nat × BitVec 32) : (ℤ ×ₗ ℚ ×ₗ ℕ)ᵒᵈ ×ₗ ℕ := toLex (OrderDual.toDual (topKey ty e.2), e.1)

theorem topPlace_lt {ty : Nat} {e e' : Nat × BitVec 32} : topPlace ty e < topPlace ty e'
    ↔ topKey ty e'.2 < topKey ty e.2 ∨ topKey ty e.2 = topKey ty e'.2 ∧ e.1 < e'.1 := by
  simp [topPlace, Prod.Lex.toLex_lt_toLex]

/-- What the order says of two candidates, the first before the second. -/
theorem topBelow_of_place {ty : Nat} {e e' : Nat × BitVec 32} (he : Selectable ty e.2) (he' : Selectable ty e'.2)
    (before : topPlace ty e < topPlace ty e') :
    topBelow ty e.2 e'.2 = false ∧ (topBelow ty e'.2 e.2 = false → e.1 < e'.1) := by
  rw [topBelow_eq he he', topBelow_eq he' he]
  rcases topPlace_lt.mp before with less | ⟨same, first⟩
  · simp [less, less.le]
  · simp [same, first]

/-! ### Insertion -/

/-- Candidates in the order of selection. -/
def Ranked (ty : Nat) (l : List (Nat × BitVec 32)) : Prop := l.Pairwise fun e e' => topPlace ty e < topPlace ty e'

theorem topInsert_perm (ty : Nat) (e : Nat × BitVec 32) (l : List (Nat × BitVec 32)) : (topInsert ty e l).Perm (e :: l) := by
  induction l with
  | nil => exact .refl _
  | cons h r ih =>
    rw [topInsert]
    split
    · exact .refl _
    · exact (ih.cons h).trans (.swap e h r)

/-- A candidate of a higher lane comes to its place. -/
theorem topInsert_ranked {ty : Nat} {e : Nat × BitVec 32} {l : List (Nat × BitVec 32)} (ranked : Ranked ty l)
    (able : Selectable ty e.2) (ables : ∀ h ∈ l, Selectable ty h.2) (last : ∀ h ∈ l, h.1 < e.1) :
    Ranked ty (topInsert ty e l) := by
  induction l with
  | nil => exact List.pairwise_singleton ..
  | cons h r ih =>
    obtain ⟨head, tail⟩ := List.pairwise_cons.mp ranked
    have order := topBelow_eq (ables h (by simp)) able
    rw [topInsert]
    split
    next less =>
      rw [order, decide_eq_true_iff] at less
      have first : topPlace ty e < topPlace ty h := topPlace_lt.mpr (.inl less)
      exact List.pairwise_cons.mpr ⟨List.forall_mem_cons.mpr ⟨first, fun h' member => first.trans (head h' member)⟩, ranked⟩
    next more =>
      rw [order, decide_eq_true_iff, not_lt] at more
      have after : topPlace ty h < topPlace ty e :=
        topPlace_lt.mpr (more.lt_or_eq.imp_right fun same => ⟨same.symm, last h (by simp)⟩)
      refine List.pairwise_cons.mpr ⟨fun h' member => ?_, ih tail (fun h' m => ables h' (by simp [m]))
        fun h' m => last h' (by simp [m])⟩
      rcases List.mem_cons.mp ((topInsert_perm ty e r).mem_iff.mp member) with rfl | member
      · exact after
      · exact head h' member

/-- Candidates inserted one after the other. -/
def topFold (ty : Nat) (l : List (Nat × BitVec 32)) (cand : List (Nat × BitVec 32)) : List (Nat × BitVec 32) :=
  cand.foldl (fun l e => topInsert ty e l) l

theorem topFold_perm (ty : Nat) (cand l : List (Nat × BitVec 32)) : (topFold ty l cand).Perm (cand ++ l) := by
  induction cand generalizing l with
  | nil => exact .refl _
  | cons e r ih => exact (ih _).trans (((topInsert_perm ty e l).append_left r).trans List.perm_middle)

/-- In rising lane order they come to be ranked. -/
theorem topFold_ranked {ty : Nat} (cand l : List (Nat × BitVec 32)) (ranked : Ranked ty l)
    (ables : ∀ h ∈ l, Selectable ty h.2) (ables' : ∀ e ∈ cand, Selectable ty e.2)
    (last : ∀ h ∈ l, ∀ e ∈ cand, h.1 < e.1) (rising : cand.Pairwise fun e e' => e.1 < e'.1) : Ranked ty (topFold ty l cand) := by
  induction cand generalizing l with
  | nil => exact ranked
  | cons e r ih =>
    obtain ⟨head, tail⟩ := List.pairwise_cons.mp rising
    have members : ∀ h ∈ topInsert ty e l, h = e ∨ h ∈ l := fun h member =>
      List.mem_cons.mp ((topInsert_perm ty e l).mem_iff.mp member)
    refine ih _ (topInsert_ranked ranked (ables' e (by simp)) ables fun h member => last h member e (by simp))
      (fun h member => ?_) (fun e' member => ables' e' (by simp [member])) (fun h member e' other => ?_) tail
    · rcases members h member with rfl | member
      · exact ables' h (by simp)
      · exact ables h member
    · rcases members h member with rfl | member
      · exact head e' other
      · exact last h member e' (by simp [other])

/-! ### The candidates of an instruction -/

section
variable (s : State) (x : FmtV)

/-- A lane that may be selected: present, and no NaN (R197). -/
def State.mayTake (i : Nat) : Bool :=
  s.laneOn x i && !(decide (x.ty.toNat < 3) && (elemF x.ty.toNat (s.laneA x i)).isNan)

/-- A lane with its element, as a candidate. -/
def State.candidate (i : Nat) : Nat × BitVec 32 := (i, s.laneA x i)

/-- The candidates in the order of their selection. -/
def State.ranking : List (Nat × BitVec 32) :=
  topFold x.ty.toNat [] (((List.range 64).filter (s.mayTake x)).map (s.candidate x))

/-- The lane of the candidate that is selected as number `i`. -/
def State.ranked (i : Nat) : Nat := ((s.ranking x).getD i (0, 0)).1

variable {s x}

theorem State.ranking_perm : (s.ranking x).Perm (((List.range 64).filter (s.mayTake x)).map (s.candidate x)) := by
  have perm := topFold_perm x.ty.toNat (((List.range 64).filter (s.mayTake x)).map (s.candidate x)) []
  rwa [List.append_nil] at perm

theorem State.ranking_length : (s.ranking x).length = ((List.range 64).filter (s.mayTake x)).length := by
  rw [State.ranking_perm.length_eq, List.length_map]

theorem State.mem_ranking {e : Nat × BitVec 32} :
    e ∈ s.ranking x ↔ ∃ i, i < 64 ∧ s.mayTake x i = true ∧ s.candidate x i = e := by
  rw [State.ranking_perm.mem_iff]
  simp [and_assoc]

theorem State.selectable_of_mayTake {i : Nat} (may : s.mayTake x i = true) : Selectable x.ty.toNat (s.laneA x i) := by
  intro float
  have no := (Bool.and_eq_true_iff.mp may).2
  simpa [float] using no

theorem State.ranking_ranked : Ranked x.ty.toNat (s.ranking x) := by
  refine topFold_ranked _ [] .nil (by simp) (fun e member => ?_) (by simp) ?_
  · obtain ⟨i, listed, rfl⟩ := List.mem_map.mp member
    exact State.selectable_of_mayTake (List.mem_filter.mp listed).2
  · exact List.pairwise_map.mpr ((List.pairwise_lt_range ..).filter _)

theorem State.ranking_getElem? {i : Nat} (h : i < ((List.range 64).filter (s.mayTake x)).length) :
    (s.ranking x)[i]? = some (s.candidate x (s.ranked x i)) ∧ s.ranked x i < 64 ∧ s.mayTake x (s.ranked x i) = true := by
  have inside : i < (s.ranking x).length := State.ranking_length ▸ h
  obtain ⟨j, lt, may, eq⟩ := State.mem_ranking.mp (List.getElem_mem inside)
  have at_ : s.ranked x i = j := by
    rw [State.ranked, List.getD_eq_getElem _ _ inside, ← eq]; rfl
  rw [List.getElem?_eq_getElem inside, at_, eq]
  exact ⟨rfl, lt, may⟩

/-- Of two selected candidates the first is the greater, or of the lower lane. -/
theorem State.ranked_lt {i j : Nat} (lt : i < j) (h : j < ((List.range 64).filter (s.mayTake x)).length) :
    topPlace x.ty.toNat (s.candidate x (s.ranked x i)) < topPlace x.ty.toNat (s.candidate x (s.ranked x j)) := by
  have first := (State.ranking_getElem? (lt.trans h)).1
  have second := (State.ranking_getElem? h).1
  obtain ⟨hi, ei⟩ := List.getElem?_eq_some_iff.mp first
  obtain ⟨hj, ej⟩ := List.getElem?_eq_some_iff.mp second
  rw [← ei, ← ej]
  exact List.pairwise_iff_getElem.mp State.ranking_ranked i j hi hj lt

/-- Every candidate is selected as some number. -/
theorem State.exists_ranked {j : Nat} (lt : j < 64) (may : s.mayTake x j = true) :
    ∃ i, i < ((List.range 64).filter (s.mayTake x)).length ∧ s.ranked x i = j := by
  obtain ⟨i, h, eq⟩ := List.getElem_of_mem (State.mem_ranking.mpr ⟨j, lt, may, rfl⟩)
  refine ⟨i, State.ranking_length ▸ h, ?_⟩
  rw [State.ranked, List.getD_eq_getElem _ _ h, eq]; rfl

end

/-! ### The instruction -/

/-- Lane `i` of VTOPK's result for `k` of the ranking `l`. -/
def topLane (ty k : Nat) (l : List (Nat × BitVec 32)) (i : Nat) : BitVec 32 :=
  if i < k then
    match (l.take k)[i]? with
    | some e => normLane ty e.2
    | none => if isF ty then laneF ty 0 0 .nan else 0
  else if 32 ≤ i ∧ i < 32 + k then
    match (l.take k)[i - 32]? with
    | some e => BitVec.ofNat 32 e.1
    | none => 0xFFFFFFFF
  else 0

theorem topLane_zero {ty k i : Nat} (l : List (Nat × BitVec 32)) (h : (k ≤ i ∧ i < 32) ∨ 32 + k ≤ i) : topLane ty k l i = 0 := by
  rw [topLane, if_neg (by omega), if_neg (by omega)]

theorem topLane_selected {ty k i : Nat} {l : List (Nat × BitVec 32)} (le : k ≤ 32) (h : i < k) {e : Nat × BitVec 32}
    (there : l[i]? = some e) : topLane ty k l i = normLane ty e.2 ∧ topLane ty k l (32 + i) = BitVec.ofNat 32 e.1 := by
  have taken : (l.take k)[i]? = some e := by rw [List.getElem?_take_of_lt h, there]
  constructor
  · rw [topLane, if_pos h, taken]
  · rw [topLane, if_neg (show ¬ 32 + i < k by omega), if_pos (show 32 ≤ 32 + i ∧ 32 + i < 32 + k by omega),
      Nat.add_sub_cancel_left, taken]

theorem topLane_unfilled {ty k i : Nat} {l : List (Nat × BitVec 32)} (le : k ≤ 32) (h : i < k) (none_ : l.length ≤ i) :
    topLane ty k l i = (if isF ty then laneF ty 0 0 .nan else 0) ∧ topLane ty k l (32 + i) = 0xFFFFFFFF := by
  have taken : (l.take k)[i]? = none := by rw [List.getElem?_take_of_lt h, List.getElem?_eq_none none_]
  constructor
  · rw [topLane, if_pos h, taken]
  · rw [topLane, if_neg (show ¬ 32 + i < k by omega), if_pos (show 32 ≤ 32 + i ∧ 32 + i < 32 + k by omega),
      Nat.add_sub_cancel_left, taken]

/-- VTOPK's result. -/
def topResult (s : State) (x : FmtV) : Pending where
  reg := x.vd.toNat
  due := 8 * (s.me.turn + 5)
  value := ofLanes ((List.range 64).map (topLane x.ty.toNat (fld x.op 0 5 + 1) (s.ranking x)))
  keep := BitVec.allOnes 2048

theorem exec_vtopk {s : State} {x : FmtV} (can : s.canV1 x) : exec (.vtopk x) s =
    (s.started.modThread fun b => { b with pend := b.pend ++ [topResult s x] }).goesOn x.e x.w := by
  have kept := State.keeps3_started can.1
  have may : ((List.range 64).filter fun i => (s.sources x true false false).m.getLsbD i
      && !(isF x.ty.toNat && (elemF x.ty.toNat ((s.sources x true false false).la i)).isNan))
      = (List.range 64).filter (s.mayTake x) :=
    List.filter_congr fun i member => by
      rw [s.sources_m, s.enabling_bit x (List.mem_range.mp member), s.sources_la]; rfl
  refine State.instr_ok can.1 x.e x.w ?_
  rw [M.bind_apply, vin_one can]
  simp only [may, result, M.bind_apply, core_apply, modThread_apply, kept.turn]
  rfl

end Sys2Proof.Machine
end

section
/-! VSCAN and VTOPK (R168, R195, R197): the theorem that settles O17, and SUPPORT for it. -/

namespace Sys2Proof.Machine

section
variable {s : State} {x : FmtV}

/-! ### The lanes of VSCAN -/

/-- The lane that VSCAN writes. -/
def State.scanLaneOf (s : State) (x : FmtV) (i : Nat) : BitVec 32 :=
  normLane x.ty.toNat ((scanned x.ty.toNat (fld x.op 0 2) (s.thread.mode x.rnd.toNat) (s.sources x true false false)
    (s.scanDrawn x).1).getD i 0)

theorem scanned_add_int (int : ¬ x.ty.toNat < 3) (adds : fld x.op 0 2 = 0) {i : Nat} (h : i < 64) (on : s.laneOn x i = true) :
    (2 ^ intW x.ty.toNat : Int) ∣ elemI x.ty.toNat (s.scanLaneOf x i) - ((s.lanesUpTo x i).map (elemI x.ty.toNat)).sum := by
  obtain ⟨v, r, split, out⟩ := scanLane_present (fun p q => laneI x.ty.toNat (elemI x.ty.toNat p + elemI x.ty.toNat q)) h on
  have kind : isF x.ty.toNat = false := decide_eq_false int
  rw [State.scanLaneOf, elemI_normLane int, scanned, if_pos adds, kind, if_neg Bool.false_ne_true, split]
  exact out ▸ foldl_sum_dvd ..

/-- A scan that is no add keeps the running choice. -/
theorem scanned_choice (other : fld x.op 0 2 ≠ 0) {i : Nat} (h : i < 64) (on : s.laneOn x i = true) :
    ∃ v r, s.lanesUpTo x i = v :: r
      ∧ s.scanLaneOf x i = normLane x.ty.toNat (r.foldl (minmaxLane x.ty.toNat (fld x.op 0 2 == 1)) v) := by
  obtain ⟨v, r, split, out⟩ := scanLane_present (minmaxLane x.ty.toNat (fld x.op 0 2 == 1)) h on
  refine ⟨v, r, split, ?_⟩
  rw [State.scanLaneOf, scanned, if_neg other]
  exact congrArg _ out

theorem scanned_int (int : ¬ x.ty.toNat < 3) (other : fld x.op 0 2 ≠ 0) {i : Nat} (h : i < 64) (on : s.laneOn x i = true) :
    ∃ v r, (s.lanesUpTo x i).map (elemI x.ty.toNat) = v :: r ∧ elemI x.ty.toNat (s.scanLaneOf x i)
      = r.foldl (fun a b => if decide (a < b) == (fld x.op 0 2 == 1) then b else a) v := by
  obtain ⟨v, r, split, out⟩ := scanned_choice other h on
  refine ⟨_, _, by rw [split, List.map_cons], ?_⟩
  rw [out, elemI_normLane int]
  exact foldl_elem (elemI_minmaxLane int _) r v

theorem scanned_float (float : x.ty.toNat < 3) (other : fld x.op 0 2 ≠ 0) {i : Nat} (h : i < 64) (on : s.laneOn x i = true) :
    ∃ v r, (s.lanesUpTo x i).map (elemF x.ty.toNat) = v :: r
      ∧ elemF x.ty.toNat (s.scanLaneOf x i) = r.foldl (FV.chosen (fld x.op 0 2 == 1)) v := by
  obtain ⟨v, r, split, out⟩ := scanned_choice other h on
  refine ⟨_, _, by rw [split, List.map_cons], ?_⟩
  rw [out, elemF_normLane float]
  exact foldl_elem (elemF_minmaxLane float _) r v

/-- What a floating maximum or minimum scan comes to. -/
theorem scanned_float_extremum (float : x.ty.toNat < 3) (other : fld x.op 0 2 ≠ 0) {i : Nat} (h : i < 64)
    (on : s.laneOn x i = true) :
    let vs := (s.lanesUpTo x i).map (elemF x.ty.toNat)
    ((∃ v ∈ vs, v.isNan = true) → elemF x.ty.toNat (s.scanLaneOf x i) = .nan)
      ∧ ((∀ v ∈ vs, v.isNan = false) → elemF x.ty.toNat (s.scanLaneOf x i) ∈ vs
        ∧ ∀ v ∈ vs, v.beats (fld x.op 0 2 == 1) (elemF x.ty.toNat (s.scanLaneOf x i)) = false) := by
  intro vs
  have proper : ∀ v ∈ vs, v.Proper := fun v member => by
    obtain ⟨l, _, rfl⟩ := List.mem_map.mp member
    exact elemF_proper ..
  obtain ⟨v, r, split, out⟩ := scanned_float float other h on
  change vs = v :: r at split
  rw [split] at proper ⊢
  refine ⟨fun nan => out.trans (foldl_chosen_nan _ r nan), fun nums => ?_⟩
  rw [out, foldl_chosen_numbers _ r nums]
  exact foldl_beats _ fun a member => ⟨proper a member, nums a member⟩

/-- A floating add scan: the lane of present lane number `m`. -/
theorem scanned_add_float (float : x.ty.toNat < 3) (adds : fld x.op 0 2 = 0) :
    let ty := x.ty.toNat
    let md := s.thread.mode x.rnd.toNat
    let ps := (List.range 64).filter (s.laneOn x)
    let rs := (s.scanDrawn x).1
    let e (j : Nat) : FV := elemF ty (s.laneA x j)
    let sum := runningSum ty md e ps rs
    (∀ j, ps[0]? = some j → sum 0 = e j)
      ∧ (∀ m j, ps[m + 1]? = some j →
          sum (m + 1) = f32 (toF32 md (rs.getD (if ty = 0 then m else 2 * m + 1) 0) ((sum m).add (e j))))
      ∧ ∀ m j, ps[m]? = some j → elemF ty (s.scanLaneOf x j) =
          if ty = 0 then sum m else elemF ty (laneF ty md (rs.getD (2 * m) 0) (sum m)) := by
  intro ty md ps rs e sum
  have at_ {m j : Nat} (place : ps[m]? = some j) : ps.getD m 0 = j := by simp [List.getD_eq_getElem?_getD, place]
  have first (j : Nat) (place : ps[0]? = some j) : sum 0 = e j := by
    show e (ps.getD 0 0) = e j
    rw [at_ place]
  have next (m j : Nat) (place : ps[m + 1]? = some j) :
      sum (m + 1) = f32 (toF32 md (rs.getD (if ty = 0 then m else 2 * m + 1) 0) ((sum m).add (e j))) := by
    show f32 (toF32 md _ ((sum m).add (e (ps.getD (m + 1) 0)))) = _
    rw [at_ place]
  refine ⟨first, next, fun m j place => ?_⟩
  have steps (t j : Nat) (place : ps[t]? = some j) : SumStep ty md sum rs (e j) t := by
    cases t with
    | zero => exact first j place
    | succ t => exact next t j place
  have present : (List.range' 0 64).filter (s.enabling x).getLsbD = ps := by
    rw [← List.range_eq_range']
    exact s.filter_enabling x
  have out := scanAddF_getD (ty := ty) (mode := md) (a := s.vreg x.va.toNat) (m := s.enabling x) (S := sum) (rs0 := rs)
    64 0 0 none rs ⟨rfl, rfl⟩ (by
      rw [present]
      intro t j place
      rw [Nat.zero_add]
      exact steps t j place) m j (by rw [present]; exact place)
  rw [← List.range_eq_range', Nat.sub_zero, Nat.zero_add] at out
  have kind : isF x.ty.toNat = true := decide_eq_true float
  have lane_ : s.scanLaneOf x j = normLane ty (sumLane ty md rs m (sum m)) := by
    rw [State.scanLaneOf, scanned, if_pos adds, if_pos kind]
    exact congrArg _ out
  rw [lane_, elemF_normLane float, sumLane]
  split
  next single =>
    obtain ⟨w, word⟩ : ∃ w, sum m = elemF 0 w := by
      cases m with
      | zero => exact ⟨s.laneA x j, (first j place).trans (congrArg (elemF · _) single)⟩
      | succ m => exact ⟨_, next m j place⟩
    rw [word, show x.ty.toNat = 0 from single]
    exact elemF_laneF 0 w
  next => rfl

/-! ### The lanes of VTOPK -/

theorem topCount_le (x : FmtV) : fld x.op 0 5 + 1 ≤ 32 := (x.op.extractLsb' 0 5).isLt

theorem topResult_selected {i : Nat} (lt : i < fld x.op 0 5 + 1) (h : i < ((List.range 64).filter (s.mayTake x)).length) :
    lane (topResult s x).value i = normLane x.ty.toNat (s.laneA x (s.ranked x i))
      ∧ (lane (topResult s x).value (32 + i)).toNat = s.ranked x i := by
  have le := topCount_le x
  obtain ⟨there, inside, -⟩ := State.ranking_getElem? h
  obtain ⟨value, number⟩ := topLane_selected (ty := x.ty.toNat) le lt there
  refine ⟨(lane_ofLanes_map _ (by omega)).trans value, ?_⟩
  rw [show lane (topResult s x).value (32 + i) = _ from (lane_ofLanes_map _ (by omega)).trans number, BitVec.toNat_ofNat]
  exact Nat.mod_eq_of_lt (inside.trans (by decide))

theorem topResult_unfilled {i : Nat} (lt : i < fld x.op 0 5 + 1) (none_ : ((List.range 64).filter (s.mayTake x)).length ≤ i) :
    lane (topResult s x).value i = (if isF x.ty.toNat then laneF x.ty.toNat 0 0 .nan else 0)
      ∧ lane (topResult s x).value (32 + i) = 0xFFFFFFFF := by
  have le := topCount_le x
  obtain ⟨value, number⟩ := topLane_unfilled (ty := x.ty.toNat) le lt (State.ranking_length.trans_le none_)
  exact ⟨(lane_ofLanes_map _ (by omega)).trans value, (lane_ofLanes_map _ (by omega)).trans number⟩

/-- Two selected lanes: the second is not above the first, and where the first is not above it either it is the higher lane. -/
theorem State.ranked_order {i j : Nat} (lt : i < j) (h : j < ((List.range 64).filter (s.mayTake x)).length) :
    s.ranked x i ≠ s.ranked x j
      ∧ topBelow x.ty.toNat (s.laneA x (s.ranked x i)) (s.laneA x (s.ranked x j)) = false
      ∧ (topBelow x.ty.toNat (s.laneA x (s.ranked x j)) (s.laneA x (s.ranked x i)) = false → s.ranked x i < s.ranked x j) := by
  have order := State.ranked_lt lt h
  obtain ⟨-, -, may⟩ := State.ranking_getElem? (lt.trans h)
  obtain ⟨-, -, may'⟩ := State.ranking_getElem? h
  generalize s.ranked x i = p at order may ⊢
  generalize s.ranked x j = q at order may' ⊢
  refine ⟨fun same => absurd order (by rw [same]; exact lt_irrefl _), ?_⟩
  exact topBelow_of_place (e := s.candidate x p) (e' := s.candidate x q) (State.selectable_of_mayTake may)
    (State.selectable_of_mayTake may') order

end

/-- Settles O17: each lane of VSCAN by the lemma for its function and type, and the lanes of VTOPK by the ranking. -/
theorem vectorScanAndSelect : Obligations.VectorScanAndSelect := by
  unfold Obligations.VectorScanAndSelect
  intro x s can ty upTo fn here md k below eF eI
  have upTo_eq (i : Nat) : upTo i = (s.lanesUpTo x i).map (elemI ty) := by
    rw [State.lanesUpTo, List.map_map]; rfl
  have eF_eq (i : Nat) : ((List.range (i + 1)).filter (s.laneOn x)).map eF = (s.lanesUpTo x i).map (elemF ty) := by
    rw [State.lanesUpTo, List.map_map]; rfl
  have choice {m : Nat} (is : fn = m) (pos : m ≠ 0) : fld x.op 0 2 ≠ 0 := fun zero => pos (is.symm.trans zero)
  refine ⟨⟨s.scanLaneOf x, ?_, fun int _ i h on => ?_, fun float adds => ?_, fun float other i h on => ?_⟩, topResult s x, rfl, rfl,
    rfl, exec_vtopk can, ?_, ?_⟩
  case refine_1 =>
    have state : (s.scanDrawn x).2 = if fn = 0 ∧ ty < 3 then
        (s.started.drawn md (if ty = 0 then here - 1 else if here = 0 then 0 else 2 * here - 1)).2 else s.started := by
      unfold State.scanDrawn
      exact apply_ite Prod.snd ..
    rw [← state]
    exact exec_vscan can
  case refine_2 =>
    rw [upTo_eq]
    refine ⟨fun adds => scanned_add_int (by omega) adds h on, fun greatest => ?_, fun least => ?_⟩
    · obtain ⟨v, r, split, out⟩ := scanned_int (by omega) (choice greatest (by decide)) h on
      rw [split, out, show fld x.op 0 2 = 1 from greatest]
      exact foldl_greatest v r
    · obtain ⟨v, r, split, out⟩ := scanned_int (by omega) (choice least (by decide)) h on
      rw [split, out, show fld x.op 0 2 = 2 from least]
      exact foldl_least v r
  case refine_3 =>
    intro ps rs
    have draws : (s.scanDrawn x).1 = rs := by
      unfold State.scanDrawn
      rw [if_pos ⟨adds, float⟩]
      rfl
    rw [← draws]
    exact ⟨_, scanned_add_float float adds⟩
  case refine_4 =>
    have other' : fld x.op 0 2 ≠ 0 := other.elim (choice · (by decide)) (choice · (by decide))
    obtain ⟨nan, nums⟩ := scanned_float_extremum float other' h on
    rw [eF_eq]
    refine ⟨nan, fun all => ⟨(nums all).1, fun v member => ⟨fun greatest => ?_, fun least => ?_⟩⟩⟩
    · have best := (nums all).2 v member
      rwa [show fld x.op 0 2 = 1 from greatest] at best
    · have best := (nums all).2 v member
      rwa [show fld x.op 0 2 = 2 from least] at best
  case refine_5 =>
    intro i h out
    exact (lane_ofLanes_map _ h).trans (topLane_zero _ out)
  case refine_6 =>
    intro kinds float above mayTake n at_
    refine ⟨fun i lt h => ?_, fun i lt none_ => topResult_unfilled lt none_, fun i j lt ltk h => ?_, fun j lt may => ?_⟩
    · obtain ⟨value, number⟩ := topResult_selected lt h
      obtain ⟨-, inside, may⟩ := State.ranking_getElem? h
      rw [show at_ i = s.ranked x i from number]
      refine ⟨inside, may, fun isFloat => ?_, fun isInt => ?_⟩
      · rw [value]
        exact elemF_normLane (of_decide_eq_true isFloat) _
      · rw [value]
        exact elemI_normLane (of_decide_eq_false isInt) _
    · rw [show at_ i = s.ranked x i from (topResult_selected (lt.trans ltk) (lt.trans h)).2,
        show at_ j = s.ranked x j from (topResult_selected ltk h).2]
      exact State.ranked_order lt h
    · obtain ⟨t, h, rfl⟩ := State.exists_ranked lt may
      by_cases ltk : t < k
      · exact .inl ⟨t, ltk, h, (topResult_selected ltk h).2⟩
      · refine .inr fun i lti hi => ?_
        rw [show at_ i = s.ranked x i from (topResult_selected lti hi).2]
        exact (State.ranked_order (by omega) h).2

end Sys2Proof.Machine
end

section
/-! SUPPORT. Values that a format holds (R155, R156, R162, R163): they round to themselves in every mode, and a finite value of
bf16 or f16 is one of f32. -/

namespace Sys2Proof.Machine

/-! ### The sign of a value's bits -/

/-- The value with another sign. -/
def FV.withSign (s : Bool) : FV → FV
  | .nan => .nan
  | .inf _ => .inf s
  | .fin _ n d => .fin s n d

theorem dyadic_withSign (s neg : Bool) (n : Nat) (k : Int) : (dyadic neg n k).withSign s = dyadic s n k := by
  unfold dyadic; split <;> rfl

section
variable (f : Fmt)

theorem Fmt.signBit_eq (hp : 1 ≤ f.p) : f.signBit = 2 ^ (f.p - 1) * 2 ^ f.e := by
  rw [Fmt.signBit, ← pow_add]; congr 1; omega

/-- The bits below the sign hold the magnitude. -/
theorem ofBits_withSign (hp : 1 ≤ f.p) (b : Nat) :
    FV.ofBits f b = (FV.ofBits f (b % f.signBit)).withSign (b / f.signBit % 2 == 1) := by
  have exponent : b % f.signBit / 2 ^ (f.p - 1) % 2 ^ f.e = b / 2 ^ (f.p - 1) % 2 ^ f.e := by
    rw [f.signBit_eq hp, Nat.mod_mul_right_div_self, Nat.mod_mod]
  have fraction : b % f.signBit % 2 ^ (f.p - 1) = b % 2 ^ (f.p - 1) := by
    rw [f.signBit_eq hp, Nat.mod_mul_right_mod]
  unfold FV.ofBits
  simp only [exponent, fraction]
  split
  · split <;> rfl
  · split <;> rw [dyadic_withSign]

theorem ofBits_signed (hp : 1 ≤ f.p) (s : Bool) {c : Nat} (h : c < f.signBit) :
    FV.ofBits f ((if s then f.signBit else 0) + c) = (FV.ofBits f c).withSign s := by
  have pos : 0 < f.signBit := Nat.two_pow_pos _
  rw [ofBits_withSign f hp]
  cases s
  · simp [Nat.mod_eq_of_lt h, Nat.div_eq_of_lt h]
  · simp [Nat.mod_eq_of_lt h, Nat.div_eq_of_lt h, pos]

theorem Fmt.infBits_lt (hp : 1 ≤ f.p) : f.infBits < f.signBit := by
  rw [f.signBit_eq hp, Fmt.infBits, mul_comm]
  exact Nat.mul_lt_mul_of_pos_left (Nat.sub_lt (Nat.two_pow_pos _) Nat.one_pos) (Nat.two_pow_pos _)

/-- The bits of a magnitude below the infinity are those of a finite value. -/
theorem ofBits_finite (hp : 1 ≤ f.p) {c : Nat} (h : c < f.infBits) :
    ∃ n d, FV.ofBits f c = .fin false n d ∧ 0 < d ∧ (n : ℚ) / d = f.mag c := by
  have whole : 1 ≤ 2 ^ f.e := Nat.one_le_two_pow
  have small : c / 2 ^ (f.p - 1) < 2 ^ f.e - 1 := Nat.div_lt_of_lt_mul (by rw [mul_comm]; exact h)
  have sign : c / f.signBit = 0 := Nat.div_eq_of_lt (h.trans (f.infBits_lt hp))
  obtain ⟨m, k, value⟩ : ∃ m k, FV.ofBits f c = dyadic false m k := by
    unfold FV.ofBits
    rw [sign, Nat.mod_eq_of_lt (a := c / 2 ^ (f.p - 1)) (by omega), if_neg (by omega)]
    split <;> exact ⟨_, _, rfl⟩
  have proper := dyadic_proper false m k
  rw [dyadic_eq] at value proper
  refine ⟨_, _, value, proper, ?_⟩
  rw [Fmt.mag, value, FV.rat]
  simp

/-- And those of a finite value are below it. -/
theorem lt_infBits_of_ofBits (hp : 1 ≤ f.p) {c n d : Nat} {s : Bool} (below : c < f.signBit) (h : FV.ofBits f c = .fin s n d) :
    c < f.infBits := by
  by_contra high
  have whole : 1 ≤ 2 ^ f.e := Nat.one_le_two_pow
  have least : 2 ^ f.e - 1 ≤ c / 2 ^ (f.p - 1) := (Nat.le_div_iff_mul_le (Nat.two_pow_pos _)).mpr (not_lt.mp high)
  have most : c / 2 ^ (f.p - 1) < 2 ^ f.e := Nat.div_lt_of_lt_mul (by rwa [← f.signBit_eq hp])
  have top : c / 2 ^ (f.p - 1) % 2 ^ f.e = 2 ^ f.e - 1 := by rw [Nat.mod_eq_of_lt most]; omega
  unfold FV.ofBits at h
  rw [if_pos top] at h
  split at h <;> cases h

/-- A finite value of a format is a magnitude of it with its sign. -/
theorem mag_of_ofBits (hp : 1 ≤ f.p) {b n d : Nat} {s : Bool} (h : FV.ofBits f b = .fin s n d) :
    ∃ c, c < f.infBits ∧ f.mag c = n / d := by
  have inside : b % f.signBit < f.signBit := Nat.mod_lt _ (Nat.two_pow_pos _)
  rw [ofBits_withSign f hp] at h
  cases same : FV.ofBits f (b % f.signBit) with
  | nan => rw [same] at h; cases h
  | inf t => rw [same] at h; cases h
  | fin t n' d' =>
    rw [same] at h
    cases h
    have low := lt_infBits_of_ofBits f hp inside same
    obtain ⟨n', d', eq, -, value⟩ := ofBits_finite f hp low
    rw [same] at eq
    cases eq
    exact ⟨_, low, value.symm⟩

end

/-! ### Rounding what a format holds -/

section
variable (f : Fmt) (hp : 2 ≤ f.p)
include hp

theorem Fmt.mag_injective {b c : Nat} (hb : b < f.infBits) (hc : c < f.infBits) (same : f.mag b = f.mag c) : b = c := by
  rcases Nat.lt_trichotomy b c with less | eq | more
  · exact absurd same (f.mag_lt b c hp hc less).ne
  · exact eq
  · exact absurd same (f.mag_lt c b hp hb more).ne'

theorem Fmt.eq_of_below {b c : Nat} (hc : c < f.infBits) (h : f.below (f.mag c) b) : b = c := by
  obtain ⟨hb, le, best⟩ := h
  exact f.mag_injective hp hb hc (le_antisymm le (best c hc le_rfl))

/-- Only its own bits stand for a magnitude of the format, whatever the mode. -/
theorem RoundsTo.eq_of_mag {mode r b c : Nat} (he : 2 ≤ f.e) (draw : r < 65536) (hc : c < f.infBits)
    (h : RoundsTo f mode r (f.mag c) b) : b = c := by
  match mode with
  | 0 =>
    obtain ⟨jm, inf, -, step⟩ := f.top_enc hp he
    have two : 2 ≤ f.infBits := inf ▸ Nat.mul_le_mul (show 2 ≤ jm + 2 by omega) Nat.one_le_two_pow
    have top := f.mag_le c (f.infBits - 1) hp (by omega) (by omega)
    have gap := f.mag_lt (f.infBits - 2) (f.infBits - 1) hp (by omega) (by omega)
    have nearest : b < f.infBits ∧ ∀ c', c' < f.infBits → c' ≠ b → |f.mag c - f.mag b| < |f.mag c - f.mag c'|
        ∨ (|f.mag c - f.mag b| = |f.mag c - f.mag c'| ∧ b % 2 = 0) := by
      rwa [RoundsTo, if_neg (by linarith)] at h
    by_contra other
    have zero : |f.mag c - f.mag b| ≤ 0 := by
      rcases nearest.2 c hc (Ne.symm other) with less | ⟨same, -⟩
      · rw [sub_self, abs_zero] at less
        exact less.le
      · rw [same, sub_self, abs_zero]
    exact other (f.mag_injective hp nearest.1 hc (sub_eq_zero.mp (abs_nonpos_iff.mp zero)).symm)
  | 1 => exact f.eq_of_below hp hc h
  | mode + 2 =>
    obtain ⟨z, below, rounded⟩ := h
    obtain rfl := f.eq_of_below hp hc below
    rw [rounded, if_neg]
    rintro ⟨inside, reached⟩
    have gap := f.mag_lt_succ z hp inside
    have part : (r : ℚ) / 65536 < 1 := by rw [div_lt_one (by norm_num)]; exact_mod_cast draw
    nlinarith

omit hp in
/-- A mode that the machine does not number rounds as toward zero. -/
theorem roundMag_of_large {mode : Nat} (large : 3 ≤ mode) (r n d : Nat) : roundMag f mode r n d = roundMag f 1 r n d := by
  have same (n d : Nat) : roundNat mode r n d = roundNat 1 r n d := by
    simp [roundNat, show mode ≠ 0 by omega, show mode ≠ 2 by omega]
  simp [roundMag, same, show mode ≠ 0 by omega]

/-- A magnitude of the format rounds to its own bits. -/
theorem roundMag_of_mag (he : 2 ≤ f.e) (mode : Nat) {r n d c : Nat} (draw : r < 65536) (hd : 0 < d) (hc : c < f.infBits)
    (value : f.mag c = n / d) : roundMag f mode r n d = c := by
  have usual {mode : Nat} (lt : mode < 3) : roundMag f mode r n d = c :=
    RoundsTo.eq_of_mag f hp he draw hc (value ▸ roundMag_rounds f mode r n d hp he lt draw hd)
  by_cases lt : mode < 3
  · exact usual lt
  · rw [roundMag_of_large f (by omega)]
    exact usual (by decide)

/-- So in every mode reading a number and rounding it gives the bits back. -/
theorem round_ofBits_mode (he : 2 ≤ f.e) (mode : Nat) {r : Nat} (draw : r < 65536) (b : Nat) (num : FV.ofBits f b ≠ .nan) :
    (FV.ofBits f b).round f mode r = b % 2 ^ (f.e + f.p) := by
  rw [← round_ofBits f (by omega) (by omega) b num]
  cases value : FV.ofBits f b with
  | nan => rfl
  | inf s => rfl
  | fin s n d =>
    have pos : 0 < d := by
      have proper := ofBits_proper f b
      rwa [value] at proper
    obtain ⟨c, hc, mag⟩ := mag_of_ofBits f (by omega) value
    rw [FV.round, FV.round, roundMag_of_mag f hp he mode draw pos hc mag, roundMag_of_mag f hp he 0 (by decide) pos hc mag]

end

end Sys2Proof.Machine
end

section
/-! SUPPORT. Conversions between types (R156, R157, R190): the lane that VCVT writes, one lemma for each pair of families. -/

namespace Sys2Proof.Machine

/-! ### To an integer type (R157) -/

/-- The lane of an integer type is filled above its element (R172). -/
theorem laneI_filled (ty : Nat) (v : Int) : laneI ty v = if intSigned ty then
    ((laneI ty v).setWidth (intW ty)).signExtend 32 else ((laneI ty v).setWidth (intW ty)).setWidth 32 := by
  rw [setWidth_laneI]; rfl

theorem range_zero (ty : Nat) : intLo ty ≤ 0 ∧ 0 ≤ intHi ty := by
  unfold intLo intHi
  have half : (0 : Int) < 2 ^ (intW ty - 1) := by positivity
  have whole : (0 : Int) < 2 ^ intW ty := by positivity
  constructor <;> split <;> push_cast <;> omega

/-- An element of a narrower integer type, extended as that type says. -/
theorem ofInt_elemI (w ty : Nat) (a : BitVec 32) : BitVec.ofInt w (elemI ty a) =
    if intSigned ty then (a.setWidth (intW ty)).signExtend w else (a.setWidth (intW ty)).setWidth w := by
  unfold elemI
  rw [BitVec.ofNat_toNat]
  dsimp only
  split
  · rfl
  · rw [BitVec.ofInt_natCast, BitVec.ofNat_toNat]

/-! ### To a floating type (R156) -/

theorem fmtOf_fits (ty : Nat) : (fmtOf ty).e + (fmtOf ty).p ≤ 32 := by
  unfold fmtOf
  split
  · decide
  · split <;> decide

/-- The bits of a finite magnitude with a sign are read as a finite value of that sign. -/
theorem elemF_signed (ty : Nat) (s : Bool) {c : Nat} (h : c < (fmtOf ty).infBits) : ∃ n d,
    elemF ty (BitVec.ofNat 32 ((if s then (fmtOf ty).signBit else 0) + c)) = .fin s n d ∧ 0 < d ∧ (n : ℚ) / d = (fmtOf ty).mag c := by
  obtain ⟨p, e⟩ := fmtOf_wide ty
  have inside := h.trans ((fmtOf ty).infBits_lt (by omega))
  obtain ⟨n, d, value, pos, mag⟩ := ofBits_finite (fmtOf ty) (by omega) h
  refine ⟨n, d, ?_, pos, mag⟩
  have fits : (if s then (fmtOf ty).signBit else 0) + c < 2 ^ 32 := by
    have double : 2 * (fmtOf ty).signBit = 2 ^ ((fmtOf ty).e + (fmtOf ty).p) := by
      rw [Fmt.signBit, ← pow_succ']; congr 1; omega
    have whole : 2 ^ ((fmtOf ty).e + (fmtOf ty).p) ≤ 2 ^ 32 := Nat.pow_le_pow_right (by decide) (fmtOf_fits ty)
    split <;> omega
  rw [elemF, BitVec.toNat_ofNat, Nat.mod_eq_of_lt fits, ofBits_signed _ (by omega) s inside, value]
  rfl

theorem roundMag_lt_infBits (f : Fmt) (hp : 2 ≤ f.p) (he : 2 ≤ f.e) {mode : Nat} (away : mode ≠ 0) (r n d : Nat) :
    roundMag f mode r n d < f.infBits := by
  obtain ⟨jm, inf, -, -⟩ := f.top_enc hp he
  have pos : 0 < f.infBits := inf ▸ Nat.mul_pos (by omega) (Nat.two_pow_pos _)
  have capped (b : Nat) : (if f.infBits ≤ b then f.infBits - 1 else b) < f.infBits := by split <;> omega
  unfold roundMag
  split
  · exact pos
  · exact capped _

/-- A finite value that is rounded toward zero or stochastically stays finite. -/
theorem laneF_finite (ty : Nat) {mode : Nat} (away : mode ≠ 0) (r : Nat) (s : Bool) (n d : Nat) :
    ∃ n' d', elemF ty (laneF ty mode r (.fin s n d)) = .fin s n' d' := by
  obtain ⟨p, e⟩ := fmtOf_wide ty
  obtain ⟨n', d', value, -⟩ := elemF_signed ty s (roundMag_lt_infBits (fmtOf ty) p e away r n d)
  exact ⟨n', d', value⟩

/-- A number of a type that is converted to the type itself is copied. -/
theorem laneF_elemF {ty : Nat} (mode : Nat) (a : BitVec 32) (num : (elemF ty a).isNan = false) :
    laneF ty mode 0 (elemF ty a) = if ty = 0 then a else (a.setWidth 16).setWidth 32 := by
  obtain ⟨p, e⟩ := fmtOf_wide ty
  have back := round_ofBits_mode (fmtOf ty) p e mode (by decide : 0 < 65536) a.toNat (by simpa [FV.isNan, elemF] using num)
  rw [laneF, elemF, back]
  refine BitVec.eq_of_toNat_eq ?_
  split
  next f32 =>
    subst f32
    have whole : 2 ^ ((fmtOf 0).e + (fmtOf 0).p) = 2 ^ 32 := rfl
    rw [whole, BitVec.toNat_ofNat, Nat.mod_mod, Nat.mod_eq_of_lt a.isLt]
  next narrow =>
    have half : 2 ^ ((fmtOf ty).e + (fmtOf ty).p) = 2 ^ 16 := by
      rw [fmtOf, if_neg narrow]; split <;> rfl
    rw [half, BitVec.toNat_ofNat, BitVec.toNat_setWidth, BitVec.toNat_setWidth]

/-! ### To f32 from a narrower type (R156) -/

/-- A finite value as a number of at most `p` bits with the exponent of its spacing. -/
theorem scaled_of_ofBits (f : Fmt) (hp : 2 ≤ f.p) {b n d : Nat} {s : Bool} (h : FV.ofBits f b = .fin s n d) :
    ∃ q j : Nat, q < 2 * 2 ^ (f.p - 1) ∧ j + 3 ≤ max 3 (2 ^ f.e) ∧ (n : ℚ) / d = q * 2 ^ (f.emin + j) := by
  obtain ⟨c, hc, mag⟩ := mag_of_ofBits f (by omega) h
  obtain ⟨j, q, lt, low, rfl⟩ := f.exists_enc c
  refine ⟨q, j, lt, ?_, by rw [← mag, f.mag_enc j q hp lt.le low hc]⟩
  by_cases small : q < 2 ^ (f.p - 1)
  · have := low small
    omega
  · have steps : (j + 1) * 2 ^ (f.p - 1) < (2 ^ f.e - 1) * 2 ^ (f.p - 1) := by
      refine lt_of_le_of_lt ?_ hc
      rw [Fmt.enc, if_neg small]
      exact Nat.le_add_right ..
    have := Nat.lt_of_mul_lt_mul_right steps
    omega

/-- The formats lie within f32. -/
theorem fmtOf_within (ty : Nat) : (fmtOf ty).p ≤ 24 ∧ -149 ≤ (fmtOf ty).emin
    ∧ (fmtOf ty).p + (fmtOf ty).emin + (max 3 (2 ^ (fmtOf ty).e) : Nat) ≤ 131 := by
  unfold fmtOf
  split
  · decide
  · split <;> decide

/-- A finite value of a type is a magnitude of f32. -/
theorem f32_mag_of_ofBits {ty b n d : Nat} {s : Bool} (h : FV.ofBits (fmtOf ty) b = .fin s n d) :
    ∃ c, c < fmtF32.infBits ∧ fmtF32.mag c = n / d := by
  obtain ⟨p, -⟩ := fmtOf_wide ty
  obtain ⟨bits, least, most⟩ := fmtOf_within ty
  obtain ⟨q, j, hq, hj, value⟩ := scaled_of_ofBits (fmtOf ty) p h
  have width : 2 * 2 ^ ((fmtOf ty).p - 1) = 2 ^ (fmtOf ty).p := by rw [← pow_succ', Nat.sub_add_cancel (by omega)]
  rw [width] at hq
  have short : q ≤ 2 ^ 24 := hq.le.trans (Nat.pow_le_pow_right (by decide) bits)
  have bounded : (q : ℚ) * 2 ^ ((fmtOf ty).emin + j) < 2 ^ 128 := by
    calc (q : ℚ) * 2 ^ ((fmtOf ty).emin + j) < 2 ^ ((fmtOf ty).p : ℤ) * 2 ^ ((fmtOf ty).emin + j) :=
          mul_lt_mul_of_pos_right (by rw [zpow_natCast]; exact_mod_cast hq) (by positivity)
      _ = 2 ^ ((fmtOf ty).p + ((fmtOf ty).emin + j)) := (zpow_add₀ (by norm_num) _ _).symm
      _ ≤ 2 ^ (128 : ℤ) := zpow_le_zpow_right₀ (by norm_num) (by omega)
      _ = 2 ^ 128 := by norm_num
  obtain ⟨finite, same⟩ := pack_rat false q ((fmtOf ty).emin + j) short (by omega) bounded
  cases word : f32 (packF32 false q ((fmtOf ty).emin + j)) with
  | nan => rw [word] at finite; cases finite
  | inf t => rw [word] at finite; cases finite
  | fin t n' d' =>
    obtain ⟨c, hc, mag⟩ := mag_of_ofBits fmtF32 (by decide) word
    refine ⟨c, hc, ?_⟩
    have positive : |(FV.fin t n' d').rat| = n' / d' := by
      have ratio : (0 : ℚ) ≤ n' / d' := by positivity
      cases t <;> simp [FV.rat, abs_of_nonneg ratio]
    rw [word] at same
    rw [mag, value, ← positive, same]
    simp [abs_of_nonneg]

theorem FV.eq_self {s : Bool} {n d n' d' : Nat} (pos : 0 < d) (pos' : 0 < d') (same : (n' : ℚ) / d' = n / d) :
    (FV.fin s n' d').eq (.fin s n d) = true := by
  have value : (FV.fin s n' d').rat = (FV.fin s n d).rat := by rw [FV.rat, FV.rat, same]
  simp [FV.eq, FV.fin_lt_iff pos pos', FV.fin_lt_iff pos' pos, value]

/-- A number that is converted to f32 keeps its value and its sign. -/
theorem elemF_toF32 (ty : Nat) (mode : Nat) (a : BitVec 32) (num : (elemF ty a).isNan = false) :
    (elemF 0 (laneF 0 mode 0 (elemF ty a))).eq (elemF ty a) = true
      ∧ (elemF 0 (laneF 0 mode 0 (elemF ty a))).isNeg = (elemF ty a).isNeg := by
  have proper := elemF_proper ty a
  cases value : elemF ty a with
  | nan => rw [value] at num; cases num
  | inf s =>
    have same : elemF 0 (laneF 0 mode 0 (.inf s)) = .inf s := by
      show elemF 0 (laneF 0 0 0 (.inf s)) = .inf s
      cases s <;> decide
    rw [same]
    cases s <;> decide
  | fin s n d =>
    rw [value] at proper
    obtain ⟨c, hc, mag⟩ := f32_mag_of_ofBits value
    have bits : laneF 0 mode 0 (.fin s n d) = BitVec.ofNat 32 ((if s then (fmtOf 0).signBit else 0) + c) := by
      rw [laneF, FV.round]
      rw [roundMag_of_mag (fmtOf 0) (by decide) (by decide) mode (by decide) proper hc mag]
    obtain ⟨n', d', word, pos, back⟩ := elemF_signed 0 s hc
    rw [bits, word]
    exact ⟨FV.eq_self proper pos (back.trans mag), rfl⟩

end Sys2Proof.Machine
end

section
/-! SUPPORT. VCVT and VDQT (R156, R157, R190, R192): the lane of each conversion, and the draws that it takes. -/

namespace Sys2Proof.Machine

/-! ### The lanes of VCVT -/

/-- An integer type and a floating type (R56). -/
def isInt (ty : Nat) : Prop := 6 ≤ ty ∧ ty < 12

theorem isF_of_lt {ty : Nat} (h : ty < 3) : isF ty = true := decide_eq_true h
theorem isF_of_isInt {ty : Nat} (h : isInt ty) : isF ty = false := decide_eq_false (by unfold isInt at h; omega)

/-- n / d rounded to an integer as the statement has it. -/
theorem roundNat_eq (md r n d : Nat) : roundNat md r n d =
    if md = 0 then (if d < 2 * (n % d) ∨ (2 * (n % d) = d ∧ n / d % 2 = 1) then n / d + 1 else n / d)
    else if md = 2 ∧ d * 65536 ≤ n % d * 65536 + r * d then n / d + 1 else n / d := by
  unfold roundNat
  dsimp only
  by_cases stochastic : md = 2
  · simp [stochastic]
  · simp [stochastic]

section
variable {fr ty : Nat} (md r : Nat) (a : BitVec 32)

theorem cvtLane_float_int (float : fr < 3) (int : isInt ty) :
    cvtLane fr ty md r a = laneI ty ((elemF fr a).toInt md r (intLo ty) (intHi ty)) := by
  rw [cvtLane, if_pos (isF_of_lt float), isF_of_isInt int]; rfl

theorem cvtLane_int_float (int : isInt fr) (float : ty < 3) :
    cvtLane fr ty md r a = laneF ty md r (FV.ofInt (elemI fr a)) := by
  rw [cvtLane, isF_of_isInt int, if_neg Bool.false_ne_true, if_pos (isF_of_lt float)]

theorem cvtLane_wider (int : isInt fr) (int' : isInt ty) (wider : intW fr < intW ty) :
    cvtLane fr ty md r a = laneI ty (elemI fr a) := by
  rw [cvtLane, isF_of_isInt int, isF_of_isInt int', if_neg Bool.false_ne_true, if_neg Bool.false_ne_true, if_pos wider]

theorem cvtLane_clamped (int : isInt fr) (int' : isInt ty) (narrower : intW ty ≤ intW fr) :
    cvtLane fr ty md r a = laneI ty (clampI ty (elemI fr a)) := by
  rw [cvtLane, isF_of_isInt int, isF_of_isInt int', if_neg Bool.false_ne_true, if_neg Bool.false_ne_true,
    if_neg (not_lt.mpr narrower)]

theorem cvtLane_float_float (float : fr < 3) (float' : ty < 3) : cvtLane fr ty md r a = laneF ty md r (elemF fr a) := by
  rw [cvtLane, if_pos (isF_of_lt float), if_pos (isF_of_lt float')]

/-- A lane of an integer type is filled whatever it is converted from. -/
theorem cvtLane_int (from_ : fr < 3 ∨ isInt fr) (int : isInt ty) : ∃ v, cvtLane fr ty md r a = laneI ty v := by
  rcases from_ with float | int'
  · exact ⟨_, cvtLane_float_int md r a float int⟩
  · rcases Nat.lt_or_ge (intW fr) (intW ty) with wider | narrower
    · exact ⟨_, cvtLane_wider md r a int' int wider⟩
    · exact ⟨_, cvtLane_clamped md r a int' int narrower⟩

/-- The value of a floating element that is converted to an integer lies in the range of the type. -/
theorem toInt_range (ty : Nat) (v : FV) :
    intLo ty ≤ v.toInt md r (intLo ty) (intHi ty) ∧ v.toInt md r (intLo ty) (intHi ty) ≤ intHi ty := by
  obtain ⟨lo, hi⟩ := range_zero ty
  cases v with
  | nan => exact ⟨lo, hi⟩
  | inf s => cases s <;> simp only [FV.toInt] <;> constructor <;> simp <;> omega
  | fin s n d => exact clampI_range ty _

theorem elemI_cvtLane (float : fr < 3) (int : isInt ty) :
    elemI ty (cvtLane fr ty md r a) = (elemF fr a).toInt md r (intLo ty) (intHi ty) := by
  obtain ⟨lo, hi⟩ := toInt_range md r ty (elemF fr a)
  rw [cvtLane_float_int md r a float int, elemI_laneI_of_range lo hi]

/-- A NaN becomes the canonical one. -/
theorem laneF_isNan (lt : ty < 3) {v : FV} (nan : v.isNan = true) :
    laneF ty md r v = if ty = 0 then 0x7FC00000 else if ty = 1 then 0x7FC0 else 0x7E00 := by
  obtain rfl : v = .nan := by simpa [FV.isNan] using nan
  show laneF ty 0 0 .nan = _
  interval_cases ty <;> decide

end

/-! ### The draws of VCVT -/

theorem cvtRounds_iff {fr ty : Nat} (from_ : fr < 3 ∨ isInt fr) (to_ : ty < 3 ∨ isInt ty) : cvtRounds fr ty = true ↔
    (fr < 3 ∧ isInt ty) ∨ (isInt fr ∧ ty < 3) ∨ (fr < 3 ∧ ty < 3 ∧ ty ≠ 0 ∧ fr ≠ ty) := by
  unfold isInt at *
  have no {t : Nat} (h : 6 ≤ t ∧ t < 12) : ¬ t < 3 := by omega
  rcases from_ with a | a <;> rcases to_ with b | b <;> simp [cvtRounds, isF, a, b, no]
  omega

section
variable {s : State} {x : FmtV}

/-- The draws of VCVT, and the state after them. -/
def State.cvtDrawn (s : State) (x : FmtV) : List Nat × State :=
  if cvtRounds x.from0.toNat x.ty.toNat then s.started.drawn (s.thread.mode x.rnd.toNat) 64 else ([], s.started)

theorem exec_vcvt (can : s.canV1 x) : VectorResult s (s.cvtDrawn x).2 x 2
    (fun i => cvtLane x.from0.toNat x.ty.toNat (s.thread.mode x.rnd.toNat) ((s.cvtDrawn x).1.getD i 0) (s.laneA x i))
    (exec (.vcvt x) s) := by
  have kept := State.keeps3_started can.1
  have keeps : s.Keeps3 (s.cvtDrawn x).2 := by
    unfold State.cvtDrawn
    split
    · exact kept.trans (State.keeps3_drawn ..)
    · exact kept
  refine State.vectorResult_of_vmap can.1 keeps ?_ fun _ _ _ => rfl
  rw [M.bind_apply, vin_one can]
  simp only [M.bind_apply, modeOf_apply, kept.mode]
  unfold State.cvtDrawn
  cases cvtRounds x.from0.toNat x.ty.toNat <;> rfl

/-! ### The slice scale (R191, R192) -/

/-- The scalar that holds the slice scale, and the scale. -/
def scaleSrc (x : FmtV) : List Spec := if x.scl then [x.vc] else []
def State.scale (s : State) (x : FmtV) : FV := if x.scl then f32 ((s.operand [x.vc] 0).setWidth 32) else .fin false 1 1

theorem sigmaIn_read (read : s.canRead (scaleSrc x)) : sigmaIn x s.started = .ok (s.scale x, s.taken (scaleSrc x)) := by
  unfold scaleSrc at *
  unfold sigmaIn State.scale
  cases scaled : x.scl with
  | false => simp
  | true =>
    rw [scaled, if_pos rfl] at read
    simp [src_read read]

/-- VDQT: the element of the part times the slice scale, rounded. -/
theorem exec_vdqt (read : s.canRead (scaleSrc x)) (free : s.noPending (x.vd.toNat :: x.va.toNat :: maskRegs x)) :
    let bb := sgBytes x.from4.toNat
    VectorResult s ((s.taken (scaleSrc x)).drawn (s.thread.mode x.rnd.toNat) 64).2 x 2
      (fun i => laneF x.ty.toNat (s.thread.mode x.rnd.toNat)
        (((s.taken (scaleSrc x)).drawn (s.thread.mode x.rnd.toNat) 64).1.getD i 0)
        ((s.scale x).mul (sgElem x.from4.toNat
          ((s.vreg x.va.toNat).extractLsb' (8 * (x.part * 4 * bb + i / 16 * bb)) (8 * bb)).toNat (i % 16))))
      (exec (.vdqt x) s) := by
  refine State.vectorResult_of_vmapF read.1 (State.keeps3_taken read.1 _) ?_ fun _ _ => rfl
  rw [M.bind_apply, vin_one ⟨read.1, free⟩]
  simp only [M.bind_apply, sigmaIn_read read]
  rfl

end

end Sys2Proof.Machine
end

section
/-! Conversions (R156, R157, R190 to R192): the theorem that settles O15, and SUPPORT for the blocks of VQNT. -/

namespace Sys2Proof.Machine

/-! ### Numbers in fields of one width -/

/-- The number whose field `k`, of `w` bits, is `f k`, for `n` fields. -/
def packed (w n : Nat) (f : Nat → Nat) : Nat := ((List.range n).map fun k => f k * 2 ^ (w * k)).sum

theorem packed_succ (w n : Nat) (f : Nat → Nat) : packed w (n + 1) f = packed w n f + f n * 2 ^ (w * n) := by
  simp [packed, List.range_succ]

theorem packed_lt {w n : Nat} {f : Nat → Nat} (fits : ∀ k, k < n → f k < 2 ^ w) : packed w n f < 2 ^ (w * n) := by
  induction n with
  | zero => simp [packed]
  | succ n ih =>
    have below := ih fun k lt => fits k (by omega)
    have last := Nat.mul_le_mul_right (2 ^ (w * n)) (Nat.succ_le_of_lt (fits n (by omega)))
    rw [packed_succ, Nat.mul_succ, Nat.pow_add, Nat.mul_comm (2 ^ (w * n))]
    rw [Nat.succ_mul] at last
    omega

theorem packed_field {w n : Nat} {f : Nat → Nat} (fits : ∀ k, k < n → f k < 2 ^ w) {k : Nat} (h : k < n) :
    packed w n f / 2 ^ (w * k) % 2 ^ w = f k := by
  induction n with
  | zero => omega
  | succ n ih =>
    have below := packed_lt fun k lt => fits k (Nat.lt_succ_of_lt lt)
    rw [packed_succ]
    rcases Nat.lt_or_eq_of_le (Nat.le_of_lt_succ h) with less | rfl
    · obtain ⟨d, rfl⟩ : ∃ d, n = k + d + 1 := ⟨n - k - 1, by omega⟩
      have apart : f (k + d + 1) * 2 ^ (w * (k + d + 1)) = 2 ^ (w * k) * (2 ^ w * (2 ^ (w * d) * f (k + d + 1))) := by
        rw [Nat.mul_succ, Nat.mul_add, Nat.pow_add, Nat.pow_add]; ring
      rw [apart, Nat.add_mul_div_left _ _ (Nat.two_pow_pos _), Nat.add_mul_mod_self_left]
      exact ih (fun k lt => fits k (by omega)) less
    · rw [Nat.add_mul_div_right _ _ (Nat.two_pow_pos _), Nat.div_eq_of_lt below, Nat.zero_add, Nat.mod_eq_of_lt (fits k h)]

/-! ### A block lies within its bytes (R158, R160, R161) -/

theorem sgBytes_eq {ty : Nat} (sg : 3 ≤ ty) (lt : ty < 6) : 8 * sgBytes ty = 16 + (sgM ty + 1) * 16 := by
  interval_cases ty <;> rfl

/-- A block of an exponent, quad shifts and elements that fit their fields. -/
theorem block_lt {m e : Nat} {g el : Nat → Nat} (he : e < 2 ^ 8) (hg : ∀ q, q < 4 → g q < 2 ^ 2)
    (hel : ∀ i, i < 16 → el i < 2 ^ (m + 1)) :
    e + ((List.range 4).map fun q => g q * 2 ^ (8 + 2 * q)).sum + ((List.range 16).map fun i => el i * 2 ^ (16 + (m + 1) * i)).sum
      < 2 ^ (16 + (m + 1) * 16) := by
  have shifted (n w base : Nat) (f : Nat → Nat) :
      ((List.range n).map fun k => f k * 2 ^ (base + w * k)).sum = packed w n f * 2 ^ base := by
    rw [packed, ← List.sum_map_mul_right]
    congr 1
    refine List.map_congr_left fun k _ => ?_
    rw [Nat.pow_add]; ring
  rw [shifted, shifted, Nat.pow_add]
  have quads := packed_lt hg
  have elements := packed_lt hel
  have top := Nat.mul_le_mul_left (2 ^ 16) (Nat.succ_le_of_lt elements)
  rw [Nat.mul_succ] at top
  omega

theorem find_getD_lt {l : List Nat} {p : Nat → Bool} {d bound : Nat} (all : ∀ v ∈ l, v < bound) (h : d < bound) :
    (l.find? p).getD d < bound := by
  cases found : l.find? p with
  | none => exact h
  | some v => exact all v (List.mem_of_find?_eq_some found)

/-- A magnitude that is saturated, with a sign above it. -/
theorem element_lt (m v : Nat) (c : Prop) [Decidable c] : (if c then 2 ^ m else 0) + Nat.min v (2 ^ m - 1) < 2 ^ (m + 1) := by
  have most : 1 ≤ 2 ^ m := Nat.one_le_two_pow
  have capped : Nat.min v (2 ^ m - 1) ≤ 2 ^ m - 1 := Nat.min_le_right ..
  rw [Nat.pow_succ]
  split <;> omega

theorem sgQuant_lt (ty mode : Nat) (ys : List FV) (rs : List Nat) : sgQuant ty mode ys rs < 2 ^ (16 + (sgM ty + 1) * 16) := by
  unfold sgQuant
  dsimp only
  split
  · exact lt_of_lt_of_le (by decide : 255 < 2 ^ 16) (Nat.pow_le_pow_right (by decide) (Nat.le_add_right ..))
  · refine block_lt ?_ (fun q lt => ?_) fun i lt => ?_
    · split
      · decide
      · exact find_getD_lt (fun e member => (List.mem_range.mp member).trans (by decide)) (by decide)
    · rw [List.getD_eq_getElem _ _ (by simpa using lt), List.getElem_map]
      exact find_getD_lt (by decide) (by decide)
    · exact element_lt ..

/-! ### Fields of a blend -/

section
variable (old new : BitVec 2048) {keep : BitVec 2048} {at_ len : Nat}

theorem blend_field_written (ones : ∀ t, t < len → keep.getLsbD (at_ + t) = true) :
    (blend old new keep).extractLsb' at_ len = new.extractLsb' at_ len := by
  refine BitVec.eq_of_getLsbD_eq fun t lt => ?_
  rw [BitVec.getLsbD_extractLsb', BitVec.getLsbD_extractLsb', blend, BitVec.getLsbD_or, BitVec.getLsbD_and, BitVec.getLsbD_and,
    BitVec.getLsbD_not, ones t lt]
  simp

theorem blend_field_kept (inside : at_ + len ≤ 2048) (zeros : ∀ t, t < len → keep.getLsbD (at_ + t) = false) :
    (blend old new keep).extractLsb' at_ len = old.extractLsb' at_ len := by
  refine BitVec.eq_of_getLsbD_eq fun t lt => ?_
  have wide : at_ + t < 2048 := by omega
  rw [BitVec.getLsbD_extractLsb', BitVec.getLsbD_extractLsb', blend, BitVec.getLsbD_or, BitVec.getLsbD_and, BitVec.getLsbD_and,
    BitVec.getLsbD_not, zeros t lt]
  simp [wide]

end

/-- The bits of a run of ones. -/
theorem getLsbD_run (at_ len : Nat) {i : Nat} (h : i < 2048) :
    (BitVec.ofNat 2048 (2 ^ len - 1) <<< at_).getLsbD i = decide (at_ ≤ i ∧ i < at_ + len) := by
  have low : i - at_ < 2048 := by omega
  rw [BitVec.getLsbD_shiftLeft, BitVec.getLsbD_ofNat, Nat.testBit_two_pow_sub_one, Bool.eq_iff_iff]
  simp only [h, low, Bool.and_eq_true, decide_eq_true_iff, Bool.not_eq_true', decide_eq_false_iff_not, true_and]
  omega

/-- A field of a number that stands from a bit on. -/
theorem shifted_field {width v w n at_ : Nat} (k : Nat) (lt : v < 2 ^ (w * n)) (fits : at_ + w * n ≤ width) :
    ((BitVec.ofNat width v <<< at_).extractLsb' (at_ + w * k) w).toNat = v / 2 ^ (w * k) % 2 ^ w := by
  have shifted : v * 2 ^ at_ < 2 ^ width := by
    refine lt_of_lt_of_le (Nat.mul_lt_mul_of_pos_right lt (Nat.two_pow_pos at_)) ?_
    rw [← Nat.pow_add]
    exact Nat.pow_le_pow_right (by decide) (by omega)
  have plain : v < 2 ^ width := lt_of_lt_of_le lt (Nat.pow_le_pow_right (by decide) (by omega))
  rw [BitVec.extractLsb'_toNat, BitVec.toNat_shiftLeft, BitVec.toNat_ofNat, Nat.mod_eq_of_lt plain, Nat.shiftLeft_eq,
    Nat.mod_eq_of_lt shifted, Nat.shiftRight_eq_div_pow, Nat.pow_add, Nat.mul_comm v, Nat.mul_div_mul_left _ _ (Nat.two_pow_pos at_)]

/-! ### VQNT (R191) -/

section
variable {s : State} {x : FmtV}

/-- Block `k` of a part: the 16 lanes over the slice scale, quantised. -/
def State.quantBlock (s : State) (x : FmtV) (k : Nat) : Nat :=
  sgQuant x.ty.toNat (s.thread.mode x.rnd.toNat)
    ((List.range 16).map fun j => (elemF x.from4.toNat (s.laneA x (16 * k + j))).div (s.scale x))
    (((((s.taken (scaleSrc x)).drawn (s.thread.mode x.rnd.toNat) 64).1.drop (16 * k)).take 16))

/-- VQNT's result: the bytes of one part. -/
def quantResult (s : State) (x : FmtV) : Pending where
  reg := x.vd.toNat
  due := 8 * (s.me.turn + 4)
  value := BitVec.ofNat 2048 (packed (8 * sgBytes x.ty.toNat) 4 (s.quantBlock x)) <<< (8 * (x.part * 4 * sgBytes x.ty.toNat))
  keep := BitVec.ofNat 2048 (2 ^ (8 * 4 * sgBytes x.ty.toNat) - 1) <<< (8 * (x.part * 4 * sgBytes x.ty.toNat))

theorem exec_vqnt (read : s.canRead (scaleSrc x)) (free : s.noPending [x.vd.toNat, x.va.toNat]) : exec (.vqnt x) s =
    (((s.taken (scaleSrc x)).drawn (s.thread.mode x.rnd.toNat) 64).2.modThread fun b =>
      { b with pend := b.pend ++ [quantResult s x] }).goesOn x.e x.w := by
  have kept := State.keeps3_taken read.1 (scaleSrc x)
  have turn := (kept.trans ((s.taken (scaleSrc x)).keeps3_drawn (s.thread.mode x.rnd.toNat) 64)).turn
  refine State.instr_ok read.1 x.e x.w ?_
  simp only [M.bind_apply, checkPend_free read.1 free (r := x.vd.toNat) (by simp),
    readV_free read.1 free (r := x.va) (by simp), sigmaIn_read read, modeOf_apply, kept.mode, draws_apply, result, core_apply,
    modThread_apply, turn]
  rfl

/-- Byte `j` lies outside the part. -/
theorem quantResult_outside (old : BitVec 2048) {j : Nat} (h : j < 256)
    (out : j < x.part * (4 * sgBytes x.ty.toNat) ∨ x.part * (4 * sgBytes x.ty.toNat) + 4 * sgBytes x.ty.toNat ≤ j) :
    (blend old (quantResult s x).value (quantResult s x).keep).extractLsb' (8 * j) 8 = old.extractLsb' (8 * j) 8 := by
  refine blend_field_kept _ _ (by omega) fun t lt => ?_
  rw [quantResult, getLsbD_run _ _ (by omega), Nat.mul_assoc x.part]
  refine decide_eq_false ?_
  omega

/-- Block `k` of the part is written. -/
theorem quantResult_block (sg : 3 ≤ x.ty.toNat) (lt6 : x.ty.toNat < 6)
    (fits : x.part * (4 * sgBytes x.ty.toNat) + 4 * sgBytes x.ty.toNat ≤ 256) (old : BitVec 2048) {k : Nat} (h : k < 4) :
    ((blend old (quantResult s x).value (quantResult s x).keep).extractLsb'
      (8 * (x.part * (4 * sgBytes x.ty.toNat) + sgBytes x.ty.toNat * k)) (8 * sgBytes x.ty.toNat)).toNat = s.quantBlock x k := by
  have small : ∀ k, k < 4 → s.quantBlock x k < 2 ^ (8 * sgBytes x.ty.toNat) := fun k _ => by
    rw [sgBytes_eq sg lt6]
    exact sgQuant_lt ..
  have place : 8 * (x.part * (4 * sgBytes x.ty.toNat) + sgBytes x.ty.toNat * k)
      = 8 * (x.part * 4 * sgBytes x.ty.toNat) + 8 * sgBytes x.ty.toNat * k := by ring
  have within : sgBytes x.ty.toNat * k + sgBytes x.ty.toNat ≤ 4 * sgBytes x.ty.toNat := by
    rw [← Nat.mul_succ, Nat.mul_comm]
    exact Nat.mul_le_mul_right _ (by omega)
  rw [blend_field_written _ _ fun t lt => ?_]
  · rw [place, quantResult]
    rw [shifted_field k (packed_lt small) (by rw [Nat.mul_assoc x.part]; omega)]
    exact packed_field small h
  · rw [quantResult, getLsbD_run _ _ (by omega), Nat.mul_assoc x.part]
    exact decide_eq_true (by omega)

end

/-! ### VCVT (R190) -/

theorem State.cvtDrawn_exact {s : State} {x : FmtV} (h : cvtRounds x.from0.toNat x.ty.toNat = false) (i : Nat) :
    (s.cvtDrawn x).1.getD i 0 = 0 := by
  rw [State.cvtDrawn, h]; rfl

section
variable {fr ty : Nat} (md r : Nat) (a : BitVec 32)

/-- From an integer type to a wider one the element is extended as its source says. -/
theorem setWidth_cvtLane_wider (int : isInt fr) (int' : isInt ty) (wider : intW fr < intW ty) :
    (cvtLane fr ty md r a).setWidth (intW ty) =
      if intSigned fr then (a.setWidth (intW fr)).signExtend (intW ty) else (a.setWidth (intW fr)).setWidth (intW ty) := by
  rw [cvtLane_wider md r a int int' wider, setWidth_laneI, ofInt_elemI]

/-- To a narrower one, or one of the same width, it is clamped. -/
theorem elemI_cvtLane_clamped (int : isInt fr) (int' : isInt ty) (narrower : intW ty ≤ intW fr) :
    elemI ty (cvtLane fr ty md r a) = clampI ty (elemI fr a) := by
  rw [cvtLane_clamped md r a int int' narrower, elemI_laneI_clampI]

/-- A finite floating element is rounded to an integer and clamped. -/
theorem elemI_cvtLane_fin (float : fr < 3) (int : isInt ty) {neg : Bool} {n d : Nat} (value : elemF fr a = .fin neg n d) :
    elemI ty (cvtLane fr ty md r a)
      = clampI ty (if neg then -(roundNat md r n d : Int) else roundNat md r n d) := by
  rw [elemI_cvtLane md r a float int, value]
  rfl

end

/-- Settles O15: each pair of types by the lemma for its lane, the blocks of VQNT by their fields. -/
theorem vectorConversions : Obligations.VectorConversions := by
  unfold Obligations.VectorConversions
  intro x s ty md sc sg
  refine ⟨fun can => ?_, fun read free => ?_, fun read free => exec_vdqt read free⟩
  · intro fr isI rounds d from_ to_
    have drawn : d = s.cvtDrawn x := if_congr (cvtRounds_iff from_ to_).symm rfl rfl
    clear_value d
    subst drawn
    refine ⟨_, exec_vcvt can, fun i h => ?_⟩
    intro a r clamp near filled
    have fills (int : isI ty) : filled := by
      obtain ⟨v, lane_⟩ := cvtLane_int md r a from_ int
      show cvtLane fr ty md r a = _
      rw [lane_]
      exact laneI_filled ty v
    have undrawn (none_ : ¬ rounds) : r = 0 :=
      State.cvtDrawn_exact (Bool.eq_false_iff.mpr fun yes => none_ ((cvtRounds_iff from_ to_).mp yes)) i
    have floats (float : fr < 3) (float' : ty < 3) (copies : ¬ (ty ≠ 0 ∧ fr ≠ ty)) : ¬ rounds := by
      rintro (⟨-, int⟩ | ⟨int, -⟩ | ⟨-, -, narrows⟩)
      · exact absurd float' (by have := int.1; omega)
      · exact absurd float (by have := int.1; omega)
      · exact copies narrows
    refine ⟨fun float int => ⟨fills int, fun nan => ?_, fun neg inf => ?_, fun neg n d value => ?_⟩,
      fun int float => cvtLane_int_float md r a int float, fun int int' => ⟨fills int', fun wider => ?_, fun narrower => ?_⟩,
      fun float float' => ⟨fun nan => ?_, fun same num => ?_, fun other single num => ?_, fun other narrow => ?_⟩⟩
    · exact (elemI_cvtLane md r a float int).trans (by rw [nan]; rfl)
    · exact (elemI_cvtLane md r a float int).trans (by rw [inf]; rfl)
    · refine (elemI_cvtLane_fin md r a float int value).trans ?_
      rw [roundNat_eq]
      rfl
    · exact setWidth_cvtLane_wider md r a int int' wider
    · exact elemI_cvtLane_clamped md r a int int' narrower
    · exact (cvtLane_float_float md r a float float').trans (laneF_isNan md r float' nan)
    · have drawless : r = 0 := undrawn (floats float float' fun h => h.2 same)
      refine (cvtLane_float_float md r a float float').trans ?_
      rw [same] at num ⊢
      rw [drawless]
      exact laneF_elemF md a num
    · have drawless : r = 0 := undrawn (floats float float' fun h => h.1 single)
      have lane_ : cvtLane fr ty md r a = laneF 0 md 0 (elemF fr a) := by
        rw [cvtLane_float_float md r a float float', drawless, single]
      show (elemF 0 (cvtLane fr ty md r a)).eq _ = true ∧ (elemF 0 (cvtLane fr ty md r a)).isNeg = _
      rw [lane_]
      exact elemF_toF32 fr md a num
    · refine ⟨cvtLane_float_float md r a float float', fun neg n d value away => ?_⟩
      have lane_ : cvtLane fr ty md r a = laneF ty md r (.fin neg n d) := by
        rw [cvtLane_float_float md r a float float', value]
      show ∃ n' d', elemF ty (cvtLane fr ty md r a) = .fin neg n' d'
      rw [lane_]
      exact laneF_finite ty away r neg n d
  · intro rs n
    exact ⟨quantResult s x, rfl, rfl, exec_vqnt read free, fun old j h out => quantResult_outside old h out,
      fun sg_ lt fits old k h => quantResult_block sg_ lt fits old h⟩

end Sys2Proof.Machine
end
